-- ==== Sys2Proof/Word.lean ====
section
/-! DEFINITION. The words of the Cairnet K412: what the manual treats as bits. -/

namespace Sys2Proof

/-- A byte of a frame, a sensor word or a label (R16, R170). -/
abbrev Byte := BitVec 8

/-- A 16-bit value: the CRC and the consignment token (R127). -/
abbrev Word16 := BitVec 16

/-- A value of the vault clock, a 32-bit count of seconds that wraps (R12). -/
abbrev Clock := BitVec 32

/-- A location code: aisle in the top eight bits, then bay, then slot (R2). -/
abbrev Location := BitVec 24

/-- A label as a frame carries it: its bytes in order. Good form is checked by R83. -/
abbrev Label := List Byte

end Sys2Proof
end

