-- ==== Sys2Proof/Config.lean ====
section
/-! DEFINITION. The numbers the manual fixes for the part. One free value stands here (log 19);
the bytes of the frames that the manual does not lay out stand beside the frames in Machine/Frames.lean (log 7). -/

namespace Sys2Proof.Config

/-- How many of the five bytes are in when a read reaches its 150 ms limit, by the number of such reads before it: a
free value (R16; log 19). -/
opaque bytesBeforeLimit : Nat → Fin 5

/-- The top of every 32-bit count that saturates (R14, R73, R74). -/
abbrev max32 : Nat := 4294967295
/-- Storage places of the custody table (R82). -/
abbrev custodyPlaces : Nat := 2048
/-- Entries the check-out queue may hold (R103). -/
abbrev queueCapacity : Nat := 24
/-- Queue length at which HOLD is sent (R106). -/
abbrev holdMark : Nat := 20
/-- Queue length at or below which RESUME is sent (R106). -/
abbrev resumeMark : Nat := 8
/-- Notices a link unit's queue holds (R175). -/
abbrev noticeCapacity : Nat := 16
/-- Waiting responses a link unit holds of those it made itself (R175). -/
abbrev ownResponses : Nat := 4
/-- Labels of one consignment's outbound list (R122). -/
abbrev outboundCapacity : Nat := 8
/-- Entries of the hatch contents list (R149). -/
abbrev hatchCapacity : Nat := 12
/-- Mismatches that lock a consignment out (R159). -/
abbrev lockoutCount : Nat := 3
/-- Consecutive invalid reads that make a channel FAILED (R20). -/
abbrev failedCount : Nat := 3
/-- Period of the climate sweeps and of the clock snapshots, in seconds (R13, R17). -/
abbrev sweepPeriod : Nat := 60
/-- Time the sensor bus is waited for, in seconds (R18). -/
abbrev busWait : Nat := 30
/-- Minimum off time of a dehumidifier, in seconds (R25). -/
abbrev minimumOff : Nat := 180
/-- Length of the release pulse, in seconds (R50). -/
abbrev pulseLength : Nat := 2
/-- Time after which an open door is reported HELD, in seconds (R138). -/
abbrev doorHeldTime : Nat := 180
/-- Time within which a released latch's door must open, in seconds (R143). -/
abbrev latchLapseTime : Nat := 60
/-- Silence after which the facility link is lost, in seconds (R177). -/
abbrev silenceTime : Nat := 20
/-- Largest LEN of a frame (R170). -/
abbrev maxBody : Nat := 96
/-- SYNC, the first byte of every frame (R170). -/
abbrev sync : Byte := 0xA5#8
/-- The polynomial of the part's one CRC (R127). -/
abbrev crcPoly : Word16 := 0x1021#16
/-- The value the CRC starts from (R127). -/
abbrev crcInit : Word16 := 0xFFFF#16

end Sys2Proof.Config
end

