-- ==== Sys2Proof/Syntax.lean ====
section
/-! DEFINITION. The commands of the K412, one constructor per row of spec/opcode_table.json, and the
names their operands use. A request carries its header and its fields; a field that names one of a
few values is `none` where the bytes sent name none of them, and a number is the number sent. -/

namespace Sys2Proof

/-- The three serial ports (00_scope.md, Ports). -/
inductive Port where
  | facility | archive | handover
  deriving DecidableEq, Repr

/-- The four areas (R1). -/
inductive Area where
  | vaultA | vaultB | staging | hatch
  deriving DecidableEq, Repr

/-- The five sensor channels: one for each area, and the Outside (R1). -/
inductive Channel where
  | area (a : Area)
  | outside
  deriving DecidableEq, Repr

/-- The two sides of the hatch, and its two doors (R136, R140). -/
inductive Side where
  | inner | outer
  deriving DecidableEq, Repr

/-- A debounced level of a discrete input (R37). -/
inductive Level where
  | low | high
  deriving DecidableEq, Repr

/-- The vault modes (R9). -/
inductive VaultMode where
  | staffed | unstaffed | maintenance
  deriving DecidableEq, Repr

/-- The coincidence setting of an area (R58). -/
inductive Coincidence where
  | single | double
  deriving DecidableEq, Repr

/-- The polarity of a detector's alarm line: the level at which it is active (R38). -/
inductive Polarity where
  | activeHigh | activeLow
  deriving DecidableEq, Repr

/-- A detector D1..D12, numbered from 0 here (R38). -/
abbrev Detector := Fin 12

/-- What the sensor's read brought in: nothing, its address not acknowledged, or five bytes (R16). -/
inductive SensorReading where
  | noAck
  | word (b1 b2 b3 b4 b5 : Byte)
  deriving DecidableEq, Repr

/-- What the K412 puts on the sensor bus: a start condition, a sensor's address with the read direction, the
acknowledgement of a byte, the missing one, a stop condition (R16). -/
inductive BusSignal where
  | start
  | addressRead (address : BitVec 7)
  | acknowledge
  | noAcknowledge
  | stop
  deriving DecidableEq, Repr

/-- The purpose field of HATCH_REQUEST (R141): absent, LOAD n, UNLOAD, or a value naming neither. -/
inductive PurposeField where
  | absent
  | load (number : Nat)
  | unload
  | unnamed
  deriving DecidableEq, Repr

/-- The assignment field of SET_FIRE's detector form (R59): an area number, or unassigned. -/
inductive AssignField where
  | area (number : Nat)
  | unassigned
  deriving DecidableEq, Repr

/-- The nine fields of SET_STAGING as sent (R79). -/
structure StagingFields where
  marginOut : Nat
  minDwellOut : Nat
  minDwellIn : Nat
  rhCeiling : Nat
  inboundRef : Nat
  inboundReserve : Nat
  pickTimeout : Nat
  doseLimit : Nat
  exchangeTimeout : Nat
  deriving DecidableEq, Repr

/-- The six settings of SET_CLIMATE as sent, and as an area holds them (R33). -/
structure ClimateSettings where
  rhTarget : Nat
  rhBand : Nat
  heatTarget : Nat
  alarmIndex : Nat
  doseThreshold : Nat
  coupling : Nat
  deriving DecidableEq, Repr

/-- The records of the store (R179). Custody places are 0..2047. -/
inductive StoreRecord where
  | config
  | custody (place : Nat)
  | key (place : Nat)
  | consignment (place : Fin 16)
  | counter
  | slot (n : Fin 32)
  | hatchList
  | accumulator (a : Area)
  | fireFlags (a : Area)
  | snapshot
  | status
  deriving DecidableEq, Repr

/-- One of the two copies of a store record (R179). -/
structure StoreCopy where
  record : StoreRecord
  second : Bool
  deriving DecidableEq, Repr

/-- A byte on a port's receive line, with whether its stop bit was there (R170, R171). -/
structure LineByte where
  value : Byte
  stopBit : Bool
  deriving DecidableEq, Repr

/-- The header of a request: the port it came in on, its TAG, and whether its LEN is the body length
of its kind (R170, R172; log 7, DESIGN CHOICE). -/
structure ReqHead where
  port : Port
  tag : Byte
  lengthRight : Bool
  deriving DecidableEq, Repr

/-- The commands, one for each row of the opcode table. -/
inductive Instr where
  -- supply and reset (R180)
  | powerOn (bad : List StoreCopy)
  | resetLineLow
  | resetLineHigh (bad : List StoreCopy)
  | restartTaken (bad : List StoreCopy)
  -- requests taken on every port
  | status (h : ReqHead)
  | subscribe (h : ReqHead) (mask : Byte)
  | areaQuery (h : ReqHead) (channel : Nat)
  -- facility requests
  | setMode (h : ReqHead) (mode : Option VaultMode)
  | setTime (h : ReqHead) (seconds : Clock)
  | setDescriptor (h : ReqHead) (index : Nat) (enabled : Option Bool) (prefixValue : Location) (prefixLength : Nat) (area : Nat)
  | rezoneSweepStep
  | rezoneDone
  | setClimate (h : ReqHead) (area : Nat) (fields : ClimateSettings)
  | clearClimateFlags (h : ReqHead) (area : Nat)
  | setFireArea (h : ReqHead) (area : Nat) (coincidence : Option Coincidence) (delay : Nat) (vent : Nat)
  | setFireDetector (h : ReqHead) (detector : Nat) (assignment : AssignField) (polarity : Option Polarity)
  | recharged (h : ReqHead) (area : Nat)
  | isolate (h : ReqHead) (detector : Nat) (switch : Option Bool)
  | confirmArea (h : ReqHead) (area : Nat)
  | resetArea (h : ReqHead) (area : Nat)
  | format (h : ReqHead)
  | formatDone
  | restart (h : ReqHead)
  -- custody requests
  | enrol (h : ReqHead) (label : Label) (location : Location)
  | retire (h : ReqHead) (label : Label)
  | relocate (h : ReqHead) (label : Label) (location : Location)
  | custodyQuery (h : ReqHead) (label : Label)
  | doseReset (h : ReqHead) (label : Label)
  -- check-out and staging
  | checkout (h : ReqHead) (label : Label)
  | cancel (h : ReqHead) (label : Label)
  | placed (h : ReqHead) (label : Label) (slot : Nat)
  | shelved (h : ReqHead) (label : Label) (location : Location)
  | slotQuery (h : ReqHead) (slot : Nat)
  | setStaging (h : ReqHead) (fields : StagingFields)
  -- consignments
  | consignOpen (h : ReqHead) (courier : Nat) (expected : Nat)
  | consignAdd (h : ReqHead) (number : Nat) (label : Label)
  | consignRemove (h : ReqHead) (number : Nat) (label : Label)
  | consignSeal (h : ReqHead) (number : Nat)
  | consignCancel (h : ReqHead) (number : Nat)
  | consignUnlock (h : ReqHead) (number : Nat)
  | consignQuery (h : ReqHead) (number : Nat)
  -- the hatch
  | hatchRequest (h : ReqHead) (purpose : PurposeField)
  | hatchRelease (h : ReqHead)
  | loaded (h : ReqHead) (label : Label)
  | unloaded (h : ReqHead) (label : Label)
  -- the courier exchange
  | arrive (h : ReqHead) (number : Nat) (courier : Nat) (token : Word16)
  | taken (h : ReqHead) (label : Label)
  | deposited (h : ReqHead) (label : Label)
  | exchangeQuery (h : ReqHead)
  -- other frames, and the links' own events
  | unknownRequestKind (h : ReqHead) (kind : Byte)
  | nonRequestFrame (port : Port) (kind : Byte)
  | frameDiscarded (port : Port) (bytes : List LineByte)
  | interByteGapTimeout (port : Port)
  | frameTransmitEnd (port : Port)
  | facilityLinkLost
  | storeWriteEnd
  | clockSnapshot
  -- the climate unit's events
  | sweepDue
  | sensorReadStart
  | readTimeLimit
  | busWaitTimeout
  | sampleEvent (reading : SensorReading)
  -- the fire unit's events
  | detectorLineChange (detector : Detector) (alarmLine : Level) (faultLine : Level)
  | callPointOperated (area : Area)
  | abortHoldActive
  | abortHoldReleased
  | retakeAtScan
  | dischargeDelayExpiry (area : Area)
  | releasePulseEnd (area : Area)
  | ventTimeExpiry (area : Area)
  -- the hatch unit's and the staging unit's events
  | doorOpened (door : Side)
  | doorClosed (door : Side)
  | doorHeld (door : Side)
  | latchLapse
  | pickLapsed (slot : Fin 32)
  | exchangeTimeout
  | timeBaseSecond
  | callPointInactive (area : Area)
  | lossOfSupply
  deriving DecidableEq, Repr

end Sys2Proof
end

