-- ==== Sys2Proof/WellFormed.lean ====
section
/-! DEFINITION. The commands that a line or a pin can carry. A label field is eight bytes (R170), a
numbered field of two bytes is at most 65535 (R127), a setting of four bytes at most 4 294 967 295,
a store copy names a place of the table (R82), an unknown kind lies below 40 hex and the kind of a
frame that is no request at 40 hex or above (R171). -/

namespace Sys2Proof

/-- The store record exists in the part (R179). -/
def StoreRecord.wf : StoreRecord → Bool
  | .custody p => decide (p < Config.custodyPlaces)
  | .key p => decide (p < Config.custodyPlaces)
  | _ => true

/-- A label field as a frame carries it: eight bytes (R83, R170). -/
def Label.eightBytes (l : Label) : Bool := l.length == 8

/-- A field of two bytes. -/
def fitsTwoBytes (n : Nat) : Bool := decide (n ≤ 65535)

/-- Every copy named exists. -/
def copiesWf (bad : List StoreCopy) : Bool := bad.all fun c => c.record.wf

/-- The command can come in on a line or a pin. -/
def Instr.wf : Instr → Bool
  | .powerOn bad => copiesWf bad
  | .resetLineHigh bad => copiesWf bad
  | .restartTaken bad => copiesWf bad
  | .enrol _ l _ => Label.eightBytes l
  | .retire _ l => Label.eightBytes l
  | .relocate _ l _ => Label.eightBytes l
  | .custodyQuery _ l => Label.eightBytes l
  | .doseReset _ l => Label.eightBytes l
  | .checkout _ l => Label.eightBytes l
  | .cancel _ l => Label.eightBytes l
  | .placed _ l _ => Label.eightBytes l
  | .shelved _ l _ => Label.eightBytes l
  | .loaded _ l => Label.eightBytes l
  | .unloaded _ l => Label.eightBytes l
  | .taken _ l => Label.eightBytes l
  | .deposited _ l => Label.eightBytes l
  | .consignOpen _ c _ => fitsTwoBytes c
  | .consignAdd _ n l => fitsTwoBytes n && Label.eightBytes l
  | .consignRemove _ n l => fitsTwoBytes n && Label.eightBytes l
  | .consignSeal _ n => fitsTwoBytes n
  | .consignCancel _ n => fitsTwoBytes n
  | .consignUnlock _ n => fitsTwoBytes n
  | .consignQuery _ n => fitsTwoBytes n
  | .hatchRequest _ (.load n) => fitsTwoBytes n
  | .hatchRequest _ .absent => true
  | .hatchRequest _ .unload => true
  | .hatchRequest _ .unnamed => true
  | .arrive _ n c _ => fitsTwoBytes n && fitsTwoBytes c
  | .setStaging _ f => decide (f.doseLimit ≤ Config.max32)
  | .unknownRequestKind _ k => decide (k.toNat < 0x40)
  | .nonRequestFrame _ k => decide (0x40 ≤ k.toNat)
  | .resetLineLow => true
  | .status _ => true
  | .subscribe _ _ => true
  | .areaQuery _ _ => true
  | .setMode _ _ => true
  | .setTime _ _ => true
  | .setDescriptor _ _ _ _ _ _ => true
  | .rezoneSweepStep => true
  | .rezoneDone => true
  | .setClimate _ _ _ => true
  | .clearClimateFlags _ _ => true
  | .setFireArea _ _ _ _ _ => true
  | .setFireDetector _ _ _ _ => true
  | .recharged _ _ => true
  | .isolate _ _ _ => true
  | .confirmArea _ _ => true
  | .resetArea _ _ => true
  | .format _ => true
  | .formatDone => true
  | .restart _ => true
  | .slotQuery _ _ => true
  | .hatchRelease _ => true
  | .exchangeQuery _ => true
  | .frameDiscarded _ _ => true
  | .interByteGapTimeout _ => true
  | .frameTransmitEnd _ => true
  | .facilityLinkLost => true
  | .storeWriteEnd => true
  | .clockSnapshot => true
  | .sweepDue => true
  | .sensorReadStart => true
  | .readTimeLimit => true
  | .busWaitTimeout => true
  | .sampleEvent _ => true
  | .detectorLineChange _ _ _ => true
  | .callPointOperated _ => true
  | .abortHoldActive => true
  | .abortHoldReleased => true
  | .retakeAtScan => true
  | .dischargeDelayExpiry _ => true
  | .releasePulseEnd _ => true
  | .ventTimeExpiry _ => true
  | .doorOpened _ => true
  | .doorClosed _ => true
  | .doorHeld _ => true
  | .latchLapse => true
  | .pickLapsed _ => true
  | .exchangeTimeout => true
  | .timeBaseSecond => true
  | .callPointInactive _ => true
  | .lossOfSupply => true

end Sys2Proof
end

