-- ==== Sys2Proof/Machine/State.lean ====
section
/-! DEFINITION. The state of the K412, block by block, as plain data, and the state after reset. -/

namespace Sys2Proof.Machine

/-! ## Shapes -/

/-- One value for each area. -/
structure PerArea (α : Type) where
  vaultA : α
  vaultB : α
  staging : α
  hatch : α
  deriving DecidableEq, Repr

/-- One value for each sensor channel. -/
structure PerChannel (α : Type) where
  areas : PerArea α
  outside : α
  deriving DecidableEq, Repr

/-! ## The whole part -/

/-- Whether the part runs, is held stopped by the reset line, or has no supply (R180). -/
inductive Power where
  | running | stopped | off
  deriving DecidableEq, Repr

/-! ## The input scan (chapter 3) -/

/-- A discrete input at the input scan: the level on its pin, and the level that the last scan sampled (R37). The
debounced level stands with the block that owns the input. -/
structure Pin where
  now : Level
  sample : Level
  deriving DecidableEq, Repr

/-- The discrete inputs: the two lines of each detector, the call points, the abort-hold switch, the contacts of the
hatch doors and the reset line (R37; pins, log 6, DESIGN CHOICE). -/
structure Inputs where
  alarm : Vector Pin 12
  fault : Vector Pin 12
  call : PerArea Pin
  abort : Pin
  inner : Pin
  outer : Pin
  reset : Pin
  /-- How many reads of the sensor bus their limit has ended, which numbers the free value that says how many bytes were
  in (R16; the model's own, log 19). -/
  limitedReads : Nat
  deriving DecidableEq, Repr

/-! ## Area and location unit (chapter 1) -/

/-- A location descriptor (R3). -/
structure Descriptor where
  enabled : Bool
  prefixValue : Location
  prefixLength : Nat
  area : Area
  deriving DecidableEq, Repr

/-- The area and location unit (R3, R6, R9, R12, R13, R14). -/
structure VaultUnit where
  mode : VaultMode
  clock : Clock
  clockSuspect : Bool
  uptime : Nat
  descriptors : Vector Descriptor 8
  /-- The rezone sweep in flight: the place it goes on from (R6), until its records are written (R8; log 38, DEDUCED). -/
  rezone : Option Nat
  /-- The uptime of the last snapshot point taken (R13). -/
  lastSnapshotAt : Option Nat
  deriving DecidableEq, Repr

/-! ## Climate unit (chapter 2) -/

/-- The health of a channel (R20). -/
inductive ChannelState where
  | none | good | stale | failed
  deriving DecidableEq, Repr

/-- Held temperature and humidity, present or absent together (R20). -/
structure Held where
  temperature : Int
  humidity : Nat
  deriving DecidableEq, Repr

/-- A channel record (R20). -/
structure ChannelRecord where
  state : ChannelState
  held : Option Held
  missCount : Nat
  reported : Bool
  deriving DecidableEq, Repr

/-- The control record of an area (R23). The heater is absent in the vault areas (log 24, DEDUCED). -/
structure AreaControl where
  damperOpen : Bool
  dehumidifier : Bool
  deferred : Bool
  lastOff : Nat
  heater : Option Bool
  highRh : Bool
  deriving DecidableEq, Repr

/-- The climate sweep: idle, waiting for the bus since an uptime, in a channel's read transaction, or
with a channel's read ended as unacknowledged (R16, R17, R18). -/
inductive Sweep where
  | idle
  | waiting (c : Channel) (since : Nat)
  | reading (c : Channel)
  | ended (c : Channel)
  deriving DecidableEq, Repr

/-- The climate unit (R17, R20, R23, R29, R33). -/
structure ClimateUnit where
  channels : PerChannel ChannelRecord
  controls : PerArea AreaControl
  fan : Bool
  sweep : Sweep
  /-- What the K412 has put on the sensor bus in the latest read transaction, in order (R16). -/
  bus : List BusSignal
  dropped : Nat
  /-- The uptime of the last sweep point taken (R17). -/
  lastSweepDueAt : Option Nat
  settings : PerArea ClimateSettings
  deriving DecidableEq, Repr

/-! ## Custody table (chapter 5) -/

/-- The custody states (R84, R88). -/
inductive CustodyState where
  | inVault | requested | picking | stagedOut | readyOut | inHatchOut | withCourier | inHatchIn
  | stagedIn | readyIn | unknown
  deriving DecidableEq, Repr

/-- A custody record (R84). -/
structure CustodyRecord where
  label : Label
  state : CustodyState
  location : Option Location
  area : Option Area
  slot : Option (Fin 32)
  consignment : Option Nat
  courier : Option Nat
  storedDose : Option Nat
  mark : Option Nat
  inspect : Bool
  new : Bool
  damaged : Bool
  fireHeld : Bool
  lastMove : Option Clock
  deriving DecidableEq, Repr

/-! ## Staging unit (chapters 4 and 6) -/

/-- The direction of a slot or of a hatch entry (R111, R149). -/
inductive Direction where
  | outbound | inbound
  deriving DecidableEq, Repr

/-- A staging slot (R111). A RESERVED slot is always of direction OUT. The origin of an OCCUPIED slot
is its base channel (R68): a vault area's, or the Outside. -/
inductive Slot where
  | free
  | reserved (label : Label) (origin : Area) (reservedAt : Nat)
  | occupied (label : Label) (direction : Direction) (origin : Channel) (dwell : Nat) (estimate : Option Int)
  deriving DecidableEq, Repr

/-- An entry of the check-out queue (R103). -/
structure QueueEntry where
  label : Label
  arrival : Clock
  deriving DecidableEq, Repr

/-- The staging settings (R79). -/
structure StagingSettings where
  marginOut : Nat
  minDwellOut : Nat
  minDwellIn : Nat
  rhCeiling : Nat
  inboundRef : Area
  inboundReserve : Nat
  pickTimeout : Nat
  doseLimit : Nat
  exchangeTimeout : Nat
  deriving DecidableEq, Repr

/-- The staging unit (R103, R106, R111). -/
structure StagingUnit where
  queue : List QueueEntry
  holdSent : Bool
  slots : Vector Slot 32
  settings : StagingSettings
  deriving DecidableEq, Repr

/-! ## Consignment table (chapter 7) -/

/-- The consignment states (R122). -/
inductive ConsignState where
  | opened | sealed | ready | loaded | exchanging | returning | closed | cancelled | lockedOut
  deriving DecidableEq, Repr

/-- The result of a consignment (R122). -/
inductive ExchangeResult where
  | complete | partially | interrupted | cancelled
  deriving DecidableEq, Repr

/-- A consignment record (R122). -/
structure Consignment where
  number : Nat
  courier : Nat
  state : ConsignState
  beforeLockout : Option ConsignState
  outbound : List Label
  expected : Nat
  received : List Label
  takenCount : Nat
  token : Option Word16
  mismatches : Nat
  result : Option ExchangeResult
  created : Clock
  closed : Option Clock
  deriving DecidableEq, Repr

/-- The consignment table (R122, R123). -/
structure ConsignTable where
  places : Vector (Option Consignment) 16
  counter : Nat
  deriving DecidableEq, Repr

/-! ## Hatch unit (chapters 8 and 9) -/

/-- A hatch door (R136). -/
structure Door where
  isOpen : Bool
  released : Bool
  forced : Bool
  openedAt : Option Nat
  heldSent : Bool
  deriving DecidableEq, Repr

/-- The purpose of an inner request or possession (R140). -/
inductive Purpose where
  | load (number : Nat)
  | unload
  deriving DecidableEq, Repr

/-- The arbiter record (R140). -/
structure Arbiter where
  grant : Option Side
  possession : Bool
  purpose : Option Purpose
  pendingInner : Option Purpose
  pendingOuter : Bool
  lastGranted : Side
  releasePending : Bool
  revoked : Bool
  lapseAt : Option Nat
  deriving DecidableEq, Repr

/-- An entry of the hatch contents list (R149). -/
structure HatchEntry where
  label : Label
  direction : Direction
  number : Nat
  estimate : Option Int
  fireHeld : Bool
  deriving DecidableEq, Repr

/-- The outer leg of an exchange (R157). -/
inductive OuterLeg where
  | waiting | opened | done
  deriving DecidableEq, Repr

/-- The exchange record (R157). -/
structure Exchange where
  number : Nat
  courier : Nat
  timeoutAt : Nat
  leg : OuterLeg
  takenList : List Label
  depositedList : List Label
  deriving DecidableEq, Repr

/-- The hatch unit (R136, R140, R149, R157). -/
structure HatchUnit where
  inner : Door
  outer : Door
  arbiter : Arbiter
  entries : List HatchEntry
  exchange : Option Exchange
  deriving DecidableEq, Repr

/-! ## Fire unit (chapter 3) -/

/-- The state of a detector (R39). -/
inductive DetectorState where
  | normal | alarm | fault | isolated
  deriving DecidableEq, Repr

/-- A detector: its record (R39), the debounced levels of its two lines (R38) and its re-take mark (R45).
What the scan holds of the lines stands in `Inputs`. -/
structure DetectorRecord where
  state : DetectorState
  assignment : Option Area
  polarity : Polarity
  alarmLine : Level
  faultLine : Level
  retake : Bool
  deriving DecidableEq, Repr

/-- The fire state of an area; COUNTDOWN and VENTING carry the uptime they started at (R45). -/
inductive FireState where
  | quiet
  | preAlarm
  | countdown (start : Nat)
  | held
  | discharged
  | venting (start : Nat)
  deriving DecidableEq, Repr

/-- A fire state's name, as notices and responses carry it (R55). -/
inductive FireName where
  | quiet | preAlarm | countdown | held | discharged | venting
  deriving DecidableEq, Repr

/-- The fire settings of an area (R58). -/
structure FireSettings where
  coincidence : Coincidence
  delay : Nat
  vent : Nat
  deriving DecidableEq, Repr

/-- The fire record of an area (R45) with its call point's debounced level (R43) and settings (R58).
The release output is on while `pulse` holds the uptime at which it went on (R50). -/
structure FireArea where
  state : FireState
  agentSpent : Bool
  pulse : Option Nat
  callLatch : Bool
  callActive : Bool
  callRetake : Bool
  settings : FireSettings
  deriving DecidableEq, Repr

/-- The fire unit (R38, R44, R45, R56, R57). -/
structure FireUnit where
  detectors : Vector DetectorRecord 12
  areas : PerArea FireArea
  /-- The abort-hold switch is ACTIVE (R44). -/
  abort : Bool
  alert : Bool
  evacuate : Bool
  trouble : Bool
  deriving DecidableEq, Repr

/-! ## The store's records (chapter 11) -/

/-- The cause of a restart (R180). -/
inductive Cause where
  | powerOn | resetLine | restart
  deriving DecidableEq, Repr

/-- The damage flags (R181). -/
structure DamageFlags where
  config : Bool
  consign : Bool
  dose : Bool
  deriving DecidableEq, Repr

/-- A detector's persisted settings (R59). -/
structure DetectorSettings where
  assignment : Option Area
  polarity : Polarity
  deriving DecidableEq, Repr

/-- The configuration record (R179). -/
structure ConfigRecord where
  descriptors : Vector Descriptor 8
  climate : PerArea ClimateSettings
  staging : StagingSettings
  fire : PerArea FireSettings
  detectors : Vector DetectorSettings 12
  deriving DecidableEq, Repr

/-- The persisted part of a slot record (R111). -/
inductive StoredSlot where
  | free
  | reserved (label : Label) (origin : Area)
  | occupied (label : Label) (direction : Direction) (origin : Channel)
  deriving DecidableEq, Repr

/-- The persisted part of a hatch list entry (R149). -/
structure StoredEntry where
  label : Label
  direction : Direction
  number : Nat
  fireHeld : Bool
  deriving DecidableEq, Repr

/-- The content of a store record (R179). A custody record that is absent is an erased copy; a key
entry that is absent is marked free; a snapshot that is absent was never held (R13). -/
inductive Content where
  | config (r : ConfigRecord)
  | custody (r : Option CustodyRecord)
  | key (l : Option Label)
  | consignment (c : Option Consignment)
  | counter (n : Nat)
  | slot (s : StoredSlot)
  | hatchList (es : List StoredEntry)
  | accumulator (n : Nat)
  | fireFlags (discharged agentSpent : Bool)
  | snapshot (c : Option Clock)
  | status (cause : Cause) (flags : DamageFlags) (formatMark : Bool)
  deriving DecidableEq, Repr

/-- One copy of a store record: its content, its write count, and its 16-bit check (R179). -/
structure Copy where
  content : Content
  count : Nat
  check : Word16
  deriving DecidableEq, Repr

/-- The two copies of a store record (R179). -/
structure Cell where
  first : Copy
  second : Copy
  deriving DecidableEq, Repr

/-- A write handed to the store: the ticket its outputs wait on, the record, and the content to write. -/
structure Job where
  ticket : Nat
  record : StoreRecord
  content : Content
  deriving DecidableEq, Repr

/-! ## Frames (chapter 10) -/

/-- The classes of notices (R174). -/
inductive NoticeClass where
  | system | climate | fire | custody | queue | hatch
  deriving DecidableEq, Repr

/-- The result codes, in the order of the overview's table (R172). -/
inductive ResultCode where
  | ok | accepted | permission | mode | state | busy | notFound | full | invalid | duplicate | fire
  | dose | wrongSlot | noSlot | bound | tokenMismatch | courierMismatch | lockedOut | excess
  deriving DecidableEq, Repr

/-- The request kinds (R173), and a KIND that names none (R171). -/
inductive RequestKind where
  | status | subscribe | areaQuery | setMode | setTime | setDescriptor | setClimate | clearClimateFlags
  | setFire | recharged | isolate | confirmArea | resetArea | format | restart
  | enrol | retire | relocate | custodyQuery | doseReset
  | checkout | cancel | placed | shelved | slotQuery | setStaging
  | consignOpen | consignAdd | consignRemove | consignSeal | consignCancel | consignUnlock | consignQuery
  | hatchRequest | hatchRelease | loaded | unloaded
  | arrive | taken | deposited | exchangeQuery
  | undefinedKind (kind : Byte)
  deriving DecidableEq, Repr

/-- Why a check-out was dropped at dispatch (R109). -/
inductive DropReason where
  | inspect | dose
  deriving DecidableEq, Repr

/-- What HATCH_ALARM reports (R155). -/
inductive DoorAlarm where
  | forced | held
  deriving DecidableEq, Repr

/-- What EXCHANGE_STATE reports (R166, R167). -/
inductive ExchangeEvent where
  | ended | lapsed
  deriving DecidableEq, Repr

/-- The notices with their content after the stamp (R174). -/
inductive NoticeBody where
  | restarted (cause : Cause) (flags : DamageFlags)
  | mode (m : VaultMode)
  | facilityLink (lost : Bool)
  | rezoneDone
  | formatDone
  | sensorState (c : Channel) (s : ChannelState)
  | climateAlarm (a : Area) (humidity : Nat)
  | fireState (a : Area) (s : FireName)
  | detector (d : Detector) (s : DetectorState)
  | agentSpent (a : Area)
  | hold
  | resume
  | pick (l : Label) (location : Option Location) (slot : Fin 32)
  | pickLapsed (l : Label)
  | checkoutDropped (l : Label) (reason : DropReason)
  | ready (l : Label) (d : Direction) (slot : Fin 32)
  | consignState (number : Nat) (s : ConsignState) (r : Option ExchangeResult)
  | hatchGranted (side : Side)
  | hatchLapsed (side : Side)
  | hatchRevoked (side : Side)
  | hatchAlarm (kind : DoorAlarm) (door : Side)
  | exchangeState (number : Nat) (e : ExchangeEvent) (r : Option ExchangeResult)
  deriving DecidableEq, Repr

/-- A queued notice with its stamp (R170, R174). -/
structure Notice where
  stamp : Clock
  body : NoticeBody
  deriving DecidableEq, Repr

/-- The dehumidifier as AREA_QUERY reports it (R25, R35). -/
inductive DehumidifierReport where
  | on | off | deferred
  deriving DecidableEq, Repr

/-- The part of the AREA_QUERY response that only areas have (R35). -/
structure AreaOutputs where
  damperOpen : Bool
  dehumidifier : DehumidifierReport
  heater : Option Bool
  fan : Bool
  fire : FireName
  highRh : Bool
  protectionOff : Bool
  agentSpent : Bool
  deriving DecidableEq, Repr

/-- The AREA_QUERY response (R35). -/
structure AreaReport where
  state : ChannelState
  missCount : Nat
  held : Option Held
  dewPoint : Option Int
  outputs : Option AreaOutputs
  deriving DecidableEq, Repr

/-- The CUSTODY_QUERY response (R96, R97). -/
structure CustodyReport where
  record : CustodyRecord
  effectiveDose : Option Nat
  doseLimit : Option Nat
  deriving DecidableEq, Repr

/-- The SLOT_QUERY response (R117). -/
structure SlotReport where
  number : Fin 32
  slot : Slot
  secondsLeft : Option Nat
  custody : Option CustodyState
  deriving DecidableEq, Repr

/-- The CONSIGN_QUERY response (R134): the record, and the custody state of each listed label. -/
structure ConsignReport where
  record : Consignment
  outboundStates : List (Option CustodyState)
  receivedStates : List (Option CustodyState)
  deriving DecidableEq, Repr

/-- The outer side in the EXCHANGE_QUERY response (R169). -/
inductive OuterReport where
  | pending | possession | neither
  deriving DecidableEq, Repr

/-- The EXCHANGE_QUERY response (R169). -/
structure ExchangeReport where
  number : Nat
  courier : Nat
  leg : OuterLeg
  secondsLeft : Option Nat
  outbound : List Label
  expected : Nat
  takenList : List Label
  depositedList : List Label
  entries : List HatchEntry
  outsideDewPoint : Option Int
  marginOut : Nat
  gatePasses : Bool
  outer : OuterReport
  deriving DecidableEq, Repr

/-- A door in the STATUS response (R136). -/
structure DoorReport where
  isOpen : Bool
  released : Bool
  secure : Bool
  forced : Bool
  deriving DecidableEq, Repr

/-- The five causes of TROUBLE (R57). -/
structure TroubleCauses where
  detectorFault : Bool
  sensorFailed : Bool
  linkLost : Bool
  storeDamage : Bool
  protectionOff : Bool
  deriving DecidableEq, Repr

/-- An area's fire unit fields in the STATUS response (R57): its state, the call latch, the seconds
left of a running delay or vent time, and the release output. -/
structure FireAreaReport where
  state : FireName
  callLatch : Bool
  secondsLeft : Option Nat
  release : Bool
  deriving DecidableEq, Repr

/-- The STATUS response (R176). -/
structure StatusReport where
  overrun : Bool
  mask : Byte
  linkLost : Bool
  mode : VaultMode
  clock : Clock
  clockSuspect : Bool
  uptime : Nat
  rezoneInFlight : Bool
  cause : Cause
  flags : DamageFlags
  formatInFlight : Bool
  droppedSweeps : Nat
  accumulators : PerArea Nat
  detectors : Vector DetectorState 12
  abort : Bool
  fireAreas : PerArea FireAreaReport
  alert : Bool
  evacuate : Bool
  trouble : Bool
  causes : TroubleCauses
  records : Nat
  freePlaces : Nat
  unknownRecords : Nat
  queueLength : Nat
  holdSent : Bool
  slotsFree : Nat
  slotsReserved : Nat
  slotsOccupied : Nat
  inboundReserve : Nat
  consignFree : Nat
  consignCounts : List (ConsignState × Nat)
  innerDoor : DoorReport
  outerDoor : DoorReport
  arbiter : Arbiter
  lapseSecondsLeft : Option Nat
  listLength : Nat
  listNumber : Option Nat
  exchange : Option (Nat × OuterLeg)
  deriving DecidableEq, Repr

/-- The data of a response (each constructor under the rule that answers it). -/
inductive ResponseData where
  | none
  | mask (previous : Byte)
  | status (r : StatusReport)
  | area (r : AreaReport)
  | descriptor (previous : Descriptor)
  | climate (previous : ClimateSettings)
  | fireArea (previous : FireSettings)
  | fireDetector (previous : DetectorSettings)
  | enrolled (a : Area)
  | retired (r : CustodyRecord) (effectiveDose : Option Nat)
  | relocated (a : Area) (effectiveDose : Option Nat)
  | custody (r : CustodyReport)
  | doseBefore (effectiveDose : Option Nat)
  | checkout (queueLength : Nat) (arrival : Clock)
  | cancelled (before : CustodyState)
  | placed (slot : Fin 32) (effectiveDose : Option Nat)
  | shelved (a : Area) (effectiveDose : Option Nat)
  | slot (r : SlotReport)
  | staging (previous : StagingSettings)
  | consignNumber (n : Nat)
  | outboundCount (n : Nat)
  | sealed (token : Word16) (s : ConsignState)
  | unlocked (s : ConsignState)
  | consign (r : ConsignReport)
  | hatch (granted : Bool)
  | loaded (listLength : Nat)
  | unloaded (slot : Fin 32)
  | arrived (outbound : List Label) (expected : Nat)
  | takenCount (n : Nat)
  | deposited (listLength : Nat) (received : Nat) (created : Bool)
  | exchange (r : ExchangeReport)
  deriving DecidableEq, Repr

/-- A response: its request's kind and TAG, the result code, the data, and whether the link unit made
it itself under R172 (R170, R175). -/
structure Response where
  kind : RequestKind
  tag : Byte
  code : ResultCode
  data : ResponseData
  own : Bool
  deriving DecidableEq, Repr

/-- A frame the transmitter sends (R175). -/
inductive SentFrame where
  | response (r : Response)
  | notice (n : Notice)
  deriving DecidableEq, Repr

/-- The receiver of a link: hunting, or collecting with the bytes taken since SYNC (R171). -/
inductive Receiver where
  | hunting
  | collecting (bytes : List Byte)
  deriving DecidableEq, Repr

/-- A link unit (R171, R172, R174, R175). -/
structure Link where
  receiver : Receiver
  outstanding : Bool
  mask : Byte
  notices : List Notice
  overrun : Bool
  sending : Option SentFrame
  responses : List Response
  deriving DecidableEq, Repr

/-- The three link units, and the facility link unit's silence timer (R177). -/
structure Links where
  facility : Link
  archive : Link
  handover : Link
  lost : Bool
  lastValid : Nat
  deriving DecidableEq, Repr

/-! ## The store -/

/-- An output of a block: a response on a port, or a notice (R89). -/
inductive Out where
  | response (p : Port) (r : Response)
  | notice (n : NoticeBody)
  deriving DecidableEq, Repr

/-- Outputs that wait until the writes of the tickets named have ended (R89, R179). -/
structure Waiting where
  needs : List Nat
  outs : List Out
  deriving DecidableEq, Repr

/-- How far an answered RESTART has gone: the cause's write handed over, or ended (R172, R180). -/
inductive RestartPhase where
  | none
  | writing (ticket : Nat)
  | due
  deriving DecidableEq, Repr

/-- How far a format has gone: accepted, with the mark's write yet to end, or in effect, with the number of the record it
writes next (R184; log 18 and 50, DESIGN CHOICE). -/
inductive FormatPhase where
  | none
  | marking
  | writing (next : Nat)
  deriving DecidableEq, Repr

/-- A format is in flight (R172, R184). -/
def FormatPhase.inFlight : FormatPhase → Bool
  | .none => false
  | .marking => true
  | .writing _ => true

/-- The format has taken effect in the blocks and makes its writes (R184). -/
def FormatPhase.inEffect : FormatPhase → Bool
  | .none => false
  | .marking => false
  | .writing _ => true

/-- What a request still does once its response is queued: SET_DESCRIPTOR starts its sweep at a place (R5), SET_FIRE
evaluates its detector afresh, an ALARM of it latched or not (R59), SET_STAGING lets what its timeout finds overdue lapse
(R80), and FORMAT takes effect (R184). -/
inductive Followup where
  | sweep (start : Nat)
  | evaluate (d : Detector) (latched : Bool)
  | lapses
  | format
  deriving DecidableEq, Repr

/-- The store (R49, R179, R180, R183, R184). -/
structure Store where
  /-- The records whose cell is not the formatted one, rising by address. -/
  cells : List (StoreRecord × Cell)
  /-- The write counts of the two copies of every record not listed. -/
  base : Nat × Nat
  inflight : Option Job
  queue : List Job
  nextTicket : Nat
  waiting : List Waiting
  /-- Areas whose release pulse starts when the write of a ticket ends (R49). -/
  pulses : List (Nat × Area)
  /-- What requests still do once the write of a ticket has ended and their responses are queued (R5, R59, R80, R184). -/
  followups : List (Nat × Followup)
  /-- The cause STATUS reports (R180). -/
  reported : Cause
  /-- The cause in the store status record (R180). -/
  recorded : Cause
  flags : DamageFlags
  /-- The format in flight (R184). -/
  format : FormatPhase
  restart : RestartPhase
  deriving DecidableEq, Repr

/-- The state of the part, with the queue of the commands that wait. -/
structure State where
  pending : List Instr
  power : Power
  inputs : Inputs
  links : Links
  vault : VaultUnit
  climate : ClimateUnit
  accumulators : PerArea Nat
  custody : List (Nat × CustodyRecord)
  staging : StagingUnit
  consign : ConsignTable
  hatch : HatchUnit
  fire : FireUnit
  store : Store
  deriving DecidableEq, Repr

/-- The reasons a step may stop with a fault. The spec names none, so there is none. -/
inductive Fault where
  deriving DecidableEq, Repr

/-- The reasons a step may be refused. Safe: the model stops where the hardware goes on. -/
inductive Refusal where
  /-- Raised by `exec` alone, for a command that has no meaning yet. None is left. -/
  | notModelled (mnemonic : String)
  deriving DecidableEq, Repr

/-! ## Defaults and the state after reset -/

/-- Descriptor after FORMAT (R3). -/
def Descriptor.default : Descriptor :=
  { enabled := false, prefixValue := 0, prefixLength := 0, area := .vaultA }

/-- The default climate settings (R33). -/
def ClimateSettings.defaults : PerArea ClimateSettings :=
  { vaultA := ⟨400, 30, 0, 1, 450, 0⟩, vaultB := ⟨400, 30, 0, 1, 450, 0⟩,
    staging := ⟨450, 30, 300, 1, 450, 64⟩, hatch := ⟨450, 30, 280, 1, 450, 32⟩ }

/-- The default staging settings (R79). -/
def StagingSettings.default : StagingSettings :=
  { marginOut := 30, minDwellOut := 10, minDwellIn := 240, rhCeiling := 500, inboundRef := .vaultA,
    inboundReserve := 4, pickTimeout := 30, doseLimit := 300000, exchangeTimeout := 900 }

/-- The default fire settings of an area (R58). -/
def FireSettings.default : FireSettings := { coincidence := .double, delay := 30, vent := 600 }

/-- The default assignment of a detector: three to each area in order (R59). -/
def Detector.defaultArea (d : Detector) : Area :=
  if d.val < 3 then .vaultA else if d.val < 6 then .vaultB else if d.val < 9 then .staging else .hatch

/-- The default settings of a detector (R59). -/
def DetectorSettings.default (d : Detector) : DetectorSettings :=
  { assignment := some (Detector.defaultArea d), polarity := .activeHigh }

/-- A vector given by a function of its index, built on a list so that the kernel evaluates it. -/
def tabulate {α : Type} {n : Nat} (f : Fin n → α) : Vector α n :=
  ⟨⟨(List.finRange n).map f⟩, by simp⟩

/-- The configuration record with every setting at its default (R3, R33, R58, R59, R79). -/
def ConfigRecord.default : ConfigRecord :=
  { descriptors := tabulate fun _ => Descriptor.default
    climate := ClimateSettings.defaults
    staging := StagingSettings.default
    fire := ⟨FireSettings.default, FireSettings.default, FireSettings.default, FireSettings.default⟩
    detectors := tabulate DetectorSettings.default }

/-- No damage flag set. -/
def DamageFlags.clear : DamageFlags := ⟨false, false, false⟩

/-- The subscription mask of a port after every restart (R174). -/
def Port.defaultMask : Port → Byte
  | .facility => 0x07#8
  | .archive => 0x3D#8
  | .handover => 0x21#8

/-- A link unit after restart, before RESTARTED is queued (R178). -/
def Link.initial (p : Port) : Link :=
  { receiver := .hunting, outstanding := false, mask := Port.defaultMask p, notices := [], overrun := false,
    sending := none, responses := [] }

/-- A channel record after restart (R36). -/
def ChannelRecord.initial : ChannelRecord := ⟨.none, none, 0, false⟩

/-- A door after restart (R156). -/
def Door.initial : Door := ⟨false, false, false, none, false⟩

/-- The arbiter after restart (R156). -/
def Arbiter.initial : Arbiter :=
  { grant := none, possession := false, purpose := none, pendingInner := none, pendingOuter := false,
    lastGranted := .inner, releasePending := false, revoked := false, lapseAt := none }

/-- The level at which an alarm line is not active (R37, R38). -/
def Polarity.inactive : Polarity → Level
  | .activeHigh => .low
  | .activeLow => .high

/-- A detector's record with given settings, after restart (R37, R62): each line at the level its
owner treats as inactive. -/
def DetectorRecord.initial (c : DetectorSettings) : DetectorRecord :=
  { state := .normal, assignment := c.assignment, polarity := c.polarity, alarmLine := Polarity.inactive c.polarity,
    faultLine := .low, retake := false }

/-- An input whose pin rests at a level that the last scan sampled. -/
def Pin.settled (l : Level) : Pin := ⟨l, l⟩

/-- Every input at its inactive level: with the default polarities the reset line HIGH and the others LOW (R37, R43,
R44, R136, R180; log 6, DESIGN CHOICE). -/
def Inputs.inactive : Inputs :=
  { alarm := tabulate fun _ => Pin.settled .low
    fault := tabulate fun _ => Pin.settled .low
    call := ⟨Pin.settled .low, Pin.settled .low, Pin.settled .low, Pin.settled .low⟩
    abort := Pin.settled .low, inner := Pin.settled .low, outer := Pin.settled .low, reset := Pin.settled .high
    limitedReads := 0 }

/-- The part just after a restart with cause POWER_ON on a formatted store, each notice queue holding RESTARTED and each
transmitter idle (R178; log 1, 2 and 15). -/
def State.reset : State :=
  let restarted : Notice := ⟨0, .restarted .powerOn DamageFlags.clear⟩
  let control (heater : Option Bool) : AreaControl := ⟨true, false, false, 0, heater, false⟩
  let fireArea : FireArea := ⟨.quiet, false, none, false, false, false, FireSettings.default⟩
  { pending := []
    power := .running
    inputs := Inputs.inactive
    links :=
      { facility := { Link.initial .facility with notices := [restarted] }
        archive := { Link.initial .archive with notices := [restarted] }
        handover := { Link.initial .handover with notices := [restarted] }
        lost := false
        lastValid := 0 }
    vault :=
      { mode := .unstaffed, clock := 0, clockSuspect := true, uptime := 0
        descriptors := ConfigRecord.default.descriptors, rezone := some 0, lastSnapshotAt := none }
    climate :=
      { channels := ⟨⟨.initial, .initial, .initial, .initial⟩, .initial⟩
        controls := ⟨control none, control none, control (some false), control (some false)⟩
        fan := false, sweep := .idle, bus := [], dropped := 0, lastSweepDueAt := none
        settings := ClimateSettings.defaults }
    accumulators := ⟨0, 0, 0, 0⟩
    custody := []
    staging :=
      { queue := [], holdSent := false, slots := tabulate fun _ => .free
        settings := StagingSettings.default }
    consign := { places := tabulate fun _ => none, counter := 0 }
    hatch :=
      { inner := Door.initial, outer := Door.initial, arbiter := Arbiter.initial, entries := []
        exchange := none }
    fire :=
      { detectors := tabulate fun d => DetectorRecord.initial (DetectorSettings.default d)
        areas := ⟨fireArea, fireArea, fireArea, fireArea⟩
        abort := false, alert := false, evacuate := false, trouble := false }
    store :=
      { cells := [], base := (0, 0), inflight := none, queue := [], nextTicket := 0, waiting := []
        pulses := [], followups := [], reported := .powerOn, recorded := .powerOn, flags := DamageFlags.clear
        format := .none, restart := .none } }

end Sys2Proof.Machine
end

