-- ==== Sys2Proof/Machine/Operands.lean ====
section
/-! DEFINITION. The operand forms: numbers that name areas, channels, detectors and slots (R1), location
codes and descriptors (R2 to R5), labels (R83), setting ranges (R33, R58, R79), sensor words (R16, R19),
and the one CRC of the part (R127). -/

namespace Sys2Proof

/-- The areas in number order (R1). -/
def Area.all : List Area := [.vaultA, .vaultB, .staging, .hatch]

/-- The number of an area (R1). -/
def Area.number : Area → Nat
  | .vaultA => 1
  | .vaultB => 2
  | .staging => 3
  | .hatch => 4

/-- The area an area number names; 0 and numbers above 4 name none (R1). -/
def Area.ofNumber : Nat → Option Area
  | 1 => some .vaultA
  | 2 => some .vaultB
  | 3 => some .staging
  | 4 => some .hatch
  | _ => none

/-- The vault area a number names, in a field that takes a vault area (R1). -/
def Area.ofVaultNumber : Nat → Option Area
  | 1 => some .vaultA
  | 2 => some .vaultB
  | _ => none

/-- Staging and Hatch have a heater and a coupling; the vault areas have not (R26, R33). -/
def Area.heated : Area → Bool
  | .vaultA => false
  | .vaultB => false
  | .staging => true
  | .hatch => true

/-- The number of a channel; Outside is 5 (R1). -/
def Channel.number : Channel → Nat
  | .area a => a.number
  | .outside => 5

/-- The channel a channel number names (R1). -/
def Channel.ofNumber (n : Nat) : Option Channel :=
  match Area.ofNumber n with
  | some a => some (.area a)
  | none => if n = 5 then some .outside else none

/-- The channel a sweep reads after this one; none after channel 5 (R17). -/
def Channel.next : Channel → Option Channel
  | .area .vaultA => some (.area .vaultB)
  | .area .vaultB => some (.area .staging)
  | .area .staging => some (.area .hatch)
  | .area .hatch => some .outside
  | .outside => none

/-- The bus address of a channel's sensor: 48 hex for channel 1 to 4C hex for channel 5 (R16). -/
def Channel.busAddress (c : Channel) : BitVec 7 := BitVec.ofNat 7 (0x47 + c.number)

/-- The detectors in number order (R38). -/
def Detector.all : List Detector := List.finRange 12

/-- The detector a number 1..12 names (R40, R59). -/
def Detector.ofNumber (n : Nat) : Option Detector :=
  if h : 1 ≤ n ∧ n ≤ 12 then some ⟨n - 1, by omega⟩ else none

/-- The staging slots in number order (R111). -/
def slotNumbers : List (Fin 32) := List.finRange 32

/-- The slot a number 0..31 names (R113, R117). -/
def slotOfNumber (n : Nat) : Option (Fin 32) :=
  if h : n < 32 then some ⟨n, h⟩ else none

/-- The consignment places in number order (R122). -/
def placeNumbers : List (Fin 16) := List.finRange 16

/-- The other side of the hatch. -/
def Side.other : Side → Side
  | .inner => .outer
  | .outer => .inner

/-- The port of a side: archive for INNER, handover for OUTER (R155). -/
def Side.port : Side → Port
  | .inner => .archive
  | .outer => .handover

/-- A consignment number or courier id in range 1..65535 (R122). -/
def idInRange (n : Nat) : Bool := decide (1 ≤ n) && decide (n ≤ 65535)

/-! ## Labels (R83) -/

/-- An upper-case letter A–Z or a digit 0–9. -/
def labelByte (b : Byte) : Bool :=
  (decide (0x41 ≤ b.toNat) && decide (b.toNat ≤ 0x5A)) || (decide (0x30 ≤ b.toNat) && decide (b.toNat ≤ 0x39))

/-- A label of good form: exactly eight characters, each A–Z or 0–9 (R83). -/
def goodLabel (l : Label) : Bool := l.length == 8 && l.all labelByte

/-! ## Locations and descriptors (R2 to R5) -/

/-- The location code aisle.bay.slot (R2). -/
def locationOf (aisle bay slot : Nat) : Location := BitVec.ofNat 24 (aisle * 65536 + bay * 256 + slot)

/-- The top `n` bits of a location code, as a number; the top 0 bits are the same for all (R2). -/
def topBits (n : Nat) (l : Location) : Nat := l.toNat / 2 ^ (24 - n)

/-- Every bit of the prefix value below the prefix length is 0 (R3, R5). -/
def prefixClean (value : Location) (length : Nat) : Bool := value.toNat % 2 ^ (24 - length) == 0

/-! ## The CRC (R127) -/

/-- One shift of the CRC register (R127, steps 2 and 3). -/
def crcShift (r : Word16) : Word16 :=
  if r.msb then (r <<< 1) ^^^ Config.crcPoly else r <<< 1

/-- One byte taken into the CRC register: combined into the high-order byte, then eight shifts (R127). -/
def crcByte (r : Word16) (b : Byte) : Word16 :=
  crcShift (crcShift (crcShift (crcShift (crcShift (crcShift (crcShift (crcShift
    (r ^^^ (b.setWidth 16 <<< 8)))))))))

/-- The part's CRC over a byte sequence (R127). -/
def crc16 (bs : List Byte) : Word16 := bs.foldl crcByte Config.crcInit

/-- The high-order byte of a 16-bit value. -/
def highByte (w : Word16) : Byte := (w >>> 8).setWidth 8

/-- The low-order byte of a 16-bit value. -/
def lowByte (w : Word16) : Byte := w.setWidth 8

/-- A number below 65536 as two bytes, high byte first (R127, R170). -/
def twoBytes (n : Nat) : List Byte := [highByte (BitVec.ofNat 16 n), lowByte (BitVec.ofNat 16 n)]

/-! ## Sensor words (R16, R19) -/

/-- The temperature of a sensor word: bytes 1 and 2, signed (R16). -/
def wordTemperature (b1 b2 : Byte) : Int := (b1 ++ b2 : Word16).toInt

/-- The humidity of a sensor word: bytes 3 and 4, unsigned (R16). -/
def wordHumidity (b3 b4 : Byte) : Nat := (b3 ++ b4 : Word16).toNat

/-- The reading of a valid read, clamped; none for an invalid read (R19). -/
def SensorReading.value : SensorReading → Option Machine.Held
  | .noAck => none
  | .word b1 b2 b3 b4 b5 =>
    let t := wordTemperature b1 b2
    let rh := wordHumidity b3 b4
    if b5 = lowByte (crc16 [b1, b2, b3, b4]) ∧ -200 ≤ t ∧ t ≤ 600 ∧ rh ≤ 1050
    then some ⟨t, min rh 1000⟩
    else none

end Sys2Proof

namespace Sys2Proof.Machine

/-- The value of an area. -/
def PerArea.get {α : Type} (p : PerArea α) : Area → α
  | .vaultA => p.vaultA
  | .vaultB => p.vaultB
  | .staging => p.staging
  | .hatch => p.hatch

/-- The values with one area's replaced. -/
def PerArea.set {α : Type} (p : PerArea α) (a : Area) (x : α) : PerArea α :=
  match a with
  | .vaultA => { p with vaultA := x }
  | .vaultB => { p with vaultB := x }
  | .staging => { p with staging := x }
  | .hatch => { p with hatch := x }

/-- A function applied to every area's value. -/
def PerArea.map {α β : Type} (f : α → β) (p : PerArea α) : PerArea β :=
  ⟨f p.vaultA, f p.vaultB, f p.staging, f p.hatch⟩

/-- Some area's value passes. -/
def PerArea.any {α : Type} (p : PerArea α) (f : α → Bool) : Bool :=
  f p.vaultA || f p.vaultB || f p.staging || f p.hatch

/-- Every area's value passes. -/
def PerArea.all {α : Type} (p : PerArea α) (f : α → Bool) : Bool :=
  f p.vaultA && f p.vaultB && f p.staging && f p.hatch

/-- The value of a channel. -/
def PerChannel.get {α : Type} (p : PerChannel α) : Channel → α
  | .area a => p.areas.get a
  | .outside => p.outside

/-- The values with one channel's replaced. -/
def PerChannel.set {α : Type} (p : PerChannel α) (c : Channel) (x : α) : PerChannel α :=
  match c with
  | .area a => { p with areas := p.areas.set a x }
  | .outside => { p with outside := x }

/-- Some channel's value passes. -/
def PerChannel.any {α : Type} (p : PerChannel α) (f : α → Bool) : Bool := p.areas.any f || f p.outside

/-- The descriptor is enabled and its top prefix-length bits equal the location's (R4). -/
def Descriptor.covers (d : Descriptor) (l : Location) : Bool :=
  d.enabled && topBits d.prefixLength d.prefixValue == topBits d.prefixLength l

/-- The area of a location: that of the highest-numbered enabled descriptor that covers it, else
Vault A (R4). -/
def resolveLocation (ds : Vector Descriptor 8) (l : Location) : Area :=
  match ds.toList.reverse.find? (fun d => d.covers l) with
  | some d => d.area
  | none => .vaultA

/-- The fields of SET_DESCRIPTOR are in range and the prefix value is clean; the descriptor they make (R5). -/
def descriptorOfFields (enabled : Option Bool) (value : Location) (length area : Nat) : Option Descriptor :=
  match enabled, Area.ofVaultNumber area with
  | some e, some a =>
    if length ≤ 24 ∧ prefixClean value length = true then some ⟨e, value, length, a⟩ else none
  | _, _ => none

/-- The ranges of SET_CLIMATE for an area (R33). -/
def climateFieldsOk (a : Area) (f : ClimateSettings) : Bool :=
  decide (300 ≤ f.rhTarget) && decide (f.rhTarget ≤ 600) && decide (10 ≤ f.rhBand) && decide (f.rhBand ≤ 100) &&
  decide (f.alarmIndex ≤ 3) && decide (300 ≤ f.doseThreshold) && decide (f.doseThreshold ≤ 800) &&
  (if a.heated then
     decide (150 ≤ f.heatTarget) && decide (f.heatTarget ≤ 400) && decide (1 ≤ f.coupling) && decide (f.coupling ≤ 255)
   else f.heatTarget == 0 && f.coupling == 0)

/-- The ranges of SET_STAGING, and the settings its fields make (R79). -/
def stagingOfFields (f : StagingFields) : Option StagingSettings :=
  match Area.ofVaultNumber f.inboundRef with
  | none => none
  | some a =>
    if f.marginOut ≤ 100 ∧ f.minDwellOut ≤ 240 ∧ f.minDwellIn ≤ 1440 ∧ 300 ≤ f.rhCeiling ∧ f.rhCeiling ≤ 800 ∧
       f.inboundReserve ≤ 16 ∧ 5 ≤ f.pickTimeout ∧ f.pickTimeout ≤ 120 ∧ 1 ≤ f.doseLimit ∧ f.doseLimit ≤ Config.max32 ∧
       300 ≤ f.exchangeTimeout ∧ f.exchangeTimeout ≤ 3600
    then some
      { marginOut := f.marginOut, minDwellOut := f.minDwellOut, minDwellIn := f.minDwellIn, rhCeiling := f.rhCeiling,
        inboundRef := a, inboundReserve := f.inboundReserve, pickTimeout := f.pickTimeout, doseLimit := f.doseLimit,
        exchangeTimeout := f.exchangeTimeout }
    else none

/-- The ranges of SET_FIRE's area form, and the settings its fields make (R58). -/
def fireOfFields (coincidence : Option Coincidence) (delay vent : Nat) : Option FireSettings :=
  match coincidence with
  | none => none
  | some c => if 10 ≤ delay ∧ delay ≤ 60 ∧ 60 ≤ vent ∧ vent ≤ 3600 then some ⟨c, delay, vent⟩ else none

/-- The assignment and polarity that SET_FIRE's detector form names (R59). -/
def detectorOfFields (assignment : AssignField) (polarity : Option Polarity) : Option DetectorSettings :=
  match assignment, polarity with
  | .unassigned, some p => some ⟨none, p⟩
  | .area n, some p =>
    match Area.ofNumber n with
    | some a => some ⟨some a, p⟩
    | none => none
  | _, none => none

/-- The humidity at which an alarm level index alarms (R31). -/
def alarmLevel : Nat → Nat
  | 0 => 550
  | 1 => 600
  | 2 => 650
  | _ => 700

/-- The class of a notice (R174). -/
def NoticeBody.cls : NoticeBody → NoticeClass
  | .restarted _ _ => .system
  | .mode _ => .system
  | .facilityLink _ => .system
  | .rezoneDone => .system
  | .formatDone => .system
  | .sensorState _ _ => .climate
  | .climateAlarm _ _ => .climate
  | .fireState _ _ => .fire
  | .detector _ _ => .fire
  | .agentSpent _ => .fire
  | .hold => .queue
  | .resume => .queue
  | .pick _ _ _ => .queue
  | .pickLapsed _ => .queue
  | .checkoutDropped _ _ => .queue
  | .ready _ _ _ => .custody
  | .consignState _ _ _ => .custody
  | .hatchGranted _ => .hatch
  | .hatchLapsed _ => .hatch
  | .hatchRevoked _ => .hatch
  | .hatchAlarm _ _ => .hatch
  | .exchangeState _ _ _ => .hatch

/-- The bit of a class in a subscription mask (R174). -/
def NoticeClass.bit : NoticeClass → Nat
  | .system => 0
  | .climate => 1
  | .fire => 2
  | .custody => 3
  | .queue => 4
  | .hatch => 5

/-- The ports a notice's rule names: the side's port for the grant notices (R155), the facility and
archive ports for HATCH_ALARM (R155), the archive and handover ports for FACILITY_LINK (R177), every
port for the others (R174). -/
def NoticeBody.ports : NoticeBody → List Port
  | .hatchGranted side => [side.port]
  | .hatchLapsed side => [side.port]
  | .hatchRevoked side => [side.port]
  | .hatchAlarm _ _ => [.facility, .archive]
  | .facilityLink _ => [.archive, .handover]
  | .restarted _ _ => [.facility, .archive, .handover]
  | .mode _ => [.facility, .archive, .handover]
  | .rezoneDone => [.facility, .archive, .handover]
  | .formatDone => [.facility, .archive, .handover]
  | .sensorState _ _ => [.facility, .archive, .handover]
  | .climateAlarm _ _ => [.facility, .archive, .handover]
  | .fireState _ _ => [.facility, .archive, .handover]
  | .detector _ _ => [.facility, .archive, .handover]
  | .agentSpent _ => [.facility, .archive, .handover]
  | .hold => [.facility, .archive, .handover]
  | .resume => [.facility, .archive, .handover]
  | .pick _ _ _ => [.facility, .archive, .handover]
  | .pickLapsed _ => [.facility, .archive, .handover]
  | .checkoutDropped _ _ => [.facility, .archive, .handover]
  | .ready _ _ _ => [.facility, .archive, .handover]
  | .consignState _ _ _ => [.facility, .archive, .handover]
  | .exchangeState _ _ _ => [.facility, .archive, .handover]

/-- The notices queued on their ports whatever the masks (R174). -/
def NoticeBody.fixed : NoticeBody → Bool
  | .hatchAlarm _ _ => true
  | .restarted _ _ => true
  | _ => false

/-- The byte that carries a result code: 00 hex to 12 hex in the order of the overview's table (R172). -/
def ResultCode.byte : ResultCode → Byte
  | .ok => 0x00#8
  | .accepted => 0x01#8
  | .permission => 0x02#8
  | .mode => 0x03#8
  | .state => 0x04#8
  | .busy => 0x05#8
  | .notFound => 0x06#8
  | .full => 0x07#8
  | .invalid => 0x08#8
  | .duplicate => 0x09#8
  | .fire => 0x0A#8
  | .dose => 0x0B#8
  | .wrongSlot => 0x0C#8
  | .noSlot => 0x0D#8
  | .bound => 0x0E#8
  | .tokenMismatch => 0x0F#8
  | .courierMismatch => 0x10#8
  | .lockedOut => 0x11#8
  | .excess => 0x12#8

/-- The request is permitted on the port (R173). A KIND that names no request is never reached here. -/
def RequestKind.permitted : RequestKind → Port → Bool
  | .status, _ => true
  | .subscribe, _ => true
  | .areaQuery, _ => true
  | .setMode, p => p == .facility
  | .setTime, p => p == .facility
  | .setDescriptor, p => p == .facility
  | .setClimate, p => p == .facility
  | .clearClimateFlags, p => p == .facility
  | .setFire, p => p == .facility
  | .recharged, p => p == .facility
  | .isolate, p => p == .facility
  | .confirmArea, p => p == .facility
  | .resetArea, p => p == .facility
  | .format, p => p == .facility
  | .restart, p => p == .facility
  | .enrol, p => p == .archive
  | .retire, p => p == .archive
  | .relocate, p => p == .archive
  | .custodyQuery, p => p == .archive
  | .doseReset, p => p == .archive
  | .checkout, p => p == .archive
  | .cancel, p => p == .archive
  | .placed, p => p == .archive
  | .shelved, p => p == .archive
  | .slotQuery, p => p == .archive
  | .setStaging, p => p == .archive
  | .consignOpen, p => p == .archive
  | .consignAdd, p => p == .archive
  | .consignRemove, p => p == .archive
  | .consignSeal, p => p == .archive
  | .consignCancel, p => p == .archive
  | .consignUnlock, p => p == .archive
  | .consignQuery, p => p == .archive
  | .hatchRequest, p => p == .archive || p == .handover
  | .hatchRelease, p => p == .archive || p == .handover
  | .loaded, p => p == .archive
  | .unloaded, p => p == .archive
  | .arrive, p => p == .handover
  | .taken, p => p == .handover
  | .deposited, p => p == .handover
  | .exchangeQuery, p => p == .handover
  | .undefinedKind _, _ => false

end Sys2Proof.Machine
end

