-- ==== Sys2Proof/Machine/Flags.lean ====
section
/-! DEFINITION. The flags and outputs worked out from other state: line conditions (R38), PROTECTION_OFF
(R42), ALERT and EVACUATE (R56), TROUBLE and its causes (R57), fire-blocking (R147), a secure door (R136). -/

namespace Sys2Proof

/-- The alarm line is active at this level under this polarity (R38). -/
def Polarity.isActive : Polarity → Level → Bool
  | .activeHigh, .high => true
  | .activeHigh, .low => false
  | .activeLow, .high => false
  | .activeLow, .low => true

end Sys2Proof

namespace Sys2Proof.Machine

/-- The name of a fire state (R45). -/
def FireState.name : FireState → FireName
  | .quiet => .quiet
  | .preAlarm => .preAlarm
  | .countdown _ => .countdown
  | .held => .held
  | .discharged => .discharged
  | .venting _ => .venting

/-- COUNTDOWN, HELD, DISCHARGED or VENTING: the states that stop dispatch and the hatch (R108, R147). -/
def FireState.late : FireState → Bool
  | .quiet => false
  | .preAlarm => false
  | .countdown _ => true
  | .held => true
  | .discharged => true
  | .venting _ => true

/-- COUNTDOWN, HELD or DISCHARGED: the states of the HVAC shutdown and of EVACUATE (R28, R56). -/
def FireState.shutdown : FireState → Bool
  | .quiet => false
  | .preAlarm => false
  | .countdown _ => true
  | .held => true
  | .discharged => true
  | .venting _ => false

/-- VENTING (R29). -/
def FireState.vents : FireState → Bool
  | .quiet => false
  | .preAlarm => false
  | .countdown _ => false
  | .held => false
  | .discharged => false
  | .venting _ => true

/-! ## Detectors -/

/-- The line condition of a detector (R38). -/
inductive LineCondition where
  | alarm | fault | normal
  deriving DecidableEq, Repr

/-- The line condition of a detector's two debounced lines; alarm goes before fault (R38). -/
def DetectorRecord.condition (d : DetectorRecord) : LineCondition :=
  if d.polarity.isActive d.alarmLine = true then .alarm
  else if d.faultLine = .high then .fault
  else .normal

/-- The state that a line condition names (R40, R41). -/
def LineCondition.names : LineCondition → DetectorState
  | .alarm => .alarm
  | .fault => .fault
  | .normal => .normal

/-- The state an evaluation of the lines gives: by the table of R39 for an assigned detector, with ALARM
latched; the line condition itself for an unassigned one (R41); ISOLATED stays (R40). -/
def DetectorRecord.evaluated (d : DetectorRecord) : DetectorState :=
  match d.state with
  | .isolated => .isolated
  | .alarm => if d.assignment.isSome then .alarm else d.condition.names
  | .normal => d.condition.names
  | .fault => d.condition.names

/-- The state a detector whose latch is dropped takes: that of its lines, except that an alarm
condition gives NORMAL (R53). -/
def DetectorRecord.dropped (d : DetectorRecord) : DetectorState :=
  match d.condition with
  | .alarm => .normal
  | .fault => .fault
  | .normal => .normal

/-- PROTECTION_OFF of an area: every detector assigned to it is ISOLATED, or none is assigned (R42). -/
def FireUnit.protectionOff (f : FireUnit) (a : Area) : Bool :=
  f.detectors.toList.all fun d => d.assignment != some a || d.state == .isolated

/-- The detectors assigned to an area that are in ALARM (R46). -/
def FireUnit.alarmCount (f : FireUnit) (a : Area) : Nat :=
  (f.detectors.toList.filter fun d => d.assignment == some a && d.state == .alarm).length

/-- ALERT: some area is in PRE_ALARM (R56). -/
def FireUnit.alertOf (f : FireUnit) : Bool := f.areas.any fun a => a.state == .preAlarm

/-- EVACUATE: some area is in COUNTDOWN, HELD or DISCHARGED (R56). -/
def FireUnit.evacuateOf (f : FireUnit) : Bool := f.areas.any fun a => a.state.shutdown

/-- Some area is in COUNTDOWN or a later state (R108). -/
def FireUnit.anyLate (f : FireUnit) : Bool := f.areas.any fun a => a.state.late

/-- The hatch is fire-blocked (R147). -/
def FireUnit.blocked (f : FireUnit) : Bool :=
  f.anyLate || f.areas.staging.state == .preAlarm || f.areas.hatch.state == .preAlarm

/-- Some damage flag is set (R183). -/
def DamageFlags.any (f : DamageFlags) : Bool := f.config || f.consign || f.dose

/-- The causes of TROUBLE that hold (R57). -/
def troubleCauses (fire : FireUnit) (climate : ClimateUnit) (lost : Bool) (flags : DamageFlags) : TroubleCauses :=
  { detectorFault := fire.detectors.toList.any fun d => d.state == .fault
    sensorFailed := climate.channels.any fun c => c.state == .failed
    linkLost := lost
    storeDamage := flags.any
    protectionOff := Area.all.any fun a => fire.protectionOff a }

/-- Some cause of TROUBLE holds (R57). -/
def TroubleCauses.any (c : TroubleCauses) : Bool :=
  c.detectorFault || c.sensorFailed || c.linkLost || c.storeDamage || c.protectionOff

/-- The causes of TROUBLE in a state (R57). -/
def State.causes (s : State) : TroubleCauses := troubleCauses s.fire s.climate s.links.lost s.store.flags

/-- TROUBLE worked out again and driven (R57). -/
def State.updateTrouble (s : State) : State := { s with fire := { s.fire with trouble := s.causes.any } }

/-- ALERT and EVACUATE worked out again and driven (R56). -/
def State.updateSounders (s : State) : State :=
  { s with fire := { s.fire with alert := s.fire.alertOf, evacuate := s.fire.evacuateOf } }

/-- A door is secure when its contact is CLOSED and its latch is ENGAGED (R136). -/
def Door.secure (d : Door) : Bool := !d.isOpen && !d.released

end Sys2Proof.Machine
end

