-- ==== Sys2Proof/Machine/Records.lean ====
section
/-! DEFINITION. The bytes of the store's records and the check of a copy (R179). The manual says what each record
holds and that the check covers the content and the write count; the order and the widths of the bytes are the model's
(log 9, DESIGN CHOICE): numbers high byte first, an absent field as 00 hex, a present one after 01 hex. -/

namespace Sys2Proof.Machine

/-! ## Bytes of plain values -/

/-- A number as one byte. -/
def oneByte (n : Nat) : List Byte := [BitVec.ofNat 8 n]

/-- A number as four bytes, high byte first. -/
def fourBytes (n : Nat) : List Byte := twoBytes (n / 65536) ++ twoBytes n

/-- A field that may be absent: 00 hex, or 01 hex and the bytes of its value. -/
def optionBytes {α : Type} (f : α → List Byte) : Option α → List Byte
  | none => [0x00#8]
  | some x => 0x01#8 :: f x

/-- A flag as one byte. -/
def flagByte (b : Bool) : List Byte := oneByte b.toNat

/-- A list of values: its length, then each value. -/
def listBytes {α : Type} (f : α → List Byte) (xs : List α) : List Byte := oneByte xs.length ++ xs.flatMap f

/-- The values of the four areas, in number order. -/
def perAreaBytes {α : Type} (f : α → List Byte) (p : PerArea α) : List Byte :=
  f p.vaultA ++ f p.vaultB ++ f p.staging ++ f p.hatch

/-- An area as its number (R1). -/
def areaByte (a : Area) : List Byte := oneByte a.number

/-- A channel as its number (R1). -/
def channelByte (c : Channel) : List Byte := oneByte c.number

/-- A clock value or a location code. -/
def wordBytes {w : Nat} (x : BitVec w) : List Byte := fourBytes x.toNat

/-! ## Bytes of the records' parts -/

/-- A descriptor (R3). -/
def Descriptor.bytes (d : Descriptor) : List Byte :=
  flagByte d.enabled ++ wordBytes d.prefixValue ++ oneByte d.prefixLength ++ areaByte d.area

/-- An area's climate settings (R33). -/
def climateBytes (g : ClimateSettings) : List Byte :=
  twoBytes g.rhTarget ++ oneByte g.rhBand ++ twoBytes g.heatTarget ++ oneByte g.alarmIndex ++ twoBytes g.doseThreshold ++
    oneByte g.coupling

/-- The staging settings (R79). -/
def StagingSettings.bytes (g : StagingSettings) : List Byte :=
  oneByte g.marginOut ++ oneByte g.minDwellOut ++ twoBytes g.minDwellIn ++ twoBytes g.rhCeiling ++ areaByte g.inboundRef ++
    oneByte g.inboundReserve ++ oneByte g.pickTimeout ++ fourBytes g.doseLimit ++ twoBytes g.exchangeTimeout

/-- An area's fire settings (R58). -/
def FireSettings.bytes (g : FireSettings) : List Byte :=
  oneByte (match g.coincidence with | .single => 0 | .double => 1) ++ oneByte g.delay ++ twoBytes g.vent

/-- A detector's settings (R59). -/
def DetectorSettings.bytes (g : DetectorSettings) : List Byte :=
  optionBytes areaByte g.assignment ++ oneByte (match g.polarity with | .activeHigh => 0 | .activeLow => 1)

/-- The configuration record (R179). -/
def ConfigRecord.bytes (c : ConfigRecord) : List Byte :=
  c.descriptors.toList.flatMap Descriptor.bytes ++ perAreaBytes climateBytes c.climate ++ c.staging.bytes ++
    perAreaBytes FireSettings.bytes c.fire ++ c.detectors.toList.flatMap DetectorSettings.bytes

/-- A custody state, numbered in the order of the type. -/
def CustodyState.code : CustodyState → Nat
  | .inVault => 0
  | .requested => 1
  | .picking => 2
  | .stagedOut => 3
  | .readyOut => 4
  | .inHatchOut => 5
  | .withCourier => 6
  | .inHatchIn => 7
  | .stagedIn => 8
  | .readyIn => 9
  | .unknown => 10

/-- A direction. -/
def Direction.code : Direction → Nat
  | .outbound => 0
  | .inbound => 1

/-- A consignment state, numbered in the order of R122. -/
def ConsignState.code : ConsignState → Nat
  | .opened => 0
  | .sealed => 1
  | .ready => 2
  | .loaded => 3
  | .exchanging => 4
  | .returning => 5
  | .closed => 6
  | .cancelled => 7
  | .lockedOut => 8

/-- A result of a consignment. -/
def ExchangeResult.code : ExchangeResult → Nat
  | .complete => 0
  | .partially => 1
  | .interrupted => 2
  | .cancelled => 3

/-- A cause of a restart. -/
def Cause.code : Cause → Nat
  | .powerOn => 0
  | .resetLine => 1
  | .restart => 2

/-- A custody record (R84). -/
def CustodyRecord.bytes (r : CustodyRecord) : List Byte :=
  r.label ++ oneByte r.state.code ++ optionBytes wordBytes r.location ++ optionBytes areaByte r.area ++
    optionBytes (fun n : Fin 32 => oneByte n.val) r.slot ++ optionBytes twoBytes r.consignment ++
    optionBytes twoBytes r.courier ++ optionBytes fourBytes r.storedDose ++ optionBytes fourBytes r.mark ++
    flagByte r.inspect ++ flagByte r.new ++ flagByte r.damaged ++ flagByte r.fireHeld ++ optionBytes wordBytes r.lastMove

/-- A consignment record (R122). -/
def Consignment.bytes (c : Consignment) : List Byte :=
  twoBytes c.number ++ twoBytes c.courier ++ oneByte c.state.code ++
    optionBytes (fun s : ConsignState => oneByte s.code) c.beforeLockout ++ listBytes id c.outbound ++ oneByte c.expected ++
    listBytes id c.received ++ oneByte c.takenCount ++ optionBytes (fun t : Word16 => twoBytes t.toNat) c.token ++
    oneByte c.mismatches ++ optionBytes (fun r : ExchangeResult => oneByte r.code) c.result ++ wordBytes c.created ++
    optionBytes wordBytes c.closed

/-- The persisted part of a slot (R111). -/
def StoredSlot.bytes : StoredSlot → List Byte
  | .free => [0x00#8]
  | .reserved l o => 0x01#8 :: l ++ areaByte o
  | .occupied l d o => 0x02#8 :: l ++ oneByte d.code ++ channelByte o

/-- The persisted part of a hatch list entry (R149). -/
def StoredEntry.bytes (e : StoredEntry) : List Byte :=
  e.label ++ oneByte e.direction.code ++ twoBytes e.number ++ flagByte e.fireHeld

/-- The content of a record (R179). -/
def Content.bytes : Content → List Byte
  | .config c => c.bytes
  | .custody r => optionBytes CustodyRecord.bytes r
  | .key l => optionBytes id l
  | .consignment c => optionBytes Consignment.bytes c
  | .counter n => twoBytes n
  | .slot s => s.bytes
  | .hatchList es => listBytes StoredEntry.bytes es
  | .accumulator n => fourBytes n
  | .fireFlags d a => flagByte d ++ flagByte a
  | .snapshot c => optionBytes wordBytes c
  | .status c f m => oneByte c.code ++ flagByte f.config ++ flagByte f.consign ++ flagByte f.dose ++ flagByte m

/-! ## The check of a copy (R179) -/

/-- The check of a content under a write count: the CRC over the content and the count (R179). -/
def recordCheck (x : Content) (count : Nat) : Word16 := crc16 (x.bytes ++ twoBytes count)

/-- A copy written whole: the content, its write count and their check (R179). -/
def Copy.sealed (x : Content) (count : Nat) : Copy := ⟨x, count, recordCheck x count⟩

/-- The check of a copy is good (R179). -/
def Copy.good (c : Copy) : Bool := c.check == recordCheck c.content c.count

/-- A copy left with a bad check: its check differs in every bit from that of what it holds (R179; log 9, DESIGN
CHOICE). -/
def Copy.spoiled (c : Copy) : Copy := { c with check := ~~~ recordCheck c.content c.count }

end Sys2Proof.Machine
end

