-- ==== Sys2Proof/Machine/Frames.lean ====
section
/-! DEFINITION. The frames that a transmitter sends (R170): SYNC, LEN, KIND, TAG, BODY and CRC; of a response the KIND
is that of its request plus 80 hex, the TAG that of its request and the first body byte the result code; of a notice
the TAG is 0 and the body begins with the stamp. A body's fields stand in the order in which the manual lists them:
numbers high byte first, labels as their eight characters, location codes as their three bytes (R2), areas and channels
by their numbers (R1). The widths of the numbers, the place of flags and the form of a list are the model's (log 7,
DESIGN CHOICE). The manual gives no number to a kind or to a named value, and no bytes to an absent field: those are
free values, constants without a body (log 7). -/

namespace Sys2Proof.Machine

/-- A value that the manual names and does not number, as a field of a response or notice carries it (log 7). -/
inductive Named where
  | cause (c : Cause)
  | mode (m : VaultMode)
  | linkLost (lost : Bool)
  | channelState (s : ChannelState)
  | fire (s : FireName)
  | detector (s : DetectorState)
  | dropReason (r : DropReason)
  | direction (d : Direction)
  | consign (s : ConsignState)
  | result (r : ExchangeResult)
  | side (s : Side)
  | grant (s : Option Side)
  | purpose (unload : Bool)
  | alarm (k : DoorAlarm)
  | exchange (e : ExchangeEvent)
  | custody (s : CustodyState)
  | dehumidifier (d : DehumidifierReport)
  | damper (isOpen : Bool)
  | heater (on : Bool)
  | fan (on : Bool)
  | slotFree
  | slotReserved
  | slotOccupied
  | leg (l : OuterLeg)
  | outer (o : OuterReport)
  | gate (passes : Bool)
  | granted (now : Bool)
  | coincidence (c : Coincidence)
  | polarity (p : Polarity)
  deriving DecidableEq, Repr

end Sys2Proof.Machine

namespace Sys2Proof.Config

/-- The number behind a request kind's KIND byte: a free value (log 7). -/
opaque requestKind : Machine.RequestKind → Nat

/-- The number behind a notice's KIND byte, by the notice's place in the table of R174: a free value (log 7). -/
opaque noticeKind : Nat → Nat

/-- The byte that a field carries for a named value: a free value (log 7). -/
opaque nameByte : Machine.Named → Byte

/-- The bytes of an absent field, by its width and their place: free values (log 7). -/
opaque absentByte : Nat → Nat → Byte

end Sys2Proof.Config

namespace Sys2Proof.Machine

/-- A frame on the line: SYNC, LEN, KIND, TAG, the body, and the CRC over all but SYNC (R170). -/
def frameBytes (kind tag : Byte) (body : List Byte) : List Byte :=
  let content := BitVec.ofNat 8 body.length :: kind :: tag :: body
  Config.sync :: content ++ [highByte (crc16 content), lowByte (crc16 content)]

/-! ## Kinds -/

/-- The KIND byte of a request: one of 01..3F hex for a kind of the part; the byte sent for one that names none
(R170, R171). -/
def RequestKind.byte : RequestKind → Byte
  | .undefinedKind k => k
  | k => BitVec.ofNat 8 (0x01 + Config.requestKind k % 0x3F)

/-- The place of a notice in the table of R174. -/
def NoticeBody.index : NoticeBody → Nat
  | .restarted _ _ => 0
  | .mode _ => 1
  | .facilityLink _ => 2
  | .rezoneDone => 3
  | .formatDone => 4
  | .sensorState _ _ => 5
  | .climateAlarm _ _ => 6
  | .fireState _ _ => 7
  | .detector _ _ => 8
  | .agentSpent _ => 9
  | .hold => 10
  | .resume => 11
  | .pick _ _ _ => 12
  | .pickLapsed _ => 13
  | .checkoutDropped _ _ => 14
  | .ready _ _ _ => 15
  | .consignState _ _ _ => 16
  | .hatchGranted _ => 17
  | .hatchLapsed _ => 18
  | .hatchRevoked _ => 19
  | .hatchAlarm _ _ => 20
  | .exchangeState _ _ _ => 21

/-- The KIND byte of a notice: one of 40..7F hex (R170). -/
def NoticeBody.byte (n : NoticeBody) : Byte := BitVec.ofNat 8 (0x40 + Config.noticeKind n.index % 0x40)

/-! ## Fields of a body (R170) -/

/-- A named value in one byte (log 7). -/
def named (x : Named) : List Byte := [Config.nameByte x]

/-- A field that may be absent, in as many bytes as its value has (log 7, DESIGN CHOICE). -/
def fieldOr {α : Type} (width : Nat) (f : α → List Byte) : Option α → List Byte
  | some x => f x
  | none => (List.range width).map (Config.absentByte width)

/-- A signed number in two bytes, high byte first (R170). -/
def signedBytes (t : Int) : List Byte := twoBytes (BitVec.ofInt 16 t).toNat

/-- A location code as its aisle, its bay and its slot (R2). -/
def locationBytes (l : Location) : List Byte := [l.extractLsb' 16 8, l.extractLsb' 8 8, l.extractLsb' 0 8]

/-- A detector as its number, 1 to 12 (R38). -/
def detectorByte (d : Detector) : List Byte := oneByte (d.val + 1)

/-- A staging slot as its number (R111). -/
def slotByte (n : Fin 32) : List Byte := oneByte n.val

/-- Flags as the bits of a number, the first the least significant. -/
def flagNumber (fs : List Bool) : Nat := fs.foldr (fun b n => b.toNat + 2 * n) 0

/-- Flags, eight to a byte, the first in the least significant bit (log 7, DESIGN CHOICE). -/
def flagBytes (fs : List Bool) : List Byte :=
  (List.range ((fs.length + 7) / 8)).map fun i => BitVec.ofNat 8 (flagNumber ((fs.drop (8 * i)).take 8))

/-- A purpose: whether it unloads, and the number to load (R140). -/
def purposeBytes : Option Purpose → List Byte
  | some (.load n) => named (.purpose false) ++ twoBytes n
  | some .unload => named (.purpose true) ++ fieldOr (α := Nat) 2 twoBytes none
  | none => fieldOr (α := Nat) 3 twoBytes none

/-- A dose or a mark in four bytes (R74). -/
def doseBytes : Option Nat → List Byte := fieldOr 4 fourBytes

/-! ## Response data (each layout under the rule that lists its fields) -/

/-- The fields of STATUS in the order of R176, its flags last (log 7, DESIGN CHOICE). The arbiter's lapse-at is sent as
the seconds left before it alone: with lapse-at too the body would be longer than LEN can be (R140, R170, R176; log 53,
DESIGN CHOICE). -/
def StatusReport.bytes (r : StatusReport) : List Byte :=
  let doors := [r.innerDoor, r.outerDoor].flatMap fun d => [d.isOpen, d.released, d.secure, d.forced]
  let areas := [r.fireAreas.vaultA, r.fireAreas.vaultB, r.fireAreas.staging, r.fireAreas.hatch]
  let causes := [r.causes.detectorFault, r.causes.sensorFailed, r.causes.linkLost, r.causes.storeDamage,
    r.causes.protectionOff]
  [r.mask] ++ named (.mode r.mode) ++ wordBytes r.clock ++ fourBytes r.uptime ++ named (.cause r.cause) ++
    twoBytes r.droppedSweeps ++ perAreaBytes fourBytes r.accumulators ++
    r.detectors.toList.flatMap (fun d => named (.detector d)) ++
    areas.flatMap (fun x => named (.fire x.state) ++ fieldOr 2 twoBytes x.secondsLeft) ++
    twoBytes r.records ++ twoBytes r.freePlaces ++ twoBytes r.unknownRecords ++ oneByte r.queueLength ++
    oneByte r.slotsFree ++ oneByte r.slotsReserved ++ oneByte r.slotsOccupied ++ oneByte r.inboundReserve ++
    oneByte r.consignFree ++ r.consignCounts.flatMap (fun x => oneByte x.2) ++ named (.grant r.arbiter.grant) ++
    purposeBytes r.arbiter.purpose ++ purposeBytes r.arbiter.pendingInner ++ fieldOr 1 oneByte r.lapseSecondsLeft ++
    oneByte r.listLength ++ fieldOr 2 twoBytes r.listNumber ++
    fieldOr 3 (fun x : Nat × OuterLeg => twoBytes x.1 ++ named (.leg x.2)) r.exchange ++
    flagBytes ([r.overrun, r.linkLost, r.clockSuspect, r.rezoneInFlight, r.flags.config, r.flags.consign, r.flags.dose,
      r.formatInFlight, r.abort] ++ areas.flatMap (fun x => [x.callLatch, x.release]) ++
      [r.alert, r.evacuate, r.trouble] ++ causes ++ [r.holdSent] ++ doors ++
      [r.arbiter.possession, r.arbiter.pendingOuter, r.arbiter.lastGranted == .outer, r.arbiter.releasePending,
        r.arbiter.revoked, r.exchange.isSome])

/-- The outputs and flags of an area (R35). -/
def AreaOutputs.bytes (o : AreaOutputs) : List Byte :=
  named (.damper o.damperOpen) ++ named (.dehumidifier o.dehumidifier) ++
    fieldOr 1 (fun on : Bool => named (.heater on)) o.heater ++ named (.fan o.fan) ++ named (.fire o.fire) ++
    flagBytes [o.highRh, o.protectionOff, o.agentSpent]

/-- The fields of AREA_QUERY (R35). -/
def AreaReport.bytes (r : AreaReport) : List Byte :=
  named (.channelState r.state) ++ oneByte r.missCount ++
    fieldOr 4 (fun h : Held => signedBytes h.temperature ++ twoBytes h.humidity) r.held ++
    fieldOr 2 signedBytes r.dewPoint ++ fieldOr 6 AreaOutputs.bytes r.outputs

/-- A descriptor's four fields (R3, R5). -/
def Descriptor.fieldBytes (d : Descriptor) : List Byte :=
  flagBytes [d.enabled] ++ locationBytes d.prefixValue ++ oneByte d.prefixLength ++ areaByte d.area

/-- A custody record's fields from its label to its mark (R84). -/
def CustodyRecord.fieldBytes (r : CustodyRecord) : List Byte :=
  r.label ++ named (.custody r.state) ++ fieldOr 3 locationBytes r.location ++ fieldOr 1 areaByte r.area ++
    fieldOr 1 slotByte r.slot ++ fieldOr 2 twoBytes r.consignment ++ fieldOr 2 twoBytes r.courier ++
    doseBytes r.storedDose ++ doseBytes r.mark

/-- A custody record's flags and last move time (R86, R87). -/
def CustodyRecord.flagFields (r : CustodyRecord) : List Byte :=
  flagBytes [r.inspect, r.new, r.damaged, r.fireHeld] ++ fieldOr 4 wordBytes r.lastMove

/-- The fields of CUSTODY_QUERY (R96). -/
def CustodyReport.bytes (r : CustodyReport) : List Byte :=
  r.record.fieldBytes ++ doseBytes r.effectiveDose ++ doseBytes r.doseLimit ++ r.record.flagFields

/-- The fields of a slot in the order of R117's table: its state, label, direction, origin, reserved-at with the seconds
left of it, dwell and estimate. -/
def Slot.fieldBytes (secondsLeft : Option Nat) : Slot → List Byte
  | .free => named .slotFree ++ fieldOr 8 id none ++ fieldOr 1 areaByte none ++ fieldOr 1 areaByte none ++
      fieldOr 4 fourBytes none ++ fieldOr 2 twoBytes secondsLeft ++ fieldOr 2 twoBytes none ++ fieldOr 2 signedBytes none
  | .reserved l o m => named .slotReserved ++ l ++ named (.direction .outbound) ++ areaByte o ++ fourBytes m ++
      fieldOr 2 twoBytes secondsLeft ++ fieldOr 2 twoBytes none ++ fieldOr 2 signedBytes none
  | .occupied l d o dwell e => named .slotOccupied ++ l ++ named (.direction d) ++ channelByte o ++
      fieldOr 4 fourBytes none ++ fieldOr 2 twoBytes secondsLeft ++ twoBytes dwell ++ fieldOr 2 signedBytes e

/-- The fields of SLOT_QUERY (R117). -/
def SlotReport.bytes (r : SlotReport) : List Byte :=
  slotByte r.number ++ r.slot.fieldBytes r.secondsLeft ++ fieldOr 1 (fun x : CustodyState => named (.custody x)) r.custody

/-- Labels, each with the custody state of its record (R134). -/
def labelStates (ls : List Label) (xs : List (Option CustodyState)) : List Byte :=
  listBytes (fun x : Label × Option CustodyState => x.1 ++ fieldOr 1 (fun y : CustodyState => named (.custody y)) x.2)
    (ls.zip xs)

/-- The fields of CONSIGN_QUERY (R134). -/
def ConsignReport.bytes (r : ConsignReport) : List Byte :=
  let c := r.record
  twoBytes c.number ++ twoBytes c.courier ++ named (.consign c.state) ++ oneByte c.expected ++ oneByte c.takenCount ++
    oneByte c.mismatches ++ wordBytes c.created ++ fieldOr 1 (fun x : ConsignState => named (.consign x)) c.beforeLockout ++
    fieldOr 2 (fun w : Word16 => twoBytes w.toNat) c.token ++ fieldOr 1 (fun x : ExchangeResult => named (.result x)) c.result ++
    fieldOr 4 wordBytes c.closed ++ labelStates c.outbound r.outboundStates ++ labelStates c.received r.receivedStates

/-- A hatch list entry's fields (R169). -/
def HatchEntry.fieldBytes (e : HatchEntry) : List Byte :=
  e.label ++ named (.direction e.direction) ++ fieldOr 2 signedBytes e.estimate ++ flagBytes [e.fireHeld]

/-- The fields of EXCHANGE_QUERY (R169). -/
def ExchangeReport.bytes (r : ExchangeReport) : List Byte :=
  twoBytes r.number ++ twoBytes r.courier ++ named (.leg r.leg) ++ fieldOr 2 twoBytes r.secondsLeft ++
    listBytes id r.outbound ++ oneByte r.expected ++ listBytes id r.takenList ++ listBytes id r.depositedList ++
    listBytes HatchEntry.fieldBytes r.entries ++ fieldOr 2 signedBytes r.outsideDewPoint ++ oneByte r.marginOut ++
    named (.gate r.gatePasses) ++ named (.outer r.outer)

/-- The bytes of a response's data: its fields in the order in which the rule of its request lists them (R170). -/
def ResponseData.bytes : ResponseData → List Byte
  | .none => []
  | .mask previous => [previous]
  | .status r => r.bytes
  | .area r => r.bytes
  | .descriptor d => d.fieldBytes
  | .climate g => climateBytes g
  | .fireArea g => named (.coincidence g.coincidence) ++ oneByte g.delay ++ twoBytes g.vent
  | .fireDetector g => fieldOr 1 areaByte g.assignment ++ named (.polarity g.polarity)
  | .enrolled a => areaByte a
  | .retired r dose => r.fieldBytes ++ r.flagFields ++ doseBytes dose
  | .relocated a dose => areaByte a ++ doseBytes dose
  | .custody r => r.bytes
  | .doseBefore dose => doseBytes dose
  | .checkout n arrival => oneByte n ++ wordBytes arrival
  | .cancelled st => named (.custody st)
  | .placed n dose => slotByte n ++ doseBytes dose
  | .shelved a dose => areaByte a ++ doseBytes dose
  | .slot r => r.bytes
  | .staging g => g.bytes
  | .consignNumber n => twoBytes n
  | .outboundCount n => oneByte n
  | .sealed token st => twoBytes token.toNat ++ named (.consign st)
  | .unlocked st => named (.consign st)
  | .consign r => r.bytes
  | .hatch now => named (.granted now)
  | .loaded n => oneByte n
  | .unloaded n => slotByte n
  | .arrived ls expected => listBytes id ls ++ oneByte expected
  | .takenCount n => oneByte n
  | .deposited n received created => oneByte n ++ oneByte received ++ flagBytes [created]
  | .exchange r => r.bytes

/-! ## Responses -/

/-- OK and ACCEPTED carry data; every other result code is carried alone (R172). -/
def ResultCode.carriesData (c : ResultCode) : Bool := c == .ok || c == .accepted

/-- A response's body: the result code in the first byte, then its data (R170, R172). Data that LEN cannot hold is cut
where LEN is 96 (R134, R169; log 48, DESIGN CHOICE). -/
def Response.body (r : Response) : List Byte :=
  r.code.byte :: (if r.code.carriesData then r.data.bytes.take (Config.maxBody - 1) else [])

/-- A response as a frame: its request's KIND plus 80 hex, and its request's TAG (R170, R172). -/
def Response.frame (r : Response) : List Byte := frameBytes (r.kind.byte + 0x80#8) r.tag r.body

/-! ## Notices -/

/-- A notice's content after the stamp, by the table of R174. -/
def NoticeBody.content : NoticeBody → List Byte
  | .restarted c f => named (.cause c) ++ flagBytes [f.config, f.consign, f.dose]
  | .mode m => named (.mode m)
  | .facilityLink lost => named (.linkLost lost)
  | .rezoneDone => []
  | .formatDone => []
  | .sensorState c st => channelByte c ++ named (.channelState st)
  | .climateAlarm a humidity => areaByte a ++ twoBytes humidity
  | .fireState a st => areaByte a ++ named (.fire st)
  | .detector d st => detectorByte d ++ named (.detector st)
  | .agentSpent a => areaByte a
  | .hold => []
  | .resume => []
  | .pick l location n => l ++ fieldOr 3 locationBytes location ++ slotByte n
  | .pickLapsed l => l
  | .checkoutDropped l reason => l ++ named (.dropReason reason)
  | .ready l d n => l ++ named (.direction d) ++ slotByte n
  | .consignState number st r => twoBytes number ++ named (.consign st) ++
      fieldOr 1 (fun x : ExchangeResult => named (.result x)) r
  | .hatchGranted w => named (.side w)
  | .hatchLapsed w => named (.side w)
  | .hatchRevoked w => named (.side w)
  | .hatchAlarm k door => named (.alarm k) ++ named (.side door)
  | .exchangeState number e r => twoBytes number ++ named (.exchange e) ++
      fieldOr 1 (fun x : ExchangeResult => named (.result x)) r

/-- A notice's body: the stamp in four bytes, high byte first, then its content (R170). -/
def Notice.frameBody (n : Notice) : List Byte := wordBytes n.stamp ++ n.body.content.take (Config.maxBody - 4)

/-- A notice as a frame, with TAG 0 (R170). -/
def Notice.frame (n : Notice) : List Byte := frameBytes n.body.byte 0x00#8 n.frameBody

/-! ## The line -/

/-- The bytes of a frame that is sent (R170). -/
def SentFrame.bytes : SentFrame → List Byte
  | .response r => r.frame
  | .notice n => n.frame

/-- The bytes that a port's transmitter puts on its line: those of the frame it sends, or none (R170, R175). -/
def Link.lineBytes (l : Link) : List Byte :=
  match l.sending with
  | some f => f.bytes
  | none => []

/-- One bit time of the line: a start bit, a data bit, or a stop bit that is there or missing (R170, R171). The manual
gives no levels to a start or a stop bit. -/
inductive LineBit where
  | start
  | data (b : Bool)
  | stop (present : Bool)
  deriving DecidableEq, Repr

/-- The ten bit times of a byte on the line: the start bit, eight data bits, the least significant first, no parity, and
one stop bit (R170). -/
def bitsOfByte (x : LineByte) : List LineBit :=
  .start :: (List.range 8).map (fun i => .data (x.value.getLsbD i)) ++ [.stop x.stopBit]

/-- The byte that ten bit times spell (R170, R171); none where they are not a start bit, eight data bits and a stop
bit. -/
def byteOfBits : List LineBit → Option LineByte
  | [.start, .data b0, .data b1, .data b2, .data b3, .data b4, .data b5, .data b6, .data b7, .stop present] =>
    some ⟨BitVec.ofBoolListLE [b0, b1, b2, b3, b4, b5, b6, b7], present⟩
  | _ => none

/-- The bit times that a port's transmitter puts on its line: those of the bytes of its frame, one after another, each
with its stop bit (R170). -/
def Link.lineBits (l : Link) : List LineBit := l.lineBytes.flatMap fun b => bitsOfByte ⟨b, true⟩

end Sys2Proof.Machine
end

