-- ==== Sys2Proof/Machine/Ops.lean ====
section
/-! DEFINITION. The operations the blocks share: the frame receiver (R171), the notice queues and
the transmitter (R174, R175), the checks a request passes in the link unit (R172), the store's cells and
its queue of writes (R179), and the outputs that wait on writes (R89). -/

namespace Sys2Proof.Machine

/-! ## The discrete inputs (R37) -/

/-- A change of what the input scan holds. -/
def State.onInputs (f : Inputs → Inputs) (s : State) : State := { s with inputs := f s.inputs }

/-- A scan samples an input. -/
def Pin.scan (p : Pin) : Pin := { p with sample := p.now }

/-- The debounced level after a scan: the level sampled, when the scan before sampled the same; else the level as it
was (R37). -/
def Pin.taken (p : Pin) (level : Level) : Level := if p.sample = p.now then p.now else level

/-- The level of an input that is active when HIGH. -/
def levelOf (active : Bool) : Level := if active then .high else .low

/-- A scan samples every input (R37). -/
def Inputs.scan (x : Inputs) : Inputs :=
  { alarm := x.alarm.map Pin.scan, fault := x.fault.map Pin.scan, call := x.call.map Pin.scan, abort := x.abort.scan,
    inner := x.inner.scan, outer := x.outer.scan, reset := x.reset.scan,
    limitedReads := x.limitedReads }

/-- The pin of a door's contact (R136). -/
def Inputs.contact (x : Inputs) : Side → Pin
  | .inner => x.inner
  | .outer => x.outer

/-- The pin of a door's contact replaced. -/
def Inputs.setContact (x : Inputs) (d : Side) (p : Pin) : Inputs :=
  match d with
  | .inner => { x with inner := p }
  | .outer => { x with outer := p }

/-! ## The receiver (R171) -/

/-- What one byte on the line brings about: nothing yet, a discard, or a valid frame (R171). -/
inductive LineEvent where
  | nothing
  | discard
  | frame (kind tag : Byte) (body : List Byte)
  deriving DecidableEq, Repr

/-- The end of a frame's collection: the CRC received against that of LEN, KIND, TAG and body (R171). -/
def closeFrame (bytes : List Byte) (bodyLength : Nat) : LineEvent :=
  let content := bytes.take (bodyLength + 3)
  let crc := crc16 content
  if bytes.drop (bodyLength + 3) = [highByte crc, lowByte crc] then
    match content with
    | _ :: kind :: tag :: body => .frame kind tag body
    | _ => .discard
  else .discard

/-- The receiver takes one byte of the line (R171; log 37, DEDUCED). -/
def Receiver.take (r : Receiver) (b : LineByte) : Receiver × LineEvent :=
  match r with
  | .hunting => if b.value = Config.sync then (.collecting [], .nothing) else (.hunting, .nothing)
  | .collecting bytes =>
    if b.stopBit = false then (.hunting, .discard)
    else
      match bytes ++ [b.value] with
      | [] => (.hunting, .discard)
      | len :: rest =>
        if Config.maxBody < len.toNat then (.hunting, .discard)
        else if rest.length = len.toNat + 4 then (.hunting, closeFrame (len :: rest) len.toNat)
        else (.collecting (len :: rest), .nothing)

/-- The receiver over a run of bytes, with the events they bring about in order (R171). -/
def Receiver.run : Receiver → List LineByte → Receiver × List LineEvent
  | r, [] => (r, [])
  | r, b :: bs =>
    let (r', e) := r.take b
    let (r'', es) := Receiver.run r' bs
    (r'', if e = .nothing then es else e :: es)

/-! ## Link units (R172, R174, R175) -/

/-- The link unit of a port. -/
def Links.get (l : Links) : Port → Link
  | .facility => l.facility
  | .archive => l.archive
  | .handover => l.handover

/-- The link units with one port's replaced. -/
def Links.set (l : Links) (p : Port) (x : Link) : Links :=
  match p with
  | .facility => { l with facility := x }
  | .archive => { l with archive := x }
  | .handover => { l with handover := x }

/-- The link unit of a port. -/
def State.link (s : State) (p : Port) : Link := s.links.get p

/-- A change of one port's link unit. -/
def State.onLink (p : Port) (f : Link → Link) (s : State) : State :=
  { s with links := s.links.set p (f (s.links.get p)) }

/-- The class is in the port's subscription (R174). -/
def Link.subscribed (l : Link) (c : NoticeClass) : Bool := l.mask.getLsbD c.bit

/-- An idle transmitter takes the oldest waiting response, or else the notice at the head of the queue,
which leaves the queue as its transmission begins (R175; log 15, DESIGN CHOICE). -/
def Link.start (l : Link) : Link :=
  match l.sending with
  | some _ => l
  | none =>
    match l.responses, l.notices with
    | r :: rs, _ => { l with sending := some (.response r), responses := rs }
    | [], n :: ns => { l with sending := some (.notice n), notices := ns }
    | [], [] => l

/-- The queue after a FIRE notice makes room: without the oldest notice not of class FIRE, or, of 16
FIRE notices, without the oldest (R175). -/
def makeFireRoom (ns : List Notice) : List Notice :=
  if ns.any (fun n => n.body.cls != .fire) then ns.eraseP (fun n => n.body.cls != .fire) else ns.tail

/-- A notice joins a port's queue, by the table of R175. -/
def Link.joinNotice (l : Link) (n : Notice) : Link :=
  if l.notices.length < Config.noticeCapacity then { l with notices := l.notices ++ [n] }
  else if n.body.cls = .fire then { l with notices := makeFireRoom l.notices ++ [n], overrun := true }
  else { l with overrun := true }

/-- A response joins the port's waiting responses. A block's response clears the outstanding flag as it
is queued (R172). The link unit holds at most four of its own, and discards a fifth (R175). -/
def Link.joinResponse (l : Link) (r : Response) : Link :=
  if r.own then
    if (l.responses.filter (·.own)).length < Config.ownResponses then { l with responses := l.responses ++ [r] } else l
  else { l with responses := l.responses ++ [r], outstanding := false }

/-- A notice is queued on a port that runs: its transmitter, where it is idle, has taken the frame that waited before,
and takes this one if none did (R175; log 15, DESIGN CHOICE). -/
def Link.takeNotice (l : Link) (n : Notice) : Link := (l.start.joinNotice n).start

/-- A response is queued on a port that runs, as a notice is (R175; log 15, DESIGN CHOICE). -/
def Link.takeResponse (l : Link) (r : Response) : Link := (l.start.joinResponse r).start

/-- A notice is queued at a restart, whose end leaves the transmitter idle; a queue that is full gives its head to the
transmitter first, and so discards none (R178; log 15, DESIGN CHOICE). -/
def Link.takeAtRestart (l : Link) (n : Notice) : Link :=
  (if l.notices.length < Config.noticeCapacity then l else l.start).joinNotice n

/-- A notice is queued on a port, stamped with the vault clock, if its rule fixes it there or its class is subscribed
(R174). -/
def State.noticeOn (take : Link → Notice → Link) (n : NoticeBody) (p : Port) (s : State) : State :=
  if n.fixed || (s.link p).subscribed n.cls then s.onLink p fun l => take l ⟨s.vault.clock, n⟩ else s

/-- Each port that a notice's rule names queues it (R174). -/
def State.sendNotice (take : Link → Notice → Link) (n : NoticeBody) (s : State) : State :=
  n.ports.foldl (fun s p => s.noticeOn take n p) s

/-- A block sends a notice (R174, R175). -/
def State.postNotice (n : NoticeBody) (s : State) : State := s.sendNotice Link.takeNotice n

/-- A response is queued on its port. -/
def State.postResponse (p : Port) (r : Response) (s : State) : State := s.onLink p fun l => l.takeResponse r

/-- Every transmitter that is idle takes its next frame while the part runs (R175; log 15, DESIGN CHOICE). -/
def State.startTransmitters (s : State) : State :=
  if s.power = .running then
    { s with links := { s.links with
      facility := s.links.facility.start, archive := s.links.archive.start, handover := s.links.handover.start } }
  else s

/-- An output is queued. -/
def State.deliver (s : State) : Out → State
  | .response p r => s.postResponse p r
  | .notice n => s.postNotice n

/-- Outputs are queued at once, or wait until the writes of the tickets in `needs` have ended (R89). -/
def State.emit (needs : List Nat) (outs : List Out) (s : State) : State :=
  if needs.isEmpty then outs.foldl State.deliver s
  else { s with store := { s.store with waiting := s.store.waiting ++ [⟨needs, outs⟩] } }

/-- A notice that waits on writes (log 17, DEDUCED). -/
def State.notify (needs : List Nat) (n : NoticeBody) (s : State) : State := s.emit needs [.notice n]

/-- The owning block's response to a request (R172). -/
def State.answer (h : ReqHead) (k : RequestKind) (needs : List Nat) (code : ResultCode) (data : ResponseData)
    (s : State) : State :=
  s.emit needs [.response h.port ⟨k, h.tag, code, data, false⟩]

/-- A refusal by the owning block: the result code alone, with the state as it was (R172). -/
def State.refuse (h : ReqHead) (k : RequestKind) (code : ResultCode) (s : State) : State :=
  s.answer h k [] code .none

/-- A refusal the link unit makes itself (R172, R175). -/
def State.refuseAtLink (h : ReqHead) (k : RequestKind) (code : ResultCode) (s : State) : State :=
  s.postResponse h.port ⟨k, h.tag, code, .none, true⟩

/-- A valid frame has been taken on a port: its receiver hunts, and on the facility port the silence
count restarts and a lost link is restored (R171, R177). -/
def State.validFrame (p : Port) (s : State) : State :=
  let s := s.onLink p fun l => { l with receiver := .hunting }
  match p with
  | .archive => s
  | .handover => s
  | .facility =>
    let s := { s with links := { s.links with lastValid := s.vault.uptime } }
    if s.links.lost then
      ({ s with links := { s.links with lost := false } }).updateTrouble.postNotice (.facilityLink false)
    else s

/-- The link unit's own checks of a request, and the response of the first that fails (R172). -/
def State.linkCheck (h : ReqHead) (k : RequestKind) (named : Bool) (s : State) : Option ResultCode :=
  if (s.link h.port).outstanding then some .busy
  else if !(named && h.lengthRight) then some .invalid
  else if !k.permitted h.port then some .permission
  else if s.store.format.inFlight && k != .status then some .busy
  else none

/-- A request: the valid frame is taken; the link unit refuses it, or sets the outstanding flag and hands
it to the block that owns it (R172). A part that is stopped or off takes nothing (R180). -/
def State.request (h : ReqHead) (k : RequestKind) (named : Bool) (owner : State → State) (s : State) : State :=
  if s.power = .running then
    let s := s.validFrame h.port
    match s.linkCheck h k named with
    | some code => s.refuseAtLink h k code
    | none => owner (s.onLink h.port fun l => { l with outstanding := true })
  else s

/-- An event that is not a request: a part that is stopped or off takes none (R180; log 22, DEDUCED). -/
def State.event (act : State → State) (s : State) : State :=
  if s.power = .running then act s else s

/-! ## The store's records and cells (R179) -/

end Sys2Proof.Machine

namespace Sys2Proof

/-- A number for each store record: the store status and the clock snapshot, then the other records of which
there are few, then the record and the key entry of each custody place. The store's cells are listed in this
order, and a format writes the records from 2 on in this order (log 18). -/
def StoreRecord.addr : StoreRecord → Nat
  | .status => 0
  | .snapshot => 1
  | .config => 2
  | .counter => 3
  | .hatchList => 4
  | .accumulator a => 4 + a.number
  | .fireFlags a => 8 + a.number
  | .consignment i => 13 + i.val
  | .slot n => 29 + n.val
  | .custody p => 61 + 2 * p
  | .key p => 62 + 2 * p

/-- The first record a format writes (R184). -/
abbrev formatFirst : Nat := 2

/-- The records below this one are all the records there are: 61 and two for each custody place (R179). -/
abbrev formatLimit : Nat := 61 + 2 * Config.custodyPlaces

/-- The record of a number. -/
def StoreRecord.ofAddr (n : Nat) : StoreRecord :=
  if n = 0 then .status
  else if n = 1 then .snapshot
  else if n = 2 then .config
  else if n = 3 then .counter
  else if n = 4 then .hatchList
  else if n < 9 then .accumulator ((Area.ofNumber (n - 4)).getD .vaultA)
  else if n < 13 then .fireFlags ((Area.ofNumber (n - 8)).getD .vaultA)
  else if n < 29 then .consignment (Fin.ofNat 16 (n - 13))
  else if n < 61 then .slot (Fin.ofNat 32 (n - 29))
  else if (n - 61) % 2 = 0 then .custody ((n - 61) / 2)
  else .key ((n - 61) / 2)

/-- A record the format writes: all but the clock snapshot and the store status (R184). -/
def StoreRecord.formatted : StoreRecord → Bool
  | .snapshot => false
  | .status => false
  | .config => true
  | .custody _ => true
  | .key _ => true
  | .consignment _ => true
  | .counter => true
  | .slot _ => true
  | .hatchList => true
  | .accumulator _ => true
  | .fireFlags _ => true

/-- An accumulator's record. -/
def StoreRecord.isAccumulator : StoreRecord → Bool
  | .accumulator _ => true
  | _ => false

/-- A fire flag record, whose write goes ahead of those waiting (R179). -/
def StoreRecord.isFireFlags : StoreRecord → Bool
  | .fireFlags _ => true
  | _ => false

/-- A record of the custody table's: a custody record or a key entry (R179). -/
def StoreRecord.isCustodyTable : StoreRecord → Bool
  | .custody _ => true
  | .key _ => true
  | _ => false

end Sys2Proof

namespace Sys2Proof.Machine

/-- A record's content in its formatted form (R184). -/
def formattedContent : StoreRecord → Content
  | .config => .config ConfigRecord.default
  | .custody _ => .custody none
  | .key _ => .key none
  | .consignment _ => .consignment none
  | .counter => .counter 0
  | .slot _ => .slot .free
  | .hatchList => .hatchList []
  | .accumulator _ => .accumulator 0
  | .fireFlags _ => .fireFlags false false
  | .snapshot => .snapshot none
  | .status => .status .powerOn DamageFlags.clear false

/-- The cell of a record that is not listed: its formatted content in both copies, with good checks (log 1 and 10,
DESIGN CHOICE). -/
def defaultCell (base : Nat × Nat) (r : StoreRecord) : Cell :=
  let counts := if r.formatted then base else (0, 0)
  ⟨Copy.sealed (formattedContent r) counts.1, Copy.sealed (formattedContent r) counts.2⟩

/-- A write count is the newer of two, counting round through 65535 to 0 (R179; log 10, DESIGN CHOICE). -/
def newerCount (a b : Nat) : Bool :=
  let d := (a + 65536 - b) % 65536
  decide (0 < d) && decide (d < 32768)

/-- The first copy is the one with the older write count; of equal counts the first counts as older (log 10, DESIGN
CHOICE). -/
def Cell.firstOlder (c : Cell) : Bool := !newerCount c.first.count c.second.count

/-- A write goes to the copy with the older write count and gives it the next count (R179). -/
def Cell.write (c : Cell) (x : Content) : Cell :=
  if c.firstOlder then { c with first := Copy.sealed x ((c.second.count + 1) % 65536) }
  else { c with second := Copy.sealed x ((c.first.count + 1) % 65536) }

/-- A write cut short leaves the copy being written with a bad check (R179; its count stays: log 10, DESIGN CHOICE). -/
def Cell.tear (c : Cell) : Cell :=
  if c.firstOlder then { c with first := c.first.spoiled } else { c with second := c.second.spoiled }

/-- Both copies of a custody record are erased, their counts kept (R93, R179; log 10, DESIGN CHOICE). -/
def Cell.erase (c : Cell) : Cell :=
  ⟨Copy.sealed (.custody none) c.first.count, Copy.sealed (.custody none) c.second.count⟩

/-- The content used at restart: that of the newer copy whose check is good; none when the record is
damaged, both copies failing their checks (R179). -/
def Cell.read (c : Cell) : Option Content :=
  match c.first.good, c.second.good with
  | true, true => some (if c.firstOlder then c.second.content else c.first.content)
  | true, false => some c.first.content
  | false, true => some c.second.content
  | false, false => none

/-- A copy found with a bad check. -/
def Cell.spoil (c : Cell) (second : Bool) : Cell :=
  if second then { c with second := c.second.spoiled } else { c with first := c.first.spoiled }

/-- The cell of a record in a list of cells. -/
def cellIn (base : Nat × Nat) (cells : List (StoreRecord × Cell)) (r : StoreRecord) : Cell :=
  match cells.find? (fun x => x.1 == r) with
  | some x => x.2
  | none => defaultCell base r

/-- A list of cells with one record's replaced, kept rising and without a cell equal to the default. -/
def putCell (base : Nat × Nat) (r : StoreRecord) (c : Cell) : List (StoreRecord × Cell) → List (StoreRecord × Cell)
  | [] => if c = defaultCell base r then [] else [(r, c)]
  | x :: xs =>
    if x.1.addr < r.addr then x :: putCell base r c xs
    else if x.1 = r then (if c = defaultCell base r then xs else (r, c) :: xs)
    else if c = defaultCell base r then x :: xs
    else (r, c) :: x :: xs

/-- The cells are in canonical form: addresses strictly rising, and none equal to the default. -/
def cellsWf (base : Nat × Nat) : List (StoreRecord × Cell) → Bool
  | [] => true
  | [x] => x.2 != defaultCell base x.1
  | x :: y :: rest => decide (x.1.addr < y.1.addr) && x.2 != defaultCell base x.1 && cellsWf base (y :: rest)

/-- The cell of a record. -/
def Store.cell (st : Store) (r : StoreRecord) : Cell := cellIn st.base st.cells r

/-- The store with one record's cell replaced. -/
def Store.setCell (st : Store) (r : StoreRecord) (c : Cell) : Store := { st with cells := putCell st.base r c st.cells }

/-- A content is written into a record; an absent custody record erases both copies (R93). -/
def Store.writeNow (st : Store) (r : StoreRecord) (x : Content) : Store :=
  if x = .custody none then st.setCell r (st.cell r).erase else st.setCell r ((st.cell r).write x)

/-! ## The queue of writes (R179) -/

/-- The next waiting write is begun when none is in flight. -/
def Store.begin (st : Store) : Store :=
  match st.inflight, st.queue with
  | none, j :: js => { st with inflight := some j, queue := js }
  | _, _ => st

/-- The last waiting write of a record takes a new content. -/
def foldWrite (r : StoreRecord) (x : Content) : List Job → List Job
  | [] => []
  | j :: js =>
    if j.record = r ∧ js.all (fun k => k.record != r) then { j with content := x } :: js
    else j :: foldWrite r x js

/-- A write of its own joins the waiting writes at the tail, or for a fire flag record ahead of every write that waits
(R179). -/
def Store.append (st : Store) (r : StoreRecord) (x : Content) : Store :=
  let job : Job := ⟨st.nextTicket, r, x⟩
  let queue := if r.isFireFlags then job :: st.queue else st.queue ++ [job]
  ({ st with queue := queue, nextTicket := st.nextTicket + 1 }).begin

/-- A block hands a record's content to the store: folded into the record's next write while a write of
it is in flight and another waits, or while a write of the same fire flag record waits; else as a write of its own
(R179; log 11, DEDUCED). -/
def Store.handOver (st : Store) (r : StoreRecord) (x : Content) : Store :=
  if ((st.inflight.any fun j => j.record == r) || r.isFireFlags) && st.queue.any (fun j => j.record == r) then
    { st with queue := foldWrite r x st.queue }
  else st.append r x

/-- The tickets of the writes of a record that have not ended. -/
def Store.pendingOf (st : Store) (r : StoreRecord) : List Nat :=
  ((st.inflight.toList ++ st.queue).filter fun j => j.record == r).map (·.ticket)

/-- A write of a custody record or of a key entry is in flight or waits (R179). -/
def Store.custodyWriting (st : Store) : Bool :=
  (st.inflight.toList ++ st.queue).any fun j => j.record.isCustodyTable

/-- The tickets an output waits on that reports a change of these records (R89). -/
def State.awaits (rs : List StoreRecord) (s : State) : List Nat := rs.flatMap s.store.pendingOf

/-! ## What the blocks hand to the store -/

/-- The configuration record as the blocks hold it (R179). -/
def State.configRecord (s : State) : ConfigRecord :=
  { descriptors := s.vault.descriptors
    climate := s.climate.settings
    staging := s.staging.settings
    fire := s.fire.areas.map (·.settings)
    detectors := tabulate fun d => ⟨s.fire.detectors[d].assignment, s.fire.detectors[d].polarity⟩ }

/-- The persisted part of a slot (R111). -/
def Slot.stored : Slot → StoredSlot
  | .free => .free
  | .reserved l o _ => .reserved l o
  | .occupied l d o _ _ => .occupied l d o

/-- The persisted part of a hatch list entry (R149). -/
def HatchEntry.stored (e : HatchEntry) : StoredEntry := ⟨e.label, e.direction, e.number, e.fireHeld⟩

/-- The record at a place of a table listed by place. -/
def recordAt (p : Nat) : List (Nat × CustodyRecord) → Option CustodyRecord
  | [] => none
  | x :: xs => if x.1 = p then some x.2 else recordAt p xs

/-- A store record's content as its block holds it. The format mark stands while a format is in flight;
an area's DISCHARGED flag is set while its state is DISCHARGED (R60, R179, R184). -/
def State.liveContent (s : State) : StoreRecord → Content
  | .config => .config s.configRecord
  | .custody p => .custody (recordAt p s.custody)
  | .key p => .key ((recordAt p s.custody).map (·.label))
  | .consignment i => .consignment s.consign.places[i]
  | .counter => .counter s.consign.counter
  | .slot n => .slot s.staging.slots[n].stored
  | .hatchList => .hatchList (s.hatch.entries.map (·.stored))
  | .accumulator a => .accumulator (s.accumulators.get a)
  | .fireFlags a => .fireFlags ((s.fire.areas.get a).state == .discharged) (s.fire.areas.get a).agentSpent
  | .snapshot => .snapshot (some s.vault.clock)
  | .status => .status s.store.recorded s.store.flags s.store.format.inFlight

/-- A write of a record is folded into the writes a format in flight has still to make: an accumulator's,
until the format has written it (R184; log 18, DESIGN CHOICE). -/
def Store.folds (st : Store) (r : StoreRecord) : Bool :=
  match st.format with
  | .writing k => r.isAccumulator && decide (k ≤ r.addr)
  | .marking => false
  | .none => false

/-- A block hands a record to the store as it now stands. -/
def State.persist (r : StoreRecord) (s : State) : State :=
  if s.store.folds r then s else { s with store := s.store.handOver r (s.liveContent r) }

/-- A block hands a record to the store as it now stands, as a write that follows every write that waits: a creation
and a removal depend on the order of their writes, which folding would break (R179; log 11, DEDUCED). -/
def State.persistLast (r : StoreRecord) (s : State) : State :=
  { s with store := s.store.append r (s.liveContent r) }

/-- What a request does behind its response waits, as the response does, until the last write of its record has ended;
with no write of it to wait for, it is done now (R5, R59, R80, R184; log 55, DEDUCED). -/
def State.follow (r : StoreRecord) (f : Followup) (now : State → State) (s : State) : State :=
  match (s.store.pendingOf r).getLast? with
  | some t => { s with store := { s.store with followups := s.store.followups ++ [(t, f)] } }
  | none => now s

/-! ## The end of a write (R179) -/

/-- The outputs that waited on one ticket and on no other are queued, in the order in which they came
to wait; the others wait on. -/
def State.releaseOutputs (ticket : Nat) (s : State) : State :=
  let left := s.store.waiting.map fun w => { w with needs := w.needs.filter (· != ticket) }
  let ready := (left.filter fun w => w.needs.isEmpty).flatMap (·.outs)
  let s := { s with store := { s.store with waiting := left.filter fun w => !w.needs.isEmpty } }
  ready.foldl State.deliver s

/-- The release pulse of an area starts: its output goes on at the present uptime, which is the start of its 2 s (R49,
R50; R14's table starts them at the entry to DISCHARGED: log 43, DEDUCED). -/
def State.startPulse (s : State) (a : Area) : State :=
  { s with fire := { s.fire with areas := s.fire.areas.set a { s.fire.areas.get a with pulse := some s.vault.uptime } } }

/-- The release pulses that waited on the ended write start (R49). -/
def State.startPulses (ticket : Nat) (s : State) : State :=
  let due := (s.store.pulses.filter fun p => p.1 == ticket).map (·.2)
  due.foldl State.startPulse
    { s with store := { s.store with pulses := s.store.pulses.filter fun p => p.1 != ticket } }

/-- The cause of an answered RESTART is written when its write has ended (R180). -/
def RestartPhase.ended (ticket : Nat) : RestartPhase → RestartPhase
  | .writing t => if t = ticket then .due else .writing t
  | .none => .none
  | .due => .due

/-- The write in flight ends: its copy holds the content, the next write begins, and what waited on it
goes on (R49, R179, R180). -/
def State.endWrite (j : Job) (s : State) : State :=
  let st := s.store.writeNow j.record j.content
  let st := ({ st with inflight := none, restart := st.restart.ended j.ticket }).begin
  (({ s with store := st }).startPulses j.ticket).releaseOutputs j.ticket

end Sys2Proof.Machine
end

