-- ==== Sys2Proof/Machine/Moisture.lean ====
section
/-! DEFINITION. Chapter 4: the dew point and the condensation margin, the acclimatisation step, the
readiness tests, the dose accumulators, the effective dose and the settle. -/

namespace Sys2Proof.Machine

/-! ## Dew point and margin -/

/-- The dew point of a held reading, in tenths of a degree (R63). -/
def Held.dewPoint (h : Held) : Int := h.temperature - ((1000 - min 1000 (max 200 h.humidity)) / 5 : Nat)

/-- The held reading of a channel (R20). -/
def ClimateUnit.held (c : ClimateUnit) (ch : Channel) : Option Held := (c.channels.get ch).held

/-- The dew point of the Outside; none when channel 5 has no held values (R63, R64). -/
def ClimateUnit.outsideDewPoint (c : ClimateUnit) : Option Int := (c.held .outside).map (·.dewPoint)

/-- An estimate passes the condensation margin; an absent estimate or dew point fails it (R64). -/
def passesMargin (dewPoint : Option Int) (marginOut : Nat) (estimate : Option Int) : Bool :=
  match dewPoint, estimate with
  | some td, some e => decide ((marginOut : Int) ≤ e - td)
  | _, _ => false

/-! ## The acclimatisation step -/

/-- The change an acclimatisation step makes for a gap `d` and a coupling: the truncated fraction, or the
forced unit step (R66, steps 2 and 3). -/
def stepChange (d : Int) (coupling : Nat) : Int :=
  let s := (d * coupling).tdiv 256
  if s = 0 then (if 0 < d then 1 else if d < 0 then -1 else 0) else s

/-- The acclimatisation step: an estimate moves toward the air temperature (R66). -/
def acclimatise (estimate air : Int) (coupling : Nat) : Int := estimate + stepChange (air - estimate) coupling

/-- An absent estimate takes its base, the held temperature of the base channel (R68). -/
def withBase (c : ClimateUnit) (base : Channel) (estimate : Option Int) : Option Int :=
  match estimate with
  | some e => some e
  | none => (c.held base).map (·.temperature)

/-- A staging slot at a Staging sample event: stepped, with its dwell counted, when the Staging channel
has held values and the estimate is present or can take its base (R67, R68, R69). -/
def Slot.step (c : ClimateUnit) : Slot → Slot
  | .free => .free
  | .reserved l o t => .reserved l o t
  | .occupied l d o dwell est =>
    match c.held (.area .staging), withBase c o est with
    | some air, some e =>
      .occupied l d o (min 65535 (dwell + 1)) (some (acclimatise e air.temperature c.settings.staging.coupling))
    | _, _ => .occupied l d o dwell est

/-- A staging slot at a sample event of another channel: an absent estimate with that base channel takes
its base, with no step and no dwell (R68). -/
def Slot.takeBase (c : ClimateUnit) (ch : Channel) : Slot → Slot
  | .free => .free
  | .reserved l o t => .reserved l o t
  | .occupied l d o dwell est => .occupied l d o dwell (if o = ch then withBase c o est else est)

/-- The base channel of a hatch list entry (R68). -/
def HatchEntry.base (e : HatchEntry) : Channel :=
  match e.direction with
  | .outbound => .area .hatch
  | .inbound => .outside

/-- A hatch list entry at a Hatch sample event (R67, R68). -/
def HatchEntry.step (c : ClimateUnit) (e : HatchEntry) : HatchEntry :=
  match c.held (.area .hatch), withBase c e.base e.estimate with
  | some air, some t => { e with estimate := some (acclimatise t air.temperature c.settings.hatch.coupling) }
  | _, _ => e

/-- A hatch list entry at an Outside sample event: an IN entry's absent estimate takes its base (R68, R154). -/
def HatchEntry.takeBase (c : ClimateUnit) (e : HatchEntry) : HatchEntry :=
  match e.direction with
  | .outbound => e
  | .inbound => { e with estimate := withBase c .outside e.estimate }

/-! ## Readiness -/

/-- The outbound readiness test (R70). -/
def readyOutTest (c : ClimateUnit) (g : StagingSettings) (dwell : Nat) (estimate : Option Int) : Bool :=
  passesMargin c.outsideDewPoint g.marginOut estimate && decide (g.minDwellOut ≤ dwell)

/-- The inbound readiness test (R71). -/
def readyInTest (c : ClimateUnit) (g : StagingSettings) (dwell : Nat) (estimate : Option Int) : Bool :=
  decide (g.minDwellIn ≤ dwell) &&
  (match estimate, c.held (.area g.inboundRef) with
   | some e, some h => decide ((e - h.temperature).natAbs ≤ 10)
   | _, _ => false) &&
  (match c.held (.area .staging) with
   | some h => decide (h.humidity ≤ g.rhCeiling)
   | none => false)

/-! ## Dose -/

/-- A sum that stops at the top of a 32-bit count. -/
def satAdd (a b : Nat) : Nat := min (a + b) Config.max32

/-- An accumulator after a sample event with held values: it gains the humidity above the dose threshold (R73). -/
def accumulate (acc humidity threshold : Nat) : Nat := satAdd acc (humidity - threshold)

/-- The effective dose of a record (R74): the stored dose and what the accumulator of its area has
gained since the mark, nothing when the accumulator is below the mark. -/
def effectiveDose (acc : PerArea Nat) (r : CustodyRecord) : Option Nat :=
  match r.storedDose with
  | none => none
  | some d =>
    match r.mark, r.area with
    | some m, some a => some (satAdd d (acc.get a - m))
    | _, _ => some d

/-- The effective dose of a record in a state (R74). -/
def State.doseOf (s : State) (r : CustodyRecord) : Option Nat := effectiveDose s.accumulators r

/-- An evaluation finds the effective dose at or above the dose limit (R78). -/
def State.overDose (s : State) (r : CustodyRecord) : Bool :=
  match s.doseOf r with
  | some d => decide (s.staging.settings.doseLimit ≤ d)
  | none => false

/-- INSPECT as an evaluation leaves it (R78). -/
def State.evaluated (s : State) (r : CustodyRecord) : CustodyRecord :=
  if s.overDose r then { r with inspect := true } else r

/-- A settle (R75): the stored dose becomes the effective dose, the mark the accumulator of the area
after the move, or absent; and INSPECT is evaluated. The area itself is written by the move. -/
def State.settled (s : State) (after : Option Area) (r : CustodyRecord) : CustodyRecord :=
  { s.evaluated r with storedDose := s.doseOf r, mark := after.map s.accumulators.get }

end Sys2Proof.Machine
end

