-- ==== Sys2Proof/Machine/Custody.lean ====
section
/-! DEFINITION. Chapter 5: the custody table, and the requests ENROL, RETIRE, RELOCATE, CUSTODY_QUERY and
DOSE_RESET. -/

namespace Sys2Proof.Machine

/-! ## The table (R82) -/

/-- The record of a label, with its place. -/
def findLabel (l : Label) (t : List (Nat × CustodyRecord)) : Option (Nat × CustodyRecord) :=
  t.find? fun x => x.2.label == l

/-- The record of a label, with its place (R82). -/
def State.record? (s : State) (l : Label) : Option (Nat × CustodyRecord) := findLabel l s.custody

/-- A table with the record of one place replaced or added, in storage order (R82). -/
def placeRecord (p : Nat) (r : CustodyRecord) : List (Nat × CustodyRecord) → List (Nat × CustodyRecord)
  | [] => [(p, r)]
  | x :: xs =>
    if x.1 < p then x :: placeRecord p r xs
    else if x.1 = p then (p, r) :: xs
    else (p, r) :: x :: xs

/-- The table is in canonical form: places strictly rising and below 2048 (R82). -/
def custodyWf : List (Nat × CustodyRecord) → Bool
  | [] => true
  | [x] => decide (x.1 < Config.custodyPlaces)
  | x :: y :: rest => decide (x.1 < y.1) && custodyWf (y :: rest)

/-- The lowest place at or above `n` that a rising table leaves free. -/
def lowestFrom (n : Nat) : List (Nat × CustodyRecord) → Nat
  | [] => n
  | x :: xs => if x.1 = n then lowestFrom (n + 1) xs else n

/-- The lowest-numbered free place; none when the table holds 2048 records (R82). -/
def State.freePlace (s : State) : Option Nat :=
  let p := lowestFrom 0 s.custody
  if s.custody.length < Config.custodyPlaces ∧ p < Config.custodyPlaces then some p else none

/-- A record is set at its place and handed, whole, to the store (R89, step 4). -/
def State.putRecord (p : Nat) (r : CustodyRecord) (s : State) : State :=
  ({ s with custody := placeRecord p r s.custody }).persist (.custody p)

/-- A record is created: the custody record is written first and the key entry last (R82, R179). -/
def State.createRecord (p : Nat) (r : CustodyRecord) (s : State) : State :=
  (({ s with custody := placeRecord p r s.custody }).persistLast (.custody p)).persistLast (.key p)

/-- A record is removed: the key entry is written free first, then both copies are erased (R93, R179). -/
def State.removeRecord (p : Nat) (s : State) : State :=
  (({ s with custody := s.custody.filter fun x => x.1 != p }).persistLast (.key p)).persistLast (.custody p)

/-- The area of a location under the present descriptors (R4). -/
def State.resolve (s : State) (l : Location) : Area := resolveLocation s.vault.descriptors l

/-- A record with nothing but its label, as a base for the creations (R91, R92). -/
def CustodyRecord.blank (l : Label) (st : CustodyState) : CustodyRecord :=
  { label := l, state := st, location := none, area := none, slot := none, consignment := none, courier := none,
    storedDose := none, mark := none, inspect := false, new := false, damaged := false, fireHeld := false,
    lastMove := none }

/-- A record returned to its shelf place from the queue or from a pick: location, area, dose and mark are
kept, the slot becomes absent, and the last move time is written (R107, R109, R112). -/
def State.backToVault (s : State) (r : CustodyRecord) : CustodyRecord :=
  { r with state := .inVault, slot := none, lastMove := some s.vault.clock }

/-- A RELOCATE's or SHELVED's record on its new shelf place (R94, R115), dose settled from its old area. -/
def State.shelvedAt (s : State) (l : Location) (r : CustodyRecord) : CustodyRecord :=
  { s.settled (some (s.resolve l)) r with
    state := .inVault, location := some l, area := some (s.resolve l), slot := none, consignment := none,
    lastMove := some s.vault.clock }

/-- A record of ENROL (R91), and of RELOCATE of an UNKNOWN record but for INSPECT (R95). -/
def State.enrolledAt (s : State) (label : Label) (l : Location) : CustodyRecord :=
  { CustodyRecord.blank label .inVault with
    location := some l, area := some (s.resolve l), storedDose := some 0,
    mark := some (s.accumulators.get (s.resolve l)), lastMove := some s.vault.clock }

/-- The CUSTODY_QUERY response for a record (R96, R97). -/
def State.custodyReport (s : State) (r : CustodyRecord) : CustodyReport :=
  { record := r, effectiveDose := s.doseOf r,
    doseLimit := if r.state = .unknown then none else some s.staging.settings.doseLimit }

/-! ## The requests (5.6) -/

/-- ENROL's checks and effect (R91). -/
def State.enrol (h : ReqHead) (label : Label) (l : Location) (s : State) : State :=
  if goodLabel label = false then s.refuse h .enrol .invalid
  else if (s.record? label).isSome then s.refuse h .enrol .duplicate
  else
    match s.freePlace with
    | none => s.refuse h .enrol .full
    | some p =>
      let t := s.createRecord p (s.enrolledAt label l)
      t.answer h .enrol (t.awaits [.custody p, .key p]) .ok (.enrolled (s.resolve l))

/-- ENROL (R91). -/
def execEnrol (h : ReqHead) (label : Label) (l : Location) (s : State) : Host.Outcome State Fault Refusal :=
  .next (s.request h .enrol true (State.enrol h label l))

/-- RETIRE's checks and effect (R93). -/
def State.retire (h : ReqHead) (label : Label) (s : State) : State :=
  if goodLabel label = false then s.refuse h .retire .invalid
  else
    match s.record? label with
    | none => s.refuse h .retire .notFound
    | some (p, r) =>
      if r.state = .inVault ∨ r.state = .withCourier then
        let t := s.removeRecord p
        t.answer h .retire (t.awaits [.key p, .custody p]) .ok (.retired r (s.doseOf r))
      else s.refuse h .retire .state

/-- RETIRE (R93). -/
def execRetire (h : ReqHead) (label : Label) (s : State) : Host.Outcome State Fault Refusal :=
  .next (s.request h .retire true (State.retire h label))

/-- RELOCATE's checks and effect, on an IN_VAULT record (R94) and on an UNKNOWN one (R95). -/
def State.relocate (h : ReqHead) (label : Label) (l : Location) (s : State) : State :=
  if goodLabel label = false then s.refuse h .relocate .invalid
  else
    match s.record? label with
    | none => s.refuse h .relocate .notFound
    | some (p, r) =>
      if r.state = .inVault then
        let r' := s.shelvedAt l r
        let t := s.putRecord p r'
        t.answer h .relocate (t.awaits [.custody p]) .ok (.relocated (s.resolve l) (s.doseOf r'))
      else if r.state = .unknown then
        let r' := { s.enrolledAt label l with inspect := true }
        let t := s.putRecord p r'
        t.answer h .relocate (t.awaits [.custody p]) .ok (.relocated (s.resolve l) (s.doseOf r'))
      else s.refuse h .relocate .state

/-- RELOCATE (R94, R95). -/
def execRelocate (h : ReqHead) (label : Label) (l : Location) (s : State) : Host.Outcome State Fault Refusal :=
  .next (s.request h .relocate true (State.relocate h label l))

/-- CUSTODY_QUERY's checks and effect: the evaluation of R78, then the report (R96, R97). -/
def State.custodyQuery (h : ReqHead) (label : Label) (s : State) : State :=
  if goodLabel label = false then s.refuse h .custodyQuery .invalid
  else
    match s.record? label with
    | none => s.refuse h .custodyQuery .notFound
    | some (p, r) =>
      if s.overDose r then
        let r' := { r with inspect := true }
        let t := s.putRecord p r'
        t.answer h .custodyQuery (t.awaits [.custody p]) .ok (.custody (s.custodyReport r'))
      else s.answer h .custodyQuery [] .ok (.custody (s.custodyReport r))

/-- CUSTODY_QUERY (R96, R97). -/
def execCustodyQuery (h : ReqHead) (label : Label) (s : State) : Host.Outcome State Fault Refusal :=
  .next (s.request h .custodyQuery true (State.custodyQuery h label))

/-- DOSE_RESET's checks and effect (R98). -/
def State.doseReset (h : ReqHead) (label : Label) (s : State) : State :=
  if goodLabel label = false then s.refuse h .doseReset .invalid
  else
    match s.record? label with
    | none => s.refuse h .doseReset .notFound
    | some (p, r) =>
      if r.state = .withCourier ∨ r.state = .unknown then s.refuse h .doseReset .state
      else
        let t := s.putRecord p { r with storedDose := some 0, mark := r.area.map s.accumulators.get, inspect := false }
        t.answer h .doseReset (t.awaits [.custody p]) .ok (.doseBefore (s.doseOf r))

/-- DOSE_RESET (R98). -/
def execDoseReset (h : ReqHead) (label : Label) (s : State) : Host.Outcome State Fault Refusal :=
  .next (s.request h .doseReset true (State.doseReset h label))

end Sys2Proof.Machine
end

