-- ==== Sys2Proof/Machine/ConsignTable.lean ====
section
/-! DEFINITION. Chapter 7, the table: numbering (R123), the place an opening takes (R124), the token (R127)
and the consignment test (R129). The requests are in Consign.lean. -/

namespace Sys2Proof.Machine

/-- The record of a consignment number, with its place (R122). Of two places whose records carry one number, which only a
restart on decayed copies can leave, it is that of the lowest place (log 58, DESIGN CHOICE). -/
def State.consignment? (s : State) (n : Nat) : Option (Fin 16 × Consignment) :=
  placeNumbers.findSome? fun i =>
    match s.consign.places[i] with
    | some c => if c.number = n then some (i, c) else none
    | none => none

/-- A consignment record is set at its place and handed, whole, to the store (R122). -/
def State.putConsign (i : Fin 16) (c : Consignment) (s : State) : State :=
  ({ s with consign := { s.consign with places := s.consign.places.set i (some c) } }).persist (.consignment i)

/-! ## Numbering and opening -/

/-- A number is in use: a consignment record or a custody record carries it (R123). -/
def State.numberInUse (s : State) (n : Nat) : Bool :=
  s.consign.places.toList.any (fun c => (c.map (·.number)) == some n) ||
  s.custody.any fun x => x.2.consignment == some n

/-- The number after a number, where 65535 plus one is taken as 1 (R123). -/
def nextNumber (n : Nat) : Nat := if 65535 ≤ n then 1 else n + 1

/-- The first number not in use from a candidate on (R123). -/
def State.searchNumber (s : State) : Nat → Nat → Nat
  | 0, n => n
  | k + 1, n => if s.numberInUse n then s.searchNumber k (nextNumber n) else n

/-- The number issued. At most 16 consignment records and the custody records hold numbers, so the
search finds a free one within that many candidates and one more (R123). -/
def State.issueNumber (s : State) : Nat := s.searchNumber (17 + s.custody.length) (nextNumber s.consign.counter)

/-- A CLOSED or CANCELLED record, whose place may be reused (R124). -/
def Consignment.reusable (c : Consignment) : Bool := c.state == .closed || c.state == .cancelled

/-- Of two places that may be reused, the one whose record has the older closed time, the lower-numbered
if they have the same (R124). The first argument is the lower-numbered. -/
def olderClosed (a b : Fin 16 × Consignment) : Fin 16 × Consignment :=
  if (b.2.closed.getD 0).toNat < (a.2.closed.getD 0).toNat then b else a

/-- The place a CONSIGN_OPEN takes: the lowest free one, else the reusable one with the oldest closed time (R124). -/
def State.openPlace (s : State) : Option (Fin 16) :=
  match placeNumbers.find? (fun i => (s.consign.places[i]).isNone) with
  | some i => some i
  | none =>
    match placeNumbers.filterMap (fun i => (s.consign.places[i]).bind fun c => if c.reusable then some (i, c) else none) with
    | [] => none
    | x :: xs => some (xs.foldl olderClosed x).1

/-! ## The token (R127) -/

/-- The token input: number, courier id, inbound expected, outbound count and the outbound labels (R127). -/
def Consignment.tokenInput (c : Consignment) : List Byte :=
  twoBytes c.number ++ twoBytes c.courier ++
  [BitVec.ofNat 8 c.expected, BitVec.ofNat 8 c.outbound.length] ++ c.outbound.flatten

/-- The token of a consignment's content (R127). -/
def Consignment.tokenOf (c : Consignment) : Word16 := crc16 c.tokenInput

/-! ## The consignment test (R129) -/

/-- The kinds of outbound items (R129). -/
inductive ItemKind where
  | loaded | ready | notReady
  deriving DecidableEq, Repr

/-- The custody state of a listed label when a record with that label carries the number (R129, R134). -/
def State.boundState (s : State) (number : Nat) (l : Label) : Option CustodyState :=
  match s.record? l with
  | some (_, r) => if r.consignment = some number then some r.state else none
  | none => none

/-- The kind of an outbound item (R129). -/
def State.itemKind (s : State) (number : Nat) (l : Label) : ItemKind :=
  match s.boundState number l with
  | some .inHatchOut => .loaded
  | some .readyOut => .ready
  | _ => .notReady

/-- The state the consignment test gives (R129). -/
def State.consignTest (s : State) (c : Consignment) : ConsignState :=
  let kinds := c.outbound.map (s.itemKind c.number)
  if kinds.any (· == .notReady) then .sealed
  else if c.outbound.isEmpty = false ∧ kinds.all (· == .loaded) = true then .loaded
  else .ready

/-- A consignment handed over for the test: one in SEALED, READY or LOADED takes the result, and one in
LOCKED_OUT takes it into its state before lockout (R129, R130). With the tickets that what follows waits on. -/
def State.testConsign (needs : List Nat) (i : Fin 16) (s : State) : List Nat × State :=
  match s.consign.places[i] with
  | none => (needs, s)
  | some c =>
    let r := s.consignTest c
    if c.state = .sealed ∨ c.state = .ready ∨ c.state = .loaded then
      if r = c.state then (needs, s)
      else
        let t := s.putConsign i { c with state := r }
        let needs' := needs ++ t.awaits [.consignment i]
        (needs', t.notify needs' (.consignState c.number r c.result))
    else if c.state = .lockedOut then
      if c.beforeLockout = some r then (needs, s)
      else (needs, s.putConsign i { c with beforeLockout := some r })
    else (needs, s)

/-- The consignment of a number handed over for the test. -/
def State.testNumber (needs : List Nat) (n : Nat) (s : State) : List Nat × State :=
  match s.consignment? n with
  | some (i, _) => s.testConsign needs i
  | none => (needs, s)

/-- Several consignments handed over, in the order of their places (R133). -/
def State.testPlaces (needs : List Nat) (places : List (Fin 16)) (s : State) : List Nat × State :=
  places.foldl (fun x i => x.2.testConsign x.1 i) (needs, s)

end Sys2Proof.Machine
end

