-- ==== Sys2Proof/Machine/Queue.lean ====
section
/-! DEFINITION. Chapter 6, the shared operations: the check-out queue and its flow marks (R103, R106), the
staging slots (R111), dispatch (R108 to R110) and the pick lapse (R112). The requests are in Staging.lean. -/

namespace Sys2Proof.Machine

/-! ## The queue and its flow marks -/

/-- The HOLD test after an append (R106). -/
def State.holdTest (needs : List Nat) (s : State) : State :=
  if s.staging.queue.length = Config.holdMark ∧ s.staging.holdSent = false then
    ({ s with staging := { s.staging with holdSent := true } }).notify needs .hold
  else s

/-- The RESUME test after a removal (R106). -/
def State.resumeTest (needs : List Nat) (s : State) : State :=
  if s.staging.queue.length ≤ Config.resumeMark ∧ s.staging.holdSent = true then
    ({ s with staging := { s.staging with holdSent := false } }).notify needs .resume
  else s

/-- A label's entry leaves the queue; those behind close up (R103). -/
def State.unqueue (l : Label) (s : State) : State :=
  { s with staging := { s.staging with queue := s.staging.queue.eraseP fun e => e.label == l } }

/-! ## The slots -/

/-- The slot is FREE (R111). -/
def Slot.isFree : Slot → Bool
  | .free => true
  | .reserved _ _ _ => false
  | .occupied _ _ _ _ _ => false

/-- The label a slot holds, RESERVED or OCCUPIED (R90, R111). -/
def Slot.label? : Slot → Option Label
  | .free => none
  | .reserved l _ _ => some l
  | .occupied l _ _ _ _ => some l

/-- The estimate a slot holds (R65). -/
def Slot.estimate? : Slot → Option Int
  | .free => none
  | .reserved _ _ _ => none
  | .occupied _ _ _ _ e => e

/-- A slot changes in its persisted fields and is handed to the store (R111). -/
def State.putSlot (n : Fin 32) (x : Slot) (s : State) : State :=
  ({ s with staging := { s.staging with slots := s.staging.slots.set n x } }).persist (.slot n)

/-- The number of FREE slots (R108). -/
def State.freeSlots (s : State) : Nat := (s.staging.slots.toList.filter (·.isFree)).length

/-- The lowest-numbered FREE slot (R110, R116). -/
def State.lowestSlot (s : State) : Option (Fin 32) := slotNumbers.find? fun n => (s.staging.slots[n]).isFree

/-! ## Dispatch -/

/-- The three conditions tested before each round of a dispatch attempt (R108). -/
def State.mayDispatch (s : State) : Bool :=
  s.vault.mode == .staffed && !s.fire.anyLate && decide (s.staging.settings.inboundReserve < s.freeSlots)

/-- The record's area, if it is in an area whose fire state is QUIET (R109). -/
def State.quietArea (s : State) (l : Label) : Option Area :=
  match s.record? l with
  | some (_, r) => r.area.bind fun a => if (s.fire.areas.get a).state = .quiet then some a else none
  | none => none

/-- An entry that fails the re-check is removed and its record returned to its shelf with INSPECT set;
CHECKOUT_DROPPED waits on the record's write (R109). -/
def State.dropEntry (needs : List Nat) (p : Nat) (r : CustodyRecord) (why : DropReason) (s : State) : State :=
  let t := (s.unqueue r.label).putRecord p { s.backToVault r with inspect := true }
  let needs := needs ++ t.awaits [.custody p]
  (t.notify needs (.checkoutDropped r.label why)).resumeTest needs

/-- An entry that passes the re-check: the slot is reserved and written, the entry leaves, the record
becomes PICKING, and PICK waits on the record's write (R110). -/
def State.pickEntry (needs : List Nat) (p : Nat) (r : CustodyRecord) (a : Area) (n : Fin 32) (s : State) : State :=
  let t := ((s.putSlot n (.reserved r.label a s.vault.uptime)).unqueue r.label).putRecord p
    { r with state := .picking, slot := some n, lastMove := some s.vault.clock }
  let needs := needs ++ t.awaits [.custody p]
  (t.notify needs (.pick r.label r.location n)).resumeTest needs

/-- One round of a dispatch attempt; none when it finds no entry it may take. An entry that fails both tests of the
re-check is dropped with reason INSPECT (R109; log 56, DESIGN CHOICE). -/
def State.dispatchRound (needs : List Nat) (s : State) : Option State :=
  match s.staging.queue.find? (fun e => (s.quietArea e.label).isSome) with
  | none => none
  | some e =>
    match s.record? e.label, s.quietArea e.label, s.lowestSlot with
    | some (p, r), some a, some n =>
      if r.inspect then some (s.dropEntry needs p r .inspect)
      else if s.overDose r then some (s.dropEntry needs p r .dose)
      else some (s.pickEntry needs p r a n)
    | _, _, _ => none

/-- The rounds of a dispatch attempt. -/
def State.dispatchRounds (needs : List Nat) : Nat → State → State
  | 0, s => s
  | k + 1, s =>
    if s.mayDispatch then
      match s.dispatchRound needs with
      | some t => State.dispatchRounds needs k t
      | none => s
    else s

/-- A dispatch attempt: rounds while the conditions hold, each taking one entry out (R108). -/
def State.dispatch (needs : List Nat) (s : State) : State := s.dispatchRounds needs s.staging.queue.length

/-! ## The pick lapse -/

/-- A reservation made at an uptime has reached its timeout, taken as 60 seconds each minute (R112). -/
def State.pickOverdue (s : State) (reservedAt : Nat) : Bool :=
  decide (reservedAt + s.staging.settings.pickTimeout * 60 ≤ s.vault.uptime)

/-- The lapse of a slot's reservation, if it is due: the slot is freed, the record returned to its shelf,
PICK_LAPSED sent and a dispatch attempt made (R112). With the tickets that what follows waits on. -/
def State.lapsePick (needs : List Nat) (n : Fin 32) (s : State) : List Nat × State :=
  match s.staging.slots[n] with
  | .free => (needs, s)
  | .occupied _ _ _ _ _ => (needs, s)
  | .reserved l _ at_ =>
    if s.pickOverdue at_ then
      let t := s.putSlot n .free
      let (t, rs) :=
        match t.record? l with
        | some (p, r) => (t.putRecord p (t.backToVault r), [StoreRecord.custody p])
        | none => (t, [])
      let needs := needs ++ t.awaits rs
      (needs, (t.notify needs (.pickLapsed l)).dispatch needs)
    else (needs, s)

end Sys2Proof.Machine
end

