-- ==== Sys2Proof/Machine/Arbiter.lean ====
section
/-! DEFINITION. Chapters 8 and 9, the shared operations: the condensation gate (R161), grantability and
arbitration (R142, R143), the end of a possession (R144), the end of an exchange (R162, R166) and the
revocation (R147). The requests and door events are in Hatch.lean and Exchange.lean. -/

namespace Sys2Proof.Machine

/-- The door of a side. -/
def HatchUnit.door (h : HatchUnit) : Side → Door
  | .inner => h.inner
  | .outer => h.outer

/-- The hatch unit with the door of a side replaced. -/
def HatchUnit.setDoor (h : HatchUnit) (side : Side) (d : Door) : HatchUnit :=
  match side with
  | .inner => { h with inner := d }
  | .outer => { h with outer := d }

/-- A change of the arbiter record. -/
def State.onArbiter (f : Arbiter → Arbiter) (s : State) : State :=
  { s with hatch := { s.hatch with arbiter := f s.hatch.arbiter } }

/-- A change of one door. -/
def State.onDoor (side : Side) (f : Door → Door) (s : State) : State :=
  { s with hatch := s.hatch.setDoor side (f (s.hatch.door side)) }

/-- The side holds possession (R140). -/
def Arbiter.holds (a : Arbiter) (side : Side) : Bool := a.possession && a.grant == some side

/-- The side has a pending request (R140). -/
def Arbiter.pends (a : Arbiter) : Side → Bool
  | .inner => a.pendingInner.isSome
  | .outer => a.pendingOuter

/-- The hatch list is changed in its persisted fields and handed to the store (R149). -/
def State.putEntries (es : List HatchEntry) (s : State) : State :=
  ({ s with hatch := { s.hatch with entries := es } }).persist .hatchList

/-! ## The condensation gate and grantability -/

/-- The condensation gate of the open exchange (R161). -/
def State.gate (s : State) : Bool :=
  match s.hatch.exchange with
  | none => false
  | some x =>
    s.climate.outsideDewPoint.isSome &&
    (s.hatch.entries.filter fun e => e.direction == .outbound && e.number == x.number).all fun e =>
      passesMargin s.climate.outsideDewPoint s.staging.settings.marginOut e.estimate

/-- A pending inner request is grantable (R142, R148). -/
def State.innerGrantable (s : State) (p : Purpose) : Bool :=
  !s.fire.blocked && s.vault.mode == .staffed && s.hatch.exchange.isNone &&
  match p with
  | .unload => !s.hatch.entries.isEmpty
  | .load n =>
    (match s.consignment? n with
     | some (_, c) => c.state == .ready
     | none => false) &&
    s.hatch.entries.all fun e => e.number == n

/-- A pending outer request is grantable (R142). -/
def State.outerGrantable (s : State) : Bool := !s.fire.blocked && s.gate

/-- The winner among the grantable pending requests; of two, the side other than last-granted (R143). -/
def State.winner (s : State) : Option Side :=
  let a := s.hatch.arbiter
  let inner := match a.pendingInner with
    | some p => s.innerGrantable p
    | none => false
  let outer := a.pendingOuter && s.outerGrantable
  match inner, outer with
  | true, false => some .inner
  | false, true => some .outer
  | true, true => some a.lastGranted.other
  | false, false => none

/-- Possession given to a side: its latch is released, the request consumed and the lapse set (R143, steps 1 to 4). -/
def State.give (w : Side) (s : State) : State :=
  (s.onDoor w fun d => { d with released := true }).onArbiter fun a =>
    { a with
      grant := some w, possession := true
      purpose := match w with
        | .inner => a.pendingInner
        | .outer => none
      pendingInner := match w with
        | .inner => none
        | .outer => a.pendingInner
      pendingOuter := match w with
        | .inner => a.pendingOuter
        | .outer => false
      lastGranted := w, releasePending := false, revoked := false
      lapseAt := some (s.vault.uptime + Config.latchLapseTime) }

/-- An arbitration, with the side it gave possession to (R143). The grant moves to the winner; its latch is
released if both doors are secure, and else the request stays pending. -/
def State.arbitration (s : State) : State × Option Side :=
  if s.hatch.arbiter.possession then (s, none)
  else
    match s.winner with
    | none => (s, none)
    | some w =>
      if s.hatch.inner.secure && s.hatch.outer.secure then (s.give w, some w)
      else (s.onArbiter fun a => { a with grant := some w }, none)

/-- An arbitration with its HATCH_GRANTED notice, which waits on the writes that notices before it wait on (R143, R155). -/
def State.arbitrate (needs : List Nat) (s : State) : State :=
  match s.arbitration with
  | (t, none) => t
  | (t, some w) => t.notify needs (.hatchGranted w)

/-! ## The end of an exchange (R166) -/

/-- FIRE_HELD is given to the record of a label, if there is one (R86). -/
def State.holdRecord (s : State) (l : Label) : State :=
  match s.record? l with
  | some (p, r) => s.putRecord p { r with fireHeld := true }
  | none => s

/-- FIRE_HELD is given to every entry of the hatch list and to the record each holds (R166, step 2). -/
def State.holdEntries (s : State) : State :=
  (s.hatch.entries.map (·.label)).foldl State.holdRecord
    (s.putEntries (s.hatch.entries.map fun e => { e with fireHeld := true }))

/-- The custody records of the hatch list's entries, as the store names them. -/
def State.entryRecords (s : State) : List StoreRecord :=
  s.hatch.entries.filterMap fun e => (s.record? e.label).map fun x => StoreRecord.custody x.1

/-- The result of an exchange (R166, step 1). -/
def exchangeResult (revoked : Bool) (c : Consignment) : ExchangeResult :=
  if revoked then .interrupted
  else if c.takenCount = c.outbound.length ∧ c.received.length = c.expected then .complete
  else .partially

/-- A consignment after its exchange: RETURNING while the hatch list holds entries of it, else CLOSED (R166, step 3). -/
def State.afterExchange (s : State) (c : Consignment) (r : ExchangeResult) : Consignment :=
  if s.hatch.entries.any (fun e => e.number == c.number) then { c with state := .returning, result := some r }
  else { c with state := .closed, result := some r, closed := some s.vault.clock }

/-- The exchange ends (R166, steps 1 to 4). With the tickets that the arbitration of step 5 waits on (log 32,
DEDUCED). -/
def State.endExchange (needs : List Nat) (x : Exchange) (revoked : Bool) (s : State) : List Nat × State :=
  match s.consignment? x.number with
  | none => (needs, { s with hatch := { s.hatch with exchange := none } })
  | some (i, c) =>
    let r := exchangeResult revoked c
    let t := if r = .interrupted then s.holdEntries else s
    let held := if r = .interrupted then StoreRecord.hatchList :: t.entryRecords else []
    let c' := t.afterExchange c r
    let t := t.putConsign i c'
    let t := { t with hatch := { t.hatch with exchange := none } }
    let needs := needs ++ t.awaits (held ++ [.consignment i])
    (needs, t.emit needs [.notice (.exchangeState x.number .ended (some r)),
      .notice (.consignState x.number c'.state (some r))])

/-- The OUTER door has become secure, `ending` when that is at the end of an outer possession: the revoked
flag is handed over and cleared, and a leg that is OPEN is DONE at the end of the possession (R162; log 41, DEDUCED). -/
def State.outerSecured (needs : List Nat) (ending : Bool) (s : State) : List Nat × State :=
  let revoked := s.hatch.arbiter.revoked
  let t := s.onArbiter fun a => { a with revoked := false }
  match t.hatch.exchange with
  | none => (needs, t)
  | some x => if ending && x.leg == .opened then t.endExchange needs x revoked else (needs, t)

/-! ## The end of a possession and the revocation -/

/-- A possession ends with its door closed: the latch is engaged and the grant is parked (R144); the OUTER
door's becoming secure is handed to the exchange (R162). -/
def State.endPossession (needs : List Nat) (side : Side) (s : State) : List Nat × State :=
  let t := (s.onDoor side fun d => { d with released := false }).onArbiter fun a =>
    { a with possession := false, purpose := none, releasePending := false, lapseAt := none }
  match side with
  | .inner => (needs, t)
  | .outer => t.outerSecured needs true

/-- A side's HATCH_REVOKED, if it had a pending request or holds possession (R147). -/
def State.notifyRevoked (a : Arbiter) (side : Side) (s : State) : State :=
  if a.pends side || a.holds side then s.notify [] (.hatchRevoked side) else s

/-- The revocation as the hatch becomes fire-blocked: pending requests are removed, and a possession is
revoked, ending at once when its door is closed (R147). -/
def State.revoke (s : State) : List Nat × State :=
  let a := s.hatch.arbiter
  let t := ((s.onArbiter fun a => { a with pendingInner := none, pendingOuter := false }).notifyRevoked a .inner).notifyRevoked a .outer
  match a.possession, a.grant with
  | true, some side =>
    let t := t.onArbiter fun a => { a with revoked := true, releasePending := true, lapseAt := none }
    if (t.hatch.door side).isOpen then ([], t) else t.endPossession [] side
  | _, _ => ([], t)

/-- The hatch unit takes a change of an area's fire state: it revokes when the hatch has become
fire-blocked, and arbitrates (R143, R147). -/
def State.hatchFireChange (wasBlocked : Bool) (s : State) : State :=
  let (needs, t) := if !wasBlocked && s.fire.blocked then s.revoke else ([], s)
  t.arbitrate needs

end Sys2Proof.Machine
end

