-- ==== Sys2Proof/Machine/Climate.lean ====
section
/-! DEFINITION. Chapter 2: the channel records (R20, R21), the control of the outputs (R23 to R27), the fire
shutdown and venting (R28 to R30), the alarm test (R31), and the requests SET_CLIMATE, CLEAR_CLIMATE_FLAGS
and AREA_QUERY. Sweeps and sample events are in Sample.lean. -/

namespace Sys2Proof.Machine

/-- A change of one area's control record. -/
def State.onControl (a : Area) (f : AreaControl → AreaControl) (s : State) : State :=
  { s with climate := { s.climate with controls := s.climate.controls.set a (f (s.climate.controls.get a)) } }

/-! ## Channel records (R20) -/

/-- A channel record after a read: `none` is an invalid read (R20, R21). -/
def ChannelRecord.after (c : ChannelRecord) : Option Held → ChannelRecord
  | some h => { c with state := .good, held := some h, missCount := 0 }
  | none =>
    match c.state with
    | .good => { c with state := .stale, missCount := 1 }
    | .failed => { c with missCount := min 255 (c.missCount + 1) }
    | .none =>
      if Config.failedCount ≤ c.missCount + 1
      then { c with state := .failed, missCount := min 255 (c.missCount + 1), reported := true }
      else { c with missCount := min 255 (c.missCount + 1) }
    | .stale =>
      if Config.failedCount ≤ c.missCount + 1
      then { c with state := .failed, missCount := min 255 (c.missCount + 1), reported := true }
      else { c with missCount := min 255 (c.missCount + 1) }

/-- A sample event's work on its channel record: the record, SENSOR_STATE on a change of a channel that
has been FAILED, and TROUBLE (R20, R21, R57). -/
def State.recordSample (ch : Channel) (reading : Option Held) (s : State) : State :=
  let before := s.climate.channels.get ch
  let after := before.after reading
  let t := ({ s with climate := { s.climate with channels := s.climate.channels.set ch after } }).updateTrouble
  if after.reported && after.state != before.state then t.postNotice (.sensorState ch after.state) else t

/-! ## Control of the outputs -/

/-- A decision about the dehumidifier (R24). -/
inductive Decision where
  | on | off | unchanged
  deriving DecidableEq, Repr

/-- The decision from the held humidity against target and band (R24). -/
def humidityDecision (c : ClimateSettings) (humidity : Nat) : Decision :=
  if c.rhTarget + c.rhBand ≤ humidity then .on
  else if humidity + c.rhBand ≤ c.rhTarget then .off
  else .unchanged

/-- The decision about the heater from the held temperature (R26). -/
def heaterDecision (c : ClimateSettings) (temperature : Int) : Decision :=
  if temperature ≤ (c.heatTarget : Int) - 10 then .on
  else if (c.heatTarget : Int) ≤ temperature then .off
  else .unchanged

/-- The dehumidifier under a decision, with the minimum off time (R24, R25). -/
def AreaControl.dehumidify (uptime : Nat) (c : AreaControl) : Decision → AreaControl
  | .on =>
    if c.dehumidifier then c
    else if c.lastOff + Config.minimumOff ≤ uptime then { c with dehumidifier := true, deferred := false }
    else { c with deferred := true }
  | .off =>
    if c.dehumidifier then { c with dehumidifier := false, deferred := false, lastOff := uptime }
    else { c with deferred := false }
  | .unchanged => { c with deferred := false }

/-- The heater, where there is one, under a decision (R26). -/
def AreaControl.heat (c : AreaControl) : Decision → AreaControl
  | .on => { c with heater := c.heater.map fun _ => true }
  | .off => { c with heater := c.heater.map fun _ => false }
  | .unchanged => c

/-- Normal control at a sample event, by the channel's state (R24, R26, R27). -/
def AreaControl.control (uptime : Nat) (g : ClimateSettings) (ch : ChannelRecord) (c : AreaControl) : AreaControl :=
  match ch.state, ch.held with
  | .failed, _ => (c.dehumidify uptime .on).heat .off
  | .none, _ => (c.dehumidify uptime .off).heat .off
  | .good, some h => (c.dehumidify uptime (humidityDecision g h.humidity)).heat (heaterDecision g h.temperature)
  | .stale, some h => (c.dehumidify uptime (humidityDecision g h.humidity)).heat (heaterDecision g h.temperature)
  | .good, none => c
  | .stale, none => c

/-- The control of an area at its sample event: normal control in QUIET and PRE_ALARM; in the later
states the outputs are left alone (R23). -/
def State.controlSample (a : Area) (s : State) : State :=
  if (s.fire.areas.get a).state.late then s
  else s.onControl a
    (AreaControl.control s.vault.uptime (s.climate.settings.get a) (s.climate.channels.get (.area a)))

/-- The humidity alarm test of an area at its sample event, in every fire state (R31). -/
def State.alarmSample (a : Area) (s : State) : State :=
  match s.climate.held (.area a) with
  | none => s
  | some h =>
    if alarmLevel (s.climate.settings.get a).alarmIndex ≤ h.humidity ∧ (s.climate.controls.get a).highRh = false then
      (s.onControl a fun c => { c with highRh := true }).postNotice (.climateAlarm a h.humidity)
    else s

/-! ## Fire shutdown and venting -/

/-- The shutdown of an area (R28). -/
def AreaControl.shutDown (uptime : Nat) (c : AreaControl) : AreaControl :=
  { c with damperOpen := false, dehumidifier := false, deferred := false, lastOff := uptime,
           heater := c.heater.map fun _ => false }

/-- The climate unit takes a change of an area's fire state: shutdown on entry to COUNTDOWN, HELD or
DISCHARGED, the damper opened in VENTING and on return to QUIET from HELD or VENTING, and the extract fan on
while some area vents (R28, R29, R30). -/
def State.climateFireChange (a : Area) (old : FireState) (s : State) : State :=
  let now := (s.fire.areas.get a).state
  let t :=
    if now.shutdown && !old.late then s.onControl a (AreaControl.shutDown s.vault.uptime)
    else if now.vents || (old.late && now == .quiet) then s.onControl a fun c => { c with damperOpen := true }
    else s
  { t with climate := { t.climate with fan := t.fire.areas.any fun x => x.state.vents } }

/-! ## The requests -/

/-- SET_CLIMATE's checks and effect (R33, R34). -/
def State.setClimate (h : ReqHead) (area : Nat) (f : ClimateSettings) (s : State) : State :=
  match Area.ofNumber area with
  | none => s.refuse h .setClimate .invalid
  | some a =>
    if climateFieldsOk a f = false then s.refuse h .setClimate .invalid
    else
      let t := ({ s with climate := { s.climate with settings := s.climate.settings.set a f } }).persist .config
      t.answer h .setClimate (t.awaits [.config]) .ok (.climate (s.climate.settings.get a))

/-- SET_CLIMATE (R33). -/
def execSetClimate (h : ReqHead) (area : Nat) (f : ClimateSettings) (s : State) : Host.Outcome State Fault Refusal :=
  .next (s.request h .setClimate true (State.setClimate h area f))

/-- CLEAR_CLIMATE_FLAGS's check and effect (R32). -/
def State.clearClimateFlags (h : ReqHead) (area : Nat) (s : State) : State :=
  match Area.ofNumber area with
  | none => s.refuse h .clearClimateFlags .invalid
  | some a => (s.onControl a fun c => { c with highRh := false }).answer h .clearClimateFlags [] .ok .none

/-- CLEAR_CLIMATE_FLAGS (R32). -/
def execClearClimateFlags (h : ReqHead) (area : Nat) (s : State) : Host.Outcome State Fault Refusal :=
  .next (s.request h .clearClimateFlags true (State.clearClimateFlags h area))

/-- The dehumidifier as AREA_QUERY reports it (R25). -/
def AreaControl.report (c : AreaControl) : DehumidifierReport :=
  if c.deferred then .deferred else if c.dehumidifier then .on else .off

/-- The outputs and flags of an area as a port reads them, each flag masked by the port's subscription (R35). -/
def State.areaOutputs (s : State) (p : Port) (a : Area) : AreaOutputs :=
  let c := s.climate.controls.get a
  let l := s.link p
  { damperOpen := c.damperOpen, dehumidifier := c.report, heater := c.heater, fan := s.climate.fan
    fire := (s.fire.areas.get a).state.name
    highRh := c.highRh && l.subscribed .climate
    protectionOff := s.fire.protectionOff a && l.subscribed .fire
    agentSpent := (s.fire.areas.get a).agentSpent && l.subscribed .fire }

/-- The AREA_QUERY response for a channel on a port (R35). -/
def State.areaReport (s : State) (p : Port) (ch : Channel) : AreaReport :=
  let r := s.climate.channels.get ch
  { state := r.state, missCount := r.missCount, held := r.held, dewPoint := r.held.map (·.dewPoint)
    outputs := match ch with
      | .area a => some (s.areaOutputs p a)
      | .outside => none }

/-- AREA_QUERY's check and answer (R35). -/
def State.areaQuery (h : ReqHead) (channel : Nat) (s : State) : State :=
  match Channel.ofNumber channel with
  | none => s.refuse h .areaQuery .invalid
  | some ch => s.answer h .areaQuery [] .ok (.area (s.areaReport h.port ch))

/-- AREA_QUERY (R35). -/
def execAreaQuery (h : ReqHead) (channel : Nat) (s : State) : Host.Outcome State Fault Refusal :=
  .next (s.request h .areaQuery true (State.areaQuery h channel))

end Sys2Proof.Machine
end

