-- ==== Sys2Proof/Machine/Fire.lean ====
section
/-! DEFINITION. Chapter 3: detectors, call points, abort-hold, the area fire states, release, venting, and
the requests SET_FIRE (two forms), RECHARGED, ISOLATE, CONFIRM_AREA and RESET_AREA. -/

namespace Sys2Proof.Machine

/-- A change of one area's fire record. -/
def State.onFireArea (a : Area) (f : FireArea → FireArea) (s : State) : State :=
  { s with fire := { s.fire with areas := s.fire.areas.set a (f (s.fire.areas.get a)) } }

/-- A change of one detector's record. -/
def State.onDetector (d : Detector) (f : DetectorRecord → DetectorRecord) (s : State) : State :=
  { s with fire := { s.fire with detectors := s.fire.detectors.set d (f s.fire.detectors[d]) } }

/-! ## Changes of state and their notices (R55) -/

/-- The order of R55 from step 2 on, once an area's new state has been set: FIRE_STATE is queued, ALERT and
EVACUATE are worked out, and the climate unit, the staging unit and the hatch unit act. -/
def State.announceFire (a : Area) (old : FireState) (wasBlocked : Bool) (s : State) : State :=
  ((((s.postNotice (.fireState a (s.fire.areas.get a).state.name)).updateSounders).climateFireChange a old).dispatch
    []).hatchFireChange wasBlocked

/-- A change of an area's fire state (R55). -/
def State.changeFire (a : Area) (new : FireState) (s : State) : State :=
  (s.onFireArea a fun x => { x with state := new }).announceFire a (s.fire.areas.get a).state s.fire.blocked

/-- A change of a detector's state: DETECTOR is queued and TROUBLE worked out; nothing when the state is
the present one (R55, R57). -/
def State.changeDetector (d : Detector) (new : DetectorState) (s : State) : State :=
  if s.fire.detectors[d].state = new then s
  else ((s.onDetector d fun x => { x with state := new }).postNotice (.detector d new)).updateTrouble

/-! ## Entering the countdown -/

/-- An area enters the countdown: COUNTDOWN from the present uptime, or HELD while abort-hold is ACTIVE (R47). -/
def State.enterCountdown (a : Area) (s : State) : State :=
  s.changeFire a (if s.fire.abort then .held else .countdown s.vault.uptime)

/-- An assigned detector has entered ALARM: its area acts on the count by its coincidence and state (R45, R46). -/
def State.alarmEntry (d : Detector) (s : State) : State :=
  match s.fire.detectors[d].assignment with
  | none => s
  | some a =>
    let count := s.fire.alarmCount a
    let x := s.fire.areas.get a
    match x.state, x.settings.coincidence with
    | .quiet, .single => s.enterCountdown a
    | .quiet, .double => if 2 ≤ count then s.enterCountdown a else s.changeFire a .preAlarm
    | .preAlarm, .single => s.enterCountdown a
    | .preAlarm, .double => if 2 ≤ count then s.enterCountdown a else s
    | .countdown _, _ => s
    | .held, _ => s
    | .discharged, _ => s
    | .venting _, _ => s

/-- A detector's lines are evaluated: by R39 if assigned, by R41 if not; an entry into ALARM reaches the area. -/
def State.evaluateDetector (d : Detector) (s : State) : State :=
  let before := s.fire.detectors[d].state
  let after := s.fire.detectors[d].evaluated
  let t := s.changeDetector d after
  if after = .alarm ∧ before ≠ .alarm then t.alarmEntry d else t

/-- A call event: the call latch is set, and if it was clear the area enters the countdown from QUIET or
PRE_ALARM (R43, R47). -/
def State.callEvent (a : Area) (s : State) : State :=
  if (s.fire.areas.get a).callLatch then s
  else
    let t := s.onFireArea a fun x => { x with callLatch := true }
    if (s.fire.areas.get a).state.late then t else t.enterCountdown a

/-! ## The return to QUIET (R53) -/

/-- A detector of the area in ALARM drops its latch (R53, step 3). -/
def State.dropLatch (a : Area) (s : State) (d : Detector) : State :=
  let x := s.fire.detectors[d]
  if x.assignment = some a ∧ x.state = .alarm then s.changeDetector d x.dropped else s

/-- A detector of the area whose line condition is alarm is marked for re-taking (R53, step 4). -/
def State.markRetake (a : Area) (s : State) (d : Detector) : State :=
  let x := s.fire.detectors[d]
  if x.assignment = some a ∧ x.condition = .alarm then s.onDetector d fun x => { x with retake := true } else s

/-- An area returns to QUIET: the four steps of R53, then the order of R55 from step 2 on. -/
def State.returnToQuiet (a : Area) (s : State) : State :=
  let t := s.onFireArea a fun x => { x with state := .quiet, callLatch := false }
  let t := Detector.all.foldl (State.dropLatch a) t
  let t := Detector.all.foldl (State.markRetake a) t
  let t := t.onFireArea a fun x => { x with callRetake := x.callRetake || x.callActive }
  t.announceFire a (s.fire.areas.get a).state s.fire.blocked

/-! ## Events -/

/-- A debounced change of a detector's lines; both taken, then one evaluation (R37, R38, R39). -/
def State.detectorLines (d : Detector) (alarmLine faultLine : Level) (s : State) : State :=
  let x := s.fire.detectors[d]
  if x.alarmLine = alarmLine ∧ x.faultLine = faultLine then s
  else (s.onDetector d fun x => { x with alarmLine := alarmLine, faultLine := faultLine }).evaluateDetector d

/-- The debounced change as a command: the pins of a line that changes rest at levels that two scans have sampled (R37;
log 6, DESIGN CHOICE). -/
def State.detectorChange (d : Detector) (alarmLine faultLine : Level) (s : State) : State :=
  let x := s.fire.detectors[d]
  if x.alarmLine = alarmLine ∧ x.faultLine = faultLine then s
  else
    (s.onInputs fun i => { i with alarm := i.alarm.set d (Pin.settled alarmLine), fault := i.fault.set d (Pin.settled faultLine) })
      |>.detectorLines d alarmLine faultLine

/-- DETECTOR_LINE_CHANGE (R39). -/
def execDetectorLineChange (d : Detector) (alarmLine faultLine : Level) (s : State) : Host.Outcome State Fault Refusal :=
  .next (s.event (State.detectorChange d alarmLine faultLine))

/-- A call point's debounced level becomes active (R43). -/
def State.callPointOn (a : Area) (s : State) : State :=
  if (s.fire.areas.get a).callActive then s
  else (s.onFireArea a fun x => { x with callActive := true }).callEvent a

/-- The pin of an area's call point rests at a level that two scans have sampled (R37; log 6, DESIGN CHOICE). -/
def State.settleCall (a : Area) (l : Level) (s : State) : State :=
  s.onInputs fun i => { i with call := i.call.set a (Pin.settled l) }

/-- CALL_POINT_OPERATED (R43). -/
def execCallPointOperated (a : Area) (s : State) : Host.Outcome State Fault Refusal :=
  .next (s.event fun s => if (s.fire.areas.get a).callActive then s else (s.settleCall a .high).callPointOn a)

/-- A call point's debounced level becomes inactive, and the latch stays (R43). -/
def State.callPointOff (a : Area) (s : State) : State := s.onFireArea a fun x => { x with callActive := false }

/-- CALL_POINT_INACTIVE (R43). -/
def execCallPointInactive (a : Area) (s : State) : Host.Outcome State Fault Refusal :=
  .next (s.event fun s => if (s.fire.areas.get a).callActive then (s.settleCall a .low).callPointOff a else s)

/-- An area in COUNTDOWN goes to HELD (R48). -/
def State.holdArea (s : State) (a : Area) : State :=
  match (s.fire.areas.get a).state with
  | .countdown _ => s.changeFire a .held
  | .quiet => s
  | .preAlarm => s
  | .held => s
  | .discharged => s
  | .venting _ => s

/-- An area in HELD goes back to COUNTDOWN with its full delay (R48). -/
def State.resumeArea (s : State) (a : Area) : State :=
  if (s.fire.areas.get a).state = .held then s.changeFire a (.countdown s.vault.uptime) else s

/-- The abort-hold switch goes ACTIVE: every area in COUNTDOWN goes to HELD (R44, R48; log 16, DESIGN CHOICE). -/
def State.abortOn (s : State) : State :=
  if s.fire.abort then s
  else Area.all.foldl State.holdArea { s with fire := { s.fire with abort := true } }

/-- The pin of the abort-hold switch rests at a level that two scans have sampled (R37; log 6, DESIGN CHOICE). -/
def State.settleAbort (l : Level) (s : State) : State := s.onInputs fun i => { i with abort := Pin.settled l }

/-- ABORT_HOLD_ACTIVE (R48). -/
def execAbortHoldActive (s : State) : Host.Outcome State Fault Refusal :=
  .next (s.event fun s => if s.fire.abort then s else (s.settleAbort .high).abortOn)

/-- The abort-hold switch goes RELEASED: every area in HELD goes back to COUNTDOWN (R44, R48; log 16, DESIGN CHOICE). -/
def State.abortOff (s : State) : State :=
  if s.fire.abort then Area.all.foldl State.resumeArea { s with fire := { s.fire with abort := false } }
  else s

/-- ABORT_HOLD_RELEASED (R48). -/
def execAbortHoldReleased (s : State) : Host.Outcome State Fault Refusal :=
  .next (s.event fun s => if s.fire.abort then (s.settleAbort .low).abortOff else s)

/-- A detector marked for re-taking: its mark is cleared, and if its line condition is still alarm it is
taken as an entry into alarm (R53; log 34, DEDUCED). -/
def State.retakeDetector (s : State) (d : Detector) : State :=
  if s.fire.detectors[d].retake then
    let t := s.onDetector d fun x => { x with retake := false }
    if t.fire.detectors[d].condition = .alarm then t.evaluateDetector d else t
  else s

/-- A call point marked for re-taking: its mark is cleared, and if it is still active it is a call event (R53). -/
def State.retakeCall (s : State) (a : Area) : State :=
  if (s.fire.areas.get a).callRetake then
    let t := s.onFireArea a fun x => { x with callRetake := false }
    if (t.fire.areas.get a).callActive then t.callEvent a else t
  else s

/-- The inputs marked for re-taking are taken, detectors before call points (R53; log 16, DESIGN CHOICE). -/
def State.retakeInputs (s : State) : State := Area.all.foldl State.retakeCall (Detector.all.foldl State.retakeDetector s)

/-- RETAKE_AT_SCAN (R53). -/
def execRetakeAtScan (s : State) : Host.Outcome State Fault Refusal := .next (s.event State.retakeInputs)

/-- The release pulse of an area waits on the fire record's last handed write (R49, step 3). -/
def State.awaitPulse (a : Area) (s : State) : State :=
  match (s.store.pendingOf (.fireFlags a)).getLast? with
  | some t => { s with store := { s.store with pulses := s.store.pulses ++ [(t, a)] } }
  | none => s.startPulse a

/-- The discharge delay of an area expires: DISCHARGED, the fire record written, and the pulse after the
write, or AGENT_SPENT when the agent is already spent (R49; log 27 and 35, DEDUCED). -/
def State.dischargeArea (a : Area) (s : State) : State :=
  let x := s.fire.areas.get a
  match x.state with
  | .countdown start =>
    if start + x.settings.delay ≤ s.vault.uptime then
      let t := (s.onFireArea a fun x => { x with state := .discharged, agentSpent := true }).persist (.fireFlags a)
      let needs := t.awaits [.fireFlags a]
      if x.agentSpent then (t.announceFire a x.state s.fire.blocked).notify needs (.agentSpent a)
      else (t.awaitPulse a).announceFire a x.state s.fire.blocked
    else s
  | .quiet => s
  | .preAlarm => s
  | .held => s
  | .discharged => s
  | .venting _ => s

/-- DISCHARGE_DELAY_EXPIRY (R49). -/
def execDischargeDelayExpiry (a : Area) (s : State) : Host.Outcome State Fault Refusal :=
  .next (s.event (State.dischargeArea a))

/-- The release output of an area goes off 2 s after it went on (R50; log 4, DESIGN CHOICE). -/
def State.endPulse (a : Area) (s : State) : State :=
  match (s.fire.areas.get a).pulse with
  | some t => if t + Config.pulseLength ≤ s.vault.uptime then s.onFireArea a fun x => { x with pulse := none } else s
  | none => s

/-- RELEASE_PULSE_END (R50). -/
def execReleasePulseEnd (a : Area) (s : State) : Host.Outcome State Fault Refusal :=
  .next (s.event (State.endPulse a))

/-- The vent time of an area expires and it returns to QUIET (R52). -/
def State.ventEnd (a : Area) (s : State) : State :=
  let x := s.fire.areas.get a
  match x.state with
  | .venting start => if start + x.settings.vent ≤ s.vault.uptime then s.returnToQuiet a else s
  | .quiet => s
  | .preAlarm => s
  | .countdown _ => s
  | .held => s
  | .discharged => s

/-- VENT_TIME_EXPIRY (R52). -/
def execVentTimeExpiry (a : Area) (s : State) : Host.Outcome State Fault Refusal :=
  .next (s.event (State.ventEnd a))

/-! ## The requests -/

/-- Every area is QUIET (R58). -/
def State.allQuiet (s : State) : Bool := s.fire.areas.all fun x => x.state == .quiet

/-- SET_FIRE's area form (R58). -/
def State.setFireArea (h : ReqHead) (area : Nat) (coincidence : Option Coincidence) (delay vent : Nat) (s : State) : State :=
  if s.vault.mode ≠ .maintenance then s.refuse h .setFire .mode
  else
    match Area.ofNumber area, fireOfFields coincidence delay vent with
    | some a, some g =>
      if s.allQuiet = false then s.refuse h .setFire .state
      else
        let t := (s.onFireArea a fun x => { x with settings := g }).persist .config
        t.answer h .setFire (t.awaits [.config]) .ok (.fireArea (s.fire.areas.get a).settings)
    | _, _ => s.refuse h .setFire .invalid

/-- SET_FIRE, area form (R58; log 26, DEDUCED). -/
def execSetFireArea (h : ReqHead) (area : Nat) (coincidence : Option Coincidence) (delay vent : Nat) (s : State) :
    Host.Outcome State Fault Refusal :=
  .next (s.request h .setFire true (State.setFireArea h area coincidence delay vent))

/-- A detector's record with new settings and its re-take mark cleared (R53, R59, R61). -/
def DetectorRecord.withSettings (g : DetectorSettings) (x : DetectorRecord) : DetectorRecord :=
  { x with assignment := g.assignment, polarity := g.polarity, retake := false }

/-- An ALARM of the detector is latched once it is assigned: any but one in which it stands unassigned (R39, R41; log
29, DEDUCED). -/
def DetectorRecord.latches (x : DetectorRecord) : Bool := x.assignment.isSome || x.state != .alarm

/-- The state that a detector takes, evaluated afresh from its lines under its settings: ISOLATED stays (R59); an ALARM
that is latched stays while the detector is assigned (R39; log 29, DEDUCED); any other ALARM goes with the lines
(R41). -/
def DetectorRecord.afresh (latched : Bool) (x : DetectorRecord) : DetectorState :=
  if x.state = .isolated then .isolated
  else if x.state = .alarm ∧ latched = true ∧ x.assignment.isSome = true then .alarm
  else x.condition.names

/-- An assigned detector that is in ALARM under its new settings counts as entering it (R59, R61). -/
def State.alarmAfresh (d : Detector) (s : State) : State :=
  if s.fire.detectors[d].state = .alarm then s.alarmEntry d else s

/-- A detector with new settings is evaluated afresh (R59). -/
def State.evaluateAfresh (d : Detector) (latched : Bool) (s : State) : State :=
  (s.changeDetector d (s.fire.detectors[d].afresh latched)).alarmAfresh d

/-- SET_FIRE's detector form: the settings are replaced and PROTECTION_OFF worked out again; OK, and the evaluation
after it, wait on the configuration's write (R59). -/
def State.setFireDetector (h : ReqHead) (detector : Nat) (assignment : AssignField) (polarity : Option Polarity) (s : State) :
    State :=
  if s.vault.mode ≠ .maintenance then s.refuse h .setFire .mode
  else
    match Detector.ofNumber detector, detectorOfFields assignment polarity with
    | some d, some g =>
      if s.allQuiet = false then s.refuse h .setFire .state
      else
        let old := s.fire.detectors[d]
        let t := (s.onDetector d (DetectorRecord.withSettings g)).updateTrouble.persist .config
        (t.answer h .setFire (t.awaits [.config]) .ok (.fireDetector ⟨old.assignment, old.polarity⟩)).follow .config
          (.evaluate d old.latches) (State.evaluateAfresh d old.latches)
    | _, _ => s.refuse h .setFire .invalid

/-- SET_FIRE, detector form (R59). -/
def execSetFireDetector (h : ReqHead) (detector : Nat) (assignment : AssignField) (polarity : Option Polarity) (s : State) :
    Host.Outcome State Fault Refusal :=
  .next (s.request h .setFire true (State.setFireDetector h detector assignment polarity))

/-- RECHARGED's checks and effect (R54). -/
def State.recharged (h : ReqHead) (area : Nat) (s : State) : State :=
  if s.vault.mode ≠ .maintenance then s.refuse h .recharged .mode
  else
    match Area.ofNumber area with
    | none => s.refuse h .recharged .invalid
    | some a =>
      if (s.fire.areas.get a).state ≠ .quiet then s.refuse h .recharged .state
      else if (s.fire.areas.get a).agentSpent then
        let t := (s.onFireArea a fun x => { x with agentSpent := false }).persist (.fireFlags a)
        t.answer h .recharged (t.awaits [.fireFlags a]) .ok .none
      else s.answer h .recharged [] .ok .none

/-- RECHARGED (R54). -/
def execRecharged (h : ReqHead) (area : Nat) (s : State) : Host.Outcome State Fault Refusal :=
  .next (s.request h .recharged true (State.recharged h area))

/-- ISOLATE's checks and effect (R40, R53; log 28 and 30, DEDUCED). -/
def State.isolate (h : ReqHead) (detector : Nat) (switch : Option Bool) (s : State) : State :=
  match Detector.ofNumber detector, switch with
  | some d, some on =>
    let t := s.onDetector d fun x => { x with retake := false }
    let isolated := decide (s.fire.detectors[d].state = .isolated)
    let t :=
      match on, isolated with
      | true, false => t.changeDetector d .isolated
      | false, true =>
        let after : DetectorState := t.fire.detectors[d].condition.names
        let t := t.changeDetector d after
        if after = DetectorState.alarm then t.alarmEntry d else t
      | true, true => t
      | false, false => t
    t.answer h .isolate [] .ok .none
  | _, _ => s.refuse h .isolate .invalid

/-- ISOLATE (R40). -/
def execIsolate (h : ReqHead) (detector : Nat) (switch : Option Bool) (s : State) : Host.Outcome State Fault Refusal :=
  .next (s.request h .isolate true (State.isolate h detector switch))

/-- CONFIRM_AREA's check and effect (R47). -/
def State.confirmArea (h : ReqHead) (area : Nat) (s : State) : State :=
  match Area.ofNumber area with
  | none => s.refuse h .confirmArea .invalid
  | some a =>
    if (s.fire.areas.get a).state = .preAlarm then (s.enterCountdown a).answer h .confirmArea [] .ok .none
    else s.refuse h .confirmArea .state

/-- CONFIRM_AREA (R47). -/
def execConfirmArea (h : ReqHead) (area : Nat) (s : State) : Host.Outcome State Fault Refusal :=
  .next (s.request h .confirmArea true (State.confirmArea h area))

/-- A DISCHARGED area goes to VENTING and its fire record is written (R51). -/
def State.ventArea (a : Area) (s : State) : State :=
  ((s.onFireArea a fun x => { x with state := .venting s.vault.uptime }).persist (.fireFlags a)).announceFire a
    (s.fire.areas.get a).state s.fire.blocked

/-- RESET_AREA's check and effect, by the area's state (R51). -/
def State.resetArea (h : ReqHead) (area : Nat) (s : State) : State :=
  match Area.ofNumber area with
  | none => s.refuse h .resetArea .invalid
  | some a =>
    match (s.fire.areas.get a).state with
    | .quiet => s.answer h .resetArea [] .ok .none
    | .preAlarm => (s.returnToQuiet a).answer h .resetArea [] .ok .none
    | .countdown _ => s.refuse h .resetArea .state
    | .held => (s.returnToQuiet a).answer h .resetArea [] .ok .none
    | .discharged =>
      let t := s.ventArea a
      t.answer h .resetArea (t.awaits [.fireFlags a]) .ok .none
    | .venting _ => s.refuse h .resetArea .state

/-- RESET_AREA (R51). -/
def execResetArea (h : ReqHead) (area : Nat) (s : State) : Host.Outcome State Fault Refusal :=
  .next (s.request h .resetArea true (State.resetArea h area))

end Sys2Proof.Machine
end

