-- ==== Sys2Proof/Machine/Sample.lean ====
section
/-! DEFINITION. Chapters 2, 4, 6 and 8 at the sensor bus: the climate sweep (R16 to R18), and the sample
event with what the exposure, staging and hatch units do at it (R22, R67 to R73, R118, R119, R154). -/

namespace Sys2Proof.Machine

/-! ## The sweep (R16 to R18) -/

/-- The sweep is set. -/
def State.setSweep (w : Sweep) (s : State) : State := { s with climate := { s.climate with sweep := w } }

/-- A sweep falls due at a whole multiple of 60 s of uptime: started, or dropped while one is in flight (R17; log
36, DESIGN CHOICE). -/
def State.sweepFallsDue (s : State) : State :=
  if s.vault.uptime % Config.sweepPeriod = 0 ∧ s.climate.lastSweepDueAt ≠ some s.vault.uptime then
    let s := { s with climate := { s.climate with lastSweepDueAt := some s.vault.uptime } }
    match s.climate.sweep with
    | .idle => s.setSweep (.waiting (.area .vaultA) s.vault.uptime)
    | .waiting _ _ => { s with climate := { s.climate with dropped := min 65535 (s.climate.dropped + 1) } }
    | .reading _ => { s with climate := { s.climate with dropped := min 65535 (s.climate.dropped + 1) } }
    | .ended _ => { s with climate := { s.climate with dropped := min 65535 (s.climate.dropped + 1) } }
  else s

/-- SWEEP_DUE (R17). -/
def execSweepDue (s : State) : Host.Outcome State Fault Refusal := .next (s.event State.sweepFallsDue)

/-- What the K412 puts on the sensor bus goes on with some signals (R16). -/
def State.drive (xs : List BusSignal) (s : State) : State :=
  { s with climate := { s.climate with bus := s.climate.bus ++ xs } }

/-- The bus is free and the read of the waiting channel begins: a start condition, and the address of the channel's
sensor with the read direction (R16, R18). -/
def State.beginRead (s : State) : State :=
  match s.climate.sweep with
  | .waiting c _ =>
    ({ s with climate := { s.climate with bus := [] } }).drive [.start, .addressRead c.busAddress] |>.setSweep (.reading c)
  | .idle => s
  | .reading _ => s
  | .ended _ => s

/-- SENSOR_READ_START (R18). -/
def execSensorReadStart (s : State) : Host.Outcome State Fault Refusal := .next (s.event State.beginRead)

/-- The read in progress has not ended by its limit: after the acknowledgements of the bytes that are in, fewer than
five, a stop condition is sent, and the read is ended as unacknowledged (R16). How many are in is a free value (log 19,
DEDUCED). -/
def State.limitRead (s : State) : State :=
  match s.climate.sweep with
  | .reading c =>
    let n := s.inputs.limitedReads
    let t := s.onInputs fun i => { i with limitedReads := n + 1 }
    (t.drive (List.replicate (Config.bytesBeforeLimit n).val .acknowledge ++ [.stop])).setSweep (.ended c)
  | .idle => s
  | .waiting _ _ => s
  | .ended _ => s

/-- READ_TIME_LIMIT (R16). -/
def execReadTimeLimit (s : State) : Host.Outcome State Fault Refusal := .next (s.event State.limitRead)

/-- The wait for the bus ends at 30 s, and the read with it, as unacknowledged (R18). -/
def State.endBusWait (s : State) : State :=
  match s.climate.sweep with
  | .waiting c since => if since + Config.busWait ≤ s.vault.uptime then s.setSweep (.ended c) else s
  | .idle => s
  | .reading _ => s
  | .ended _ => s

/-- BUS_WAIT_TIMEOUT (R18). -/
def execBusWaitTimeout (s : State) : Host.Outcome State Fault Refusal := .next (s.event State.endBusWait)

/-- After the read of a channel the sweep waits for the next one, or ends after channel 5 (R17). -/
def State.nextRead (c : Channel) (s : State) : State :=
  match c.next with
  | some c' => s.setSweep (.waiting c' s.vault.uptime)
  | none => s.setSweep .idle

/-! ## The exposure unit (R73) -/

/-- The accumulator of an area at a sample event of its channel; written whether or not it gained (R73). -/
def State.accumulateSample (a : Area) (s : State) : State :=
  let acc := match s.climate.held (.area a) with
    | some h => accumulate (s.accumulators.get a) h.humidity (s.climate.settings.get a).doseThreshold
    | none => s.accumulators.get a
  ({ s with accumulators := s.accumulators.set a acc }).persist (.accumulator a)

/-! ## The staging unit (R68, R118, R119) -/

/-- Every slot changed in its volatile fields, without a write (R111). -/
def State.mapSlots (f : Slot → Slot) (s : State) : State :=
  { s with staging := { s.staging with slots := tabulate fun n => f s.staging.slots[n] } }

/-- The readiness test of a slot, by its direction (R70, R71, R72). -/
def State.slotReady (s : State) : Slot → Bool
  | .free => false
  | .reserved _ _ _ => false
  | .occupied _ .outbound _ dwell est => readyOutTest s.climate s.staging.settings dwell est
  | .occupied _ .inbound _ dwell est => readyInTest s.climate s.staging.settings dwell est

/-- The state a readiness result gives a record (R119); the states that are not staged stay. -/
def CustodyState.flip (pass : Bool) : CustodyState → CustodyState
  | .stagedOut => if pass then .readyOut else .stagedOut
  | .readyOut => if pass then .readyOut else .stagedOut
  | .stagedIn => if pass then .readyIn else .stagedIn
  | .readyIn => if pass then .readyIn else .stagedIn
  | .inVault => .inVault
  | .requested => .requested
  | .picking => .picking
  | .inHatchOut => .inHatchOut
  | .withCourier => .withCourier
  | .inHatchIn => .inHatchIn
  | .unknown => .unknown

/-- A flip that an OCCUPIED slot's readiness test makes: the record's place, the record before, and its
new state; none when the result agrees with the state (R72, R119). -/
def State.flipOf (s : State) (n : Fin 32) : Option (Nat × CustodyRecord × CustodyState) :=
  match s.staging.slots[n] with
  | .free => none
  | .reserved _ _ _ => none
  | .occupied l d o dwell est =>
    match s.record? l with
    | none => none
    | some (p, r) =>
      let after := r.state.flip (s.slotReady (.occupied l d o dwell est))
      if after = r.state then none else some (p, r, after)

/-- The direction that a ready state names (R119). -/
def CustodyState.readyDirection : CustodyState → Option Direction
  | .readyOut => some .outbound
  | .readyIn => some .inbound
  | .stagedOut => none
  | .stagedIn => none
  | .inVault => none
  | .requested => none
  | .picking => none
  | .inHatchOut => none
  | .withCourier => none
  | .inHatchIn => none
  | .unknown => none

/-- A slot's flip is made and written; one to a ready state has its READY notice, which follows those of
the slots before it (R119). -/
def State.flipSlot (x : List Nat × State) (n : Fin 32) : List Nat × State :=
  match x.2.flipOf n with
  | none => x
  | some (p, r, after) =>
    let t := x.2.putRecord p { r with state := after }
    match after.readyDirection with
    | none => (x.1, t)
    | some d =>
      let needs := x.1 ++ t.awaits [.custody p]
      (needs, t.notify needs (.ready r.label d n))

/-- The places of the consignments to which an OUT record that flips is bound (R119). -/
def State.flipPlaces (s : State) : List (Fin 16) :=
  let flips := slotNumbers.filterMap s.flipOf
  placeNumbers.filter fun i =>
    match s.consign.places[i] with
    | none => false
    | some c => flips.any fun x => (x.2.2 == .stagedOut || x.2.2 == .readyOut) && x.2.1.consignment == some c.number

/-- The staging unit at a Staging sample event: steps, evaluations, flips, and then the consignments of
flipped OUT records handed over for the test (R118, R119), with the arbitration that a change of a
consignment calls for (R143). -/
def State.stageSample (s : State) : State :=
  let s := s.mapSlots (Slot.step s.climate)
  let places := s.flipPlaces
  let (needs, t) := slotNumbers.foldl State.flipSlot ([], s)
  let (needs', u) := t.testPlaces needs places
  if u.consign = t.consign then u else u.arbitrate needs'

/-! ## The hatch unit (R154) -/

/-- Every entry of the hatch list changed in its estimate, without a write; then the condensation gate is
tested again for a pending outer request when no side holds possession (R149, R154). -/
def State.hatchSample (f : HatchEntry → HatchEntry) (s : State) : State :=
  let t := { s with hatch := { s.hatch with entries := s.hatch.entries.map f } }
  if t.hatch.arbiter.pendingOuter && !t.hatch.arbiter.possession then t.arbitrate [] else t

/-! ## The sample event (R22) -/

/-- What a sample event of an area's channel does in the climate and exposure units (R22). -/
def State.areaSample (a : Area) (s : State) : State := ((s.controlSample a).alarmSample a).accumulateSample a

/-- What the staging and hatch units do at a sample event of each channel (R22). -/
def State.handSample (ch : Channel) (s : State) : State :=
  match ch with
  | .area .vaultA => (s.areaSample .vaultA).mapSlots (Slot.takeBase s.climate ch)
  | .area .vaultB => (s.areaSample .vaultB).mapSlots (Slot.takeBase s.climate ch)
  | .area .staging => (s.areaSample .staging).stageSample
  | .area .hatch => (s.areaSample .hatch).hatchSample (HatchEntry.step s.climate)
  | .outside => (s.mapSlots (Slot.takeBase s.climate ch)).hatchSample (HatchEntry.takeBase s.climate)

/-- A read of a channel has ended, valid with a reading or invalid (R19, R22). -/
def State.sample (ch : Channel) (reading : Option Held) (s : State) : State :=
  ((s.recordSample ch reading).handSample ch).nextRead ch

/-- What the K412 puts on the bus after the address of a read that ends by itself: four bytes acknowledged, the fifth
not, and a stop condition; the stop condition alone after an address that is not acknowledged (R16; log 19, DEDUCED). -/
def SensorReading.signals : SensorReading → List BusSignal
  | .noAck => [.stop]
  | .word _ _ _ _ _ => [.acknowledge, .acknowledge, .acknowledge, .acknowledge, .noAcknowledge, .stop]

/-- The sample event of the read that ends: of the bytes of a completed read, or invalid when the read was
ended as unacknowledged (R16, R18, R19; log 19, DEDUCED). -/
def State.sampleOf (reading : SensorReading) (s : State) : State :=
  match s.climate.sweep with
  | .reading c => (s.drive (SensorReading.signals reading)).sample c reading.value
  | .ended c => s.sample c none
  | .idle => s
  | .waiting _ _ => s

/-- SAMPLE_EVENT (R22). -/
def execSampleEvent (reading : SensorReading) (s : State) : Host.Outcome State Fault Refusal :=
  .next (s.event (State.sampleOf reading))

end Sys2Proof.Machine
end

