-- ==== Sys2Proof/Machine/Consign.lean ====
section
/-! DEFINITION. Chapter 7, the requests: CONSIGN_OPEN, CONSIGN_ADD, CONSIGN_REMOVE, CONSIGN_SEAL,
CONSIGN_CANCEL, CONSIGN_UNLOCK and CONSIGN_QUERY. -/

namespace Sys2Proof.Machine

/-- The response of a consignment request, the CONSIGN_STATE that follows it (R133), and the arbitration
that the change of the consignment's state calls for (R143; log 40, DEDUCED). -/
def State.answerConsign (h : ReqHead) (k : RequestKind) (rs : List StoreRecord) (data : ResponseData) (c : Consignment)
    (s : State) : State :=
  let needs := s.awaits rs
  ((s.answer h k needs .ok data).notify needs (.consignState c.number c.state c.result)).arbitrate needs

/-- A custody record's binding is set or cleared, and the record written (R100). -/
def State.bindRecord (p : Nat) (r : CustodyRecord) (n : Option Nat) (s : State) : State :=
  s.putRecord p { r with consignment := n }

/-! ## Opening and building (R124 to R126) -/

/-- The record that CONSIGN_OPEN makes (R124). -/
def Consignment.opened (number courier expected : Nat) (now : Clock) : Consignment :=
  { number := number, courier := courier, state := .opened, beforeLockout := none, outbound := [], expected := expected,
    received := [], takenCount := 0, token := none, mismatches := 0, result := none, created := now, closed := none }

/-- CONSIGN_OPEN's checks and effect; the record is handed to the store before the counter (R124; log 46, DESIGN
CHOICE). -/
def State.consignOpen (h : ReqHead) (courier expected : Nat) (s : State) : State :=
  if s.vault.mode = .maintenance then s.refuse h .consignOpen .mode
  else if idInRange courier = false ∨ 8 < expected then s.refuse h .consignOpen .invalid
  else
    match s.openPlace with
    | none => s.refuse h .consignOpen .full
    | some i =>
      let n := s.issueNumber
      let c := Consignment.opened n courier expected s.vault.clock
      let t := s.putConsign i c
      let t := ({ t with consign := { t.consign with counter := n } }).persist .counter
      t.answerConsign h .consignOpen [.consignment i, .counter] (.consignNumber n) c

/-- CONSIGN_OPEN (R124). -/
def execConsignOpen (h : ReqHead) (courier expected : Nat) (s : State) : Host.Outcome State Fault Refusal :=
  .next (s.request h .consignOpen true (State.consignOpen h courier expected))

/-- CONSIGN_ADD's checks and effect. BOUND is the table's test of the record alone, also for a label that the list holds
(R125; log 45, DESIGN CHOICE); the consignment is handed to the store first (log 46, DESIGN CHOICE). -/
def State.consignAdd (h : ReqHead) (number : Nat) (label : Label) (s : State) : State :=
  if s.vault.mode = .maintenance then s.refuse h .consignAdd .mode
  else if idInRange number = false ∨ goodLabel label = false then s.refuse h .consignAdd .invalid
  else
    match s.consignment? number with
    | none => s.refuse h .consignAdd .notFound
    | some (i, c) =>
      if c.state ≠ .opened then s.refuse h .consignAdd .state
      else
        match s.record? label with
        | none => s.refuse h .consignAdd .notFound
        | some (p, r) =>
          if r.state ≠ .stagedOut ∧ r.state ≠ .readyOut then s.refuse h .consignAdd .state
          else if r.consignment.isSome then s.refuse h .consignAdd .bound
          else if Config.outboundCapacity ≤ c.outbound.length then s.refuse h .consignAdd .full
          else
            let c' := { c with outbound := c.outbound ++ [label] }
            let t := (s.putConsign i c').bindRecord p r (some number)
            t.answer h .consignAdd (t.awaits [.consignment i, .custody p]) .ok (.outboundCount c'.outbound.length)

/-- CONSIGN_ADD (R125). -/
def execConsignAdd (h : ReqHead) (number : Nat) (label : Label) (s : State) : Host.Outcome State Fault Refusal :=
  .next (s.request h .consignAdd true (State.consignAdd h number label))

/-- CONSIGN_REMOVE's checks and effect; the consignment is handed to the store first (R126; log 46, DESIGN CHOICE). Of a
label that the list holds twice the first copy leaves it (log 51, DESIGN CHOICE). -/
def State.consignRemove (h : ReqHead) (number : Nat) (label : Label) (s : State) : State :=
  if s.vault.mode = .maintenance then s.refuse h .consignRemove .mode
  else if idInRange number = false ∨ goodLabel label = false then s.refuse h .consignRemove .invalid
  else
    match s.consignment? number with
    | none => s.refuse h .consignRemove .notFound
    | some (i, c) =>
      if c.state ≠ .opened then s.refuse h .consignRemove .state
      else if c.outbound.contains label = false then s.refuse h .consignRemove .notFound
      else
        let c' := { c with outbound := c.outbound.erase label }
        let t := s.putConsign i c'
        match t.record? label with
        | none => t.answer h .consignRemove (t.awaits [.consignment i]) .ok (.outboundCount c'.outbound.length)
        | some (p, r) =>
          let t := if r.consignment = some number then t.bindRecord p r none else t
          let rs := if r.consignment = some number then [StoreRecord.consignment i, .custody p] else [.consignment i]
          t.answer h .consignRemove (t.awaits rs) .ok (.outboundCount c'.outbound.length)

/-- CONSIGN_REMOVE (R126). -/
def execConsignRemove (h : ReqHead) (number : Nat) (label : Label) (s : State) : Host.Outcome State Fault Refusal :=
  .next (s.request h .consignRemove true (State.consignRemove h number label))

/-! ## Sealing, unlocking and cancelling (R128, R130, R131) -/

/-- A listed label names a record that carries the number and is STAGED_OUT or READY_OUT (R128). -/
def State.sealable (s : State) (number : Nat) (l : Label) : Bool :=
  match s.boundState number l with
  | some st => st == .stagedOut || st == .readyOut
  | none => false

/-- CONSIGN_SEAL's checks and effect (R127, R128). -/
def State.consignSeal (h : ReqHead) (number : Nat) (s : State) : State :=
  if s.vault.mode = .maintenance then s.refuse h .consignSeal .mode
  else if idInRange number = false then s.refuse h .consignSeal .invalid
  else
    match s.consignment? number with
    | none => s.refuse h .consignSeal .notFound
    | some (i, c) =>
      if c.state ≠ .opened then s.refuse h .consignSeal .state
      else if c.outbound.length + c.expected = 0 then s.refuse h .consignSeal .invalid
      else if c.outbound.all (s.sealable number) = false then s.refuse h .consignSeal .state
      else
        let st : ConsignState :=
          if c.outbound.all (fun l => s.boundState number l == some .readyOut) then .ready else .sealed
        let c' := { c with state := st, token := some c.tokenOf }
        (s.putConsign i c').answerConsign h .consignSeal [.consignment i] (.sealed c.tokenOf st) c'

/-- CONSIGN_SEAL (R128). -/
def execConsignSeal (h : ReqHead) (number : Nat) (s : State) : Host.Outcome State Fault Refusal :=
  .next (s.request h .consignSeal true (State.consignSeal h number))

/-- CONSIGN_UNLOCK's checks and effect (R130). -/
def State.consignUnlock (h : ReqHead) (number : Nat) (s : State) : State :=
  if s.vault.mode = .maintenance then s.refuse h .consignUnlock .mode
  else if idInRange number = false then s.refuse h .consignUnlock .invalid
  else
    match s.consignment? number with
    | none => s.refuse h .consignUnlock .notFound
    | some (i, c) =>
      match c.state, c.beforeLockout with
      | .lockedOut, some st =>
        let c' := { c with state := st, beforeLockout := none, mismatches := 0 }
        (s.putConsign i c').answerConsign h .consignUnlock [.consignment i] (.unlocked st) c'
      | _, _ => s.refuse h .consignUnlock .state

/-- CONSIGN_UNLOCK (R130). -/
def execConsignUnlock (h : ReqHead) (number : Nat) (s : State) : Host.Outcome State Fault Refusal :=
  .next (s.request h .consignUnlock true (State.consignUnlock h number))

/-- The states from which a consignment may be cancelled (R131). -/
def Consignment.cancellable (c : Consignment) : Bool :=
  match c.state with
  | .opened => true
  | .sealed => true
  | .ready => true
  | .lockedOut => c.beforeLockout == some .sealed || c.beforeLockout == some .ready
  | .loaded => false
  | .exchanging => false
  | .returning => false
  | .closed => false
  | .cancelled => false

/-- A listed label is unbound from a number it carries, and its record written (R131, step 2). -/
def State.unbind (number : Nat) (s : State) (l : Label) : State :=
  match s.record? l with
  | some (p, r) => if r.consignment = some number then s.bindRecord p r none else s
  | none => s

/-- The custody records, as the store names them, of the listed labels that carry a number. -/
def State.boundRecords (s : State) (number : Nat) (ls : List Label) : List StoreRecord :=
  ls.filterMap fun l =>
    match s.record? l with
    | some (p, r) => if r.consignment = some number then some (.custody p) else none
    | none => none

/-- CONSIGN_CANCEL's checks and effect (R131). -/
def State.consignCancel (h : ReqHead) (number : Nat) (s : State) : State :=
  if s.vault.mode = .maintenance then s.refuse h .consignCancel .mode
  else if idInRange number = false then s.refuse h .consignCancel .invalid
  else
    match s.consignment? number with
    | none => s.refuse h .consignCancel .notFound
    | some (i, c) =>
      if c.cancellable = false then s.refuse h .consignCancel .state
      else if c.outbound.any (fun l => s.itemKind number l == .loaded) then s.refuse h .consignCancel .state
      else
        let c' := { c with state := .cancelled, result := some .cancelled, beforeLockout := none,
                           closed := some s.vault.clock }
        let t := (c.outbound.foldl (State.unbind number) s).putConsign i c'
        t.answerConsign h .consignCancel (s.boundRecords number c.outbound ++ [.consignment i]) .none c'

/-- CONSIGN_CANCEL (R131). -/
def execConsignCancel (h : ReqHead) (number : Nat) (s : State) : Host.Outcome State Fault Refusal :=
  .next (s.request h .consignCancel true (State.consignCancel h number))

/-! ## The query (R134) -/

/-- The CONSIGN_QUERY response (R134). -/
def State.consignReport (s : State) (c : Consignment) : ConsignReport :=
  { record := c, outboundStates := c.outbound.map (s.boundState c.number),
    receivedStates := c.received.map (s.boundState c.number) }

/-- CONSIGN_QUERY's checks and answer (R134). -/
def State.consignQuery (h : ReqHead) (number : Nat) (s : State) : State :=
  if idInRange number = false then s.refuse h .consignQuery .invalid
  else
    match s.consignment? number with
    | none => s.refuse h .consignQuery .notFound
    | some (_, c) => s.answer h .consignQuery [] .ok (.consign (s.consignReport c))

/-- CONSIGN_QUERY (R134). -/
def execConsignQuery (h : ReqHead) (number : Nat) (s : State) : Host.Outcome State Fault Refusal :=
  .next (s.request h .consignQuery true (State.consignQuery h number))

end Sys2Proof.Machine
end

