-- ==== Sys2Proof/Machine/Staging.lean ====
section
/-! DEFINITION. Chapter 6, the requests and the pick lapse: CHECKOUT, CANCEL, PLACED, SHELVED, SLOT_QUERY,
SET_STAGING (R79) and PICK_LAPSED. -/

namespace Sys2Proof.Machine

/-! ## CHECKOUT and CANCEL -/

/-- A CHECKOUT that passes every check: the append and the move, the response, the HOLD test, and a dispatch
attempt (R105). -/
def State.enqueue (h : ReqHead) (p : Nat) (r : CustodyRecord) (s : State) : State :=
  let entry : QueueEntry := ⟨r.label, s.vault.clock⟩
  let t := ({ s with staging := { s.staging with queue := s.staging.queue ++ [entry] } }).putRecord p
    { r with state := .requested, lastMove := some s.vault.clock }
  let needs := t.awaits [.custody p]
  ((t.answer h .checkout needs .ok (.checkout t.staging.queue.length s.vault.clock)).holdTest needs).dispatch needs

/-- CHECKOUT's checks and effect; the dose check sets INSPECT though it refuses (R104, R105). -/
def State.checkout (h : ReqHead) (label : Label) (s : State) : State :=
  if s.vault.mode = .maintenance then s.refuse h .checkout .mode
  else if goodLabel label = false then s.refuse h .checkout .invalid
  else
    match s.record? label with
    | none => s.refuse h .checkout .notFound
    | some (p, r) =>
      if r.state = .requested then s.refuse h .checkout .duplicate
      else if r.state ≠ .inVault then s.refuse h .checkout .state
      else if r.inspect then s.refuse h .checkout .state
      else if s.overDose r then
        let t := s.putRecord p { r with inspect := true }
        t.answer h .checkout (t.awaits [.custody p]) .dose .none
      else if Config.queueCapacity ≤ s.staging.queue.length then s.refuse h .checkout .full
      else s.enqueue h p r

/-- CHECKOUT (R104, R105). -/
def execCheckout (h : ReqHead) (label : Label) (s : State) : Host.Outcome State Fault Refusal :=
  .next (s.request h .checkout true (State.checkout h label))

/-- The reserved slot of a record is made FREE (R107). -/
def State.freeSlotOf (r : CustodyRecord) (s : State) : State :=
  match r.slot with
  | some n => s.putSlot n .free
  | none => s

/-- CANCEL's checks and effect, by the record's state (R107). -/
def State.cancel (h : ReqHead) (label : Label) (s : State) : State :=
  if goodLabel label = false then s.refuse h .cancel .invalid
  else
    match s.record? label with
    | none => s.refuse h .cancel .notFound
    | some (p, r) =>
      if r.state = .requested then
        let t := (s.unqueue label).putRecord p (s.backToVault r)
        let needs := t.awaits [.custody p]
        (t.answer h .cancel needs .ok (.cancelled r.state)).resumeTest needs
      else if r.state = .picking then
        let t := (s.freeSlotOf r).putRecord p (s.backToVault r)
        let needs := t.awaits [.custody p]
        (t.answer h .cancel needs .ok (.cancelled r.state)).dispatch needs
      else s.refuse h .cancel .state

/-- CANCEL (R107). -/
def execCancel (h : ReqHead) (label : Label) (s : State) : Host.Outcome State Fault Refusal :=
  .next (s.request h .cancel true (State.cancel h label))

/-! ## PLACED and SHELVED -/

/-- A PLACED that passes its checks (R113; log 42, DESIGN CHOICE). -/
def State.placeInSlot (h : ReqHead) (p : Nat) (r : CustodyRecord) (n : Fin 32) (s : State) : State :=
  let origin : Channel := .area (r.area.getD .vaultA)
  let estimate := (s.climate.held origin).map (·.temperature)
  let r' := { s.settled (some .staging) r with
    state := .stagedOut, location := none, area := some .staging, lastMove := some s.vault.clock }
  let t := (s.putSlot n (.occupied r.label .outbound origin 0 estimate)).putRecord p r'
  t.answer h .placed (t.awaits [.custody p]) .ok (.placed n (s.doseOf r'))

/-- PLACED's checks and effect (R113). -/
def State.placed (h : ReqHead) (label : Label) (slot : Nat) (s : State) : State :=
  if s.vault.mode = .maintenance then s.refuse h .placed .mode
  else if goodLabel label = false then s.refuse h .placed .invalid
  else
    match slotOfNumber slot with
    | none => s.refuse h .placed .invalid
    | some n =>
      match s.record? label with
      | none => s.refuse h .placed .notFound
      | some (p, r) =>
        if r.state ≠ .picking then s.refuse h .placed .state
        else if r.slot ≠ some n then s.refuse h .placed .wrongSlot
        else s.placeInSlot h p r n

/-- PLACED (R113). -/
def execPlaced (h : ReqHead) (label : Label) (slot : Nat) (s : State) : Host.Outcome State Fault Refusal :=
  .next (s.request h .placed true (State.placed h label slot))

/-- The record is bound to a consignment in SEALED, READY or LOCKED_OUT (R114). -/
def State.heldForCourier (s : State) (r : CustodyRecord) : Bool :=
  match r.consignment with
  | none => false
  | some n =>
    match s.consignment? n with
    | none => false
    | some (_, c) => c.state == .sealed || c.state == .ready || c.state == .lockedOut

/-- A label bound to an OPEN consignment leaves its outbound list (R115, step 1); of two copies of it, the first (log 51,
DESIGN CHOICE). -/
def State.leaveOpenConsignment (r : CustodyRecord) (s : State) : State :=
  match r.consignment with
  | none => s
  | some n =>
    match s.consignment? n with
    | none => s
    | some (i, c) => if c.state = .opened then s.putConsign i { c with outbound := c.outbound.erase r.label } else s

/-- A SHELVED that passes its checks (R115). -/
def State.shelve (h : ReqHead) (p : Nat) (r : CustodyRecord) (l : Location) (s : State) : State :=
  let r' := { s.shelvedAt l r with new := false }
  let t := ((s.leaveOpenConsignment r).freeSlotOf r).putRecord p r'
  let needs := t.awaits [.custody p]
  (t.answer h .shelved needs .ok (.shelved (s.resolve l) (s.doseOf r'))).dispatch needs

/-- SHELVED's checks and effect (R114, R115). -/
def State.shelved (h : ReqHead) (label : Label) (l : Location) (s : State) : State :=
  if s.vault.mode = .maintenance then s.refuse h .shelved .mode
  else if goodLabel label = false then s.refuse h .shelved .invalid
  else
    match s.record? label with
    | none => s.refuse h .shelved .notFound
    | some (p, r) =>
      if r.state ≠ .stagedOut ∧ r.state ≠ .readyOut ∧ r.state ≠ .readyIn then s.refuse h .shelved .state
      else if s.heldForCourier r then s.refuse h .shelved .bound
      else s.shelve h p r l

/-- SHELVED (R114, R115). -/
def execShelved (h : ReqHead) (label : Label) (l : Location) (s : State) : Host.Outcome State Fault Refusal :=
  .next (s.request h .shelved true (State.shelved h label l))

/-! ## SLOT_QUERY -/

/-- The SLOT_QUERY response for a slot (R117). -/
def State.slotReport (s : State) (n : Fin 32) : SlotReport :=
  let x := s.staging.slots[n]
  { number := n, slot := x
    secondsLeft := match x with
      | .reserved _ _ t => some (t + s.staging.settings.pickTimeout * 60 - s.vault.uptime)
      | .free => none
      | .occupied _ _ _ _ _ => none
    custody := x.label?.bind fun l => (s.record? l).map fun y => y.2.state }

/-- SLOT_QUERY's check and answer (R117). -/
def State.slotQuery (h : ReqHead) (slot : Nat) (s : State) : State :=
  match slotOfNumber slot with
  | none => s.refuse h .slotQuery .invalid
  | some n => s.answer h .slotQuery [] .ok (.slot (s.slotReport n))

/-- SLOT_QUERY (R117). -/
def execSlotQuery (h : ReqHead) (slot : Nat) (s : State) : Host.Outcome State Fault Refusal :=
  .next (s.request h .slotQuery true (State.slotQuery h slot))

/-! ## SET_STAGING and the pick lapse -/

/-- Every reservation that the timeout in force finds overdue lapses (R80, R112), in number order (log 16, DESIGN CHOICE). -/
def State.lapseOverdue (s : State) : State := (slotNumbers.foldl (fun x n => x.2.lapsePick x.1 n) ([], s)).2

/-- SET_STAGING's checks and effect: the settings, the response, a dispatch attempt when the dose limit has changed
(R108), and behind the response the lapse of every reservation that the new timeout finds overdue (R79, R80; log 55,
DEDUCED). -/
def State.setStaging (h : ReqHead) (f : StagingFields) (s : State) : State :=
  if s.vault.mode ≠ .maintenance then s.refuse h .setStaging .mode
  else
    match stagingOfFields f with
    | none => s.refuse h .setStaging .invalid
    | some g =>
      let old := s.staging.settings
      let t := ({ s with staging := { s.staging with settings := g } }).persist .config
      let needs := t.awaits [.config]
      let t := t.answer h .setStaging needs .ok (.staging old)
      let t := if g.doseLimit = old.doseLimit then t else t.dispatch needs
      t.follow .config .lapses State.lapseOverdue

/-- SET_STAGING (R79, R80). -/
def execSetStaging (h : ReqHead) (f : StagingFields) (s : State) : Host.Outcome State Fault Refusal :=
  .next (s.request h .setStaging true (State.setStaging h f))

/-- The reservation of a slot lapses when it is due, and not before the response of a SET_STAGING that has changed the
timeout, behind which every overdue one lapses (R80, R112; log 55, DEDUCED). -/
def State.pickLapse (n : Fin 32) (s : State) : State :=
  if s.store.followups.any (fun x => x.2 == .lapses) then s else (s.lapsePick [] n).2

/-- PICK_LAPSED (R112). -/
def execPickLapsed (n : Fin 32) (s : State) : Host.Outcome State Fault Refusal := .next (s.event (State.pickLapse n))

end Sys2Proof.Machine
end

