-- ==== Sys2Proof/Machine/Hatch.lean ====
section
/-! DEFINITION. Chapter 8, the requests, the door events and the latch lapse: HATCH_REQUEST, HATCH_RELEASE,
LOADED, UNLOADED, DOOR_OPENED, DOOR_CLOSED, DOOR_HELD and LATCH_LAPSE. -/

namespace Sys2Proof.Machine

/-! ## HATCH_REQUEST (R141) -/

/-- The body length fits the side that the port names: with a purpose on the archive port, without one on
the handover port, either on the facility port (R173). -/
def purposeFits : Port → PurposeField → Bool
  | .facility, _ => true
  | .archive, .absent => false
  | .archive, .load _ => true
  | .archive, .unload => true
  | .archive, .unnamed => true
  | .handover, .absent => true
  | .handover, .load _ => false
  | .handover, .unload => false
  | .handover, .unnamed => false

/-- The purpose an inner request names: LOAD with a number in 1..65535, or UNLOAD (R141; log 8, DEDUCED). -/
def purposeOf : PurposeField → Option Purpose
  | .load n => if idInRange n then some (.load n) else none
  | .unload => some .unload
  | .absent => none
  | .unnamed => none

/-- A request that has become pending is arbitrated and answered: GRANTED when its side was given possession,
and HATCH_GRANTED follows the response (R141, R155). -/
def State.answerHatch (h : ReqHead) (side : Side) (s : State) : State :=
  match s.arbitration with
  | (t, none) => t.answer h .hatchRequest [] .ok (.hatch false)
  | (t, some w) => (t.answer h .hatchRequest [] .ok (.hatch (w == side))).notify [] (.hatchGranted w)

/-- The last two checks of an inner request: LOAD n names a consignment that is SEALED or READY (R141). -/
def State.loadCheck (s : State) : Purpose → Option ResultCode
  | .unload => none
  | .load n =>
    match s.consignment? n with
    | none => some .notFound
    | some (_, c) => if c.state = .sealed ∨ c.state = .ready then none else some .state

/-- HATCH_REQUEST on the archive port, for the INNER side (R141). -/
def State.innerRequest (h : ReqHead) (purpose : PurposeField) (s : State) : State :=
  if s.vault.mode ≠ .staffed then s.refuse h .hatchRequest .mode
  else
    match purposeOf purpose with
    | none => s.refuse h .hatchRequest .invalid
    | some p =>
      if s.fire.blocked then s.refuse h .hatchRequest .fire
      else if s.hatch.arbiter.pends .inner ∨ s.hatch.arbiter.holds .inner then s.refuse h .hatchRequest .busy
      else
        match s.loadCheck p with
        | some code => s.refuse h .hatchRequest code
        | none => (s.onArbiter fun a => { a with pendingInner := some p }).answerHatch h .inner

/-- HATCH_REQUEST on the handover port, for the OUTER side (R141). -/
def State.outerRequest (h : ReqHead) (s : State) : State :=
  if s.vault.mode = .maintenance then s.refuse h .hatchRequest .mode
  else if s.fire.blocked then s.refuse h .hatchRequest .fire
  else if s.hatch.arbiter.pends .outer ∨ s.hatch.arbiter.holds .outer then s.refuse h .hatchRequest .busy
  else if s.hatch.exchange.isNone then s.refuse h .hatchRequest .state
  else (s.onArbiter fun a => { a with pendingOuter := true }).answerHatch h .outer

/-- HATCH_REQUEST's checks and effect, by the side its port names (R141, R173). -/
def State.hatchRequest (h : ReqHead) (purpose : PurposeField) (s : State) : State :=
  match h.port with
  | .archive => s.innerRequest h purpose
  | .handover => s.outerRequest h
  | .facility => s

/-- HATCH_REQUEST (R141). -/
def execHatchRequest (h : ReqHead) (purpose : PurposeField) (s : State) : Host.Outcome State Fault Refusal :=
  .next (s.request h .hatchRequest (purposeFits h.port purpose) (State.hatchRequest h purpose))

/-! ## HATCH_RELEASE (R146) -/

/-- A side's pending request is removed. -/
def Arbiter.withdraw (a : Arbiter) : Side → Arbiter
  | .inner => { a with pendingInner := none }
  | .outer => { a with pendingOuter := false }

/-- HATCH_RELEASE for a side: the response, then what the side's state calls for (R146). -/
def State.releaseSide (h : ReqHead) (side : Side) (s : State) : State :=
  let t := s.answer h .hatchRelease [] .ok .none
  if t.hatch.arbiter.holds side then
    if (t.hatch.door side).isOpen then t.onArbiter fun a => { a with releasePending := true }
    else
      let (needs, t) := t.endPossession [] side
      t.arbitrate needs
  else t.onArbiter fun a => a.withdraw side

/-- HATCH_RELEASE's effect, by the side its port names (R146, R173). -/
def State.hatchRelease (h : ReqHead) (s : State) : State :=
  match h.port with
  | .archive => s.releaseSide h .inner
  | .handover => s.releaseSide h .outer
  | .facility => s

/-- HATCH_RELEASE (R146). -/
def execHatchRelease (h : ReqHead) (s : State) : Host.Outcome State Fault Refusal :=
  .next (s.request h .hatchRelease true (State.hatchRelease h))

/-! ## LOADED (R150, R151) -/

/-- The consignment that the INNER side holds possession to load (R150). -/
def Arbiter.loading (a : Arbiter) : Option Nat :=
  if a.holds .inner then
    match a.purpose with
    | some (.load n) => some n
    | some .unload => none
    | none => none
  else none

/-- The estimate that a record's slot hands over (R65, R116). -/
def State.slotEstimate (s : State) (r : CustodyRecord) : Option Int :=
  r.slot.bind fun n => (s.staging.slots[n]).estimate?

/-- A LOADED that passes its checks (R151). -/
def State.loadEntry (h : ReqHead) (p : Nat) (r : CustodyRecord) (n : Nat) (s : State) : State :=
  let entry : HatchEntry := ⟨r.label, .outbound, n, s.slotEstimate r, false⟩
  let t := (s.freeSlotOf r).putEntries (s.hatch.entries ++ [entry])
  let t := t.putRecord p { s.settled (some .hatch) r with
    state := .inHatchOut, area := some .hatch, slot := none, lastMove := some s.vault.clock }
  let needs := t.awaits [.custody p]
  let t := t.answer h .loaded needs .ok (.loaded t.hatch.entries.length)
  let (needs, t) := t.testNumber needs n
  (t.dispatch needs).arbitrate needs

/-- LOADED's checks and effect (R150, R151). -/
def State.loaded (h : ReqHead) (label : Label) (s : State) : State :=
  if s.vault.mode = .maintenance then s.refuse h .loaded .mode
  else if goodLabel label = false then s.refuse h .loaded .invalid
  else
    match s.record? label with
    | none => s.refuse h .loaded .notFound
    | some (p, r) =>
      match s.hatch.arbiter.loading with
      | none => s.refuse h .loaded .state
      | some n =>
        if r.state ≠ .readyOut ∨ r.consignment ≠ some n then s.refuse h .loaded .state
        else
          match s.consignment? n with
          | none => s.refuse h .loaded .state
          | some (_, c) =>
            if c.state ≠ .ready then s.refuse h .loaded .state
            else if Config.hatchCapacity ≤ s.hatch.entries.length then s.refuse h .loaded .full
            else s.loadEntry h p r n

/-- LOADED (R150, R151). -/
def execLoaded (h : ReqHead) (label : Label) (s : State) : Host.Outcome State Fault Refusal :=
  .next (s.request h .loaded true (State.loaded h label))

/-! ## UNLOADED (R152, R153) -/

/-- The INNER side holds possession to unload (R152). -/
def Arbiter.unloading (a : Arbiter) : Bool := a.holds .inner && a.purpose == some .unload

/-- The staged state of an unloaded entry (R153). -/
def Direction.staged : Direction → CustodyState
  | .outbound => .stagedOut
  | .inbound => .stagedIn

/-- The origin that a slot takes at UNLOADED (R116). -/
def State.unloadOrigin (s : State) : Direction → Channel
  | .outbound => .area s.staging.settings.inboundRef
  | .inbound => .outside

/-- The consignment of an unloaded entry is CLOSED when it is RETURNING and the list holds no entry of it
(R132, R153, step 6). With the tickets that the arbitration waits on. -/
def State.closeReturned (needs : List Nat) (n : Nat) (s : State) : List Nat × State :=
  match s.consignment? n with
  | none => (needs, s)
  | some (i, c) =>
    if c.state = .returning ∧ s.hatch.entries.any (fun e => e.number == n) = false then
      let t := s.putConsign i { c with state := .closed, closed := some s.vault.clock }
      let needs := needs ++ t.awaits [.consignment i]
      (needs, t.notify needs (.consignState n .closed c.result))
    else (needs, s)

/-- An UNLOADED that passes its checks (R153). -/
def State.unloadEntry (h : ReqHead) (p : Nat) (r : CustodyRecord) (e : HatchEntry) (n : Fin 32) (s : State) : State :=
  let t := s.putEntries (s.hatch.entries.filter fun x => x.label != e.label)
  let t := t.putSlot n (.occupied e.label e.direction (s.unloadOrigin e.direction) 0 e.estimate)
  let t := t.putRecord p { s.settled (some .staging) r with
    state := e.direction.staged, area := some .staging, slot := some n, fireHeld := false,
    lastMove := some s.vault.clock }
  let needs := t.awaits [.custody p]
  let t := t.answer h .unloaded needs .ok (.unloaded n)
  let (needs, t) := match e.direction with
    | .outbound => t.testNumber needs e.number
    | .inbound => (needs, t)
  let (needs, t) := t.closeReturned needs e.number
  t.arbitrate needs

/-- UNLOADED's checks and effect (R152, R153). -/
def State.unloaded (h : ReqHead) (label : Label) (s : State) : State :=
  if s.vault.mode = .maintenance then s.refuse h .unloaded .mode
  else if goodLabel label = false then s.refuse h .unloaded .invalid
  else
    match s.record? label with
    | none => s.refuse h .unloaded .notFound
    | some (p, r) =>
      if s.hatch.arbiter.unloading = false then s.refuse h .unloaded .state
      else
        match s.hatch.entries.find? (fun e => e.label == label) with
        | none => s.refuse h .unloaded .state
        | some e =>
          match s.lowestSlot with
          | none => s.refuse h .unloaded .noSlot
          | some n => s.unloadEntry h p r e n

/-- UNLOADED (R152, R153). -/
def execUnloaded (h : ReqHead) (label : Label) (s : State) : Host.Outcome State Fault Refusal :=
  .next (s.request h .unloaded true (State.unloaded h label))

/-! ## Door events (R137 to R139) -/

/-- A normal opening of a door: the lapse is cancelled, and a WAITING outer leg is OPEN (R137, R145, R162). -/
def State.normalOpening (door : Side) (s : State) : State :=
  let t := s.onArbiter fun a => { a with lapseAt := none }
  match door, t.hatch.exchange with
  | .outer, some x => { t with hatch := { t.hatch with exchange := some { x with leg := .opened } } }
  | .outer, none => t
  | .inner, _ => t

/-- A door opening: its timer starts, and it is normal or forced by the latch at that moment (R137). -/
def State.openDoor (door : Side) (s : State) : State :=
  let d := s.hatch.door door
  if d.isOpen then s
  else
    let t := s.onDoor door fun d => { d with isOpen := true, openedAt := some s.vault.uptime, heldSent := false }
    if d.released then t.normalOpening door
    else (t.onDoor door fun d => { d with forced := true }).notify [] (.hatchAlarm .forced door)

/-- The pin of a door's contact rests at a level that two scans have sampled (R37; log 6, DESIGN CHOICE). -/
def State.settleContact (door : Side) (l : Level) (s : State) : State :=
  s.onInputs fun i => i.setContact door (Pin.settled l)

/-- DOOR_OPENED (R137). -/
def execDoorOpened (door : Side) (s : State) : Host.Outcome State Fault Refusal :=
  .next (s.event fun s => if (s.hatch.door door).isOpen then s else (s.settleContact door .high).openDoor door)

/-- What a closing does to latch and possession: both end when release-pending is set; the latch of a side
in possession stays RELEASED; that of any other is engaged (R139, steps 2 to 4). With the tickets that the
arbitration waits on. -/
def State.closingLatch (door : Side) (s : State) : List Nat × State :=
  if s.hatch.arbiter.holds door then
    if s.hatch.arbiter.releasePending then s.endPossession [] door else ([], s)
  else
    let t := s.onDoor door fun d => { d with released := false }
    match door with
    | .inner => ([], t)
    | .outer => t.outerSecured [] false

/-- A door closing (R139; log 32, DEDUCED). -/
def State.closeDoor (door : Side) (s : State) : State :=
  if (s.hatch.door door).isOpen = false then s
  else
    let t := s.onDoor door fun d => { d with isOpen := false, openedAt := none }
    let (needs, t) := t.closingLatch door
    if (t.hatch.door door).secure then (t.onDoor door fun d => { d with forced := false }).arbitrate needs else t

/-- DOOR_CLOSED (R139). -/
def execDoorClosed (door : Side) (s : State) : Host.Outcome State Fault Refusal :=
  .next (s.event fun s => if (s.hatch.door door).isOpen then (s.settleContact door .low).closeDoor door else s)

/-- A door has stood open for 180 s: HATCH_ALARM HELD once for the opening (R138). -/
def State.heldDoor (door : Side) (s : State) : State :=
  let d := s.hatch.door door
  match d.openedAt with
  | none => s
  | some t =>
    if t + Config.doorHeldTime ≤ s.vault.uptime ∧ d.isOpen = true ∧ d.heldSent = false then
      (s.notify [] (.hatchAlarm .held door)).onDoor door fun d => { d with heldSent := true }
    else s

/-- DOOR_HELD (R138). -/
def execDoorHeld (door : Side) (s : State) : Host.Outcome State Fault Refusal :=
  .next (s.event (State.heldDoor door))

/-- The latch of the side in possession lapses: the possession ends, HATCH_LAPSED is queued, and the hatch
unit arbitrates (R145). -/
def State.lapseLatch (s : State) : State :=
  let a := s.hatch.arbiter
  match a.lapseAt, a.possession, a.grant with
  | some t, true, some side =>
    if t ≤ s.vault.uptime then
      let (needs, u) := s.endPossession [] side
      (u.notify needs (.hatchLapsed side)).arbitrate needs
    else s
  | _, _, _ => s

/-- LATCH_LAPSE (R145). -/
def execLatchLapse (s : State) : Host.Outcome State Fault Refusal := .next (s.event State.lapseLatch)

end Sys2Proof.Machine
end

