-- ==== Sys2Proof/Machine/Exchange.lean ====
section
/-! DEFINITION. Chapter 9: ARRIVE, TAKEN, DEPOSITED, EXCHANGE_QUERY and EXCHANGE_TIMEOUT. The end of an
exchange is in Arbiter.lean. -/

namespace Sys2Proof.Machine

/-! ## ARRIVE (R158 to R160) -/

/-- The consignment's state lets a courier arrive: LOADED, or READY with an empty outbound list (R158). -/
def Consignment.admits (c : Consignment) : Bool :=
  c.state == .loaded || (c.state == .ready && c.outbound.isEmpty)

/-- A consignment with one mismatch more, locked out at the third (R159). -/
def Consignment.mismatched (c : Consignment) : Consignment :=
  if Config.lockoutCount ≤ c.mismatches + 1
  then { c with mismatches := c.mismatches + 1, state := .lockedOut, beforeLockout := some c.state }
  else { c with mismatches := c.mismatches + 1 }

/-- A refused comparison: the count is written, the response waits on that write, and a lockout is followed
by CONSIGN_STATE and an arbitration (R133, R143, R159). -/
def State.mismatch (h : ReqHead) (i : Fin 16) (c : Consignment) (code : ResultCode) (s : State) : State :=
  let c' := c.mismatched
  let t := s.putConsign i c'
  let needs := t.awaits [.consignment i]
  let t := t.answer h .arrive needs code .none
  if c'.state = .lockedOut then (t.notify needs (.consignState c'.number c'.state c'.result)).arbitrate needs else t

/-- A matching ARRIVE opens the exchange (R160). -/
def State.openExchange (h : ReqHead) (i : Fin 16) (c : Consignment) (s : State) : State :=
  let c' := { c with mismatches := 0, state := .exchanging }
  let t := s.putConsign i c'
  let x : Exchange := ⟨c.number, c.courier, s.vault.uptime + s.staging.settings.exchangeTimeout, .waiting, [], []⟩
  let t := { t with hatch := { t.hatch with exchange := some x } }
  let needs := t.awaits [.consignment i]
  ((t.answer h .arrive needs .ok (.arrived c.outbound c.expected)).notify needs
    (.consignState c'.number c'.state c'.result)).arbitrate needs

/-- ARRIVE's checks, comparison and effect (R158, R159, R160). -/
def State.arrive (h : ReqHead) (number courier : Nat) (token : Word16) (s : State) : State :=
  if s.vault.mode = .maintenance then s.refuse h .arrive .mode
  else if idInRange number = false ∨ idInRange courier = false then s.refuse h .arrive .invalid
  else
    match s.consignment? number with
    | none => s.refuse h .arrive .notFound
    | some (i, c) =>
      if c.state = .lockedOut then s.refuse h .arrive .lockedOut
      else if c.admits = false then s.refuse h .arrive .state
      else if s.hatch.entries.any (fun e => e.number != number) then s.refuse h .arrive .state
      else if s.hatch.exchange.isSome ∨ s.hatch.arbiter.holds .inner then s.refuse h .arrive .busy
      else if s.fire.blocked then s.refuse h .arrive .fire
      else if courier ≠ c.courier then s.mismatch h i c .courierMismatch
      else if c.token ≠ some token then s.mismatch h i c .tokenMismatch
      else s.openExchange h i c

/-- ARRIVE (R158, R159, R160). -/
def execArrive (h : ReqHead) (number courier : Nat) (token : Word16) (s : State) : Host.Outcome State Fault Refusal :=
  .next (s.request h .arrive true (State.arrive h number courier token))

/-! ## The courier's reports (R163 to R165) -/

/-- The open exchange in whose possession the courier may report: the OUTER side holds possession and the
outer leg is OPEN (R163, R164). -/
def State.reporting (s : State) : Option Exchange :=
  match s.hatch.exchange with
  | some x => if s.hatch.arbiter.holds .outer && x.leg == .opened then some x else none
  | none => none

/-- A TAKEN that passes its checks (R101, R163). -/
def State.takeEntry (h : ReqHead) (p : Nat) (r : CustodyRecord) (x : Exchange) (i : Fin 16) (c : Consignment) (s : State) :
    State :=
  let t := s.putEntries (s.hatch.entries.filter fun e => e.label != r.label)
  let t := t.putRecord p { s.settled none r with
    state := .withCourier, area := none, consignment := none, courier := some x.courier, lastMove := some s.vault.clock }
  let t := t.putConsign i { c with takenCount := c.takenCount + 1 }
  let t := { t with hatch := { t.hatch with exchange := some { x with takenList := x.takenList ++ [r.label] } } }
  t.answer h .taken (t.awaits [.hatchList, .custody p, .consignment i]) .ok (.takenCount (c.takenCount + 1))

/-- TAKEN's checks and effect (R163). -/
def State.taken (h : ReqHead) (label : Label) (s : State) : State :=
  if s.vault.mode = .maintenance then s.refuse h .taken .mode
  else if goodLabel label = false then s.refuse h .taken .invalid
  else
    match s.record? label with
    | none => s.refuse h .taken .notFound
    | some (p, r) =>
      match s.reporting with
      | none => s.refuse h .taken .state
      | some x =>
        if s.hatch.entries.any (fun e => e.label == label && e.direction == .outbound && e.number == x.number) then
          match s.consignment? x.number with
          | none => s.refuse h .taken .state
          | some (i, c) => s.takeEntry h p r x i c
        else s.refuse h .taken .state

/-- TAKEN (R163). -/
def execTaken (h : ReqHead) (label : Label) (s : State) : Host.Outcome State Fault Refusal :=
  .next (s.request h .taken true (State.taken h label))

/-- The record a deposit gives a label: of a WITH_COURIER record the stored dose is kept (R77, R92, R101). -/
def State.depositedRecord (s : State) (label : Label) (n : Nat) : Option CustodyRecord → CustodyRecord
  | some r =>
    { r with state := .inHatchIn, courier := none, area := some .hatch, mark := some s.accumulators.hatch,
             consignment := some n, lastMove := some s.vault.clock }
  | none =>
    { CustodyRecord.blank label .inHatchIn with
      area := some .hatch, consignment := some n, storedDose := some 0, mark := some s.accumulators.hatch,
      new := true, lastMove := some s.vault.clock }

/-- A DEPOSITED that passes its checks, into an existing record's place or a new one (R165; log 40, DEDUCED). -/
def State.depositEntry (h : ReqHead) (label : Label) (p : Nat) (old : Option CustodyRecord) (x : Exchange) (i : Fin 16)
    (c : Consignment) (s : State) : State :=
  let entry : HatchEntry := ⟨label, .inbound, x.number, (s.climate.held .outside).map (·.temperature), false⟩
  let t := s.putEntries (s.hatch.entries ++ [entry])
  let r := s.depositedRecord label x.number old
  let t := if old.isSome then t.putRecord p r else t.createRecord p r
  let c' := { c with received := c.received ++ [label] }
  let t := t.putConsign i c'
  let t := { t with hatch := { t.hatch with exchange := some { x with depositedList := x.depositedList ++ [label] } } }
  let needs := t.awaits [.hatchList, .custody p, .key p, .consignment i]
  (t.answer h .deposited needs .ok (.deposited t.hatch.entries.length c'.received.length old.isNone)).arbitrate needs

/-- DEPOSITED's checks and effect (R164, R165). -/
def State.deposited (h : ReqHead) (label : Label) (s : State) : State :=
  if s.vault.mode = .maintenance then s.refuse h .deposited .mode
  else if goodLabel label = false then s.refuse h .deposited .invalid
  else
    match s.reporting with
    | none => s.refuse h .deposited .state
    | some x =>
      match s.consignment? x.number with
      | none => s.refuse h .deposited .state
      | some (i, c) =>
        if c.expected ≤ c.received.length then s.refuse h .deposited .excess
        else if Config.hatchCapacity ≤ s.hatch.entries.length then s.refuse h .deposited .full
        else
          match s.record? label with
          | some (p, r) =>
            if r.state = .withCourier then s.depositEntry h label p (some r) x i c
            else s.refuse h .deposited .duplicate
          | none =>
            match s.freePlace with
            | some p => s.depositEntry h label p none x i c
            | none => s.refuse h .deposited .full

/-- DEPOSITED (R164, R165). -/
def execDeposited (h : ReqHead) (label : Label) (s : State) : Host.Outcome State Fault Refusal :=
  .next (s.request h .deposited true (State.deposited h label))

/-! ## EXCHANGE_QUERY (R169) -/

/-- The EXCHANGE_QUERY response (R169). -/
def State.exchangeReport (s : State) (x : Exchange) : ExchangeReport :=
  let c := (s.consignment? x.number).map (·.2)
  { number := x.number, courier := x.courier, leg := x.leg
    secondsLeft := if x.leg = .waiting then some (x.timeoutAt - s.vault.uptime) else none
    outbound := (c.map (·.outbound)).getD [], expected := (c.map (·.expected)).getD 0
    takenList := x.takenList, depositedList := x.depositedList
    entries := s.hatch.entries.filter fun e => e.number == x.number
    outsideDewPoint := s.climate.outsideDewPoint, marginOut := s.staging.settings.marginOut, gatePasses := s.gate
    outer := if s.hatch.arbiter.holds .outer then .possession
      else if s.hatch.arbiter.pendingOuter then .pending else .neither }

/-- EXCHANGE_QUERY's check and answer (R169). -/
def State.exchangeQuery (h : ReqHead) (s : State) : State :=
  match s.hatch.exchange with
  | none => s.refuse h .exchangeQuery .state
  | some x => s.answer h .exchangeQuery [] .ok (.exchange (s.exchangeReport x))

/-- EXCHANGE_QUERY (R169). -/
def execExchangeQuery (h : ReqHead) (s : State) : Host.Outcome State Fault Refusal :=
  .next (s.request h .exchangeQuery true (State.exchangeQuery h))

/-! ## EXCHANGE_TIMEOUT (R167) -/

/-- The state a dropped exchange gives its consignment back: LOADED, or READY for an empty list (R167). -/
def Consignment.droppedState (c : Consignment) : ConsignState := if c.outbound.isEmpty then .ready else .loaded

/-- The exchange is dropped: an outer possession ends, a pending outer request is removed, the consignment
returns to the state it came from, and both notices follow its write (R167). -/
def State.dropExchange (x : Exchange) (s : State) : State :=
  let t := if s.hatch.arbiter.holds .outer then (s.endPossession [] .outer).2 else s
  let t := t.onArbiter fun a => { a with pendingOuter := false }
  let t := { t with hatch := { t.hatch with exchange := none } }
  match t.consignment? x.number with
  | none => t.arbitrate []
  | some (i, c) =>
    let t := t.putConsign i { c with state := c.droppedState }
    let needs := t.awaits [.consignment i]
    (t.emit needs [.notice (.exchangeState x.number .lapsed none),
      .notice (.consignState x.number c.droppedState c.result)]).arbitrate needs

/-- The exchange timeout expires: with the outer leg WAITING the exchange is dropped, with the leg OPEN there
is no effect (R167). -/
def State.timeOutExchange (s : State) : State :=
  match s.hatch.exchange with
  | none => s
  | some x => if x.leg = .waiting ∧ x.timeoutAt ≤ s.vault.uptime then s.dropExchange x else s

/-- EXCHANGE_TIMEOUT (R167). -/
def execExchangeTimeout (s : State) : Host.Outcome State Fault Refusal := .next (s.event State.timeOutExchange)

end Sys2Proof.Machine
end

