-- ==== Sys2Proof/Machine/Vault.lean ====
section
/-! DEFINITION. Chapter 1: SET_MODE, SET_TIME, SET_DESCRIPTOR, the rezone sweep, the clock snapshot and the
time base. -/

namespace Sys2Proof.Machine

/-! ## SET_MODE (R10, R11) -/

/-- Both hatch latches are ENGAGED and no exchange is open (R10). -/
def State.hatchAtRest (s : State) : Bool :=
  s.hatch.exchange.isNone && !s.hatch.inner.released && !s.hatch.outer.released

/-- A pending inner request is removed by the change of mode, with HATCH_REVOKED INNER (R11). -/
def State.removeInner (s : State) : State :=
  if s.hatch.arbiter.pendingInner.isSome then
    (s.onArbiter fun a => { a with pendingInner := none }).notify [] (.hatchRevoked .inner)
  else s

/-- What the blocks do on a change of mode (R11). -/
def State.actOnMode (m : VaultMode) (s : State) : State :=
  match m with
  | .staffed => s.dispatch []
  | .unstaffed => s.removeInner
  | .maintenance => s.removeInner

/-- A change of mode: the response, the MODE notice, the blocks, and an arbitration (R11, R143). -/
def State.changeMode (h : ReqHead) (m : VaultMode) (s : State) : State :=
  let t := { s with vault := { s.vault with mode := m } }
  ((((t.answer h .setMode [] .ok .none).notify [] (.mode m)).actOnMode m).arbitrate [])

/-- SET_MODE's checks and effect (R10, R11). -/
def State.setMode (h : ReqHead) (mode : Option VaultMode) (s : State) : State :=
  match mode with
  | none => s.refuse h .setMode .invalid
  | some m =>
    if m = s.vault.mode then s.answer h .setMode [] .ok .none
    else if s.vault.mode = .maintenance ∧ s.vault.rezone.isSome = true then s.refuse h .setMode .busy
    else if m = .maintenance ∧ s.hatchAtRest = false then s.refuse h .setMode .state
    else s.changeMode h m

/-- SET_MODE (R10, R11). -/
def execSetMode (h : ReqHead) (mode : Option VaultMode) (s : State) : Host.Outcome State Fault Refusal :=
  .next (s.request h .setMode true (State.setMode h mode))

/-! ## SET_TIME and the clocks (R12 to R14) -/

/-- SET_TIME's effect (R12). -/
def State.setTime (h : ReqHead) (seconds : Clock) (s : State) : State :=
  let t := ({ s with vault := { s.vault with clock := seconds, clockSuspect := false } }).persist .snapshot
  t.answer h .setTime (t.awaits [.snapshot]) .ok .none

/-- SET_TIME (R12). -/
def execSetTime (h : ReqHead) (seconds : Clock) (s : State) : Host.Outcome State Fault Refusal :=
  .next (s.request h .setTime true (State.setTime h seconds))

/-- A second of the time base: the clock advances and wraps, uptime advances and stops at its top (R12, R14; log 4
and 20, DESIGN CHOICE). -/
def State.tick (s : State) : State :=
  { s with vault := { s.vault with clock := s.vault.clock + 1, uptime := min Config.max32 (s.vault.uptime + 1) } }

/-- TIME_BASE_SECOND (R12, R14). -/
def execTimeBaseSecond (s : State) : Host.Outcome State Fault Refusal := .next (s.event State.tick)

/-- A snapshot point, taken once at a whole multiple of 60 s of uptime, uptime 0 among them (R13; log 36, DESIGN
CHOICE). -/
def State.snapshotPoint (s : State) : State :=
  if s.vault.uptime % Config.sweepPeriod = 0 ∧ s.vault.lastSnapshotAt ≠ some s.vault.uptime then
    ({ s with vault := { s.vault with lastSnapshotAt := some s.vault.uptime } }).persist .snapshot
  else s

/-- CLOCK_SNAPSHOT (R13). -/
def execClockSnapshot (s : State) : Host.Outcome State Fault Refusal := .next (s.event State.snapshotPoint)

/-! ## SET_DESCRIPTOR and the rezone sweep (R5 to R8) -/

/-- A rezone sweep starts, at a place of the custody table (R5). -/
def State.startSweep (k : Nat) (s : State) : State := { s with vault := { s.vault with rezone := some k } }

/-- SET_DESCRIPTOR's checks and effect: the descriptor, its write, ACCEPTED, and behind that the sweep (R5; log 55,
DEDUCED). A write of equal fields starts a sweep that visits no record (R5; log 25, DEDUCED). -/
def State.setDescriptor (h : ReqHead) (index : Nat) (enabled : Option Bool) (value : Location) (length area : Nat)
    (s : State) : State :=
  if s.vault.mode ≠ .maintenance then s.refuse h .setDescriptor .mode
  else if s.vault.rezone.isSome then s.refuse h .setDescriptor .busy
  else
    match descriptorOfFields enabled value length area with
    | none => s.refuse h .setDescriptor .invalid
    | some d =>
      if hi : index < 8 then
        let i : Fin 8 := ⟨index, hi⟩
        let old := s.vault.descriptors[i]
        let start := if d = old then Config.custodyPlaces else 0
        let t := ({ s with vault := { s.vault with descriptors := s.vault.descriptors.set i d } }).persist .config
        (t.answer h .setDescriptor (t.awaits [.config]) .accepted (.descriptor old)).follow .config (.sweep start)
          (State.startSweep start)
      else s.refuse h .setDescriptor .invalid

/-- SET_DESCRIPTOR (R5). -/
def execSetDescriptor (h : ReqHead) (index : Nat) (enabled : Option Bool) (value : Location) (length area : Nat)
    (s : State) : Host.Outcome State Fault Refusal :=
  .next (s.request h .setDescriptor true (State.setDescriptor h index enabled value length area))

/-- A custody state that carries a location (R6, R85). -/
def CustodyState.shelved : CustodyState → Bool
  | .inVault => true
  | .requested => true
  | .picking => true
  | .stagedOut => false
  | .readyOut => false
  | .inHatchOut => false
  | .withCourier => false
  | .inHatchIn => false
  | .stagedIn => false
  | .readyIn => false
  | .unknown => false

/-- The next location-bearing record at or above a place, in storage order (R6). -/
def State.nextShelved (s : State) (from_ : Nat) : Option (Nat × CustodyRecord) :=
  s.custody.find? fun x => decide (from_ ≤ x.1) && x.2.state.shelved

/-- The sweep's work on a record it reaches: settled into the area its location now resolves to, if that has
changed (R6). -/
def State.rezoneRecord (p : Nat) (r : CustodyRecord) (s : State) : State :=
  match r.location with
  | none => s
  | some l =>
    if r.area = some (s.resolve l) then s
    else s.putRecord p { s.settled (some (s.resolve l)) r with area := some (s.resolve l) }

/-- The sweep in flight reaches its next record (R6). -/
def State.rezoneStep (s : State) : State :=
  match s.vault.rezone with
  | none => s
  | some k =>
    match s.nextShelved k with
    | none => s
    | some (p, r) =>
      let t := s.rezoneRecord p r
      { t with vault := { t.vault with rezone := some (p + 1) } }

/-- REZONE_SWEEP_STEP (R6). -/
def execRezoneSweepStep (s : State) : Host.Outcome State Fault Refusal := .next (s.event State.rezoneStep)

/-- The sweep has visited every record and the store holds the custody table as it stands: it ends with REZONE_DONE (R6).
While a write of the custody table has not ended the sweep is in flight, so that a restart after REZONE_DONE finds every
record in agreement with the descriptors (R8; log 38, DEDUCED). -/
def State.rezoneEnd (s : State) : State :=
  match s.vault.rezone with
  | none => s
  | some k =>
    if (s.nextShelved k).isSome || s.store.custodyWriting then s
    else ({ s with vault := { s.vault with rezone := none } }).notify [] .rezoneDone

/-- REZONE_DONE (R6). -/
def execRezoneDone (s : State) : Host.Outcome State Fault Refusal := .next (s.event State.rezoneEnd)

end Sys2Proof.Machine
end

