-- ==== Sys2Proof/Machine/LinkUnit.lean ====
section
/-! DEFINITION. Chapter 10: STATUS, SUBSCRIBE, the frames that are no request of the part, the transmitter,
and the facility link's silence. -/

namespace Sys2Proof.Machine

/-! ## STATUS (R176) -/

/-- The seconds left of a running discharge delay or vent time (R57). -/
def FireArea.secondsLeft (uptime : Nat) (x : FireArea) : Option Nat :=
  match x.state with
  | .countdown t => some (t + x.settings.delay - uptime)
  | .venting t => some (t + x.settings.vent - uptime)
  | .quiet => none
  | .preAlarm => none
  | .held => none
  | .discharged => none

/-- An area's fire fields in STATUS (R57). -/
def FireArea.report (uptime : Nat) (x : FireArea) : FireAreaReport :=
  { state := x.state.name, callLatch := x.callLatch, secondsLeft := x.secondsLeft uptime, release := x.pulse.isSome }

/-- A door in STATUS (R136). -/
def Door.report (d : Door) : DoorReport :=
  { isOpen := d.isOpen, released := d.released, secure := d.secure, forced := d.forced }

/-- The consignment states, in the order of R122. -/
def ConsignState.all : List ConsignState :=
  [.opened, .sealed, .ready, .loaded, .exchanging, .returning, .closed, .cancelled, .lockedOut]

/-- The number of consignment records in a state (R122). -/
def ConsignTable.count (t : ConsignTable) (st : ConsignState) : Nat :=
  (t.places.toList.filter fun c => (c.map (·.state)) == some st).length

/-- The slot is RESERVED (R111). -/
def Slot.isReserved : Slot → Bool
  | .reserved _ _ _ => true
  | .free => false
  | .occupied _ _ _ _ _ => false

/-- The slot is OCCUPIED (R111). -/
def Slot.isOccupied : Slot → Bool
  | .occupied _ _ _ _ _ => true
  | .free => false
  | .reserved _ _ _ => false

/-- The number of slots that pass a test (R111). -/
def State.slotCount (s : State) (f : Slot → Bool) : Nat := (s.staging.slots.toList.filter f).length

/-- The STATUS response on a port (R176). -/
def State.statusReport (s : State) (p : Port) : StatusReport :=
  let l := s.link p
  { overrun := l.overrun, mask := l.mask, linkLost := s.links.lost
    mode := s.vault.mode, clock := s.vault.clock, clockSuspect := s.vault.clockSuspect, uptime := s.vault.uptime
    rezoneInFlight := s.vault.rezone.isSome
    cause := s.store.reported, flags := s.store.flags, formatInFlight := s.store.format.inFlight
    droppedSweeps := s.climate.dropped, accumulators := s.accumulators
    detectors := tabulate fun d => s.fire.detectors[d].state
    abort := s.fire.abort, fireAreas := s.fire.areas.map (FireArea.report s.vault.uptime)
    alert := s.fire.alert, evacuate := s.fire.evacuate, trouble := s.fire.trouble, causes := s.causes
    records := s.custody.length, freePlaces := Config.custodyPlaces - s.custody.length
    unknownRecords := (s.custody.filter fun x => x.2.state == .unknown).length
    queueLength := s.staging.queue.length, holdSent := s.staging.holdSent
    slotsFree := s.slotCount Slot.isFree, slotsReserved := s.slotCount Slot.isReserved
    slotsOccupied := s.slotCount Slot.isOccupied, inboundReserve := s.staging.settings.inboundReserve
    consignFree := (s.consign.places.toList.filter (·.isNone)).length
    consignCounts := ConsignState.all.map fun st => (st, s.consign.count st)
    innerDoor := s.hatch.inner.report, outerDoor := s.hatch.outer.report
    arbiter := s.hatch.arbiter, lapseSecondsLeft := s.hatch.arbiter.lapseAt.map (· - s.vault.uptime)
    listLength := s.hatch.entries.length, listNumber := s.hatch.entries.head?.map (·.number)
    exchange := s.hatch.exchange.map fun x => (x.number, x.leg) }

/-- STATUS's answer; OVERRUN is reported as it stands and then cleared on this port (R176). -/
def State.answerStatus (h : ReqHead) (s : State) : State :=
  (s.answer h .status [] .ok (.status (s.statusReport h.port))).onLink h.port fun l => { l with overrun := false }

/-- STATUS (R176). -/
def execStatus (h : ReqHead) (s : State) : Host.Outcome State Fault Refusal :=
  .next (s.request h .status true (State.answerStatus h))

/-! ## SUBSCRIBE (R174) -/

/-- Every bit set names a class (R174). -/
def maskNamesClasses (mask : Byte) : Bool := decide (mask.toNat < 64)

/-- SUBSCRIBE's check and effect (R174). -/
def State.subscribe (h : ReqHead) (mask : Byte) (s : State) : State :=
  if maskNamesClasses mask then
    (s.onLink h.port fun l => { l with mask := mask }).answer h .subscribe [] .ok (.mask (s.link h.port).mask)
  else s.refuse h .subscribe .invalid

/-- SUBSCRIBE (R174). -/
def execSubscribe (h : ReqHead) (mask : Byte) (s : State) : Host.Outcome State Fault Refusal :=
  .next (s.request h .subscribe true (State.subscribe h mask))

/-! ## Other frames (R171, R172) -/

/-- UNKNOWN_REQUEST_KIND: the second check of R172 answers INVALID, unless the first answers BUSY; no block
is reached (R171, R172). -/
def execUnknownRequestKind (h : ReqHead) (kind : Byte) (s : State) : Host.Outcome State Fault Refusal :=
  .next (s.request h (.undefinedKind kind) false id)

/-- NON_REQUEST_FRAME: a valid frame that is not a request, for the silence timer alone (R171). -/
def execNonRequestFrame (p : Port) (_kind : Byte) (s : State) : Host.Outcome State Fault Refusal :=
  .next (s.event (State.validFrame p))

/-- Bytes that came in and made no valid frame: the receiver takes them; a discard leaves no other trace.
Bytes that make a valid frame are taken as the command of that frame, not here (R171; log 39, DESIGN CHOICE). -/
def State.discardFrame (p : Port) (bytes : List LineByte) (s : State) : State :=
  let (r, events) := (s.link p).receiver.run bytes
  if events.all (· == .discard) then s.onLink p fun l => { l with receiver := r } else s

/-- FRAME_DISCARDED (R171). -/
def execFrameDiscarded (p : Port) (bytes : List LineByte) (s : State) : Host.Outcome State Fault Refusal :=
  .next (s.event (State.discardFrame p bytes))

/-- INTER_BYTE_GAP_TIMEOUT: a frame being collected is discarded, and the receiver hunts (R171). -/
def execInterByteGapTimeout (p : Port) (s : State) : Host.Outcome State Fault Refusal :=
  .next (s.event (State.onLink p fun l => { l with receiver := .hunting }))

/-! ## The transmitter (R175) -/

/-- The RESTART response has left the facility port: the cause is handed to the store (R180). -/
def State.beginRestart (s : State) : State :=
  let t := ({ s with store := { s.store with recorded := .restart } }).persist .status
  match (t.store.pendingOf .status).getLast? with
  | some ticket => { t with store := { t.store with restart := .writing ticket } }
  | none => { t with store := { t.store with restart := .due } }

/-- The frame is the answered RESTART's response. -/
def SentFrame.isRestart : SentFrame → Bool
  | .response r => r.kind == .restart && r.code == .ok
  | .notice _ => false

/-- The frame on the line ends, and the transmitter takes the next (R175). An idle transmitter has taken the frame that
waited, so that is the one that ends (log 15, DESIGN CHOICE). -/
def Link.endFrame (l : Link) : Link := ({ l.start with sending := none }).start

/-- A frame ends on a port (R175); with the response of RESTART, its cause is handed to the store (R180). -/
def State.frameEnd (p : Port) (s : State) : State :=
  let sent := (s.link p).start.sending
  let t := if p = .facility ∧ sent.any SentFrame.isRestart = true then s.beginRestart else s
  t.onLink p Link.endFrame

/-- FRAME_TRANSMIT_END (R175). -/
def execFrameTransmitEnd (p : Port) (s : State) : Host.Outcome State Fault Refusal :=
  .next (s.event (State.frameEnd p))

/-! ## The facility link's silence (R177) -/

/-- 20 s have passed with no valid facility frame: the link is lost (R177). -/
def State.loseLink (s : State) : State :=
  if s.links.lost = false ∧ s.links.lastValid + Config.silenceTime ≤ s.vault.uptime then
    ({ s with links := { s.links with lost := true } }).updateTrouble.postNotice (.facilityLink true)
  else s

/-- FACILITY_LINK_LOST (R177). -/
def execFacilityLinkLost (s : State) : Host.Outcome State Fault Refusal := .next (s.event State.loseLink)

end Sys2Proof.Machine
end

