-- ==== Sys2Proof/Machine/Format.lean ====
section
/-! DEFINITION. Chapter 11, the format: FORMAT, the format's own writes, STORE_WRITE_END and FORMAT_DONE. -/

namespace Sys2Proof.Machine

/-! ## FORMAT's effect on the blocks (R184) -/

/-- Every detector takes its default settings, and, once all of them stand, the state they give it, with its notice
(R61). -/
def State.defaultDetectors (s : State) : State :=
  let before := s.fire.detectors
  let t := { s with fire := { s.fire with
    detectors := tabulate fun d => before[d].withSettings (DetectorSettings.default d) } }
  Detector.all.foldl (fun t d => t.changeDetector d (t.fire.detectors[d].afresh before[d].latches)) t

/-- Every record the blocks hold is emptied or takes its default; the entries into ALARM of the detectors evaluated
afresh are taken last (R61, R102, R121, R135, R184; log 29, DEDUCED), in number order (log 16, DESIGN CHOICE). A delay or
vent time that runs goes on under the default (log 57, DESIGN CHOICE). -/
def State.emptyBlocks (s : State) : State :=
  let s := { s with
    custody := []
    accumulators := ⟨0, 0, 0, 0⟩
    consign := { places := tabulate fun _ => none, counter := 0 }
    staging := { queue := [], holdSent := false, slots := tabulate fun _ => .free, settings := StagingSettings.default }
    hatch := { s.hatch with entries := [] }
    vault := { s.vault with descriptors := ConfigRecord.default.descriptors }
    climate := { s.climate with settings := ClimateSettings.defaults }
    fire := { s.fire with
      areas := s.fire.areas.map fun (x : FireArea) => { x with agentSpent := false, settings := FireSettings.default } }
    store := { s.store with flags := DamageFlags.clear } }
  Detector.all.foldl (fun s d => s.alarmAfresh d) (s.defaultDetectors).updateTrouble

/-- No area has agent-spent set or is in COUNTDOWN or a later state (R61, R184). -/
def State.formatAllowed (s : State) : Bool := s.fire.areas.all fun x => !x.agentSpent && !x.state.late

/-- The format takes effect in the state of every block, and its writes begin (R184). -/
def State.startFormat (s : State) : State :=
  ({ s with store := { s.store with format := .writing formatFirst } }).emptyBlocks

/-- FORMAT's checks and effect: the mark, its write, ACCEPTED, and behind that the effect on the blocks (R61, R184; log
50, DESIGN CHOICE; log 55, DEDUCED). -/
def State.formatRequest (h : ReqHead) (s : State) : State :=
  if s.vault.mode ≠ .maintenance then s.refuse h .format .mode
  else if s.vault.rezone.isSome then s.refuse h .format .busy
  else if s.formatAllowed = false then s.refuse h .format .state
  else
    let t := ({ s with store := { s.store with format := .marking } }).persist .status
    (t.answer h .format (t.awaits [.status]) .accepted .none).follow .status .format State.startFormat

/-- FORMAT (R184). -/
def execFormat (h : ReqHead) (s : State) : Host.Outcome State Fault Refusal :=
  .next (s.request h .format true (State.formatRequest h))

/-! ## The format's writes -/

/-- One of the format's writes: to the older copy of its record, of the content given (R179, R184). -/
def Store.formatWrite (st : Store) (r : StoreRecord) (x : Content) : Store := st.setCell r ((st.cell r).write x)

/-- The next of the format's writes ends, if there is one still to make (R184; log 18, DESIGN CHOICE). -/
def State.endFormatWrite (s : State) : State :=
  match s.store.format with
  | .none => s
  | .marking => s
  | .writing k =>
    if k < formatLimit then
      let r := StoreRecord.ofAddr k
      { s with store := { s.store.formatWrite r (s.liveContent r) with format := .writing (k + 1) } }
    else s

/-- A request does what it does behind its response (R5, R59, R80, R184). -/
def State.followUp (s : State) : Followup → State
  | .sweep k => s.startSweep k
  | .evaluate d latched => s.evaluateAfresh d latched
  | .lapses => s.lapseOverdue
  | .format => s.startFormat

/-- The requests whose responses waited on an ended write do what follows them (R5, R59, R80, R184; log 55, DEDUCED). -/
def State.endFollowups (ticket : Nat) (s : State) : State :=
  let due := (s.store.followups.filter fun x => x.1 == ticket).map (·.2)
  due.foldl State.followUp
    { s with store := { s.store with followups := s.store.followups.filter fun x => x.1 != ticket } }

/-- STORE_WRITE_END: the write in flight ends, what waited on it is queued, and what a request does behind its response is
done (R5, R59, R80, R184); where no other write is in flight, it is the format's (R179, R184). -/
def State.writeEnd (s : State) : State :=
  match s.store.inflight with
  | some j => (s.endWrite j).endFollowups j.ticket
  | none => s.endFormatWrite

/-- STORE_WRITE_END (R179). -/
def execStoreWriteEnd (s : State) : Host.Outcome State Fault Refusal := .next (s.event State.writeEnd)

/-- The records of which there are few: all but the custody table's and those a format leaves. -/
def fewRecords : List StoreRecord :=
  .config :: placeNumbers.map .consignment ++ .counter :: slotNumbers.map .slot ++
    .hatchList :: Area.all.map .accumulator ++ Area.all.map .fireFlags

/-- The write counts of a formatted record, that nothing else has written, after one write more. -/
def nextBase (base : Nat × Nat) : Nat × Nat :=
  let c := (defaultCell base .config).write (formattedContent .config)
  (c.first.count, c.second.count)

/-- The records that stand in the list of cells once the writes from `k` on have been made. -/
def Store.namedRecords (st : Store) (k : Nat) : List StoreRecord :=
  st.cells.map (·.1) ++ fewRecords ++ (List.range k).map StoreRecord.ofAddr

/-- A record's cell once the format's writes from `k` on have been made (R184). -/
def Store.finishedCell (st : Store) (k : Nat) (live : StoreRecord → Content) (r : StoreRecord) : Cell :=
  if r.formatted && decide (k ≤ r.addr) then (st.cell r).write (live r) else st.cell r

/-- The store with all the format's writes from `k` on made (R184). -/
def Store.finishFormat (st : Store) (k : Nat) (live : StoreRecord → Content) : Store :=
  let base := if k < formatLimit then nextBase st.base else st.base
  { st with
    base := base
    cells := (st.namedRecords k).foldl (fun cs r => putCell base r (st.finishedCell k live r) cs) [] }

/-- The format ends once no other write is in flight or waits: what is left of its writes has been made, the
mark is cleared and FORMAT_DONE is queued (R184; log 18, DESIGN CHOICE). -/
def State.formatEnd (s : State) : State :=
  match s.store.format, s.store.inflight with
  | .writing k, none =>
    let t := { s with store := { s.store.finishFormat k s.liveContent with format := .none } }
    (t.persist .status).postNotice .formatDone
  | _, _ => s

/-- FORMAT_DONE (R184). -/
def execFormatDone (s : State) : Host.Outcome State Fault Refusal := .next (s.event State.formatEnd)

end Sys2Proof.Machine
end

