-- ==== Sys2Proof/Machine/Restart.lean ====
section
/-! DEFINITION. Chapter 11, the restart: the checks (R181), the recovery (R182), the completion (R183), and
the commands of the supply and the reset line (R180). -/

namespace Sys2Proof.Machine

/-! ## Reading the store (R179, R181) -/

/-- A record's content at restart; none when it is damaged (R179). -/
def Store.content (st : Store) (r : StoreRecord) : Option Content := (st.cell r).read

/-- Both copies of a record fail their checks (R179). -/
def Store.damaged (st : Store) (r : StoreRecord) : Bool := (st.content r).isNone

/-- Copies found with a bad check (R179; log 9, DESIGN CHOICE). -/
def Store.spoil (st : Store) (bad : List StoreCopy) : Store :=
  bad.foldl (fun st c => st.setCell c.record ((st.cell c.record).spoil c.second)) st

/-- The configuration; all defaults when its record is damaged (R181). -/
def Store.config (st : Store) : ConfigRecord :=
  match st.content .config with
  | some (.config c) => c
  | _ => ConfigRecord.default

/-- The store status: cause, damage flags, format mark; POWER_ON, clear and clear when damaged (R180, R181; log 31,
DEDUCED). -/
def Store.status (st : Store) : Cause × DamageFlags × Bool :=
  match st.content .status with
  | some (.status c f m) => (c, f, m)
  | _ => (.powerOn, DamageFlags.clear, false)

/-- The record of a custody place: none when its key entry is damaged or marked free; UNKNOWN with DAMAGED when
the key entry names a label and the record is damaged (R102, R181), or erased (log 33, DESIGN CHOICE). A good record that
carries another label than the key entry names keeps its own (log 49, DESIGN CHOICE). -/
def Store.custodyAt (st : Store) (p : Nat) : Option CustodyRecord :=
  match st.content (.key p) with
  | some (.key (some l)) =>
    match st.content (.custody p) with
    | some (.custody (some r)) => some r
    | _ => some { CustodyRecord.blank l .unknown with damaged := true }
  | _ => none

/-- The custody places whose key entry is not the formatted one, rising. -/
def Store.keyPlaces (st : Store) : List Nat :=
  st.cells.filterMap fun x =>
    match x.1 with
    | .key p => if p < Config.custodyPlaces then some p else none
    | _ => none

/-- An accumulator; 0 when its record is damaged (R181). -/
def Store.accumulator (st : Store) (a : Area) : Nat :=
  match st.content (.accumulator a) with
  | some (.accumulator n) => n
  | _ => 0

/-- A custody record marked to an accumulator found damaged: INSPECT set and the mark 0 (R181). -/
def Store.remark (st : Store) (r : CustodyRecord) : CustodyRecord :=
  match r.area with
  | some a => if st.damaged (.accumulator a) then { r with inspect := true, mark := some 0 } else r
  | none => r

/-- Of the records that carry one label one is kept: the one of the lowest place that is not UNKNOWN, or of the lowest
place when all are (R82; log 44, DESIGN CHOICE). -/
def labelsOnce : List (Nat × CustodyRecord) → List (Nat × CustodyRecord)
  | [] => []
  | x :: xs =>
    let ys := labelsOnce xs
    if x.2.state = .unknown ∧ ys.any (fun y => y.2.label == x.2.label && y.2.state != .unknown) then ys
    else x :: ys.filter fun y => y.2.label != x.2.label

/-- The custody table as the checks leave it, each label at most once (R82, R181). -/
def Store.custodyTable (st : Store) : List (Nat × CustodyRecord) :=
  labelsOnce (st.keyPlaces.filterMap fun p => (st.custodyAt p).map fun r => (p, st.remark r))

/-- A consignment place; free when its record is damaged (R181). Each place is settled by itself: where an older copy
brings back a number that another place carries, both records stay (R122; log 58, DESIGN CHOICE). -/
def Store.consignmentAt (st : Store) (i : Fin 16) : Option Consignment :=
  match st.content (.consignment i) with
  | some (.consignment c) => c
  | _ => none

/-- The highest number carried by a consignment or custody record, or 0 (R181). -/
def Store.highestNumber (st : Store) : Nat :=
  (placeNumbers.filterMap (fun i => (st.consignmentAt i).map (·.number)) ++
    st.custodyTable.filterMap (fun x => x.2.consignment)).foldl max 0

/-- The consignment counter (R181). -/
def Store.counter (st : Store) : Nat :=
  match st.content .counter with
  | some (.counter n) => n
  | _ => st.highestNumber

/-- A stored slot with its volatile fields as after restart (R69, R120). -/
def StoredSlot.restored : StoredSlot → Slot
  | .free => .free
  | .reserved l o => .reserved l o 0
  | .occupied l d o => .occupied l d o 0 none

/-- A staging slot, before recovery; FREE when its record is damaged (R181, R182). -/
def Store.slotAt (st : Store) (n : Fin 32) : Slot :=
  match st.content (.slot n) with
  | some (.slot x) => x.restored
  | _ => .free

/-- A stored entry with its estimate absent (R65). -/
def StoredEntry.restored (e : StoredEntry) : HatchEntry := ⟨e.label, e.direction, e.number, none, e.fireHeld⟩

/-- The hatch list, before recovery; empty when its record is damaged (R181, R182). -/
def Store.hatchEntries (st : Store) : List HatchEntry :=
  match st.content .hatchList with
  | some (.hatchList es) => es.map StoredEntry.restored
  | _ => []

/-- DISCHARGED and agent-spent of an area; agent-spent alone when the record is damaged (R60). -/
def Store.fireFlags (st : Store) (a : Area) : Bool × Bool :=
  match st.content (.fireFlags a) with
  | some (.fireFlags d x) => (d, x)
  | _ => (false, true)

/-- The clock the snapshot gives; 0 when it is damaged or was never held (R13). -/
def Store.clock (st : Store) : Clock :=
  match st.content .snapshot with
  | some (.snapshot (some c)) => c
  | _ => 0

/-- The damage flags that the checks of this restart find (R181). -/
def Store.found (st : Store) : DamageFlags :=
  { config := st.damaged .config || st.damaged .status
    consign := placeNumbers.any fun i => st.damaged (.consignment i)
    dose := st.keyPlaces.any (fun p => st.damaged (.key p)) || Area.all.any fun a => st.damaged (.accumulator a) }

/-- Two sets of damage flags together (R183). -/
def DamageFlags.join (a b : DamageFlags) : DamageFlags :=
  ⟨a.config || b.config, a.consign || b.consign, a.dose || b.dose⟩

/-! ## The blocks' restart values -/

/-- An area's control record after restart (R36). -/
def AreaControl.restored (a : Area) (discharged : Bool) : AreaControl :=
  { damperOpen := !discharged, dehumidifier := false, deferred := false, lastOff := 0,
    heater := if a.heated then some false else none, highRh := false }

/-- An area's fire record after restart (R60, R62). -/
def FireArea.restored (flags : Bool × Bool) (g : FireSettings) : FireArea :=
  { state := if flags.1 then .discharged else .quiet, agentSpent := flags.2, pulse := none, callLatch := false,
    callActive := false, callRetake := false, settings := g }

/-- One value for each area, by a function. -/
def perArea {α : Type} (f : Area → α) : PerArea α := ⟨f .vaultA, f .vaultB, f .staging, f .hatch⟩

/-- The links after restart, with RESTARTED not queued yet (R178). -/
def Links.restored : Links :=
  { facility := Link.initial .facility, archive := Link.initial .archive, handover := Link.initial .handover,
    lost := false, lastValid := 0 }

/-- An input at a restart: the pin stays, and the scans begin from the level its owner treats as inactive (R37). -/
def Pin.restart (p : Pin) (inactive : Level) : Pin := { p with sample := inactive }

/-- The inputs at a restart under a configuration (R37, R38, R136, R180; log 6, DESIGN CHOICE). -/
def Inputs.restart (x : Inputs) (c : ConfigRecord) : Inputs :=
  { alarm := tabulate fun d => x.alarm[d].restart (Polarity.inactive c.detectors[d].polarity)
    fault := x.fault.map fun p => p.restart .low
    call := x.call.map fun p => p.restart .low
    abort := x.abort.restart .low, inner := x.inner.restart .low, outer := x.outer.restart .low
    reset := x.reset.restart .high, limitedReads := x.limitedReads }

/-- The blocks at their restart values, with the contents that the checks of R181 leave (R15, R36, R37, R62, R81,
R120, R135, R156, R178). A sensor read that the restart abandons is left without a stop condition, and the bus begins
empty (R17; log 52, DESIGN CHOICE). -/
def Store.restored (st : Store) (pending : List Instr) (inputs : Inputs) : State :=
  let c := st.config
  { pending := pending
    power := .running
    inputs := inputs.restart c
    links := Links.restored
    vault := { mode := .unstaffed, clock := st.clock, clockSuspect := true, uptime := 0, descriptors := c.descriptors,
               rezone := some 0, lastSnapshotAt := none }
    climate :=
      { channels := ⟨⟨.initial, .initial, .initial, .initial⟩, .initial⟩
        controls := perArea fun a => AreaControl.restored a (st.fireFlags a).1
        fan := false, sweep := .idle, bus := [], dropped := 0, lastSweepDueAt := none, settings := c.climate }
    accumulators := perArea st.accumulator
    custody := st.custodyTable
    staging := { queue := [], holdSent := false, slots := tabulate st.slotAt, settings := c.staging }
    consign := { places := tabulate st.consignmentAt, counter := st.counter }
    hatch := { inner := Door.initial, outer := Door.initial, arbiter := Arbiter.initial, entries := st.hatchEntries,
               exchange := none }
    fire :=
      { detectors := tabulate fun d => DetectorRecord.initial c.detectors[d]
        areas := perArea fun a => FireArea.restored (st.fireFlags a) (c.fire.get a)
        abort := false, alert := false, evacuate := false, trouble := false }
    store := { st with inflight := none, queue := [], nextTicket := 0, waiting := [], pulses := [], followups := [],
                       format := .none, restart := .none } }

/-! ## Recovery (R182) -/

/-- A REQUESTED or PICKING record returned to its shelf (R182, step 1). -/
def State.recoverRecord (s : State) (x : Nat × CustodyRecord) : Nat × CustodyRecord :=
  if x.2.state = .requested ∨ x.2.state = .picking then (x.1, s.backToVault x.2) else x

/-- A PICKING record names a slot (R182, step 1). -/
def CustodyRecord.picks (r : CustodyRecord) (n : Fin 32) : Bool := r.state == .picking && r.slot == some n

/-- Step 1: REQUESTED and PICKING records, and the slots that PICKING ones name made FREE. -/
def State.recoverCustody (s : State) : State :=
  { s with
    custody := s.custody.map s.recoverRecord
    staging := { s.staging with
      slots := tabulate fun n => if s.custody.any fun x => x.2.picks n then .free else s.staging.slots[n] } }

/-- The direction of the slot that a staged state calls for (R90). -/
def CustodyState.slotDirection : CustodyState → Option Direction
  | .stagedOut => some .outbound
  | .readyOut => some .outbound
  | .stagedIn => some .inbound
  | .readyIn => some .inbound
  | .inVault => none
  | .requested => none
  | .picking => none
  | .inHatchOut => none
  | .withCourier => none
  | .inHatchIn => none
  | .unknown => none

/-- The direction of the hatch list entry that a hatch state calls for (R90). -/
def CustodyState.entryDirection : CustodyState → Option Direction
  | .inHatchOut => some .outbound
  | .inHatchIn => some .inbound
  | .inVault => none
  | .requested => none
  | .picking => none
  | .stagedOut => none
  | .readyOut => none
  | .withCourier => none
  | .stagedIn => none
  | .readyIn => none
  | .unknown => none

/-- A stored slot is kept only if OCCUPIED by the label of a staged record that carries its number (R182, step 2). -/
def State.keptSlot (s : State) (n : Fin 32) : Slot :=
  match s.staging.slots[n] with
  | .free => .free
  | .reserved _ _ _ => .free
  | .occupied l d o dwell e =>
    match s.record? l with
    | none => .free
    | some (_, r) => if r.state.slotDirection.isSome ∧ r.slot = some n then .occupied l d o dwell e else .free

/-- A staged record whose slot is FREE gets it (R182, step 2). -/
def State.reoccupy (s : State) (x : Nat × CustodyRecord) : State :=
  match x.2.state.slotDirection, x.2.slot with
  | some d, some n =>
    if (s.staging.slots[n]).isFree then
      let slot : Slot := .occupied x.2.label d (s.unloadOrigin d) 0 none
      { s with staging := { s.staging with slots := s.staging.slots.set n slot } }
    else s
  | _, _ => s

/-- Step 2: the slots (log 23, DESIGN CHOICE). -/
def State.recoverSlots (s : State) : State :=
  let t := { s with staging := { s.staging with slots := tabulate s.keptSlot } }
  t.custody.foldl State.reoccupy t

/-- An entry is kept when a record with its label is in a hatch state and carries its number (R182, step 3). -/
def State.keptEntry (s : State) (e : HatchEntry) : Bool :=
  match s.record? e.label with
  | none => false
  | some (_, r) => r.state.entryDirection.isSome && r.consignment == some e.number

/-- The entry that a record in a hatch state calls for when the list holds none of its label (R182, step 3). -/
def missingEntry (es : List HatchEntry) (r : CustodyRecord) : Option HatchEntry :=
  match r.state.entryDirection with
  | none => none
  | some d =>
    if es.any (fun e => e.label == r.label) then none
    else some ⟨r.label, d, r.consignment.getD 0, none, r.fireHeld⟩

/-- Step 3: the hatch list. -/
def State.recoverList (s : State) : State :=
  let kept := s.hatch.entries.filter s.keptEntry
  { s with hatch := { s.hatch with entries := kept ++ s.custody.filterMap fun x => missingEntry kept x.2 } }

/-- A record that the list holds with an entry of a consignment gets FIRE_HELD (R182, step 4). -/
def holdOf (es : List HatchEntry) (n : Nat) (x : Nat × CustodyRecord) : Nat × CustodyRecord :=
  if es.any (fun e => e.number == n && e.label == x.2.label) then (x.1, { x.2 with fireHeld := true }) else x

/-- FIRE_HELD for the entries of a consignment and the records they hold (R182, step 4). -/
def State.holdConsignment (n : Nat) (s : State) : State :=
  { s with
    hatch := { s.hatch with entries := s.hatch.entries.map fun e => if e.number = n then { e with fireHeld := true } else e }
    custody := s.custody.map (holdOf s.hatch.entries n) }

/-- The labels, in place order, of the IN_HATCH_IN records that carry a number (R182, step 4). -/
def State.inboundOf (s : State) (n : Nat) : List Label :=
  (s.custody.filter fun x => x.2.state == .inHatchIn && x.2.consignment == some n).map fun x => x.2.label

/-- A consignment found EXCHANGING, with its result and its rebuilt count and list (R182, step 4). -/
def State.interrupted (s : State) (c : Consignment) : Consignment :=
  let inbound := s.inboundOf c.number
  let left := (c.outbound.filter fun l => s.boundState c.number l == some .inHatchOut).length
  let kept := c.received.filter inbound.contains
  let c' := { c with result := some .interrupted, takenCount := c.outbound.length - left,
                     received := kept ++ inbound.filter fun l => !kept.contains l }
  if s.hatch.entries.any (fun e => e.number == c.number) then { c' with state := .returning }
  else { c' with state := .closed, closed := some s.vault.clock }

/-- A consignment place changed without a write; the restart writes what has changed at its end. -/
def State.setConsign (i : Fin 16) (c : Consignment) (s : State) : State :=
  { s with consign := { s.consign with places := s.consign.places.set i (some c) } }

/-- Step 4: a consignment found EXCHANGING. -/
def State.recoverExchanging (s : State) (i : Fin 16) : State :=
  match s.consign.places[i] with
  | none => s
  | some c => if c.state = .exchanging then (s.holdConsignment c.number).setConsign i (s.interrupted c) else s

/-- Step 5: a RETURNING consignment whose entries are gone is CLOSED; one in SEALED, READY or LOADED takes the
result of the test, one in LOCKED_OUT takes it into its state before lockout (R129, R130). -/
def State.recoverConsign (s : State) (i : Fin 16) : State :=
  match s.consign.places[i] with
  | none => s
  | some c =>
    match c.state with
    | .returning =>
      if s.hatch.entries.any (fun e => e.number == c.number) then s
      else s.setConsign i { c with state := .closed, closed := some s.vault.clock }
    | .sealed => s.setConsign i { c with state := s.consignTest c }
    | .ready => s.setConsign i { c with state := s.consignTest c }
    | .loaded => s.setConsign i { c with state := s.consignTest c }
    | .lockedOut => s.setConsign i { c with beforeLockout := some (s.consignTest c) }
    | .opened => s
    | .exchanging => s
    | .closed => s
    | .cancelled => s

/-- The recovery (R182). -/
def State.recovered (s : State) : State :=
  let t := s.recoverCustody.recoverSlots.recoverList
  placeNumbers.foldl State.recoverConsign (placeNumbers.foldl State.recoverExchanging t)

/-! ## Completion (R183) -/

/-- A record that the blocks and the store hold differently, or that is damaged, is written (R181, R182). -/
def State.syncRecord (s : State) (r : StoreRecord) : State :=
  if s.store.content r = some (s.liveContent r) then s
  else { s with store := s.store.writeNow r (s.liveContent r) }

/-- The custody record and the key entry of each place of which one stands in the list of cells. -/
def Store.custodyRecords (st : Store) : List StoreRecord :=
  st.cells.flatMap fun x =>
    match x.1 with
    | .custody p => [.custody p, .key p]
    | .key p => [.custody p, .key p]
    | _ => []

/-- The store status is written at every restart, with POWER_ON in place of the cause and the damage flags (R180,
R183). -/
def State.writeStatus (s : State) : State := { s with store := s.store.writeNow .status (s.liveContent .status) }

/-- Every record that the checks or the recovery changed is written back, and then the store status (R180 to R183): at
most one write of a record, with all that the restart changed in it (log 54, DESIGN CHOICE). The clock snapshot is left
as it is until its next write (R13; log 47, DESIGN CHOICE). -/
def State.sync (s : State) : State := ((s.store.custodyRecords ++ fewRecords).foldl State.syncRecord s).writeStatus

/-- A notice of the restart is queued, and no transmitter takes one yet (R178, R183; log 15, DESIGN CHOICE). -/
def State.noticeAtRestart (n : NoticeBody) (s : State) : State := s.sendNotice Link.takeAtRestart n

/-- CONSIGN_STATE for a place whose consignment's state the recovery changed (R183, step 4). -/
def State.announceConsign (before : Vector (Option Consignment) 16) (s : State) (i : Fin 16) : State :=
  match before[i], s.consign.places[i] with
  | some b, some c =>
    if b.state = c.state then s else s.noticeAtRestart (.consignState c.number c.state c.result)
  | _, _ => s

/-- A restart on a store whose checks find what they find: the format completed if its mark is set, the checks,
the recovery, and the completion, which leaves RESTARTED at the head of each notice queue and each transmitter idle (R178,
R181 to R184; log 15 and 21, DESIGN CHOICE). -/
def State.restart (cause : Cause) (st : Store) (pending : List Instr) (inputs : Inputs) : State :=
  let mark := st.status.2.2
  let st' := if mark then st.finishFormat formatFirst formattedContent else st
  let flags := if mark then DamageFlags.clear else st.status.2.1.join st.found
  let t := st'.restored pending inputs
  let before := t.consign.places
  let t := t.recovered
  let t := ({ t with store := { t.store with reported := cause, recorded := .powerOn, flags := flags } }).sync
  let t := t.updateSounders.updateTrouble.noticeAtRestart (.restarted cause flags)
  let t := if mark then t.noticeAtRestart .formatDone else t
  placeNumbers.foldl (State.announceConsign before) t

/-! ## The supply and the reset line (R180) -/

/-- Every output is driven low (R180; log 22, DEDUCED). -/
def State.outputsLow (s : State) : State :=
  { s with
    climate := { s.climate with
      fan := false
      controls := s.climate.controls.map fun c =>
        { c with damperOpen := false, dehumidifier := false, deferred := false, heater := c.heater.map fun _ => false } }
    hatch := { s.hatch with inner := { s.hatch.inner with released := false }, outer := { s.hatch.outer with released := false } }
    fire := { s.fire with areas := s.fire.areas.map fun x => { x with pulse := none }, alert := false, evacuate := false,
                          trouble := false } }

/-- The store with nothing in flight and nothing waiting. -/
def Store.quiet (st : Store) : Store :=
  { st with inflight := none, queue := [], waiting := [], pulses := [], followups := [], format := .none,
            restart := .none }

/-- The copy that a write in flight was writing is left with a bad check: that of the write in flight, or of the
format's (R179, R184). -/
def Store.cutShort (st : Store) : Store :=
  match st.inflight, st.format with
  | some j, _ => st.setCell j.record (st.cell j.record).tear
  | none, .writing k => if k < formatLimit then st.setCell (.ofAddr k) (st.cell (.ofAddr k)).tear else st
  | none, .marking => st
  | none, .none => st

/-- The supply fails (R179, R180). -/
def State.loseSupply (s : State) : State :=
  if s.power = .off then s
  else { s.outputsLow with power := .off, store := s.store.cutShort.quiet }

/-- LOSS_OF_SUPPLY (R180). -/
def execLossOfSupply (s : State) : Host.Outcome State Fault Refusal := .next s.loseSupply

/-- POWER_ON: the supply rises, after a loss if there was none, and the part restarts with cause POWER_ON (R180; log
13, DEDUCED; log 14, DESIGN CHOICE). -/
def execPowerOn (bad : List StoreCopy) (s : State) : Host.Outcome State Fault Refusal :=
  let t := s.loseSupply
  .next (State.restart .powerOn (t.store.spoil bad) t.pending t.inputs)

/-- Every write that is in flight or waits ends, in order. -/
def State.drain : Nat → State → State
  | 0, s => s
  | n + 1, s =>
    match s.store.inflight with
    | some j => State.drain n (s.endWrite j)
    | none => s

/-- The number of writes in flight or waiting. -/
def Store.pendingWrites (st : Store) : Nat := st.inflight.toList.length + st.queue.length

/-- The reset line is taken LOW: the writes end, the last of them that of the cause, and the part stops with every
output low (R180; log 12, DEDUCED). What a request had yet to do behind its response is left to the restart, which sweeps
(R8), gives the detectors their states (R62), and completes a format (R184). -/
def State.resetLow (s : State) : State :=
  let t := s.drain s.store.pendingWrites
  let t := if s.store.inflight.isNone then t.endFormatWrite else t
  let t := { t with store := { t.store with recorded := .resetLine } }
  let st := t.store.writeNow .status (t.liveContent .status)
  { t.outputsLow with power := .stopped, store := st.quiet }

/-- RESET_LINE_LOW (R180). -/
def execResetLineLow (s : State) : Host.Outcome State Fault Refusal :=
  .next (s.event fun s => (s.onInputs fun i => { i with reset := Pin.settled .low }).resetLow)

/-- The reset line of a stopped part goes HIGH: the restart, with the cause recorded (R180). -/
def State.riseReset (bad : List StoreCopy) (s : State) : State :=
  let st := s.store.spoil bad
  State.restart st.status.1 st s.pending s.inputs

/-- RESET_LINE_HIGH: the restart of a part that the line has stopped, with the cause recorded (R180). -/
def execResetLineHigh (bad : List StoreCopy) (s : State) : Host.Outcome State Fault Refusal :=
  .next (if s.power = .stopped then
      (s.onInputs fun i => { i with reset := Pin.settled .high }).riseReset bad
    else s)

/-- The restart of an answered RESTART, once its response has left and its cause is written; a write in flight
ends first (R172, R180). -/
def State.takeRestart (bad : List StoreCopy) (s : State) : State :=
  if s.store.restart = .due then
    let st := (s.writeEnd.store.quiet).spoil bad
    State.restart st.status.1 st s.pending s.inputs
  else s

/-- RESTART_TAKEN (R180). -/
def execRestartTaken (bad : List StoreCopy) (s : State) : Host.Outcome State Fault Refusal :=
  .next (s.event (State.takeRestart bad))

/-- RESTART: answered OK; the restart follows once the response has left the port (R172, R180). -/
def execRestart (h : ReqHead) (s : State) : Host.Outcome State Fault Refusal :=
  .next (s.request h .restart true fun s => s.answer h .restart [] .ok .none)

end Sys2Proof.Machine
end

