-- ==== Sys2Proof/Machine/Scan.lean ====
section
/-! DEFINITION. The input scan of R37 over the part's pins, which a step makes when no command waits (log 5 and 6). -/

namespace Sys2Proof.Machine

/-- A detector's two lines at a scan: both changes are taken, and then the line condition evaluated once (R37, R38). -/
def State.scanDetector (x : Inputs) (s : State) (d : Detector) : State :=
  s.detectorLines d (x.alarm[d].taken s.fire.detectors[d].alarmLine) (x.fault[d].taken s.fire.detectors[d].faultLine)

/-- An area's call point at a scan (R37, R43). -/
def State.scanCall (x : Inputs) (s : State) (a : Area) : State :=
  match (x.call.get a).taken (levelOf (s.fire.areas.get a).callActive) with
  | .high => s.callPointOn a
  | .low => s.callPointOff a

/-- The abort-hold switch at a scan (R37, R44). -/
def State.scanAbort (x : Inputs) (s : State) : State :=
  match x.abort.taken (levelOf s.fire.abort) with
  | .high => s.abortOn
  | .low => s.abortOff

/-- A door's contact at a scan: HIGH is open (R37, R136). -/
def State.scanContact (x : Inputs) (s : State) (d : Side) : State :=
  match (x.contact d).taken (levelOf (s.hatch.door d).isOpen) with
  | .high => s.openDoor d
  | .low => s.closeDoor d

/-- The reset line at a scan of a part that runs: LOW is taken as RESET_LINE (R37, R180). -/
def State.scanReset (x : Inputs) (s : State) : State :=
  match x.reset.taken .high with
  | .high => s
  | .low => s.resetLow

/-- One input scan: every input is sampled, and each debounced change is taken by the block that owns the input; then
the inputs marked for re-taking are taken, and the reset line last (R37, R53; log 6 and 16, DESIGN CHOICE). A stopped
part samples the reset line alone, and restarts when it goes HIGH (R180); a part without supply samples nothing. -/
def State.scan (s : State) : State :=
  let x := s.inputs
  match s.power with
  | .off => s
  | .stopped =>
    let t := s.onInputs fun i => { i with reset := i.reset.scan }
    match x.reset.taken .low with
    | .high => t.riseReset []
    | .low => t
  | .running =>
    let t := s.onInputs Inputs.scan
    let t := Detector.all.foldl (State.scanDetector x) t
    let t := Area.all.foldl (State.scanCall x) t
    let t := [Side.inner, Side.outer].foldl (State.scanContact x) (t.scanAbort x)
    t.retakeInputs.scanReset x

end Sys2Proof.Machine
end

