-- ==== Sys2Proof/Machine/Dispatch.lean ====
section
/-! DEFINITION. One arm for each command, each a call of its meaning. -/

namespace Sys2Proof.Machine

/-- The effect of a command on everything but the queue of commands that wait. -/
def exec (i : Instr) (s : State) : Host.Outcome State Fault Refusal :=
  match i with
  -- supply and reset (R180)
  | .powerOn bad => Sys2Proof.Machine.execPowerOn bad s
  | .resetLineLow => Sys2Proof.Machine.execResetLineLow s
  | .resetLineHigh bad => Sys2Proof.Machine.execResetLineHigh bad s
  | .restartTaken bad => Sys2Proof.Machine.execRestartTaken bad s
  -- requests taken on every port
  | .status h => Sys2Proof.Machine.execStatus h s
  | .subscribe h mask => Sys2Proof.Machine.execSubscribe h mask s
  | .areaQuery h channel => Sys2Proof.Machine.execAreaQuery h channel s
  -- facility requests
  | .setMode h mode => Sys2Proof.Machine.execSetMode h mode s
  | .setTime h seconds => Sys2Proof.Machine.execSetTime h seconds s
  | .setDescriptor h index enabled value length area => Sys2Proof.Machine.execSetDescriptor h index enabled value length area s
  | .rezoneSweepStep => Sys2Proof.Machine.execRezoneSweepStep s
  | .rezoneDone => Sys2Proof.Machine.execRezoneDone s
  | .setClimate h area fields => Sys2Proof.Machine.execSetClimate h area fields s
  | .clearClimateFlags h area => Sys2Proof.Machine.execClearClimateFlags h area s
  | .setFireArea h area coincidence delay vent => Sys2Proof.Machine.execSetFireArea h area coincidence delay vent s
  | .setFireDetector h detector assignment polarity => Sys2Proof.Machine.execSetFireDetector h detector assignment polarity s
  | .recharged h area => Sys2Proof.Machine.execRecharged h area s
  | .isolate h detector switch => Sys2Proof.Machine.execIsolate h detector switch s
  | .confirmArea h area => Sys2Proof.Machine.execConfirmArea h area s
  | .resetArea h area => Sys2Proof.Machine.execResetArea h area s
  | .format h => Sys2Proof.Machine.execFormat h s
  | .formatDone => Sys2Proof.Machine.execFormatDone s
  | .restart h => Sys2Proof.Machine.execRestart h s
  -- custody requests
  | .enrol h label location => Sys2Proof.Machine.execEnrol h label location s
  | .retire h label => Sys2Proof.Machine.execRetire h label s
  | .relocate h label location => Sys2Proof.Machine.execRelocate h label location s
  | .custodyQuery h label => Sys2Proof.Machine.execCustodyQuery h label s
  | .doseReset h label => Sys2Proof.Machine.execDoseReset h label s
  -- check-out and staging
  | .checkout h label => Sys2Proof.Machine.execCheckout h label s
  | .cancel h label => Sys2Proof.Machine.execCancel h label s
  | .placed h label slot => Sys2Proof.Machine.execPlaced h label slot s
  | .shelved h label location => Sys2Proof.Machine.execShelved h label location s
  | .slotQuery h slot => Sys2Proof.Machine.execSlotQuery h slot s
  | .setStaging h fields => Sys2Proof.Machine.execSetStaging h fields s
  -- consignments
  | .consignOpen h courier expected => Sys2Proof.Machine.execConsignOpen h courier expected s
  | .consignAdd h number label => Sys2Proof.Machine.execConsignAdd h number label s
  | .consignRemove h number label => Sys2Proof.Machine.execConsignRemove h number label s
  | .consignSeal h number => Sys2Proof.Machine.execConsignSeal h number s
  | .consignCancel h number => Sys2Proof.Machine.execConsignCancel h number s
  | .consignUnlock h number => Sys2Proof.Machine.execConsignUnlock h number s
  | .consignQuery h number => Sys2Proof.Machine.execConsignQuery h number s
  -- the hatch
  | .hatchRequest h purpose => Sys2Proof.Machine.execHatchRequest h purpose s
  | .hatchRelease h => Sys2Proof.Machine.execHatchRelease h s
  | .loaded h label => Sys2Proof.Machine.execLoaded h label s
  | .unloaded h label => Sys2Proof.Machine.execUnloaded h label s
  -- the courier exchange
  | .arrive h number courier token => Sys2Proof.Machine.execArrive h number courier token s
  | .taken h label => Sys2Proof.Machine.execTaken h label s
  | .deposited h label => Sys2Proof.Machine.execDeposited h label s
  | .exchangeQuery h => Sys2Proof.Machine.execExchangeQuery h s
  -- other frames, and the links' own events
  | .unknownRequestKind h kind => Sys2Proof.Machine.execUnknownRequestKind h kind s
  | .nonRequestFrame port kind => Sys2Proof.Machine.execNonRequestFrame port kind s
  | .frameDiscarded port bytes => Sys2Proof.Machine.execFrameDiscarded port bytes s
  | .interByteGapTimeout port => Sys2Proof.Machine.execInterByteGapTimeout port s
  | .frameTransmitEnd port => Sys2Proof.Machine.execFrameTransmitEnd port s
  | .facilityLinkLost => Sys2Proof.Machine.execFacilityLinkLost s
  | .storeWriteEnd => Sys2Proof.Machine.execStoreWriteEnd s
  | .clockSnapshot => Sys2Proof.Machine.execClockSnapshot s
  -- the climate unit's events
  | .sweepDue => Sys2Proof.Machine.execSweepDue s
  | .sensorReadStart => Sys2Proof.Machine.execSensorReadStart s
  | .readTimeLimit => Sys2Proof.Machine.execReadTimeLimit s
  | .busWaitTimeout => Sys2Proof.Machine.execBusWaitTimeout s
  | .sampleEvent reading => Sys2Proof.Machine.execSampleEvent reading s
  -- the fire unit's events
  | .detectorLineChange detector alarmLine faultLine => Sys2Proof.Machine.execDetectorLineChange detector alarmLine faultLine s
  | .callPointOperated area => Sys2Proof.Machine.execCallPointOperated area s
  | .abortHoldActive => Sys2Proof.Machine.execAbortHoldActive s
  | .abortHoldReleased => Sys2Proof.Machine.execAbortHoldReleased s
  | .retakeAtScan => Sys2Proof.Machine.execRetakeAtScan s
  | .dischargeDelayExpiry area => Sys2Proof.Machine.execDischargeDelayExpiry area s
  | .releasePulseEnd area => Sys2Proof.Machine.execReleasePulseEnd area s
  | .ventTimeExpiry area => Sys2Proof.Machine.execVentTimeExpiry area s
  -- the hatch unit's and the staging unit's events
  | .doorOpened door => Sys2Proof.Machine.execDoorOpened door s
  | .doorClosed door => Sys2Proof.Machine.execDoorClosed door s
  | .doorHeld door => Sys2Proof.Machine.execDoorHeld door s
  | .latchLapse => Sys2Proof.Machine.execLatchLapse s
  | .pickLapsed slot => Sys2Proof.Machine.execPickLapsed slot s
  | .exchangeTimeout => Sys2Proof.Machine.execExchangeTimeout s
  | .timeBaseSecond => Sys2Proof.Machine.execTimeBaseSecond s
  | .callPointInactive area => Sys2Proof.Machine.execCallPointInactive area s
  | .lossOfSupply => Sys2Proof.Machine.execLossOfSupply s

end Sys2Proof.Machine
end

