-- ==== Sys2Proof/Machine/Step.lean ====
section
/-! DEFINITION. The step: the command at the front of the queue is taken and run with the queue's rest. -/

namespace Sys2Proof.Machine

/-- One step. When no command waits, every idle transmitter of a part that runs takes its next frame, and the part makes
an input scan (R37, R175; log 5 and 15, DESIGN CHOICE). -/
def step (s : State) : Host.Outcome State Fault Refusal :=
  match s.pending with
  | [] => .next s.startTransmitters.scan
  | c :: rest => exec c { s with pending := rest }

/-- The state with the command that a word spells at the front of its queue; unchanged where it spells none. -/
def State.withFetchWord (s : State) (nbits w : Nat) : State :=
  match decodeTableWord nbits w with
  | some c => { s with pending := c :: s.pending }
  | none => s

end Sys2Proof.Machine
end

