-- ==== Sys2Proof/Safety.lean ====
section
/-! DEFINITION. The words the statements use: when a link unit hands a request to its block, what stays as it was
while the part talks and writes, and the invariants that every step keeps. -/

namespace Sys2Proof

/-- The header, the kind and the body check of a command that is a request: whether its bytes name a request kind of
the part with a body length that the kind can have on its port (R172, R173). None for the other commands. -/
def Instr.requestOf : Instr → Option (ReqHead × Machine.RequestKind × Bool)
  | .status h => some (h, .status, true)
  | .subscribe h _ => some (h, .subscribe, true)
  | .areaQuery h _ => some (h, .areaQuery, true)
  | .setMode h _ => some (h, .setMode, true)
  | .setTime h _ => some (h, .setTime, true)
  | .setDescriptor h _ _ _ _ _ => some (h, .setDescriptor, true)
  | .setClimate h _ _ => some (h, .setClimate, true)
  | .clearClimateFlags h _ => some (h, .clearClimateFlags, true)
  | .setFireArea h _ _ _ _ => some (h, .setFire, true)
  | .setFireDetector h _ _ _ => some (h, .setFire, true)
  | .recharged h _ => some (h, .recharged, true)
  | .isolate h _ _ => some (h, .isolate, true)
  | .confirmArea h _ => some (h, .confirmArea, true)
  | .resetArea h _ => some (h, .resetArea, true)
  | .format h => some (h, .format, true)
  | .restart h => some (h, .restart, true)
  | .enrol h _ _ => some (h, .enrol, true)
  | .retire h _ => some (h, .retire, true)
  | .relocate h _ _ => some (h, .relocate, true)
  | .custodyQuery h _ => some (h, .custodyQuery, true)
  | .doseReset h _ => some (h, .doseReset, true)
  | .checkout h _ => some (h, .checkout, true)
  | .cancel h _ => some (h, .cancel, true)
  | .placed h _ _ => some (h, .placed, true)
  | .shelved h _ _ => some (h, .shelved, true)
  | .slotQuery h _ => some (h, .slotQuery, true)
  | .setStaging h _ => some (h, .setStaging, true)
  | .consignOpen h _ _ => some (h, .consignOpen, true)
  | .consignAdd h _ _ => some (h, .consignAdd, true)
  | .consignRemove h _ _ => some (h, .consignRemove, true)
  | .consignSeal h _ => some (h, .consignSeal, true)
  | .consignCancel h _ => some (h, .consignCancel, true)
  | .consignUnlock h _ => some (h, .consignUnlock, true)
  | .consignQuery h _ => some (h, .consignQuery, true)
  | .hatchRequest h p => some (h, .hatchRequest, Machine.purposeFits h.port p)
  | .hatchRelease h => some (h, .hatchRelease, true)
  | .loaded h _ => some (h, .loaded, true)
  | .unloaded h _ => some (h, .unloaded, true)
  | .arrive h _ _ _ => some (h, .arrive, true)
  | .taken h _ => some (h, .taken, true)
  | .deposited h _ => some (h, .deposited, true)
  | .exchangeQuery h => some (h, .exchangeQuery, true)
  | .unknownRequestKind h k => some (h, .undefinedKind k, false)
  | .rezoneSweepStep => none
  | .rezoneDone => none
  | .formatDone => none
  | .powerOn _ => none
  | .resetLineLow => none
  | .resetLineHigh _ => none
  | .restartTaken _ => none
  | .nonRequestFrame _ _ => none
  | .frameDiscarded _ _ => none
  | .interByteGapTimeout _ => none
  | .frameTransmitEnd _ => none
  | .facilityLinkLost => none
  | .storeWriteEnd => none
  | .clockSnapshot => none
  | .sweepDue => none
  | .sensorReadStart => none
  | .readTimeLimit => none
  | .busWaitTimeout => none
  | .sampleEvent _ => none
  | .detectorLineChange _ _ _ => none
  | .callPointOperated _ => none
  | .abortHoldActive => none
  | .abortHoldReleased => none
  | .retakeAtScan => none
  | .dischargeDelayExpiry _ => none
  | .releasePulseEnd _ => none
  | .ventTimeExpiry _ => none
  | .doorOpened _ => none
  | .doorClosed _ => none
  | .doorHeld _ => none
  | .latchLapse => none
  | .pickLapsed _ => none
  | .exchangeTimeout => none
  | .timeBaseSecond => none
  | .callPointInactive _ => none
  | .lossOfSupply => none

/-- The commands that act whether the part runs or not: the supply's and the rise of the reset line (R180). -/
def Instr.actsWhenStopped : Instr → Bool
  | .powerOn _ => true
  | .resetLineHigh _ => true
  | .lossOfSupply => true
  | _ => false

end Sys2Proof

namespace Sys2Proof.Machine

/-! ## Requests -/

/-- The part runs and a request of a kind passes the four checks of its port's link unit (R172). -/
abbrev State.accepts (s : State) (h : ReqHead) (k : RequestKind) : Prop :=
  s.power = .running ∧ (s.link h.port).outstanding = false ∧ h.lengthRight = true ∧ k.permitted h.port = true ∧
    (s.store.format = .none ∨ k = .status)

/-- The state in which the owning block takes a request: the valid frame is taken, and the outstanding flag of the
port is set (R171, R172, R177). -/
def State.received (s : State) (h : ReqHead) : State :=
  (s.validFrame h.port).onLink h.port fun l => { l with outstanding := true }

/-! ## What stays as it was -/

/-- A link unit keeps its receiver and its mask. -/
abbrev Link.holds (a b : Link) : Prop := b.receiver = a.receiver ∧ b.mask = a.mask

/-- Every link unit keeps its receiver and its mask, and the facility link's state is as it was. -/
abbrev Links.holds (a b : Links) : Prop :=
  a.facility.holds b.facility ∧ a.archive.holds b.archive ∧ a.handover.holds b.handover ∧ b.lost = a.lost ∧
    b.lastValid = a.lastValid

/-- The store keeps what is written in it: only the queue of writes and what waits on it may differ. -/
abbrev Store.holds (a b : Store) : Prop :=
  b = { a with inflight := b.inflight, queue := b.queue, nextTicket := b.nextTicket, waiting := b.waiting }

/-- The later state differs from the earlier only in what the link units queue and send and in the writes and
outputs that wait in the store. -/
abbrev State.talksOnly (s t : State) : Prop :=
  t = { s with links := t.links, store := t.store } ∧ s.links.holds t.links ∧ s.store.holds t.store

/-! ## Invariants -/

/-- The latches are safe while the part runs (R140, R143, R147, R148): a latch is RELEASED exactly for the side in
possession, so never both; the INNER side holds no possession while an exchange is open; a side that holds possession
has no pending request; and while the hatch is fire-blocked no request is pending, a possession has release-pending set,
and one of the OUTER side is marked revoked. (R162 clears the mark of an INNER one when a forced OUTER door is shut.) -/
def State.latchSafe (s : State) : Bool :=
  s.power != .running ||
    (s.hatch.inner.released == s.hatch.arbiter.holds .inner &&
     s.hatch.outer.released == s.hatch.arbiter.holds .outer &&
     (!s.hatch.arbiter.possession || s.hatch.arbiter.grant.isSome) &&
     !(s.hatch.exchange.isSome && s.hatch.arbiter.holds .inner) &&
     !(s.hatch.arbiter.holds .inner && s.hatch.arbiter.pends .inner) &&
     !(s.hatch.arbiter.holds .outer && s.hatch.arbiter.pends .outer) &&
     (!s.fire.blocked ||
       (!s.hatch.arbiter.pends .inner && !s.hatch.arbiter.pends .outer &&
        (!s.hatch.arbiter.possession || s.hatch.arbiter.releasePending) &&
        (!s.hatch.arbiter.holds .outer || s.hatch.arbiter.revoked))))

/-- The common outputs follow their causes while the part runs: ALERT and EVACUATE the fire states (R56), TROUBLE its
five causes (R57), the extract fan the areas that vent (R29). -/
def State.outputsFollow (s : State) : Bool :=
  s.power != .running ||
    (s.fire.alert == s.fire.alertOf && s.fire.evacuate == s.fire.evacuateOf && s.fire.trouble == s.causes.any &&
     s.climate.fan == s.fire.areas.any fun x => x.state.vents)

/-- The tables are in canonical form: the store's cells and the custody table (R82, R179); the custody table is empty
while a format that has taken effect is in flight (R184); and no write waits while none is in flight (R179). -/
def State.tablesCanonical (s : State) : Bool :=
  cellsWf s.store.base s.store.cells && custodyWf s.custody && (!s.store.format.inEffect || s.custody.isEmpty) &&
  (s.store.inflight.isSome || s.store.queue.isEmpty)

/-- The content of the last write of a record that is in flight or waits; none when no write of it is (R179). -/
def Store.lastWrite (st : Store) (r : StoreRecord) : Option Content :=
  (((st.inflight.toList ++ st.queue).filter fun j => j.record == r).getLast?).map (·.content)

/-- A format in effect has a record still to write, or to write again: a formatted one from its next on, and the store
status, whose mark and flags it clears at its end (R184; log 18). -/
abbrev Store.leftToFormat (st : Store) (r : StoreRecord) : Prop :=
  ∃ k, st.format = .writing k ∧ (r = .status ∨ r.formatted = true ∧ k ≤ r.addr)

/-- Every copy's write count is one of 16 bits (R179). -/
abbrev Store.countsWithin (st : Store) : Prop :=
  ∀ r, (st.cell r).first.count < 65536 ∧ (st.cell r).second.count < 65536

/-- The store follows the blocks of a part that runs (R89, R179, R184): of every record but the clock snapshot, which
holds the clock of an earlier moment (R13), the last write in flight or waiting has the content that its block holds, or
with none the cell gives that content back, or the record is left to a format in effect. -/
abbrev State.storeFollows (s : State) : Prop :=
  s.store.countsWithin ∧ (s.power = .running → ∀ r : StoreRecord, r.wf = true → r ≠ .snapshot →
    s.store.leftToFormat r ∨ s.store.lastWrite r = some (s.liveContent r) ∨
    s.store.lastWrite r = none ∧ (s.store.cell r).read = some (s.liveContent r))

/-- A link unit holds at most 16 notices and at most 4 waiting responses of its own (R175). -/
def Link.withinCapacity (l : Link) : Bool :=
  decide (l.notices.length ≤ Config.noticeCapacity) && decide ((l.responses.filter (·.own)).length ≤ Config.ownResponses)

/-- A consignment's lists and its mismatch count are within what R122 gives, and the count stands at the lockout's 3 only
from the lockout on (R159). -/
def Consignment.within (c : Consignment) : Bool :=
  decide (c.outbound.length ≤ Config.outboundCapacity) && decide (c.expected ≤ 8) && decide (c.received.length ≤ c.expected) &&
  decide (c.mismatches ≤ Config.lockoutCount) &&
  (decide (c.mismatches < Config.lockoutCount) || c.state == .lockedOut || c.state == .cancelled || c.state == .closed ||
    c.state == .returning)

/-- A custody record's stored dose and mark are counts of 32 bits (R74). -/
def CustodyRecord.within (r : CustodyRecord) : Bool :=
  r.storedDose.all (fun d => decide (d ≤ Config.max32)) && r.mark.all fun m => decide (m ≤ Config.max32)

/-- A slot's dwell is a count of 16 bits (R111). -/
def Slot.within : Slot → Bool
  | .free => true
  | .reserved _ _ _ => true
  | .occupied _ _ _ dwell _ => decide (dwell ≤ 65535)

/-- The lists and the counts of records are within their capacities (R73, R74, R111, R122, R149, R159). -/
def State.listsWithin (s : State) : Bool :=
  decide (s.hatch.entries.length ≤ Config.hatchCapacity) && s.consign.places.all (fun c => c.all Consignment.within) &&
  !s.accumulators.any (fun n => decide (Config.max32 < n)) && s.custody.all (fun x => x.2.within) &&
  s.staging.slots.all Slot.within

/-- The queues and counts stay within their capacities (R14, R17, R20, R103, R175). -/
def State.withinCapacity (s : State) : Bool :=
  s.links.facility.withinCapacity && s.links.archive.withinCapacity && s.links.handover.withinCapacity &&
  decide (s.staging.queue.length ≤ Config.queueCapacity) && decide (s.climate.dropped ≤ 65535) &&
  !s.climate.channels.any (fun c => decide (255 < c.missCount)) && decide (s.vault.uptime ≤ Config.max32)

end Sys2Proof.Machine
end

