-- ==== Sys2Proof/Certificates/Slice0/Obligations.lean ====
section
/-! DEFINITION. The statements for the provers. They speak of `s.accepts h k`, a request that passes the link unit's
checks, and of `s.received h`, the state in which its owning block takes it (Safety.lean). -/

open Sys2Proof Sys2Proof.Machine

/-! ## The step -/

/-- A step takes the command at the front of the queue and runs it with the queue's rest. When no command waits, every
idle transmitter of a part that runs takes its next frame (R175; log 15, DESIGN CHOICE), and the step makes an input
scan, which a part without supply does not (log 5 and 6, DESIGN CHOICE). -/
def Obligations.StepRunsTheFrontCommand : Prop :=
  (∀ (c : Instr) (rest : List Instr) (s : State), s.pending = c :: rest → step s = exec c { s with pending := rest }) ∧
  (∀ s : State, s.pending = [] → step s = .next s.startTransmitters.scan) ∧
  (∀ s : State, s.power = .running → s.startTransmitters = { s with links := { s.links with
    facility := s.links.facility.start, archive := s.links.archive.start, handover := s.links.handover.start } }) ∧
  (∀ s : State, s.power ≠ .running → s.startTransmitters = s) ∧
  (∀ s : State, s.power = .off → s.scan = s)

/-- Every command answers a next state, never a fault or a refusal, and leaves the queue of commands as it was; a part
that is stopped or off takes no command but those of the supply and the rise of the reset line (R180 while the reset
line stays LOW; without supply log 22, DEDUCED). -/
def Obligations.EveryCommandAnswersAndKeepsTheQueue : Prop :=
  (∀ (c : Instr) (s : State), ∃ t, exec c s = .next t ∧ t.pending = s.pending) ∧
  (∀ (c : Instr) (s : State), s.power ≠ .running → c.actsWhenStopped = false → exec c s = .next s)

/-- What the operations do and leave that every block shares: a response, a notice, and a hand-over to the store change
only what the links queue and send and what waits in the store (R89, R172, R174, R179). An output that depends on no
write is queued at once, and any other joins those that wait with the tickets of its writes, which are those of its
records' writes in flight or waiting (R89, R179; log 17). A record set at a custody place changes that place alone, and
a slot, a consignment place, or the hatch list set changes that one alone; each hands its record to the store with the
content as it now stands (R89, R111, R149, R179). -/
def Obligations.SharedOperationsLeaveTheRest : Prop :=
  (∀ (h : ReqHead) (k : RequestKind) (needs : List Nat) (code : ResultCode) (d : ResponseData) (s : State),
    s.talksOnly (s.answer h k needs code d)) ∧
  (∀ (needs : List Nat) (n : NoticeBody) (s : State), s.talksOnly (s.notify needs n)) ∧
  (∀ (r : StoreRecord) (s : State), s.talksOnly (s.persist r) ∧ (s.persist r).links = s.links) ∧
  (∀ (p : Nat) (r : CustodyRecord) (s : State),
    ({ s with custody := (s.putRecord p r).custody }).talksOnly (s.putRecord p r)) ∧
  (∀ (p q : Nat) (r : CustodyRecord) (s : State),
    recordAt q (s.putRecord p r).custody = if q = p then some r else recordAt q s.custody) ∧
  (∀ (n : Fin 32) (x : Slot) (s : State),
    ({ s with staging := { s.staging with slots := s.staging.slots.set n x } }).talksOnly (s.putSlot n x)) ∧
  (∀ (i : Fin 16) (x : Consignment) (s : State),
    ({ s with consign := { s.consign with places := s.consign.places.set i (some x) } }).talksOnly (s.putConsign i x)) ∧
  (∀ (es : List HatchEntry) (s : State),
    ({ s with hatch := { s.hatch with entries := es } }).talksOnly (s.putEntries es)) ∧
  ((∀ (h : ReqHead) (k : RequestKind) (code : ResultCode) (d : ResponseData) (needs : List Nat) (n : NoticeBody) (s : State),
     let r : Response := ⟨k, h.tag, code, d, false⟩
     s.refuse h k code = s.answer h k [] code .none ∧
     s.answer h k [] code d = s.onLink h.port (fun l => (l.start.joinResponse r).start) ∧ s.notify [] n = s.postNotice n ∧
     (needs ≠ [] →
       s.answer h k needs code d =
         { s with store := { s.store with waiting := s.store.waiting ++ [⟨needs, [.response h.port r]⟩] } } ∧
       s.notify needs n = { s with store := { s.store with waiting := s.store.waiting ++ [⟨needs, [.notice n]⟩] } })) ∧
   (∀ (needs : List Nat) (p : Port) (r : Response) (n : NoticeBody) (outs : List Out) (s : State),
     s.emit [] [] = s ∧
     s.emit [] (.response p r :: outs) = (s.onLink p fun l => (l.start.joinResponse r).start).emit [] outs ∧
     s.emit [] (.notice n :: outs) = (s.postNotice n).emit [] outs ∧
     (needs ≠ [] → s.emit needs outs =
       { s with store := { s.store with waiting := s.store.waiting ++ [⟨needs, outs⟩] } })) ∧
   (∀ (rs : List StoreRecord) (ticket : Nat) (s : State), ticket ∈ s.awaits rs ↔
     ∃ j ∈ s.store.inflight.toList ++ s.store.queue, j.record ∈ rs ∧ j.ticket = ticket)) ∧
  ((∀ (n : Fin 32) (x : Slot) (s : State), s.putSlot n x =
     ({ s with staging := { s.staging with slots := s.staging.slots.set n x } }).persist (.slot n)) ∧
   (∀ (i : Fin 16) (x : Consignment) (s : State), s.putConsign i x =
     ({ s with consign := { s.consign with places := s.consign.places.set i (some x) } }).persist (.consignment i)) ∧
   (∀ (es : List HatchEntry) (s : State), s.putEntries es =
     ({ s with hatch := { s.hatch with entries := es } }).persist .hatchList) ∧
   (∀ (p : Nat) (r : CustodyRecord) (s : State), s.putRecord p r =
     ({ s with custody := (s.putRecord p r).custody }).persist (.custody p)) ∧
   (∀ s : State,
     (∀ p, s.liveContent (.custody p) = .custody (recordAt p s.custody) ∧
       s.liveContent (.key p) = .key ((recordAt p s.custody).map fun r => r.label)) ∧
     (∀ n : Fin 32, s.liveContent (.slot n) = .slot (match s.staging.slots[n] with
       | .free => .free
       | .reserved l o _ => .reserved l o
       | .occupied l d o _ _ => .occupied l d o)) ∧
     s.liveContent .hatchList = .hatchList (s.hatch.entries.map fun e => ⟨e.label, e.direction, e.number, e.fireHeld⟩) ∧
     (∀ i : Fin 16, s.liveContent (.consignment i) = .consignment s.consign.places[i]) ∧
     s.liveContent .counter = .counter s.consign.counter ∧
     (∀ a, s.liveContent (.accumulator a) = .accumulator (s.accumulators.get a) ∧
       s.liveContent (.fireFlags a) =
         .fireFlags (decide ((s.fire.areas.get a).state = .discharged)) (s.fire.areas.get a).agentSpent) ∧
     s.liveContent .snapshot = .snapshot (some s.vault.clock) ∧
     s.liveContent .status = .status s.store.recorded s.store.flags s.store.format.inFlight ∧
     s.liveContent .config = .config
       { descriptors := s.vault.descriptors, climate := s.climate.settings, staging := s.staging.settings,
         fire := s.fire.areas.map (fun x => x.settings),
         detectors := tabulate fun d => ⟨s.fire.detectors[d].assignment, s.fire.detectors[d].polarity⟩ }))

/-! ## Chapter 10: links, requests and notices -/

/-- The link unit's four checks, in order, each with its response and no other effect than that of the valid frame
(R172); the ports each kind is permitted on and the body lengths of HATCH_REQUEST (R173). A KIND that names no request
of the part (UNKNOWN_REQUEST_KIND) is answered INVALID, or BUSY where the first check fails. -/
def Obligations.LinkUnitChecksEveryRequest : Prop :=
  (∀ (c : Instr) (h : ReqHead) (k : RequestKind) (named : Bool) (s : State), c.requestOf = some (h, k, named) →
    s.power = .running →
    let answered := fun code => (s.validFrame h.port).postResponse h.port ⟨k, h.tag, code, .none, true⟩
    ((s.link h.port).outstanding = true → exec c s = .next (answered .busy)) ∧
    ((s.link h.port).outstanding = false → (named = false ∨ h.lengthRight = false) → exec c s = .next (answered .invalid)) ∧
    ((s.link h.port).outstanding = false → named = true → h.lengthRight = true → k.permitted h.port = false →
      exec c s = .next (answered .permission)) ∧
    ((s.link h.port).outstanding = false → named = true → h.lengthRight = true → k.permitted h.port = true →
      s.store.format.inFlight = true → k ≠ .status → exec c s = .next (answered .busy))) ∧
  (∀ (h : ReqHead) (kind : Byte) (s : State), s.power = .running → (s.link h.port).outstanding = false →
    exec (.unknownRequestKind h kind) s =
      .next ((s.validFrame h.port).postResponse h.port ⟨.undefinedKind kind, h.tag, .invalid, .none, true⟩)) ∧
  (∀ (k : RequestKind) (p : Port), k.permitted p = true ↔
    (k ∈ [.status, .subscribe, .areaQuery] ∨
     (p = .facility ∧ k ∈ [.setMode, .setTime, .setDescriptor, .setClimate, .clearClimateFlags, .setFire, .recharged,
       .isolate, .confirmArea, .resetArea, .format, .restart]) ∨
     (p = .archive ∧ k ∈ [.enrol, .retire, .relocate, .custodyQuery, .doseReset, .checkout, .cancel, .placed, .shelved,
       .slotQuery, .setStaging, .consignOpen, .consignAdd, .consignRemove, .consignSeal, .consignCancel, .consignUnlock,
       .consignQuery, .hatchRequest, .hatchRelease, .loaded, .unloaded]) ∨
     (p = .handover ∧ k ∈ [.hatchRequest, .hatchRelease, .arrive, .taken, .deposited, .exchangeQuery]))) ∧
  (∀ f : PurposeField, (purposeFits .archive f = true ↔ f ≠ .absent) ∧ (purposeFits .handover f = true ↔ f = .absent) ∧
    purposeFits .facility f = true)

/-- A valid frame returns its receiver to hunting; on the facility port it restarts the silence count and restores a
lost link, with FACILITY_LINK RESTORED. 20 s of silence lose a present link, with FACILITY_LINK LOST (R171, R177);
before that, and on a link already lost, the event has no effect (log 3). SYNC is taken while hunting with its stop bit
or without it (log 37). What the receiver discards: bytes before SYNC are passed
over; LEN above 96, a missing stop bit and a wrong CRC discard the frame and return to hunting, and FRAME_DISCARDED and
a gap between bytes change nothing but the receiver (R171). Bytes that make a valid frame are no discard and leave this
command without effect (log 39). -/
def Obligations.OtherFramesAndSilence : Prop :=
  ((∀ (p : Port) (kind : Byte) (s : State), s.power = .running → p ≠ .facility →
     exec (.nonRequestFrame p kind) s = .next (s.onLink p fun l => { l with receiver := .hunting })) ∧
   (∀ (kind : Byte) (s : State), s.power = .running →
     let v := { s with links := { s.links with
       facility := { s.links.facility with receiver := .hunting }, lastValid := s.vault.uptime } }
     (s.links.lost = false → exec (.nonRequestFrame .facility kind) s = .next v) ∧
     (s.links.lost = true → exec (.nonRequestFrame .facility kind) s =
       .next (({ v with links := { v.links with lost := false } }).updateTrouble.postNotice (.facilityLink false)))) ∧
   (∀ s : State, s.power = .running → s.links.lost = false → s.links.lastValid + 20 ≤ s.vault.uptime →
     exec .facilityLinkLost s =
       .next (({ s with links := { s.links with lost := true } }).updateTrouble.postNotice (.facilityLink true))) ∧
   (∀ s : State, s.power = .running → (s.links.lost = true ∨ s.vault.uptime < s.links.lastValid + 20) →
     exec .facilityLinkLost s = .next s)) ∧
  ((∀ b : LineByte, b.value ≠ 0xA5#8 → Receiver.take .hunting b = (.hunting, .nothing)) ∧
   (∀ b : LineByte, b.value = 0xA5#8 → Receiver.take .hunting b = (.collecting [], .nothing)) ∧
   (∀ (bytes : List Byte) (b : LineByte), b.stopBit = false → Receiver.take (.collecting bytes) b = (.hunting, .discard)) ∧
   (∀ b : LineByte, b.stopBit = true → 96 < b.value.toNat → Receiver.take (.collecting []) b = (.hunting, .discard)) ∧
   (∀ (kind tag c1 c2 : Byte) (body : List Byte), body.length ≤ 96 →
     let content := BitVec.ofNat 8 body.length :: kind :: tag :: body
     [c1, c2] ≠ [highByte (crc16 content), lowByte (crc16 content)] →
     Receiver.run .hunting ((0xA5#8 :: content ++ [c1, c2]).map fun b => ⟨b, true⟩) = (.hunting, [.discard])) ∧
   (∀ (p : Port) (bytes : List LineByte) (s : State), s.power = .running →
     ((∀ e ∈ ((s.link p).receiver.run bytes).2, e = .discard) → exec (.frameDiscarded p bytes) s =
       .next (s.onLink p fun l => { l with receiver := ((s.link p).receiver.run bytes).1 })) ∧
     ((∃ e ∈ ((s.link p).receiver.run bytes).2, e ≠ .discard) → exec (.frameDiscarded p bytes) s = .next s)) ∧
   (∀ (p : Port) (s : State), s.power = .running →
     exec (.interByteGapTimeout p) s = .next (s.onLink p fun l => { l with receiver := .hunting })))

/-- The receiver reads back every frame that can be sent: from hunting, over the bytes of the frame with their stop
bits, it takes one valid frame with the KIND, the TAG and the BODY that were sent, and hunts again (R170, R171). Every
response and notice that a transmitter sends is such a frame of 6 to 102 bytes: a response's KIND is its request's plus
80 hex, its TAG the request's, and its first body byte the result code, alone unless the code is OK or ACCEPTED; a
notice's KIND is 40..7F hex, its TAG 0, and its body begins with the stamp, 4 bytes high first (R170, R172). The KIND of
a request is one number for each request kind, and a notice's one for each kind of notice in the table of R174, both
free values (log 7). After the stamp
stand the notice's fields in the order of R174's table, and after the result code the response's data: areas and
channels as their numbers, 1 to 4 and Outside as 5 (R1), location codes as aisle, bay and slot (R2), labels as their
eight characters, numbers high byte first (R170). The bytes of named values and of absent fields are free values, and the
widths of the numbers the model's (log 7); data longer than 95 bytes is cut (log 48), which STATUS's never is (its
lapse-at is not sent: log 53). SLOT_QUERY's fields stand in the order of R117's table. On the line a byte is a start bit,
its eight bits from the least significant, and a stop bit (R170). -/
def Obligations.ReceiverReadsBackEveryFrame : Prop :=
  (∀ (kind tag : Byte) (body : List Byte), body.length ≤ 96 →
    Receiver.run .hunting ((frameBytes kind tag body).map fun b => ⟨b, true⟩) = (.hunting, [.frame kind tag body])) ∧
  (∀ (kind tag : Byte) (body : List Byte),
    let content := [BitVec.ofNat 8 body.length, kind, tag] ++ body
    frameBytes kind tag body = [0xA5#8] ++ content ++ [(crc16 content >>> 8).setWidth 8, (crc16 content).setWidth 8]) ∧
  (∀ (r : Response) (l : Link), l.sending = some (.response r) →
    ∃ kind data, l.lineBytes = frameBytes (kind + 0x80#8) r.tag (r.code.byte :: data) ∧ data.length ≤ 95 ∧
      (∀ k, r.kind = .undefinedKind k → kind = k) ∧
      ((∀ k, r.kind ≠ .undefinedKind k) → kind = BitVec.ofNat 8 (0x01 + Config.requestKind r.kind % 0x3F) ∧
        0x01 ≤ kind.toNat ∧ kind.toNat ≤ 0x3F) ∧
      (r.code ≠ .ok → r.code ≠ .accepted → data = []) ∧ (r.data = .none → data = []) ∧
      (∀ m, r.code = .ok → r.data = .mask m → data = [m])) ∧
  (∀ (n : Notice) (l : Link), l.sending = some (.notice n) →
    ∃ kind content, l.lineBytes = frameBytes kind 0x00#8
        ([n.stamp.extractLsb' 24 8, n.stamp.extractLsb' 16 8, n.stamp.extractLsb' 8 8, n.stamp.extractLsb' 0 8] ++ content) ∧
      content.length ≤ 92 ∧ content = n.body.content.take 92 ∧ 0x40 ≤ kind.toNat ∧ kind.toNat ≤ 0x7F ∧
      (let row : Nat := match n.body with
         | .restarted _ _ => 0 | .mode _ => 1 | .facilityLink _ => 2 | .rezoneDone => 3 | .formatDone => 4
         | .sensorState _ _ => 5 | .climateAlarm _ _ => 6 | .fireState _ _ => 7 | .detector _ _ => 8 | .agentSpent _ => 9
         | .hold => 10 | .resume => 11 | .pick _ _ _ => 12 | .pickLapsed _ => 13 | .checkoutDropped _ _ => 14
         | .ready _ _ _ => 15 | .consignState _ _ _ => 16 | .hatchGranted _ => 17 | .hatchLapsed _ => 18
         | .hatchRevoked _ => 19 | .hatchAlarm _ _ => 20 | .exchangeState _ _ _ => 21
       kind = BitVec.ofNat 8 (0x40 + Config.noticeKind row % 0x40)) ∧
      (n.body = .rezoneDone ∨ n.body = .formatDone ∨ n.body = .hold ∨ n.body = .resume → content = []) ∧
      (∀ l, n.body = .pickLapsed l → l.length = 8 → content = l) ∧
      (∀ l, l.length = 8 → ((∃ loc k, n.body = .pick l loc k) ∨ (∃ w, n.body = .checkoutDropped l w) ∨
        (∃ d k, n.body = .ready l d k)) → content.take 8 = l)) ∧
  ((∀ aisle bay slot : Nat, aisle < 256 → bay < 256 → slot < 256 →
     locationBytes (BitVec.ofNat 24 (aisle * 65536 + bay * 256 + slot)) =
       [BitVec.ofNat 8 aisle, BitVec.ofNat 8 bay, BitVec.ofNat 8 slot]) ∧
   Area.vaultA.number = 1 ∧ Area.vaultB.number = 2 ∧ Area.staging.number = 3 ∧ Area.hatch.number = 4 ∧
   (∀ a, Channel.number (.area a) = a.number) ∧ Channel.outside.number = 5) ∧
  (let two := fun n : Nat => [BitVec.ofNat 8 (n / 256), BitVec.ofNat 8 n]
   let code := fun x : Named => Config.nameByte x
   let result := fun r : Option ExchangeResult => match r with
     | some x => [code (.result x)]
     | none => [Config.absentByte 1 0]
   ∀ n : NoticeBody, n.content = match n with
     | .restarted c f => [code (.cause c), BitVec.ofNat 8 (f.config.toNat + 2 * f.consign.toNat + 4 * f.dose.toNat)]
     | .mode m => [code (.mode m)]
     | .facilityLink lost => [code (.linkLost lost)]
     | .rezoneDone => []
     | .formatDone => []
     | .sensorState c st => [BitVec.ofNat 8 c.number, code (.channelState st)]
     | .climateAlarm a humidity => BitVec.ofNat 8 a.number :: two humidity
     | .fireState a st => [BitVec.ofNat 8 a.number, code (.fire st)]
     | .detector d st => [BitVec.ofNat 8 (d.val + 1), code (.detector st)]
     | .agentSpent a => [BitVec.ofNat 8 a.number]
     | .hold => []
     | .resume => []
     | .pick l loc k => l ++ (match loc with
         | some x => locationBytes x
         | none => [Config.absentByte 3 0, Config.absentByte 3 1, Config.absentByte 3 2]) ++ [BitVec.ofNat 8 k.val]
     | .pickLapsed l => l
     | .checkoutDropped l reason => l ++ [code (.dropReason reason)]
     | .ready l d k => l ++ [code (.direction d), BitVec.ofNat 8 k.val]
     | .consignState number st r => two number ++ [code (.consign st)] ++ result r
     | .hatchGranted w => [code (.side w)]
     | .hatchLapsed w => [code (.side w)]
     | .hatchRevoked w => [code (.side w)]
     | .hatchAlarm k w => [code (.alarm k), code (.side w)]
     | .exchangeState number e r => two number ++ [code (.exchange e)] ++ result r) ∧
  ((∀ r : Response, r.code = .ok ∨ r.code = .accepted → r.body = r.code.byte :: r.data.bytes.take 95) ∧
   (∀ a, (ResponseData.enrolled a).bytes = [BitVec.ofNat 8 a.number]) ∧
   (∀ a n, let bytes := [BitVec.ofNat 8 a.number, BitVec.ofNat 8 (n / 16777216), BitVec.ofNat 8 (n / 65536),
       BitVec.ofNat 8 (n / 256), BitVec.ofNat 8 n]
     (ResponseData.relocated a (some n)).bytes = bytes ∧ (ResponseData.shelved a (some n)).bytes = bytes) ∧
   (∀ n, (ResponseData.consignNumber n).bytes = [BitVec.ofNat 8 (n / 256), BitVec.ofNat 8 n]) ∧
   (∀ d : Descriptor, (ResponseData.descriptor d).bytes = [BitVec.ofNat 8 d.enabled.toNat] ++ locationBytes d.prefixValue ++
     [BitVec.ofNat 8 d.prefixLength, BitVec.ofNat 8 d.area.number]) ∧
   (∀ (r : CustodyReport) (loc : Location) (a : Area), r.record.location = some loc → r.record.area = some a →
     ∃ rest, (ResponseData.custody r).bytes =
       r.record.label ++ [Config.nameByte (.custody r.record.state)] ++ locationBytes loc ++ [BitVec.ofNat 8 a.number] ++ rest) ∧
   (∀ ls expected, ∃ data, (ResponseData.arrived ls expected).bytes = BitVec.ofNat 8 ls.length :: data ∧
     data = ls.flatten ++ [BitVec.ofNat 8 expected]) ∧
   (∀ (p : Port) (s : State), (ResponseData.status (s.statusReport p)).bytes.length = 93)) ∧
  (∀ (n : Fin 32) (l : Label) (a : Area) (m left : Nat) (st : CustodyState),
    (ResponseData.slot ⟨n, .reserved l a m, some left, some st⟩).bytes = [BitVec.ofNat 8 n.val, Config.nameByte .slotReserved] ++
      l ++ [Config.nameByte (.direction .outbound), BitVec.ofNat 8 a.number, BitVec.ofNat 8 (m / 16777216),
        BitVec.ofNat 8 (m / 65536), BitVec.ofNat 8 (m / 256), BitVec.ofNat 8 m, BitVec.ofNat 8 (left / 256),
        BitVec.ofNat 8 left, Config.absentByte 2 0, Config.absentByte 2 1, Config.absentByte 2 0, Config.absentByte 2 1,
        Config.nameByte (.custody st)]) ∧
  ((∀ x : LineByte, bitsOfByte x = [.start, .data (x.value.getLsbD 0), .data (x.value.getLsbD 1), .data (x.value.getLsbD 2),
      .data (x.value.getLsbD 3), .data (x.value.getLsbD 4), .data (x.value.getLsbD 5), .data (x.value.getLsbD 6),
      .data (x.value.getLsbD 7), .stop x.stopBit] ∧ byteOfBits (bitsOfByte x) = some x) ∧
   (∀ (bits : List LineBit) (x : LineByte), byteOfBits bits = some x → bits = bitsOfByte x) ∧
   (∀ l : Link, l.lineBits = l.lineBytes.flatMap fun b => bitsOfByte ⟨b, true⟩)) ∧
  (∀ l : Link, l.sending = none → l.lineBytes = []) ∧
  (∀ l : Link, l.sending.isSome = true → 6 ≤ l.lineBytes.length ∧ l.lineBytes.length ≤ 102)

/-- A notice changes the link units alone: each port that its rule names queues it, with the clock's stamp, when its
class is in the port's mask or the notice goes there whatever the masks (R174); and a queue of 16 makes room or
discards by the class of the new notice, and sets OVERRUN (R175). The class of each notice is that of R174's table, with
its bit; RESTARTED and HATCH_ALARM go out whatever the masks, RESTARTED on every port and HATCH_ALARM on the facility and
archive ports; FACILITY_LINK goes to the archive and handover ports, and the other HATCH notices of a side to that side's
port (R155, R174, R177). An idle transmitter has taken the frame that waited before, or takes the notice in the step that
queues it (log 15). -/
def Obligations.NoticesAreQueuedByClass : Prop :=
  (∀ (n : NoticeBody) (s : State), s.postNotice n = { s with links := (s.postNotice n).links }) ∧
  (∀ (n : NoticeBody) (p : Port) (s : State), (s.postNotice n).link p =
    if p ∈ n.ports ∧ (n.fixed = true ∨ (s.link p).mask.getLsbD n.cls.bit = true)
    then ((s.link p).start.joinNotice ⟨s.vault.clock, n⟩).start else s.link p) ∧
  (∀ (l : Link) (n : Notice), l.notices.length < 16 → l.joinNotice n = { l with notices := l.notices ++ [n] }) ∧
  (∀ (l : Link) (n : Notice), l.notices.length = 16 → n.body.cls ≠ .fire → l.joinNotice n = { l with overrun := true }) ∧
  (∀ (l : Link) (n m : Notice) (before after : List Notice), l.notices.length = 16 → n.body.cls = .fire →
    l.notices = before ++ m :: after → (∀ x ∈ before, x.body.cls = .fire) → m.body.cls ≠ .fire →
    l.joinNotice n = { l with notices := before ++ after ++ [n], overrun := true }) ∧
  (∀ (l : Link) (n m : Notice) (rest : List Notice), l.notices.length = 16 → n.body.cls = .fire →
    l.notices = m :: rest → (∀ x ∈ l.notices, x.body.cls = .fire) →
    l.joinNotice n = { l with notices := rest ++ [n], overrun := true }) ∧
  ((∀ n : NoticeBody, n.cls = match n with
     | .restarted _ _ | .mode _ | .facilityLink _ | .rezoneDone | .formatDone => .system
     | .sensorState _ _ | .climateAlarm _ _ => .climate
     | .fireState _ _ | .detector _ _ | .agentSpent _ => .fire
     | .hold | .resume | .pick _ _ _ | .pickLapsed _ | .checkoutDropped _ _ => .queue
     | .ready _ _ _ | .consignState _ _ _ => .custody
     | .hatchGranted _ | .hatchLapsed _ | .hatchRevoked _ | .hatchAlarm _ _ | .exchangeState _ _ _ => .hatch) ∧
   (NoticeClass.bit .system = 0 ∧ NoticeClass.bit .climate = 1 ∧ NoticeClass.bit .fire = 2 ∧ NoticeClass.bit .custody = 3 ∧
     NoticeClass.bit .queue = 4 ∧ NoticeClass.bit .hatch = 5) ∧
   (∀ n : NoticeBody, n.fixed = true ↔ (∃ c f, n = .restarted c f) ∨ ∃ k w, n = .hatchAlarm k w) ∧
   (∀ n : NoticeBody, n.ports = match n with
     | .facilityLink _ => [.archive, .handover]
     | .hatchAlarm _ _ => [.facility, .archive]
     | .hatchGranted w | .hatchLapsed w | .hatchRevoked w => match w with
       | .inner => [.archive]
       | .outer => [.handover]
     | _ => [.facility, .archive, .handover]))

/-- The transmitter sends one frame at a time: when one ends the oldest waiting response goes next, else the notice at
the head of the queue, which leaves it. A block's response joins the waiting ones and clears the outstanding flag; of
its own a link unit holds four and discards a fifth (R175). The end of RESTART's response on the facility port hands
the cause to the store as well, and the restart waits for that write (R172, R180). An idle transmitter has taken the
frame that waited, so that is the one that FRAME_TRANSMIT_END ends (log 15). -/
def Obligations.TransmitterSendsResponsesFirst : Prop :=
  (∀ (l : Link) (f : SentFrame), l.sending = some f → l.start = l) ∧
  (∀ (l : Link) (r : Response) (rs : List Response), l.sending = none → l.responses = r :: rs →
    l.start = { l with sending := some (.response r), responses := rs }) ∧
  (∀ (l : Link) (n : Notice) (ns : List Notice), l.sending = none → l.responses = [] → l.notices = n :: ns →
    l.start = { l with sending := some (.notice n), notices := ns }) ∧
  (∀ l : Link, l.sending = none → l.responses = [] → l.notices = [] → l.start = l) ∧
  (∀ (l : Link) (r : Response), r.own = false →
    l.joinResponse r = { l with responses := l.responses ++ [r], outstanding := false }) ∧
  (∀ (l : Link) (r : Response), r.own = true → l.joinResponse r =
    if (l.responses.filter (·.own)).length < 4 then { l with responses := l.responses ++ [r] } else l) ∧
  (∀ (p : Port) (s : State), s.power = .running →
    ¬ (p = .facility ∧ ∃ r, (s.link p).start.sending = some (.response r) ∧ r.kind = .restart ∧ r.code = .ok) →
    exec (.frameTransmitEnd p) s = .next (s.onLink p fun l => ({ l.start with sending := none }).start)) ∧
  (∀ (r : Response) (s : State), s.power = .running → (s.link .facility).start.sending = some (.response r) →
    r.kind = .restart → r.code = .ok →
    ∃ t ticket, exec (.frameTransmitEnd .facility) s = .next t ∧
      t.links = (s.onLink .facility fun l => ({ l.start with sending := none }).start).links ∧
      t.store.recorded = .restart ∧ t.store.restart = .writing ticket ∧
      (∃ j ∈ t.store.inflight.toList ++ t.store.queue, j.ticket = ticket ∧ j.record = .status ∧
        j.content = .status .restart s.store.flags s.store.format.inFlight) ∧
      t = { s with links := t.links, store := t.store } ∧ t.store.cells = s.store.cells ∧ t.store.flags = s.store.flags)

/-- SUBSCRIBE replaces the port's mask whole and answers the previous one; a byte that names more than the six classes
is INVALID (R174). STATUS answers with every field of R176 as its block holds it and clears OVERRUN on its port alone:
the link, vault, store and climate fields, the accumulators, the fire unit's state with the seconds left of running
delays and vent times and the five causes of TROUBLE (R57), the counts of the custody table (R82), of the slots (R111)
and of the consignments by state (R122), both doors (R136), the arbiter with the seconds left before a lapse (R140), the
hatch list's length and number (R149), and the open exchange (R157). -/
def Obligations.SubscribeAndStatusAnswer : Prop :=
  (∀ (h : ReqHead) (mask : Byte) (s : State), s.accepts h .subscribe →
    let u := s.received h
    (mask.toNat < 64 → exec (.subscribe h mask) s =
      .next ((u.onLink h.port fun l => { l with mask := mask }).answer h .subscribe [] .ok (.mask (s.link h.port).mask))) ∧
    (64 ≤ mask.toNat → exec (.subscribe h mask) s = .next (u.refuse h .subscribe .invalid))) ∧
  (∀ (h : ReqHead) (s : State), s.accepts h .status →
    let u := s.received h
    ∃ r : StatusReport, exec (.status h) s =
        .next ((u.answer h .status [] .ok (.status r)).onLink h.port fun l => { l with overrun := false }) ∧
      r.overrun = (u.link h.port).overrun ∧ r.mask = (s.link h.port).mask ∧ r.linkLost = u.links.lost ∧
      r.mode = s.vault.mode ∧ r.clock = s.vault.clock ∧ r.clockSuspect = s.vault.clockSuspect ∧
      r.uptime = s.vault.uptime ∧ r.rezoneInFlight = s.vault.rezone.isSome ∧ r.cause = s.store.reported ∧
      r.flags = s.store.flags ∧ r.formatInFlight = s.store.format.inFlight ∧ r.droppedSweeps = s.climate.dropped ∧
      r.accumulators = s.accumulators ∧ (∀ d : Detector, r.detectors[d] = s.fire.detectors[d].state) ∧
      r.abort = s.fire.abort ∧ r.alert = s.fire.alert ∧ r.evacuate = s.fire.evacuate ∧ r.trouble = u.fire.trouble ∧
      (∀ a : Area,
        let x := s.fire.areas.get a
        (r.fireAreas.get a).state = x.state.name ∧ (r.fireAreas.get a).callLatch = x.callLatch ∧
        (r.fireAreas.get a).release = x.pulse.isSome ∧
        (∀ m, x.state = .countdown m → (r.fireAreas.get a).secondsLeft = some (m + x.settings.delay - s.vault.uptime)) ∧
        (∀ m, x.state = .venting m → (r.fireAreas.get a).secondsLeft = some (m + x.settings.vent - s.vault.uptime)) ∧
        ((∀ m, x.state ≠ .countdown m ∧ x.state ≠ .venting m) → (r.fireAreas.get a).secondsLeft = none)) ∧
      (r.causes.detectorFault = true ↔ ∃ d : Detector, s.fire.detectors[d].state = .fault) ∧
      (r.causes.sensorFailed = true ↔ ∃ c : Channel, (s.climate.channels.get c).state = .failed) ∧
      (r.causes.linkLost = true ↔ u.links.lost = true) ∧
      (r.causes.storeDamage = true ↔ s.store.flags.config = true ∨ s.store.flags.consign = true ∨ s.store.flags.dose = true) ∧
      (r.causes.protectionOff = true ↔
        ∃ a : Area, ∀ d : Detector, s.fire.detectors[d].assignment = some a → s.fire.detectors[d].state = .isolated) ∧
      r.causes = u.causes ∧ r.records = s.custody.length ∧ r.freePlaces = 2048 - s.custody.length ∧
      r.unknownRecords = s.custody.countP (fun x => x.2.state == .unknown) ∧
      r.queueLength = s.staging.queue.length ∧ r.holdSent = s.staging.holdSent ∧
      r.slotsFree = s.staging.slots.toList.countP (· == .free) ∧
      r.slotsReserved = s.staging.slots.toList.countP (fun x => match x with | .reserved _ _ _ => true | _ => false) ∧
      r.slotsOccupied = s.staging.slots.toList.countP (fun x => match x with | .occupied _ _ _ _ _ => true | _ => false) ∧
      r.inboundReserve = s.staging.settings.inboundReserve ∧
      r.consignFree = s.consign.places.toList.countP (fun x => x.isNone) ∧
      (∀ (st : ConsignState) (n : Nat), (st, n) ∈ r.consignCounts ↔
        n = s.consign.places.toList.countP (fun x => x.any fun y => y.state == st)) ∧
      (∀ w : Side,
        let d := s.hatch.door w
        let x := match w with | .inner => r.innerDoor | .outer => r.outerDoor
        x.isOpen = d.isOpen ∧ x.released = d.released ∧ x.forced = d.forced ∧
        (x.secure = true ↔ d.isOpen = false ∧ d.released = false)) ∧
      r.arbiter = s.hatch.arbiter ∧ r.lapseSecondsLeft = s.hatch.arbiter.lapseAt.map (fun m => m - s.vault.uptime) ∧
      r.listLength = s.hatch.entries.length ∧ r.listNumber = s.hatch.entries.head?.map (fun e => e.number) ∧
      r.exchange = s.hatch.exchange.map fun x => (x.number, x.leg))

/-! ## Chapter 1: areas, locations and vault modes -/

/-- SET_MODE: the checks of R10, and a change in the order of R11 (response, MODE notice, the blocks), with the
arbitration of R143 at its end.

The clocks: a second advances the vault clock, which wraps, and uptime, which stops at its top (R12, R14); SET_TIME
sets the clock, clears CLOCK_SUSPECT and hands the snapshot to the store before its answer (R12); the snapshot is
handed over once at each whole multiple of 60 s of uptime (R13), and a snapshot point that is not due has no effect
(log 3, log 36). -/
def Obligations.ModeAndClocksAreSet : Prop :=
  (∀ (h : ReqHead) (mode : Option VaultMode) (s : State), s.accepts h .setMode →
    let u := s.received h
    (mode = none → exec (.setMode h mode) s = .next (u.refuse h .setMode .invalid)) ∧
    ∀ m, mode = some m →
      (m = s.vault.mode → exec (.setMode h mode) s = .next (u.answer h .setMode [] .ok .none)) ∧
      (m ≠ s.vault.mode → s.vault.mode = .maintenance → s.vault.rezone.isSome = true →
        exec (.setMode h mode) s = .next (u.refuse h .setMode .busy)) ∧
      (m ≠ s.vault.mode → m = .maintenance →
        (s.hatch.exchange.isSome = true ∨ s.hatch.inner.released = true ∨ s.hatch.outer.released = true) →
        exec (.setMode h mode) s = .next (u.refuse h .setMode .state)) ∧
      (m ≠ s.vault.mode → ¬ (s.vault.mode = .maintenance ∧ s.vault.rezone.isSome = true) →
        ¬ (m = .maintenance ∧
          (s.hatch.exchange.isSome = true ∨ s.hatch.inner.released = true ∨ s.hatch.outer.released = true)) →
        let v := { u with vault := { u.vault with mode := m } }
        let w := (v.answer h .setMode [] .ok .none).notify [] (.mode m)
        (m = .staffed → exec (.setMode h mode) s = .next ((w.dispatch []).arbitrate [])) ∧
        (m ≠ .staffed → s.hatch.arbiter.pendingInner = none → exec (.setMode h mode) s = .next (w.arbitrate [])) ∧
        (m ≠ .staffed → s.hatch.arbiter.pendingInner.isSome = true → exec (.setMode h mode) s =
          .next (((w.onArbiter fun a => { a with pendingInner := none }).notify [] (.hatchRevoked .inner)).arbitrate [])))) ∧
  (∀ s : State, s.power = .running → exec .timeBaseSecond s =
    .next { s with vault := { s.vault with clock := s.vault.clock + 1, uptime := min 4294967295 (s.vault.uptime + 1) } }) ∧
  (∀ (h : ReqHead) (seconds : Clock) (s : State), s.accepts h .setTime →
    let u := s.received h
    let v := ({ u with vault := { u.vault with clock := seconds, clockSuspect := false } }).persist .snapshot
    exec (.setTime h seconds) s = .next (v.answer h .setTime (v.awaits [.snapshot]) .ok .none) ∧
    (v.store.inflight.toList ++ v.store.queue).any (fun j => j.record == .snapshot &&
      j.content == .snapshot (some seconds)) = true) ∧
  (∀ s : State, s.power = .running →
    let due := s.vault.uptime % 60 = 0 ∧ s.vault.lastSnapshotAt ≠ some s.vault.uptime
    (due → exec .clockSnapshot s =
      .next (({ s with vault := { s.vault with lastSnapshotAt := some s.vault.uptime } }).persist .snapshot)) ∧
    (¬ due → exec .clockSnapshot s = .next s))

/-- SET_DESCRIPTOR: the checks of R5 in order; then the four fields are replaced, the configuration is handed to the
store and ACCEPTED waits on that write with the previous fields. The sweep starts behind ACCEPTED, at the end of the same
write (R5; log 55; StoreWriteEndCommits); until then none is in flight. A sweep of equal fields visits no record (R5):
that it starts at place 2048, past the last, is the model's choice (log 25, DEDUCED). -/
def Obligations.SetDescriptorStartsARezoneSweep : Prop :=
  ∀ (h : ReqHead) (index length area : Nat) (enabled : Option Bool) (value : Location) (s : State),
    s.accepts h .setDescriptor →
    let u := s.received h
    let c := Instr.setDescriptor h index enabled value length area
    let refused := fun code => Host.Outcome.next (u.refuse h .setDescriptor code)
    (s.vault.mode ≠ .maintenance → exec c s = refused .mode) ∧
    (s.vault.mode = .maintenance → s.vault.rezone.isSome = true → exec c s = refused .busy) ∧
    (s.vault.mode = .maintenance → s.vault.rezone = none →
      (8 ≤ index ∨ enabled = none ∨ 24 < length ∨ (area ≠ 1 ∧ area ≠ 2) ∨ value.toNat % 2 ^ (24 - length) ≠ 0) →
      exec c s = refused .invalid) ∧
    (∀ (i : Fin 8) (e : Bool) (a : Area), s.vault.mode = .maintenance → s.vault.rezone = none → index = i.val →
      enabled = some e → length ≤ 24 → (area = 1 ∧ a = .vaultA ∨ area = 2 ∧ a = .vaultB) →
      value.toNat % 2 ^ (24 - length) = 0 →
      let d : Descriptor := ⟨e, value, length, a⟩
      let old := s.vault.descriptors[i]
      let v := ({ u with vault := { u.vault with descriptors := u.vault.descriptors.set i d } }).persist .config
      let w := v.answer h .setDescriptor (v.awaits [.config]) .accepted (.descriptor old)
      ∃ ticket, (v.awaits [.config]).getLast? = some ticket ∧ w.vault.rezone = none ∧
        exec c s = .next { w with store := { w.store with
          followups := w.store.followups ++ [(ticket, .sweep (if d = old then 2048 else 0))] } }) ∧
    (∀ (k : Nat) (s : State), s.followUp (.sweep k) = { s with vault := { s.vault with rezone := some k } })

/-- The rezone sweep: each step reaches the next location-bearing record in storage order, leaves one that agrees with
the descriptors, and settles any other into its resolved area with an evaluation of INSPECT; the records it has passed
agree. When none is left and no write of the custody table is in flight or waits, the sweep ends with REZONE_DONE (R6);
that it stays in flight until those writes have ended is log 38. A step or an end that is not due has no effect (log 3).

After an uninterrupted rezone the restart sweep changes no record (R8): a supply that fails at its REZONE_DONE and rises
again brings back every location-bearing record with the location and area it then had, each agrees with the descriptors,
and no step of the restart sweep changes a record or hands one to the store. The sweep has passed records that agree, the
store follows the blocks (StepsKeepTheStoreOnTheBlocks), no format is in flight, and the descriptors stand in the
configuration record, whose write ends before the sweep starts (R7; log 55). -/
def Obligations.RezoneSweepVisitsShelvedRecords : Prop :=
  let shelved := fun r : CustodyRecord => r.state = .inVault ∨ r.state = .requested ∨ r.state = .picking
  let agrees := fun (d : Vector Descriptor 8) (r : CustodyRecord) =>
    shelved r → ∀ l, r.location = some l → r.area = some (resolveLocation d l)
  let settledStore := fun s : State =>
    ∀ j ∈ s.store.inflight.toList ++ s.store.queue, ∀ p, j.record ≠ .custody p ∧ j.record ≠ .key p
  (∀ (k p : Nat) (r : CustodyRecord) (l : Location) (s : State), s.power = .running → s.vault.rezone = some k →
    s.custody.find? (fun x => decide (k ≤ x.1) && (x.2.state == .inVault || x.2.state == .requested || x.2.state == .picking))
      = some (p, r) → r.location = some l →
    let a := resolveLocation s.vault.descriptors l
    let next := fun t : State => { t with vault := { t.vault with rezone := some (p + 1) } }
    (r.area = some a → exec .rezoneSweepStep s = .next (next s)) ∧
    (r.area ≠ some a → exec .rezoneSweepStep s = .next (next (s.putRecord p
      { r with area := some a, storedDose := effectiveDose s.accumulators r, mark := some (s.accumulators.get a),
               inspect := r.inspect || s.overDose r })))) ∧
  (∀ (k : Nat) (s t : State), s.power = .running → s.vault.rezone = some k → custodyWf s.custody = true →
    (∀ x ∈ s.custody, x.1 < k → agrees s.vault.descriptors x.2) → exec .rezoneSweepStep s = .next t →
    ∃ k', t.vault.rezone = some k' ∧ k ≤ k' ∧ ∀ x ∈ t.custody, x.1 < k' → agrees t.vault.descriptors x.2) ∧
  (∀ (k : Nat) (s : State), s.power = .running → s.vault.rezone = some k → (∀ x ∈ s.custody, k ≤ x.1 → ¬ shelved x.2) →
    exec .rezoneSweepStep s = .next s ∧
    (settledStore s →
      exec .rezoneDone s = .next (({ s with vault := { s.vault with rezone := none } }).notify [] .rezoneDone)) ∧
    (¬ settledStore s → exec .rezoneDone s = .next s)) ∧
  (∀ (k : Nat) (x : Nat × CustodyRecord) (s : State), s.power = .running → s.vault.rezone = some k → x ∈ s.custody →
    k ≤ x.1 → shelved x.2 → exec .rezoneDone s = .next s) ∧
  (∀ s : State, s.power = .running → s.vault.rezone = none →
    exec .rezoneSweepStep s = .next s ∧ exec .rezoneDone s = .next s) ∧
  (∀ (k : Nat) (s t w : State), s.power = .running → s.vault.rezone = some k → s.tablesCanonical = true →
    s.storeFollows → s.store.format = .none → (∀ x ∈ s.custody, x.1 < k → agrees s.vault.descriptors x.2) →
    exec .rezoneDone s = .next t → t.vault.rezone = none → exec .lossOfSupply t = .next w →
    w.store.config.descriptors = s.vault.descriptors →
    ∃ u, exec (.powerOn []) w = .next u ∧
      (∀ x ∈ u.custody, shelved x.2 → agrees u.vault.descriptors x.2 ∧
        ∃ r, (x.1, r) ∈ s.custody ∧ shelved r ∧ x.2.location = r.location ∧ x.2.area = r.area) ∧
      ∀ v v' : State, v.custody = u.custody → v.vault.descriptors = u.vault.descriptors →
        exec .rezoneSweepStep v = .next v' → v'.custody = v.custody ∧ v'.store = v.store)

/-- A location lies in the area of the highest-numbered enabled descriptor whose top prefix-length bits equal the
location's, and in Vault A when no enabled descriptor matches (R2, R4). -/
def Obligations.LocationTakesTheHighestMatch : Prop :=
  ∀ (ds : Vector Descriptor 8) (l : Location),
    let matches_ := fun i : Fin 8 =>
      ds[i].enabled = true ∧ ds[i].prefixValue.toNat / 2 ^ (24 - ds[i].prefixLength) = l.toNat / 2 ^ (24 - ds[i].prefixLength)
    (∀ i, matches_ i → (∀ j, i < j → ¬ matches_ j) → resolveLocation ds l = ds[i].area) ∧
    ((∀ i, ¬ matches_ i) → resolveLocation ds l = .vaultA)

/-! ## Chapter 2: climate -/

/-- A climate sweep starts at a whole multiple of 60 s of uptime, or is dropped and counted while one is in flight
(R17); the read of the waiting channel begins when the bus is free, with a start condition and the address of the
channel's sensor, 48 hex for channel 1 to 4C hex for channel 5, on the bus; a read is ended as unacknowledged by its
150 ms limit, with the acknowledgements of the bytes that were in, fewer than five and a free value (log 19), and a stop
condition, and a wait by its 30 s (R16, R18). An event that is not due has no effect (log 3, log 36). -/
def Obligations.SweepsStartOrAreDropped : Prop :=
  (∀ s : State, s.power = .running →
    let due := s.vault.uptime % 60 = 0 ∧ s.climate.lastSweepDueAt ≠ some s.vault.uptime
    (due → s.climate.sweep = .idle → exec .sweepDue s = .next { s with climate := { s.climate with
      lastSweepDueAt := some s.vault.uptime, sweep := .waiting (.area .vaultA) s.vault.uptime } }) ∧
    (due → s.climate.sweep ≠ .idle → exec .sweepDue s = .next { s with climate := { s.climate with
      lastSweepDueAt := some s.vault.uptime, dropped := min 65535 (s.climate.dropped + 1) } }) ∧
    (¬ due → exec .sweepDue s = .next s)) ∧
  (∀ (c : Channel) (since : Nat) (s : State), s.power = .running → s.climate.sweep = .waiting c since →
    exec .sensorReadStart s = .next { s with climate := { s.climate with
      sweep := .reading c, bus := [.start, .addressRead (BitVec.ofNat 7 (0x47 + c.number))] } } ∧
    exec .readTimeLimit s = .next s ∧
    (since + 30 ≤ s.vault.uptime →
      exec .busWaitTimeout s = .next { s with climate := { s.climate with sweep := .ended c } }) ∧
    (s.vault.uptime < since + 30 → exec .busWaitTimeout s = .next s)) ∧
  (∀ (c : Channel) (s : State), s.power = .running → s.climate.sweep = .reading c →
    exec .readTimeLimit s = .next { s with
      climate := { s.climate with
        sweep := .ended c
        bus := s.climate.bus ++ List.replicate (Config.bytesBeforeLimit s.inputs.limitedReads).val .acknowledge ++ [.stop] }
      inputs := { s.inputs with limitedReads := s.inputs.limitedReads + 1 } } ∧
    exec .sensorReadStart s = .next s ∧ exec .busWaitTimeout s = .next s) ∧
  (∀ s : State, s.power = .running → (s.climate.sweep = .idle ∨ ∃ c, s.climate.sweep = .ended c) →
    exec .sensorReadStart s = .next s ∧ exec .readTimeLimit s = .next s ∧ exec .busWaitTimeout s = .next s)

/-- A sensor word is a valid reading exactly when its check byte agrees and its values are in range, and is held with
the humidity clamped to 1000 (R16, R19); and a channel record follows valid and invalid reads by the table of R20, with
the reported field of R21. Normal control at a sample event. The dehumidifier is decided by target and band, starts
only when 180 s have passed since its last switch-off and is deferred before that (R24, R25); the heater, where there
is one, by its target (R26); a FAILED channel forces the dehumidifier ON and the heater OFF, a channel in NONE switches
both off (R27). -/
def Obligations.ReadingsMoveChannelsAndOutputs : Prop :=
  ((SensorReading.noAck.value = none) ∧
   (∀ b1 b2 b3 b4 b5 : Byte,
     let t : Int := if b1.toNat < 128 then b1.toNat * 256 + b2.toNat else (b1.toNat * 256 + b2.toNat : Int) - 65536
     let rh := b3.toNat * 256 + b4.toNat
     let good := b5 = (crc16 [b1, b2, b3, b4]).setWidth 8 ∧ -200 ≤ t ∧ t ≤ 600 ∧ rh ≤ 1050
     (good → (SensorReading.word b1 b2 b3 b4 b5).value = some ⟨t, min rh 1000⟩) ∧
     (¬ good → (SensorReading.word b1 b2 b3 b4 b5).value = none)) ∧
   (∀ (c : ChannelRecord) (x : Held), c.after (some x) = { c with state := .good, held := some x, missCount := 0 }) ∧
   (∀ c : ChannelRecord,
     (c.state = .good → c.after none = { c with state := .stale, missCount := 1 }) ∧
     (c.state = .failed → c.after none = { c with missCount := min 255 (c.missCount + 1) }) ∧
     (c.state = .none ∨ c.state = .stale → c.missCount + 1 < 3 → c.after none = { c with missCount := c.missCount + 1 }) ∧
     (c.state = .none ∨ c.state = .stale → c.missCount + 1 = 3 →
       c.after none = { c with state := .failed, missCount := 3, reported := true }))) ∧
  (∀ (up : Nat) (g : ClimateSettings) (ch : ChannelRecord) (c : AreaControl),
     let turnedOn : AreaControl := if c.dehumidifier = true then c
       else if c.lastOff + 180 ≤ up then { c with dehumidifier := true, deferred := false } else { c with deferred := true }
     let turnedOff : AreaControl := if c.dehumidifier = true
       then { c with dehumidifier := false, deferred := false, lastOff := up } else { c with deferred := false }
     (∀ x : Held, ch.held = some x → (ch.state = .good ∨ ch.state = .stale) →
       let d : AreaControl := if g.rhTarget + g.rhBand ≤ x.humidity then turnedOn
         else if x.humidity + g.rhBand ≤ g.rhTarget then turnedOff else { c with deferred := false }
       (x.temperature ≤ (g.heatTarget : Int) - 10 → c.control up g ch = { d with heater := d.heater.map fun _ => true }) ∧
       ((g.heatTarget : Int) ≤ x.temperature → c.control up g ch = { d with heater := d.heater.map fun _ => false }) ∧
       ((g.heatTarget : Int) - 10 < x.temperature → x.temperature < (g.heatTarget : Int) → c.control up g ch = d)) ∧
     (ch.state = .failed → c.control up g ch = { turnedOn with heater := turnedOn.heater.map fun _ => false }) ∧
     (ch.state = .none → c.control up g ch = { turnedOff with heater := turnedOff.heater.map fun _ => false }))

/-- A sample event, in the climate, exposure and hatch units and in what it leaves: the channel of the read takes the
reading (R20) and the others stay, with SENSOR_STATE on a change of a channel that has been FAILED (R21); the sweep waits
for the next channel or ends after channel 5 (R17); an area's outputs take normal control unless its fire state is
COUNTDOWN or later, and HIGH_RH latches at the alarm level, with CLIMATE_ALARM (R22, R23, R31); an area's accumulator
gains the held humidity above its threshold, and is handed to the store at every one of its sample events, whether it
gained or not, except that a format in flight that has its record still to write takes it in (R73, R179, R184; which
records those are is log 18). A Hatch sample event steps every hatch list entry that has an
estimate or a base for one, with the Hatch coupling, an Outside one gives absent estimates of IN entries their base, and
after either the hatch unit arbitrates when an outer request is pending and no side holds possession (R67, R68, R154).
A read that ends by itself has four bytes acknowledged, the fifth not, and a stop condition on the bus (R16); after an
address that is not acknowledged the stop condition alone (log 19). Without a read that has ended there is no sample
event (log 3). But for a Staging one, whose notices and writes StagingSampleStepsAndFlips gives, nothing else in the store
changes, and a Hatch one leaves the slots (R22, R118). -/
def Obligations.SampleEventDrivesClimateAndDose : Prop :=
  let notices := fun (c : Channel) (v : Option Held) (s : State) =>
    let now := (s.climate.channels.get c).after v
    let u := if now.reported = true ∧ now.state ≠ (s.climate.channels.get c).state
      then s.postNotice (.sensorState c now.state) else s
    match c, now.held with
    | .area a, some x =>
      if alarmLevel (s.climate.settings.get a).alarmIndex ≤ x.humidity ∧ (s.climate.controls.get a).highRh = false
      then u.postNotice (.climateAlarm a x.humidity) else u
    | _, _ => u
  let effect := fun (c : Channel) (v : Option Held) (bus : List BusSignal) (s t : State) =>
    let now := (s.climate.channels.get c).after v
    t.climate.channels = s.climate.channels.set c now ∧
    t.climate.sweep = (match c with
      | .area .vaultA => .waiting (.area .vaultB) s.vault.uptime
      | .area .vaultB => .waiting (.area .staging) s.vault.uptime
      | .area .staging => .waiting (.area .hatch) s.vault.uptime
      | .area .hatch => .waiting .outside s.vault.uptime
      | .outside => .idle) ∧
    (∀ a : Area, c = .area a →
      let g := s.climate.settings.get a
      let k := if (s.fire.areas.get a).state.late then s.climate.controls.get a
        else (s.climate.controls.get a).control s.vault.uptime g now
      t.climate.controls.get a =
        { k with highRh := k.highRh || now.held.any fun x => decide (alarmLevel g.alarmIndex ≤ x.humidity) } ∧
      t.accumulators.get a =
        match now.held with
        | some x => min 4294967295 (s.accumulators.get a + (x.humidity - g.doseThreshold))
        | none => s.accumulators.get a) ∧
    (∀ a : Area, c ≠ .area a → t.climate.controls.get a = s.climate.controls.get a ∧
      t.accumulators.get a = s.accumulators.get a) ∧
    (∀ a : Area,
      let writes := fun st : Store => (st.inflight.toList ++ st.queue).filter fun j => j.record == .accumulator a
      let takenIn := ∃ k, s.store.format = .writing k ∧ k ≤ 4 + a.number
      (c = .area a → ¬ takenIn →
        (writes t.store).getLast?.map (·.content) = some (.accumulator (t.accumulators.get a))) ∧
      (c ≠ .area a ∨ takenIn → writes t.store = writes s.store)) ∧ t.store.format = s.store.format ∧
    t.climate = { s.climate with channels := t.climate.channels, sweep := t.climate.sweep, bus := s.climate.bus ++ bus,
                                 controls := t.climate.controls } ∧
    t.fire = { s.fire with trouble := t.causes.any } ∧ t.vault = s.vault ∧ t.power = s.power ∧ t.inputs = s.inputs ∧
    (c = .outside → t.store = s.store) ∧
    (∀ a, c = .area a → a ≠ .staging →
      let takenIn := ∃ k, s.store.format = .writing k ∧ k ≤ 4 + a.number
      (takenIn → t.store = s.store) ∧
      (¬ takenIn → t.store = s.store.handOver (.accumulator a) (.accumulator (t.accumulators.get a)))) ∧
    (c = .area .hatch → t.staging.slots = s.staging.slots) ∧
    t.store.cells = s.store.cells ∧ t.store.flags = s.store.flags ∧ t.staging.queue = s.staging.queue ∧
    t.staging.settings = s.staging.settings ∧ t.staging.holdSent = s.staging.holdSent ∧
    (c ≠ .area .staging → t.custody = s.custody ∧ t.consign = s.consign) ∧
    (c = .area .vaultA ∨ c = .area .vaultB → t.hatch = s.hatch ∧ t.links = (notices c v s).links) ∧
    (c = .area .staging → t.hatch.entries = s.hatch.entries) ∧
    (c = .area .hatch → t.hatch.entries = s.hatch.entries.map fun e =>
      let base : Channel := match e.direction with | .outbound => .area .hatch | .inbound => .outside
      let from_ := e.estimate <|> (t.climate.channels.get base).held.map fun x => x.temperature
      match now.held, from_ with
      | some air, some y => { e with estimate := some (acclimatise y air.temperature s.climate.settings.hatch.coupling) }
      | _, _ => e) ∧
    (c = .outside → t.hatch.entries = s.hatch.entries.map fun e =>
      if e.direction = .inbound ∧ e.estimate = none then { e with estimate := now.held.map fun x => x.temperature } else e) ∧
    (c = .area .hatch ∨ c = .outside →
      (s.hatch.arbiter.pendingOuter = true → s.hatch.arbiter.possession = false → ∃ u : State,
        u.links = (notices c v s).links ∧ u.hatch = { s.hatch with entries := t.hatch.entries } ∧
        u = { t with links := u.links, hatch := u.hatch, climate := { t.climate with sweep := u.climate.sweep } } ∧
        t.hatch = (u.arbitrate []).hatch ∧ t.links = (u.arbitrate []).links) ∧
      (s.hatch.arbiter.pendingOuter = false ∨ s.hatch.arbiter.possession = true →
        t.hatch = { s.hatch with entries := t.hatch.entries } ∧ t.links = (notices c v s).links))
  (alarmLevel 0 = 550 ∧ alarmLevel 1 = 600 ∧ alarmLevel 2 = 650 ∧ alarmLevel 3 = 700) ∧
  ∀ (reading : SensorReading) (s : State), s.power = .running →
    (∀ c, s.climate.sweep = .reading c →
      let bus : List BusSignal := match reading with
        | .noAck => [.stop]
        | .word _ _ _ _ _ => [.acknowledge, .acknowledge, .acknowledge, .acknowledge, .noAcknowledge, .stop]
      ∃ t, exec (.sampleEvent reading) s = .next t ∧ effect c reading.value bus s t) ∧
    (∀ c, s.climate.sweep = .ended c → ∃ t, exec (.sampleEvent reading) s = .next t ∧ effect c none [] s t) ∧
    ((s.climate.sweep = .idle ∨ ∃ c n, s.climate.sweep = .waiting c n) → exec (.sampleEvent reading) s = .next s)

/-- SET_CLIMATE checks its ranges and replaces an area's six settings whole, changing no output, and answers the
previous ones after the configuration's write (R33, R34). CLEAR_CLIMATE_FLAGS clears HIGH_RH and nothing else (R32).
AREA_QUERY reports a channel, and of an area the outputs, with each flag masked by the port's subscription (R35). -/
def Obligations.ClimateRequestsActOnTheirArea : Prop :=
  (∀ (h : ReqHead) (n : Nat) (f : ClimateSettings) (s : State), s.accepts h .setClimate →
    let u := s.received h
    let inRange := fun heated : Bool => 300 ≤ f.rhTarget ∧ f.rhTarget ≤ 600 ∧ 10 ≤ f.rhBand ∧ f.rhBand ≤ 100 ∧
      f.alarmIndex ≤ 3 ∧ 300 ≤ f.doseThreshold ∧ f.doseThreshold ≤ 800 ∧
      (if heated then 150 ≤ f.heatTarget ∧ f.heatTarget ≤ 400 ∧ 1 ≤ f.coupling ∧ f.coupling ≤ 255
       else f.heatTarget = 0 ∧ f.coupling = 0)
    ((n < 1 ∨ 4 < n) → exec (.setClimate h n f) s = .next (u.refuse h .setClimate .invalid)) ∧
    (∀ a : Area, n = a.number → ¬ inRange (decide (3 ≤ n)) →
      exec (.setClimate h n f) s = .next (u.refuse h .setClimate .invalid)) ∧
    (∀ a : Area, n = a.number → inRange (decide (3 ≤ n)) →
      let v := ({ u with climate := { u.climate with settings := u.climate.settings.set a f } }).persist .config
      exec (.setClimate h n f) s =
        .next (v.answer h .setClimate (v.awaits [.config]) .ok (.climate (s.climate.settings.get a))))) ∧
  (∀ (h : ReqHead) (n : Nat) (s : State), s.accepts h .clearClimateFlags →
    let u := s.received h
    ((n < 1 ∨ 4 < n) → exec (.clearClimateFlags h n) s = .next (u.refuse h .clearClimateFlags .invalid)) ∧
    (∀ a : Area, n = a.number → exec (.clearClimateFlags h n) s =
      .next ((u.onControl a fun c => { c with highRh := false }).answer h .clearClimateFlags [] .ok .none))) ∧
  (∀ (h : ReqHead) (n : Nat) (s : State), s.accepts h .areaQuery →
    let u := s.received h
    ((n < 1 ∨ 5 < n) → exec (.areaQuery h n) s = .next (u.refuse h .areaQuery .invalid)) ∧
    (∀ c : Channel, n = c.number → ∃ r : AreaReport,
      exec (.areaQuery h n) s = .next (u.answer h .areaQuery [] .ok (.area r)) ∧
      r.state = (s.climate.channels.get c).state ∧ r.missCount = (s.climate.channels.get c).missCount ∧
      r.held = (s.climate.channels.get c).held ∧
      r.dewPoint = (s.climate.channels.get c).held.map (fun x => x.dewPoint) ∧ (r.outputs = none ↔ c = .outside) ∧
      ∀ (a : Area) (o : AreaOutputs), c = .area a → r.outputs = some o →
        let k := s.climate.controls.get a
        o.damperOpen = k.damperOpen ∧ o.heater = k.heater ∧ o.fan = s.climate.fan ∧
        o.dehumidifier = (if k.deferred then .deferred else if k.dehumidifier then .on else .off) ∧
        o.fire = (s.fire.areas.get a).state.name ∧
        o.highRh = (k.highRh && (s.link h.port).mask.getLsbD 1) ∧
        o.protectionOff = (s.fire.protectionOff a && (s.link h.port).mask.getLsbD 2) ∧
        o.agentSpent = ((s.fire.areas.get a).agentSpent && (s.link h.port).mask.getLsbD 2)))

/-! ## Chapter 3: fire -/

/-- A change of an area's fire state, in the order of R55: the state, FIRE_STATE, ALERT and EVACUATE, and then the
climate unit, a dispatch attempt and the hatch unit. ALERT, EVACUATE and the extract fan follow the states at once
(R29, R56); the area's outputs are shut down on entry from QUIET or PRE_ALARM to COUNTDOWN, HELD or DISCHARGED, and its
damper opens in VENTING and on the return to QUIET (R28, R29, R30). -/
def Obligations.FireStateChangeReachesEveryBlock : Prop :=
  ∀ (a : Area) (new : FireState) (s : State),
    let t := s.changeFire a new
    let old := (s.fire.areas.get a).state
    let k := s.climate.controls.get a
    let v := s.onFireArea a fun x => { x with state := new }
    t = (((((v.postNotice (.fireState a new.name)).updateSounders).climateFireChange a old).dispatch []).hatchFireChange
      s.fire.blocked) ∧
    t.fire.areas = s.fire.areas.set a { s.fire.areas.get a with state := new } ∧
    t.fire.detectors = s.fire.detectors ∧ t.fire.abort = s.fire.abort ∧ t.fire.trouble = s.fire.trouble ∧
    t.fire.alert = t.fire.areas.any (fun x => x.state == .preAlarm) ∧
    t.fire.evacuate = t.fire.areas.any (fun x => x.state.shutdown) ∧
    t.climate.fan = t.fire.areas.any (fun x => x.state.vents) ∧
    t.climate = { s.climate with fan := t.climate.fan, controls := t.climate.controls } ∧
    (∀ b, b ≠ a → t.climate.controls.get b = s.climate.controls.get b) ∧
    (new.shutdown = true → old.late = false → t.climate.controls.get a =
      { k with damperOpen := false, dehumidifier := false, deferred := false, lastOff := s.vault.uptime,
               heater := k.heater.map fun _ => false }) ∧
    (new.vents = true ∨ (new = .quiet ∧ old.late = true) → t.climate.controls.get a = { k with damperOpen := true }) ∧
    (new.shutdown = true → old.late = true → t.climate.controls.get a = k) ∧
    (new = .preAlarm ∨ (new = .quiet ∧ old.late = false) → t.climate.controls.get a = k) ∧
    t.vault = s.vault ∧ t.power = s.power ∧ t.accumulators = s.accumulators ∧ t.staging.settings = s.staging.settings ∧
    (∀ (x : FireState) (b : Bool) (w : State), w.announceFire a x b =
      (((((w.postNotice (.fireState a (w.fire.areas.get a).state.name)).updateSounders).climateFireChange a x).dispatch
        []).hatchFireChange b))

/-- A debounced change of a detector's two lines: both levels are taken and the line condition evaluated once, with
alarm before fault (R38); ISOLATED stays and the ALARM of an assigned detector is latched (R39, R40), an unassigned one
follows its lines (R41). A change of state queues DETECTOR and works out TROUBLE (R55), and the entry of an assigned
detector into ALARM acts on its area by the count, the coincidence and the area's state (R45, R46). Equal levels have
no effect (log 3). The input scan: every input is sampled, and a debounced level changes when two successive scans
sample the same level and that level differs from it (R37); a scan that changes no debounced level, with no input marked
for re-taking, does nothing else. That a change as a command stands for the second of its scans is log 6. A scan that takes
a change of one detector's lines, one call point, the abort-hold switch, one door's contact or the reset line does what
that input's command does, and re-takes the marked inputs after it, or before it for the reset line (R37, R38, R43,
R44, R53, R136, R180; log 16). -/
def Obligations.DetectorLinesMoveDetectorAndArea : Prop :=
  (∀ (d : Detector) (al fl : Level) (s : State), s.power = .running →
    let x := s.fire.detectors[d]
    let c := Instr.detectorLineChange d al fl
    let v := (s.onInputs fun i => { i with alarm := i.alarm.set d ⟨al, al⟩, fault := i.fault.set d ⟨fl, fl⟩ }).onDetector d
      fun x => { x with alarmLine := al, faultLine := fl }
    let active : Bool := (x.polarity == .activeHigh && al == .high) || (x.polarity == .activeLow && al == .low)
    let named : DetectorState := if active then .alarm else if fl = .high then .fault else .normal
    (x.alarmLine = al → x.faultLine = fl → exec c s = .next s) ∧
    (¬ (x.alarmLine = al ∧ x.faultLine = fl) →
      (x.state = .isolated → exec c s = .next v) ∧
      (x.state = .alarm → x.assignment.isSome = true → exec c s = .next v) ∧
      (x.state ≠ .isolated → ¬ (x.state = .alarm ∧ x.assignment.isSome = true) →
        (named ≠ .alarm ∨ x.state = .alarm → exec c s = .next (v.changeDetector d named)) ∧
        (named = .alarm → x.state ≠ .alarm → exec c s = .next ((v.changeDetector d .alarm).alarmEntry d))))) ∧
  (∀ (d : Detector) (x : DetectorState) (s : State),
    (s.fire.detectors[d].state = x → s.changeDetector d x = s) ∧
    (s.fire.detectors[d].state ≠ x → s.changeDetector d x =
      ((s.onDetector d fun y => { y with state := x }).postNotice (.detector d x)).updateTrouble)) ∧
  (∀ (d : Detector) (s : State), s.fire.detectors[d].assignment = none → s.alarmEntry d = s) ∧
  (∀ (d : Detector) (a : Area) (s : State), s.fire.detectors[d].assignment = some a →
    let count := (s.fire.detectors.toList.filter fun x => x.assignment == some a && x.state == .alarm).length
    let x := s.fire.areas.get a
    (x.state = .quiet → (x.settings.coincidence = .single ∨ 2 ≤ count) → s.alarmEntry d = s.enterCountdown a) ∧
    (x.state = .quiet → x.settings.coincidence = .double → count < 2 → s.alarmEntry d = s.changeFire a .preAlarm) ∧
    (x.state = .preAlarm → (x.settings.coincidence = .single ∨ 2 ≤ count) → s.alarmEntry d = s.enterCountdown a) ∧
    (x.state = .preAlarm → x.settings.coincidence = .double → count < 2 → s.alarmEntry d = s) ∧
    (x.state.late = true → s.alarmEntry d = s)) ∧
  (∀ (p : Pin) (l : Level), (p.sample = p.now → p.taken l = p.now) ∧ (p.sample ≠ p.now → p.taken l = l)) ∧
  (∀ s : State, s.power = .running → s.inputs.reset.taken .high = .high →
    let t := s.scan
    let x := s.inputs
    let sampled := fun p : Pin => (⟨p.now, p.now⟩ : Pin)
    t.inputs = ⟨x.alarm.map sampled, x.fault.map sampled, x.call.map sampled, sampled x.abort, sampled x.inner,
      sampled x.outer, sampled x.reset, x.limitedReads⟩ ∧
    (∀ d : Detector, t.fire.detectors[d].alarmLine = x.alarm[d].taken s.fire.detectors[d].alarmLine ∧
      t.fire.detectors[d].faultLine = x.fault[d].taken s.fire.detectors[d].faultLine) ∧
    (∀ a, (t.fire.areas.get a).callActive = ((x.call.get a).taken (levelOf (s.fire.areas.get a).callActive) == .high)) ∧
    t.fire.abort = (x.abort.taken (levelOf s.fire.abort) == .high) ∧
    (∀ w, (t.hatch.door w).isOpen = ((x.contact w).taken (levelOf (s.hatch.door w).isOpen) == .high))) ∧
  (∀ s : State, s.power = .running → s.inputs.reset.taken .high = .high →
    (∀ d : Detector, s.inputs.alarm[d].taken s.fire.detectors[d].alarmLine = s.fire.detectors[d].alarmLine ∧
      s.inputs.fault[d].taken s.fire.detectors[d].faultLine = s.fire.detectors[d].faultLine ∧
      s.fire.detectors[d].retake = false) →
    (∀ a, (s.inputs.call.get a).taken (levelOf (s.fire.areas.get a).callActive) = levelOf (s.fire.areas.get a).callActive ∧
      (s.fire.areas.get a).callRetake = false) →
    s.inputs.abort.taken (levelOf s.fire.abort) = levelOf s.fire.abort →
    (∀ w, (s.inputs.contact w).taken (levelOf (s.hatch.door w).isOpen) = levelOf (s.hatch.door w).isOpen) →
    s.scan = s.onInputs Inputs.scan) ∧
  (∀ (d : Detector) (al fl : Level) (s : State), s.power = .running →
    ¬ (s.fire.detectors[d].alarmLine = al ∧ s.fire.detectors[d].faultLine = fl) → exec (.detectorLineChange d al fl) s =
      .next ((s.onInputs fun i => { i with alarm := i.alarm.set d ⟨al, al⟩, fault := i.fault.set d ⟨fl, fl⟩ }).detectorLines
        d al fl)) ∧
  (∀ s : State, s.power = .running →
    let x := s.inputs
    let v := s.onInputs Inputs.scan
    let alarm := fun d : Detector => x.alarm[d].taken s.fire.detectors[d].alarmLine
    let fault := fun d : Detector => x.fault[d].taken s.fire.detectors[d].faultLine
    let lines := fun d : Detector => alarm d = s.fire.detectors[d].alarmLine ∧ fault d = s.fire.detectors[d].faultLine
    let call := fun a : Area =>
      (x.call.get a).taken (levelOf (s.fire.areas.get a).callActive) = levelOf (s.fire.areas.get a).callActive
    let abort := x.abort.taken (levelOf s.fire.abort) = levelOf s.fire.abort
    let contact := fun w : Side =>
      (x.contact w).taken (levelOf (s.hatch.door w).isOpen) = levelOf (s.hatch.door w).isOpen
    let agree := fun p : Pin => p.sample = p.now
    let acts := fun c : Instr => ∃ u, exec c v = .next u ∧ exec .retakeAtScan u = .next s.scan
    (x.reset.taken .high = .high →
      (∀ d, (∀ e, e ≠ d → lines e) → (∀ a, call a) → abort → (∀ w, contact w) →
        exec .retakeAtScan (v.detectorLines d (alarm d) (fault d)) = .next s.scan ∧
        (agree x.alarm[d] → agree x.fault[d] → acts (.detectorLineChange d x.alarm[d].now x.fault[d].now))) ∧
      (∀ a, (∀ d, lines d) → (∀ b, b ≠ a → call b) → abort → (∀ w, contact w) → agree (x.call.get a) →
        acts (if (x.call.get a).now = .high then .callPointOperated a else .callPointInactive a)) ∧
      ((∀ d, lines d) → (∀ a, call a) → (∀ w, contact w) → agree x.abort →
        acts (if x.abort.now = .high then .abortHoldActive else .abortHoldReleased)) ∧
      (∀ w, (∀ d, lines d) → (∀ a, call a) → abort → (∀ z, z ≠ w → contact z) → agree (x.contact w) →
        acts (if (x.contact w).now = .high then .doorOpened w else .doorClosed w))) ∧
    ((∀ d, lines d) → (∀ a, call a) → abort → (∀ w, contact w) → x.reset = ⟨.low, .low⟩ →
      ∃ u, exec .retakeAtScan v = .next u ∧ exec .resetLineLow u = .next s.scan))

/-- A call point going active sets its area's call latch, and if it was clear the area enters the countdown from QUIET
or PRE_ALARM; going inactive leaves the latch (R43, R47). The countdown is entered as HELD while abort-hold is ACTIVE
(R47). The abort-hold switch going ACTIVE moves every area in COUNTDOWN to HELD, and going RELEASED every area in HELD
to COUNTDOWN with its full delay, and no other area (R44, R48), each in number order (log 16) with all that a change of
its fire state brings about, FIRE_STATE first (R55). A level that is already held has no effect (log 3); a
change leaves the input's pin at its level (log 6). -/
def Obligations.CallPointsAndAbortHoldMoveAreas : Prop :=
  (∀ (a : Area) (s : State), s.power = .running →
    let x := s.fire.areas.get a
    let v := (s.settleCall a .high).onFireArea a fun x => { x with callActive := true }
    let w := (s.settleCall a .high).onFireArea a fun x => { x with callActive := true, callLatch := true }
    (x.callActive = true → exec (.callPointOperated a) s = .next s) ∧
    (x.callActive = false → x.callLatch = true → exec (.callPointOperated a) s = .next v) ∧
    (x.callActive = false → x.callLatch = false → x.state.late = true → exec (.callPointOperated a) s = .next w) ∧
    (x.callActive = false → x.callLatch = false → x.state = .quiet ∨ x.state = .preAlarm →
      exec (.callPointOperated a) s = .next (w.enterCountdown a)) ∧
    (x.callActive = true → exec (.callPointInactive a) s =
      .next ((s.settleCall a .low).onFireArea a fun x => { x with callActive := false })) ∧
    (x.callActive = false → exec (.callPointInactive a) s = .next s)) ∧
  (∀ (a : Area) (l : Level) (s : State),
    s.settleCall a l = { s with inputs := { s.inputs with call := s.inputs.call.set a ⟨l, l⟩ } }) ∧
  (∀ (a : Area) (s : State),
    (s.fire.abort = false → s.enterCountdown a = s.changeFire a (.countdown s.vault.uptime)) ∧
    (s.fire.abort = true → s.enterCountdown a = s.changeFire a .held)) ∧
  (∀ s : State, s.power = .running →
    (s.fire.abort = true → exec .abortHoldActive s = .next s) ∧
    (s.fire.abort = false → exec .abortHoldReleased s = .next s) ∧
    (s.fire.abort = false → ∃ t, exec .abortHoldActive s = .next t ∧ t.fire.abort = true ∧
      t = [Area.vaultA, .vaultB, .staging, .hatch].foldl (fun (t : State) a => match (t.fire.areas.get a).state with
        | .countdown _ => t.changeFire a .held
        | _ => t) { s.settleAbort .high with fire := { s.fire with abort := true } } ∧
      t.inputs = { s.inputs with abort := ⟨.high, .high⟩ } ∧
      t.fire.detectors = s.fire.detectors ∧ t.vault = s.vault ∧ t.accumulators = s.accumulators ∧
      t.climate.channels = s.climate.channels ∧
      ∀ a, ((∃ n, (s.fire.areas.get a).state = .countdown n) →
          t.fire.areas.get a = { s.fire.areas.get a with state := .held }) ∧
        ((∀ n, (s.fire.areas.get a).state ≠ .countdown n) → t.fire.areas.get a = s.fire.areas.get a)) ∧
    (s.fire.abort = true → ∃ t, exec .abortHoldReleased s = .next t ∧ t.fire.abort = false ∧
      t = [Area.vaultA, .vaultB, .staging, .hatch].foldl (fun (t : State) a => match (t.fire.areas.get a).state with
        | .held => t.changeFire a (.countdown s.vault.uptime)
        | _ => t) { s.settleAbort .low with fire := { s.fire with abort := false } } ∧
      t.inputs = { s.inputs with abort := ⟨.low, .low⟩ } ∧
      t.fire.detectors = s.fire.detectors ∧ t.vault = s.vault ∧ t.accumulators = s.accumulators ∧
      t.climate.channels = s.climate.channels ∧
      ∀ a, ((s.fire.areas.get a).state = .held →
          t.fire.areas.get a = { s.fire.areas.get a with state := .countdown s.vault.uptime }) ∧
        ((s.fire.areas.get a).state ≠ .held → t.fire.areas.get a = s.fire.areas.get a)))

/-- The discharge delay's expiry takes the area to DISCHARGED with agent-spent set; its release pulse waits on the
write of its fire record when agent-spent was clear, and there is no pulse when it was set, but AGENT_SPENT, which waits
on that write (R49, log 27). FIRE_STATE and what the other blocks do follow in the order of R55, after the hand-over of
the fire record (log 35). The pulse goes off 2 s after it went on, whatever the fire state (R50). The vent time's expiry returns the area to QUIET (R52). An expiry
that is not due has no effect (log 3). -/
def Obligations.DischargePulsesOnceAndVents : Prop :=
  (∀ (a : Area) (start : Nat) (s : State), s.power = .running → (s.fire.areas.get a).state = .countdown start →
    let x := s.fire.areas.get a
    let v := (s.onFireArea a fun y => { y with state := .discharged, agentSpent := true }).persist (.fireFlags a)
    (s.vault.uptime < start + x.settings.delay → exec (.dischargeDelayExpiry a) s = .next s) ∧
    (start + x.settings.delay ≤ s.vault.uptime → ∃ t, exec (.dischargeDelayExpiry a) s = .next t ∧
      t.fire.areas = s.fire.areas.set a { x with state := .discharged, agentSpent := true } ∧
      t.fire.detectors = s.fire.detectors ∧ t.vault = s.vault ∧ t.accumulators = s.accumulators ∧
      (x.agentSpent = true → t.store.pulses = s.store.pulses ∧
        t = (v.announceFire a x.state s.fire.blocked).notify (v.awaits [.fireFlags a]) (.agentSpent a)) ∧
      (x.agentSpent = false → ∃ ticket,
        t = ({ v with store := { v.store with pulses := v.store.pulses ++ [(ticket, a)] } }).announceFire a x.state
          s.fire.blocked ∧
        t.store.pulses = s.store.pulses ++ [(ticket, a)] ∧
        ∃ j ∈ t.store.inflight.toList ++ t.store.queue, j.ticket = ticket ∧ j.record = .fireFlags a ∧
          j.content = .fireFlags true true))) ∧
  (∀ (a : Area) (s : State), s.power = .running → (∀ n, (s.fire.areas.get a).state ≠ .countdown n) →
    exec (.dischargeDelayExpiry a) s = .next s) ∧
  (∀ (a : Area) (on : Nat) (s : State), s.power = .running → (s.fire.areas.get a).pulse = some on →
    (on + 2 ≤ s.vault.uptime →
      exec (.releasePulseEnd a) s = .next (s.onFireArea a fun x => { x with pulse := none })) ∧
    (s.vault.uptime < on + 2 → exec (.releasePulseEnd a) s = .next s)) ∧
  (∀ (a : Area) (s : State), s.power = .running → (s.fire.areas.get a).pulse = none →
    exec (.releasePulseEnd a) s = .next s) ∧
  (∀ (a : Area) (start : Nat) (s : State), s.power = .running → (s.fire.areas.get a).state = .venting start →
    (start + (s.fire.areas.get a).settings.vent ≤ s.vault.uptime →
      exec (.ventTimeExpiry a) s = .next (s.returnToQuiet a)) ∧
    (s.vault.uptime < start + (s.fire.areas.get a).settings.vent → exec (.ventTimeExpiry a) s = .next s)) ∧
  (∀ (a : Area) (s : State), s.power = .running → (∀ n, (s.fire.areas.get a).state ≠ .venting n) →
    exec (.ventTimeExpiry a) s = .next s)

/-- The return to QUIET clears the call latch, drops the latch of each of the area's detectors in ALARM to its present
line condition with alarm giving NORMAL, each change with DETECTOR, and marks for re-taking the detectors whose condition is
alarm and an active call point; other areas and their detectors stay (R53); and FIRE_STATE, the sounders, the climate
unit, a dispatch attempt and the hatch unit follow in the order of R55. The re-taking scan takes the detectors in number
order and then the call points in area order (log 16): every mark is cleared; a marked detector
whose line condition is still alarm, and that is not ISOLATED (R40, log 34), is in ALARM, and if it was not, its area
acts on the entry as R46 gives: a QUIET or PRE_ALARM area goes into the countdown under SINGLE or with two of its
detectors in ALARM, and else is in PRE_ALARM; a marked call point that is still active sets its call latch and takes an
area in QUIET or PRE_ALARM into the countdown, or HELD while abort-hold is ACTIVE; an area with nothing marked, and one
in COUNTDOWN or later, keeps its state (R43, R45, R46, R47, R53). -/
def Obligations.ReturnToQuietAndRetake : Prop :=
  (∀ (a : Area) (s : State),
     let t := s.returnToQuiet a
     let x := s.fire.areas.get a
     t.fire.areas = s.fire.areas.set a
       { x with state := .quiet, callLatch := false, callRetake := x.callRetake || x.callActive } ∧
     (∀ d : Detector,
       let y := s.fire.detectors[d]
       (y.assignment ≠ some a → t.fire.detectors[d] = y) ∧
       (y.assignment = some a → t.fire.detectors[d] =
         { y with
           state := if y.state = .alarm then (if y.condition = .fault then .fault else .normal) else y.state
           retake := y.retake || decide (y.condition = .alarm) })) ∧
     t.fire.abort = s.fire.abort ∧ t.vault = s.vault ∧ t.accumulators = s.accumulators ∧
     (let v := s.onFireArea a fun x => { x with state := .quiet, callLatch := false }
      let w := (List.finRange 12).foldl (fun (w : State) (d : Detector) =>
        let y := s.fire.detectors[d]
        if y.assignment = some a ∧ y.state = .alarm then
          w.changeDetector d (if y.condition = .fault then .fault else .normal) else w) v
      t = ({ w with fire := { w.fire with detectors := t.fire.detectors, areas := t.fire.areas } }).announceFire a x.state
        s.fire.blocked)) ∧
  (∀ s : State, s.power = .running →
    let v := (List.finRange 12).foldl (fun (t : State) (d : Detector) =>
      let y := t.fire.detectors[d]
      let u := t.onDetector d fun y => { y with retake := false }
      if y.retake = false then t
      else if y.condition = .alarm ∧ y.state ≠ .isolated ∧ y.state ≠ .alarm then (u.changeDetector d .alarm).alarmEntry d
      else u) s
    exec .retakeAtScan s = .next ([Area.vaultA, .vaultB, .staging, .hatch].foldl (fun (t : State) a =>
      let x := t.fire.areas.get a
      let u := t.onFireArea a fun x => { x with callRetake := false }
      let w := u.onFireArea a fun x => { x with callLatch := true }
      if x.callRetake = false then t
      else if x.callActive = false ∨ x.callLatch = true then u
      else if x.state.late = true then w else w.enterCountdown a) v)) ∧
  (∀ s : State, s.power = .running → ∃ t, exec .retakeAtScan s = .next t ∧
     (∀ d : Detector,
       let y := s.fire.detectors[d]
       t.fire.detectors[d] = { y with
         retake := false
         state := if y.retake = true ∧ y.condition = .alarm ∧ y.state ≠ .isolated then .alarm else y.state }) ∧
     (∀ a : Area,
       let x := s.fire.areas.get a
       let y := t.fire.areas.get a
       y = { x with callRetake := false, callLatch := x.callLatch || (x.callRetake && x.callActive), state := y.state } ∧
       (x.state.late = true → y.state = x.state) ∧
       (x.callRetake = false →
         (∀ d : Detector, s.fire.detectors[d].assignment = some a → s.fire.detectors[d].retake = false) → y.state = x.state) ∧
       (x.callRetake = true → x.callActive = true → x.callLatch = false → x.state.late = false →
         y.state = if s.fire.abort then .held else .countdown s.vault.uptime) ∧
       (x.state.late = false → ¬ (x.callRetake = true ∧ x.callActive = true ∧ x.callLatch = false) →
         let enters := ∃ d : Detector, s.fire.detectors[d].assignment = some a ∧ s.fire.detectors[d].retake = true ∧
           s.fire.detectors[d].condition = .alarm ∧ s.fire.detectors[d].state ≠ .isolated ∧ s.fire.detectors[d].state ≠ .alarm
         let count := t.fire.detectors.toList.countP fun z => z.assignment == some a && z.state == .alarm
         (¬ enters → y.state = x.state) ∧
         (enters → (x.settings.coincidence = .single ∨ 2 ≤ count) →
           y.state = if s.fire.abort then .held else .countdown s.vault.uptime) ∧
         (enters → x.settings.coincidence = .double → count < 2 → y.state = .preAlarm))) ∧
     t.fire.abort = s.fire.abort ∧ t.vault = s.vault ∧ t.accumulators = s.accumulators)

/-- RESET_AREA acts by the area's state: OK without a change in QUIET, the return to QUIET from PRE_ALARM and HELD,
VENTING from DISCHARGED with the fire record written, STATE in COUNTDOWN and VENTING (R51). CONFIRM_AREA takes
PRE_ALARM into the countdown and is refused with STATE in every other state (R47). An area number outside 1..4 is
INVALID. The response follows the notices of the change (log 28), and the fire record is handed to the store before
FIRE_STATE VENTING (log 35).

RECHARGED: refused with BUSY during a format, then MODE outside MAINTENANCE, INVALID for an area outside 1..4,
STATE unless the area is QUIET. Else agent-spent is cleared, the fire record is handed to the store and OK waits on its
write; on an area whose agent-spent is already clear it answers OK and writes nothing. The clear sends no notice, and
the next AREA_QUERY reads AGENT_SPENT clear (R54). -/
def Obligations.AreaRequestsActByFireState : Prop :=
  (∀ (h : ReqHead) (n : Nat) (s : State),
    (s.accepts h .resetArea →
      let u := s.received h
      ((n < 1 ∨ 4 < n) → exec (.resetArea h n) s = .next (u.refuse h .resetArea .invalid)) ∧
      ∀ a : Area, n = a.number →
        let x := (s.fire.areas.get a).state
        (x = .quiet → exec (.resetArea h n) s = .next (u.answer h .resetArea [] .ok .none)) ∧
        (x = .preAlarm ∨ x = .held →
          exec (.resetArea h n) s = .next ((u.returnToQuiet a).answer h .resetArea [] .ok .none)) ∧
        (x = .discharged →
          let v := ((u.onFireArea a fun y => { y with state := .venting s.vault.uptime }).persist (.fireFlags a)).announceFire
            a .discharged u.fire.blocked
          exec (.resetArea h n) s = .next (v.answer h .resetArea (v.awaits [.fireFlags a]) .ok .none)) ∧
        ((∃ m, x = .countdown m ∨ x = .venting m) →
          exec (.resetArea h n) s = .next (u.refuse h .resetArea .state))) ∧
    (s.accepts h .confirmArea →
      let u := s.received h
      ((n < 1 ∨ 4 < n) → exec (.confirmArea h n) s = .next (u.refuse h .confirmArea .invalid)) ∧
      ∀ a : Area, n = a.number →
        ((s.fire.areas.get a).state = .preAlarm →
          exec (.confirmArea h n) s = .next ((u.enterCountdown a).answer h .confirmArea [] .ok .none)) ∧
        ((s.fire.areas.get a).state ≠ .preAlarm →
          exec (.confirmArea h n) s = .next (u.refuse h .confirmArea .state)))) ∧
  (∀ (h : ReqHead) (n : Nat) (s : State), s.power = .running → (s.link h.port).outstanding = false →
    h.lengthRight = true → h.port = .facility →
    let c := Instr.recharged h n
    let u := s.received h
    (s.store.format.inFlight = true → exec c s =
      .next ((s.validFrame .facility).postResponse .facility ⟨.recharged, h.tag, .busy, .none, true⟩)) ∧
    (s.store.format = .none → s.vault.mode ≠ .maintenance → exec c s = .next (u.refuse h .recharged .mode)) ∧
    (s.store.format = .none → s.vault.mode = .maintenance → (n < 1 ∨ 4 < n) →
      exec c s = .next (u.refuse h .recharged .invalid)) ∧
    (∀ a : Area, s.store.format = .none → s.vault.mode = .maintenance → n = a.number →
      let x := s.fire.areas.get a
      let v := (u.onFireArea a fun y => { y with agentSpent := false }).persist (.fireFlags a)
      (x.state ≠ .quiet → exec c s = .next (u.refuse h .recharged .state)) ∧
      (x.state = .quiet → x.agentSpent = false → exec c s = .next (u.answer h .recharged [] .ok .none)) ∧
      (x.state = .quiet → x.agentSpent = true →
        exec c s = .next (v.answer h .recharged (v.awaits [.fireFlags a]) .ok .none) ∧
        v.awaits [.fireFlags a] ≠ [] ∧
        (∀ p : Port, ((v.answer h .recharged (v.awaits [.fireFlags a]) .ok .none).link p).notices = (u.link p).notices) ∧
        ∀ p : Port, ((v.answer h .recharged (v.awaits [.fireFlags a]) .ok .none).areaReport p (.area a)).outputs.any
          (fun o => o.agentSpent) = false)))

/-- SET_FIRE, in both forms: MODE, INVALID and STATE in that order; then the settings are replaced, the configuration
is handed to the store and OK waits on that write with the previous settings (R58, R59). A detector that takes new
settings has its mark cleared, and PROTECTION_OFF is worked out again (R53, R59); after the OK, at the end of the same
write (StoreWriteEndCommits; log 55), it is evaluated afresh from its lines then, unless ISOLATED, and one then assigned
and in ALARM counts as entering it (R59); an ALARM that it had latched as an assigned detector stays latched while it is
assigned (R39, log 29), and that of an unassigned one goes with its lines (R41). ISOLATE sets and ends isolation, and clears the detector's mark
(R40, R53), also where it changes nothing else (log 30), and its response follows the notices of the change (log 28). -/
def Obligations.FireSettingsAndIsolation : Prop :=
  (∀ (h : ReqHead) (n delay vent : Nat) (co : Option Coincidence) (s : State), s.accepts h .setFire →
    let u := s.received h
    let c := Instr.setFireArea h n co delay vent
    let quiet := ∀ a, (s.fire.areas.get a).state = .quiet
    let inRange := 1 ≤ n ∧ n ≤ 4 ∧ co.isSome = true ∧ 10 ≤ delay ∧ delay ≤ 60 ∧ 60 ≤ vent ∧ vent ≤ 3600
    (s.vault.mode ≠ .maintenance → exec c s = .next (u.refuse h .setFire .mode)) ∧
    (s.vault.mode = .maintenance → ¬ inRange → exec c s = .next (u.refuse h .setFire .invalid)) ∧
    (s.vault.mode = .maintenance → inRange → ¬ quiet → exec c s = .next (u.refuse h .setFire .state)) ∧
    (∀ (a : Area) (k : Coincidence), s.vault.mode = .maintenance → inRange → quiet → n = a.number → co = some k →
      let v := (u.onFireArea a fun x => { x with settings := ⟨k, delay, vent⟩ }).persist .config
      exec c s = .next (v.answer h .setFire (v.awaits [.config]) .ok (.fireArea (s.fire.areas.get a).settings)))) ∧
  (∀ (h : ReqHead) (n : Nat) (to_ : AssignField) (pol : Option Polarity) (s : State), s.accepts h .setFire →
    let u := s.received h
    let c := Instr.setFireDetector h n to_ pol
    let quiet := ∀ a, (s.fire.areas.get a).state = .quiet
    let inRange := 1 ≤ n ∧ n ≤ 12 ∧ pol.isSome = true ∧ (to_ = .unassigned ∨ ∃ m, to_ = .area m ∧ 1 ≤ m ∧ m ≤ 4)
    (s.vault.mode ≠ .maintenance → exec c s = .next (u.refuse h .setFire .mode)) ∧
    (s.vault.mode = .maintenance → ¬ inRange → exec c s = .next (u.refuse h .setFire .invalid)) ∧
    (s.vault.mode = .maintenance → inRange → ¬ quiet → exec c s = .next (u.refuse h .setFire .state)) ∧
    (∀ (d : Detector) (p : Polarity) (to' : Option Area), s.vault.mode = .maintenance → quiet → n = d.val + 1 →
      pol = some p → (to_ = .unassigned ∧ to' = none ∨ ∃ a : Area, to_ = .area a.number ∧ to' = some a) →
      let y := s.fire.detectors[d]
      let v := (u.onDetector d fun x => { x with assignment := to', polarity := p, retake := false }).updateTrouble.persist
        .config
      let w := v.answer h .setFire (v.awaits [.config]) .ok (.fireDetector ⟨y.assignment, y.polarity⟩)
      let latched : Bool := decide (y.assignment.isSome = true ∨ y.state ≠ .alarm)
      ∃ ticket, (v.awaits [.config]).getLast? = some ticket ∧ exec c s = .next { w with store := { w.store with
        followups := w.store.followups ++ [(ticket, .evaluate d latched)] } })) ∧
  (∀ (d : Detector) (latched : Bool) (s : State), s.followUp (.evaluate d latched) = s.evaluateAfresh d latched) ∧
  (∀ (d : Detector) (latched : Bool) (s : State),
    let y := s.fire.detectors[d]
    let active : Bool := (y.polarity == .activeHigh && y.alarmLine == .high) ||
      (y.polarity == .activeLow && y.alarmLine == .low)
    let named : DetectorState := if active then .alarm else if y.faultLine = .high then .fault else .normal
    let new : DetectorState := if y.state = .isolated then .isolated
      else if y.state = .alarm ∧ latched = true ∧ y.assignment.isSome = true then .alarm else named
    (new = .alarm → s.evaluateAfresh d latched = (s.changeDetector d .alarm).alarmEntry d) ∧
    (new ≠ .alarm → s.evaluateAfresh d latched = s.changeDetector d new)) ∧
  (∀ (h : ReqHead) (n : Nat) (sw : Option Bool) (s : State), s.accepts h .isolate →
    let u := s.received h
    ((n < 1 ∨ 12 < n ∨ sw = none) → exec (.isolate h n sw) s = .next (u.refuse h .isolate .invalid)) ∧
    (∀ (d : Detector) (on : Bool), n = d.val + 1 → sw = some on →
      let y := s.fire.detectors[d]
      let v := u.onDetector d fun x => { x with retake := false }
      let named : DetectorState := match y.condition with | .alarm => .alarm | .fault => .fault | .normal => .normal
      let ok := fun t : State => Host.Outcome.next (t.answer h .isolate [] .ok .none)
      (on = true → y.state ≠ .isolated → exec (.isolate h n sw) s = ok (v.changeDetector d .isolated)) ∧
      (on = false → y.state = .isolated → named = .alarm →
        exec (.isolate h n sw) s = ok ((v.changeDetector d .alarm).alarmEntry d)) ∧
      (on = false → y.state = .isolated → named ≠ .alarm →
        exec (.isolate h n sw) s = ok (v.changeDetector d named)) ∧
      ((on = true ∧ y.state = .isolated ∨ on = false ∧ y.state ≠ .isolated) → exec (.isolate h n sw) s = ok v)))

/-! ## Chapter 4: acclimatisation and moisture exposure -/

/-- The dew point is the held temperature less a fifth of what the humidity, clamped to 200 or more, lacks of 1000; a
channel with held values has one whatever its state, AREA_QUERY reports it, and a channel without has none (R63). An
estimate passes the condensation margin when it is at least margin_out above the Outside dew point, and the test fails
without an estimate or a dew point (R64). The outbound readiness test asks for the margin and the dwell (R70); the
inbound test for the dwell, an estimate within 10 of the reference area's held temperature, and a Staging humidity at
or below the ceiling (R71). An absent estimate or held value fails its test. -/
def Obligations.MarginAndReadinessTests : Prop :=
  ((∀ x : Held, x.humidity ≤ 1000 →
     (200 ≤ x.humidity → x.dewPoint = x.temperature - ((1000 - x.humidity) / 5 : Nat)) ∧
     (x.humidity < 200 → x.dewPoint = x.temperature - 160) ∧
     (-200 ≤ x.temperature → x.temperature ≤ 600 → -360 ≤ x.dewPoint ∧ x.dewPoint ≤ 600)) ∧
   (∀ c : ClimateUnit, c.outsideDewPoint = (c.channels.get .outside).held.map fun x => x.dewPoint) ∧
   (∀ (p : Port) (ch : Channel) (s : State),
     (s.areaReport p ch).dewPoint = (s.climate.channels.get ch).held.map fun x => x.dewPoint) ∧
   (∀ (td e : Int) (margin : Nat), passesMargin (some td) margin (some e) = true ↔ (margin : Int) ≤ e - td) ∧
   (∀ (td : Option Int) (margin : Nat), passesMargin td margin none = false) ∧
   (∀ (e : Option Int) (margin : Nat), passesMargin none margin e = false)) ∧
  (∀ (c : ClimateUnit) (g : StagingSettings) (dwell : Nat) (estimate : Option Int),
     (readyOutTest c g dwell estimate = true ↔
       (∃ e x, estimate = some e ∧ (c.channels.get .outside).held = some x ∧ (g.marginOut : Int) ≤ e - x.dewPoint) ∧
         g.minDwellOut ≤ dwell) ∧
     (readyInTest c g dwell estimate = true ↔
       g.minDwellIn ≤ dwell ∧
       (∃ e x, estimate = some e ∧ (c.channels.get (.area g.inboundRef)).held = some x ∧
         -10 ≤ e - x.temperature ∧ e - x.temperature ≤ 10) ∧
       (∃ x, (c.channels.get (.area .staging)).held = some x ∧ x.humidity ≤ g.rhCeiling)))

/-- The acclimatisation step: the gap times the coupling over 256, truncated toward zero, with a forced unit step; the
product stays within 204 000; and its law, that the estimate lies between its value before and the air temperature,
differs when they were unequal, and with the air held steady is the air temperature after as many steps as the gap, and
stays there (R66). -/
def Obligations.AcclimatisationStepsTowardTheAir : Prop :=
  ∀ (e air : Int) (coupling : Nat), 1 ≤ coupling → coupling ≤ 255 →
    let d := air - e
    let q := (d * coupling).tdiv 256
    (d = 0 → acclimatise e air coupling = e) ∧
    (q ≠ 0 → acclimatise e air coupling = e + q) ∧
    (q = 0 → 0 < d → acclimatise e air coupling = e + 1) ∧
    (q = 0 → d < 0 → acclimatise e air coupling = e - 1) ∧
    (min e air ≤ acclimatise e air coupling ∧ acclimatise e air coupling ≤ max e air) ∧
    (e ≠ air → acclimatise e air coupling ≠ e) ∧
    (d.natAbs ≤ 800 → (d * coupling).natAbs ≤ 204000) ∧
    ∀ n, d.natAbs ≤ n → (fun x => acclimatise x air coupling)^[n] e = air

/-- The effective dose: the stored dose and, with a mark, what the area's accumulator has gained since, saturated,
nothing when it stands below the mark (R74). A settle makes the effective dose the stored one and the accumulator of
the area after the move the mark, evaluates INSPECT, and leaves the effective dose unchanged (R75, R78). An evaluation
finds a record over its dose when the effective dose is at or above the dose limit (R78). -/
def Obligations.SettleKeepsTheEffectiveDose : Prop :=
  (∀ (acc : PerArea Nat) (r : CustodyRecord),
    (r.storedDose = none → effectiveDose acc r = none) ∧
    (∀ d, r.storedDose = some d →
      (r.mark = none → effectiveDose acc r = some d) ∧
      ∀ m a, r.mark = some m → r.area = some a →
        (acc.get a < m → effectiveDose acc r = some (min d 4294967295)) ∧
        (m ≤ acc.get a → effectiveDose acc r = some (min (d + (acc.get a - m)) 4294967295)))) ∧
  (∀ (s : State) (r : CustodyRecord), s.doseOf r = effectiveDose s.accumulators r ∧
    (s.overDose r = true ↔ ∃ x, s.doseOf r = some x ∧ s.staging.settings.doseLimit ≤ x)) ∧
  (∀ (s : State) (r : CustodyRecord) (d : Nat) (after : Option Area), r.storedDose = some d → d ≤ 4294967295 →
    let r' := s.settled after r
    r' = { r with storedDose := s.doseOf r, mark := after.map s.accumulators.get, inspect := r'.inspect } ∧
    (r'.inspect = true ↔ r.inspect = true ∨ ∃ x, s.doseOf r = some x ∧ s.staging.settings.doseLimit ≤ x) ∧
    s.doseOf { r' with area := after } = s.doseOf r)

/-- A Staging sample event: SENSOR_STATE, CLIMATE_ALARM and the accumulator's write come first, and leave the hatch and
the shelf (R21, R22, R31, R73). On the shelf every OCCUPIED slot with an estimate, or with a base for one, is stepped
toward the Staging air and its dwell counted, and none without held values or base (R67, R68, R69); FREE and RESERVED
slots stay. The record that an OCCUPIED slot holds is then READY or STAGED, of its direction, by the outbound or inbound
readiness test of the slot as stepped, and no other record changes, nor any field but the state (R70, R71, R118, R119).
The flips are made in slot order, one to a ready state with READY after its write and after those before it; then each
consignment to which an OUT record that flipped is bound is handed over for the test once, in place order (R119, R129,
R133), with an arbitration where one changed (R143). The sample events of channels 1, 2 and 5 give absent estimates
their base and change nothing else on the shelf (R68, R118). -/
def Obligations.StagingSampleStepsAndFlips : Prop :=
  (∀ (reading : SensorReading) (v : Option Held) (s : State), s.power = .running → custodyWf s.custody = true →
    (s.climate.sweep = .reading (.area .staging) ∧ v = reading.value ∨
      s.climate.sweep = .ended (.area .staging) ∧ v = none) →
    let now := (s.climate.channels.get (.area .staging)).after v
    let state := if now.reported = true ∧ now.state ≠ (s.climate.channels.get (.area .staging)).state
      then s.postNotice (.sensorState (.area .staging) now.state) else s
    let told := match now.held with
      | some x => if alarmLevel s.climate.settings.staging.alarmIndex ≤ x.humidity ∧ s.climate.controls.staging.highRh = false
          then state.postNotice (.climateAlarm .staging x.humidity) else state
      | none => state
    ∃ t, exec (.sampleEvent reading) s = .next t ∧
      (t.climate.channels.get (.area .staging)) = (s.climate.channels.get (.area .staging)).after v ∧
      (∀ n : Fin 32,
        ((s.staging.slots[n] = .free ∨ ∃ l o r, s.staging.slots[n] = .reserved l o r) →
          t.staging.slots[n] = s.staging.slots[n]) ∧
        ∀ l d o dwell e, s.staging.slots[n] = .occupied l d o dwell e →
          (((t.climate.channels.get (.area .staging)).held = none ∨ (e = none ∧ (t.climate.channels.get o).held = none)) →
            t.staging.slots[n] = s.staging.slots[n]) ∧
          ∀ air x, (t.climate.channels.get (.area .staging)).held = some air →
            (e = some x ∨ e = none ∧ ∃ b, (t.climate.channels.get o).held = some b ∧ x = b.temperature) →
            t.staging.slots[n] = .occupied l d o (min 65535 (dwell + 1))
              (some (acclimatise x air.temperature s.climate.settings.staging.coupling))) ∧
      t.custody.map (·.1) = s.custody.map (·.1) ∧
      (∀ p r', recordAt p t.custody = some r' → ∃ r, recordAt p s.custody = some r ∧ r' = { r with state := r'.state } ∧
        (r'.state = r.state ∨ (r.state = .stagedOut ∧ r'.state = .readyOut) ∨ (r.state = .readyOut ∧ r'.state = .stagedOut) ∨
          (r.state = .stagedIn ∧ r'.state = .readyIn) ∨ (r.state = .readyIn ∧ r'.state = .stagedIn))) ∧
      (∀ p r, recordAt p s.custody = some r →
        (∀ (n : Fin 32) d o dwell e, s.staging.slots[n] ≠ .occupied r.label d o dwell e) → recordAt p t.custody = some r) ∧
      (let alone := ∀ (m n : Fin 32) l d d' o o' dwell dwell' e e', s.staging.slots[m] = .occupied l d o dwell e →
         s.staging.slots[n] = .occupied l d' o' dwell' e' → m = n
       (alone → ∀ (n : Fin 32) l d o dwell e p r, t.staging.slots[n] = .occupied l d o dwell e → s.record? l = some (p, r) →
          let pass := match d with
            | .outbound => readyOutTest t.climate s.staging.settings dwell e
            | .inbound => readyInTest t.climate s.staging.settings dwell e
          recordAt p t.custody = some { r with state := match r.state, pass with
            | .stagedOut, true => .readyOut
            | .readyOut, false => .stagedOut
            | .stagedIn, true => .readyIn
            | .readyIn, false => .stagedIn
            | st, _ => st }) ∧
        ∃ (u : State) (places : List (Fin 16)),
          u.custody = s.custody ∧ u.consign = s.consign ∧ u.staging = t.staging ∧ u.vault = s.vault ∧ u.fire = t.fire ∧
          u.climate = { t.climate with sweep := u.climate.sweep } ∧ u.links = told.links ∧ u.hatch = s.hatch ∧
          u.accumulators = t.accumulators ∧ u.inputs = s.inputs ∧ u.power = s.power ∧ u.pending = s.pending ∧
          (let takenIn := ∃ k, s.store.format = .writing k ∧ k ≤ 7
           (takenIn → u.store = s.store) ∧
           (¬ takenIn → u.store =
             s.store.handOver (.accumulator .staging) (.accumulator (t.accumulators.get .staging)))) ∧
          (alone → ∀ i, i ∈ places ↔ ∃ c p r r', s.consign.places[i] = some c ∧ recordAt p s.custody = some r ∧
            recordAt p t.custody = some r' ∧ r'.state ≠ r.state ∧ (r.state = .stagedOut ∨ r.state = .readyOut) ∧
            r.consignment = some c.number) ∧
          places.Pairwise (fun i j => i < j) ∧
          (let (needs, v) := (List.finRange 32).foldl State.flipSlot ([], u)
           let (needs', w) := places.foldl (fun x i => x.2.testConsign x.1 i) (needs, v)
           let z := if w.consign = v.consign then w else w.arbitrate needs'
           t = { z with climate := { z.climate with sweep := .waiting (.area .hatch) s.vault.uptime } }))) ∧
  (∀ (reading : SensorReading) (v : Option Held) (c : Channel) (s : State), s.power = .running →
    (c = .area .vaultA ∨ c = .area .vaultB ∨ c = .outside) →
    (s.climate.sweep = .reading c ∧ v = reading.value ∨ s.climate.sweep = .ended c ∧ v = none) →
    ∃ t, exec (.sampleEvent reading) s = .next t ∧ t.staging = { s.staging with slots := t.staging.slots } ∧
      t.custody = s.custody ∧ t.consign = s.consign ∧
      ∀ n : Fin 32, t.staging.slots[n] = match s.staging.slots[n], (t.climate.channels.get c).held with
        | .occupied l d o dwell none, some x => if o = c then .occupied l d o dwell (some x.temperature)
            else .occupied l d o dwell none
        | y, _ => y) ∧
  (∀ (needs : List Nat) (n : Fin 32) (l : Label) (d : Direction) (o : Channel) (dwell p : Nat) (e : Option Int)
    (r : CustodyRecord) (s : State), s.staging.slots[n] = .occupied l d o dwell e → s.record? l = some (p, r) →
    let pass := match d with
      | .outbound => readyOutTest s.climate s.staging.settings dwell e
      | .inbound => readyInTest s.climate s.staging.settings dwell e
    let ready := fun (st : CustodyState) (dir : Direction) =>
      let t := s.putRecord p { r with state := st }
      let needs' := needs ++ t.awaits [.custody p]
      (needs', t.notify needs' (.ready r.label dir n))
    (r.state = .stagedOut → pass = true → State.flipSlot (needs, s) n = ready .readyOut .outbound) ∧
    (r.state = .stagedIn → pass = true → State.flipSlot (needs, s) n = ready .readyIn .inbound) ∧
    (r.state = .readyOut → pass = false →
      State.flipSlot (needs, s) n = (needs, s.putRecord p { r with state := .stagedOut })) ∧
    (r.state = .readyIn → pass = false →
      State.flipSlot (needs, s) n = (needs, s.putRecord p { r with state := .stagedIn })) ∧
    ((r.state = .stagedOut ∨ r.state = .stagedIn) → pass = false → State.flipSlot (needs, s) n = (needs, s)) ∧
    ((r.state = .readyOut ∨ r.state = .readyIn) → pass = true → State.flipSlot (needs, s) n = (needs, s)))

/-! ## Chapter 5: the custody table -/

/-- ENROL, RETIRE and RELOCATE: their checks in order, and the record each makes, removes or moves, with its dose,
mark, INSPECT and stamp; the response waits on the writes (R89, R91, R93, R94, R95). A creation sets the record at its
place and no other, and hands over the record first and the key entry naming its label last; a removal leaves no record
at the place and every other as it was, and hands over the free key entry first and the erased record last, each as a
write that follows every write that waits (R92, R93, R179; log 11); and a creation keeps each label at most once in the
table (R82). The free place is the lowest below 2048 that holds no record, and there is none when 2048 stand; a label is
looked up in the table's records (R82). -/
def Obligations.EnrolRetireRelocate : Prop :=
  (∀ (h : ReqHead) (l : Label) (loc : Location) (s : State), s.accepts h .enrol →
    let u := s.received h
    let c := Instr.enrol h l loc
    let a := resolveLocation s.vault.descriptors loc
    (goodLabel l = false → exec c s = .next (u.refuse h .enrol .invalid)) ∧
    (goodLabel l = true → (s.record? l).isSome = true → exec c s = .next (u.refuse h .enrol .duplicate)) ∧
    (goodLabel l = true → s.record? l = none → s.freePlace = none → exec c s = .next (u.refuse h .enrol .full)) ∧
    (∀ p, goodLabel l = true → s.record? l = none → s.freePlace = some p →
      let v := u.createRecord p
        { label := l, state := .inVault, location := some loc, area := some a, slot := none, consignment := none,
          courier := none, storedDose := some 0, mark := some (s.accumulators.get a), inspect := false, new := false,
          damaged := false, fireHeld := false, lastMove := some s.vault.clock }
      exec c s = .next (v.answer h .enrol (v.awaits [.custody p, .key p]) .ok (.enrolled a)))) ∧
  (∀ (h : ReqHead) (l : Label) (s : State), s.accepts h .retire →
    let u := s.received h
    let c := Instr.retire h l
    (goodLabel l = false → exec c s = .next (u.refuse h .retire .invalid)) ∧
    (goodLabel l = true → s.record? l = none → exec c s = .next (u.refuse h .retire .notFound)) ∧
    (∀ p r, goodLabel l = true → s.record? l = some (p, r) →
      (r.state ≠ .inVault → r.state ≠ .withCourier → exec c s = .next (u.refuse h .retire .state)) ∧
      ((r.state = .inVault ∨ r.state = .withCourier) →
        let v := u.removeRecord p
        exec c s = .next (v.answer h .retire (v.awaits [.key p, .custody p]) .ok (.retired r (s.doseOf r)))))) ∧
  (∀ (h : ReqHead) (l : Label) (loc : Location) (s : State), s.accepts h .relocate →
    let u := s.received h
    let c := Instr.relocate h l loc
    let a := resolveLocation s.vault.descriptors loc
    (goodLabel l = false → exec c s = .next (u.refuse h .relocate .invalid)) ∧
    (goodLabel l = true → s.record? l = none → exec c s = .next (u.refuse h .relocate .notFound)) ∧
    (∀ p r, goodLabel l = true → s.record? l = some (p, r) →
      (r.state ≠ .inVault → r.state ≠ .unknown → exec c s = .next (u.refuse h .relocate .state)) ∧
      (r.state = .inVault →
        let r' : CustodyRecord :=
          { r with location := some loc, area := some a, slot := none, consignment := none,
                   storedDose := effectiveDose s.accumulators r, mark := some (s.accumulators.get a),
                   inspect := r.inspect || s.overDose r, lastMove := some s.vault.clock }
        let v := u.putRecord p r'
        exec c s = .next (v.answer h .relocate (v.awaits [.custody p]) .ok (.relocated a (s.doseOf r')))) ∧
      (r.state = .unknown →
        let r' : CustodyRecord :=
          { label := l, state := .inVault, location := some loc, area := some a, slot := none, consignment := none,
            courier := none, storedDose := some 0, mark := some (s.accumulators.get a), inspect := true, new := false,
            damaged := false, fireHeld := false, lastMove := some s.vault.clock }
        let v := u.putRecord p r'
        exec c s = .next (v.answer h .relocate (v.awaits [.custody p]) .ok (.relocated a (some 0)))))) ∧
  (∀ s : State, custodyWf s.custody = true →
    (∀ p, s.freePlace = some p ↔ p < 2048 ∧ recordAt p s.custody = none ∧ ∀ q, q < p → recordAt q s.custody ≠ none) ∧
    (s.freePlace = none ↔ s.custody.length = 2048) ∧
    (∀ l p r, s.record? l = some (p, r) → recordAt p s.custody = some r ∧ r.label = l) ∧
    (∀ l, s.record? l = none ↔ ∀ p r, recordAt p s.custody = some r → r.label ≠ l)) ∧
  (let writes := fun st : Store => st.inflight.toList ++ st.queue
   (∀ (p : Nat) (r : CustodyRecord) (s : State),
     let t := s.createRecord p r
     let k := s.store.nextTicket
     ({ s with custody := t.custody }).talksOnly t ∧ t.links = s.links ∧ t.store.waiting = s.store.waiting ∧
     (∀ q, recordAt q t.custody = if q = p then some r else recordAt q s.custody) ∧
     writes t.store = writes s.store ++ [⟨k, .custody p, .custody (some r)⟩, ⟨k + 1, .key p, .key (some r.label)⟩] ∧
     ((∀ x ∈ s.custody, x.2.label ≠ r.label) → (s.custody.map fun x => x.2.label).Nodup →
       (t.custody.map fun x => x.2.label).Nodup)) ∧
   (∀ (p : Nat) (s : State),
     let t := s.removeRecord p
     let k := s.store.nextTicket
     ({ s with custody := t.custody }).talksOnly t ∧ t.links = s.links ∧ t.store.waiting = s.store.waiting ∧
     (∀ q, recordAt q t.custody = if q = p then none else recordAt q s.custody) ∧
     writes t.store = writes s.store ++ [⟨k, .key p, .key none⟩, ⟨k + 1, .custody p, .custody none⟩]))

/-- CUSTODY_QUERY evaluates INSPECT and reports the record whole after the evaluation, an UNKNOWN one without
evaluation or write (R78, R96, R97). SLOT_QUERY reports a slot's fields, the seconds left of a reservation, and the
custody state of the label it holds (R117). -/
def Obligations.CustodyAndSlotQueriesReport : Prop :=
  (∀ (h : ReqHead) (l : Label) (s : State), s.accepts h .custodyQuery →
    let u := s.received h
    let c := Instr.custodyQuery h l
    (goodLabel l = false → exec c s = .next (u.refuse h .custodyQuery .invalid)) ∧
    (goodLabel l = true → s.record? l = none → exec c s = .next (u.refuse h .custodyQuery .notFound)) ∧
    (∀ p r, goodLabel l = true → s.record? l = some (p, r) →
      (s.overDose r = true → r.state ≠ .unknown →
        let r' : CustodyRecord := { r with inspect := true }
        let v := u.putRecord p r'
        exec c s = .next (v.answer h .custodyQuery (v.awaits [.custody p]) .ok
          (.custody ⟨r', s.doseOf r, some s.staging.settings.doseLimit⟩))) ∧
      (s.overDose r = false → r.state ≠ .unknown → exec c s =
        .next (u.answer h .custodyQuery [] .ok (.custody ⟨r, s.doseOf r, some s.staging.settings.doseLimit⟩))) ∧
      (r.state = .unknown → r.storedDose = none →
        exec c s = .next (u.answer h .custodyQuery [] .ok (.custody ⟨r, none, none⟩))))) ∧
  (∀ (h : ReqHead) (slot : Nat) (s : State), s.accepts h .slotQuery →
    let u := s.received h
    let c := Instr.slotQuery h slot
    (32 ≤ slot → exec c s = .next (u.refuse h .slotQuery .invalid)) ∧
    (∀ n : Fin 32, slot = n.val → ∃ r : SlotReport, exec c s = .next (u.answer h .slotQuery [] .ok (.slot r)) ∧
      r.number = n ∧ r.slot = s.staging.slots[n] ∧
      (s.staging.slots[n] = .free → r.secondsLeft = none ∧ r.custody = none) ∧
      (∀ l o t, s.staging.slots[n] = .reserved l o t →
        r.secondsLeft = some (t + s.staging.settings.pickTimeout * 60 - s.vault.uptime) ∧
        r.custody = (s.record? l).map fun x => x.2.state) ∧
      (∀ l d o w e, s.staging.slots[n] = .occupied l d o w e →
        r.secondsLeft = none ∧ r.custody = (s.record? l).map fun x => x.2.state)))

/-- DOSE_RESET: INVALID for a malformed label, NOT_FOUND for one not in the table, STATE for a WITH_COURIER or UNKNOWN
record. Else the stored dose is 0, the mark the present accumulator of the record's area, INSPECT is cleared, every
other field stays, the record is handed to the store, and OK waits on the write with the effective dose before (R98).
-/
def Obligations.DoseResetStartsTheDoseAfresh : Prop :=
  ∀ (h : ReqHead) (l : Label) (s : State), s.accepts h .doseReset →
    let u := s.received h
    let c := Instr.doseReset h l
    (goodLabel l = false → exec c s = .next (u.refuse h .doseReset .invalid)) ∧
    (goodLabel l = true → s.record? l = none → exec c s = .next (u.refuse h .doseReset .notFound)) ∧
    (∀ p r, goodLabel l = true → s.record? l = some (p, r) →
      (r.state = .withCourier ∨ r.state = .unknown → exec c s = .next (u.refuse h .doseReset .state)) ∧
      (∀ a, r.state ≠ .withCourier → r.state ≠ .unknown → r.area = some a →
        let v := u.putRecord p { r with storedDose := some 0, mark := some (s.accumulators.get a), inspect := false }
        exec c s = .next (v.answer h .doseReset (v.awaits [.custody p]) .ok (.doseBefore (s.doseOf r))) ∧
        v.awaits [.custody p] ≠ []))

/-! ## Chapter 6: check-out and staging -/

/-- CHECKOUT: its checks in order, where the dose check sets INSPECT though it refuses (R104); then the entry joins the
queue's tail, the record is REQUESTED, the response waits on its write, HOLD is sent once as the length reaches 20, and
a dispatch attempt follows (R105, R106). -/
def Obligations.CheckoutJoinsTheQueue : Prop :=
  ∀ (h : ReqHead) (l : Label) (s : State), s.accepts h .checkout →
    let u := s.received h
    let c := Instr.checkout h l
    let refused := fun code => Host.Outcome.next (u.refuse h .checkout code)
    (s.vault.mode = .maintenance → exec c s = refused .mode) ∧
    (s.vault.mode ≠ .maintenance → goodLabel l = false → exec c s = refused .invalid) ∧
    (s.vault.mode ≠ .maintenance → goodLabel l = true → s.record? l = none → exec c s = refused .notFound) ∧
    (∀ p r, s.vault.mode ≠ .maintenance → goodLabel l = true → s.record? l = some (p, r) →
      (r.state = .requested → exec c s = refused .duplicate) ∧
      (r.state ≠ .requested → r.state ≠ .inVault → exec c s = refused .state) ∧
      (r.state = .inVault → r.inspect = true → exec c s = refused .state) ∧
      (r.state = .inVault → r.inspect = false → s.overDose r = true →
        let v := u.putRecord p { r with inspect := true }
        exec c s = .next (v.answer h .checkout (v.awaits [.custody p]) .dose .none)) ∧
      (r.state = .inVault → r.inspect = false → s.overDose r = false → 24 ≤ s.staging.queue.length →
        exec c s = refused .full) ∧
      (r.state = .inVault → r.inspect = false → s.overDose r = false → s.staging.queue.length < 24 →
        let len := s.staging.queue.length + 1
        let v := ({ u with staging := { u.staging with queue := u.staging.queue ++ [(⟨l, s.vault.clock⟩ : QueueEntry)] } }).putRecord p
          { r with state := .requested, lastMove := some s.vault.clock }
        let needs := v.awaits [.custody p]
        let w := v.answer h .checkout needs .ok (.checkout len s.vault.clock)
        (len = 20 → s.staging.holdSent = false → exec c s =
          .next ((({ w with staging := { w.staging with holdSent := true } }).notify needs .hold).dispatch needs)) ∧
        (¬ (len = 20 ∧ s.staging.holdSent = false) → exec c s = .next (w.dispatch needs))))

/-- CANCEL takes a REQUESTED record out of the queue, with the RESUME test, or a PICKING one out of its slot, with a
dispatch attempt, and returns it to its shelf place (R106, R107). PICK_LAPSED does so for a reservation that has
reached the pick timeout, with its notice (R112); a slot that is not RESERVED, or not yet due, is left (log 3), and so is
every slot while the lapses of a SET_STAGING are to come (log 55). SET_STAGING, in MAINTENANCE and in range, replaces the
settings whole and answers OK; an attempt at a changed dose limit takes nothing in that mode (R79, R108), and no slot or
record changes. Behind the OK, at the end of the configuration's write (StoreWriteEndCommits; log 55), every reservation
that is then overdue lapses (R80), in slot number order (log 16); each of these lapses does what PICK_LAPSED does, its
outputs waiting on what the outputs before them wait on too (log 17), and any other slot is left. -/
def Obligations.ReservationsEndByCancelOrLapse : Prop :=
  let back := fun (s : State) (r : CustodyRecord) =>
    ({ r with state := .inVault, slot := none, lastMove := some s.vault.clock } : CustodyRecord)
  (∀ (h : ReqHead) (l : Label) (s : State), s.accepts h .cancel →
    let u := s.received h
    let c := Instr.cancel h l
    (goodLabel l = false → exec c s = .next (u.refuse h .cancel .invalid)) ∧
    (goodLabel l = true → s.record? l = none → exec c s = .next (u.refuse h .cancel .notFound)) ∧
    (∀ p r, goodLabel l = true → s.record? l = some (p, r) →
      (r.state ≠ .requested → r.state ≠ .picking → exec c s = .next (u.refuse h .cancel .state)) ∧
      (r.state = .requested →
        let v := (u.unqueue l).putRecord p (back s r)
        let needs := v.awaits [.custody p]
        let w := v.answer h .cancel needs .ok (.cancelled .requested)
        (v.staging.queue.length ≤ 8 → s.staging.holdSent = true → exec c s =
          .next (({ w with staging := { w.staging with holdSent := false } }).notify needs .resume)) ∧
        (¬ (v.staging.queue.length ≤ 8 ∧ s.staging.holdSent = true) → exec c s = .next w)) ∧
      (∀ n, r.state = .picking → r.slot = some n →
        let v := (u.putSlot n .free).putRecord p (back s r)
        let needs := v.awaits [.custody p]
        exec c s = .next ((v.answer h .cancel needs .ok (.cancelled .picking)).dispatch needs)))) ∧
  (∀ (n : Fin 32) (l : Label) (o : Area) (since : Nat) (s : State), s.power = .running →
    s.staging.slots[n] = .reserved l o since →
    ((s.vault.uptime < since + s.staging.settings.pickTimeout * 60 ∨ ∃ x ∈ s.store.followups, x.2 = .lapses) →
      exec (.pickLapsed n) s = .next s) ∧
    (∀ p r, since + s.staging.settings.pickTimeout * 60 ≤ s.vault.uptime → (∀ x ∈ s.store.followups, x.2 ≠ .lapses) →
      s.record? l = some (p, r) →
      let v := (s.putSlot n .free).putRecord p (back s r)
      let needs := v.awaits [.custody p]
      exec (.pickLapsed n) s = .next ((v.notify needs (.pickLapsed l)).dispatch needs))) ∧
  (∀ (n : Fin 32) (s : State), s.power = .running → (∀ l o t, s.staging.slots[n] ≠ .reserved l o t) →
    exec (.pickLapsed n) s = .next s) ∧
  (∀ (h : ReqHead) (f : StagingFields) (s : State), s.accepts h .setStaging →
    let u := s.received h
    let c := Instr.setStaging h f
    let inRange := f.marginOut ≤ 100 ∧ f.minDwellOut ≤ 240 ∧ f.minDwellIn ≤ 1440 ∧ 300 ≤ f.rhCeiling ∧ f.rhCeiling ≤ 800 ∧
      (f.inboundRef = 1 ∨ f.inboundRef = 2) ∧ f.inboundReserve ≤ 16 ∧ 5 ≤ f.pickTimeout ∧ f.pickTimeout ≤ 120 ∧
      1 ≤ f.doseLimit ∧ f.doseLimit ≤ 4294967295 ∧ 300 ≤ f.exchangeTimeout ∧ f.exchangeTimeout ≤ 3600
    (s.vault.mode ≠ .maintenance → exec c s = .next (u.refuse h .setStaging .mode)) ∧
    (s.vault.mode = .maintenance → ¬ inRange → exec c s = .next (u.refuse h .setStaging .invalid)) ∧
    (s.vault.mode = .maintenance → inRange →
      let g : StagingSettings := ⟨f.marginOut, f.minDwellOut, f.minDwellIn, f.rhCeiling,
        if f.inboundRef = 1 then .vaultA else .vaultB, f.inboundReserve, f.pickTimeout, f.doseLimit, f.exchangeTimeout⟩
      let v := ({ u with staging := { u.staging with settings := g } }).persist .config
      let needs := v.awaits [.config]
      let w := v.answer h .setStaging needs .ok (.staging s.staging.settings)
      w.dispatch needs = w ∧ w.staging.slots = s.staging.slots ∧ w.custody = s.custody ∧
      ∃ ticket, needs.getLast? = some ticket ∧
        exec c s = .next { w with store := { w.store with followups := w.store.followups ++ [(ticket, .lapses)] } })) ∧
  (∀ s : State, s.followUp .lapses = ((List.finRange 32).foldl (fun x n => x.2.lapsePick x.1 n) ([], s)).2) ∧
  (∀ (needs : List Nat) (n : Fin 32) (s : State),
    (∀ l o since p r, s.staging.slots[n] = .reserved l o since →
      since + s.staging.settings.pickTimeout * 60 ≤ s.vault.uptime → s.record? l = some (p, r) →
      let v := (s.putSlot n .free).putRecord p (back s r)
      let needs' := needs ++ v.awaits [.custody p]
      s.lapsePick needs n = (needs', (v.notify needs' (.pickLapsed l)).dispatch needs')) ∧
    ((∀ l o since, s.staging.slots[n] = .reserved l o since →
      s.vault.uptime < since + s.staging.settings.pickTimeout * 60) → s.lapsePick needs n = (needs, s)))

/-- A dispatch attempt runs only in STAFFED, with no area in COUNTDOWN or later and with more FREE slots than the
inbound reserve (R108). Each round takes the first entry whose record is in an area in QUIET: one with INSPECT, or
found at or above the dose limit, is dropped back to its shelf with INSPECT and CHECKOUT_DROPPED (R109), the reason of one
that fails both tests being INSPECT (log 56), and any other
is PICKING, with the lowest FREE slot RESERVED for it and PICK (R110). An entry whose record has no area, or one in any
other fire state, PRE_ALARM among them, is passed over (R109). A removal that leaves 8 or fewer sends RESUME
when HOLD was sent (R106). -/
def Obligations.DispatchTakesEntriesInOrder : Prop :=
  (∀ (needs : List Nat) (s : State),
    (s.vault.mode ≠ .staffed ∨ (∃ a, (s.fire.areas.get a).state.late = true) ∨
      (s.staging.slots.toList.filter (· == .free)).length ≤ s.staging.settings.inboundReserve) →
    s.dispatch needs = s) ∧
  (∀ (l : Label) (a : Area) (s : State), s.quietArea l = some a ↔
    ∃ p r, s.record? l = some (p, r) ∧ r.area = some a ∧ (s.fire.areas.get a).state = .quiet) ∧
  (∀ (needs : List Nat) (s : State), (∀ e ∈ s.staging.queue, s.quietArea e.label = none) → s.dispatch needs = s) ∧
  (∀ (needs : List Nat) (before after : List QueueEntry) (e : QueueEntry) (p : Nat) (r : CustodyRecord) (a : Area)
    (n : Fin 32) (s : State), s.vault.mode = .staffed → (∀ b, (s.fire.areas.get b).state.late = false) →
    s.staging.settings.inboundReserve < (s.staging.slots.toList.filter (· == .free)).length →
    s.staging.queue = before ++ e :: after → (∀ x ∈ before, s.quietArea x.label = none) →
    s.record? e.label = some (p, r) → r.area = some a → (s.fire.areas.get a).state = .quiet →
    s.staging.slots[n] = .free → (∀ m < n, s.staging.slots[m] ≠ .free) →
    let dropped := fun why =>
      let v := (s.unqueue e.label).putRecord p
        { r with state := .inVault, slot := none, inspect := true, lastMove := some s.vault.clock }
      let needs' := needs ++ v.awaits [.custody p]
      ((v.notify needs' (.checkoutDropped e.label why)).resumeTest needs').dispatch needs
    (r.inspect = true → s.dispatch needs = dropped .inspect) ∧
    (r.inspect = false → s.overDose r = true → s.dispatch needs = dropped .dose) ∧
    (r.inspect = false → s.overDose r = false →
      let v := ((s.putSlot n (.reserved e.label a s.vault.uptime)).unqueue e.label).putRecord p
        { r with state := .picking, slot := some n, lastMove := some s.vault.clock }
      let needs' := needs ++ v.awaits [.custody p]
      s.dispatch needs = ((v.notify needs' (.pick e.label r.location n)).resumeTest needs').dispatch needs)) ∧
  (∀ (needs : List Nat) (s : State),
    (s.staging.queue.length ≤ 8 → s.staging.holdSent = true → s.resumeTest needs =
      ({ s with staging := { s.staging with holdSent := false } }).notify needs .resume) ∧
    (¬ (s.staging.queue.length ≤ 8 ∧ s.staging.holdSent = true) → s.resumeTest needs = s)) ∧
  (∀ (l : Label) (s : State), s.unqueue l =
    { s with staging := { s.staging with queue := s.staging.queue.eraseP fun e => e.label == l } })

/-- PLACED: its checks in order; the slot becomes OCCUPIED OUT, its estimate the held temperature of the record's area,
and the record settles out of that area into Staging as STAGED_OUT (R75, R113). SHELVED: its checks in order; a label
of an OPEN consignment leaves it (of two copies the first, log 51), the slot is FREE, the record settles on its new
shelf place with NEW cleared, and a dispatch attempt follows (R114, R115). -/
def Obligations.PlacedAndShelvedMoveTheTape : Prop :=
  (∀ (h : ReqHead) (l : Label) (slot : Nat) (s : State), s.accepts h .placed →
    let u := s.received h
    let c := Instr.placed h l slot
    let refused := fun code => Host.Outcome.next (u.refuse h .placed code)
    (s.vault.mode = .maintenance → exec c s = refused .mode) ∧
    (s.vault.mode ≠ .maintenance → (goodLabel l = false ∨ 32 ≤ slot) → exec c s = refused .invalid) ∧
    (s.vault.mode ≠ .maintenance → goodLabel l = true → slot < 32 → s.record? l = none → exec c s = refused .notFound) ∧
    (∀ (n : Fin 32) p r, s.vault.mode ≠ .maintenance → goodLabel l = true → slot = n.val → s.record? l = some (p, r) →
      (r.state ≠ .picking → exec c s = refused .state) ∧
      (r.state = .picking → r.slot ≠ some n → exec c s = refused .wrongSlot) ∧
      (∀ a, r.state = .picking → r.slot = some n → r.area = some a →
        let v := (u.putSlot n (.occupied l .outbound (.area a) 0
            ((s.climate.channels.get (.area a)).held.map fun x => x.temperature))).putRecord p
          { r with state := .stagedOut, location := none, area := some .staging,
                   storedDose := effectiveDose s.accumulators r, mark := some s.accumulators.staging,
                   inspect := r.inspect || s.overDose r, lastMove := some s.vault.clock }
        exec c s = .next (v.answer h .placed (v.awaits [.custody p]) .ok (.placed n (s.doseOf
          { r with area := some .staging, storedDose := effectiveDose s.accumulators r,
                   mark := some s.accumulators.staging })))))) ∧
  (∀ (h : ReqHead) (l : Label) (loc : Location) (s : State), s.accepts h .shelved →
    let u := s.received h
    let c := Instr.shelved h l loc
    let a := resolveLocation s.vault.descriptors loc
    let refused := fun code => Host.Outcome.next (u.refuse h .shelved code)
    let onShelf := fun st : CustodyState => st = .stagedOut ∨ st = .readyOut ∨ st = .readyIn
    let bound := fun r : CustodyRecord => ∃ k i x, r.consignment = some k ∧ s.consignment? k = some (i, x) ∧
      (x.state = .sealed ∨ x.state = .ready ∨ x.state = .lockedOut)
    (s.vault.mode = .maintenance → exec c s = refused .mode) ∧
    (s.vault.mode ≠ .maintenance → goodLabel l = false → exec c s = refused .invalid) ∧
    (s.vault.mode ≠ .maintenance → goodLabel l = true → s.record? l = none → exec c s = refused .notFound) ∧
    (∀ p r, s.vault.mode ≠ .maintenance → goodLabel l = true → s.record? l = some (p, r) →
      (¬ onShelf r.state → exec c s = refused .state) ∧
      (onShelf r.state → bound r → exec c s = refused .bound) ∧
      (∀ n, onShelf r.state → ¬ bound r → r.slot = some n →
        let r' : CustodyRecord :=
          { r with state := .inVault, location := some loc, area := some a, slot := none, consignment := none,
                   storedDose := effectiveDose s.accumulators r, mark := some (s.accumulators.get a),
                   inspect := r.inspect || s.overDose r, new := false, lastMove := some s.vault.clock }
        let ends := fun t : State =>
          let v := (t.putSlot n .free).putRecord p r'
          let needs := v.awaits [.custody p]
          Host.Outcome.next ((v.answer h .shelved needs .ok (.shelved a (s.doseOf r'))).dispatch needs)
        (∀ k i x, r.consignment = some k → s.consignment? k = some (i, x) → x.state = .opened →
          exec c s = ends (u.putConsign i { x with outbound := x.outbound.erase l })) ∧
        ((∀ k i x, r.consignment = some k → s.consignment? k = some (i, x) → x.state ≠ .opened) →
          exec c s = ends u))))

/-! ## Chapter 7: consignments -/

/-- CONSIGN_OPEN takes the lowest free place, else the CLOSED or CANCELLED one with the oldest closed time, the lower
of two that are equal, and is FULL when there is neither (R122, R124). The record it makes is OPEN and holds the number
issued, the courier, the expected count and the created time; the counter takes the number (R123, R124). The number
issued is the first from the counter's next on, with 1 after 65535, that no consignment record and no custody record
carries (R123). The record is handed to the store before the counter (log 46), and an arbitration follows (R143, log
40). -/
def Obligations.ConsignOpenMakesARecord : Prop :=
  (∀ (h : ReqHead) (courier expected : Nat) (s : State), s.accepts h .consignOpen →
     let u := s.received h
     let c := Instr.consignOpen h courier expected
     let inRange := 1 ≤ courier ∧ courier ≤ 65535 ∧ expected ≤ 8
     let reusable := fun x : Consignment => x.state = .closed ∨ x.state = .cancelled
     let closedAt := fun x : Consignment => (x.closed.getD 0).toNat
     let n := u.issueNumber
     let opens := fun i : Fin 16 =>
       let x : Consignment :=
         { number := n, courier := courier, state := .opened, beforeLockout := none, outbound := [], expected := expected,
           received := [], takenCount := 0, token := none, mismatches := 0, result := none, created := s.vault.clock,
           closed := none }
       let v := u.putConsign i x
       let w := ({ v with consign := { v.consign with counter := n } }).persist .counter
       let needs := w.awaits [.consignment i, .counter]
       exec c s = .next (((w.answer h .consignOpen needs .ok (.consignNumber n)).notify needs
         (.consignState n .opened none)).arbitrate needs)
     (s.vault.mode = .maintenance → exec c s = .next (u.refuse h .consignOpen .mode)) ∧
     (s.vault.mode ≠ .maintenance → ¬ inRange → exec c s = .next (u.refuse h .consignOpen .invalid)) ∧
     (s.vault.mode ≠ .maintenance → inRange →
       (∀ i : Fin 16, s.consign.places[i] = none → (∀ j < i, s.consign.places[j] ≠ none) → opens i) ∧
       (∀ (i : Fin 16) (x : Consignment), (∀ j : Fin 16, s.consign.places[j] ≠ none) → s.consign.places[i] = some x →
         reusable x →
         (∀ (j : Fin 16) (y : Consignment), s.consign.places[j] = some y → reusable y →
           closedAt x < closedAt y ∨ closedAt x = closedAt y ∧ i ≤ j) → opens i) ∧
       ((∀ j : Fin 16, ∃ y, s.consign.places[j] = some y ∧ ¬ reusable y) →
         exec c s = .next (u.refuse h .consignOpen .full)))) ∧
  (let after := fun n : Nat => if n = 65535 then 1 else n + 1
   let inUse := fun (s : State) (n : Nat) => (∃ (i : Fin 16) (x : Consignment), s.consign.places[i] = some x ∧ x.number = n) ∨
     ∃ x ∈ s.custody, x.2.consignment = some n
   ∀ s : State, s.consign.counter ≤ 65535 → s.custody.length ≤ 2048 →
     ∃ k : Nat, s.issueNumber = after^[k + 1] s.consign.counter ∧ ¬ inUse s s.issueNumber ∧
       1 ≤ s.issueNumber ∧ s.issueNumber ≤ 65535 ∧ ∀ j < k, inUse s (after^[j + 1] s.consign.counter))

/-- CONSIGN_ADD binds a staged or ready OUT label to an OPEN consignment and CONSIGN_REMOVE unbinds it: their checks in
order, the outbound list, the record's binding where a record carries the number, and the response with the list's
length after the writes (R125, R126). The consignment is handed to the store before the custody record (log 46), and a
label that the list holds is refused with BOUND by its record alone (log 45); of a label that the list holds twice the
first copy is removed (log 51). -/
def Obligations.ConsignAddAndRemoveBindLabels : Prop :=
  (∀ (h : ReqHead) (n : Nat) (l : Label) (s : State), s.accepts h .consignAdd →
    let u := s.received h
    let c := Instr.consignAdd h n l
    let refused := fun code => Host.Outcome.next (u.refuse h .consignAdd code)
    let inRange := 1 ≤ n ∧ n ≤ 65535 ∧ goodLabel l = true
    (s.vault.mode = .maintenance → exec c s = refused .mode) ∧
    (s.vault.mode ≠ .maintenance → ¬ inRange → exec c s = refused .invalid) ∧
    (s.vault.mode ≠ .maintenance → inRange → s.consignment? n = none → exec c s = refused .notFound) ∧
    (∀ i x, s.vault.mode ≠ .maintenance → inRange → s.consignment? n = some (i, x) →
      (x.state ≠ .opened → exec c s = refused .state) ∧
      (x.state = .opened → s.record? l = none → exec c s = refused .notFound) ∧
      (∀ p r, x.state = .opened → s.record? l = some (p, r) →
        let out := r.state = .stagedOut ∨ r.state = .readyOut
        (¬ out → exec c s = refused .state) ∧
        (out → r.consignment.isSome = true → exec c s = refused .bound) ∧
        (out → r.consignment = none → 8 ≤ x.outbound.length → exec c s = refused .full) ∧
        (out → r.consignment = none → x.outbound.length < 8 →
          let v := (u.putConsign i { x with outbound := x.outbound ++ [l] }).putRecord p { r with consignment := some n }
          exec c s = .next (v.answer h .consignAdd (v.awaits [.consignment i, .custody p]) .ok
            (.outboundCount (x.outbound.length + 1))))))) ∧
  (∀ (h : ReqHead) (n : Nat) (l : Label) (s : State), s.accepts h .consignRemove →
    let u := s.received h
    let c := Instr.consignRemove h n l
    let refused := fun code => Host.Outcome.next (u.refuse h .consignRemove code)
    let inRange := 1 ≤ n ∧ n ≤ 65535 ∧ goodLabel l = true
    (s.vault.mode = .maintenance → exec c s = refused .mode) ∧
    (s.vault.mode ≠ .maintenance → ¬ inRange → exec c s = refused .invalid) ∧
    (s.vault.mode ≠ .maintenance → inRange → s.consignment? n = none → exec c s = refused .notFound) ∧
    (∀ i x, s.vault.mode ≠ .maintenance → inRange → s.consignment? n = some (i, x) →
      (x.state ≠ .opened → exec c s = refused .state) ∧
      (x.state = .opened → l ∉ x.outbound → exec c s = refused .notFound) ∧
      (∀ p r, x.state = .opened → l ∈ x.outbound → s.record? l = some (p, r) → r.consignment = some n →
        let v := (u.putConsign i { x with outbound := x.outbound.erase l }).putRecord p { r with consignment := none }
        exec c s = .next (v.answer h .consignRemove (v.awaits [.consignment i, .custody p]) .ok
          (.outboundCount (x.outbound.length - 1)))) ∧
      (x.state = .opened → l ∈ x.outbound →
        (s.record? l = none ∨ ∃ p r, s.record? l = some (p, r) ∧ r.consignment ≠ some n) →
        let v := u.putConsign i { x with outbound := x.outbound.erase l }
        exec c s = .next (v.answer h .consignRemove (v.awaits [.consignment i]) .ok
          (.outboundCount (x.outbound.length - 1))))))

/-- The CRC of the nine characters 123456789 is 29B1 hex, and the token of a consignment is the CRC over its number and
its courier id, high byte first, the expected count, the outbound count, and its labels in order: 6 bytes and 8 for
each label (R127). -/
def Obligations.TokenIsTheCrcOfTheContent : Prop :=
  crc16 [0x31#8, 0x32#8, 0x33#8, 0x34#8, 0x35#8, 0x36#8, 0x37#8, 0x38#8, 0x39#8] = 0x29B1#16 ∧
  (∀ c : Consignment, c.tokenOf = crc16 c.tokenInput ∧ c.tokenInput =
    [BitVec.ofNat 8 (c.number / 256), BitVec.ofNat 8 c.number, BitVec.ofNat 8 (c.courier / 256), BitVec.ofNat 8 c.courier,
      BitVec.ofNat 8 c.expected, BitVec.ofNat 8 c.outbound.length] ++ c.outbound.flatten ∧
    ((∀ l ∈ c.outbound, l.length = 8) → c.tokenInput.length = 6 + 8 * c.outbound.length)) ∧
  (∀ (bs : List Byte) (b : Byte), crc16 [] = 0xFFFF#16 ∧ crc16 (bs ++ [b]) =
    (List.range 8).foldl (fun r _ => if r.getLsbD 15 then (r <<< 1) ^^^ 0x1021#16 else r <<< 1)
      (crc16 bs ^^^ (b.setWidth 16 <<< 8)))

/-- The consignment test: NOT_READY for any label makes SEALED, all LOADED of at least one makes LOADED, and anything
else makes READY, by the custody states of the records that carry the number; a record in SEALED, READY or LOADED takes
the result with its write and CONSIGN_STATE, and one in LOCKED_OUT into its state before lockout alone (R129, R130). -/
def Obligations.ConsignmentTestGivesTheState : Prop :=
  (∀ (x : Consignment) (s : State),
    let has := fun (l : Label) (st : CustodyState) => ∃ p r, s.record? l = some (p, r) ∧ r.consignment = some x.number ∧ r.state = st
    ((∃ l ∈ x.outbound, ¬ has l .inHatchOut ∧ ¬ has l .readyOut) → s.consignTest x = .sealed) ∧
    (x.outbound ≠ [] → (∀ l ∈ x.outbound, has l .inHatchOut) → s.consignTest x = .loaded) ∧
    ((∀ l ∈ x.outbound, has l .inHatchOut ∨ has l .readyOut) → (x.outbound = [] ∨ ∃ l ∈ x.outbound, has l .readyOut) →
      s.consignTest x = .ready)) ∧
  (∀ (needs : List Nat) (i : Fin 16) (x : Consignment) (s : State), s.consign.places[i] = some x →
    let tested := x.state = .sealed ∨ x.state = .ready ∨ x.state = .loaded
    let st := s.consignTest x
    (tested → st = x.state → s.testConsign needs i = (needs, s)) ∧
    (tested → st ≠ x.state →
      let v := s.putConsign i { x with state := st }
      let needs' := needs ++ v.awaits [.consignment i]
      s.testConsign needs i = (needs', v.notify needs' (.consignState x.number st x.result))) ∧
    (x.state = .lockedOut → x.beforeLockout ≠ some st →
      s.testConsign needs i = (needs, s.putConsign i { x with beforeLockout := some st })) ∧
    (x.state = .lockedOut → x.beforeLockout = some st → s.testConsign needs i = (needs, s)) ∧
    (¬ tested → x.state ≠ .lockedOut → s.testConsign needs i = (needs, s)))

/-- CONSIGN_SEAL computes the token and makes READY of a list whose labels are all READY_OUT, else SEALED (R128).
CONSIGN_UNLOCK returns a LOCKED_OUT record to its state before lockout with no mismatches (R130). CONSIGN_CANCEL
unbinds the listed labels that carry the number and makes the record CANCELLED (R131). CONSIGN_QUERY reports the record
and the states of its bound labels (R134). Each with its checks in order, CONSIGN_STATE after the response (R133), and
the arbitration that a change of a consignment's state calls for (R143). A listed label counts by the record of that
label that carries the consignment's number, and as nothing when none does; a number is looked up in the places (R129,
R131, R134); of two places with one number, which R122 rules out, the lowest is found (log 58). -/
def Obligations.ConsignmentsAreSealedUnlockedCancelled : Prop :=
  (∀ (h : ReqHead) (n : Nat) (s : State), n = 0 ∨ 65535 < n →
    let u := s.received h
    (s.accepts h .consignSeal → s.vault.mode ≠ .maintenance →
      exec (.consignSeal h n) s = .next (u.refuse h .consignSeal .invalid)) ∧
    (s.accepts h .consignUnlock → s.vault.mode ≠ .maintenance →
      exec (.consignUnlock h n) s = .next (u.refuse h .consignUnlock .invalid)) ∧
    (s.accepts h .consignCancel → s.vault.mode ≠ .maintenance →
      exec (.consignCancel h n) s = .next (u.refuse h .consignCancel .invalid)) ∧
    (s.accepts h .consignQuery → exec (.consignQuery h n) s = .next (u.refuse h .consignQuery .invalid))) ∧
  (∀ (h : ReqHead) (n : Nat) (s : State), s.vault.mode = .maintenance →
    let u := s.received h
    (s.accepts h .consignSeal → exec (.consignSeal h n) s = .next (u.refuse h .consignSeal .mode)) ∧
    (s.accepts h .consignUnlock → exec (.consignUnlock h n) s = .next (u.refuse h .consignUnlock .mode)) ∧
    (s.accepts h .consignCancel → exec (.consignCancel h n) s = .next (u.refuse h .consignCancel .mode))) ∧
  (∀ (h : ReqHead) (n : Nat) (s : State), 1 ≤ n → n ≤ 65535 → s.consignment? n = none →
    let u := s.received h
    (s.accepts h .consignSeal → s.vault.mode ≠ .maintenance →
      exec (.consignSeal h n) s = .next (u.refuse h .consignSeal .notFound)) ∧
    (s.accepts h .consignUnlock → s.vault.mode ≠ .maintenance →
      exec (.consignUnlock h n) s = .next (u.refuse h .consignUnlock .notFound)) ∧
    (s.accepts h .consignCancel → s.vault.mode ≠ .maintenance →
      exec (.consignCancel h n) s = .next (u.refuse h .consignCancel .notFound)) ∧
    (s.accepts h .consignQuery → exec (.consignQuery h n) s = .next (u.refuse h .consignQuery .notFound))) ∧
  (∀ (h : ReqHead) (n : Nat) (i : Fin 16) (x : Consignment) (s : State), 1 ≤ n → n ≤ 65535 →
    s.consignment? n = some (i, x) →
    let u := s.received h
    let works := s.vault.mode ≠ .maintenance
    let bound := fun l => s.boundState n l
    let done := fun (v : State) (k : RequestKind) (rs : List StoreRecord) (d : ResponseData) (y : Consignment) =>
      Host.Outcome.next (((v.answer h k (v.awaits rs) .ok d).notify (v.awaits rs)
        (.consignState y.number y.state y.result)).arbitrate (v.awaits rs))
    (s.accepts h .consignSeal → works →
      let c := Instr.consignSeal h n
      (x.state ≠ .opened → exec c s = .next (u.refuse h .consignSeal .state)) ∧
      (x.state = .opened → x.outbound = [] → x.expected = 0 → exec c s = .next (u.refuse h .consignSeal .invalid)) ∧
      (x.state = .opened → (∃ l ∈ x.outbound, bound l ≠ some .stagedOut ∧ bound l ≠ some .readyOut) →
        exec c s = .next (u.refuse h .consignSeal .state)) ∧
      (∀ st : ConsignState, x.state = .opened → ¬ (x.outbound = [] ∧ x.expected = 0) →
        (∀ l ∈ x.outbound, bound l = some .stagedOut ∨ bound l = some .readyOut) →
        (st = .ready ∧ (∀ l ∈ x.outbound, bound l = some .readyOut) ∨
          st = .sealed ∧ ∃ l ∈ x.outbound, bound l = some .stagedOut) →
        let y := { x with state := st, token := some x.tokenOf }
        exec c s = done (u.putConsign i y) .consignSeal [.consignment i] (.sealed x.tokenOf st) y)) ∧
    (s.accepts h .consignUnlock → works →
      (x.state ≠ .lockedOut → exec (.consignUnlock h n) s = .next (u.refuse h .consignUnlock .state)) ∧
      (∀ st, x.state = .lockedOut → x.beforeLockout = some st →
        let y := { x with state := st, beforeLockout := none, mismatches := 0 }
        exec (.consignUnlock h n) s = done (u.putConsign i y) .consignUnlock [.consignment i] (.unlocked st) y)) ∧
    (s.accepts h .consignCancel → works →
      let c := Instr.consignCancel h n
      let may := x.state = .opened ∨ x.state = .sealed ∨ x.state = .ready ∨
        x.state = .lockedOut ∧ (x.beforeLockout = some .sealed ∨ x.beforeLockout = some .ready)
      (¬ may → exec c s = .next (u.refuse h .consignCancel .state)) ∧
      (may → (∃ l ∈ x.outbound, bound l = some .inHatchOut) → exec c s = .next (u.refuse h .consignCancel .state)) ∧
      (may → (∀ l ∈ x.outbound, bound l ≠ some .inHatchOut) →
        let y := { x with state := .cancelled, result := some .cancelled, beforeLockout := none, closed := some s.vault.clock }
        let v := (x.outbound.foldl (State.unbind n) u).putConsign i y
        exec c s = done v .consignCancel (u.boundRecords n x.outbound ++ [.consignment i]) .none y)) ∧
    (s.accepts h .consignQuery → exec (.consignQuery h n) s = .next (u.answer h .consignQuery [] .ok
      (.consign ⟨x, x.outbound.map bound, x.received.map bound⟩)))) ∧
  (∀ (n : Nat) (l : Label) (p : Nat) (r : CustodyRecord) (s : State), s.record? l = some (p, r) →
    (r.consignment = some n → s.unbind n l = s.putRecord p { r with consignment := none }) ∧
    (r.consignment ≠ some n → s.unbind n l = s)) ∧
  (∀ (n : Nat) (s : State),
    let carries := fun l p r => s.record? l = some (p, r) ∧ r.consignment = some n
    (∀ l st, s.boundState n l = some st ↔ ∃ p r, carries l p r ∧ r.state = st) ∧
    (∀ ls q, q ∈ s.boundRecords n ls ↔ ∃ l ∈ ls, ∃ p r, carries l p r ∧ q = .custody p) ∧
    (∀ l, s.record? l = none → s.unbind n l = s) ∧
    (∀ i x, s.consignment? n = some (i, x) → s.consign.places[i] = some x ∧ x.number = n ∧
      ∀ (j : Fin 16) y, j < i → s.consign.places[j] = some y → y.number ≠ n) ∧
    (s.consignment? n = none ↔ ∀ (i : Fin 16) x, s.consign.places[i] = some x → x.number ≠ n))

/-! ## Chapter 8: the hatch -/

/-- HATCH_REQUEST: the checks of its side in order; the request is pending and arbitrated, and answered GRANTED when
its side was given possession at once, with HATCH_GRANTED after the response (R141). HATCH_RELEASE answers OK, and ends
a possession whose door is closed, sets release-pending for one whose door is open, or withdraws a pending request
(R146). -/
def Obligations.HatchRequestsAreArbitrated : Prop :=
  (∀ (h : ReqHead) (f : PurposeField) (s : State), s.accepts h .hatchRequest → h.port = .archive → f ≠ .absent →
    let u := s.received h
    let c := Instr.hatchRequest h f
    let refused := fun code => Host.Outcome.next (u.refuse h .hatchRequest code)
    let a := s.hatch.arbiter
    let names := fun p : Purpose => (p = .unload ∧ f = .unload) ∨ ∃ n, p = .load n ∧ f = .load n ∧ 1 ≤ n ∧ n ≤ 65535
    (s.vault.mode ≠ .staffed → exec c s = refused .mode) ∧
    (s.vault.mode = .staffed → (∀ p, ¬ names p) → exec c s = refused .invalid) ∧
    (∀ p, s.vault.mode = .staffed → names p →
      (s.fire.blocked = true → exec c s = refused .fire) ∧
      (s.fire.blocked = false → (a.pendingInner.isSome = true ∨ a.holds .inner = true) → exec c s = refused .busy) ∧
      (s.fire.blocked = false → a.pendingInner = none → a.holds .inner = false →
        let v := u.onArbiter fun a => { a with pendingInner := some p }
        let done := match v.arbitration with
          | (t, none) => Host.Outcome.next (t.answer h .hatchRequest [] .ok (.hatch false))
          | (t, some w) =>
            Host.Outcome.next ((t.answer h .hatchRequest [] .ok (.hatch (w == .inner))).notify [] (.hatchGranted w))
        (p = .unload → exec c s = done) ∧
        (∀ n, p = .load n → s.consignment? n = none → exec c s = refused .notFound) ∧
        (∀ n i x, p = .load n → s.consignment? n = some (i, x) →
          (x.state ≠ .sealed → x.state ≠ .ready → exec c s = refused .state) ∧
          (x.state = .sealed ∨ x.state = .ready → exec c s = done))))) ∧
  (∀ (h : ReqHead) (s : State), s.accepts h .hatchRequest → h.port = .handover →
    let u := s.received h
    let c := Instr.hatchRequest h .absent
    let refused := fun code => Host.Outcome.next (u.refuse h .hatchRequest code)
    let a := s.hatch.arbiter
    (s.vault.mode = .maintenance → exec c s = refused .mode) ∧
    (s.vault.mode ≠ .maintenance → s.fire.blocked = true → exec c s = refused .fire) ∧
    (s.vault.mode ≠ .maintenance → s.fire.blocked = false → (a.pendingOuter = true ∨ a.holds .outer = true) →
      exec c s = refused .busy) ∧
    (s.vault.mode ≠ .maintenance → s.fire.blocked = false → a.pendingOuter = false → a.holds .outer = false →
      (s.hatch.exchange = none → exec c s = refused .state) ∧
      (s.hatch.exchange.isSome = true →
        exec c s = match (u.onArbiter fun a => { a with pendingOuter := true }).arbitration with
          | (t, none) => Host.Outcome.next (t.answer h .hatchRequest [] .ok (.hatch false))
          | (t, some w) =>
            Host.Outcome.next ((t.answer h .hatchRequest [] .ok (.hatch (w == .outer))).notify [] (.hatchGranted w))))) ∧
  (∀ (h : ReqHead) (side : Side) (s : State), s.accepts h .hatchRelease → h.port = side.port →
    let u := s.received h
    let v := u.answer h .hatchRelease [] .ok .none
    let a := s.hatch.arbiter
    (a.holds side = true → (s.hatch.door side).isOpen = true → exec (.hatchRelease h) s =
      .next (v.onArbiter fun a => { a with releasePending := true })) ∧
    (a.holds side = true → (s.hatch.door side).isOpen = false → exec (.hatchRelease h) s =
      .next ((v.endPossession [] side).2.arbitrate (v.endPossession [] side).1)) ∧
    (a.holds side = false → exec (.hatchRelease h) s = .next (v.onArbiter fun a => match side with
      | .inner => { a with pendingInner := none }
      | .outer => { a with pendingOuter := false })))

/-- Grantability and arbitration. The hatch is fire-blocked while any area is in COUNTDOWN or later, or Staging or Hatch in
PRE_ALARM (R147). No request is grantable while it is; an inner one asks for STAFFED, no exchange, and a purpose the hatch list allows, an outer one for the condensation gate (R142, R147, R148,
R161). With no possession the winner, of two the side not granted last, takes the grant; its latch is released, its
request consumed and the lapse set at 60 s only when both doors are secure (R143). A rule that arbitrates then sends
HATCH_GRANTED with the winner's side when it was given possession, after the notices before it (R143, R155; log 17). -/
def Obligations.ArbitrationGivesPossession : Prop :=
  (∀ s : State, s.fire.blocked = true ↔
    (∃ a, (s.fire.areas.get a).state.name ∈ [.countdown, .held, .discharged, .venting]) ∨
    (s.fire.areas.get .staging).state = .preAlarm ∨ (s.fire.areas.get .hatch).state = .preAlarm) ∧
  (∀ s : State, s.outerGrantable = true ↔ s.fire.blocked = false ∧ s.gate = true) ∧
  (∀ s : State, s.gate = true ↔ ∃ x td, s.hatch.exchange = some x ∧
    (s.climate.channels.get .outside).held.map (fun y => y.dewPoint) = some td ∧
    ∀ e ∈ s.hatch.entries, e.direction = .outbound → e.number = x.number →
      ∃ t, e.estimate = some t ∧ (s.staging.settings.marginOut : Int) ≤ t - td) ∧
  (∀ (p : Purpose) (s : State), s.innerGrantable p = true ↔
    s.fire.blocked = false ∧ s.vault.mode = .staffed ∧ s.hatch.exchange = none ∧
    (p = .unload → s.hatch.entries ≠ []) ∧
    (∀ n, p = .load n → (∃ i x, s.consignment? n = some (i, x) ∧ x.state = .ready) ∧ ∀ e ∈ s.hatch.entries, e.number = n)) ∧
  (∀ s : State,
    let a := s.hatch.arbiter
    let inner := ∃ p, a.pendingInner = some p ∧ s.innerGrantable p = true
    let outer := a.pendingOuter = true ∧ s.outerGrantable = true
    let wins := fun w : Side => match w with
      | .inner => inner ∧ (outer → a.lastGranted = .outer)
      | .outer => outer ∧ (inner → a.lastGranted = .inner)
    (a.possession = true → s.arbitration = (s, none)) ∧
    (a.possession = false → ¬ inner → ¬ outer → s.arbitration = (s, none)) ∧
    (∀ w, a.possession = false → wins w →
      ((s.hatch.inner.isOpen = true ∨ s.hatch.inner.released = true ∨ s.hatch.outer.isOpen = true ∨
        s.hatch.outer.released = true) → s.arbitration = (s.onArbiter fun a => { a with grant := some w }, none)) ∧
      (s.hatch.inner.isOpen = false → s.hatch.inner.released = false → s.hatch.outer.isOpen = false →
        s.hatch.outer.released = false →
        s.arbitration = ((s.onDoor w fun d => { d with released := true }).onArbiter fun a =>
          { a with grant := some w, possession := true,
                   purpose := (match w with | .inner => a.pendingInner | .outer => none),
                   pendingInner := (match w with | .inner => none | .outer => a.pendingInner),
                   pendingOuter := (match w with | .inner => a.pendingOuter | .outer => false),
                   lastGranted := w, releasePending := false, revoked := false,
                   lapseAt := some (s.vault.uptime + 60) }, some w)))) ∧
  (∀ (needs : List Nat) (s t : State),
    (s.arbitration = (t, none) → s.arbitrate needs = t) ∧
    (∀ w, s.arbitration = (t, some w) → s.arbitrate needs = t.notify needs (.hatchGranted w)))

/-- LOADED moves a READY_OUT label of the consignment being loaded from its slot into the hatch list, with its
estimate, and hands the consignment to the test (R150, R151). UNLOADED moves an entry from the list into the lowest
FREE slot with its estimate, hands an OUT entry's consignment to the test, and closes a RETURNING one whose entries are
gone (R132, R152, R153). Both with their checks in order, and an arbitration at the end. -/
def Obligations.LoadedAndUnloadedMoveEntries : Prop :=
  (∀ (h : ReqHead) (l : Label) (s : State), s.accepts h .loaded →
    let u := s.received h
    let c := Instr.loaded h l
    let refused := fun code => Host.Outcome.next (u.refuse h .loaded code)
    let a := s.hatch.arbiter
    (s.vault.mode = .maintenance → exec c s = refused .mode) ∧
    (s.vault.mode ≠ .maintenance → goodLabel l = false → exec c s = refused .invalid) ∧
    (s.vault.mode ≠ .maintenance → goodLabel l = true → s.record? l = none → exec c s = refused .notFound) ∧
    (∀ p r, s.vault.mode ≠ .maintenance → goodLabel l = true → s.record? l = some (p, r) →
      let may := fun n i x => a.holds .inner = true ∧ a.purpose = some (.load n) ∧ r.state = .readyOut ∧
        r.consignment = some n ∧ s.consignment? n = some (i, x) ∧ x.state = .ready
      ((∀ n i x, ¬ may n i x) → exec c s = refused .state) ∧
      (∀ n i x, may n i x → 12 ≤ s.hatch.entries.length → exec c s = refused .full) ∧
      (∀ n i x k, may n i x → s.hatch.entries.length < 12 → r.slot = some k →
        let v := (u.putSlot k .free).putEntries
          (s.hatch.entries ++ [⟨l, .outbound, n, (s.staging.slots[k]).estimate?, false⟩])
        let w := v.putRecord p
          { r with state := .inHatchOut, area := some .hatch, slot := none, storedDose := effectiveDose s.accumulators r,
                   mark := some s.accumulators.hatch, inspect := r.inspect || s.overDose r, lastMove := some s.vault.clock }
        let needs := w.awaits [.custody p]
        let (needs', z) := (w.answer h .loaded needs .ok (.loaded (s.hatch.entries.length + 1))).testConsign needs i
        exec c s = .next ((z.dispatch needs').arbitrate needs')))) ∧
  (∀ (h : ReqHead) (l : Label) (s : State), s.accepts h .unloaded →
    let u := s.received h
    let c := Instr.unloaded h l
    let refused := fun code => Host.Outcome.next (u.refuse h .unloaded code)
    let a := s.hatch.arbiter
    let unloads := a.holds .inner = true ∧ a.purpose = some .unload
    (s.vault.mode = .maintenance → exec c s = refused .mode) ∧
    (s.vault.mode ≠ .maintenance → goodLabel l = false → exec c s = refused .invalid) ∧
    (s.vault.mode ≠ .maintenance → goodLabel l = true → s.record? l = none → exec c s = refused .notFound) ∧
    (∀ p r, s.vault.mode ≠ .maintenance → goodLabel l = true → s.record? l = some (p, r) →
      ((¬ unloads ∨ ∀ e ∈ s.hatch.entries, e.label ≠ l) → exec c s = refused .state) ∧
      (unloads → (∃ e ∈ s.hatch.entries, e.label = l) → (∀ k : Fin 32, s.staging.slots[k] ≠ .free) →
        exec c s = refused .noSlot) ∧
      (∀ (e : HatchEntry) (k : Fin 32), unloads → s.hatch.entries.find? (fun e => e.label == l) = some e →
        s.staging.slots[k] = .free → (∀ j < k, s.staging.slots[j] ≠ .free) →
        let origin : Channel := match e.direction with
          | .outbound => .area s.staging.settings.inboundRef
          | .inbound => .outside
        let v := (u.putEntries (s.hatch.entries.filter fun x => x.label != l)).putSlot k
          (.occupied l e.direction origin 0 e.estimate)
        let w := v.putRecord p
          { r with state := (match e.direction with | .outbound => .stagedOut | .inbound => .stagedIn),
                   area := some .staging, slot := some k, fireHeld := false, storedDose := effectiveDose s.accumulators r,
                   mark := some s.accumulators.staging, inspect := r.inspect || s.overDose r,
                   lastMove := some s.vault.clock }
        let needs := w.awaits [.custody p]
        let z := w.answer h .unloaded needs .ok (.unloaded k)
        let (needs', y) := match e.direction with
          | .outbound => z.testNumber needs e.number
          | .inbound => (needs, z)
        let (needs'', x) := y.closeReturned needs' e.number
        exec c s = .next (x.arbitrate needs'')))) ∧
  (∀ (needs : List Nat) (n : Nat) (i : Fin 16) (x : Consignment) (s : State), s.consignment? n = some (i, x) →
    s.testNumber needs n = s.testConsign needs i ∧
    (x.state = .returning → (∀ e ∈ s.hatch.entries, e.number ≠ n) →
      let v := s.putConsign i { x with state := .closed, closed := some s.vault.clock }
      let needs' := needs ++ v.awaits [.consignment i]
      s.closeReturned needs n = (needs', v.notify needs' (.consignState n .closed x.result))) ∧
    ((x.state ≠ .returning ∨ ∃ e ∈ s.hatch.entries, e.number = n) → s.closeReturned needs n = (needs, s)))

/-- An opening is normal with the latch RELEASED, cancels the lapse and opens a WAITING outer leg, and is forced, with
HATCH_ALARM, with the latch ENGAGED (R137, R145, R162). A closing ends a possession that is to be released, engages the
latch of a side without possession, and on a secure door clears forced and arbitrates (R139). An opening is reported
HELD once, at 180 s (R138). A released latch whose door did not open lapses at 60 s (R145). An opening of an open door,
a closing of a closed one, and a HELD or a lapse that is not due have no effect (log 3); a change leaves the contact's
pin at its level (log 6); and the OUTER door's every closing without an OUTER possession clears the revoked mark (log
41). -/
def Obligations.DoorsAndLatchesFollowTheirEvents : Prop :=
  (∀ (w : Side) (s : State), s.power = .running →
    let d := s.hatch.door w
    let v := (s.settleContact w .high).onDoor w fun d => { d with isOpen := true, openedAt := some s.vault.uptime, heldSent := false }
    let lapseOff := fun t : State => t.onArbiter fun a => { a with lapseAt := none }
    (d.isOpen = true → exec (.doorOpened w) s = .next s) ∧
    (d.isOpen = false → d.released = false → exec (.doorOpened w) s =
      .next ((v.onDoor w fun d => { d with forced := true }).notify [] (.hatchAlarm .forced w))) ∧
    (d.isOpen = false → d.released = true → (w = .inner ∨ s.hatch.exchange = none) →
      exec (.doorOpened w) s = .next (lapseOff v)) ∧
    (∀ x, d.isOpen = false → d.released = true → w = .outer → s.hatch.exchange = some x →
      let t := lapseOff v
      exec (.doorOpened w) s = .next { t with hatch := { t.hatch with exchange := some { x with leg := .opened } } })) ∧
  (∀ (w : Side) (s : State), s.power = .running →
    let d := s.hatch.door w
    let a := s.hatch.arbiter
    let v := (s.settleContact w .low).onDoor w fun d => { d with isOpen := false, openedAt := none }
    let calm := fun t : State => t.onDoor w fun d => { d with forced := false }
    (d.isOpen = false → exec (.doorClosed w) s = .next s) ∧
    (d.isOpen = true → a.holds w = true → a.releasePending = true → exec (.doorClosed w) s =
      .next ((calm (v.endPossession [] w).2).arbitrate (v.endPossession [] w).1)) ∧
    (d.isOpen = true → a.holds w = true → a.releasePending = false → d.released = true → exec (.doorClosed w) s = .next v) ∧
    (d.isOpen = true → a.holds w = false →
      let t := v.onDoor w fun d => { d with released := false }
      (w = .inner → exec (.doorClosed w) s = .next ((calm t).arbitrate [])) ∧
      (w = .outer → exec (.doorClosed w) s =
        .next ((calm (t.onArbiter fun a => { a with revoked := false })).arbitrate [])))) ∧
  (∀ (w : Side) (s : State), s.power = .running →
    let d := s.hatch.door w
    (∀ t, d.openedAt = some t → d.isOpen = true → d.heldSent = false → t + 180 ≤ s.vault.uptime →
      exec (.doorHeld w) s = .next ((s.notify [] (.hatchAlarm .held w)).onDoor w fun d => { d with heldSent := true })) ∧
    ((d.isOpen = false ∨ d.heldSent = true ∨ ∀ t, d.openedAt = some t → s.vault.uptime < t + 180) →
      exec (.doorHeld w) s = .next s)) ∧
  (∀ (w : Side) (t : Nat) (s : State), s.power = .running → s.hatch.arbiter.lapseAt = some t →
    s.hatch.arbiter.possession = true → s.hatch.arbiter.grant = some w →
    (t ≤ s.vault.uptime → exec .latchLapse s =
      .next (((s.endPossession [] w).2.notify (s.endPossession [] w).1 (.hatchLapsed w)).arbitrate
        (s.endPossession [] w).1)) ∧
    (s.vault.uptime < t → exec .latchLapse s = .next s)) ∧
  (∀ s : State, s.power = .running → s.hatch.arbiter.lapseAt = none → exec .latchLapse s = .next s) ∧
  (∀ (l : Level) (s : State), s.settleContact .inner l = { s with inputs := { s.inputs with inner := ⟨l, l⟩ } } ∧
    s.settleContact .outer l = { s with inputs := { s.inputs with outer := ⟨l, l⟩ } })

/-- The end of a possession engages the latch, parks the grant and clears what belonged to it (R144). At an outer one
the revoked flag is handed to the exchange and cleared, and an exchange whose leg is OPEN ends (R162). As the hatch
becomes fire-blocked the pending requests are removed and each side that had one or holds possession gets
HATCH_REVOKED; a possession is revoked with release-pending set and its lapse cancelled, and ends at once when its door
is closed (R147). An arbitration follows every change of an area's fire state (R143). -/
def Obligations.PossessionsEndAndAreRevoked : Prop :=
  (∀ (needs : List Nat) (s : State),
     let parked := fun w => (s.onDoor w fun d => { d with released := false }).onArbiter fun a =>
       { a with possession := false, purpose := none, releasePending := false, lapseAt := none }
     let v := (parked .outer).onArbiter fun a => { a with revoked := false }
     s.endPossession needs .inner = (needs, parked .inner) ∧
     (s.hatch.exchange = none → s.endPossession needs .outer = (needs, v)) ∧
     (∀ x, s.hatch.exchange = some x →
       (x.leg = .opened → s.endPossession needs .outer = v.endExchange needs x s.hatch.arbiter.revoked) ∧
       (x.leg ≠ .opened → s.endPossession needs .outer = (needs, v)))) ∧
  (∀ (wasBlocked : Bool) (s : State),
     let a := s.hatch.arbiter
     let had := fun w => a.pends w = true ∨ a.holds w = true
     (wasBlocked = true ∨ s.fire.blocked = false → s.hatchFireChange wasBlocked = s.arbitrate []) ∧
     (wasBlocked = false → s.fire.blocked = true →
       let v := s.onArbiter fun a => { a with pendingInner := none, pendingOuter := false }
       ∀ w : State,
         (w = v ∧ ¬ had .inner ∧ ¬ had .outer ∨ w = v.notify [] (.hatchRevoked .inner) ∧ had .inner ∧ ¬ had .outer ∨
           w = v.notify [] (.hatchRevoked .outer) ∧ ¬ had .inner ∧ had .outer ∨
           w = (v.notify [] (.hatchRevoked .inner)).notify [] (.hatchRevoked .outer) ∧ had .inner ∧ had .outer) →
         (a.possession = false → s.hatchFireChange wasBlocked = w.arbitrate []) ∧
         (∀ side, a.possession = true → a.grant = some side →
           let x := w.onArbiter fun a => { a with revoked := true, releasePending := true, lapseAt := none }
           ((s.hatch.door side).isOpen = true → s.hatchFireChange wasBlocked = x.arbitrate []) ∧
           ((s.hatch.door side).isOpen = false →
             s.hatchFireChange wasBlocked = (x.endPossession [] side).2.arbitrate (x.endPossession [] side).1))))

/-! ## Chapter 9: the courier exchange -/

/-- ARRIVE: its checks in order (R158); a courier or token that differs is counted, written and answered, with
LOCKED_OUT and CONSIGN_STATE at the third (R159), and the arbitration that this change of the consignment's state calls
for (R143); a match opens the exchange, with its leg WAITING and its timeout set, and makes the consignment EXCHANGING
(R160). -/
def Obligations.ArriveOpensTheExchange : Prop :=
  ∀ (h : ReqHead) (n courier : Nat) (token : Word16) (s : State), s.accepts h .arrive →
    let u := s.received h
    let c := Instr.arrive h n courier token
    let refused := fun code => Host.Outcome.next (u.refuse h .arrive code)
    let inRange := 1 ≤ n ∧ n ≤ 65535 ∧ 1 ≤ courier ∧ courier ≤ 65535
    (s.vault.mode = .maintenance → exec c s = refused .mode) ∧
    (s.vault.mode ≠ .maintenance → ¬ inRange → exec c s = refused .invalid) ∧
    (s.vault.mode ≠ .maintenance → inRange → s.consignment? n = none → exec c s = refused .notFound) ∧
    (∀ i x, s.vault.mode ≠ .maintenance → inRange → s.consignment? n = some (i, x) →
      let admits := x.state = .loaded ∨ x.state = .ready ∧ x.outbound = []
      let own := ∀ e ∈ s.hatch.entries, e.number = n
      let idle := s.hatch.exchange = none ∧ s.hatch.arbiter.holds .inner = false
      (x.state = .lockedOut → exec c s = refused .lockedOut) ∧
      (x.state ≠ .lockedOut → (¬ admits ∨ ¬ own) → exec c s = refused .state) ∧
      (admits → own → ¬ idle → exec c s = refused .busy) ∧
      (admits → own → idle → s.fire.blocked = true → exec c s = refused .fire) ∧
      (∀ code, admits → own → idle → s.fire.blocked = false →
        (courier ≠ x.courier ∧ code = .courierMismatch ∨
          courier = x.courier ∧ x.token ≠ some token ∧ code = .tokenMismatch) →
        (x.mismatches + 1 < 3 →
          let v := u.putConsign i { x with mismatches := x.mismatches + 1 }
          exec c s = .next (v.answer h .arrive (v.awaits [.consignment i]) code .none)) ∧
        (3 ≤ x.mismatches + 1 →
          let v := u.putConsign i { x with mismatches := x.mismatches + 1, state := .lockedOut, beforeLockout := some x.state }
          let needs := v.awaits [.consignment i]
          exec c s = .next (((v.answer h .arrive needs code .none).notify needs
            (.consignState x.number .lockedOut x.result)).arbitrate needs))) ∧
      (admits → own → idle → s.fire.blocked = false → courier = x.courier → x.token = some token →
        let v := u.putConsign i { x with mismatches := 0, state := .exchanging }
        let e : Exchange := ⟨x.number, x.courier, s.vault.uptime + s.staging.settings.exchangeTimeout, .waiting, [], []⟩
        let w := { v with hatch := { v.hatch with exchange := some e } }
        let needs := w.awaits [.consignment i]
        exec c s = .next (((w.answer h .arrive needs .ok (.arrived x.outbound x.expected)).notify needs
          (.consignState x.number .exchanging x.result)).arbitrate needs)))

/-- TAKEN removes an OUT entry of the open exchange, and its record is WITH_COURIER, settled out of the hatch, with the
courier and without binding (R101, R163). DEPOSITED makes an IN entry with the Outside temperature as its estimate, and
the record IN_HATCH_IN, that of the label when it is WITH_COURIER, else a new one with NEW (R77, R92, R164, R165). Both
only in an outer possession with the leg OPEN, with their checks in order, and with the responses after the writes. The
arbitration that ends DEPOSITED is R143's at a change of the hatch list (log 40). -/
def Obligations.TakenAndDepositedMoveEntries : Prop :=
  (∀ (h : ReqHead) (l : Label) (s : State), s.accepts h .taken →
    let u := s.received h
    let c := Instr.taken h l
    let refused := fun code => Host.Outcome.next (u.refuse h .taken code)
    (s.vault.mode = .maintenance → exec c s = refused .mode) ∧
    (s.vault.mode ≠ .maintenance → goodLabel l = false → exec c s = refused .invalid) ∧
    (s.vault.mode ≠ .maintenance → goodLabel l = true → s.record? l = none → exec c s = refused .notFound) ∧
    (∀ p r, s.vault.mode ≠ .maintenance → goodLabel l = true → s.record? l = some (p, r) →
      let may := fun x : Exchange => s.hatch.exchange = some x ∧ s.hatch.arbiter.holds .outer = true ∧ x.leg = .opened ∧
        ∃ e ∈ s.hatch.entries, e.label = l ∧ e.direction = .outbound ∧ e.number = x.number
      ((∀ x, ¬ may x) → exec c s = refused .state) ∧
      (∀ x i y, may x → s.consignment? x.number = some (i, y) →
        let v := (u.putEntries (s.hatch.entries.filter fun e => e.label != l)).putRecord p
          { r with state := .withCourier, area := none, consignment := none, courier := some x.courier,
                   storedDose := effectiveDose s.accumulators r, mark := none, inspect := r.inspect || s.overDose r,
                   lastMove := some s.vault.clock }
        let w := v.putConsign i { y with takenCount := y.takenCount + 1 }
        let z := { w with hatch := { w.hatch with exchange := some { x with takenList := x.takenList ++ [l] } } }
        exec c s = .next (z.answer h .taken (z.awaits [.hatchList, .custody p, .consignment i]) .ok
          (.takenCount (y.takenCount + 1)))))) ∧
  (∀ (h : ReqHead) (l : Label) (s : State), s.accepts h .deposited →
    let u := s.received h
    let c := Instr.deposited h l
    let refused := fun code => Host.Outcome.next (u.refuse h .deposited code)
    let may := fun x : Exchange => s.hatch.exchange = some x ∧ s.hatch.arbiter.holds .outer = true ∧ x.leg = .opened
    (s.vault.mode = .maintenance → exec c s = refused .mode) ∧
    (s.vault.mode ≠ .maintenance → goodLabel l = false → exec c s = refused .invalid) ∧
    (s.vault.mode ≠ .maintenance → goodLabel l = true → (∀ x, ¬ may x) → exec c s = refused .state) ∧
    (∀ x i y, s.vault.mode ≠ .maintenance → goodLabel l = true → may x → s.consignment? x.number = some (i, y) →
      (y.expected ≤ y.received.length → exec c s = refused .excess) ∧
      (y.received.length < y.expected → 12 ≤ s.hatch.entries.length → exec c s = refused .full) ∧
      (y.received.length < y.expected → s.hatch.entries.length < 12 →
        let entry : HatchEntry :=
          ⟨l, .inbound, x.number, (s.climate.channels.get .outside).held.map (fun z => z.temperature), false⟩
        let ends := fun (v : State) (p : Nat) (created : Bool) =>
          let w := v.putConsign i { y with received := y.received ++ [l] }
          let z := { w with hatch := { w.hatch with exchange := some { x with depositedList := x.depositedList ++ [l] } } }
          let needs := z.awaits [.hatchList, .custody p, .key p, .consignment i]
          Host.Outcome.next ((z.answer h .deposited needs .ok
            (.deposited (s.hatch.entries.length + 1) (y.received.length + 1) created)).arbitrate needs)
        let v := u.putEntries (s.hatch.entries ++ [entry])
        (∀ p r, s.record? l = some (p, r) → r.state ≠ .withCourier → exec c s = refused .duplicate) ∧
        (∀ p r, s.record? l = some (p, r) → r.state = .withCourier → exec c s = ends (v.putRecord p
          { r with state := .inHatchIn, courier := none, area := some .hatch, mark := some s.accumulators.hatch,
                   consignment := some x.number, lastMove := some s.vault.clock }) p false) ∧
        (s.record? l = none → s.freePlace = none → exec c s = refused .full) ∧
        (∀ p, s.record? l = none → s.freePlace = some p → exec c s = ends (v.createRecord p
          { label := l, state := .inHatchIn, location := none, area := some .hatch, slot := none,
            consignment := some x.number, courier := none, storedDose := some 0, mark := some s.accumulators.hatch,
            inspect := false, new := true, damaged := false, fireHeld := false, lastMove := some s.vault.clock }) p true))))

/-- EXCHANGE_QUERY reports the open exchange, and STATE when there is none (R169). EXCHANGE_TIMEOUT with the leg
WAITING and the time reached drops the exchange, gives the consignment back its state, ends an outer possession and
withdraws an outer request; with the leg OPEN, or before its time, it has no effect (R167, log 3). -/
def Obligations.ExchangeIsReportedAndTimesOut : Prop :=
  (∀ (h : ReqHead) (s : State), s.accepts h .exchangeQuery →
    let u := s.received h
    (s.hatch.exchange = none → exec (.exchangeQuery h) s = .next (u.refuse h .exchangeQuery .state)) ∧
    (∀ x, s.hatch.exchange = some x →
      ∃ r : ExchangeReport, exec (.exchangeQuery h) s = .next (u.answer h .exchangeQuery [] .ok (.exchange r)) ∧
        r.number = x.number ∧ r.courier = x.courier ∧ r.leg = x.leg ∧ r.takenList = x.takenList ∧
        r.depositedList = x.depositedList ∧ r.entries = s.hatch.entries.filter (fun e => e.number == x.number) ∧
        (x.leg = .waiting → r.secondsLeft = some (x.timeoutAt - s.vault.uptime)) ∧
        (x.leg ≠ .waiting → r.secondsLeft = none) ∧
        (∀ i y, s.consignment? x.number = some (i, y) → r.outbound = y.outbound ∧ r.expected = y.expected) ∧
        r.outsideDewPoint = s.climate.outsideDewPoint ∧ r.marginOut = s.staging.settings.marginOut ∧
        r.gatePasses = s.gate ∧
        (s.hatch.arbiter.holds .outer = true → r.outer = .possession) ∧
        (s.hatch.arbiter.holds .outer = false → s.hatch.arbiter.pendingOuter = true → r.outer = .pending) ∧
        (s.hatch.arbiter.holds .outer = false → s.hatch.arbiter.pendingOuter = false → r.outer = .neither))) ∧
  (∀ (x : Exchange) (i : Fin 16) (y : Consignment) (s : State), s.power = .running → s.hatch.exchange = some x →
    s.consignment? x.number = some (i, y) →
    let dropped := fun t : State =>
      let v := t.onArbiter fun a => { a with pendingOuter := false }
      let st : ConsignState := if y.outbound = [] then .ready else .loaded
      let w := ({ v with hatch := { v.hatch with exchange := none } }).putConsign i { y with state := st }
      let needs := w.awaits [.consignment i]
      Host.Outcome.next ((w.emit needs [.notice (.exchangeState x.number .lapsed none),
        .notice (.consignState x.number st y.result)]).arbitrate needs)
    ((x.leg ≠ .waiting ∨ s.vault.uptime < x.timeoutAt) → exec .exchangeTimeout s = .next s) ∧
    (x.leg = .waiting → x.timeoutAt ≤ s.vault.uptime → s.hatch.arbiter.holds .outer = false →
      exec .exchangeTimeout s = dropped s) ∧
    (x.leg = .waiting → x.timeoutAt ≤ s.vault.uptime → s.hatch.arbiter.holds .outer = true →
      exec .exchangeTimeout s = dropped ((s.onDoor .outer fun d => { d with released := false }).onArbiter fun a =>
        { a with possession := false, purpose := none, releasePending := false, lapseAt := none, revoked := false }))) ∧
  (∀ s : State, s.power = .running → s.hatch.exchange = none → exec .exchangeTimeout s = .next s)

/-- The end of an exchange: INTERRUPTED when its possession was revoked, else COMPLETE when every outbound label was
taken and every expected one received, else PARTIALLY; INTERRUPTED gives FIRE_HELD to the hatch list and to the records
it holds. The consignment is RETURNING while the list holds entries of it, else CLOSED, and EXCHANGE_STATE ENDED with the
result and then CONSIGN_STATE wait on the writes: that of the consignment, and of an INTERRUPTED one those of the list
and of the records too, each of the content as it now stands (R166). -/
def Obligations.ExchangeEndsWithItsResult : Prop :=
  ∀ (needs : List Nat) (x : Exchange) (revoked : Bool) (i : Fin 16) (y : Consignment) (s : State),
    s.consignment? x.number = some (i, y) →
    let t := (s.endExchange needs x revoked).2
    let r : ExchangeResult := if revoked then .interrupted
      else if y.takenCount = y.outbound.length ∧ y.received.length = y.expected then .complete else .partially
    let left := ∃ e ∈ s.hatch.entries, e.number = y.number
    t.hatch = { s.hatch with exchange := none, entries := t.hatch.entries } ∧
    (revoked = false → t.hatch.entries = s.hatch.entries ∧ t.custody = s.custody) ∧
    (revoked = true → custodyWf s.custody = true →
      t.hatch.entries = s.hatch.entries.map (fun e => { e with fireHeld := true }) ∧
      t.custody.map (fun z => { z.2 with fireHeld := false }) = s.custody.map (fun z => { z.2 with fireHeld := false }) ∧
      ∀ e ∈ s.hatch.entries, ∀ p z, s.record? e.label = some (p, z) →
        recordAt p t.custody = some { z with fireHeld := true }) ∧
    (left → t.consign.places = s.consign.places.set i (some { y with state := .returning, result := some r })) ∧
    (¬ left → t.consign.places =
      s.consign.places.set i (some { y with state := .closed, result := some r, closed := some s.vault.clock })) ∧
    t.consign.counter = s.consign.counter ∧ t.vault = s.vault ∧ t.staging = s.staging ∧ t.climate = s.climate ∧
    t.fire = s.fire ∧ t.accumulators = s.accumulators ∧
    (∃ (needs' : List Nat) (w : State), s.endExchange needs x revoked = (needs', w.emit needs'
        [.notice (.exchangeState x.number .ended (some r)),
         .notice (.consignState x.number (if s.hatch.entries.any (fun e => e.number == y.number) then .returning
           else .closed) (some r))]) ∧
      w.links = s.links ∧ (∀ k ∈ needs, k ∈ needs') ∧
      let writes := fun (rec : StoreRecord) (content : Content) =>
        ∃ j ∈ w.store.inflight.toList ++ w.store.queue, j.record = rec ∧ j.content = content ∧ j.ticket ∈ needs'
      writes (.consignment i) (.consignment t.consign.places[i]) ∧
      (revoked = true → writes .hatchList (.hatchList (t.hatch.entries.map (·.stored))) ∧
        (custodyWf s.custody = true → ∀ e ∈ s.hatch.entries, ∀ p z, s.record? e.label = some (p, z) →
          writes (.custody p) (.custody (some { z with fireHeld := true })))))

/-! ## Chapter 11: the store, format and restart -/

/-- The store's two copies. A write goes to the older copy, with the next count and the CRC over the content and the
count, and is what is read back; a write cut short leaves a bad check and what was read before, and a record is damaged
when both copies fail their checks (R179). Older and newer by distance round the count, the first of two equal counts
as the older, and a torn copy that keeps its count are log 10; the bytes of a content are log 9; when a hand-over goes
into a write that waits is log 11.
Handing a record to the store: at the tail of the queue, a fire flag record ahead of it, with the record as its block
holds it at that time; while a write of the record is in flight and another waits, or a write of the same fire flag
record waits, the last waiting one takes the new content. A write is begun when none is in flight (R89, R179). An
accumulator whose record a format in flight has still to write is left to the format's write (R184; log 18). -/
def Obligations.StoreWritesAreQueuedAndReadBack : Prop :=
  ((∀ (c : Cell) (x : Content), c.first.count < 65536 → c.second.count < 65536 → (c.write x).read = some x) ∧
   (∀ (c : Cell) (x : Content),
     (c.firstOlder = true → (c.write x).second = c.second ∧ 
       let n := (c.second.count + 1) % 65536
       (c.write x).first = ⟨x, n, crc16 (x.bytes ++ [BitVec.ofNat 8 (n / 256), BitVec.ofNat 8 n])⟩) ∧
     (c.firstOlder = false → (c.write x).first = c.first ∧ 
       let n := (c.first.count + 1) % 65536
       (c.write x).second = ⟨x, n, crc16 (x.bytes ++ [BitVec.ofNat 8 (n / 256), BitVec.ofNat 8 n])⟩)) ∧
   (∀ c : Copy, c.good = true ↔
     c.check = crc16 (c.content.bytes ++ [BitVec.ofNat 8 (c.count / 256), BitVec.ofNat 8 c.count])) ∧
   (∀ c : Cell, (c.firstOlder = true → c.tear.first.good = false ∧ c.tear.second = c.second) ∧
     (c.firstOlder = false → c.tear.second.good = false ∧ c.tear.first = c.first)) ∧
   (∀ c : Cell, c.first.good = true → c.second.good = true → c.tear.read = c.read) ∧
   (∀ c : Cell, c.read = none ↔ c.first.good = false ∧ c.second.good = false) ∧
   (∀ (a b : Nat), a < 65536 → b < 65536 → (newerCount a b = true ↔ ∃ k, 0 < k ∧ k < 32768 ∧ a = (b + k) % 65536))) ∧
  ((∀ (r : StoreRecord) (s : State), ((∀ k, s.store.format ≠ .writing k) ∨ ∀ a, r ≠ .accumulator a) →
     s.persist r = { s with store := s.store.handOver r (s.liveContent r) }) ∧
   (∀ (a : Area) (k : Nat) (s : State), s.store.format = .writing k →
     (k ≤ 4 + a.number → s.persist (.accumulator a) = s) ∧
     (4 + a.number < k → s.persist (.accumulator a) =
       { s with store := s.store.handOver (.accumulator a) (.accumulator (s.accumulators.get a)) })) ∧
   (∀ (r : StoreRecord) (x : Content) (st : Store),
     let waits := ∃ j ∈ st.queue, j.record = r
     let inFlight := ∃ j, st.inflight = some j ∧ j.record = r
     let fire := ∃ a, r = .fireFlags a
     let job : Job := ⟨st.nextTicket, r, x⟩
     let placed := { st with nextTicket := st.nextTicket + 1 }
     (¬ fire → ¬ (waits ∧ inFlight) → st.handOver r x = ({ placed with queue := st.queue ++ [job] }).begin) ∧
     (fire → ¬ waits → st.handOver r x = ({ placed with queue := job :: st.queue }).begin) ∧
     (∀ (before after : List Job) (j : Job), (fire ∨ inFlight) → st.queue = before ++ j :: after → j.record = r →
       (∀ k ∈ after, k.record ≠ r) →
       st.handOver r x = { st with queue := before ++ { j with content := x } :: after })) ∧
   (∀ st : Store,
     (st.inflight.isSome = true ∨ st.queue = [] → st.begin = st) ∧
     (∀ j js, st.inflight = none → st.queue = j :: js → st.begin = { st with inflight := some j, queue := js })))

/-- STORE_WRITE_END: the cell of the record in flight takes the content, both copies erased for a removed custody
record (R93), and every other cell stays; the next write begins; release pulses that waited on the write start, their
2 s counted from the uptime at this end of the write (R49, R50; against R14's table, log 43); and outputs that waited on
no other are queued in order (R89). After those comes what a request does behind the response that waited on the write:
the sweep of SET_DESCRIPTOR (R5), the evaluation of SET_FIRE (R59), the lapses of SET_STAGING (R80), the effect of FORMAT
(R184; log 55), each as the statement of its request gives. With no write in flight it is the next of the format's writes, one for each
STORE_WRITE_END in the order of the records' numbers (log 18), and with none of those it has no effect (R184, log 3). -/
def Obligations.StoreWriteEndCommits : Prop :=
  (∀ (j : Job) (s : State), s.power = .running → s.store.inflight = some j →
    let due := (s.store.followups.filter fun x => x.1 == j.ticket).map (·.2)
    let rest := s.store.followups.filter fun x => x.1 != j.ticket
    ∃ u, exec .storeWriteEnd { s with store := { s.store with followups := rest } } = .next u ∧
      exec .storeWriteEnd s = .next (due.foldl State.followUp u)) ∧
  (∀ (j : Job) (s : State), s.power = .running → s.store.inflight = some j → cellsWf s.store.base s.store.cells = true →
    (∀ x ∈ s.store.followups, x.1 ≠ j.ticket) →
    ∃ t, exec .storeWriteEnd s = .next t ∧ t.store.followups = s.store.followups ∧
      t.store.cell j.record = (if j.content = .custody none then (s.store.cell j.record).erase
        else (s.store.cell j.record).write j.content) ∧
      (∀ r, r ≠ j.record → t.store.cell r = s.store.cell r) ∧
      t.store.inflight = s.store.queue.head? ∧ t.store.queue = s.store.queue.tail ∧
      t.store.pulses = s.store.pulses.filter (fun x => x.1 != j.ticket) ∧
      (∀ a, t.fire.areas.get a = { s.fire.areas.get a with
        pulse := if s.store.pulses.any (fun x => x == (j.ticket, a)) then some s.vault.uptime
          else (s.fire.areas.get a).pulse }) ∧
      (let left := s.store.waiting.map fun w => { w with needs := w.needs.filter (· != j.ticket) }
       t.store.waiting = left.filter (fun w => !w.needs.isEmpty) ∧
       t.links = (((left.filter fun w => w.needs.isEmpty).flatMap (·.outs)).foldl State.deliver s).links) ∧
      (s.store.restart = .writing j.ticket → t.store.restart = .due) ∧
      (s.store.restart ≠ .writing j.ticket → t.store.restart = s.store.restart) ∧
      t = { s with links := t.links, store := t.store, fire := { s.fire with areas := t.fire.areas } }) ∧
  (∀ (k : Nat) (s : State), s.power = .running → s.store.inflight = none → s.store.format = .writing k →
    let r := StoreRecord.ofAddr k
    (k < 4157 → exec .storeWriteEnd s = .next { s with store :=
      { s.store.setCell r ((s.store.cell r).write (s.liveContent r)) with format := .writing (k + 1) } }) ∧
    (4157 ≤ k → exec .storeWriteEnd s = .next s)) ∧
  (∀ s : State, s.power = .running → s.store.inflight = none → (∀ k, s.store.format ≠ .writing k) →
    exec .storeWriteEnd s = .next s)

/-- FORMAT: its checks in order; then the format mark is handed to the store and ACCEPTED waits on that write. From here a
format is in flight (log 50). Behind ACCEPTED, at the end of the same write (StoreWriteEndCommits; log 55), the format's
writes begin and the blocks are emptied or take their defaults (R184). Each detector is evaluated afresh once all
defaults stand: ISOLATED stays, an ALARM that was latched stays latched (log 29), any other follows its lines, and the
entries into ALARM are taken last, in number order (log 16, log 29); an area in QUIET or PRE_ALARM with two of its
detectors in ALARM goes into the countdown, or HELD, with one of them into PRE_ALARM, and any other area keeps its state
(R46, R61), a countdown or a venting among them, which goes on under the default settings (log 57). FORMAT_DONE, with no other write in flight: what is left to write of
every record but the snapshot and the status is written, the mark is cleared, and the notice is queued; the order of
the writes is the model's (log 18). Before that it has no effect (log 3). -/
def Obligations.FormatEmptiesTheBlocks : Prop :=
  (∀ (h : ReqHead) (s : State), s.accepts h .format →
    let u := s.received h
    let c := Instr.format h
    let calm := ∀ a, (s.fire.areas.get a).agentSpent = false ∧ (s.fire.areas.get a).state.late = false
    (s.vault.mode ≠ .maintenance → exec c s = .next (u.refuse h .format .mode)) ∧
    (s.vault.mode = .maintenance → s.vault.rezone.isSome = true → exec c s = .next (u.refuse h .format .busy)) ∧
    (s.vault.mode = .maintenance → s.vault.rezone = none → ¬ calm → exec c s = .next (u.refuse h .format .state)) ∧
    (s.vault.mode = .maintenance → s.vault.rezone = none → calm →
      let v := ({ u with store := { u.store with format := .marking } }).persist .status
      let w := v.answer h .format (v.awaits [.status]) .accepted .none
      v.store.format.inFlight = true ∧ v.store.lastWrite .status = some (.status s.store.recorded s.store.flags true) ∧
      ∃ ticket, (v.awaits [.status]).getLast? = some ticket ∧
        exec c s = .next { w with store := { w.store with followups := w.store.followups ++ [(ticket, .format)] } })) ∧
  (∀ s : State, s.followUp .format = ({ s with store := { s.store with format := .writing 2 } }).emptyBlocks) ∧
  (∀ s : State,
    let t := s.emptyBlocks
    t.custody = [] ∧ t.accumulators = ⟨0, 0, 0, 0⟩ ∧ t.consign.counter = 0 ∧ (∀ i : Fin 16, t.consign.places[i] = none) ∧
    t.staging.queue = [] ∧ t.staging.holdSent = false ∧ t.staging.settings = StagingSettings.default ∧
    (∀ n : Fin 32, t.staging.slots[n] = .free) ∧ t.hatch.entries = [] ∧ t.store.flags = ⟨false, false, false⟩ ∧
    (∀ i : Fin 8, t.vault.descriptors[i] = Descriptor.default) ∧ t.climate.settings = ClimateSettings.defaults ∧
    (∀ a, (t.fire.areas.get a).settings = FireSettings.default ∧ (t.fire.areas.get a).agentSpent = false) ∧
    (∀ d : Detector,
      let x := s.fire.detectors[d]
      t.fire.detectors[d] = { x with
        assignment := some (Detector.defaultArea d), polarity := .activeHigh, retake := false
        state := if x.state = .isolated then .isolated
          else if x.state = .alarm ∧ x.assignment.isSome = true then .alarm
          else if x.alarmLine = .high then .alarm else if x.faultLine = .high then .fault else .normal }) ∧
    (∀ a,
      let x := s.fire.areas.get a
      let n := (List.finRange 12).countP fun d => Detector.defaultArea d == a && t.fire.detectors[d].state == .alarm
      t.fire.areas.get a = { x with
        agentSpent := false, settings := FireSettings.default
        state := if x.state.late = true ∨ n = 0 then x.state else if n = 1 then .preAlarm
          else if s.fire.abort = true then .held else .countdown s.vault.uptime }) ∧
    t.vault = { s.vault with descriptors := t.vault.descriptors } ∧ t.climate.channels = s.climate.channels ∧
    t.store.format = s.store.format ∧ t.store.cells = s.store.cells ∧ t.power = s.power) ∧
  (∀ (k : Nat) (s : State), s.power = .running → s.store.format = .writing k → s.store.inflight = none →
    s.tablesCanonical = true → ∃ t, exec .formatDone s = .next t ∧
      (∀ r : StoreRecord, r.wf = true → t.store.cell r =
        if r.formatted = true ∧ k ≤ r.addr then (s.store.cell r).write (s.liveContent r) else s.store.cell r) ∧
      t.store.format = .none ∧ (∃ j, t.store.inflight = some j ∧ j.record = .status ∧
        j.content = .status s.store.recorded s.store.flags false) ∧
      t.links = (s.postNotice .formatDone).links ∧ t = { s with links := t.links, store := t.store }) ∧
  (∀ s : State, s.power = .running → ((∀ k, s.store.format ≠ .writing k) ∨ s.store.inflight.isSome = true) →
    exec .formatDone s = .next s)

/-- The commands of the supply, the reset line and RESTART (R172, R180). A loss drives every output low and leaves the
copy being written with a bad check; a rise restarts with POWER_ON. The line going LOW lets every write end, the last
that of the cause, and drives every output low; its going HIGH restarts with the cause recorded. RESTART answers OK,
and the restart is taken when its cause is written. A command that is not due has no effect (log 3). That the outputs
are low without supply is log 22, that the writes that wait end before the part stops log 12, that a rise reports
POWER_ON whatever is recorded log 13, and that a rise under supply follows a loss log 14. The input scan takes the reset
line too: a level LOW that two scans sample stops the part, and a stopped part restarts at a level HIGH that two scans
sample (R37). -/
def Obligations.SupplyAndResetLineRestartThePart : Prop :=
  let low := fun t : State => t.climate.fan = false ∧ t.hatch.inner.released = false ∧ t.hatch.outer.released = false ∧
    t.fire.alert = false ∧ t.fire.evacuate = false ∧ t.fire.trouble = false ∧
    ∀ a, (t.fire.areas.get a).pulse = none ∧ (t.climate.controls.get a).damperOpen = false ∧
      (t.climate.controls.get a).dehumidifier = false ∧ (t.climate.controls.get a).heater ≠ some true
  let idle := fun st : Store => st.inflight = none ∧ st.queue = [] ∧ st.waiting = [] ∧ st.pulses = [] ∧
    st.followups = []
  (∀ s : State, s.power = .off → exec .lossOfSupply s = .next s) ∧
  (∀ s : State, s.power ≠ .off → cellsWf s.store.base s.store.cells = true →
    ∃ t, exec .lossOfSupply s = .next t ∧ t.power = .off ∧ low t ∧ idle t.store ∧ t.store.base = s.store.base ∧
    (∀ j, s.store.inflight = some j → t.store.cell j.record = (s.store.cell j.record).tear ∧
      ∀ r, r ≠ j.record → t.store.cell r = s.store.cell r) ∧
    (s.store.inflight = none → (∀ k, s.store.format ≠ .writing k) → t.store.cells = s.store.cells) ∧
    (∀ k, s.store.inflight = none → s.store.format = .writing k → k < 4157 →
      t.store.cell (.ofAddr k) = (s.store.cell (.ofAddr k)).tear ∧
      ∀ r, r ≠ .ofAddr k → t.store.cell r = s.store.cell r)) ∧
  (∀ (bad : List StoreCopy) (s : State), ∃ t, exec .lossOfSupply s = .next t ∧
    exec (.powerOn bad) s = .next (State.restart .powerOn (t.store.spoil bad) s.pending s.inputs)) ∧
  (∀ s : State, s.power = .running → (∀ k, s.store.format ≠ .writing k) → s.tablesCanonical = true →
    ∃ t, exec .resetLineLow s = .next t ∧ t.power = .stopped ∧ low t ∧ idle t.store ∧
    t.inputs = { s.inputs with reset := ⟨.low, .low⟩ } ∧
    t.store.cells = (((s.store.inflight.toList ++ s.store.queue).foldl (fun st j => st.writeNow j.record j.content)
      s.store).writeNow .status (.status .resetLine s.store.flags s.store.format.inFlight)).cells) ∧
  (∀ (bad : List StoreCopy) (s : State),
    (s.power = .stopped → exec (.resetLineHigh bad) s =
      .next (State.restart (s.store.spoil bad).status.1 (s.store.spoil bad) s.pending
        { s.inputs with reset := ⟨.high, .high⟩ })) ∧
    (s.power ≠ .stopped → exec (.resetLineHigh bad) s = .next s)) ∧
  (∀ (h : ReqHead) (s : State), s.accepts h .restart →
    exec (.restart h) s = .next ((s.received h).answer h .restart [] .ok .none)) ∧
  (∀ (bad : List StoreCopy) (s : State), s.power = .running →
    (s.store.restart ≠ .due → exec (.restartTaken bad) s = .next s) ∧
    (s.store.restart = .due → ∃ t, exec .storeWriteEnd s = .next t ∧
      let st := ({ t.store with inflight := none, queue := [], waiting := [], pulses := [], followups := [],
                                format := .none, restart := .none }).spoil bad
      exec (.restartTaken bad) s = .next (State.restart st.status.1 st s.pending s.inputs))) ∧
  (∀ s : State, s.power = .running → s.inputs.reset = ⟨.low, .low⟩ →
    s.scan.power = .stopped ∧ low s.scan ∧ idle s.scan.store) ∧
  (∀ s : State, s.power = .stopped →
    (s.inputs.reset = ⟨.high, .high⟩ → s.scan = State.restart s.store.status.1 s.store s.pending s.inputs) ∧
    (s.inputs.reset ≠ ⟨.high, .high⟩ →
      s.scan = s.onInputs fun x => { x with reset := ⟨x.reset.now, x.reset.now⟩ }))

/-- The restart values of the blocks (R12, R14, R15, R36, R60, R62, R69, R120, R156, R174, R178, R180), with what the
checks and the recovery leave: the tables and settings of the store, no record REQUESTED or PICKING, no slot RESERVED,
no consignment EXCHANGING (R181, R182). RESTARTED stands first in every notice queue and each transmitter is idle (R178);
behind it on the archive port stands CONSIGN_STATE for each consignment whose state the recovery changed, in place order
(R183), and with all sixteen changed the transmitter has taken RESTARTED, for a queue holds sixteen (log 15). Every
input keeps its pin, and its scans begin from its inactive level (R37). No sensor read and no sweep is in flight (R17),
and the bus begins empty (log 52). The store is idle again at uptime 0 (log 21), and the snapshot point is log 36. What the
checks find in each record is RestartReadsTheStore's.

The recovery itself, on the blocks as the checks leave them (R182). Step 1: a REQUESTED or PICKING record is IN_VAULT, a
PICKING one's slot FREE. Step 2: a slot stays OCCUPIED when the record of its label is staged and carries its number;
else the first staged record in place order with that number gets it (log 23), and else it is FREE. Step 3: an entry
stays when the record of its label is in a hatch state with its number, and records in a hatch state without an entry
are appended in place order. Step 4: a consignment found EXCHANGING is INTERRUPTED, with FIRE_HELD, its taken count and
its received list rebuilt, and RETURNING or CLOSED. Step 5: a RETURNING one without entries is CLOSED, and the test is
applied (R129, R130). -/
def Obligations.RestartGivesTheRestartValues : Prop :=
  (∀ (cause : Cause) (st : Store) (pending : List Instr) (x : Inputs), st.status.2.2 = false →
     let t := State.restart cause st pending x
     let v := (st.restored pending x).recovered
     let flags : DamageFlags := st.status.2.1.join st.found
     t.pending = pending ∧ t.power = .running ∧
     t.vault = { mode := .unstaffed, clock := st.clock, clockSuspect := true, uptime := 0,
                 descriptors := st.config.descriptors, rezone := some 0, lastSnapshotAt := none } ∧
     (∀ p : Port, (t.link p).receiver = .hunting ∧ (t.link p).outstanding = false ∧
       (t.link p).responses = [] ∧ (t.link p).overrun = false) ∧
     (let restarted : Notice := ⟨st.clock, .restarted cause flags⟩
      let changes : List Notice := (List.finRange 16).filterMap fun i =>
        match st.consignmentAt i, t.consign.places[i] with
        | some b, some c => if b.state = c.state then none else some ⟨st.clock, .consignState c.number c.state c.result⟩
        | _, _ => none
      (∀ p : Port, p ≠ .archive → (t.link p).sending = none ∧ (t.link p).notices = [restarted]) ∧
      (changes.length < 16 → (t.link .archive).sending = none ∧ (t.link .archive).notices = restarted :: changes) ∧
      (changes.length = 16 → (t.link .archive).sending = some (.notice restarted) ∧ (t.link .archive).notices = changes)) ∧
     (∀ d : Detector, t.inputs.alarm[d] = ⟨x.alarm[d].now, Polarity.inactive st.config.detectors[d].polarity⟩ ∧
       t.inputs.fault[d] = ⟨x.fault[d].now, .low⟩) ∧
     (∀ a, t.inputs.call.get a = ⟨(x.call.get a).now, .low⟩) ∧ t.inputs.abort = ⟨x.abort.now, .low⟩ ∧
     t.inputs.inner = ⟨x.inner.now, .low⟩ ∧ t.inputs.outer = ⟨x.outer.now, .low⟩ ∧
     t.inputs.reset = ⟨x.reset.now, .high⟩ ∧ t.inputs.limitedReads = x.limitedReads ∧
     t.custody = v.custody ∧ t.staging.slots = v.staging.slots ∧ t.hatch.entries = v.hatch.entries ∧
     t.consign = v.consign ∧
     (t.link .facility).mask = 0x07#8 ∧ (t.link .archive).mask = 0x3D#8 ∧ (t.link .handover).mask = 0x21#8 ∧
     t.links.lost = false ∧ t.links.lastValid = 0 ∧
     (∀ c : Channel, t.climate.channels.get c = ⟨.none, none, 0, false⟩) ∧ t.climate.fan = false ∧
     t.climate.sweep = .idle ∧ t.climate.bus = [] ∧ t.climate.dropped = 0 ∧ t.climate.settings = st.config.climate ∧
     (∀ a, t.climate.controls.get a = ⟨!(st.fireFlags a).1, false, false, 0, if a.heated then some false else none, false⟩) ∧
     (∀ a, t.accumulators.get a = st.accumulator a) ∧
     t.staging.queue = [] ∧ t.staging.holdSent = false ∧ t.staging.settings = st.config.staging ∧
     (∀ (n : Fin 32) l o m, t.staging.slots[n] ≠ .reserved l o m) ∧
     (∀ (n : Fin 32) l d o w e, t.staging.slots[n] = .occupied l d o w e → w = 0 ∧ e = none) ∧
     (∀ x ∈ t.custody, x.2.state ≠ .requested ∧ x.2.state ≠ .picking) ∧
     t.consign.counter = st.counter ∧ (∀ (i : Fin 16) y, t.consign.places[i] = some y → y.state ≠ .exchanging) ∧
     t.hatch.inner = ⟨false, false, false, none, false⟩ ∧ t.hatch.outer = ⟨false, false, false, none, false⟩ ∧
     t.hatch.arbiter = ⟨none, false, none, none, false, .inner, false, false, none⟩ ∧ t.hatch.exchange = none ∧
     (∀ e ∈ t.hatch.entries, e.estimate = none) ∧
     (∀ a, t.fire.areas.get a = ⟨if (st.fireFlags a).1 then .discharged else .quiet, (st.fireFlags a).2, none, false, false,
       false, st.config.fire.get a⟩) ∧
     (∀ d : Detector, t.fire.detectors[d].state = .normal ∧ t.fire.detectors[d].condition = .normal ∧
       t.fire.detectors[d].assignment = st.config.detectors[d].assignment ∧
       t.fire.detectors[d].polarity = st.config.detectors[d].polarity ∧ t.fire.detectors[d].retake = false) ∧
     t.fire.abort = false ∧ t.store.reported = cause ∧ t.store.recorded = .powerOn ∧ t.store.flags = flags ∧
     t.store.format = .none ∧ t.store.inflight = none ∧ t.store.queue = [] ∧ t.store.followups = []) ∧
  (∀ s : State,
     let t := s.recovered
     let places := s.consign.places
     let exchanging := fun n : Nat => places.toList.any fun c => c.any fun c => c.state == .exchanging && c.number == n
     let outbound := fun r : CustodyRecord => r.state ∈ [.stagedOut, .readyOut, .inHatchOut]
     let direction := fun r : CustodyRecord => if outbound r then Direction.outbound else .inbound
     let staged := fun r : CustodyRecord => r.state ∈ [.stagedOut, .readyOut, .stagedIn, .readyIn]
     let inHatch := fun r : CustodyRecord => r.state ∈ [.inHatchOut, .inHatchIn]
     (t.custody = s.custody.map fun x =>
       let held := t.hatch.entries.any fun e => exchanging e.number && e.label == x.2.label
       let y := { x.2 with fireHeld := x.2.fireHeld || held }
       (x.1, if x.2.state ∈ [.requested, .picking]
         then { y with state := .inVault, slot := none, lastMove := some s.vault.clock } else y)) ∧
     (∀ n : Fin 32,
       let picked := ∃ x ∈ s.custody, x.2.state = .picking ∧ x.2.slot = some n
       let kept := ¬ picked ∧ ∃ l d o w e p r, s.staging.slots[n] = .occupied l d o w e ∧ s.record? l = some (p, r) ∧
         staged r ∧ r.slot = some n
       (kept → t.staging.slots[n] = s.staging.slots[n]) ∧
       (∀ x, ¬ kept → s.custody.find? (fun x => decide (staged x.2 ∧ x.2.slot = some n)) = some x →
         t.staging.slots[n] = .occupied x.2.label (direction x.2)
           (if outbound x.2 then .area s.staging.settings.inboundRef else .outside) 0 none) ∧
       (¬ kept → (∀ x ∈ s.custody, ¬ (staged x.2 ∧ x.2.slot = some n)) → t.staging.slots[n] = .free)) ∧
     (∃ kept, (∀ e, e ∈ kept ↔ e ∈ s.hatch.entries ∧
         ∃ p r, s.record? e.label = some (p, r) ∧ inHatch r ∧ r.consignment = some e.number) ∧
       kept.Sublist s.hatch.entries ∧
       ((∀ x ∈ s.custody, inHatch x.2 → x.2.consignment.isSome = true) →
         t.hatch.entries = (kept ++ (s.custody.filter fun x =>
             decide (inHatch x.2 ∧ ∀ e ∈ kept, e.label ≠ x.2.label)).map fun x =>
               ⟨x.2.label, direction x.2, x.2.consignment.getD 0, none, x.2.fireHeld⟩).map fun e =>
           if exchanging e.number then { e with fireHeld := true } else e)) ∧
     (∀ i : Fin 16,
       (places[i] = none → t.consign.places[i] = none) ∧
       ∀ c, places[i] = some c →
         let present := ∃ e ∈ t.hatch.entries, e.number = c.number
         let kept := c.received.filter fun l => s.custody.any fun x =>
           x.2.label == l && x.2.state == .inHatchIn && x.2.consignment == some c.number
         let added := (s.custody.filter fun x => x.2.state == .inHatchIn && x.2.consignment == some c.number &&
           !kept.contains x.2.label).map fun x => x.2.label
         let left := c.outbound.countP fun l =>
           (s.record? l).any fun x => x.2.state == .inHatchOut && x.2.consignment == some c.number
         let rebuilt := { c with
           result := some .interrupted, takenCount := c.outbound.length - left, received := kept ++ added }
         (c.state = .exchanging → present → t.consign.places[i] = some { rebuilt with state := .returning }) ∧
         (c.state = .exchanging → ¬ present →
           t.consign.places[i] = some { rebuilt with state := .closed, closed := some s.vault.clock }) ∧
         (c.state = .returning → present → t.consign.places[i] = some c) ∧
         (c.state = .returning → ¬ present →
           t.consign.places[i] = some { c with state := .closed, closed := some s.vault.clock }) ∧
         (c.state ∈ [.sealed, .ready, .loaded] → t.consign.places[i] = some { c with state := t.consignTest c }) ∧
         (c.state = .lockedOut → t.consign.places[i] = some { c with beforeLockout := some (t.consignTest c) }) ∧
         (c.state ∈ [.opened, .closed, .cancelled] → t.consign.places[i] = some c)))

/-- What a restart reads from the store (R102, R135, R179, R181). A record whose content is read back gives its block that
content: the configuration its settings, a custody place the record that its key entry stands for, a slot, the hatch
list and a consignment place what they held, with no reserved-at, dwell or estimate (R65, R69), the counter, the
accumulators, the fire flags, the clock, and of the status record the cause, the flags and the mark. A damaged one: the
configuration all defaults with CONFIG_DAMAGED (R3, R33, R58, R59, R79); the status POWER_ON, a clear mark and
CONFIG_DAMAGED, its stored flags lost (log 31); a custody record UNKNOWN with DAMAGED; a key entry, like one marked
free, no record, and DOSE_DAMAGED; a consignment no consignment, and CONSIGN_DAMAGED; the counter the highest number
that a consignment or custody record carries, or 0; an accumulator 0, with INSPECT and mark 0 on its area's records, and
DOSE_DAMAGED; a slot FREE and the list empty, before the recovery; the fire flags agent-spent (R60); the snapshot, or
one never held, clock 0 (R13). Damage of other kinds sets no flag. A key entry beside an erased record is log 33, beside
a good record with another label log 49, and of two places with one label one is kept (R82, log 44).

After the restart every record but the snapshot reads as its block holds it: the status is written, with POWER_ON, the
flags and a clear mark, and every record that the restart changed, once (R180 to R183; log 54); the snapshot and every
other record are as before (log 47). A format whose mark is found set is completed first: every record
in its formatted form, the flags clear, and FORMAT_DONE behind RESTARTED (R184). -/
def Obligations.RestartReadsTheStore : Prop :=
  (∀ (st : Store) (pending : List Instr) (x : Inputs),
     let b := st.restored pending x
     let read := fun r : StoreRecord => (st.cell r).read
     ((∀ c, read .config = some (.config c) → st.config = c) ∧
      (read .config = none →
        (∀ i : Fin 8, st.config.descriptors[i] = ⟨false, 0, 0, .vaultA⟩) ∧
        st.config.climate = ⟨⟨400, 30, 0, 1, 450, 0⟩, ⟨400, 30, 0, 1, 450, 0⟩, ⟨450, 30, 300, 1, 450, 64⟩,
          ⟨450, 30, 280, 1, 450, 32⟩⟩ ∧
        st.config.staging = ⟨30, 10, 240, 500, .vaultA, 4, 30, 300000, 900⟩ ∧
        (∀ a, st.config.fire.get a = ⟨.double, 30, 600⟩) ∧
        ∀ d : Detector, st.config.detectors[d] = ⟨some (if d.val < 3 then .vaultA else if d.val < 6 then .vaultB
          else if d.val < 9 then .staging else .hatch), .activeHigh⟩)) ∧
     ((∀ c f m, read .status = some (.status c f m) → st.status = (c, f, m)) ∧
      (read .status = none → st.status = (.powerOn, ⟨false, false, false⟩, false))) ∧
     (∀ p,
       (∀ l r, read (.key p) = some (.key (some l)) → read (.custody p) = some (.custody (some r)) →
         st.custodyAt p = some r) ∧
       (∀ l, read (.key p) = some (.key (some l)) →
         (read (.custody p) = none ∨ read (.custody p) = some (.custody none)) →
         st.custodyAt p = some ⟨l, .unknown, none, none, none, none, none, none, none, false, false, true, false, none⟩) ∧
       (read (.key p) = none ∨ read (.key p) = some (.key none) → st.custodyAt p = none)) ∧
     (cellsWf st.base st.cells = true →
       (∀ x ∈ b.custody, x.1 < 2048) ∧ (b.custody.map fun x => x.2.label).Nodup ∧
       (∀ p, p < 2048 → st.custodyAt p = none → recordAt p b.custody = none) ∧
       (∀ p r, p < 2048 → st.custodyAt p = some r → (∀ q r', q ≠ p → st.custodyAt q = some r' → r'.label ≠ r.label) →
         recordAt p b.custody = some
           (if r.area.any fun a => (read (.accumulator a)).isNone then { r with inspect := true, mark := some 0 } else r)) ∧
       (∀ p r, p < 2048 → st.custodyAt p = some r → ∃ y ∈ b.custody, y.2.label = r.label)) ∧
     (∀ i : Fin 16, (∀ c, read (.consignment i) = some (.consignment c) → b.consign.places[i] = c) ∧
       (read (.consignment i) = none → b.consign.places[i] = none)) ∧
     (let carried := fun n => (∃ (i : Fin 16) (c : Consignment), b.consign.places[i] = some c ∧ c.number = n) ∨
        ∃ y ∈ b.custody, y.2.consignment = some n
      (∀ n, read .counter = some (.counter n) → st.counter = n) ∧
      (read .counter = none → (∀ n, carried n → n ≤ st.counter) ∧ (st.counter = 0 ∨ carried st.counter))) ∧
     (∀ n : Fin 32,
       (read (.slot n) = some (.slot .free) ∨ read (.slot n) = none → b.staging.slots[n] = .free) ∧
       (∀ l o, read (.slot n) = some (.slot (.reserved l o)) → b.staging.slots[n] = .reserved l o 0) ∧
       (∀ l d o, read (.slot n) = some (.slot (.occupied l d o)) → b.staging.slots[n] = .occupied l d o 0 none)) ∧
     ((∀ es, read .hatchList = some (.hatchList es) →
        b.hatch.entries = es.map fun e => ⟨e.label, e.direction, e.number, none, e.fireHeld⟩) ∧
      (read .hatchList = none → b.hatch.entries = [])) ∧
     (∀ a, (∀ n, read (.accumulator a) = some (.accumulator n) → st.accumulator a = n) ∧
       (read (.accumulator a) = none → st.accumulator a = 0) ∧
       (∀ d spent, read (.fireFlags a) = some (.fireFlags d spent) → st.fireFlags a = (d, spent)) ∧
       (read (.fireFlags a) = none → st.fireFlags a = (false, true))) ∧
     ((∀ c, read .snapshot = some (.snapshot (some c)) → st.clock = c) ∧
      (read .snapshot = none ∨ read .snapshot = some (.snapshot none) → st.clock = 0)) ∧
     ((st.found.config = true ↔ read .config = none ∨ read .status = none) ∧
      (st.found.consign = true ↔ ∃ i : Fin 16, read (.consignment i) = none) ∧
      (st.found.dose = true ↔ (∃ p, p < 2048 ∧ read (.key p) = none) ∨ ∃ a, read (.accumulator a) = none))) ∧
  (∀ (cause : Cause) (st : Store) (pending : List Instr) (x : Inputs),
     let t := State.restart cause st pending x
     (t.custody.map fun x => x.2.label).Nodup ∧
     (cellsWf st.base st.cells = true → st.countsWithin →
       (∀ r : StoreRecord, r ≠ .snapshot → (t.store.cell r).read = some (t.liveContent r)) ∧
       t.store.cell .snapshot = st.cell .snapshot ∧
       t.store.cell .status = (st.cell .status).write (.status .powerOn t.store.flags false) ∧
       (st.status.2.2 = false → ∀ r : StoreRecord, r ≠ .snapshot → r ≠ .status → t.store.cell r =
         if (st.cell r).read = some (t.liveContent r) then st.cell r
         else if t.liveContent r = .custody none then (st.cell r).erase else (st.cell r).write (t.liveContent r)) ∧
       (st.status.2.2 = true →
         (∀ r : StoreRecord, r.formatted = true → t.liveContent r = formattedContent r) ∧
         t.custody = [] ∧ t.store.flags = ⟨false, false, false⟩ ∧ t.store.reported = cause ∧
         (∀ p : Port, (t.link p).sending = none ∧
           (t.link p).notices = ⟨st.clock, .restarted cause ⟨false, false, false⟩⟩ ::
             if (t.link p).mask.getLsbD 0 = true then [⟨st.clock, .formatDone⟩] else [])))) ∧
  (∀ r : StoreRecord, formattedContent r = match r with
     | .config => .config ConfigRecord.default
     | .custody _ => .custody none
     | .key _ => .key none
     | .consignment _ => .consignment none
     | .counter => .counter 0
     | .slot _ => .slot .free
     | .hatchList => .hatchList []
     | .accumulator _ => .accumulator 0
     | .fireFlags _ => .fireFlags false false
     | .snapshot => .snapshot none
     | .status => .status .powerOn ⟨false, false, false⟩ false)

/-! ## Invariants -/

/-- The model's state after reset is that of a restart with POWER_ON on a formatted store (log 1, log 2), but for the
count that the status's write takes, and every invariant below holds in it. -/
def Obligations.ResetMeetsEveryInvariant : Prop :=
  State.restart .powerOn State.reset.store [] State.reset.inputs = { State.reset with
    store := State.reset.store.writeNow .status (.status .powerOn ⟨false, false, false⟩ false) } ∧
  State.reset.latchSafe = true ∧
  State.reset.outputsFollow = true ∧ State.reset.tablesCanonical = true ∧ State.reset.withinCapacity = true ∧
  State.reset.listsWithin = true ∧ State.reset.storeFollows

/-- Every step keeps the latches safe: never both RELEASED, each RELEASED exactly for the side in possession, none
granted against an exchange, and nothing pending or kept past a closing door while the hatch is fire-blocked. -/
def Obligations.StepsKeepTheLatchesSafe : Prop :=
  ∀ s t : State, s.latchSafe = true → step s = .next t →
    t.latchSafe = true ∧ (t.power = .running → ¬ (t.hatch.inner.released = true ∧ t.hatch.outer.released = true))

/-- Every step keeps the common outputs on their causes. -/
def Obligations.StepsKeepTheOutputsOnTheirCauses : Prop :=
  ∀ s t : State, s.outputsFollow = true → step s = .next t → t.outputsFollow = true

/-- Every step keeps the store's cells and the custody table in canonical form, the custody table empty during a
format, and the store busy while a write waits. Every step keeps the queues and counts within their capacities. Every
command but a restart, and every scan of a part that runs, keeps the lists and the counts of records within theirs (a
restart takes them from the store's copies): the hatch list (R149), the lists and the mismatch count of a consignment
(R122, R159), the accumulators and doses (R73, R74), the dwells (R111). For EXCHANGE_TIMEOUT that holds while the
consignment of the open exchange is EXCHANGING, as ARRIVE makes it (R160). -/
def Obligations.StepsKeepTablesAndCapacities : Prop :=
  (∀ s t : State, s.tablesCanonical = true → step s = .next t → t.tablesCanonical = true) ∧
  (∀ s t : State, s.withinCapacity = true → step s = .next t → t.withinCapacity = true) ∧
  (∀ (c : Instr) (s t : State), s.listsWithin = true → exec c s = .next t →
    (∀ bad, c ≠ .powerOn bad ∧ c ≠ .resetLineHigh bad ∧ c ≠ .restartTaken bad) →
    (c = .exchangeTimeout → ∀ x i y, s.hatch.exchange = some x → s.consignment? x.number = some (i, y) →
      y.state = .exchanging) →
    t.listsWithin = true) ∧
  (∀ s : State, s.power = .running → s.listsWithin = true → s.scan.listsWithin = true)

/-- Every step keeps the store on the blocks: of every record but the clock snapshot, the last write that is in flight or
waits has the content that its block now holds, or, when no write of it is left, the cell reads that content back, or a
format in flight has the record still to write (R89, R179, R184). So no change of a persisted field goes unwritten, and a
restart leaves every cell as the blocks hold it (R181 to R183). The tables are in canonical form before the step, which
StepsKeepTablesAndCapacities keeps; the order of the format's writes is log 18. -/
def Obligations.StepsKeepTheStoreOnTheBlocks : Prop :=
  ∀ s t : State, s.tablesCanonical = true → s.storeFollows → step s = .next t → t.storeFollows
end

