-- ==== Sys2Proof/Laws/State.lean ====
section
/-! SUPPORT. One lemma for each field of the state under each named update, and the reads after writes of the
shapes that hold one value for each area, channel, port or door. -/

namespace Sys2Proof.Machine

/-! ## `FormatPhase` -/

@[simp] theorem FormatPhase.inFlight_none : FormatPhase.none.inFlight = false := rfl
@[simp] theorem FormatPhase.inFlight_marking : FormatPhase.marking.inFlight = true := rfl
@[simp] theorem FormatPhase.inFlight_writing (k : Nat) : (FormatPhase.writing k).inFlight = true := rfl
@[simp] theorem FormatPhase.inEffect_none : FormatPhase.none.inEffect = false := rfl
@[simp] theorem FormatPhase.inEffect_marking : FormatPhase.marking.inEffect = false := rfl
@[simp] theorem FormatPhase.inEffect_writing (k : Nat) : (FormatPhase.writing k).inEffect = true := rfl

/-! ## `State.onLink` -/

@[simp] theorem onLink_pending (p : Port) (f : Link → Link) (s : State) : (s.onLink p f).pending = s.pending := rfl
@[simp] theorem onLink_power (p : Port) (f : Link → Link) (s : State) : (s.onLink p f).power = s.power := rfl
@[simp] theorem onLink_inputs (p : Port) (f : Link → Link) (s : State) : (s.onLink p f).inputs = s.inputs := rfl
@[simp] theorem onLink_links (p : Port) (f : Link → Link) (s : State) : (s.onLink p f).links = s.links.set p (f (s.links.get p)) := rfl
@[simp] theorem onLink_vault (p : Port) (f : Link → Link) (s : State) : (s.onLink p f).vault = s.vault := rfl
@[simp] theorem onLink_climate (p : Port) (f : Link → Link) (s : State) : (s.onLink p f).climate = s.climate := rfl
@[simp] theorem onLink_accumulators (p : Port) (f : Link → Link) (s : State) : (s.onLink p f).accumulators = s.accumulators := rfl
@[simp] theorem onLink_custody (p : Port) (f : Link → Link) (s : State) : (s.onLink p f).custody = s.custody := rfl
@[simp] theorem onLink_staging (p : Port) (f : Link → Link) (s : State) : (s.onLink p f).staging = s.staging := rfl
@[simp] theorem onLink_consign (p : Port) (f : Link → Link) (s : State) : (s.onLink p f).consign = s.consign := rfl
@[simp] theorem onLink_hatch (p : Port) (f : Link → Link) (s : State) : (s.onLink p f).hatch = s.hatch := rfl
@[simp] theorem onLink_fire (p : Port) (f : Link → Link) (s : State) : (s.onLink p f).fire = s.fire := rfl
@[simp] theorem onLink_store (p : Port) (f : Link → Link) (s : State) : (s.onLink p f).store = s.store := rfl

/-! ## `State.onInputs` -/

@[simp] theorem onInputs_pending (f : Inputs → Inputs) (s : State) : (s.onInputs f).pending = s.pending := rfl
@[simp] theorem onInputs_power (f : Inputs → Inputs) (s : State) : (s.onInputs f).power = s.power := rfl
@[simp] theorem onInputs_inputs (f : Inputs → Inputs) (s : State) : (s.onInputs f).inputs = f s.inputs := rfl
@[simp] theorem onInputs_links (f : Inputs → Inputs) (s : State) : (s.onInputs f).links = s.links := rfl
@[simp] theorem onInputs_vault (f : Inputs → Inputs) (s : State) : (s.onInputs f).vault = s.vault := rfl
@[simp] theorem onInputs_climate (f : Inputs → Inputs) (s : State) : (s.onInputs f).climate = s.climate := rfl
@[simp] theorem onInputs_accumulators (f : Inputs → Inputs) (s : State) : (s.onInputs f).accumulators = s.accumulators := rfl
@[simp] theorem onInputs_custody (f : Inputs → Inputs) (s : State) : (s.onInputs f).custody = s.custody := rfl
@[simp] theorem onInputs_staging (f : Inputs → Inputs) (s : State) : (s.onInputs f).staging = s.staging := rfl
@[simp] theorem onInputs_consign (f : Inputs → Inputs) (s : State) : (s.onInputs f).consign = s.consign := rfl
@[simp] theorem onInputs_hatch (f : Inputs → Inputs) (s : State) : (s.onInputs f).hatch = s.hatch := rfl
@[simp] theorem onInputs_fire (f : Inputs → Inputs) (s : State) : (s.onInputs f).fire = s.fire := rfl
@[simp] theorem onInputs_store (f : Inputs → Inputs) (s : State) : (s.onInputs f).store = s.store := rfl

/-! ## The pins of the inputs (R37) -/

@[simp] theorem settled_scan (l : Level) : (Pin.settled l).scan = Pin.settled l := rfl
@[simp] theorem settled_taken (l m : Level) : (Pin.settled l).taken m = l := if_pos rfl

/-- Two scans that sample the same level give it. -/
theorem taken_of_same {p : Pin} (h : p.sample = p.now) (l : Level) : p.taken l = p.now := if_pos h

/-- A level that only one scan has sampled is not taken. -/
theorem taken_of_change {p : Pin} (h : p.sample ≠ p.now) (l : Level) : p.taken l = l := if_neg h

@[simp] theorem contact_setContact (x : Inputs) (d e : Side) (p : Pin) :
    (x.setContact d p).contact e = if e = d then p else x.contact e := by
  cases d <;> cases e <;> rfl

/-! ## `State.onDoor` -/

@[simp] theorem onDoor_pending (d : Side) (f : Door → Door) (s : State) : (s.onDoor d f).pending = s.pending := rfl
@[simp] theorem onDoor_power (d : Side) (f : Door → Door) (s : State) : (s.onDoor d f).power = s.power := rfl
@[simp] theorem onDoor_inputs (d : Side) (f : Door → Door) (s : State) : (s.onDoor d f).inputs = s.inputs := rfl
@[simp] theorem onDoor_links (d : Side) (f : Door → Door) (s : State) : (s.onDoor d f).links = s.links := rfl
@[simp] theorem onDoor_vault (d : Side) (f : Door → Door) (s : State) : (s.onDoor d f).vault = s.vault := rfl
@[simp] theorem onDoor_climate (d : Side) (f : Door → Door) (s : State) : (s.onDoor d f).climate = s.climate := rfl
@[simp] theorem onDoor_accumulators (d : Side) (f : Door → Door) (s : State) : (s.onDoor d f).accumulators = s.accumulators := rfl
@[simp] theorem onDoor_custody (d : Side) (f : Door → Door) (s : State) : (s.onDoor d f).custody = s.custody := rfl
@[simp] theorem onDoor_staging (d : Side) (f : Door → Door) (s : State) : (s.onDoor d f).staging = s.staging := rfl
@[simp] theorem onDoor_consign (d : Side) (f : Door → Door) (s : State) : (s.onDoor d f).consign = s.consign := rfl
@[simp] theorem onDoor_hatch (d : Side) (f : Door → Door) (s : State) : (s.onDoor d f).hatch = s.hatch.setDoor d (f (s.hatch.door d)) := rfl
@[simp] theorem onDoor_fire (d : Side) (f : Door → Door) (s : State) : (s.onDoor d f).fire = s.fire := rfl
@[simp] theorem onDoor_store (d : Side) (f : Door → Door) (s : State) : (s.onDoor d f).store = s.store := rfl

/-! ## `State.onArbiter` -/

@[simp] theorem onArbiter_pending (f : Arbiter → Arbiter) (s : State) : (s.onArbiter f).pending = s.pending := rfl
@[simp] theorem onArbiter_power (f : Arbiter → Arbiter) (s : State) : (s.onArbiter f).power = s.power := rfl
@[simp] theorem onArbiter_inputs (f : Arbiter → Arbiter) (s : State) : (s.onArbiter f).inputs = s.inputs := rfl
@[simp] theorem onArbiter_links (f : Arbiter → Arbiter) (s : State) : (s.onArbiter f).links = s.links := rfl
@[simp] theorem onArbiter_vault (f : Arbiter → Arbiter) (s : State) : (s.onArbiter f).vault = s.vault := rfl
@[simp] theorem onArbiter_climate (f : Arbiter → Arbiter) (s : State) : (s.onArbiter f).climate = s.climate := rfl
@[simp] theorem onArbiter_accumulators (f : Arbiter → Arbiter) (s : State) : (s.onArbiter f).accumulators = s.accumulators := rfl
@[simp] theorem onArbiter_custody (f : Arbiter → Arbiter) (s : State) : (s.onArbiter f).custody = s.custody := rfl
@[simp] theorem onArbiter_staging (f : Arbiter → Arbiter) (s : State) : (s.onArbiter f).staging = s.staging := rfl
@[simp] theorem onArbiter_consign (f : Arbiter → Arbiter) (s : State) : (s.onArbiter f).consign = s.consign := rfl
@[simp] theorem onArbiter_hatch (f : Arbiter → Arbiter) (s : State) : (s.onArbiter f).hatch = { s.hatch with arbiter := f s.hatch.arbiter } := rfl
@[simp] theorem onArbiter_fire (f : Arbiter → Arbiter) (s : State) : (s.onArbiter f).fire = s.fire := rfl
@[simp] theorem onArbiter_store (f : Arbiter → Arbiter) (s : State) : (s.onArbiter f).store = s.store := rfl

/-! ## `State.onControl` -/

@[simp] theorem onControl_pending (a : Area) (f : AreaControl → AreaControl) (s : State) : (s.onControl a f).pending = s.pending := rfl
@[simp] theorem onControl_power (a : Area) (f : AreaControl → AreaControl) (s : State) : (s.onControl a f).power = s.power := rfl
@[simp] theorem onControl_inputs (a : Area) (f : AreaControl → AreaControl) (s : State) : (s.onControl a f).inputs = s.inputs := rfl
@[simp] theorem onControl_links (a : Area) (f : AreaControl → AreaControl) (s : State) : (s.onControl a f).links = s.links := rfl
@[simp] theorem onControl_vault (a : Area) (f : AreaControl → AreaControl) (s : State) : (s.onControl a f).vault = s.vault := rfl
@[simp] theorem onControl_climate (a : Area) (f : AreaControl → AreaControl) (s : State) : (s.onControl a f).climate = { s.climate with controls := s.climate.controls.set a (f (s.climate.controls.get a)) } := rfl
@[simp] theorem onControl_accumulators (a : Area) (f : AreaControl → AreaControl) (s : State) : (s.onControl a f).accumulators = s.accumulators := rfl
@[simp] theorem onControl_custody (a : Area) (f : AreaControl → AreaControl) (s : State) : (s.onControl a f).custody = s.custody := rfl
@[simp] theorem onControl_staging (a : Area) (f : AreaControl → AreaControl) (s : State) : (s.onControl a f).staging = s.staging := rfl
@[simp] theorem onControl_consign (a : Area) (f : AreaControl → AreaControl) (s : State) : (s.onControl a f).consign = s.consign := rfl
@[simp] theorem onControl_hatch (a : Area) (f : AreaControl → AreaControl) (s : State) : (s.onControl a f).hatch = s.hatch := rfl
@[simp] theorem onControl_fire (a : Area) (f : AreaControl → AreaControl) (s : State) : (s.onControl a f).fire = s.fire := rfl
@[simp] theorem onControl_store (a : Area) (f : AreaControl → AreaControl) (s : State) : (s.onControl a f).store = s.store := rfl

/-! ## `State.onFireArea` -/

@[simp] theorem onFireArea_pending (a : Area) (f : FireArea → FireArea) (s : State) : (s.onFireArea a f).pending = s.pending := rfl
@[simp] theorem onFireArea_power (a : Area) (f : FireArea → FireArea) (s : State) : (s.onFireArea a f).power = s.power := rfl
@[simp] theorem onFireArea_inputs (a : Area) (f : FireArea → FireArea) (s : State) : (s.onFireArea a f).inputs = s.inputs := rfl
@[simp] theorem onFireArea_links (a : Area) (f : FireArea → FireArea) (s : State) : (s.onFireArea a f).links = s.links := rfl
@[simp] theorem onFireArea_vault (a : Area) (f : FireArea → FireArea) (s : State) : (s.onFireArea a f).vault = s.vault := rfl
@[simp] theorem onFireArea_climate (a : Area) (f : FireArea → FireArea) (s : State) : (s.onFireArea a f).climate = s.climate := rfl
@[simp] theorem onFireArea_accumulators (a : Area) (f : FireArea → FireArea) (s : State) : (s.onFireArea a f).accumulators = s.accumulators := rfl
@[simp] theorem onFireArea_custody (a : Area) (f : FireArea → FireArea) (s : State) : (s.onFireArea a f).custody = s.custody := rfl
@[simp] theorem onFireArea_staging (a : Area) (f : FireArea → FireArea) (s : State) : (s.onFireArea a f).staging = s.staging := rfl
@[simp] theorem onFireArea_consign (a : Area) (f : FireArea → FireArea) (s : State) : (s.onFireArea a f).consign = s.consign := rfl
@[simp] theorem onFireArea_hatch (a : Area) (f : FireArea → FireArea) (s : State) : (s.onFireArea a f).hatch = s.hatch := rfl
@[simp] theorem onFireArea_fire (a : Area) (f : FireArea → FireArea) (s : State) : (s.onFireArea a f).fire = { s.fire with areas := s.fire.areas.set a (f (s.fire.areas.get a)) } := rfl
@[simp] theorem onFireArea_store (a : Area) (f : FireArea → FireArea) (s : State) : (s.onFireArea a f).store = s.store := rfl

/-! ## `State.onDetector` -/

@[simp] theorem onDetector_pending (d : Detector) (f : DetectorRecord → DetectorRecord) (s : State) : (s.onDetector d f).pending = s.pending := rfl
@[simp] theorem onDetector_power (d : Detector) (f : DetectorRecord → DetectorRecord) (s : State) : (s.onDetector d f).power = s.power := rfl
@[simp] theorem onDetector_inputs (d : Detector) (f : DetectorRecord → DetectorRecord) (s : State) : (s.onDetector d f).inputs = s.inputs := rfl
@[simp] theorem onDetector_links (d : Detector) (f : DetectorRecord → DetectorRecord) (s : State) : (s.onDetector d f).links = s.links := rfl
@[simp] theorem onDetector_vault (d : Detector) (f : DetectorRecord → DetectorRecord) (s : State) : (s.onDetector d f).vault = s.vault := rfl
@[simp] theorem onDetector_climate (d : Detector) (f : DetectorRecord → DetectorRecord) (s : State) : (s.onDetector d f).climate = s.climate := rfl
@[simp] theorem onDetector_accumulators (d : Detector) (f : DetectorRecord → DetectorRecord) (s : State) : (s.onDetector d f).accumulators = s.accumulators := rfl
@[simp] theorem onDetector_custody (d : Detector) (f : DetectorRecord → DetectorRecord) (s : State) : (s.onDetector d f).custody = s.custody := rfl
@[simp] theorem onDetector_staging (d : Detector) (f : DetectorRecord → DetectorRecord) (s : State) : (s.onDetector d f).staging = s.staging := rfl
@[simp] theorem onDetector_consign (d : Detector) (f : DetectorRecord → DetectorRecord) (s : State) : (s.onDetector d f).consign = s.consign := rfl
@[simp] theorem onDetector_hatch (d : Detector) (f : DetectorRecord → DetectorRecord) (s : State) : (s.onDetector d f).hatch = s.hatch := rfl
@[simp] theorem onDetector_fire (d : Detector) (f : DetectorRecord → DetectorRecord) (s : State) : (s.onDetector d f).fire = { s.fire with detectors := s.fire.detectors.set d (f s.fire.detectors[d]) } := rfl
@[simp] theorem onDetector_store (d : Detector) (f : DetectorRecord → DetectorRecord) (s : State) : (s.onDetector d f).store = s.store := rfl

/-! ## `State.setSweep` -/

@[simp] theorem setSweep_pending (w : Sweep) (s : State) : (s.setSweep w).pending = s.pending := rfl
@[simp] theorem setSweep_power (w : Sweep) (s : State) : (s.setSweep w).power = s.power := rfl
@[simp] theorem setSweep_inputs (w : Sweep) (s : State) : (s.setSweep w).inputs = s.inputs := rfl
@[simp] theorem setSweep_links (w : Sweep) (s : State) : (s.setSweep w).links = s.links := rfl
@[simp] theorem setSweep_vault (w : Sweep) (s : State) : (s.setSweep w).vault = s.vault := rfl
@[simp] theorem setSweep_climate (w : Sweep) (s : State) : (s.setSweep w).climate = { s.climate with sweep := w } := rfl
@[simp] theorem setSweep_accumulators (w : Sweep) (s : State) : (s.setSweep w).accumulators = s.accumulators := rfl
@[simp] theorem setSweep_custody (w : Sweep) (s : State) : (s.setSweep w).custody = s.custody := rfl
@[simp] theorem setSweep_staging (w : Sweep) (s : State) : (s.setSweep w).staging = s.staging := rfl
@[simp] theorem setSweep_consign (w : Sweep) (s : State) : (s.setSweep w).consign = s.consign := rfl
@[simp] theorem setSweep_hatch (w : Sweep) (s : State) : (s.setSweep w).hatch = s.hatch := rfl
@[simp] theorem setSweep_fire (w : Sweep) (s : State) : (s.setSweep w).fire = s.fire := rfl
@[simp] theorem setSweep_store (w : Sweep) (s : State) : (s.setSweep w).store = s.store := rfl

/-! ## `State.mapSlots` -/

@[simp] theorem mapSlots_pending (f : Slot → Slot) (s : State) : (s.mapSlots f).pending = s.pending := rfl
@[simp] theorem mapSlots_power (f : Slot → Slot) (s : State) : (s.mapSlots f).power = s.power := rfl
@[simp] theorem mapSlots_inputs (f : Slot → Slot) (s : State) : (s.mapSlots f).inputs = s.inputs := rfl
@[simp] theorem mapSlots_links (f : Slot → Slot) (s : State) : (s.mapSlots f).links = s.links := rfl
@[simp] theorem mapSlots_vault (f : Slot → Slot) (s : State) : (s.mapSlots f).vault = s.vault := rfl
@[simp] theorem mapSlots_climate (f : Slot → Slot) (s : State) : (s.mapSlots f).climate = s.climate := rfl
@[simp] theorem mapSlots_accumulators (f : Slot → Slot) (s : State) : (s.mapSlots f).accumulators = s.accumulators := rfl
@[simp] theorem mapSlots_custody (f : Slot → Slot) (s : State) : (s.mapSlots f).custody = s.custody := rfl
@[simp] theorem mapSlots_staging (f : Slot → Slot) (s : State) : (s.mapSlots f).staging = { s.staging with slots := tabulate fun n => f s.staging.slots[n] } := rfl
@[simp] theorem mapSlots_consign (f : Slot → Slot) (s : State) : (s.mapSlots f).consign = s.consign := rfl
@[simp] theorem mapSlots_hatch (f : Slot → Slot) (s : State) : (s.mapSlots f).hatch = s.hatch := rfl
@[simp] theorem mapSlots_fire (f : Slot → Slot) (s : State) : (s.mapSlots f).fire = s.fire := rfl
@[simp] theorem mapSlots_store (f : Slot → Slot) (s : State) : (s.mapSlots f).store = s.store := rfl

/-! ## `State.setConsign` -/

@[simp] theorem setConsign_pending (i : Fin 16) (c : Consignment) (s : State) : (s.setConsign i c).pending = s.pending := rfl
@[simp] theorem setConsign_power (i : Fin 16) (c : Consignment) (s : State) : (s.setConsign i c).power = s.power := rfl
@[simp] theorem setConsign_inputs (i : Fin 16) (c : Consignment) (s : State) : (s.setConsign i c).inputs = s.inputs := rfl
@[simp] theorem setConsign_links (i : Fin 16) (c : Consignment) (s : State) : (s.setConsign i c).links = s.links := rfl
@[simp] theorem setConsign_vault (i : Fin 16) (c : Consignment) (s : State) : (s.setConsign i c).vault = s.vault := rfl
@[simp] theorem setConsign_climate (i : Fin 16) (c : Consignment) (s : State) : (s.setConsign i c).climate = s.climate := rfl
@[simp] theorem setConsign_accumulators (i : Fin 16) (c : Consignment) (s : State) : (s.setConsign i c).accumulators = s.accumulators := rfl
@[simp] theorem setConsign_custody (i : Fin 16) (c : Consignment) (s : State) : (s.setConsign i c).custody = s.custody := rfl
@[simp] theorem setConsign_staging (i : Fin 16) (c : Consignment) (s : State) : (s.setConsign i c).staging = s.staging := rfl
@[simp] theorem setConsign_consign (i : Fin 16) (c : Consignment) (s : State) : (s.setConsign i c).consign = { s.consign with places := s.consign.places.set i (some c) } := rfl
@[simp] theorem setConsign_hatch (i : Fin 16) (c : Consignment) (s : State) : (s.setConsign i c).hatch = s.hatch := rfl
@[simp] theorem setConsign_fire (i : Fin 16) (c : Consignment) (s : State) : (s.setConsign i c).fire = s.fire := rfl
@[simp] theorem setConsign_store (i : Fin 16) (c : Consignment) (s : State) : (s.setConsign i c).store = s.store := rfl

/-! ## `State.updateTrouble` -/

@[simp] theorem updateTrouble_pending (s : State) : (s.updateTrouble).pending = s.pending := rfl
@[simp] theorem updateTrouble_power (s : State) : (s.updateTrouble).power = s.power := rfl
@[simp] theorem updateTrouble_inputs (s : State) : (s.updateTrouble).inputs = s.inputs := rfl
@[simp] theorem updateTrouble_links (s : State) : (s.updateTrouble).links = s.links := rfl
@[simp] theorem updateTrouble_vault (s : State) : (s.updateTrouble).vault = s.vault := rfl
@[simp] theorem updateTrouble_climate (s : State) : (s.updateTrouble).climate = s.climate := rfl
@[simp] theorem updateTrouble_accumulators (s : State) : (s.updateTrouble).accumulators = s.accumulators := rfl
@[simp] theorem updateTrouble_custody (s : State) : (s.updateTrouble).custody = s.custody := rfl
@[simp] theorem updateTrouble_staging (s : State) : (s.updateTrouble).staging = s.staging := rfl
@[simp] theorem updateTrouble_consign (s : State) : (s.updateTrouble).consign = s.consign := rfl
@[simp] theorem updateTrouble_hatch (s : State) : (s.updateTrouble).hatch = s.hatch := rfl
@[simp] theorem updateTrouble_fire (s : State) : (s.updateTrouble).fire = { s.fire with trouble := s.causes.any } := rfl
@[simp] theorem updateTrouble_store (s : State) : (s.updateTrouble).store = s.store := rfl

/-! ## `State.updateSounders` -/

@[simp] theorem updateSounders_pending (s : State) : (s.updateSounders).pending = s.pending := rfl
@[simp] theorem updateSounders_power (s : State) : (s.updateSounders).power = s.power := rfl
@[simp] theorem updateSounders_inputs (s : State) : (s.updateSounders).inputs = s.inputs := rfl
@[simp] theorem updateSounders_links (s : State) : (s.updateSounders).links = s.links := rfl
@[simp] theorem updateSounders_vault (s : State) : (s.updateSounders).vault = s.vault := rfl
@[simp] theorem updateSounders_climate (s : State) : (s.updateSounders).climate = s.climate := rfl
@[simp] theorem updateSounders_accumulators (s : State) : (s.updateSounders).accumulators = s.accumulators := rfl
@[simp] theorem updateSounders_custody (s : State) : (s.updateSounders).custody = s.custody := rfl
@[simp] theorem updateSounders_staging (s : State) : (s.updateSounders).staging = s.staging := rfl
@[simp] theorem updateSounders_consign (s : State) : (s.updateSounders).consign = s.consign := rfl
@[simp] theorem updateSounders_hatch (s : State) : (s.updateSounders).hatch = s.hatch := rfl
@[simp] theorem updateSounders_fire (s : State) : (s.updateSounders).fire = { s.fire with alert := s.fire.alertOf, evacuate := s.fire.evacuateOf } := rfl
@[simp] theorem updateSounders_store (s : State) : (s.updateSounders).store = s.store := rfl

/-! ## `State.unqueue` -/

@[simp] theorem unqueue_pending (l : Label) (s : State) : (s.unqueue l).pending = s.pending := rfl
@[simp] theorem unqueue_power (l : Label) (s : State) : (s.unqueue l).power = s.power := rfl
@[simp] theorem unqueue_inputs (l : Label) (s : State) : (s.unqueue l).inputs = s.inputs := rfl
@[simp] theorem unqueue_links (l : Label) (s : State) : (s.unqueue l).links = s.links := rfl
@[simp] theorem unqueue_vault (l : Label) (s : State) : (s.unqueue l).vault = s.vault := rfl
@[simp] theorem unqueue_climate (l : Label) (s : State) : (s.unqueue l).climate = s.climate := rfl
@[simp] theorem unqueue_accumulators (l : Label) (s : State) : (s.unqueue l).accumulators = s.accumulators := rfl
@[simp] theorem unqueue_custody (l : Label) (s : State) : (s.unqueue l).custody = s.custody := rfl
@[simp] theorem unqueue_staging (l : Label) (s : State) : (s.unqueue l).staging = { s.staging with queue := s.staging.queue.eraseP fun e => e.label == l } := rfl
@[simp] theorem unqueue_consign (l : Label) (s : State) : (s.unqueue l).consign = s.consign := rfl
@[simp] theorem unqueue_hatch (l : Label) (s : State) : (s.unqueue l).hatch = s.hatch := rfl
@[simp] theorem unqueue_fire (l : Label) (s : State) : (s.unqueue l).fire = s.fire := rfl
@[simp] theorem unqueue_store (l : Label) (s : State) : (s.unqueue l).store = s.store := rfl

/-! ## `State.tick` -/

@[simp] theorem tick_pending (s : State) : (s.tick).pending = s.pending := rfl
@[simp] theorem tick_power (s : State) : (s.tick).power = s.power := rfl
@[simp] theorem tick_inputs (s : State) : (s.tick).inputs = s.inputs := rfl
@[simp] theorem tick_links (s : State) : (s.tick).links = s.links := rfl
@[simp] theorem tick_vault (s : State) : (s.tick).vault = { s.vault with clock := s.vault.clock + 1, uptime := min Config.max32 (s.vault.uptime + 1) } := rfl
@[simp] theorem tick_climate (s : State) : (s.tick).climate = s.climate := rfl
@[simp] theorem tick_accumulators (s : State) : (s.tick).accumulators = s.accumulators := rfl
@[simp] theorem tick_custody (s : State) : (s.tick).custody = s.custody := rfl
@[simp] theorem tick_staging (s : State) : (s.tick).staging = s.staging := rfl
@[simp] theorem tick_consign (s : State) : (s.tick).consign = s.consign := rfl
@[simp] theorem tick_hatch (s : State) : (s.tick).hatch = s.hatch := rfl
@[simp] theorem tick_fire (s : State) : (s.tick).fire = s.fire := rfl
@[simp] theorem tick_store (s : State) : (s.tick).store = s.store := rfl

/-! ## Reads after writes -/

@[simp] theorem links_get_set (l : Links) (p q : Port) (x : Link) :
    (l.set p x).get q = if q = p then x else l.get q := by cases p <;> cases q <;> rfl

@[simp] theorem links_set_lost (l : Links) (p : Port) (x : Link) : (l.set p x).lost = l.lost := by cases p <;> rfl

@[simp] theorem links_set_lastValid (l : Links) (p : Port) (x : Link) : (l.set p x).lastValid = l.lastValid := by
  cases p <;> rfl

@[simp] theorem links_set_get (l : Links) (p : Port) : l.set p (l.get p) = l := by cases p <;> rfl

@[simp] theorem links_set_set (l : Links) (p : Port) (x y : Link) : (l.set p x).set p y = l.set p y := by cases p <;> rfl

@[simp] theorem perArea_get_set {α : Type} (p : PerArea α) (a b : Area) (x : α) :
    (p.set a x).get b = if b = a then x else p.get b := by cases a <;> cases b <;> rfl

@[simp] theorem perArea_set_get {α : Type} (p : PerArea α) (a : Area) : p.set a (p.get a) = p := by cases a <;> rfl

@[simp] theorem perArea_set_set {α : Type} (p : PerArea α) (a : Area) (x y : α) : (p.set a x).set a y = p.set a y := by
  cases a <;> rfl

@[simp] theorem perArea_get_map {α β : Type} (f : α → β) (p : PerArea α) (a : Area) : (p.map f).get a = f (p.get a) := by
  cases a <;> rfl

@[simp] theorem perChannel_get_set {α : Type} (p : PerChannel α) (c d : Channel) (x : α) :
    (p.set c x).get d = if d = c then x else p.get d := by
  cases c <;> cases d <;> simp [PerChannel.set, PerChannel.get]

@[simp] theorem hatch_door_setDoor (h : HatchUnit) (a b : Side) (d : Door) :
    (h.setDoor a d).door b = if b = a then d else h.door b := by cases a <;> cases b <;> rfl

@[simp] theorem hatch_setDoor_arbiter (h : HatchUnit) (a : Side) (d : Door) : (h.setDoor a d).arbiter = h.arbiter := by
  cases a <;> rfl

@[simp] theorem hatch_setDoor_entries (h : HatchUnit) (a : Side) (d : Door) : (h.setDoor a d).entries = h.entries := by
  cases a <;> rfl

@[simp] theorem hatch_setDoor_exchange (h : HatchUnit) (a : Side) (d : Door) : (h.setDoor a d).exchange = h.exchange := by
  cases a <;> rfl

theorem perArea_ext {α : Type} {p q : PerArea α} (h : ∀ a, p.get a = q.get a) : p = q := by
  cases p; cases q
  have h1 := h .vaultA; have h2 := h .vaultB; have h3 := h .staging; have h4 := h .hatch
  simp only [PerArea.get] at h1 h2 h3 h4
  simp [h1, h2, h3, h4]

@[simp] theorem tabulate_get {α : Type} {n : Nat} (f : Fin n → α) (i : Fin n) : (tabulate f)[i] = f i := by
  simp [tabulate]

end Sys2Proof.Machine
end

