-- ==== Sys2Proof/Laws/Frame.lean ====
section
/-! SUPPORT. What the shared operations leave as it was: notices and responses touch the link units alone, an output
that waits touches the store's waiting outputs, and a record handed over touches the store's queue of writes. -/

namespace Sys2Proof.Machine

set_option linter.unnecessarySeqFocus false

/-- A fold keeps whatever each of its steps keeps. -/
theorem foldl_keeps {α β γ : Type} (f : β → α → β) (g : β → γ) (h : ∀ b a, g (f b a) = g b) :
    ∀ (l : List α) (b : β), g (l.foldl f b) = g b
  | [], _ => rfl
  | a :: l, b => by rw [List.foldl_cons, foldl_keeps f g h l, h]

/-- A fold keeps a property that each of its steps keeps. -/
theorem foldl_invariant {α β : Type} (f : β → α → β) (P : β → Prop) (h : ∀ b a, P b → P (f b a)) :
    ∀ (l : List α) (b : β), P b → P (l.foldl f b)
  | [], _, hb => hb
  | a :: l, b, hb => foldl_invariant f P h l _ (h b a hb)

/-! ## Notices and responses -/

/-- A notice on one port touches the link units alone. -/
theorem noticeOn_frame (take : Link → Notice → Link) (n : NoticeBody) (p : Port) (s : State) :
    s.noticeOn take n p = { s with links := (s.noticeOn take n p).links } := by
  unfold State.noticeOn; split <;> rfl

/-- A notice touches the link units alone, however the ports queue it (R174). -/
theorem sendNotice_frame (take : Link → Notice → Link) (n : NoticeBody) (s : State) :
    s.sendNotice take n = { s with links := (s.sendNotice take n).links } := by
  unfold State.sendNotice
  generalize n.ports = ps
  induction ps generalizing s with
  | nil => rfl
  | cons p ps ih =>
    simp only [List.foldl_cons]
    rw [ih, noticeOn_frame take n p s]

/-- A notice touches the link units alone (R174). -/
theorem postNotice_frame (n : NoticeBody) (s : State) : s.postNotice n = { s with links := (s.postNotice n).links } :=
  sendNotice_frame Link.takeNotice n s

/-- A notice of a restart touches the link units alone (R178). -/
theorem noticeAtRestart_frame (n : NoticeBody) (s : State) :
    s.noticeAtRestart n = { s with links := (s.noticeAtRestart n).links } :=
  sendNotice_frame Link.takeAtRestart n s

/-- Transmitters that start touch the link units alone (R175). -/
theorem startTransmitters_frame (s : State) : s.startTransmitters = { s with links := s.startTransmitters.links } := by
  unfold State.startTransmitters; split <;> rfl

/-- A queued response touches the link units alone (R175). -/
theorem postResponse_frame (p : Port) (r : Response) (s : State) :
    s.postResponse p r = { s with links := (s.postResponse p r).links } := rfl

/-- A queued output touches the link units alone. -/
theorem deliver_frame (s : State) (x : Out) : s.deliver x = { s with links := (s.deliver x).links } := by
  cases x with
  | response p r => rfl
  | notice n => exact postNotice_frame n s

/-- Several queued outputs touch the link units alone. -/
theorem delivers_frame (xs : List Out) (s : State) :
    xs.foldl State.deliver s = { s with links := (xs.foldl State.deliver s).links } := by
  induction xs generalizing s with
  | nil => rfl
  | cons x xs ih => simp only [List.foldl_cons]; rw [ih, deliver_frame s x]

/-- Outputs touch the link units, or wait in the store, and nothing else (R89). -/
theorem emit_frame (needs : List Nat) (xs : List Out) (s : State) :
    s.emit needs xs =
      { s with links := (s.emit needs xs).links, store := { s.store with waiting := (s.emit needs xs).store.waiting } } := by
  unfold State.emit
  split
  · rw [delivers_frame]
  · rfl

theorem notify_frame (needs : List Nat) (n : NoticeBody) (s : State) :
    s.notify needs n =
      { s with links := (s.notify needs n).links, store := { s.store with waiting := (s.notify needs n).store.waiting } } :=
  emit_frame _ _ s

theorem answer_frame (h : ReqHead) (k : RequestKind) (needs : List Nat) (c : ResultCode) (d : ResponseData) (s : State) :
    s.answer h k needs c d =
      { s with links := (s.answer h k needs c d).links,
               store := { s.store with waiting := (s.answer h k needs c d).store.waiting } } :=
  emit_frame _ _ s

/-- A refusal by the owning block touches the link units alone (R172). -/
theorem refuse_frame (h : ReqHead) (k : RequestKind) (c : ResultCode) (s : State) :
    s.refuse h k c = { s with links := (s.refuse h k c).links } := by
  unfold State.refuse State.answer State.emit
  simp only [List.isEmpty_nil, ↓reduceIte]
  exact delivers_frame _ s

/-! ## Records handed over -/

/-- Beginning a waiting write touches the queue of writes alone. -/
theorem begin_frame (st : Store) : st.begin = { st with inflight := st.begin.inflight, queue := st.begin.queue } := by
  unfold Store.begin; split <;> rfl

/-- A write of its own touches the queue of writes alone (R179). -/
theorem append_frame (st : Store) (r : StoreRecord) (x : Content) :
    st.append r x =
      { st with inflight := (st.append r x).inflight, queue := (st.append r x).queue,
                nextTicket := (st.append r x).nextTicket } := by
  unfold Store.append
  simp only []; rw [begin_frame]

/-- A write handed over touches the queue of writes alone (R179). -/
theorem handOver_frame (st : Store) (r : StoreRecord) (x : Content) :
    st.handOver r x =
      { st with inflight := (st.handOver r x).inflight, queue := (st.handOver r x).queue,
                nextTicket := (st.handOver r x).nextTicket } := by
  unfold Store.handOver
  split
  · rfl
  · rw [append_frame]

/-- A record handed over touches the store's queue of writes alone (R179). -/
theorem persist_frame (r : StoreRecord) (s : State) :
    s.persist r =
      { s with store := { s.store with inflight := (s.persist r).store.inflight, queue := (s.persist r).store.queue,
                                       nextTicket := (s.persist r).store.nextTicket } } := by
  unfold State.persist
  split
  · rfl
  · simp only []; rw [handOver_frame]

/-- A record handed over as a write of its own touches the store's queue of writes alone (R179). -/
theorem persistLast_frame (r : StoreRecord) (s : State) :
    s.persistLast r =
      { s with store := { s.store with inflight := (s.persistLast r).store.inflight,
                                       queue := (s.persistLast r).store.queue,
                                       nextTicket := (s.persistLast r).store.nextTicket } } := by
  unfold State.persistLast
  rw [append_frame]

/-- A transmitter that starts keeps all but what it sends and what waits for it (R175). -/
theorem start_frame (l : Link) :
    l.start = { l with sending := l.start.sending, responses := l.start.responses, notices := l.start.notices } := by
  unfold Link.start; (repeat' split) <;> rfl

/-- A transmitter that sends does not start, and one that has started sends or has nothing to send (R175). -/
theorem start_start (l : Link) : l.start.start = l.start := by
  unfold Link.start
  cases hs : l.sending <;> cases hr : l.responses <;> cases hn : l.notices <;> simp [hs, hr, hn]

/-! ### The fields that `noticeOn` leaves -/

@[simp] theorem noticeOn_pending (take : Link → Notice → Link) (n : NoticeBody) (p : Port) (s : State) : (s.noticeOn take n p).pending = s.pending := by
  rw [noticeOn_frame]
@[simp] theorem noticeOn_power (take : Link → Notice → Link) (n : NoticeBody) (p : Port) (s : State) : (s.noticeOn take n p).power = s.power := by
  rw [noticeOn_frame]
@[simp] theorem noticeOn_inputs (take : Link → Notice → Link) (n : NoticeBody) (p : Port) (s : State) : (s.noticeOn take n p).inputs = s.inputs := by
  rw [noticeOn_frame]
@[simp] theorem noticeOn_vault (take : Link → Notice → Link) (n : NoticeBody) (p : Port) (s : State) : (s.noticeOn take n p).vault = s.vault := by
  rw [noticeOn_frame]
@[simp] theorem noticeOn_climate (take : Link → Notice → Link) (n : NoticeBody) (p : Port) (s : State) : (s.noticeOn take n p).climate = s.climate := by
  rw [noticeOn_frame]
@[simp] theorem noticeOn_accumulators (take : Link → Notice → Link) (n : NoticeBody) (p : Port) (s : State) : (s.noticeOn take n p).accumulators = s.accumulators := by
  rw [noticeOn_frame]
@[simp] theorem noticeOn_custody (take : Link → Notice → Link) (n : NoticeBody) (p : Port) (s : State) : (s.noticeOn take n p).custody = s.custody := by
  rw [noticeOn_frame]
@[simp] theorem noticeOn_staging (take : Link → Notice → Link) (n : NoticeBody) (p : Port) (s : State) : (s.noticeOn take n p).staging = s.staging := by
  rw [noticeOn_frame]
@[simp] theorem noticeOn_consign (take : Link → Notice → Link) (n : NoticeBody) (p : Port) (s : State) : (s.noticeOn take n p).consign = s.consign := by
  rw [noticeOn_frame]
@[simp] theorem noticeOn_hatch (take : Link → Notice → Link) (n : NoticeBody) (p : Port) (s : State) : (s.noticeOn take n p).hatch = s.hatch := by
  rw [noticeOn_frame]
@[simp] theorem noticeOn_fire (take : Link → Notice → Link) (n : NoticeBody) (p : Port) (s : State) : (s.noticeOn take n p).fire = s.fire := by
  rw [noticeOn_frame]
@[simp] theorem noticeOn_store (take : Link → Notice → Link) (n : NoticeBody) (p : Port) (s : State) : (s.noticeOn take n p).store = s.store := by
  rw [noticeOn_frame]

/-! ### The fields that `postNotice` leaves -/

@[simp] theorem postNotice_pending (n : NoticeBody) (s : State) : (s.postNotice n).pending = s.pending := by
  rw [postNotice_frame]
@[simp] theorem postNotice_power (n : NoticeBody) (s : State) : (s.postNotice n).power = s.power := by
  rw [postNotice_frame]
@[simp] theorem postNotice_inputs (n : NoticeBody) (s : State) : (s.postNotice n).inputs = s.inputs := by
  rw [postNotice_frame]
@[simp] theorem postNotice_vault (n : NoticeBody) (s : State) : (s.postNotice n).vault = s.vault := by
  rw [postNotice_frame]
@[simp] theorem postNotice_climate (n : NoticeBody) (s : State) : (s.postNotice n).climate = s.climate := by
  rw [postNotice_frame]
@[simp] theorem postNotice_accumulators (n : NoticeBody) (s : State) : (s.postNotice n).accumulators = s.accumulators := by
  rw [postNotice_frame]
@[simp] theorem postNotice_custody (n : NoticeBody) (s : State) : (s.postNotice n).custody = s.custody := by
  rw [postNotice_frame]
@[simp] theorem postNotice_staging (n : NoticeBody) (s : State) : (s.postNotice n).staging = s.staging := by
  rw [postNotice_frame]
@[simp] theorem postNotice_consign (n : NoticeBody) (s : State) : (s.postNotice n).consign = s.consign := by
  rw [postNotice_frame]
@[simp] theorem postNotice_hatch (n : NoticeBody) (s : State) : (s.postNotice n).hatch = s.hatch := by
  rw [postNotice_frame]
@[simp] theorem postNotice_fire (n : NoticeBody) (s : State) : (s.postNotice n).fire = s.fire := by
  rw [postNotice_frame]
@[simp] theorem postNotice_store (n : NoticeBody) (s : State) : (s.postNotice n).store = s.store := by
  rw [postNotice_frame]

/-! ### The fields that `startTransmitters` leaves -/

@[simp] theorem startTransmitters_pending (s : State) : s.startTransmitters.pending = s.pending := by rw [startTransmitters_frame]
@[simp] theorem startTransmitters_power (s : State) : s.startTransmitters.power = s.power := by rw [startTransmitters_frame]
@[simp] theorem startTransmitters_inputs (s : State) : s.startTransmitters.inputs = s.inputs := by rw [startTransmitters_frame]
@[simp] theorem startTransmitters_vault (s : State) : s.startTransmitters.vault = s.vault := by rw [startTransmitters_frame]
@[simp] theorem startTransmitters_climate (s : State) : s.startTransmitters.climate = s.climate := by rw [startTransmitters_frame]
@[simp] theorem startTransmitters_accumulators (s : State) : s.startTransmitters.accumulators = s.accumulators := by rw [startTransmitters_frame]
@[simp] theorem startTransmitters_custody (s : State) : s.startTransmitters.custody = s.custody := by rw [startTransmitters_frame]
@[simp] theorem startTransmitters_staging (s : State) : s.startTransmitters.staging = s.staging := by rw [startTransmitters_frame]
@[simp] theorem startTransmitters_consign (s : State) : s.startTransmitters.consign = s.consign := by rw [startTransmitters_frame]
@[simp] theorem startTransmitters_hatch (s : State) : s.startTransmitters.hatch = s.hatch := by rw [startTransmitters_frame]
@[simp] theorem startTransmitters_fire (s : State) : s.startTransmitters.fire = s.fire := by rw [startTransmitters_frame]
@[simp] theorem startTransmitters_store (s : State) : s.startTransmitters.store = s.store := by rw [startTransmitters_frame]

/-! ### The fields that `postResponse` leaves -/

@[simp] theorem postResponse_pending (p : Port) (r : Response) (s : State) : (s.postResponse p r).pending = s.pending := by
  rw [postResponse_frame]
@[simp] theorem postResponse_power (p : Port) (r : Response) (s : State) : (s.postResponse p r).power = s.power := by
  rw [postResponse_frame]
@[simp] theorem postResponse_inputs (p : Port) (r : Response) (s : State) : (s.postResponse p r).inputs = s.inputs := by
  rw [postResponse_frame]
@[simp] theorem postResponse_vault (p : Port) (r : Response) (s : State) : (s.postResponse p r).vault = s.vault := by
  rw [postResponse_frame]
@[simp] theorem postResponse_climate (p : Port) (r : Response) (s : State) : (s.postResponse p r).climate = s.climate := by
  rw [postResponse_frame]
@[simp] theorem postResponse_accumulators (p : Port) (r : Response) (s : State) : (s.postResponse p r).accumulators = s.accumulators := by
  rw [postResponse_frame]
@[simp] theorem postResponse_custody (p : Port) (r : Response) (s : State) : (s.postResponse p r).custody = s.custody := by
  rw [postResponse_frame]
@[simp] theorem postResponse_staging (p : Port) (r : Response) (s : State) : (s.postResponse p r).staging = s.staging := by
  rw [postResponse_frame]
@[simp] theorem postResponse_consign (p : Port) (r : Response) (s : State) : (s.postResponse p r).consign = s.consign := by
  rw [postResponse_frame]
@[simp] theorem postResponse_hatch (p : Port) (r : Response) (s : State) : (s.postResponse p r).hatch = s.hatch := by
  rw [postResponse_frame]
@[simp] theorem postResponse_fire (p : Port) (r : Response) (s : State) : (s.postResponse p r).fire = s.fire := by
  rw [postResponse_frame]
@[simp] theorem postResponse_store (p : Port) (r : Response) (s : State) : (s.postResponse p r).store = s.store := by
  rw [postResponse_frame]

/-! ### The fields that `deliver` leaves -/

@[simp] theorem deliver_pending (s : State) (x : Out) : (s.deliver x).pending = s.pending := by
  rw [deliver_frame]
@[simp] theorem deliver_power (s : State) (x : Out) : (s.deliver x).power = s.power := by
  rw [deliver_frame]
@[simp] theorem deliver_inputs (s : State) (x : Out) : (s.deliver x).inputs = s.inputs := by
  rw [deliver_frame]
@[simp] theorem deliver_vault (s : State) (x : Out) : (s.deliver x).vault = s.vault := by
  rw [deliver_frame]
@[simp] theorem deliver_climate (s : State) (x : Out) : (s.deliver x).climate = s.climate := by
  rw [deliver_frame]
@[simp] theorem deliver_accumulators (s : State) (x : Out) : (s.deliver x).accumulators = s.accumulators := by
  rw [deliver_frame]
@[simp] theorem deliver_custody (s : State) (x : Out) : (s.deliver x).custody = s.custody := by
  rw [deliver_frame]
@[simp] theorem deliver_staging (s : State) (x : Out) : (s.deliver x).staging = s.staging := by
  rw [deliver_frame]
@[simp] theorem deliver_consign (s : State) (x : Out) : (s.deliver x).consign = s.consign := by
  rw [deliver_frame]
@[simp] theorem deliver_hatch (s : State) (x : Out) : (s.deliver x).hatch = s.hatch := by
  rw [deliver_frame]
@[simp] theorem deliver_fire (s : State) (x : Out) : (s.deliver x).fire = s.fire := by
  rw [deliver_frame]
@[simp] theorem deliver_store (s : State) (x : Out) : (s.deliver x).store = s.store := by
  rw [deliver_frame]

/-! ### The fields that `delivers` leaves -/

@[simp] theorem delivers_pending (xs : List Out) (s : State) : (xs.foldl State.deliver s).pending = s.pending := by
  rw [delivers_frame]
@[simp] theorem delivers_power (xs : List Out) (s : State) : (xs.foldl State.deliver s).power = s.power := by
  rw [delivers_frame]
@[simp] theorem delivers_inputs (xs : List Out) (s : State) : (xs.foldl State.deliver s).inputs = s.inputs := by
  rw [delivers_frame]
@[simp] theorem delivers_vault (xs : List Out) (s : State) : (xs.foldl State.deliver s).vault = s.vault := by
  rw [delivers_frame]
@[simp] theorem delivers_climate (xs : List Out) (s : State) : (xs.foldl State.deliver s).climate = s.climate := by
  rw [delivers_frame]
@[simp] theorem delivers_accumulators (xs : List Out) (s : State) : (xs.foldl State.deliver s).accumulators = s.accumulators := by
  rw [delivers_frame]
@[simp] theorem delivers_custody (xs : List Out) (s : State) : (xs.foldl State.deliver s).custody = s.custody := by
  rw [delivers_frame]
@[simp] theorem delivers_staging (xs : List Out) (s : State) : (xs.foldl State.deliver s).staging = s.staging := by
  rw [delivers_frame]
@[simp] theorem delivers_consign (xs : List Out) (s : State) : (xs.foldl State.deliver s).consign = s.consign := by
  rw [delivers_frame]
@[simp] theorem delivers_hatch (xs : List Out) (s : State) : (xs.foldl State.deliver s).hatch = s.hatch := by
  rw [delivers_frame]
@[simp] theorem delivers_fire (xs : List Out) (s : State) : (xs.foldl State.deliver s).fire = s.fire := by
  rw [delivers_frame]
@[simp] theorem delivers_store (xs : List Out) (s : State) : (xs.foldl State.deliver s).store = s.store := by
  rw [delivers_frame]

/-! ### The fields that `refuse` leaves -/

@[simp] theorem refuse_pending (h : ReqHead) (k : RequestKind) (c : ResultCode) (s : State) : (s.refuse h k c).pending = s.pending := by
  rw [refuse_frame]
@[simp] theorem refuse_power (h : ReqHead) (k : RequestKind) (c : ResultCode) (s : State) : (s.refuse h k c).power = s.power := by
  rw [refuse_frame]
@[simp] theorem refuse_inputs (h : ReqHead) (k : RequestKind) (c : ResultCode) (s : State) : (s.refuse h k c).inputs = s.inputs := by
  rw [refuse_frame]
@[simp] theorem refuse_vault (h : ReqHead) (k : RequestKind) (c : ResultCode) (s : State) : (s.refuse h k c).vault = s.vault := by
  rw [refuse_frame]
@[simp] theorem refuse_climate (h : ReqHead) (k : RequestKind) (c : ResultCode) (s : State) : (s.refuse h k c).climate = s.climate := by
  rw [refuse_frame]
@[simp] theorem refuse_accumulators (h : ReqHead) (k : RequestKind) (c : ResultCode) (s : State) : (s.refuse h k c).accumulators = s.accumulators := by
  rw [refuse_frame]
@[simp] theorem refuse_custody (h : ReqHead) (k : RequestKind) (c : ResultCode) (s : State) : (s.refuse h k c).custody = s.custody := by
  rw [refuse_frame]
@[simp] theorem refuse_staging (h : ReqHead) (k : RequestKind) (c : ResultCode) (s : State) : (s.refuse h k c).staging = s.staging := by
  rw [refuse_frame]
@[simp] theorem refuse_consign (h : ReqHead) (k : RequestKind) (c : ResultCode) (s : State) : (s.refuse h k c).consign = s.consign := by
  rw [refuse_frame]
@[simp] theorem refuse_hatch (h : ReqHead) (k : RequestKind) (c : ResultCode) (s : State) : (s.refuse h k c).hatch = s.hatch := by
  rw [refuse_frame]
@[simp] theorem refuse_fire (h : ReqHead) (k : RequestKind) (c : ResultCode) (s : State) : (s.refuse h k c).fire = s.fire := by
  rw [refuse_frame]
@[simp] theorem refuse_store (h : ReqHead) (k : RequestKind) (c : ResultCode) (s : State) : (s.refuse h k c).store = s.store := by
  rw [refuse_frame]

/-! ### The fields that `emit` leaves -/

@[simp] theorem emit_pending (needs : List Nat) (xs : List Out) (s : State) : (s.emit needs xs).pending = s.pending := by
  rw [emit_frame]
@[simp] theorem emit_power (needs : List Nat) (xs : List Out) (s : State) : (s.emit needs xs).power = s.power := by
  rw [emit_frame]
@[simp] theorem emit_inputs (needs : List Nat) (xs : List Out) (s : State) : (s.emit needs xs).inputs = s.inputs := by
  rw [emit_frame]
@[simp] theorem emit_vault (needs : List Nat) (xs : List Out) (s : State) : (s.emit needs xs).vault = s.vault := by
  rw [emit_frame]
@[simp] theorem emit_climate (needs : List Nat) (xs : List Out) (s : State) : (s.emit needs xs).climate = s.climate := by
  rw [emit_frame]
@[simp] theorem emit_accumulators (needs : List Nat) (xs : List Out) (s : State) : (s.emit needs xs).accumulators = s.accumulators := by
  rw [emit_frame]
@[simp] theorem emit_custody (needs : List Nat) (xs : List Out) (s : State) : (s.emit needs xs).custody = s.custody := by
  rw [emit_frame]
@[simp] theorem emit_staging (needs : List Nat) (xs : List Out) (s : State) : (s.emit needs xs).staging = s.staging := by
  rw [emit_frame]
@[simp] theorem emit_consign (needs : List Nat) (xs : List Out) (s : State) : (s.emit needs xs).consign = s.consign := by
  rw [emit_frame]
@[simp] theorem emit_hatch (needs : List Nat) (xs : List Out) (s : State) : (s.emit needs xs).hatch = s.hatch := by
  rw [emit_frame]
@[simp] theorem emit_fire (needs : List Nat) (xs : List Out) (s : State) : (s.emit needs xs).fire = s.fire := by
  rw [emit_frame]
@[simp] theorem emit_store_cells (needs : List Nat) (xs : List Out) (s : State) :
    (s.emit needs xs).store.cells = s.store.cells := by
  rw [emit_frame]
@[simp] theorem emit_store_base (needs : List Nat) (xs : List Out) (s : State) :
    (s.emit needs xs).store.base = s.store.base := by
  rw [emit_frame]
@[simp] theorem emit_store_inflight (needs : List Nat) (xs : List Out) (s : State) :
    (s.emit needs xs).store.inflight = s.store.inflight := by
  rw [emit_frame]
@[simp] theorem emit_store_queue (needs : List Nat) (xs : List Out) (s : State) :
    (s.emit needs xs).store.queue = s.store.queue := by
  rw [emit_frame]
@[simp] theorem emit_store_nextTicket (needs : List Nat) (xs : List Out) (s : State) :
    (s.emit needs xs).store.nextTicket = s.store.nextTicket := by
  rw [emit_frame]
@[simp] theorem emit_store_pulses (needs : List Nat) (xs : List Out) (s : State) :
    (s.emit needs xs).store.pulses = s.store.pulses := by
  rw [emit_frame]
@[simp] theorem emit_store_followups (needs : List Nat) (xs : List Out) (s : State) :
    (s.emit needs xs).store.followups = s.store.followups := by
  rw [emit_frame]
@[simp] theorem emit_store_reported (needs : List Nat) (xs : List Out) (s : State) :
    (s.emit needs xs).store.reported = s.store.reported := by
  rw [emit_frame]
@[simp] theorem emit_store_recorded (needs : List Nat) (xs : List Out) (s : State) :
    (s.emit needs xs).store.recorded = s.store.recorded := by
  rw [emit_frame]
@[simp] theorem emit_store_flags (needs : List Nat) (xs : List Out) (s : State) :
    (s.emit needs xs).store.flags = s.store.flags := by
  rw [emit_frame]
@[simp] theorem emit_store_format (needs : List Nat) (xs : List Out) (s : State) :
    (s.emit needs xs).store.format = s.store.format := by
  rw [emit_frame]
@[simp] theorem emit_store_restart (needs : List Nat) (xs : List Out) (s : State) :
    (s.emit needs xs).store.restart = s.store.restart := by
  rw [emit_frame]

/-! ### The fields that `notify` leaves -/

@[simp] theorem notify_pending (needs : List Nat) (n : NoticeBody) (s : State) : (s.notify needs n).pending = s.pending := by
  rw [notify_frame]
@[simp] theorem notify_power (needs : List Nat) (n : NoticeBody) (s : State) : (s.notify needs n).power = s.power := by
  rw [notify_frame]
@[simp] theorem notify_inputs (needs : List Nat) (n : NoticeBody) (s : State) : (s.notify needs n).inputs = s.inputs := by
  rw [notify_frame]
@[simp] theorem notify_vault (needs : List Nat) (n : NoticeBody) (s : State) : (s.notify needs n).vault = s.vault := by
  rw [notify_frame]
@[simp] theorem notify_climate (needs : List Nat) (n : NoticeBody) (s : State) : (s.notify needs n).climate = s.climate := by
  rw [notify_frame]
@[simp] theorem notify_accumulators (needs : List Nat) (n : NoticeBody) (s : State) : (s.notify needs n).accumulators = s.accumulators := by
  rw [notify_frame]
@[simp] theorem notify_custody (needs : List Nat) (n : NoticeBody) (s : State) : (s.notify needs n).custody = s.custody := by
  rw [notify_frame]
@[simp] theorem notify_staging (needs : List Nat) (n : NoticeBody) (s : State) : (s.notify needs n).staging = s.staging := by
  rw [notify_frame]
@[simp] theorem notify_consign (needs : List Nat) (n : NoticeBody) (s : State) : (s.notify needs n).consign = s.consign := by
  rw [notify_frame]
@[simp] theorem notify_hatch (needs : List Nat) (n : NoticeBody) (s : State) : (s.notify needs n).hatch = s.hatch := by
  rw [notify_frame]
@[simp] theorem notify_fire (needs : List Nat) (n : NoticeBody) (s : State) : (s.notify needs n).fire = s.fire := by
  rw [notify_frame]
@[simp] theorem notify_store_cells (needs : List Nat) (n : NoticeBody) (s : State) :
    (s.notify needs n).store.cells = s.store.cells := by
  rw [notify_frame]
@[simp] theorem notify_store_base (needs : List Nat) (n : NoticeBody) (s : State) :
    (s.notify needs n).store.base = s.store.base := by
  rw [notify_frame]
@[simp] theorem notify_store_inflight (needs : List Nat) (n : NoticeBody) (s : State) :
    (s.notify needs n).store.inflight = s.store.inflight := by
  rw [notify_frame]
@[simp] theorem notify_store_queue (needs : List Nat) (n : NoticeBody) (s : State) :
    (s.notify needs n).store.queue = s.store.queue := by
  rw [notify_frame]
@[simp] theorem notify_store_nextTicket (needs : List Nat) (n : NoticeBody) (s : State) :
    (s.notify needs n).store.nextTicket = s.store.nextTicket := by
  rw [notify_frame]
@[simp] theorem notify_store_pulses (needs : List Nat) (n : NoticeBody) (s : State) :
    (s.notify needs n).store.pulses = s.store.pulses := by
  rw [notify_frame]
@[simp] theorem notify_store_followups (needs : List Nat) (n : NoticeBody) (s : State) :
    (s.notify needs n).store.followups = s.store.followups := by
  rw [notify_frame]
@[simp] theorem notify_store_reported (needs : List Nat) (n : NoticeBody) (s : State) :
    (s.notify needs n).store.reported = s.store.reported := by
  rw [notify_frame]
@[simp] theorem notify_store_recorded (needs : List Nat) (n : NoticeBody) (s : State) :
    (s.notify needs n).store.recorded = s.store.recorded := by
  rw [notify_frame]
@[simp] theorem notify_store_flags (needs : List Nat) (n : NoticeBody) (s : State) :
    (s.notify needs n).store.flags = s.store.flags := by
  rw [notify_frame]
@[simp] theorem notify_store_format (needs : List Nat) (n : NoticeBody) (s : State) :
    (s.notify needs n).store.format = s.store.format := by
  rw [notify_frame]
@[simp] theorem notify_store_restart (needs : List Nat) (n : NoticeBody) (s : State) :
    (s.notify needs n).store.restart = s.store.restart := by
  rw [notify_frame]

/-! ### The fields that `answer` leaves -/

@[simp] theorem answer_pending (h : ReqHead) (k : RequestKind) (needs : List Nat) (c : ResultCode) (d : ResponseData) (s : State) : (s.answer h k needs c d).pending = s.pending := by
  rw [answer_frame]
@[simp] theorem answer_power (h : ReqHead) (k : RequestKind) (needs : List Nat) (c : ResultCode) (d : ResponseData) (s : State) : (s.answer h k needs c d).power = s.power := by
  rw [answer_frame]
@[simp] theorem answer_inputs (h : ReqHead) (k : RequestKind) (needs : List Nat) (c : ResultCode) (d : ResponseData) (s : State) : (s.answer h k needs c d).inputs = s.inputs := by
  rw [answer_frame]
@[simp] theorem answer_vault (h : ReqHead) (k : RequestKind) (needs : List Nat) (c : ResultCode) (d : ResponseData) (s : State) : (s.answer h k needs c d).vault = s.vault := by
  rw [answer_frame]
@[simp] theorem answer_climate (h : ReqHead) (k : RequestKind) (needs : List Nat) (c : ResultCode) (d : ResponseData) (s : State) : (s.answer h k needs c d).climate = s.climate := by
  rw [answer_frame]
@[simp] theorem answer_accumulators (h : ReqHead) (k : RequestKind) (needs : List Nat) (c : ResultCode) (d : ResponseData) (s : State) : (s.answer h k needs c d).accumulators = s.accumulators := by
  rw [answer_frame]
@[simp] theorem answer_custody (h : ReqHead) (k : RequestKind) (needs : List Nat) (c : ResultCode) (d : ResponseData) (s : State) : (s.answer h k needs c d).custody = s.custody := by
  rw [answer_frame]
@[simp] theorem answer_staging (h : ReqHead) (k : RequestKind) (needs : List Nat) (c : ResultCode) (d : ResponseData) (s : State) : (s.answer h k needs c d).staging = s.staging := by
  rw [answer_frame]
@[simp] theorem answer_consign (h : ReqHead) (k : RequestKind) (needs : List Nat) (c : ResultCode) (d : ResponseData) (s : State) : (s.answer h k needs c d).consign = s.consign := by
  rw [answer_frame]
@[simp] theorem answer_hatch (h : ReqHead) (k : RequestKind) (needs : List Nat) (c : ResultCode) (d : ResponseData) (s : State) : (s.answer h k needs c d).hatch = s.hatch := by
  rw [answer_frame]
@[simp] theorem answer_fire (h : ReqHead) (k : RequestKind) (needs : List Nat) (c : ResultCode) (d : ResponseData) (s : State) : (s.answer h k needs c d).fire = s.fire := by
  rw [answer_frame]
@[simp] theorem answer_store_cells (h : ReqHead) (k : RequestKind) (needs : List Nat) (c : ResultCode) (d : ResponseData) (s : State) :
    (s.answer h k needs c d).store.cells = s.store.cells := by
  rw [answer_frame]
@[simp] theorem answer_store_base (h : ReqHead) (k : RequestKind) (needs : List Nat) (c : ResultCode) (d : ResponseData) (s : State) :
    (s.answer h k needs c d).store.base = s.store.base := by
  rw [answer_frame]
@[simp] theorem answer_store_inflight (h : ReqHead) (k : RequestKind) (needs : List Nat) (c : ResultCode) (d : ResponseData) (s : State) :
    (s.answer h k needs c d).store.inflight = s.store.inflight := by
  rw [answer_frame]
@[simp] theorem answer_store_queue (h : ReqHead) (k : RequestKind) (needs : List Nat) (c : ResultCode) (d : ResponseData) (s : State) :
    (s.answer h k needs c d).store.queue = s.store.queue := by
  rw [answer_frame]
@[simp] theorem answer_store_nextTicket (h : ReqHead) (k : RequestKind) (needs : List Nat) (c : ResultCode) (d : ResponseData) (s : State) :
    (s.answer h k needs c d).store.nextTicket = s.store.nextTicket := by
  rw [answer_frame]
@[simp] theorem answer_store_pulses (h : ReqHead) (k : RequestKind) (needs : List Nat) (c : ResultCode) (d : ResponseData) (s : State) :
    (s.answer h k needs c d).store.pulses = s.store.pulses := by
  rw [answer_frame]
@[simp] theorem answer_store_followups (h : ReqHead) (k : RequestKind) (needs : List Nat) (c : ResultCode) (d : ResponseData) (s : State) :
    (s.answer h k needs c d).store.followups = s.store.followups := by
  rw [answer_frame]
@[simp] theorem answer_store_reported (h : ReqHead) (k : RequestKind) (needs : List Nat) (c : ResultCode) (d : ResponseData) (s : State) :
    (s.answer h k needs c d).store.reported = s.store.reported := by
  rw [answer_frame]
@[simp] theorem answer_store_recorded (h : ReqHead) (k : RequestKind) (needs : List Nat) (c : ResultCode) (d : ResponseData) (s : State) :
    (s.answer h k needs c d).store.recorded = s.store.recorded := by
  rw [answer_frame]
@[simp] theorem answer_store_flags (h : ReqHead) (k : RequestKind) (needs : List Nat) (c : ResultCode) (d : ResponseData) (s : State) :
    (s.answer h k needs c d).store.flags = s.store.flags := by
  rw [answer_frame]
@[simp] theorem answer_store_format (h : ReqHead) (k : RequestKind) (needs : List Nat) (c : ResultCode) (d : ResponseData) (s : State) :
    (s.answer h k needs c d).store.format = s.store.format := by
  rw [answer_frame]
@[simp] theorem answer_store_restart (h : ReqHead) (k : RequestKind) (needs : List Nat) (c : ResultCode) (d : ResponseData) (s : State) :
    (s.answer h k needs c d).store.restart = s.store.restart := by
  rw [answer_frame]

/-! ### The fields that `persist` leaves -/

@[simp] theorem persist_pending (r : StoreRecord) (s : State) : (s.persist r).pending = s.pending := by
  rw [persist_frame]
@[simp] theorem persist_power (r : StoreRecord) (s : State) : (s.persist r).power = s.power := by
  rw [persist_frame]
@[simp] theorem persist_inputs (r : StoreRecord) (s : State) : (s.persist r).inputs = s.inputs := by
  rw [persist_frame]
@[simp] theorem persist_links (r : StoreRecord) (s : State) : (s.persist r).links = s.links := by
  rw [persist_frame]
@[simp] theorem persist_vault (r : StoreRecord) (s : State) : (s.persist r).vault = s.vault := by
  rw [persist_frame]
@[simp] theorem persist_climate (r : StoreRecord) (s : State) : (s.persist r).climate = s.climate := by
  rw [persist_frame]
@[simp] theorem persist_accumulators (r : StoreRecord) (s : State) : (s.persist r).accumulators = s.accumulators := by
  rw [persist_frame]
@[simp] theorem persist_custody (r : StoreRecord) (s : State) : (s.persist r).custody = s.custody := by
  rw [persist_frame]
@[simp] theorem persist_staging (r : StoreRecord) (s : State) : (s.persist r).staging = s.staging := by
  rw [persist_frame]
@[simp] theorem persist_consign (r : StoreRecord) (s : State) : (s.persist r).consign = s.consign := by
  rw [persist_frame]
@[simp] theorem persist_hatch (r : StoreRecord) (s : State) : (s.persist r).hatch = s.hatch := by
  rw [persist_frame]
@[simp] theorem persist_fire (r : StoreRecord) (s : State) : (s.persist r).fire = s.fire := by
  rw [persist_frame]
@[simp] theorem persist_store_cells (r : StoreRecord) (s : State) :
    (s.persist r).store.cells = s.store.cells := by
  rw [persist_frame]
@[simp] theorem persist_store_base (r : StoreRecord) (s : State) :
    (s.persist r).store.base = s.store.base := by
  rw [persist_frame]
@[simp] theorem persist_store_waiting (r : StoreRecord) (s : State) :
    (s.persist r).store.waiting = s.store.waiting := by
  rw [persist_frame]
@[simp] theorem persist_store_pulses (r : StoreRecord) (s : State) :
    (s.persist r).store.pulses = s.store.pulses := by
  rw [persist_frame]
@[simp] theorem persist_store_followups (r : StoreRecord) (s : State) :
    (s.persist r).store.followups = s.store.followups := by
  rw [persist_frame]
@[simp] theorem persist_store_reported (r : StoreRecord) (s : State) :
    (s.persist r).store.reported = s.store.reported := by
  rw [persist_frame]
@[simp] theorem persist_store_recorded (r : StoreRecord) (s : State) :
    (s.persist r).store.recorded = s.store.recorded := by
  rw [persist_frame]
@[simp] theorem persist_store_flags (r : StoreRecord) (s : State) :
    (s.persist r).store.flags = s.store.flags := by
  rw [persist_frame]
@[simp] theorem persist_store_format (r : StoreRecord) (s : State) :
    (s.persist r).store.format = s.store.format := by
  rw [persist_frame]
@[simp] theorem persist_store_restart (r : StoreRecord) (s : State) :
    (s.persist r).store.restart = s.store.restart := by
  rw [persist_frame]

/-! ### The fields that `persistLast` leaves -/

@[simp] theorem persistLast_pending (r : StoreRecord) (s : State) : (s.persistLast r).pending = s.pending := by
  rw [persistLast_frame]
@[simp] theorem persistLast_power (r : StoreRecord) (s : State) : (s.persistLast r).power = s.power := by
  rw [persistLast_frame]
@[simp] theorem persistLast_inputs (r : StoreRecord) (s : State) : (s.persistLast r).inputs = s.inputs := by
  rw [persistLast_frame]
@[simp] theorem persistLast_links (r : StoreRecord) (s : State) : (s.persistLast r).links = s.links := by
  rw [persistLast_frame]
@[simp] theorem persistLast_vault (r : StoreRecord) (s : State) : (s.persistLast r).vault = s.vault := by
  rw [persistLast_frame]
@[simp] theorem persistLast_climate (r : StoreRecord) (s : State) : (s.persistLast r).climate = s.climate := by
  rw [persistLast_frame]
@[simp] theorem persistLast_accumulators (r : StoreRecord) (s : State) : (s.persistLast r).accumulators = s.accumulators := by
  rw [persistLast_frame]
@[simp] theorem persistLast_custody (r : StoreRecord) (s : State) : (s.persistLast r).custody = s.custody := by
  rw [persistLast_frame]
@[simp] theorem persistLast_staging (r : StoreRecord) (s : State) : (s.persistLast r).staging = s.staging := by
  rw [persistLast_frame]
@[simp] theorem persistLast_consign (r : StoreRecord) (s : State) : (s.persistLast r).consign = s.consign := by
  rw [persistLast_frame]
@[simp] theorem persistLast_hatch (r : StoreRecord) (s : State) : (s.persistLast r).hatch = s.hatch := by
  rw [persistLast_frame]
@[simp] theorem persistLast_fire (r : StoreRecord) (s : State) : (s.persistLast r).fire = s.fire := by
  rw [persistLast_frame]
@[simp] theorem persistLast_store_cells (r : StoreRecord) (s : State) :
    (s.persistLast r).store.cells = s.store.cells := by
  rw [persistLast_frame]
@[simp] theorem persistLast_store_base (r : StoreRecord) (s : State) :
    (s.persistLast r).store.base = s.store.base := by
  rw [persistLast_frame]
@[simp] theorem persistLast_store_waiting (r : StoreRecord) (s : State) :
    (s.persistLast r).store.waiting = s.store.waiting := by
  rw [persistLast_frame]
@[simp] theorem persistLast_store_pulses (r : StoreRecord) (s : State) :
    (s.persistLast r).store.pulses = s.store.pulses := by
  rw [persistLast_frame]
@[simp] theorem persistLast_store_followups (r : StoreRecord) (s : State) :
    (s.persistLast r).store.followups = s.store.followups := by
  rw [persistLast_frame]
@[simp] theorem persistLast_store_reported (r : StoreRecord) (s : State) :
    (s.persistLast r).store.reported = s.store.reported := by
  rw [persistLast_frame]
@[simp] theorem persistLast_store_recorded (r : StoreRecord) (s : State) :
    (s.persistLast r).store.recorded = s.store.recorded := by
  rw [persistLast_frame]
@[simp] theorem persistLast_store_flags (r : StoreRecord) (s : State) :
    (s.persistLast r).store.flags = s.store.flags := by
  rw [persistLast_frame]
@[simp] theorem persistLast_store_format (r : StoreRecord) (s : State) :
    (s.persistLast r).store.format = s.store.format := by
  rw [persistLast_frame]
@[simp] theorem persistLast_store_restart (r : StoreRecord) (s : State) :
    (s.persistLast r).store.restart = s.store.restart := by
  rw [persistLast_frame]

end Sys2Proof.Machine
end

