-- ==== Sys2Proof/Laws/Blocks.lean ====
section
/-! SUPPORT. What the blocks' own shared operations leave as it was, field by field: the tables' writes, the queue's
flow marks, dispatch, the consignment test, arbitration and the end of a possession, and a change of fire state. -/

namespace Sys2Proof.Machine

set_option linter.unnecessarySeqFocus false

/-! ### `putRecord` -/

@[simp] theorem putRecord_pending (p : Nat) (r : CustodyRecord) (s : State) :
    (s.putRecord p r).pending = s.pending := by simp [State.putRecord]
@[simp] theorem putRecord_power (p : Nat) (r : CustodyRecord) (s : State) :
    (s.putRecord p r).power = s.power := by simp [State.putRecord]
@[simp] theorem putRecord_inputs (p : Nat) (r : CustodyRecord) (s : State) :
    (s.putRecord p r).inputs = s.inputs := by simp [State.putRecord]
@[simp] theorem putRecord_links (p : Nat) (r : CustodyRecord) (s : State) :
    (s.putRecord p r).links = s.links := by simp [State.putRecord]
@[simp] theorem putRecord_vault (p : Nat) (r : CustodyRecord) (s : State) :
    (s.putRecord p r).vault = s.vault := by simp [State.putRecord]
@[simp] theorem putRecord_climate (p : Nat) (r : CustodyRecord) (s : State) :
    (s.putRecord p r).climate = s.climate := by simp [State.putRecord]
@[simp] theorem putRecord_accumulators (p : Nat) (r : CustodyRecord) (s : State) :
    (s.putRecord p r).accumulators = s.accumulators := by simp [State.putRecord]
@[simp] theorem putRecord_staging (p : Nat) (r : CustodyRecord) (s : State) :
    (s.putRecord p r).staging = s.staging := by simp [State.putRecord]
@[simp] theorem putRecord_consign (p : Nat) (r : CustodyRecord) (s : State) :
    (s.putRecord p r).consign = s.consign := by simp [State.putRecord]
@[simp] theorem putRecord_hatch (p : Nat) (r : CustodyRecord) (s : State) :
    (s.putRecord p r).hatch = s.hatch := by simp [State.putRecord]
@[simp] theorem putRecord_fire (p : Nat) (r : CustodyRecord) (s : State) :
    (s.putRecord p r).fire = s.fire := by simp [State.putRecord]
@[simp] theorem putRecord_store_cells (p : Nat) (r : CustodyRecord) (s : State) :
    (s.putRecord p r).store.cells = s.store.cells := by simp [State.putRecord]
@[simp] theorem putRecord_store_base (p : Nat) (r : CustodyRecord) (s : State) :
    (s.putRecord p r).store.base = s.store.base := by simp [State.putRecord]
@[simp] theorem putRecord_store_waiting (p : Nat) (r : CustodyRecord) (s : State) :
    (s.putRecord p r).store.waiting = s.store.waiting := by simp [State.putRecord]
@[simp] theorem putRecord_store_pulses (p : Nat) (r : CustodyRecord) (s : State) :
    (s.putRecord p r).store.pulses = s.store.pulses := by simp [State.putRecord]
@[simp] theorem putRecord_store_followups (p : Nat) (r : CustodyRecord) (s : State) :
    (s.putRecord p r).store.followups = s.store.followups := by simp [State.putRecord]
@[simp] theorem putRecord_store_reported (p : Nat) (r : CustodyRecord) (s : State) :
    (s.putRecord p r).store.reported = s.store.reported := by simp [State.putRecord]
@[simp] theorem putRecord_store_recorded (p : Nat) (r : CustodyRecord) (s : State) :
    (s.putRecord p r).store.recorded = s.store.recorded := by simp [State.putRecord]
@[simp] theorem putRecord_store_flags (p : Nat) (r : CustodyRecord) (s : State) :
    (s.putRecord p r).store.flags = s.store.flags := by simp [State.putRecord]
@[simp] theorem putRecord_store_format (p : Nat) (r : CustodyRecord) (s : State) :
    (s.putRecord p r).store.format = s.store.format := by simp [State.putRecord]
@[simp] theorem putRecord_store_restart (p : Nat) (r : CustodyRecord) (s : State) :
    (s.putRecord p r).store.restart = s.store.restart := by simp [State.putRecord]
@[simp] theorem putRecord_custody (p : Nat) (r : CustodyRecord) (s : State) :
    (s.putRecord p r).custody = placeRecord p r s.custody := by simp [State.putRecord]

/-! ### `putSlot` -/

@[simp] theorem putSlot_pending (n : Fin 32) (x : Slot) (s : State) :
    (s.putSlot n x).pending = s.pending := by simp [State.putSlot]
@[simp] theorem putSlot_power (n : Fin 32) (x : Slot) (s : State) :
    (s.putSlot n x).power = s.power := by simp [State.putSlot]
@[simp] theorem putSlot_inputs (n : Fin 32) (x : Slot) (s : State) :
    (s.putSlot n x).inputs = s.inputs := by simp [State.putSlot]
@[simp] theorem putSlot_links (n : Fin 32) (x : Slot) (s : State) :
    (s.putSlot n x).links = s.links := by simp [State.putSlot]
@[simp] theorem putSlot_vault (n : Fin 32) (x : Slot) (s : State) :
    (s.putSlot n x).vault = s.vault := by simp [State.putSlot]
@[simp] theorem putSlot_climate (n : Fin 32) (x : Slot) (s : State) :
    (s.putSlot n x).climate = s.climate := by simp [State.putSlot]
@[simp] theorem putSlot_accumulators (n : Fin 32) (x : Slot) (s : State) :
    (s.putSlot n x).accumulators = s.accumulators := by simp [State.putSlot]
@[simp] theorem putSlot_custody (n : Fin 32) (x : Slot) (s : State) :
    (s.putSlot n x).custody = s.custody := by simp [State.putSlot]
@[simp] theorem putSlot_consign (n : Fin 32) (x : Slot) (s : State) :
    (s.putSlot n x).consign = s.consign := by simp [State.putSlot]
@[simp] theorem putSlot_hatch (n : Fin 32) (x : Slot) (s : State) :
    (s.putSlot n x).hatch = s.hatch := by simp [State.putSlot]
@[simp] theorem putSlot_fire (n : Fin 32) (x : Slot) (s : State) :
    (s.putSlot n x).fire = s.fire := by simp [State.putSlot]
@[simp] theorem putSlot_store_cells (n : Fin 32) (x : Slot) (s : State) :
    (s.putSlot n x).store.cells = s.store.cells := by simp [State.putSlot]
@[simp] theorem putSlot_store_base (n : Fin 32) (x : Slot) (s : State) :
    (s.putSlot n x).store.base = s.store.base := by simp [State.putSlot]
@[simp] theorem putSlot_store_waiting (n : Fin 32) (x : Slot) (s : State) :
    (s.putSlot n x).store.waiting = s.store.waiting := by simp [State.putSlot]
@[simp] theorem putSlot_store_pulses (n : Fin 32) (x : Slot) (s : State) :
    (s.putSlot n x).store.pulses = s.store.pulses := by simp [State.putSlot]
@[simp] theorem putSlot_store_followups (n : Fin 32) (x : Slot) (s : State) :
    (s.putSlot n x).store.followups = s.store.followups := by simp [State.putSlot]
@[simp] theorem putSlot_store_reported (n : Fin 32) (x : Slot) (s : State) :
    (s.putSlot n x).store.reported = s.store.reported := by simp [State.putSlot]
@[simp] theorem putSlot_store_recorded (n : Fin 32) (x : Slot) (s : State) :
    (s.putSlot n x).store.recorded = s.store.recorded := by simp [State.putSlot]
@[simp] theorem putSlot_store_flags (n : Fin 32) (x : Slot) (s : State) :
    (s.putSlot n x).store.flags = s.store.flags := by simp [State.putSlot]
@[simp] theorem putSlot_store_format (n : Fin 32) (x : Slot) (s : State) :
    (s.putSlot n x).store.format = s.store.format := by simp [State.putSlot]
@[simp] theorem putSlot_store_restart (n : Fin 32) (x : Slot) (s : State) :
    (s.putSlot n x).store.restart = s.store.restart := by simp [State.putSlot]
@[simp] theorem putSlot_staging (n : Fin 32) (x : Slot) (s : State) :
    (s.putSlot n x).staging = { s.staging with slots := s.staging.slots.set n x } := by simp [State.putSlot]

/-! ### `putConsign` -/

@[simp] theorem putConsign_pending (i : Fin 16) (c : Consignment) (s : State) :
    (s.putConsign i c).pending = s.pending := by simp [State.putConsign]
@[simp] theorem putConsign_power (i : Fin 16) (c : Consignment) (s : State) :
    (s.putConsign i c).power = s.power := by simp [State.putConsign]
@[simp] theorem putConsign_inputs (i : Fin 16) (c : Consignment) (s : State) :
    (s.putConsign i c).inputs = s.inputs := by simp [State.putConsign]
@[simp] theorem putConsign_links (i : Fin 16) (c : Consignment) (s : State) :
    (s.putConsign i c).links = s.links := by simp [State.putConsign]
@[simp] theorem putConsign_vault (i : Fin 16) (c : Consignment) (s : State) :
    (s.putConsign i c).vault = s.vault := by simp [State.putConsign]
@[simp] theorem putConsign_climate (i : Fin 16) (c : Consignment) (s : State) :
    (s.putConsign i c).climate = s.climate := by simp [State.putConsign]
@[simp] theorem putConsign_accumulators (i : Fin 16) (c : Consignment) (s : State) :
    (s.putConsign i c).accumulators = s.accumulators := by simp [State.putConsign]
@[simp] theorem putConsign_custody (i : Fin 16) (c : Consignment) (s : State) :
    (s.putConsign i c).custody = s.custody := by simp [State.putConsign]
@[simp] theorem putConsign_staging (i : Fin 16) (c : Consignment) (s : State) :
    (s.putConsign i c).staging = s.staging := by simp [State.putConsign]
@[simp] theorem putConsign_hatch (i : Fin 16) (c : Consignment) (s : State) :
    (s.putConsign i c).hatch = s.hatch := by simp [State.putConsign]
@[simp] theorem putConsign_fire (i : Fin 16) (c : Consignment) (s : State) :
    (s.putConsign i c).fire = s.fire := by simp [State.putConsign]
@[simp] theorem putConsign_store_cells (i : Fin 16) (c : Consignment) (s : State) :
    (s.putConsign i c).store.cells = s.store.cells := by simp [State.putConsign]
@[simp] theorem putConsign_store_base (i : Fin 16) (c : Consignment) (s : State) :
    (s.putConsign i c).store.base = s.store.base := by simp [State.putConsign]
@[simp] theorem putConsign_store_waiting (i : Fin 16) (c : Consignment) (s : State) :
    (s.putConsign i c).store.waiting = s.store.waiting := by simp [State.putConsign]
@[simp] theorem putConsign_store_pulses (i : Fin 16) (c : Consignment) (s : State) :
    (s.putConsign i c).store.pulses = s.store.pulses := by simp [State.putConsign]
@[simp] theorem putConsign_store_followups (i : Fin 16) (c : Consignment) (s : State) :
    (s.putConsign i c).store.followups = s.store.followups := by simp [State.putConsign]
@[simp] theorem putConsign_store_reported (i : Fin 16) (c : Consignment) (s : State) :
    (s.putConsign i c).store.reported = s.store.reported := by simp [State.putConsign]
@[simp] theorem putConsign_store_recorded (i : Fin 16) (c : Consignment) (s : State) :
    (s.putConsign i c).store.recorded = s.store.recorded := by simp [State.putConsign]
@[simp] theorem putConsign_store_flags (i : Fin 16) (c : Consignment) (s : State) :
    (s.putConsign i c).store.flags = s.store.flags := by simp [State.putConsign]
@[simp] theorem putConsign_store_format (i : Fin 16) (c : Consignment) (s : State) :
    (s.putConsign i c).store.format = s.store.format := by simp [State.putConsign]
@[simp] theorem putConsign_store_restart (i : Fin 16) (c : Consignment) (s : State) :
    (s.putConsign i c).store.restart = s.store.restart := by simp [State.putConsign]
@[simp] theorem putConsign_consign (i : Fin 16) (c : Consignment) (s : State) :
    (s.putConsign i c).consign = { s.consign with places := s.consign.places.set i (some c) } := by simp [State.putConsign]

/-! ### `putEntries` -/

@[simp] theorem putEntries_pending (es : List HatchEntry) (s : State) :
    (s.putEntries es).pending = s.pending := by simp [State.putEntries]
@[simp] theorem putEntries_power (es : List HatchEntry) (s : State) :
    (s.putEntries es).power = s.power := by simp [State.putEntries]
@[simp] theorem putEntries_inputs (es : List HatchEntry) (s : State) :
    (s.putEntries es).inputs = s.inputs := by simp [State.putEntries]
@[simp] theorem putEntries_links (es : List HatchEntry) (s : State) :
    (s.putEntries es).links = s.links := by simp [State.putEntries]
@[simp] theorem putEntries_vault (es : List HatchEntry) (s : State) :
    (s.putEntries es).vault = s.vault := by simp [State.putEntries]
@[simp] theorem putEntries_climate (es : List HatchEntry) (s : State) :
    (s.putEntries es).climate = s.climate := by simp [State.putEntries]
@[simp] theorem putEntries_accumulators (es : List HatchEntry) (s : State) :
    (s.putEntries es).accumulators = s.accumulators := by simp [State.putEntries]
@[simp] theorem putEntries_custody (es : List HatchEntry) (s : State) :
    (s.putEntries es).custody = s.custody := by simp [State.putEntries]
@[simp] theorem putEntries_staging (es : List HatchEntry) (s : State) :
    (s.putEntries es).staging = s.staging := by simp [State.putEntries]
@[simp] theorem putEntries_consign (es : List HatchEntry) (s : State) :
    (s.putEntries es).consign = s.consign := by simp [State.putEntries]
@[simp] theorem putEntries_fire (es : List HatchEntry) (s : State) :
    (s.putEntries es).fire = s.fire := by simp [State.putEntries]
@[simp] theorem putEntries_store_cells (es : List HatchEntry) (s : State) :
    (s.putEntries es).store.cells = s.store.cells := by simp [State.putEntries]
@[simp] theorem putEntries_store_base (es : List HatchEntry) (s : State) :
    (s.putEntries es).store.base = s.store.base := by simp [State.putEntries]
@[simp] theorem putEntries_store_waiting (es : List HatchEntry) (s : State) :
    (s.putEntries es).store.waiting = s.store.waiting := by simp [State.putEntries]
@[simp] theorem putEntries_store_pulses (es : List HatchEntry) (s : State) :
    (s.putEntries es).store.pulses = s.store.pulses := by simp [State.putEntries]
@[simp] theorem putEntries_store_followups (es : List HatchEntry) (s : State) :
    (s.putEntries es).store.followups = s.store.followups := by simp [State.putEntries]
@[simp] theorem putEntries_store_reported (es : List HatchEntry) (s : State) :
    (s.putEntries es).store.reported = s.store.reported := by simp [State.putEntries]
@[simp] theorem putEntries_store_recorded (es : List HatchEntry) (s : State) :
    (s.putEntries es).store.recorded = s.store.recorded := by simp [State.putEntries]
@[simp] theorem putEntries_store_flags (es : List HatchEntry) (s : State) :
    (s.putEntries es).store.flags = s.store.flags := by simp [State.putEntries]
@[simp] theorem putEntries_store_format (es : List HatchEntry) (s : State) :
    (s.putEntries es).store.format = s.store.format := by simp [State.putEntries]
@[simp] theorem putEntries_store_restart (es : List HatchEntry) (s : State) :
    (s.putEntries es).store.restart = s.store.restart := by simp [State.putEntries]
@[simp] theorem putEntries_hatch (es : List HatchEntry) (s : State) :
    (s.putEntries es).hatch = { s.hatch with entries := es } := by simp [State.putEntries]

/-! ### `createRecord` -/

@[simp] theorem createRecord_pending (p : Nat) (r : CustodyRecord) (s : State) :
    (s.createRecord p r).pending = s.pending := by simp [State.createRecord]
@[simp] theorem createRecord_power (p : Nat) (r : CustodyRecord) (s : State) :
    (s.createRecord p r).power = s.power := by simp [State.createRecord]
@[simp] theorem createRecord_inputs (p : Nat) (r : CustodyRecord) (s : State) :
    (s.createRecord p r).inputs = s.inputs := by simp [State.createRecord]
@[simp] theorem createRecord_links (p : Nat) (r : CustodyRecord) (s : State) :
    (s.createRecord p r).links = s.links := by simp [State.createRecord]
@[simp] theorem createRecord_vault (p : Nat) (r : CustodyRecord) (s : State) :
    (s.createRecord p r).vault = s.vault := by simp [State.createRecord]
@[simp] theorem createRecord_climate (p : Nat) (r : CustodyRecord) (s : State) :
    (s.createRecord p r).climate = s.climate := by simp [State.createRecord]
@[simp] theorem createRecord_accumulators (p : Nat) (r : CustodyRecord) (s : State) :
    (s.createRecord p r).accumulators = s.accumulators := by simp [State.createRecord]
@[simp] theorem createRecord_staging (p : Nat) (r : CustodyRecord) (s : State) :
    (s.createRecord p r).staging = s.staging := by simp [State.createRecord]
@[simp] theorem createRecord_consign (p : Nat) (r : CustodyRecord) (s : State) :
    (s.createRecord p r).consign = s.consign := by simp [State.createRecord]
@[simp] theorem createRecord_hatch (p : Nat) (r : CustodyRecord) (s : State) :
    (s.createRecord p r).hatch = s.hatch := by simp [State.createRecord]
@[simp] theorem createRecord_fire (p : Nat) (r : CustodyRecord) (s : State) :
    (s.createRecord p r).fire = s.fire := by simp [State.createRecord]
@[simp] theorem createRecord_store_cells (p : Nat) (r : CustodyRecord) (s : State) :
    (s.createRecord p r).store.cells = s.store.cells := by simp [State.createRecord]
@[simp] theorem createRecord_store_base (p : Nat) (r : CustodyRecord) (s : State) :
    (s.createRecord p r).store.base = s.store.base := by simp [State.createRecord]
@[simp] theorem createRecord_store_waiting (p : Nat) (r : CustodyRecord) (s : State) :
    (s.createRecord p r).store.waiting = s.store.waiting := by simp [State.createRecord]
@[simp] theorem createRecord_store_pulses (p : Nat) (r : CustodyRecord) (s : State) :
    (s.createRecord p r).store.pulses = s.store.pulses := by simp [State.createRecord]
@[simp] theorem createRecord_store_followups (p : Nat) (r : CustodyRecord) (s : State) :
    (s.createRecord p r).store.followups = s.store.followups := by simp [State.createRecord]
@[simp] theorem createRecord_store_reported (p : Nat) (r : CustodyRecord) (s : State) :
    (s.createRecord p r).store.reported = s.store.reported := by simp [State.createRecord]
@[simp] theorem createRecord_store_recorded (p : Nat) (r : CustodyRecord) (s : State) :
    (s.createRecord p r).store.recorded = s.store.recorded := by simp [State.createRecord]
@[simp] theorem createRecord_store_flags (p : Nat) (r : CustodyRecord) (s : State) :
    (s.createRecord p r).store.flags = s.store.flags := by simp [State.createRecord]
@[simp] theorem createRecord_store_format (p : Nat) (r : CustodyRecord) (s : State) :
    (s.createRecord p r).store.format = s.store.format := by simp [State.createRecord]
@[simp] theorem createRecord_store_restart (p : Nat) (r : CustodyRecord) (s : State) :
    (s.createRecord p r).store.restart = s.store.restart := by simp [State.createRecord]
@[simp] theorem createRecord_custody (p : Nat) (r : CustodyRecord) (s : State) :
    (s.createRecord p r).custody = placeRecord p r s.custody := by simp [State.createRecord]

/-! ### `removeRecord` -/

@[simp] theorem removeRecord_pending (p : Nat) (s : State) :
    (s.removeRecord p).pending = s.pending := by simp [State.removeRecord]
@[simp] theorem removeRecord_power (p : Nat) (s : State) :
    (s.removeRecord p).power = s.power := by simp [State.removeRecord]
@[simp] theorem removeRecord_inputs (p : Nat) (s : State) :
    (s.removeRecord p).inputs = s.inputs := by simp [State.removeRecord]
@[simp] theorem removeRecord_links (p : Nat) (s : State) :
    (s.removeRecord p).links = s.links := by simp [State.removeRecord]
@[simp] theorem removeRecord_vault (p : Nat) (s : State) :
    (s.removeRecord p).vault = s.vault := by simp [State.removeRecord]
@[simp] theorem removeRecord_climate (p : Nat) (s : State) :
    (s.removeRecord p).climate = s.climate := by simp [State.removeRecord]
@[simp] theorem removeRecord_accumulators (p : Nat) (s : State) :
    (s.removeRecord p).accumulators = s.accumulators := by simp [State.removeRecord]
@[simp] theorem removeRecord_staging (p : Nat) (s : State) :
    (s.removeRecord p).staging = s.staging := by simp [State.removeRecord]
@[simp] theorem removeRecord_consign (p : Nat) (s : State) :
    (s.removeRecord p).consign = s.consign := by simp [State.removeRecord]
@[simp] theorem removeRecord_hatch (p : Nat) (s : State) :
    (s.removeRecord p).hatch = s.hatch := by simp [State.removeRecord]
@[simp] theorem removeRecord_fire (p : Nat) (s : State) :
    (s.removeRecord p).fire = s.fire := by simp [State.removeRecord]
@[simp] theorem removeRecord_store_cells (p : Nat) (s : State) :
    (s.removeRecord p).store.cells = s.store.cells := by simp [State.removeRecord]
@[simp] theorem removeRecord_store_base (p : Nat) (s : State) :
    (s.removeRecord p).store.base = s.store.base := by simp [State.removeRecord]
@[simp] theorem removeRecord_store_waiting (p : Nat) (s : State) :
    (s.removeRecord p).store.waiting = s.store.waiting := by simp [State.removeRecord]
@[simp] theorem removeRecord_store_pulses (p : Nat) (s : State) :
    (s.removeRecord p).store.pulses = s.store.pulses := by simp [State.removeRecord]
@[simp] theorem removeRecord_store_followups (p : Nat) (s : State) :
    (s.removeRecord p).store.followups = s.store.followups := by simp [State.removeRecord]
@[simp] theorem removeRecord_store_reported (p : Nat) (s : State) :
    (s.removeRecord p).store.reported = s.store.reported := by simp [State.removeRecord]
@[simp] theorem removeRecord_store_recorded (p : Nat) (s : State) :
    (s.removeRecord p).store.recorded = s.store.recorded := by simp [State.removeRecord]
@[simp] theorem removeRecord_store_flags (p : Nat) (s : State) :
    (s.removeRecord p).store.flags = s.store.flags := by simp [State.removeRecord]
@[simp] theorem removeRecord_store_format (p : Nat) (s : State) :
    (s.removeRecord p).store.format = s.store.format := by simp [State.removeRecord]
@[simp] theorem removeRecord_store_restart (p : Nat) (s : State) :
    (s.removeRecord p).store.restart = s.store.restart := by simp [State.removeRecord]
@[simp] theorem removeRecord_custody (p : Nat) (s : State) :
    (s.removeRecord p).custody = s.custody.filter fun x => x.1 != p := by simp [State.removeRecord]

/-! ### `bindRecord` -/

@[simp] theorem bindRecord_pending (p : Nat) (r : CustodyRecord) (n : Option Nat) (s : State) :
    (s.bindRecord p r n).pending = s.pending := by simp [State.bindRecord]
@[simp] theorem bindRecord_power (p : Nat) (r : CustodyRecord) (n : Option Nat) (s : State) :
    (s.bindRecord p r n).power = s.power := by simp [State.bindRecord]
@[simp] theorem bindRecord_inputs (p : Nat) (r : CustodyRecord) (n : Option Nat) (s : State) :
    (s.bindRecord p r n).inputs = s.inputs := by simp [State.bindRecord]
@[simp] theorem bindRecord_links (p : Nat) (r : CustodyRecord) (n : Option Nat) (s : State) :
    (s.bindRecord p r n).links = s.links := by simp [State.bindRecord]
@[simp] theorem bindRecord_vault (p : Nat) (r : CustodyRecord) (n : Option Nat) (s : State) :
    (s.bindRecord p r n).vault = s.vault := by simp [State.bindRecord]
@[simp] theorem bindRecord_climate (p : Nat) (r : CustodyRecord) (n : Option Nat) (s : State) :
    (s.bindRecord p r n).climate = s.climate := by simp [State.bindRecord]
@[simp] theorem bindRecord_accumulators (p : Nat) (r : CustodyRecord) (n : Option Nat) (s : State) :
    (s.bindRecord p r n).accumulators = s.accumulators := by simp [State.bindRecord]
@[simp] theorem bindRecord_staging (p : Nat) (r : CustodyRecord) (n : Option Nat) (s : State) :
    (s.bindRecord p r n).staging = s.staging := by simp [State.bindRecord]
@[simp] theorem bindRecord_consign (p : Nat) (r : CustodyRecord) (n : Option Nat) (s : State) :
    (s.bindRecord p r n).consign = s.consign := by simp [State.bindRecord]
@[simp] theorem bindRecord_hatch (p : Nat) (r : CustodyRecord) (n : Option Nat) (s : State) :
    (s.bindRecord p r n).hatch = s.hatch := by simp [State.bindRecord]
@[simp] theorem bindRecord_fire (p : Nat) (r : CustodyRecord) (n : Option Nat) (s : State) :
    (s.bindRecord p r n).fire = s.fire := by simp [State.bindRecord]
@[simp] theorem bindRecord_store_cells (p : Nat) (r : CustodyRecord) (n : Option Nat) (s : State) :
    (s.bindRecord p r n).store.cells = s.store.cells := by simp [State.bindRecord]
@[simp] theorem bindRecord_store_base (p : Nat) (r : CustodyRecord) (n : Option Nat) (s : State) :
    (s.bindRecord p r n).store.base = s.store.base := by simp [State.bindRecord]
@[simp] theorem bindRecord_store_waiting (p : Nat) (r : CustodyRecord) (n : Option Nat) (s : State) :
    (s.bindRecord p r n).store.waiting = s.store.waiting := by simp [State.bindRecord]
@[simp] theorem bindRecord_store_pulses (p : Nat) (r : CustodyRecord) (n : Option Nat) (s : State) :
    (s.bindRecord p r n).store.pulses = s.store.pulses := by simp [State.bindRecord]
@[simp] theorem bindRecord_store_followups (p : Nat) (r : CustodyRecord) (n : Option Nat) (s : State) :
    (s.bindRecord p r n).store.followups = s.store.followups := by simp [State.bindRecord]
@[simp] theorem bindRecord_store_reported (p : Nat) (r : CustodyRecord) (n : Option Nat) (s : State) :
    (s.bindRecord p r n).store.reported = s.store.reported := by simp [State.bindRecord]
@[simp] theorem bindRecord_store_recorded (p : Nat) (r : CustodyRecord) (n : Option Nat) (s : State) :
    (s.bindRecord p r n).store.recorded = s.store.recorded := by simp [State.bindRecord]
@[simp] theorem bindRecord_store_flags (p : Nat) (r : CustodyRecord) (n : Option Nat) (s : State) :
    (s.bindRecord p r n).store.flags = s.store.flags := by simp [State.bindRecord]
@[simp] theorem bindRecord_store_format (p : Nat) (r : CustodyRecord) (n : Option Nat) (s : State) :
    (s.bindRecord p r n).store.format = s.store.format := by simp [State.bindRecord]
@[simp] theorem bindRecord_store_restart (p : Nat) (r : CustodyRecord) (n : Option Nat) (s : State) :
    (s.bindRecord p r n).store.restart = s.store.restart := by simp [State.bindRecord]
@[simp] theorem bindRecord_custody (p : Nat) (r : CustodyRecord) (n : Option Nat) (s : State) :
    (s.bindRecord p r n).custody = placeRecord p { r with consignment := n } s.custody := by simp [State.bindRecord]

/-! ### `holdTest` -/

@[simp] theorem holdTest_pending (needs : List Nat) (s : State) :
    (s.holdTest needs).pending = s.pending := by unfold State.holdTest; (repeat' (first | split | simp only [])) <;> simp
@[simp] theorem holdTest_power (needs : List Nat) (s : State) :
    (s.holdTest needs).power = s.power := by unfold State.holdTest; (repeat' (first | split | simp only [])) <;> simp
@[simp] theorem holdTest_inputs (needs : List Nat) (s : State) :
    (s.holdTest needs).inputs = s.inputs := by unfold State.holdTest; (repeat' (first | split | simp only [])) <;> simp
@[simp] theorem holdTest_vault (needs : List Nat) (s : State) :
    (s.holdTest needs).vault = s.vault := by unfold State.holdTest; (repeat' (first | split | simp only [])) <;> simp
@[simp] theorem holdTest_climate (needs : List Nat) (s : State) :
    (s.holdTest needs).climate = s.climate := by unfold State.holdTest; (repeat' (first | split | simp only [])) <;> simp
@[simp] theorem holdTest_accumulators (needs : List Nat) (s : State) :
    (s.holdTest needs).accumulators = s.accumulators := by unfold State.holdTest; (repeat' (first | split | simp only [])) <;> simp
@[simp] theorem holdTest_custody (needs : List Nat) (s : State) :
    (s.holdTest needs).custody = s.custody := by unfold State.holdTest; (repeat' (first | split | simp only [])) <;> simp
@[simp] theorem holdTest_consign (needs : List Nat) (s : State) :
    (s.holdTest needs).consign = s.consign := by unfold State.holdTest; (repeat' (first | split | simp only [])) <;> simp
@[simp] theorem holdTest_hatch (needs : List Nat) (s : State) :
    (s.holdTest needs).hatch = s.hatch := by unfold State.holdTest; (repeat' (first | split | simp only [])) <;> simp
@[simp] theorem holdTest_fire (needs : List Nat) (s : State) :
    (s.holdTest needs).fire = s.fire := by unfold State.holdTest; (repeat' (first | split | simp only [])) <;> simp
@[simp] theorem holdTest_store_cells (needs : List Nat) (s : State) :
    (s.holdTest needs).store.cells = s.store.cells := by unfold State.holdTest; (repeat' (first | split | simp only [])) <;> simp
@[simp] theorem holdTest_store_base (needs : List Nat) (s : State) :
    (s.holdTest needs).store.base = s.store.base := by unfold State.holdTest; (repeat' (first | split | simp only [])) <;> simp
@[simp] theorem holdTest_store_inflight (needs : List Nat) (s : State) :
    (s.holdTest needs).store.inflight = s.store.inflight := by unfold State.holdTest; (repeat' (first | split | simp only [])) <;> simp
@[simp] theorem holdTest_store_queue (needs : List Nat) (s : State) :
    (s.holdTest needs).store.queue = s.store.queue := by unfold State.holdTest; (repeat' (first | split | simp only [])) <;> simp
@[simp] theorem holdTest_store_nextTicket (needs : List Nat) (s : State) :
    (s.holdTest needs).store.nextTicket = s.store.nextTicket := by unfold State.holdTest; (repeat' (first | split | simp only [])) <;> simp
@[simp] theorem holdTest_store_pulses (needs : List Nat) (s : State) :
    (s.holdTest needs).store.pulses = s.store.pulses := by unfold State.holdTest; (repeat' (first | split | simp only [])) <;> simp
@[simp] theorem holdTest_store_followups (needs : List Nat) (s : State) :
    (s.holdTest needs).store.followups = s.store.followups := by unfold State.holdTest; (repeat' (first | split | simp only [])) <;> simp
@[simp] theorem holdTest_store_reported (needs : List Nat) (s : State) :
    (s.holdTest needs).store.reported = s.store.reported := by unfold State.holdTest; (repeat' (first | split | simp only [])) <;> simp
@[simp] theorem holdTest_store_recorded (needs : List Nat) (s : State) :
    (s.holdTest needs).store.recorded = s.store.recorded := by unfold State.holdTest; (repeat' (first | split | simp only [])) <;> simp
@[simp] theorem holdTest_store_flags (needs : List Nat) (s : State) :
    (s.holdTest needs).store.flags = s.store.flags := by unfold State.holdTest; (repeat' (first | split | simp only [])) <;> simp
@[simp] theorem holdTest_store_format (needs : List Nat) (s : State) :
    (s.holdTest needs).store.format = s.store.format := by unfold State.holdTest; (repeat' (first | split | simp only [])) <;> simp
@[simp] theorem holdTest_store_restart (needs : List Nat) (s : State) :
    (s.holdTest needs).store.restart = s.store.restart := by unfold State.holdTest; (repeat' (first | split | simp only [])) <;> simp
@[simp] theorem holdTest_staging_queue (needs : List Nat) (s : State) :
    (s.holdTest needs).staging.queue = s.staging.queue := by unfold State.holdTest; (repeat' (first | split | simp only [])) <;> simp
@[simp] theorem holdTest_staging_slots (needs : List Nat) (s : State) :
    (s.holdTest needs).staging.slots = s.staging.slots := by unfold State.holdTest; (repeat' (first | split | simp only [])) <;> simp
@[simp] theorem holdTest_staging_settings (needs : List Nat) (s : State) :
    (s.holdTest needs).staging.settings = s.staging.settings := by unfold State.holdTest; (repeat' (first | split | simp only [])) <;> simp

/-! ### `resumeTest` -/

@[simp] theorem resumeTest_pending (needs : List Nat) (s : State) :
    (s.resumeTest needs).pending = s.pending := by unfold State.resumeTest; (repeat' (first | split | simp only [])) <;> simp
@[simp] theorem resumeTest_power (needs : List Nat) (s : State) :
    (s.resumeTest needs).power = s.power := by unfold State.resumeTest; (repeat' (first | split | simp only [])) <;> simp
@[simp] theorem resumeTest_inputs (needs : List Nat) (s : State) :
    (s.resumeTest needs).inputs = s.inputs := by unfold State.resumeTest; (repeat' (first | split | simp only [])) <;> simp
@[simp] theorem resumeTest_vault (needs : List Nat) (s : State) :
    (s.resumeTest needs).vault = s.vault := by unfold State.resumeTest; (repeat' (first | split | simp only [])) <;> simp
@[simp] theorem resumeTest_climate (needs : List Nat) (s : State) :
    (s.resumeTest needs).climate = s.climate := by unfold State.resumeTest; (repeat' (first | split | simp only [])) <;> simp
@[simp] theorem resumeTest_accumulators (needs : List Nat) (s : State) :
    (s.resumeTest needs).accumulators = s.accumulators := by unfold State.resumeTest; (repeat' (first | split | simp only [])) <;> simp
@[simp] theorem resumeTest_custody (needs : List Nat) (s : State) :
    (s.resumeTest needs).custody = s.custody := by unfold State.resumeTest; (repeat' (first | split | simp only [])) <;> simp
@[simp] theorem resumeTest_consign (needs : List Nat) (s : State) :
    (s.resumeTest needs).consign = s.consign := by unfold State.resumeTest; (repeat' (first | split | simp only [])) <;> simp
@[simp] theorem resumeTest_hatch (needs : List Nat) (s : State) :
    (s.resumeTest needs).hatch = s.hatch := by unfold State.resumeTest; (repeat' (first | split | simp only [])) <;> simp
@[simp] theorem resumeTest_fire (needs : List Nat) (s : State) :
    (s.resumeTest needs).fire = s.fire := by unfold State.resumeTest; (repeat' (first | split | simp only [])) <;> simp
@[simp] theorem resumeTest_store_cells (needs : List Nat) (s : State) :
    (s.resumeTest needs).store.cells = s.store.cells := by unfold State.resumeTest; (repeat' (first | split | simp only [])) <;> simp
@[simp] theorem resumeTest_store_base (needs : List Nat) (s : State) :
    (s.resumeTest needs).store.base = s.store.base := by unfold State.resumeTest; (repeat' (first | split | simp only [])) <;> simp
@[simp] theorem resumeTest_store_inflight (needs : List Nat) (s : State) :
    (s.resumeTest needs).store.inflight = s.store.inflight := by unfold State.resumeTest; (repeat' (first | split | simp only [])) <;> simp
@[simp] theorem resumeTest_store_queue (needs : List Nat) (s : State) :
    (s.resumeTest needs).store.queue = s.store.queue := by unfold State.resumeTest; (repeat' (first | split | simp only [])) <;> simp
@[simp] theorem resumeTest_store_nextTicket (needs : List Nat) (s : State) :
    (s.resumeTest needs).store.nextTicket = s.store.nextTicket := by unfold State.resumeTest; (repeat' (first | split | simp only [])) <;> simp
@[simp] theorem resumeTest_store_pulses (needs : List Nat) (s : State) :
    (s.resumeTest needs).store.pulses = s.store.pulses := by unfold State.resumeTest; (repeat' (first | split | simp only [])) <;> simp
@[simp] theorem resumeTest_store_followups (needs : List Nat) (s : State) :
    (s.resumeTest needs).store.followups = s.store.followups := by unfold State.resumeTest; (repeat' (first | split | simp only [])) <;> simp
@[simp] theorem resumeTest_store_reported (needs : List Nat) (s : State) :
    (s.resumeTest needs).store.reported = s.store.reported := by unfold State.resumeTest; (repeat' (first | split | simp only [])) <;> simp
@[simp] theorem resumeTest_store_recorded (needs : List Nat) (s : State) :
    (s.resumeTest needs).store.recorded = s.store.recorded := by unfold State.resumeTest; (repeat' (first | split | simp only [])) <;> simp
@[simp] theorem resumeTest_store_flags (needs : List Nat) (s : State) :
    (s.resumeTest needs).store.flags = s.store.flags := by unfold State.resumeTest; (repeat' (first | split | simp only [])) <;> simp
@[simp] theorem resumeTest_store_format (needs : List Nat) (s : State) :
    (s.resumeTest needs).store.format = s.store.format := by unfold State.resumeTest; (repeat' (first | split | simp only [])) <;> simp
@[simp] theorem resumeTest_store_restart (needs : List Nat) (s : State) :
    (s.resumeTest needs).store.restart = s.store.restart := by unfold State.resumeTest; (repeat' (first | split | simp only [])) <;> simp
@[simp] theorem resumeTest_staging_queue (needs : List Nat) (s : State) :
    (s.resumeTest needs).staging.queue = s.staging.queue := by unfold State.resumeTest; (repeat' (first | split | simp only [])) <;> simp
@[simp] theorem resumeTest_staging_slots (needs : List Nat) (s : State) :
    (s.resumeTest needs).staging.slots = s.staging.slots := by unfold State.resumeTest; (repeat' (first | split | simp only [])) <;> simp
@[simp] theorem resumeTest_staging_settings (needs : List Nat) (s : State) :
    (s.resumeTest needs).staging.settings = s.staging.settings := by unfold State.resumeTest; (repeat' (first | split | simp only [])) <;> simp

/-! ### `dropEntry` -/

@[simp] theorem dropEntry_pending (needs : List Nat) (p : Nat) (r : CustodyRecord) (w : DropReason) (s : State) :
    (s.dropEntry needs p r w).pending = s.pending := by simp [State.dropEntry]
@[simp] theorem dropEntry_power (needs : List Nat) (p : Nat) (r : CustodyRecord) (w : DropReason) (s : State) :
    (s.dropEntry needs p r w).power = s.power := by simp [State.dropEntry]
@[simp] theorem dropEntry_inputs (needs : List Nat) (p : Nat) (r : CustodyRecord) (w : DropReason) (s : State) :
    (s.dropEntry needs p r w).inputs = s.inputs := by simp [State.dropEntry]
@[simp] theorem dropEntry_vault (needs : List Nat) (p : Nat) (r : CustodyRecord) (w : DropReason) (s : State) :
    (s.dropEntry needs p r w).vault = s.vault := by simp [State.dropEntry]
@[simp] theorem dropEntry_climate (needs : List Nat) (p : Nat) (r : CustodyRecord) (w : DropReason) (s : State) :
    (s.dropEntry needs p r w).climate = s.climate := by simp [State.dropEntry]
@[simp] theorem dropEntry_accumulators (needs : List Nat) (p : Nat) (r : CustodyRecord) (w : DropReason) (s : State) :
    (s.dropEntry needs p r w).accumulators = s.accumulators := by simp [State.dropEntry]
@[simp] theorem dropEntry_consign (needs : List Nat) (p : Nat) (r : CustodyRecord) (w : DropReason) (s : State) :
    (s.dropEntry needs p r w).consign = s.consign := by simp [State.dropEntry]
@[simp] theorem dropEntry_hatch (needs : List Nat) (p : Nat) (r : CustodyRecord) (w : DropReason) (s : State) :
    (s.dropEntry needs p r w).hatch = s.hatch := by simp [State.dropEntry]
@[simp] theorem dropEntry_fire (needs : List Nat) (p : Nat) (r : CustodyRecord) (w : DropReason) (s : State) :
    (s.dropEntry needs p r w).fire = s.fire := by simp [State.dropEntry]
@[simp] theorem dropEntry_store_cells (needs : List Nat) (p : Nat) (r : CustodyRecord) (w : DropReason) (s : State) :
    (s.dropEntry needs p r w).store.cells = s.store.cells := by simp [State.dropEntry]
@[simp] theorem dropEntry_store_base (needs : List Nat) (p : Nat) (r : CustodyRecord) (w : DropReason) (s : State) :
    (s.dropEntry needs p r w).store.base = s.store.base := by simp [State.dropEntry]
@[simp] theorem dropEntry_store_pulses (needs : List Nat) (p : Nat) (r : CustodyRecord) (w : DropReason) (s : State) :
    (s.dropEntry needs p r w).store.pulses = s.store.pulses := by simp [State.dropEntry]
@[simp] theorem dropEntry_store_followups (needs : List Nat) (p : Nat) (r : CustodyRecord) (w : DropReason) (s : State) :
    (s.dropEntry needs p r w).store.followups = s.store.followups := by simp [State.dropEntry]
@[simp] theorem dropEntry_store_reported (needs : List Nat) (p : Nat) (r : CustodyRecord) (w : DropReason) (s : State) :
    (s.dropEntry needs p r w).store.reported = s.store.reported := by simp [State.dropEntry]
@[simp] theorem dropEntry_store_recorded (needs : List Nat) (p : Nat) (r : CustodyRecord) (w : DropReason) (s : State) :
    (s.dropEntry needs p r w).store.recorded = s.store.recorded := by simp [State.dropEntry]
@[simp] theorem dropEntry_store_flags (needs : List Nat) (p : Nat) (r : CustodyRecord) (w : DropReason) (s : State) :
    (s.dropEntry needs p r w).store.flags = s.store.flags := by simp [State.dropEntry]
@[simp] theorem dropEntry_store_format (needs : List Nat) (p : Nat) (r : CustodyRecord) (w : DropReason) (s : State) :
    (s.dropEntry needs p r w).store.format = s.store.format := by simp [State.dropEntry]
@[simp] theorem dropEntry_store_restart (needs : List Nat) (p : Nat) (r : CustodyRecord) (w : DropReason) (s : State) :
    (s.dropEntry needs p r w).store.restart = s.store.restart := by simp [State.dropEntry]
@[simp] theorem dropEntry_staging_settings (needs : List Nat) (p : Nat) (r : CustodyRecord) (w : DropReason) (s : State) :
    (s.dropEntry needs p r w).staging.settings = s.staging.settings := by simp [State.dropEntry]
@[simp] theorem dropEntry_staging_slots (needs : List Nat) (p : Nat) (r : CustodyRecord) (w : DropReason) (s : State) :
    (s.dropEntry needs p r w).staging.slots = s.staging.slots := by simp [State.dropEntry]

/-! ### `pickEntry` -/

@[simp] theorem pickEntry_pending (needs : List Nat) (p : Nat) (r : CustodyRecord) (a : Area) (n : Fin 32) (s : State) :
    (s.pickEntry needs p r a n).pending = s.pending := by simp [State.pickEntry]
@[simp] theorem pickEntry_power (needs : List Nat) (p : Nat) (r : CustodyRecord) (a : Area) (n : Fin 32) (s : State) :
    (s.pickEntry needs p r a n).power = s.power := by simp [State.pickEntry]
@[simp] theorem pickEntry_inputs (needs : List Nat) (p : Nat) (r : CustodyRecord) (a : Area) (n : Fin 32) (s : State) :
    (s.pickEntry needs p r a n).inputs = s.inputs := by simp [State.pickEntry]
@[simp] theorem pickEntry_vault (needs : List Nat) (p : Nat) (r : CustodyRecord) (a : Area) (n : Fin 32) (s : State) :
    (s.pickEntry needs p r a n).vault = s.vault := by simp [State.pickEntry]
@[simp] theorem pickEntry_climate (needs : List Nat) (p : Nat) (r : CustodyRecord) (a : Area) (n : Fin 32) (s : State) :
    (s.pickEntry needs p r a n).climate = s.climate := by simp [State.pickEntry]
@[simp] theorem pickEntry_accumulators (needs : List Nat) (p : Nat) (r : CustodyRecord) (a : Area) (n : Fin 32) (s : State) :
    (s.pickEntry needs p r a n).accumulators = s.accumulators := by simp [State.pickEntry]
@[simp] theorem pickEntry_consign (needs : List Nat) (p : Nat) (r : CustodyRecord) (a : Area) (n : Fin 32) (s : State) :
    (s.pickEntry needs p r a n).consign = s.consign := by simp [State.pickEntry]
@[simp] theorem pickEntry_hatch (needs : List Nat) (p : Nat) (r : CustodyRecord) (a : Area) (n : Fin 32) (s : State) :
    (s.pickEntry needs p r a n).hatch = s.hatch := by simp [State.pickEntry]
@[simp] theorem pickEntry_fire (needs : List Nat) (p : Nat) (r : CustodyRecord) (a : Area) (n : Fin 32) (s : State) :
    (s.pickEntry needs p r a n).fire = s.fire := by simp [State.pickEntry]
@[simp] theorem pickEntry_store_cells (needs : List Nat) (p : Nat) (r : CustodyRecord) (a : Area) (n : Fin 32) (s : State) :
    (s.pickEntry needs p r a n).store.cells = s.store.cells := by simp [State.pickEntry]
@[simp] theorem pickEntry_store_base (needs : List Nat) (p : Nat) (r : CustodyRecord) (a : Area) (n : Fin 32) (s : State) :
    (s.pickEntry needs p r a n).store.base = s.store.base := by simp [State.pickEntry]
@[simp] theorem pickEntry_store_pulses (needs : List Nat) (p : Nat) (r : CustodyRecord) (a : Area) (n : Fin 32) (s : State) :
    (s.pickEntry needs p r a n).store.pulses = s.store.pulses := by simp [State.pickEntry]
@[simp] theorem pickEntry_store_followups (needs : List Nat) (p : Nat) (r : CustodyRecord) (a : Area) (n : Fin 32) (s : State) :
    (s.pickEntry needs p r a n).store.followups = s.store.followups := by simp [State.pickEntry]
@[simp] theorem pickEntry_store_reported (needs : List Nat) (p : Nat) (r : CustodyRecord) (a : Area) (n : Fin 32) (s : State) :
    (s.pickEntry needs p r a n).store.reported = s.store.reported := by simp [State.pickEntry]
@[simp] theorem pickEntry_store_recorded (needs : List Nat) (p : Nat) (r : CustodyRecord) (a : Area) (n : Fin 32) (s : State) :
    (s.pickEntry needs p r a n).store.recorded = s.store.recorded := by simp [State.pickEntry]
@[simp] theorem pickEntry_store_flags (needs : List Nat) (p : Nat) (r : CustodyRecord) (a : Area) (n : Fin 32) (s : State) :
    (s.pickEntry needs p r a n).store.flags = s.store.flags := by simp [State.pickEntry]
@[simp] theorem pickEntry_store_format (needs : List Nat) (p : Nat) (r : CustodyRecord) (a : Area) (n : Fin 32) (s : State) :
    (s.pickEntry needs p r a n).store.format = s.store.format := by simp [State.pickEntry]
@[simp] theorem pickEntry_store_restart (needs : List Nat) (p : Nat) (r : CustodyRecord) (a : Area) (n : Fin 32) (s : State) :
    (s.pickEntry needs p r a n).store.restart = s.store.restart := by simp [State.pickEntry]
@[simp] theorem pickEntry_staging_settings (needs : List Nat) (p : Nat) (r : CustodyRecord) (a : Area) (n : Fin 32) (s : State) :
    (s.pickEntry needs p r a n).staging.settings = s.staging.settings := by simp [State.pickEntry]

/-! ### Dispatch -/

/-- A round drops an entry or picks one (R109, R110). -/
theorem dispatchRound_cases {needs : List Nat} {s t : State} (h : s.dispatchRound needs = some t) :
    (∃ p r w, t = s.dropEntry needs p r w) ∨ (∃ p r a n, t = s.pickEntry needs p r a n) := by
  unfold State.dispatchRound at h
  split at h
  · exact absurd h (by simp)
  · split at h
    · split at h
      · exact .inl ⟨_, _, _, (Option.some.inj h).symm⟩
      · split at h
        · exact .inl ⟨_, _, _, (Option.some.inj h).symm⟩
        · exact .inr ⟨_, _, _, _, (Option.some.inj h).symm⟩
    · exact absurd h (by simp)

/-- Dispatch keeps whatever a dropped entry and a pick keep. -/
theorem dispatch_keeps {γ : Type} (g : State → γ)
    (hd : ∀ needs p r w s, g (State.dropEntry needs p r w s) = g s)
    (hp : ∀ needs p r a n s, g (State.pickEntry needs p r a n s) = g s) (needs : List Nat) (s : State) :
    g (s.dispatch needs) = g s := by
  unfold State.dispatch
  generalize s.staging.queue.length = k
  induction k generalizing s with
  | zero => rfl
  | succ k ih =>
    unfold State.dispatchRounds
    split
    · split
      · rename_i t ht
        rw [ih]
        rcases dispatchRound_cases ht with ⟨p, r, w, rfl⟩ | ⟨p, r, a, n, rfl⟩
        · exact hd _ _ _ _ _
        · exact hp _ _ _ _ _ _
      · rfl
    · rfl

/-- Dispatch keeps a property that a dropped entry and a pick keep. -/
theorem dispatch_invariant (P : State → Prop)
    (hd : ∀ needs p r w s, P s → P (State.dropEntry needs p r w s))
    (hp : ∀ needs p r a n s, P s → P (State.pickEntry needs p r a n s)) (needs : List Nat) (s : State) (h : P s) :
    P (s.dispatch needs) := by
  unfold State.dispatch
  generalize s.staging.queue.length = k
  induction k generalizing s with
  | zero => exact h
  | succ k ih =>
    unfold State.dispatchRounds
    split
    · split
      · rename_i t ht
        apply ih
        rcases dispatchRound_cases ht with ⟨p, r, w, rfl⟩ | ⟨p, r, a, n, rfl⟩
        · exact hd _ _ _ _ _ h
        · exact hp _ _ _ _ _ _ h
      · exact h
    · exact h

@[simp] theorem dispatch_pending (needs : List Nat) (s : State) : (s.dispatch needs).pending = s.pending :=
  dispatch_keeps (·.pending) (by simp) (by simp) needs s
@[simp] theorem dispatch_power (needs : List Nat) (s : State) : (s.dispatch needs).power = s.power :=
  dispatch_keeps (·.power) (by simp) (by simp) needs s
@[simp] theorem dispatch_inputs (needs : List Nat) (s : State) : (s.dispatch needs).inputs = s.inputs :=
  dispatch_keeps (·.inputs) (by simp) (by simp) needs s
@[simp] theorem dispatch_vault (needs : List Nat) (s : State) : (s.dispatch needs).vault = s.vault :=
  dispatch_keeps (·.vault) (by simp) (by simp) needs s
@[simp] theorem dispatch_climate (needs : List Nat) (s : State) : (s.dispatch needs).climate = s.climate :=
  dispatch_keeps (·.climate) (by simp) (by simp) needs s
@[simp] theorem dispatch_accumulators (needs : List Nat) (s : State) : (s.dispatch needs).accumulators = s.accumulators :=
  dispatch_keeps (·.accumulators) (by simp) (by simp) needs s
@[simp] theorem dispatch_consign (needs : List Nat) (s : State) : (s.dispatch needs).consign = s.consign :=
  dispatch_keeps (·.consign) (by simp) (by simp) needs s
@[simp] theorem dispatch_hatch (needs : List Nat) (s : State) : (s.dispatch needs).hatch = s.hatch :=
  dispatch_keeps (·.hatch) (by simp) (by simp) needs s
@[simp] theorem dispatch_fire (needs : List Nat) (s : State) : (s.dispatch needs).fire = s.fire :=
  dispatch_keeps (·.fire) (by simp) (by simp) needs s
@[simp] theorem dispatch_store_cells (needs : List Nat) (s : State) :
    (s.dispatch needs).store.cells = s.store.cells := dispatch_keeps (·.store.cells) (by simp) (by simp) needs s
@[simp] theorem dispatch_store_base (needs : List Nat) (s : State) :
    (s.dispatch needs).store.base = s.store.base := dispatch_keeps (·.store.base) (by simp) (by simp) needs s
@[simp] theorem dispatch_store_pulses (needs : List Nat) (s : State) :
    (s.dispatch needs).store.pulses = s.store.pulses := dispatch_keeps (·.store.pulses) (by simp) (by simp) needs s
@[simp] theorem dispatch_store_followups (needs : List Nat) (s : State) :
    (s.dispatch needs).store.followups = s.store.followups := dispatch_keeps (·.store.followups) (by simp) (by simp) needs s
@[simp] theorem dispatch_store_reported (needs : List Nat) (s : State) :
    (s.dispatch needs).store.reported = s.store.reported := dispatch_keeps (·.store.reported) (by simp) (by simp) needs s
@[simp] theorem dispatch_store_recorded (needs : List Nat) (s : State) :
    (s.dispatch needs).store.recorded = s.store.recorded := dispatch_keeps (·.store.recorded) (by simp) (by simp) needs s
@[simp] theorem dispatch_store_flags (needs : List Nat) (s : State) :
    (s.dispatch needs).store.flags = s.store.flags := dispatch_keeps (·.store.flags) (by simp) (by simp) needs s
@[simp] theorem dispatch_store_format (needs : List Nat) (s : State) :
    (s.dispatch needs).store.format = s.store.format := dispatch_keeps (·.store.format) (by simp) (by simp) needs s
@[simp] theorem dispatch_store_restart (needs : List Nat) (s : State) :
    (s.dispatch needs).store.restart = s.store.restart := dispatch_keeps (·.store.restart) (by simp) (by simp) needs s
@[simp] theorem dispatch_staging_settings (needs : List Nat) (s : State) :
    (s.dispatch needs).staging.settings = s.staging.settings :=
  dispatch_keeps (·.staging.settings) (by simp) (by simp) needs s

/-! ### `lapsePick` -/

@[simp] theorem lapsePick_pending (needs : List Nat) (n : Fin 32) (s : State) :
    ((s.lapsePick needs n).2).pending = s.pending := by unfold State.lapsePick; (repeat' (first | split | simp only [])) <;> simp
@[simp] theorem lapsePick_power (needs : List Nat) (n : Fin 32) (s : State) :
    ((s.lapsePick needs n).2).power = s.power := by unfold State.lapsePick; (repeat' (first | split | simp only [])) <;> simp
@[simp] theorem lapsePick_inputs (needs : List Nat) (n : Fin 32) (s : State) :
    ((s.lapsePick needs n).2).inputs = s.inputs := by unfold State.lapsePick; (repeat' (first | split | simp only [])) <;> simp
@[simp] theorem lapsePick_vault (needs : List Nat) (n : Fin 32) (s : State) :
    ((s.lapsePick needs n).2).vault = s.vault := by unfold State.lapsePick; (repeat' (first | split | simp only [])) <;> simp
@[simp] theorem lapsePick_climate (needs : List Nat) (n : Fin 32) (s : State) :
    ((s.lapsePick needs n).2).climate = s.climate := by unfold State.lapsePick; (repeat' (first | split | simp only [])) <;> simp
@[simp] theorem lapsePick_accumulators (needs : List Nat) (n : Fin 32) (s : State) :
    ((s.lapsePick needs n).2).accumulators = s.accumulators := by unfold State.lapsePick; (repeat' (first | split | simp only [])) <;> simp
@[simp] theorem lapsePick_consign (needs : List Nat) (n : Fin 32) (s : State) :
    ((s.lapsePick needs n).2).consign = s.consign := by unfold State.lapsePick; (repeat' (first | split | simp only [])) <;> simp
@[simp] theorem lapsePick_hatch (needs : List Nat) (n : Fin 32) (s : State) :
    ((s.lapsePick needs n).2).hatch = s.hatch := by unfold State.lapsePick; (repeat' (first | split | simp only [])) <;> simp
@[simp] theorem lapsePick_fire (needs : List Nat) (n : Fin 32) (s : State) :
    ((s.lapsePick needs n).2).fire = s.fire := by unfold State.lapsePick; (repeat' (first | split | simp only [])) <;> simp
@[simp] theorem lapsePick_store_cells (needs : List Nat) (n : Fin 32) (s : State) :
    ((s.lapsePick needs n).2).store.cells = s.store.cells := by unfold State.lapsePick; (repeat' (first | split | simp only [])) <;> simp
@[simp] theorem lapsePick_store_base (needs : List Nat) (n : Fin 32) (s : State) :
    ((s.lapsePick needs n).2).store.base = s.store.base := by unfold State.lapsePick; (repeat' (first | split | simp only [])) <;> simp
@[simp] theorem lapsePick_store_pulses (needs : List Nat) (n : Fin 32) (s : State) :
    ((s.lapsePick needs n).2).store.pulses = s.store.pulses := by unfold State.lapsePick; (repeat' (first | split | simp only [])) <;> simp
@[simp] theorem lapsePick_store_followups (needs : List Nat) (n : Fin 32) (s : State) :
    ((s.lapsePick needs n).2).store.followups = s.store.followups := by unfold State.lapsePick; (repeat' (first | split | simp only [])) <;> simp
@[simp] theorem lapsePick_store_reported (needs : List Nat) (n : Fin 32) (s : State) :
    ((s.lapsePick needs n).2).store.reported = s.store.reported := by unfold State.lapsePick; (repeat' (first | split | simp only [])) <;> simp
@[simp] theorem lapsePick_store_recorded (needs : List Nat) (n : Fin 32) (s : State) :
    ((s.lapsePick needs n).2).store.recorded = s.store.recorded := by unfold State.lapsePick; (repeat' (first | split | simp only [])) <;> simp
@[simp] theorem lapsePick_store_flags (needs : List Nat) (n : Fin 32) (s : State) :
    ((s.lapsePick needs n).2).store.flags = s.store.flags := by unfold State.lapsePick; (repeat' (first | split | simp only [])) <;> simp
@[simp] theorem lapsePick_store_format (needs : List Nat) (n : Fin 32) (s : State) :
    ((s.lapsePick needs n).2).store.format = s.store.format := by unfold State.lapsePick; (repeat' (first | split | simp only [])) <;> simp
@[simp] theorem lapsePick_store_restart (needs : List Nat) (n : Fin 32) (s : State) :
    ((s.lapsePick needs n).2).store.restart = s.store.restart := by unfold State.lapsePick; (repeat' (first | split | simp only [])) <;> simp
@[simp] theorem lapsePick_staging_settings (needs : List Nat) (n : Fin 32) (s : State) :
    ((s.lapsePick needs n).2).staging.settings = s.staging.settings := by unfold State.lapsePick; (repeat' (first | split | simp only [])) <;> simp

/-! ### `testConsign` -/

@[simp] theorem testConsign_pending (needs : List Nat) (i : Fin 16) (s : State) :
    ((s.testConsign needs i).2).pending = s.pending := by unfold State.testConsign; (repeat' (first | split | simp only [])) <;> simp
@[simp] theorem testConsign_power (needs : List Nat) (i : Fin 16) (s : State) :
    ((s.testConsign needs i).2).power = s.power := by unfold State.testConsign; (repeat' (first | split | simp only [])) <;> simp
@[simp] theorem testConsign_inputs (needs : List Nat) (i : Fin 16) (s : State) :
    ((s.testConsign needs i).2).inputs = s.inputs := by unfold State.testConsign; (repeat' (first | split | simp only [])) <;> simp
@[simp] theorem testConsign_vault (needs : List Nat) (i : Fin 16) (s : State) :
    ((s.testConsign needs i).2).vault = s.vault := by unfold State.testConsign; (repeat' (first | split | simp only [])) <;> simp
@[simp] theorem testConsign_climate (needs : List Nat) (i : Fin 16) (s : State) :
    ((s.testConsign needs i).2).climate = s.climate := by unfold State.testConsign; (repeat' (first | split | simp only [])) <;> simp
@[simp] theorem testConsign_accumulators (needs : List Nat) (i : Fin 16) (s : State) :
    ((s.testConsign needs i).2).accumulators = s.accumulators := by unfold State.testConsign; (repeat' (first | split | simp only [])) <;> simp
@[simp] theorem testConsign_custody (needs : List Nat) (i : Fin 16) (s : State) :
    ((s.testConsign needs i).2).custody = s.custody := by unfold State.testConsign; (repeat' (first | split | simp only [])) <;> simp
@[simp] theorem testConsign_staging (needs : List Nat) (i : Fin 16) (s : State) :
    ((s.testConsign needs i).2).staging = s.staging := by unfold State.testConsign; (repeat' (first | split | simp only [])) <;> simp
@[simp] theorem testConsign_hatch (needs : List Nat) (i : Fin 16) (s : State) :
    ((s.testConsign needs i).2).hatch = s.hatch := by unfold State.testConsign; (repeat' (first | split | simp only [])) <;> simp
@[simp] theorem testConsign_fire (needs : List Nat) (i : Fin 16) (s : State) :
    ((s.testConsign needs i).2).fire = s.fire := by unfold State.testConsign; (repeat' (first | split | simp only [])) <;> simp
@[simp] theorem testConsign_store_cells (needs : List Nat) (i : Fin 16) (s : State) :
    ((s.testConsign needs i).2).store.cells = s.store.cells := by unfold State.testConsign; (repeat' (first | split | simp only [])) <;> simp
@[simp] theorem testConsign_store_base (needs : List Nat) (i : Fin 16) (s : State) :
    ((s.testConsign needs i).2).store.base = s.store.base := by unfold State.testConsign; (repeat' (first | split | simp only [])) <;> simp
@[simp] theorem testConsign_store_pulses (needs : List Nat) (i : Fin 16) (s : State) :
    ((s.testConsign needs i).2).store.pulses = s.store.pulses := by unfold State.testConsign; (repeat' (first | split | simp only [])) <;> simp
@[simp] theorem testConsign_store_followups (needs : List Nat) (i : Fin 16) (s : State) :
    ((s.testConsign needs i).2).store.followups = s.store.followups := by unfold State.testConsign; (repeat' (first | split | simp only [])) <;> simp
@[simp] theorem testConsign_store_reported (needs : List Nat) (i : Fin 16) (s : State) :
    ((s.testConsign needs i).2).store.reported = s.store.reported := by unfold State.testConsign; (repeat' (first | split | simp only [])) <;> simp
@[simp] theorem testConsign_store_recorded (needs : List Nat) (i : Fin 16) (s : State) :
    ((s.testConsign needs i).2).store.recorded = s.store.recorded := by unfold State.testConsign; (repeat' (first | split | simp only [])) <;> simp
@[simp] theorem testConsign_store_flags (needs : List Nat) (i : Fin 16) (s : State) :
    ((s.testConsign needs i).2).store.flags = s.store.flags := by unfold State.testConsign; (repeat' (first | split | simp only [])) <;> simp
@[simp] theorem testConsign_store_format (needs : List Nat) (i : Fin 16) (s : State) :
    ((s.testConsign needs i).2).store.format = s.store.format := by unfold State.testConsign; (repeat' (first | split | simp only [])) <;> simp
@[simp] theorem testConsign_store_restart (needs : List Nat) (i : Fin 16) (s : State) :
    ((s.testConsign needs i).2).store.restart = s.store.restart := by unfold State.testConsign; (repeat' (first | split | simp only [])) <;> simp
@[simp] theorem testConsign_consign_counter (needs : List Nat) (i : Fin 16) (s : State) :
    ((s.testConsign needs i).2).consign.counter = s.consign.counter := by unfold State.testConsign; (repeat' (first | split | simp only [])) <;> simp

/-! ### `testNumber` -/

@[simp] theorem testNumber_pending (needs : List Nat) (n : Nat) (s : State) :
    ((s.testNumber needs n).2).pending = s.pending := by unfold State.testNumber; (repeat' (first | split | simp only [])) <;> simp
@[simp] theorem testNumber_power (needs : List Nat) (n : Nat) (s : State) :
    ((s.testNumber needs n).2).power = s.power := by unfold State.testNumber; (repeat' (first | split | simp only [])) <;> simp
@[simp] theorem testNumber_inputs (needs : List Nat) (n : Nat) (s : State) :
    ((s.testNumber needs n).2).inputs = s.inputs := by unfold State.testNumber; (repeat' (first | split | simp only [])) <;> simp
@[simp] theorem testNumber_vault (needs : List Nat) (n : Nat) (s : State) :
    ((s.testNumber needs n).2).vault = s.vault := by unfold State.testNumber; (repeat' (first | split | simp only [])) <;> simp
@[simp] theorem testNumber_climate (needs : List Nat) (n : Nat) (s : State) :
    ((s.testNumber needs n).2).climate = s.climate := by unfold State.testNumber; (repeat' (first | split | simp only [])) <;> simp
@[simp] theorem testNumber_accumulators (needs : List Nat) (n : Nat) (s : State) :
    ((s.testNumber needs n).2).accumulators = s.accumulators := by unfold State.testNumber; (repeat' (first | split | simp only [])) <;> simp
@[simp] theorem testNumber_custody (needs : List Nat) (n : Nat) (s : State) :
    ((s.testNumber needs n).2).custody = s.custody := by unfold State.testNumber; (repeat' (first | split | simp only [])) <;> simp
@[simp] theorem testNumber_staging (needs : List Nat) (n : Nat) (s : State) :
    ((s.testNumber needs n).2).staging = s.staging := by unfold State.testNumber; (repeat' (first | split | simp only [])) <;> simp
@[simp] theorem testNumber_hatch (needs : List Nat) (n : Nat) (s : State) :
    ((s.testNumber needs n).2).hatch = s.hatch := by unfold State.testNumber; (repeat' (first | split | simp only [])) <;> simp
@[simp] theorem testNumber_fire (needs : List Nat) (n : Nat) (s : State) :
    ((s.testNumber needs n).2).fire = s.fire := by unfold State.testNumber; (repeat' (first | split | simp only [])) <;> simp
@[simp] theorem testNumber_store_cells (needs : List Nat) (n : Nat) (s : State) :
    ((s.testNumber needs n).2).store.cells = s.store.cells := by unfold State.testNumber; (repeat' (first | split | simp only [])) <;> simp
@[simp] theorem testNumber_store_base (needs : List Nat) (n : Nat) (s : State) :
    ((s.testNumber needs n).2).store.base = s.store.base := by unfold State.testNumber; (repeat' (first | split | simp only [])) <;> simp
@[simp] theorem testNumber_store_pulses (needs : List Nat) (n : Nat) (s : State) :
    ((s.testNumber needs n).2).store.pulses = s.store.pulses := by unfold State.testNumber; (repeat' (first | split | simp only [])) <;> simp
@[simp] theorem testNumber_store_followups (needs : List Nat) (n : Nat) (s : State) :
    ((s.testNumber needs n).2).store.followups = s.store.followups := by unfold State.testNumber; (repeat' (first | split | simp only [])) <;> simp
@[simp] theorem testNumber_store_reported (needs : List Nat) (n : Nat) (s : State) :
    ((s.testNumber needs n).2).store.reported = s.store.reported := by unfold State.testNumber; (repeat' (first | split | simp only [])) <;> simp
@[simp] theorem testNumber_store_recorded (needs : List Nat) (n : Nat) (s : State) :
    ((s.testNumber needs n).2).store.recorded = s.store.recorded := by unfold State.testNumber; (repeat' (first | split | simp only [])) <;> simp
@[simp] theorem testNumber_store_flags (needs : List Nat) (n : Nat) (s : State) :
    ((s.testNumber needs n).2).store.flags = s.store.flags := by unfold State.testNumber; (repeat' (first | split | simp only [])) <;> simp
@[simp] theorem testNumber_store_format (needs : List Nat) (n : Nat) (s : State) :
    ((s.testNumber needs n).2).store.format = s.store.format := by unfold State.testNumber; (repeat' (first | split | simp only [])) <;> simp
@[simp] theorem testNumber_store_restart (needs : List Nat) (n : Nat) (s : State) :
    ((s.testNumber needs n).2).store.restart = s.store.restart := by unfold State.testNumber; (repeat' (first | split | simp only [])) <;> simp
@[simp] theorem testNumber_consign_counter (needs : List Nat) (n : Nat) (s : State) :
    ((s.testNumber needs n).2).consign.counter = s.consign.counter := by unfold State.testNumber; (repeat' (first | split | simp only [])) <;> simp

/-! ### `testPlaces` -/

@[simp] theorem testPlaces_pending (needs : List Nat) (is : List (Fin 16)) (s : State) :
    (s.testPlaces needs is).2.pending = s.pending :=
  foldl_keeps _ (fun x : List Nat × State => x.2.pending) (by simp) is (needs, s)
@[simp] theorem testPlaces_power (needs : List Nat) (is : List (Fin 16)) (s : State) :
    (s.testPlaces needs is).2.power = s.power :=
  foldl_keeps _ (fun x : List Nat × State => x.2.power) (by simp) is (needs, s)
@[simp] theorem testPlaces_inputs (needs : List Nat) (is : List (Fin 16)) (s : State) :
    (s.testPlaces needs is).2.inputs = s.inputs :=
  foldl_keeps _ (fun x : List Nat × State => x.2.inputs) (by simp) is (needs, s)
@[simp] theorem testPlaces_vault (needs : List Nat) (is : List (Fin 16)) (s : State) :
    (s.testPlaces needs is).2.vault = s.vault :=
  foldl_keeps _ (fun x : List Nat × State => x.2.vault) (by simp) is (needs, s)
@[simp] theorem testPlaces_climate (needs : List Nat) (is : List (Fin 16)) (s : State) :
    (s.testPlaces needs is).2.climate = s.climate :=
  foldl_keeps _ (fun x : List Nat × State => x.2.climate) (by simp) is (needs, s)
@[simp] theorem testPlaces_accumulators (needs : List Nat) (is : List (Fin 16)) (s : State) :
    (s.testPlaces needs is).2.accumulators = s.accumulators :=
  foldl_keeps _ (fun x : List Nat × State => x.2.accumulators) (by simp) is (needs, s)
@[simp] theorem testPlaces_custody (needs : List Nat) (is : List (Fin 16)) (s : State) :
    (s.testPlaces needs is).2.custody = s.custody :=
  foldl_keeps _ (fun x : List Nat × State => x.2.custody) (by simp) is (needs, s)
@[simp] theorem testPlaces_staging (needs : List Nat) (is : List (Fin 16)) (s : State) :
    (s.testPlaces needs is).2.staging = s.staging :=
  foldl_keeps _ (fun x : List Nat × State => x.2.staging) (by simp) is (needs, s)
@[simp] theorem testPlaces_hatch (needs : List Nat) (is : List (Fin 16)) (s : State) :
    (s.testPlaces needs is).2.hatch = s.hatch :=
  foldl_keeps _ (fun x : List Nat × State => x.2.hatch) (by simp) is (needs, s)
@[simp] theorem testPlaces_fire (needs : List Nat) (is : List (Fin 16)) (s : State) :
    (s.testPlaces needs is).2.fire = s.fire :=
  foldl_keeps _ (fun x : List Nat × State => x.2.fire) (by simp) is (needs, s)
@[simp] theorem testPlaces_store_cells (needs : List Nat) (is : List (Fin 16)) (s : State) :
    (s.testPlaces needs is).2.store.cells = s.store.cells :=
  foldl_keeps _ (fun x : List Nat × State => x.2.store.cells) (by simp) is (needs, s)
@[simp] theorem testPlaces_store_base (needs : List Nat) (is : List (Fin 16)) (s : State) :
    (s.testPlaces needs is).2.store.base = s.store.base :=
  foldl_keeps _ (fun x : List Nat × State => x.2.store.base) (by simp) is (needs, s)
@[simp] theorem testPlaces_store_pulses (needs : List Nat) (is : List (Fin 16)) (s : State) :
    (s.testPlaces needs is).2.store.pulses = s.store.pulses :=
  foldl_keeps _ (fun x : List Nat × State => x.2.store.pulses) (by simp) is (needs, s)
@[simp] theorem testPlaces_store_followups (needs : List Nat) (is : List (Fin 16)) (s : State) :
    (s.testPlaces needs is).2.store.followups = s.store.followups :=
  foldl_keeps _ (fun x : List Nat × State => x.2.store.followups) (by simp) is (needs, s)
@[simp] theorem testPlaces_store_reported (needs : List Nat) (is : List (Fin 16)) (s : State) :
    (s.testPlaces needs is).2.store.reported = s.store.reported :=
  foldl_keeps _ (fun x : List Nat × State => x.2.store.reported) (by simp) is (needs, s)
@[simp] theorem testPlaces_store_recorded (needs : List Nat) (is : List (Fin 16)) (s : State) :
    (s.testPlaces needs is).2.store.recorded = s.store.recorded :=
  foldl_keeps _ (fun x : List Nat × State => x.2.store.recorded) (by simp) is (needs, s)
@[simp] theorem testPlaces_store_flags (needs : List Nat) (is : List (Fin 16)) (s : State) :
    (s.testPlaces needs is).2.store.flags = s.store.flags :=
  foldl_keeps _ (fun x : List Nat × State => x.2.store.flags) (by simp) is (needs, s)
@[simp] theorem testPlaces_store_format (needs : List Nat) (is : List (Fin 16)) (s : State) :
    (s.testPlaces needs is).2.store.format = s.store.format :=
  foldl_keeps _ (fun x : List Nat × State => x.2.store.format) (by simp) is (needs, s)
@[simp] theorem testPlaces_store_restart (needs : List Nat) (is : List (Fin 16)) (s : State) :
    (s.testPlaces needs is).2.store.restart = s.store.restart :=
  foldl_keeps _ (fun x : List Nat × State => x.2.store.restart) (by simp) is (needs, s)

/-! ### `give` -/

@[simp] theorem give_pending (w : Side) (s : State) :
    (s.give w).pending = s.pending := by simp [State.give]
@[simp] theorem give_power (w : Side) (s : State) :
    (s.give w).power = s.power := by simp [State.give]
@[simp] theorem give_inputs (w : Side) (s : State) :
    (s.give w).inputs = s.inputs := by simp [State.give]
@[simp] theorem give_links (w : Side) (s : State) :
    (s.give w).links = s.links := by simp [State.give]
@[simp] theorem give_vault (w : Side) (s : State) :
    (s.give w).vault = s.vault := by simp [State.give]
@[simp] theorem give_climate (w : Side) (s : State) :
    (s.give w).climate = s.climate := by simp [State.give]
@[simp] theorem give_accumulators (w : Side) (s : State) :
    (s.give w).accumulators = s.accumulators := by simp [State.give]
@[simp] theorem give_custody (w : Side) (s : State) :
    (s.give w).custody = s.custody := by simp [State.give]
@[simp] theorem give_staging (w : Side) (s : State) :
    (s.give w).staging = s.staging := by simp [State.give]
@[simp] theorem give_consign (w : Side) (s : State) :
    (s.give w).consign = s.consign := by simp [State.give]
@[simp] theorem give_fire (w : Side) (s : State) :
    (s.give w).fire = s.fire := by simp [State.give]
@[simp] theorem give_store (w : Side) (s : State) :
    (s.give w).store = s.store := by simp [State.give]
@[simp] theorem give_hatch_entries (w : Side) (s : State) :
    (s.give w).hatch.entries = s.hatch.entries := by simp [State.give]
@[simp] theorem give_hatch_exchange (w : Side) (s : State) :
    (s.give w).hatch.exchange = s.hatch.exchange := by simp [State.give]

/-! ### `arbitration` -/

@[simp] theorem arbitration_pending (s : State) :
    (s.arbitration.1).pending = s.pending := by unfold State.arbitration; (repeat' (first | split | simp only [])) <;> simp
@[simp] theorem arbitration_power (s : State) :
    (s.arbitration.1).power = s.power := by unfold State.arbitration; (repeat' (first | split | simp only [])) <;> simp
@[simp] theorem arbitration_inputs (s : State) :
    (s.arbitration.1).inputs = s.inputs := by unfold State.arbitration; (repeat' (first | split | simp only [])) <;> simp
@[simp] theorem arbitration_links (s : State) :
    (s.arbitration.1).links = s.links := by unfold State.arbitration; (repeat' (first | split | simp only [])) <;> simp
@[simp] theorem arbitration_vault (s : State) :
    (s.arbitration.1).vault = s.vault := by unfold State.arbitration; (repeat' (first | split | simp only [])) <;> simp
@[simp] theorem arbitration_climate (s : State) :
    (s.arbitration.1).climate = s.climate := by unfold State.arbitration; (repeat' (first | split | simp only [])) <;> simp
@[simp] theorem arbitration_accumulators (s : State) :
    (s.arbitration.1).accumulators = s.accumulators := by unfold State.arbitration; (repeat' (first | split | simp only [])) <;> simp
@[simp] theorem arbitration_custody (s : State) :
    (s.arbitration.1).custody = s.custody := by unfold State.arbitration; (repeat' (first | split | simp only [])) <;> simp
@[simp] theorem arbitration_staging (s : State) :
    (s.arbitration.1).staging = s.staging := by unfold State.arbitration; (repeat' (first | split | simp only [])) <;> simp
@[simp] theorem arbitration_consign (s : State) :
    (s.arbitration.1).consign = s.consign := by unfold State.arbitration; (repeat' (first | split | simp only [])) <;> simp
@[simp] theorem arbitration_fire (s : State) :
    (s.arbitration.1).fire = s.fire := by unfold State.arbitration; (repeat' (first | split | simp only [])) <;> simp
@[simp] theorem arbitration_store (s : State) :
    (s.arbitration.1).store = s.store := by unfold State.arbitration; (repeat' (first | split | simp only [])) <;> simp
@[simp] theorem arbitration_hatch_entries (s : State) :
    (s.arbitration.1).hatch.entries = s.hatch.entries := by unfold State.arbitration; (repeat' (first | split | simp only [])) <;> simp
@[simp] theorem arbitration_hatch_exchange (s : State) :
    (s.arbitration.1).hatch.exchange = s.hatch.exchange := by unfold State.arbitration; (repeat' (first | split | simp only [])) <;> simp

/-- An arbitration with its notice: the arbitration, and HATCH_GRANTED when it gave possession (R143, R155). -/
theorem arbitrate_eq (needs : List Nat) (s : State) :
    s.arbitrate needs = match s.arbitration.2 with
      | none => s.arbitration.1
      | some w => s.arbitration.1.notify needs (.hatchGranted w) := by
  unfold State.arbitrate
  rcases s.arbitration with ⟨t, _ | w⟩ <;> rfl

/-! ### `arbitrate` -/

@[simp] theorem arbitrate_pending (needs : List Nat) (s : State) :
    (s.arbitrate needs).pending = s.pending := by rw [arbitrate_eq]; split <;> simp
@[simp] theorem arbitrate_power (needs : List Nat) (s : State) :
    (s.arbitrate needs).power = s.power := by rw [arbitrate_eq]; split <;> simp
@[simp] theorem arbitrate_inputs (needs : List Nat) (s : State) :
    (s.arbitrate needs).inputs = s.inputs := by rw [arbitrate_eq]; split <;> simp
@[simp] theorem arbitrate_vault (needs : List Nat) (s : State) :
    (s.arbitrate needs).vault = s.vault := by rw [arbitrate_eq]; split <;> simp
@[simp] theorem arbitrate_climate (needs : List Nat) (s : State) :
    (s.arbitrate needs).climate = s.climate := by rw [arbitrate_eq]; split <;> simp
@[simp] theorem arbitrate_accumulators (needs : List Nat) (s : State) :
    (s.arbitrate needs).accumulators = s.accumulators := by rw [arbitrate_eq]; split <;> simp
@[simp] theorem arbitrate_custody (needs : List Nat) (s : State) :
    (s.arbitrate needs).custody = s.custody := by rw [arbitrate_eq]; split <;> simp
@[simp] theorem arbitrate_staging (needs : List Nat) (s : State) :
    (s.arbitrate needs).staging = s.staging := by rw [arbitrate_eq]; split <;> simp
@[simp] theorem arbitrate_consign (needs : List Nat) (s : State) :
    (s.arbitrate needs).consign = s.consign := by rw [arbitrate_eq]; split <;> simp
@[simp] theorem arbitrate_fire (needs : List Nat) (s : State) :
    (s.arbitrate needs).fire = s.fire := by rw [arbitrate_eq]; split <;> simp
@[simp] theorem arbitrate_store_cells (needs : List Nat) (s : State) :
    (s.arbitrate needs).store.cells = s.store.cells := by rw [arbitrate_eq]; split <;> simp
@[simp] theorem arbitrate_store_base (needs : List Nat) (s : State) :
    (s.arbitrate needs).store.base = s.store.base := by rw [arbitrate_eq]; split <;> simp
@[simp] theorem arbitrate_store_inflight (needs : List Nat) (s : State) :
    (s.arbitrate needs).store.inflight = s.store.inflight := by rw [arbitrate_eq]; split <;> simp
@[simp] theorem arbitrate_store_queue (needs : List Nat) (s : State) :
    (s.arbitrate needs).store.queue = s.store.queue := by rw [arbitrate_eq]; split <;> simp
@[simp] theorem arbitrate_store_nextTicket (needs : List Nat) (s : State) :
    (s.arbitrate needs).store.nextTicket = s.store.nextTicket := by rw [arbitrate_eq]; split <;> simp
@[simp] theorem arbitrate_store_pulses (needs : List Nat) (s : State) :
    (s.arbitrate needs).store.pulses = s.store.pulses := by rw [arbitrate_eq]; split <;> simp
@[simp] theorem arbitrate_store_followups (needs : List Nat) (s : State) :
    (s.arbitrate needs).store.followups = s.store.followups := by rw [arbitrate_eq]; split <;> simp
@[simp] theorem arbitrate_store_reported (needs : List Nat) (s : State) :
    (s.arbitrate needs).store.reported = s.store.reported := by rw [arbitrate_eq]; split <;> simp
@[simp] theorem arbitrate_store_recorded (needs : List Nat) (s : State) :
    (s.arbitrate needs).store.recorded = s.store.recorded := by rw [arbitrate_eq]; split <;> simp
@[simp] theorem arbitrate_store_flags (needs : List Nat) (s : State) :
    (s.arbitrate needs).store.flags = s.store.flags := by rw [arbitrate_eq]; split <;> simp
@[simp] theorem arbitrate_store_format (needs : List Nat) (s : State) :
    (s.arbitrate needs).store.format = s.store.format := by rw [arbitrate_eq]; split <;> simp
@[simp] theorem arbitrate_store_restart (needs : List Nat) (s : State) :
    (s.arbitrate needs).store.restart = s.store.restart := by rw [arbitrate_eq]; split <;> simp
@[simp] theorem arbitrate_hatch (needs : List Nat) (s : State) :
    (s.arbitrate needs).hatch = s.arbitration.1.hatch := by rw [arbitrate_eq]; split <;> simp
@[simp] theorem arbitrate_hatch_entries (needs : List Nat) (s : State) :
    (s.arbitrate needs).hatch.entries = s.hatch.entries := by rw [arbitrate_eq]; split <;> simp
@[simp] theorem arbitrate_hatch_exchange (needs : List Nat) (s : State) :
    (s.arbitrate needs).hatch.exchange = s.hatch.exchange := by rw [arbitrate_eq]; split <;> simp

/-! ### `holdRecord` -/

@[simp] theorem holdRecord_pending (s : State) (l : Label) :
    (s.holdRecord l).pending = s.pending := by unfold State.holdRecord; (repeat' (first | split | simp only [])) <;> simp
@[simp] theorem holdRecord_power (s : State) (l : Label) :
    (s.holdRecord l).power = s.power := by unfold State.holdRecord; (repeat' (first | split | simp only [])) <;> simp
@[simp] theorem holdRecord_inputs (s : State) (l : Label) :
    (s.holdRecord l).inputs = s.inputs := by unfold State.holdRecord; (repeat' (first | split | simp only [])) <;> simp
@[simp] theorem holdRecord_links (s : State) (l : Label) :
    (s.holdRecord l).links = s.links := by unfold State.holdRecord; (repeat' (first | split | simp only [])) <;> simp
@[simp] theorem holdRecord_vault (s : State) (l : Label) :
    (s.holdRecord l).vault = s.vault := by unfold State.holdRecord; (repeat' (first | split | simp only [])) <;> simp
@[simp] theorem holdRecord_climate (s : State) (l : Label) :
    (s.holdRecord l).climate = s.climate := by unfold State.holdRecord; (repeat' (first | split | simp only [])) <;> simp
@[simp] theorem holdRecord_accumulators (s : State) (l : Label) :
    (s.holdRecord l).accumulators = s.accumulators := by unfold State.holdRecord; (repeat' (first | split | simp only [])) <;> simp
@[simp] theorem holdRecord_staging (s : State) (l : Label) :
    (s.holdRecord l).staging = s.staging := by unfold State.holdRecord; (repeat' (first | split | simp only [])) <;> simp
@[simp] theorem holdRecord_consign (s : State) (l : Label) :
    (s.holdRecord l).consign = s.consign := by unfold State.holdRecord; (repeat' (first | split | simp only [])) <;> simp
@[simp] theorem holdRecord_hatch (s : State) (l : Label) :
    (s.holdRecord l).hatch = s.hatch := by unfold State.holdRecord; (repeat' (first | split | simp only [])) <;> simp
@[simp] theorem holdRecord_fire (s : State) (l : Label) :
    (s.holdRecord l).fire = s.fire := by unfold State.holdRecord; (repeat' (first | split | simp only [])) <;> simp
@[simp] theorem holdRecord_store_cells (s : State) (l : Label) :
    (s.holdRecord l).store.cells = s.store.cells := by unfold State.holdRecord; (repeat' (first | split | simp only [])) <;> simp
@[simp] theorem holdRecord_store_base (s : State) (l : Label) :
    (s.holdRecord l).store.base = s.store.base := by unfold State.holdRecord; (repeat' (first | split | simp only [])) <;> simp
@[simp] theorem holdRecord_store_waiting (s : State) (l : Label) :
    (s.holdRecord l).store.waiting = s.store.waiting := by unfold State.holdRecord; (repeat' (first | split | simp only [])) <;> simp
@[simp] theorem holdRecord_store_pulses (s : State) (l : Label) :
    (s.holdRecord l).store.pulses = s.store.pulses := by unfold State.holdRecord; (repeat' (first | split | simp only [])) <;> simp
@[simp] theorem holdRecord_store_followups (s : State) (l : Label) :
    (s.holdRecord l).store.followups = s.store.followups := by unfold State.holdRecord; (repeat' (first | split | simp only [])) <;> simp
@[simp] theorem holdRecord_store_reported (s : State) (l : Label) :
    (s.holdRecord l).store.reported = s.store.reported := by unfold State.holdRecord; (repeat' (first | split | simp only [])) <;> simp
@[simp] theorem holdRecord_store_recorded (s : State) (l : Label) :
    (s.holdRecord l).store.recorded = s.store.recorded := by unfold State.holdRecord; (repeat' (first | split | simp only [])) <;> simp
@[simp] theorem holdRecord_store_flags (s : State) (l : Label) :
    (s.holdRecord l).store.flags = s.store.flags := by unfold State.holdRecord; (repeat' (first | split | simp only [])) <;> simp
@[simp] theorem holdRecord_store_format (s : State) (l : Label) :
    (s.holdRecord l).store.format = s.store.format := by unfold State.holdRecord; (repeat' (first | split | simp only [])) <;> simp
@[simp] theorem holdRecord_store_restart (s : State) (l : Label) :
    (s.holdRecord l).store.restart = s.store.restart := by unfold State.holdRecord; (repeat' (first | split | simp only [])) <;> simp

/-! ### `holdEntries` -/

@[simp] theorem holdEntries_pending (s : State) : s.holdEntries.pending = s.pending := 
  (foldl_keeps State.holdRecord (·.pending) (by simp) _ _).trans (by simp)
@[simp] theorem holdEntries_power (s : State) : s.holdEntries.power = s.power := 
  (foldl_keeps State.holdRecord (·.power) (by simp) _ _).trans (by simp)
@[simp] theorem holdEntries_inputs (s : State) : s.holdEntries.inputs = s.inputs := 
  (foldl_keeps State.holdRecord (·.inputs) (by simp) _ _).trans (by simp)
@[simp] theorem holdEntries_links (s : State) : s.holdEntries.links = s.links := 
  (foldl_keeps State.holdRecord (·.links) (by simp) _ _).trans (by simp)
@[simp] theorem holdEntries_vault (s : State) : s.holdEntries.vault = s.vault := 
  (foldl_keeps State.holdRecord (·.vault) (by simp) _ _).trans (by simp)
@[simp] theorem holdEntries_climate (s : State) : s.holdEntries.climate = s.climate := 
  (foldl_keeps State.holdRecord (·.climate) (by simp) _ _).trans (by simp)
@[simp] theorem holdEntries_accumulators (s : State) : s.holdEntries.accumulators = s.accumulators := 
  (foldl_keeps State.holdRecord (·.accumulators) (by simp) _ _).trans (by simp)
@[simp] theorem holdEntries_staging (s : State) : s.holdEntries.staging = s.staging := 
  (foldl_keeps State.holdRecord (·.staging) (by simp) _ _).trans (by simp)
@[simp] theorem holdEntries_consign (s : State) : s.holdEntries.consign = s.consign := 
  (foldl_keeps State.holdRecord (·.consign) (by simp) _ _).trans (by simp)
@[simp] theorem holdEntries_fire (s : State) : s.holdEntries.fire = s.fire := 
  (foldl_keeps State.holdRecord (·.fire) (by simp) _ _).trans (by simp)
@[simp] theorem holdEntries_store_cells (s : State) : s.holdEntries.store.cells = s.store.cells := 
  (foldl_keeps State.holdRecord (·.store.cells) (by simp) _ _).trans (by simp)
@[simp] theorem holdEntries_store_base (s : State) : s.holdEntries.store.base = s.store.base := 
  (foldl_keeps State.holdRecord (·.store.base) (by simp) _ _).trans (by simp)
@[simp] theorem holdEntries_store_waiting (s : State) : s.holdEntries.store.waiting = s.store.waiting := 
  (foldl_keeps State.holdRecord (·.store.waiting) (by simp) _ _).trans (by simp)
@[simp] theorem holdEntries_store_pulses (s : State) : s.holdEntries.store.pulses = s.store.pulses := 
  (foldl_keeps State.holdRecord (·.store.pulses) (by simp) _ _).trans (by simp)
@[simp] theorem holdEntries_store_followups (s : State) : s.holdEntries.store.followups = s.store.followups := 
  (foldl_keeps State.holdRecord (·.store.followups) (by simp) _ _).trans (by simp)
@[simp] theorem holdEntries_store_reported (s : State) : s.holdEntries.store.reported = s.store.reported := 
  (foldl_keeps State.holdRecord (·.store.reported) (by simp) _ _).trans (by simp)
@[simp] theorem holdEntries_store_recorded (s : State) : s.holdEntries.store.recorded = s.store.recorded := 
  (foldl_keeps State.holdRecord (·.store.recorded) (by simp) _ _).trans (by simp)
@[simp] theorem holdEntries_store_flags (s : State) : s.holdEntries.store.flags = s.store.flags := 
  (foldl_keeps State.holdRecord (·.store.flags) (by simp) _ _).trans (by simp)
@[simp] theorem holdEntries_store_format (s : State) : s.holdEntries.store.format = s.store.format := 
  (foldl_keeps State.holdRecord (·.store.format) (by simp) _ _).trans (by simp)
@[simp] theorem holdEntries_store_restart (s : State) : s.holdEntries.store.restart = s.store.restart := 
  (foldl_keeps State.holdRecord (·.store.restart) (by simp) _ _).trans (by simp)
@[simp] theorem holdEntries_hatch (s : State) :
    s.holdEntries.hatch = { s.hatch with entries := s.hatch.entries.map fun e => { e with fireHeld := true } } :=
  (foldl_keeps State.holdRecord (·.hatch) (by simp) _ _).trans (by simp)

/-! ### `endExchange` -/

@[simp] theorem endExchange_pending (needs : List Nat) (x : Exchange) (b : Bool) (s : State) :
    ((s.endExchange needs x b).2).pending = s.pending := by unfold State.endExchange; (repeat' (first | split | simp only [])) <;> simp
@[simp] theorem endExchange_power (needs : List Nat) (x : Exchange) (b : Bool) (s : State) :
    ((s.endExchange needs x b).2).power = s.power := by unfold State.endExchange; (repeat' (first | split | simp only [])) <;> simp
@[simp] theorem endExchange_inputs (needs : List Nat) (x : Exchange) (b : Bool) (s : State) :
    ((s.endExchange needs x b).2).inputs = s.inputs := by unfold State.endExchange; (repeat' (first | split | simp only [])) <;> simp
@[simp] theorem endExchange_vault (needs : List Nat) (x : Exchange) (b : Bool) (s : State) :
    ((s.endExchange needs x b).2).vault = s.vault := by unfold State.endExchange; (repeat' (first | split | simp only [])) <;> simp
@[simp] theorem endExchange_climate (needs : List Nat) (x : Exchange) (b : Bool) (s : State) :
    ((s.endExchange needs x b).2).climate = s.climate := by unfold State.endExchange; (repeat' (first | split | simp only [])) <;> simp
@[simp] theorem endExchange_accumulators (needs : List Nat) (x : Exchange) (b : Bool) (s : State) :
    ((s.endExchange needs x b).2).accumulators = s.accumulators := by unfold State.endExchange; (repeat' (first | split | simp only [])) <;> simp
@[simp] theorem endExchange_staging (needs : List Nat) (x : Exchange) (b : Bool) (s : State) :
    ((s.endExchange needs x b).2).staging = s.staging := by unfold State.endExchange; (repeat' (first | split | simp only [])) <;> simp
@[simp] theorem endExchange_fire (needs : List Nat) (x : Exchange) (b : Bool) (s : State) :
    ((s.endExchange needs x b).2).fire = s.fire := by unfold State.endExchange; (repeat' (first | split | simp only [])) <;> simp
@[simp] theorem endExchange_store_cells (needs : List Nat) (x : Exchange) (b : Bool) (s : State) :
    ((s.endExchange needs x b).2).store.cells = s.store.cells := by unfold State.endExchange; (repeat' (first | split | simp only [])) <;> simp
@[simp] theorem endExchange_store_base (needs : List Nat) (x : Exchange) (b : Bool) (s : State) :
    ((s.endExchange needs x b).2).store.base = s.store.base := by unfold State.endExchange; (repeat' (first | split | simp only [])) <;> simp
@[simp] theorem endExchange_store_pulses (needs : List Nat) (x : Exchange) (b : Bool) (s : State) :
    ((s.endExchange needs x b).2).store.pulses = s.store.pulses := by unfold State.endExchange; (repeat' (first | split | simp only [])) <;> simp
@[simp] theorem endExchange_store_followups (needs : List Nat) (x : Exchange) (b : Bool) (s : State) :
    ((s.endExchange needs x b).2).store.followups = s.store.followups := by unfold State.endExchange; (repeat' (first | split | simp only [])) <;> simp
@[simp] theorem endExchange_store_reported (needs : List Nat) (x : Exchange) (b : Bool) (s : State) :
    ((s.endExchange needs x b).2).store.reported = s.store.reported := by unfold State.endExchange; (repeat' (first | split | simp only [])) <;> simp
@[simp] theorem endExchange_store_recorded (needs : List Nat) (x : Exchange) (b : Bool) (s : State) :
    ((s.endExchange needs x b).2).store.recorded = s.store.recorded := by unfold State.endExchange; (repeat' (first | split | simp only [])) <;> simp
@[simp] theorem endExchange_store_flags (needs : List Nat) (x : Exchange) (b : Bool) (s : State) :
    ((s.endExchange needs x b).2).store.flags = s.store.flags := by unfold State.endExchange; (repeat' (first | split | simp only [])) <;> simp
@[simp] theorem endExchange_store_format (needs : List Nat) (x : Exchange) (b : Bool) (s : State) :
    ((s.endExchange needs x b).2).store.format = s.store.format := by unfold State.endExchange; (repeat' (first | split | simp only [])) <;> simp
@[simp] theorem endExchange_store_restart (needs : List Nat) (x : Exchange) (b : Bool) (s : State) :
    ((s.endExchange needs x b).2).store.restart = s.store.restart := by unfold State.endExchange; (repeat' (first | split | simp only [])) <;> simp
@[simp] theorem endExchange_hatch_inner (needs : List Nat) (x : Exchange) (b : Bool) (s : State) :
    ((s.endExchange needs x b).2).hatch.inner = s.hatch.inner := by unfold State.endExchange; (repeat' (first | split | simp only [])) <;> simp
@[simp] theorem endExchange_hatch_outer (needs : List Nat) (x : Exchange) (b : Bool) (s : State) :
    ((s.endExchange needs x b).2).hatch.outer = s.hatch.outer := by unfold State.endExchange; (repeat' (first | split | simp only [])) <;> simp
@[simp] theorem endExchange_hatch_arbiter (needs : List Nat) (x : Exchange) (b : Bool) (s : State) :
    ((s.endExchange needs x b).2).hatch.arbiter = s.hatch.arbiter := by unfold State.endExchange; (repeat' (first | split | simp only [])) <;> simp
@[simp] theorem endExchange_hatch_exchange (needs : List Nat) (x : Exchange) (b : Bool) (s : State) :
    ((s.endExchange needs x b).2).hatch.exchange = none := by unfold State.endExchange; (repeat' (first | split | simp only [])) <;> simp

/-! ### `outerSecured` -/

@[simp] theorem outerSecured_pending (needs : List Nat) (b : Bool) (s : State) :
    ((s.outerSecured needs b).2).pending = s.pending := by unfold State.outerSecured; (repeat' (first | split | simp only [])) <;> simp
@[simp] theorem outerSecured_power (needs : List Nat) (b : Bool) (s : State) :
    ((s.outerSecured needs b).2).power = s.power := by unfold State.outerSecured; (repeat' (first | split | simp only [])) <;> simp
@[simp] theorem outerSecured_inputs (needs : List Nat) (b : Bool) (s : State) :
    ((s.outerSecured needs b).2).inputs = s.inputs := by unfold State.outerSecured; (repeat' (first | split | simp only [])) <;> simp
@[simp] theorem outerSecured_vault (needs : List Nat) (b : Bool) (s : State) :
    ((s.outerSecured needs b).2).vault = s.vault := by unfold State.outerSecured; (repeat' (first | split | simp only [])) <;> simp
@[simp] theorem outerSecured_climate (needs : List Nat) (b : Bool) (s : State) :
    ((s.outerSecured needs b).2).climate = s.climate := by unfold State.outerSecured; (repeat' (first | split | simp only [])) <;> simp
@[simp] theorem outerSecured_accumulators (needs : List Nat) (b : Bool) (s : State) :
    ((s.outerSecured needs b).2).accumulators = s.accumulators := by unfold State.outerSecured; (repeat' (first | split | simp only [])) <;> simp
@[simp] theorem outerSecured_staging (needs : List Nat) (b : Bool) (s : State) :
    ((s.outerSecured needs b).2).staging = s.staging := by unfold State.outerSecured; (repeat' (first | split | simp only [])) <;> simp
@[simp] theorem outerSecured_fire (needs : List Nat) (b : Bool) (s : State) :
    ((s.outerSecured needs b).2).fire = s.fire := by unfold State.outerSecured; (repeat' (first | split | simp only [])) <;> simp
@[simp] theorem outerSecured_store_cells (needs : List Nat) (b : Bool) (s : State) :
    ((s.outerSecured needs b).2).store.cells = s.store.cells := by unfold State.outerSecured; (repeat' (first | split | simp only [])) <;> simp
@[simp] theorem outerSecured_store_base (needs : List Nat) (b : Bool) (s : State) :
    ((s.outerSecured needs b).2).store.base = s.store.base := by unfold State.outerSecured; (repeat' (first | split | simp only [])) <;> simp
@[simp] theorem outerSecured_store_pulses (needs : List Nat) (b : Bool) (s : State) :
    ((s.outerSecured needs b).2).store.pulses = s.store.pulses := by unfold State.outerSecured; (repeat' (first | split | simp only [])) <;> simp
@[simp] theorem outerSecured_store_followups (needs : List Nat) (b : Bool) (s : State) :
    ((s.outerSecured needs b).2).store.followups = s.store.followups := by unfold State.outerSecured; (repeat' (first | split | simp only [])) <;> simp
@[simp] theorem outerSecured_store_reported (needs : List Nat) (b : Bool) (s : State) :
    ((s.outerSecured needs b).2).store.reported = s.store.reported := by unfold State.outerSecured; (repeat' (first | split | simp only [])) <;> simp
@[simp] theorem outerSecured_store_recorded (needs : List Nat) (b : Bool) (s : State) :
    ((s.outerSecured needs b).2).store.recorded = s.store.recorded := by unfold State.outerSecured; (repeat' (first | split | simp only [])) <;> simp
@[simp] theorem outerSecured_store_flags (needs : List Nat) (b : Bool) (s : State) :
    ((s.outerSecured needs b).2).store.flags = s.store.flags := by unfold State.outerSecured; (repeat' (first | split | simp only [])) <;> simp
@[simp] theorem outerSecured_store_format (needs : List Nat) (b : Bool) (s : State) :
    ((s.outerSecured needs b).2).store.format = s.store.format := by unfold State.outerSecured; (repeat' (first | split | simp only [])) <;> simp
@[simp] theorem outerSecured_store_restart (needs : List Nat) (b : Bool) (s : State) :
    ((s.outerSecured needs b).2).store.restart = s.store.restart := by unfold State.outerSecured; (repeat' (first | split | simp only [])) <;> simp
@[simp] theorem outerSecured_hatch_inner (needs : List Nat) (b : Bool) (s : State) :
    ((s.outerSecured needs b).2).hatch.inner = s.hatch.inner := by unfold State.outerSecured; (repeat' (first | split | simp only [])) <;> simp
@[simp] theorem outerSecured_hatch_outer (needs : List Nat) (b : Bool) (s : State) :
    ((s.outerSecured needs b).2).hatch.outer = s.hatch.outer := by unfold State.outerSecured; (repeat' (first | split | simp only [])) <;> simp
@[simp] theorem outerSecured_hatch_arbiter (needs : List Nat) (b : Bool) (s : State) :
    ((s.outerSecured needs b).2).hatch.arbiter = { s.hatch.arbiter with revoked := false } := by unfold State.outerSecured; (repeat' (first | split | simp only [])) <;> simp

/-! ### `endPossession` -/

@[simp] theorem endPossession_pending (needs : List Nat) (d : Side) (s : State) :
    ((s.endPossession needs d).2).pending = s.pending := by cases d <;> simp [State.endPossession]
@[simp] theorem endPossession_power (needs : List Nat) (d : Side) (s : State) :
    ((s.endPossession needs d).2).power = s.power := by cases d <;> simp [State.endPossession]
@[simp] theorem endPossession_inputs (needs : List Nat) (d : Side) (s : State) :
    ((s.endPossession needs d).2).inputs = s.inputs := by cases d <;> simp [State.endPossession]
@[simp] theorem endPossession_vault (needs : List Nat) (d : Side) (s : State) :
    ((s.endPossession needs d).2).vault = s.vault := by cases d <;> simp [State.endPossession]
@[simp] theorem endPossession_climate (needs : List Nat) (d : Side) (s : State) :
    ((s.endPossession needs d).2).climate = s.climate := by cases d <;> simp [State.endPossession]
@[simp] theorem endPossession_accumulators (needs : List Nat) (d : Side) (s : State) :
    ((s.endPossession needs d).2).accumulators = s.accumulators := by cases d <;> simp [State.endPossession]
@[simp] theorem endPossession_staging (needs : List Nat) (d : Side) (s : State) :
    ((s.endPossession needs d).2).staging = s.staging := by cases d <;> simp [State.endPossession]
@[simp] theorem endPossession_fire (needs : List Nat) (d : Side) (s : State) :
    ((s.endPossession needs d).2).fire = s.fire := by cases d <;> simp [State.endPossession]
@[simp] theorem endPossession_store_cells (needs : List Nat) (d : Side) (s : State) :
    ((s.endPossession needs d).2).store.cells = s.store.cells := by cases d <;> simp [State.endPossession]
@[simp] theorem endPossession_store_base (needs : List Nat) (d : Side) (s : State) :
    ((s.endPossession needs d).2).store.base = s.store.base := by cases d <;> simp [State.endPossession]
@[simp] theorem endPossession_store_pulses (needs : List Nat) (d : Side) (s : State) :
    ((s.endPossession needs d).2).store.pulses = s.store.pulses := by cases d <;> simp [State.endPossession]
@[simp] theorem endPossession_store_followups (needs : List Nat) (d : Side) (s : State) :
    ((s.endPossession needs d).2).store.followups = s.store.followups := by cases d <;> simp [State.endPossession]
@[simp] theorem endPossession_store_reported (needs : List Nat) (d : Side) (s : State) :
    ((s.endPossession needs d).2).store.reported = s.store.reported := by cases d <;> simp [State.endPossession]
@[simp] theorem endPossession_store_recorded (needs : List Nat) (d : Side) (s : State) :
    ((s.endPossession needs d).2).store.recorded = s.store.recorded := by cases d <;> simp [State.endPossession]
@[simp] theorem endPossession_store_flags (needs : List Nat) (d : Side) (s : State) :
    ((s.endPossession needs d).2).store.flags = s.store.flags := by cases d <;> simp [State.endPossession]
@[simp] theorem endPossession_store_format (needs : List Nat) (d : Side) (s : State) :
    ((s.endPossession needs d).2).store.format = s.store.format := by cases d <;> simp [State.endPossession]
@[simp] theorem endPossession_store_restart (needs : List Nat) (d : Side) (s : State) :
    ((s.endPossession needs d).2).store.restart = s.store.restart := by cases d <;> simp [State.endPossession]

/-! ### `notifyRevoked` -/

@[simp] theorem notifyRevoked_pending (a : Arbiter) (d : Side) (s : State) :
    (s.notifyRevoked a d).pending = s.pending := by unfold State.notifyRevoked; (repeat' (first | split | simp only [])) <;> simp
@[simp] theorem notifyRevoked_power (a : Arbiter) (d : Side) (s : State) :
    (s.notifyRevoked a d).power = s.power := by unfold State.notifyRevoked; (repeat' (first | split | simp only [])) <;> simp
@[simp] theorem notifyRevoked_inputs (a : Arbiter) (d : Side) (s : State) :
    (s.notifyRevoked a d).inputs = s.inputs := by unfold State.notifyRevoked; (repeat' (first | split | simp only [])) <;> simp
@[simp] theorem notifyRevoked_vault (a : Arbiter) (d : Side) (s : State) :
    (s.notifyRevoked a d).vault = s.vault := by unfold State.notifyRevoked; (repeat' (first | split | simp only [])) <;> simp
@[simp] theorem notifyRevoked_climate (a : Arbiter) (d : Side) (s : State) :
    (s.notifyRevoked a d).climate = s.climate := by unfold State.notifyRevoked; (repeat' (first | split | simp only [])) <;> simp
@[simp] theorem notifyRevoked_accumulators (a : Arbiter) (d : Side) (s : State) :
    (s.notifyRevoked a d).accumulators = s.accumulators := by unfold State.notifyRevoked; (repeat' (first | split | simp only [])) <;> simp
@[simp] theorem notifyRevoked_custody (a : Arbiter) (d : Side) (s : State) :
    (s.notifyRevoked a d).custody = s.custody := by unfold State.notifyRevoked; (repeat' (first | split | simp only [])) <;> simp
@[simp] theorem notifyRevoked_staging (a : Arbiter) (d : Side) (s : State) :
    (s.notifyRevoked a d).staging = s.staging := by unfold State.notifyRevoked; (repeat' (first | split | simp only [])) <;> simp
@[simp] theorem notifyRevoked_consign (a : Arbiter) (d : Side) (s : State) :
    (s.notifyRevoked a d).consign = s.consign := by unfold State.notifyRevoked; (repeat' (first | split | simp only [])) <;> simp
@[simp] theorem notifyRevoked_hatch (a : Arbiter) (d : Side) (s : State) :
    (s.notifyRevoked a d).hatch = s.hatch := by unfold State.notifyRevoked; (repeat' (first | split | simp only [])) <;> simp
@[simp] theorem notifyRevoked_fire (a : Arbiter) (d : Side) (s : State) :
    (s.notifyRevoked a d).fire = s.fire := by unfold State.notifyRevoked; (repeat' (first | split | simp only [])) <;> simp
@[simp] theorem notifyRevoked_store_cells (a : Arbiter) (d : Side) (s : State) :
    (s.notifyRevoked a d).store.cells = s.store.cells := by unfold State.notifyRevoked; (repeat' (first | split | simp only [])) <;> simp
@[simp] theorem notifyRevoked_store_base (a : Arbiter) (d : Side) (s : State) :
    (s.notifyRevoked a d).store.base = s.store.base := by unfold State.notifyRevoked; (repeat' (first | split | simp only [])) <;> simp
@[simp] theorem notifyRevoked_store_inflight (a : Arbiter) (d : Side) (s : State) :
    (s.notifyRevoked a d).store.inflight = s.store.inflight := by unfold State.notifyRevoked; (repeat' (first | split | simp only [])) <;> simp
@[simp] theorem notifyRevoked_store_queue (a : Arbiter) (d : Side) (s : State) :
    (s.notifyRevoked a d).store.queue = s.store.queue := by unfold State.notifyRevoked; (repeat' (first | split | simp only [])) <;> simp
@[simp] theorem notifyRevoked_store_nextTicket (a : Arbiter) (d : Side) (s : State) :
    (s.notifyRevoked a d).store.nextTicket = s.store.nextTicket := by unfold State.notifyRevoked; (repeat' (first | split | simp only [])) <;> simp
@[simp] theorem notifyRevoked_store_pulses (a : Arbiter) (d : Side) (s : State) :
    (s.notifyRevoked a d).store.pulses = s.store.pulses := by unfold State.notifyRevoked; (repeat' (first | split | simp only [])) <;> simp
@[simp] theorem notifyRevoked_store_followups (a : Arbiter) (d : Side) (s : State) :
    (s.notifyRevoked a d).store.followups = s.store.followups := by unfold State.notifyRevoked; (repeat' (first | split | simp only [])) <;> simp
@[simp] theorem notifyRevoked_store_reported (a : Arbiter) (d : Side) (s : State) :
    (s.notifyRevoked a d).store.reported = s.store.reported := by unfold State.notifyRevoked; (repeat' (first | split | simp only [])) <;> simp
@[simp] theorem notifyRevoked_store_recorded (a : Arbiter) (d : Side) (s : State) :
    (s.notifyRevoked a d).store.recorded = s.store.recorded := by unfold State.notifyRevoked; (repeat' (first | split | simp only [])) <;> simp
@[simp] theorem notifyRevoked_store_flags (a : Arbiter) (d : Side) (s : State) :
    (s.notifyRevoked a d).store.flags = s.store.flags := by unfold State.notifyRevoked; (repeat' (first | split | simp only [])) <;> simp
@[simp] theorem notifyRevoked_store_format (a : Arbiter) (d : Side) (s : State) :
    (s.notifyRevoked a d).store.format = s.store.format := by unfold State.notifyRevoked; (repeat' (first | split | simp only [])) <;> simp
@[simp] theorem notifyRevoked_store_restart (a : Arbiter) (d : Side) (s : State) :
    (s.notifyRevoked a d).store.restart = s.store.restart := by unfold State.notifyRevoked; (repeat' (first | split | simp only [])) <;> simp

/-! ### `revoke` -/

@[simp] theorem revoke_pending (s : State) :
    (s.revoke.2).pending = s.pending := by unfold State.revoke; (repeat' (first | split | simp only [])) <;> simp
@[simp] theorem revoke_power (s : State) :
    (s.revoke.2).power = s.power := by unfold State.revoke; (repeat' (first | split | simp only [])) <;> simp
@[simp] theorem revoke_inputs (s : State) :
    (s.revoke.2).inputs = s.inputs := by unfold State.revoke; (repeat' (first | split | simp only [])) <;> simp
@[simp] theorem revoke_vault (s : State) :
    (s.revoke.2).vault = s.vault := by unfold State.revoke; (repeat' (first | split | simp only [])) <;> simp
@[simp] theorem revoke_climate (s : State) :
    (s.revoke.2).climate = s.climate := by unfold State.revoke; (repeat' (first | split | simp only [])) <;> simp
@[simp] theorem revoke_accumulators (s : State) :
    (s.revoke.2).accumulators = s.accumulators := by unfold State.revoke; (repeat' (first | split | simp only [])) <;> simp
@[simp] theorem revoke_staging (s : State) :
    (s.revoke.2).staging = s.staging := by unfold State.revoke; (repeat' (first | split | simp only [])) <;> simp
@[simp] theorem revoke_fire (s : State) :
    (s.revoke.2).fire = s.fire := by unfold State.revoke; (repeat' (first | split | simp only [])) <;> simp
@[simp] theorem revoke_store_cells (s : State) :
    (s.revoke.2).store.cells = s.store.cells := by unfold State.revoke; (repeat' (first | split | simp only [])) <;> simp
@[simp] theorem revoke_store_base (s : State) :
    (s.revoke.2).store.base = s.store.base := by unfold State.revoke; (repeat' (first | split | simp only [])) <;> simp
@[simp] theorem revoke_store_pulses (s : State) :
    (s.revoke.2).store.pulses = s.store.pulses := by unfold State.revoke; (repeat' (first | split | simp only [])) <;> simp
@[simp] theorem revoke_store_followups (s : State) :
    (s.revoke.2).store.followups = s.store.followups := by unfold State.revoke; (repeat' (first | split | simp only [])) <;> simp
@[simp] theorem revoke_store_reported (s : State) :
    (s.revoke.2).store.reported = s.store.reported := by unfold State.revoke; (repeat' (first | split | simp only [])) <;> simp
@[simp] theorem revoke_store_recorded (s : State) :
    (s.revoke.2).store.recorded = s.store.recorded := by unfold State.revoke; (repeat' (first | split | simp only [])) <;> simp
@[simp] theorem revoke_store_flags (s : State) :
    (s.revoke.2).store.flags = s.store.flags := by unfold State.revoke; (repeat' (first | split | simp only [])) <;> simp
@[simp] theorem revoke_store_format (s : State) :
    (s.revoke.2).store.format = s.store.format := by unfold State.revoke; (repeat' (first | split | simp only [])) <;> simp
@[simp] theorem revoke_store_restart (s : State) :
    (s.revoke.2).store.restart = s.store.restart := by unfold State.revoke; (repeat' (first | split | simp only [])) <;> simp

/-- What the hatch unit does at a change of fire state: it revokes on becoming fire-blocked, and arbitrates (R143, R147). -/
theorem hatchFireChange_eq (b : Bool) (s : State) :
    s.hatchFireChange b = if !b && s.fire.blocked then s.revoke.2.arbitrate s.revoke.1 else s.arbitrate [] := by
  unfold State.hatchFireChange; split <;> split <;> simp_all

/-! ### `hatchFireChange` -/

@[simp] theorem hatchFireChange_pending (b : Bool) (s : State) :
    (s.hatchFireChange b).pending = s.pending := by rw [hatchFireChange_eq]; split <;> simp
@[simp] theorem hatchFireChange_power (b : Bool) (s : State) :
    (s.hatchFireChange b).power = s.power := by rw [hatchFireChange_eq]; split <;> simp
@[simp] theorem hatchFireChange_inputs (b : Bool) (s : State) :
    (s.hatchFireChange b).inputs = s.inputs := by rw [hatchFireChange_eq]; split <;> simp
@[simp] theorem hatchFireChange_vault (b : Bool) (s : State) :
    (s.hatchFireChange b).vault = s.vault := by rw [hatchFireChange_eq]; split <;> simp
@[simp] theorem hatchFireChange_climate (b : Bool) (s : State) :
    (s.hatchFireChange b).climate = s.climate := by rw [hatchFireChange_eq]; split <;> simp
@[simp] theorem hatchFireChange_accumulators (b : Bool) (s : State) :
    (s.hatchFireChange b).accumulators = s.accumulators := by rw [hatchFireChange_eq]; split <;> simp
@[simp] theorem hatchFireChange_staging (b : Bool) (s : State) :
    (s.hatchFireChange b).staging = s.staging := by rw [hatchFireChange_eq]; split <;> simp
@[simp] theorem hatchFireChange_fire (b : Bool) (s : State) :
    (s.hatchFireChange b).fire = s.fire := by rw [hatchFireChange_eq]; split <;> simp
@[simp] theorem hatchFireChange_store_cells (b : Bool) (s : State) :
    (s.hatchFireChange b).store.cells = s.store.cells := by rw [hatchFireChange_eq]; split <;> simp
@[simp] theorem hatchFireChange_store_base (b : Bool) (s : State) :
    (s.hatchFireChange b).store.base = s.store.base := by rw [hatchFireChange_eq]; split <;> simp
@[simp] theorem hatchFireChange_store_pulses (b : Bool) (s : State) :
    (s.hatchFireChange b).store.pulses = s.store.pulses := by rw [hatchFireChange_eq]; split <;> simp
@[simp] theorem hatchFireChange_store_followups (b : Bool) (s : State) :
    (s.hatchFireChange b).store.followups = s.store.followups := by rw [hatchFireChange_eq]; split <;> simp
@[simp] theorem hatchFireChange_store_reported (b : Bool) (s : State) :
    (s.hatchFireChange b).store.reported = s.store.reported := by rw [hatchFireChange_eq]; split <;> simp
@[simp] theorem hatchFireChange_store_recorded (b : Bool) (s : State) :
    (s.hatchFireChange b).store.recorded = s.store.recorded := by rw [hatchFireChange_eq]; split <;> simp
@[simp] theorem hatchFireChange_store_flags (b : Bool) (s : State) :
    (s.hatchFireChange b).store.flags = s.store.flags := by rw [hatchFireChange_eq]; split <;> simp
@[simp] theorem hatchFireChange_store_format (b : Bool) (s : State) :
    (s.hatchFireChange b).store.format = s.store.format := by rw [hatchFireChange_eq]; split <;> simp
@[simp] theorem hatchFireChange_store_restart (b : Bool) (s : State) :
    (s.hatchFireChange b).store.restart = s.store.restart := by rw [hatchFireChange_eq]; split <;> simp

/-! ### `climateFireChange` -/

@[simp] theorem climateFireChange_pending (a : Area) (old : FireState) (s : State) :
    (s.climateFireChange a old).pending = s.pending := by unfold State.climateFireChange; (repeat' (first | split | simp only [])) <;> simp
@[simp] theorem climateFireChange_power (a : Area) (old : FireState) (s : State) :
    (s.climateFireChange a old).power = s.power := by unfold State.climateFireChange; (repeat' (first | split | simp only [])) <;> simp
@[simp] theorem climateFireChange_inputs (a : Area) (old : FireState) (s : State) :
    (s.climateFireChange a old).inputs = s.inputs := by unfold State.climateFireChange; (repeat' (first | split | simp only [])) <;> simp
@[simp] theorem climateFireChange_links (a : Area) (old : FireState) (s : State) :
    (s.climateFireChange a old).links = s.links := by unfold State.climateFireChange; (repeat' (first | split | simp only [])) <;> simp
@[simp] theorem climateFireChange_vault (a : Area) (old : FireState) (s : State) :
    (s.climateFireChange a old).vault = s.vault := by unfold State.climateFireChange; (repeat' (first | split | simp only [])) <;> simp
@[simp] theorem climateFireChange_accumulators (a : Area) (old : FireState) (s : State) :
    (s.climateFireChange a old).accumulators = s.accumulators := by unfold State.climateFireChange; (repeat' (first | split | simp only [])) <;> simp
@[simp] theorem climateFireChange_custody (a : Area) (old : FireState) (s : State) :
    (s.climateFireChange a old).custody = s.custody := by unfold State.climateFireChange; (repeat' (first | split | simp only [])) <;> simp
@[simp] theorem climateFireChange_staging (a : Area) (old : FireState) (s : State) :
    (s.climateFireChange a old).staging = s.staging := by unfold State.climateFireChange; (repeat' (first | split | simp only [])) <;> simp
@[simp] theorem climateFireChange_consign (a : Area) (old : FireState) (s : State) :
    (s.climateFireChange a old).consign = s.consign := by unfold State.climateFireChange; (repeat' (first | split | simp only [])) <;> simp
@[simp] theorem climateFireChange_hatch (a : Area) (old : FireState) (s : State) :
    (s.climateFireChange a old).hatch = s.hatch := by unfold State.climateFireChange; (repeat' (first | split | simp only [])) <;> simp
@[simp] theorem climateFireChange_fire (a : Area) (old : FireState) (s : State) :
    (s.climateFireChange a old).fire = s.fire := by unfold State.climateFireChange; (repeat' (first | split | simp only [])) <;> simp
@[simp] theorem climateFireChange_store (a : Area) (old : FireState) (s : State) :
    (s.climateFireChange a old).store = s.store := by unfold State.climateFireChange; (repeat' (first | split | simp only [])) <;> simp
@[simp] theorem climateFireChange_climate_channels (a : Area) (old : FireState) (s : State) :
    (s.climateFireChange a old).climate.channels = s.climate.channels := by unfold State.climateFireChange; (repeat' (first | split | simp only [])) <;> simp
@[simp] theorem climateFireChange_climate_settings (a : Area) (old : FireState) (s : State) :
    (s.climateFireChange a old).climate.settings = s.climate.settings := by unfold State.climateFireChange; (repeat' (first | split | simp only [])) <;> simp
@[simp] theorem climateFireChange_climate_sweep (a : Area) (old : FireState) (s : State) :
    (s.climateFireChange a old).climate.sweep = s.climate.sweep := by unfold State.climateFireChange; (repeat' (first | split | simp only [])) <;> simp
@[simp] theorem climateFireChange_climate_dropped (a : Area) (old : FireState) (s : State) :
    (s.climateFireChange a old).climate.dropped = s.climate.dropped := by unfold State.climateFireChange; (repeat' (first | split | simp only [])) <;> simp

/-! ### `announceFire` -/

@[simp] theorem announceFire_pending (a : Area) (old : FireState) (b : Bool) (s : State) :
    (s.announceFire a old b).pending = s.pending := by simp [State.announceFire]
@[simp] theorem announceFire_power (a : Area) (old : FireState) (b : Bool) (s : State) :
    (s.announceFire a old b).power = s.power := by simp [State.announceFire]
@[simp] theorem announceFire_inputs (a : Area) (old : FireState) (b : Bool) (s : State) :
    (s.announceFire a old b).inputs = s.inputs := by simp [State.announceFire]
@[simp] theorem announceFire_vault (a : Area) (old : FireState) (b : Bool) (s : State) :
    (s.announceFire a old b).vault = s.vault := by simp [State.announceFire]
@[simp] theorem announceFire_accumulators (a : Area) (old : FireState) (b : Bool) (s : State) :
    (s.announceFire a old b).accumulators = s.accumulators := by simp [State.announceFire]
@[simp] theorem announceFire_store_cells (a : Area) (old : FireState) (b : Bool) (s : State) :
    (s.announceFire a old b).store.cells = s.store.cells := by simp [State.announceFire]
@[simp] theorem announceFire_store_base (a : Area) (old : FireState) (b : Bool) (s : State) :
    (s.announceFire a old b).store.base = s.store.base := by simp [State.announceFire]
@[simp] theorem announceFire_store_pulses (a : Area) (old : FireState) (b : Bool) (s : State) :
    (s.announceFire a old b).store.pulses = s.store.pulses := by simp [State.announceFire]
@[simp] theorem announceFire_store_followups (a : Area) (old : FireState) (b : Bool) (s : State) :
    (s.announceFire a old b).store.followups = s.store.followups := by simp [State.announceFire]
@[simp] theorem announceFire_store_reported (a : Area) (old : FireState) (b : Bool) (s : State) :
    (s.announceFire a old b).store.reported = s.store.reported := by simp [State.announceFire]
@[simp] theorem announceFire_store_recorded (a : Area) (old : FireState) (b : Bool) (s : State) :
    (s.announceFire a old b).store.recorded = s.store.recorded := by simp [State.announceFire]
@[simp] theorem announceFire_store_flags (a : Area) (old : FireState) (b : Bool) (s : State) :
    (s.announceFire a old b).store.flags = s.store.flags := by simp [State.announceFire]
@[simp] theorem announceFire_store_format (a : Area) (old : FireState) (b : Bool) (s : State) :
    (s.announceFire a old b).store.format = s.store.format := by simp [State.announceFire]
@[simp] theorem announceFire_store_restart (a : Area) (old : FireState) (b : Bool) (s : State) :
    (s.announceFire a old b).store.restart = s.store.restart := by simp [State.announceFire]
@[simp] theorem announceFire_fire_areas (a : Area) (old : FireState) (b : Bool) (s : State) :
    (s.announceFire a old b).fire.areas = s.fire.areas := by simp [State.announceFire]
@[simp] theorem announceFire_fire_detectors (a : Area) (old : FireState) (b : Bool) (s : State) :
    (s.announceFire a old b).fire.detectors = s.fire.detectors := by simp [State.announceFire]
@[simp] theorem announceFire_fire_abort (a : Area) (old : FireState) (b : Bool) (s : State) :
    (s.announceFire a old b).fire.abort = s.fire.abort := by simp [State.announceFire]
@[simp] theorem announceFire_fire_trouble (a : Area) (old : FireState) (b : Bool) (s : State) :
    (s.announceFire a old b).fire.trouble = s.fire.trouble := by simp [State.announceFire]
@[simp] theorem announceFire_climate_channels (a : Area) (old : FireState) (b : Bool) (s : State) :
    (s.announceFire a old b).climate.channels = s.climate.channels := by simp [State.announceFire]
@[simp] theorem announceFire_climate_settings (a : Area) (old : FireState) (b : Bool) (s : State) :
    (s.announceFire a old b).climate.settings = s.climate.settings := by simp [State.announceFire]
@[simp] theorem announceFire_staging_settings (a : Area) (old : FireState) (b : Bool) (s : State) :
    (s.announceFire a old b).staging.settings = s.staging.settings := by simp [State.announceFire]

/-! ### `changeFire` -/

@[simp] theorem changeFire_pending (a : Area) (x : FireState) (s : State) :
    (s.changeFire a x).pending = s.pending := by simp [State.changeFire]
@[simp] theorem changeFire_power (a : Area) (x : FireState) (s : State) :
    (s.changeFire a x).power = s.power := by simp [State.changeFire]
@[simp] theorem changeFire_inputs (a : Area) (x : FireState) (s : State) :
    (s.changeFire a x).inputs = s.inputs := by simp [State.changeFire]
@[simp] theorem changeFire_vault (a : Area) (x : FireState) (s : State) :
    (s.changeFire a x).vault = s.vault := by simp [State.changeFire]
@[simp] theorem changeFire_accumulators (a : Area) (x : FireState) (s : State) :
    (s.changeFire a x).accumulators = s.accumulators := by simp [State.changeFire]
@[simp] theorem changeFire_store_cells (a : Area) (x : FireState) (s : State) :
    (s.changeFire a x).store.cells = s.store.cells := by simp [State.changeFire]
@[simp] theorem changeFire_store_base (a : Area) (x : FireState) (s : State) :
    (s.changeFire a x).store.base = s.store.base := by simp [State.changeFire]
@[simp] theorem changeFire_store_pulses (a : Area) (x : FireState) (s : State) :
    (s.changeFire a x).store.pulses = s.store.pulses := by simp [State.changeFire]
@[simp] theorem changeFire_store_followups (a : Area) (x : FireState) (s : State) :
    (s.changeFire a x).store.followups = s.store.followups := by simp [State.changeFire]
@[simp] theorem changeFire_store_reported (a : Area) (x : FireState) (s : State) :
    (s.changeFire a x).store.reported = s.store.reported := by simp [State.changeFire]
@[simp] theorem changeFire_store_recorded (a : Area) (x : FireState) (s : State) :
    (s.changeFire a x).store.recorded = s.store.recorded := by simp [State.changeFire]
@[simp] theorem changeFire_store_flags (a : Area) (x : FireState) (s : State) :
    (s.changeFire a x).store.flags = s.store.flags := by simp [State.changeFire]
@[simp] theorem changeFire_store_format (a : Area) (x : FireState) (s : State) :
    (s.changeFire a x).store.format = s.store.format := by simp [State.changeFire]
@[simp] theorem changeFire_store_restart (a : Area) (x : FireState) (s : State) :
    (s.changeFire a x).store.restart = s.store.restart := by simp [State.changeFire]
@[simp] theorem changeFire_fire_areas (a : Area) (x : FireState) (s : State) :
    (s.changeFire a x).fire.areas = s.fire.areas.set a { s.fire.areas.get a with state := x } := by simp [State.changeFire]
@[simp] theorem changeFire_fire_detectors (a : Area) (x : FireState) (s : State) :
    (s.changeFire a x).fire.detectors = s.fire.detectors := by simp [State.changeFire]
@[simp] theorem changeFire_fire_abort (a : Area) (x : FireState) (s : State) :
    (s.changeFire a x).fire.abort = s.fire.abort := by simp [State.changeFire]
@[simp] theorem changeFire_climate_channels (a : Area) (x : FireState) (s : State) :
    (s.changeFire a x).climate.channels = s.climate.channels := by simp [State.changeFire]
@[simp] theorem changeFire_climate_settings (a : Area) (x : FireState) (s : State) :
    (s.changeFire a x).climate.settings = s.climate.settings := by simp [State.changeFire]
@[simp] theorem changeFire_staging_settings (a : Area) (x : FireState) (s : State) :
    (s.changeFire a x).staging.settings = s.staging.settings := by simp [State.changeFire]

/-! ### `changeDetector` -/

@[simp] theorem changeDetector_pending (d : Detector) (x : DetectorState) (s : State) :
    (s.changeDetector d x).pending = s.pending := by unfold State.changeDetector; (repeat' (first | split | simp only [])) <;> simp
@[simp] theorem changeDetector_power (d : Detector) (x : DetectorState) (s : State) :
    (s.changeDetector d x).power = s.power := by unfold State.changeDetector; (repeat' (first | split | simp only [])) <;> simp
@[simp] theorem changeDetector_inputs (d : Detector) (x : DetectorState) (s : State) :
    (s.changeDetector d x).inputs = s.inputs := by unfold State.changeDetector; (repeat' (first | split | simp only [])) <;> simp
@[simp] theorem changeDetector_vault (d : Detector) (x : DetectorState) (s : State) :
    (s.changeDetector d x).vault = s.vault := by unfold State.changeDetector; (repeat' (first | split | simp only [])) <;> simp
@[simp] theorem changeDetector_climate (d : Detector) (x : DetectorState) (s : State) :
    (s.changeDetector d x).climate = s.climate := by unfold State.changeDetector; (repeat' (first | split | simp only [])) <;> simp
@[simp] theorem changeDetector_accumulators (d : Detector) (x : DetectorState) (s : State) :
    (s.changeDetector d x).accumulators = s.accumulators := by unfold State.changeDetector; (repeat' (first | split | simp only [])) <;> simp
@[simp] theorem changeDetector_custody (d : Detector) (x : DetectorState) (s : State) :
    (s.changeDetector d x).custody = s.custody := by unfold State.changeDetector; (repeat' (first | split | simp only [])) <;> simp
@[simp] theorem changeDetector_staging (d : Detector) (x : DetectorState) (s : State) :
    (s.changeDetector d x).staging = s.staging := by unfold State.changeDetector; (repeat' (first | split | simp only [])) <;> simp
@[simp] theorem changeDetector_consign (d : Detector) (x : DetectorState) (s : State) :
    (s.changeDetector d x).consign = s.consign := by unfold State.changeDetector; (repeat' (first | split | simp only [])) <;> simp
@[simp] theorem changeDetector_hatch (d : Detector) (x : DetectorState) (s : State) :
    (s.changeDetector d x).hatch = s.hatch := by unfold State.changeDetector; (repeat' (first | split | simp only [])) <;> simp
@[simp] theorem changeDetector_store (d : Detector) (x : DetectorState) (s : State) :
    (s.changeDetector d x).store = s.store := by unfold State.changeDetector; (repeat' (first | split | simp only [])) <;> simp
@[simp] theorem changeDetector_fire_areas (d : Detector) (x : DetectorState) (s : State) :
    (s.changeDetector d x).fire.areas = s.fire.areas := by unfold State.changeDetector; (repeat' (first | split | simp only [])) <;> simp
@[simp] theorem changeDetector_fire_abort (d : Detector) (x : DetectorState) (s : State) :
    (s.changeDetector d x).fire.abort = s.fire.abort := by unfold State.changeDetector; (repeat' (first | split | simp only [])) <;> simp

/-! ### `enterCountdown` -/

@[simp] theorem enterCountdown_pending (a : Area) (s : State) :
    (s.enterCountdown a).pending = s.pending := by simp [State.enterCountdown]
@[simp] theorem enterCountdown_power (a : Area) (s : State) :
    (s.enterCountdown a).power = s.power := by simp [State.enterCountdown]
@[simp] theorem enterCountdown_inputs (a : Area) (s : State) :
    (s.enterCountdown a).inputs = s.inputs := by simp [State.enterCountdown]
@[simp] theorem enterCountdown_vault (a : Area) (s : State) :
    (s.enterCountdown a).vault = s.vault := by simp [State.enterCountdown]
@[simp] theorem enterCountdown_accumulators (a : Area) (s : State) :
    (s.enterCountdown a).accumulators = s.accumulators := by simp [State.enterCountdown]
@[simp] theorem enterCountdown_store_cells (a : Area) (s : State) :
    (s.enterCountdown a).store.cells = s.store.cells := by simp [State.enterCountdown]
@[simp] theorem enterCountdown_store_base (a : Area) (s : State) :
    (s.enterCountdown a).store.base = s.store.base := by simp [State.enterCountdown]
@[simp] theorem enterCountdown_store_pulses (a : Area) (s : State) :
    (s.enterCountdown a).store.pulses = s.store.pulses := by simp [State.enterCountdown]
@[simp] theorem enterCountdown_store_followups (a : Area) (s : State) :
    (s.enterCountdown a).store.followups = s.store.followups := by simp [State.enterCountdown]
@[simp] theorem enterCountdown_store_reported (a : Area) (s : State) :
    (s.enterCountdown a).store.reported = s.store.reported := by simp [State.enterCountdown]
@[simp] theorem enterCountdown_store_recorded (a : Area) (s : State) :
    (s.enterCountdown a).store.recorded = s.store.recorded := by simp [State.enterCountdown]
@[simp] theorem enterCountdown_store_flags (a : Area) (s : State) :
    (s.enterCountdown a).store.flags = s.store.flags := by simp [State.enterCountdown]
@[simp] theorem enterCountdown_store_format (a : Area) (s : State) :
    (s.enterCountdown a).store.format = s.store.format := by simp [State.enterCountdown]
@[simp] theorem enterCountdown_store_restart (a : Area) (s : State) :
    (s.enterCountdown a).store.restart = s.store.restart := by simp [State.enterCountdown]
@[simp] theorem enterCountdown_fire_detectors (a : Area) (s : State) :
    (s.enterCountdown a).fire.detectors = s.fire.detectors := by simp [State.enterCountdown]
@[simp] theorem enterCountdown_fire_abort (a : Area) (s : State) :
    (s.enterCountdown a).fire.abort = s.fire.abort := by simp [State.enterCountdown]
@[simp] theorem enterCountdown_climate_channels (a : Area) (s : State) :
    (s.enterCountdown a).climate.channels = s.climate.channels := by simp [State.enterCountdown]
@[simp] theorem enterCountdown_climate_settings (a : Area) (s : State) :
    (s.enterCountdown a).climate.settings = s.climate.settings := by simp [State.enterCountdown]
@[simp] theorem enterCountdown_staging_settings (a : Area) (s : State) :
    (s.enterCountdown a).staging.settings = s.staging.settings := by simp [State.enterCountdown]

/-! ### `alarmEntry` -/

@[simp] theorem alarmEntry_pending (d : Detector) (s : State) :
    (s.alarmEntry d).pending = s.pending := by unfold State.alarmEntry; (repeat' (first | split | simp only [])) <;> simp
@[simp] theorem alarmEntry_power (d : Detector) (s : State) :
    (s.alarmEntry d).power = s.power := by unfold State.alarmEntry; (repeat' (first | split | simp only [])) <;> simp
@[simp] theorem alarmEntry_inputs (d : Detector) (s : State) :
    (s.alarmEntry d).inputs = s.inputs := by unfold State.alarmEntry; (repeat' (first | split | simp only [])) <;> simp
@[simp] theorem alarmEntry_vault (d : Detector) (s : State) :
    (s.alarmEntry d).vault = s.vault := by unfold State.alarmEntry; (repeat' (first | split | simp only [])) <;> simp
@[simp] theorem alarmEntry_accumulators (d : Detector) (s : State) :
    (s.alarmEntry d).accumulators = s.accumulators := by unfold State.alarmEntry; (repeat' (first | split | simp only [])) <;> simp
@[simp] theorem alarmEntry_store_cells (d : Detector) (s : State) :
    (s.alarmEntry d).store.cells = s.store.cells := by unfold State.alarmEntry; (repeat' (first | split | simp only [])) <;> simp
@[simp] theorem alarmEntry_store_base (d : Detector) (s : State) :
    (s.alarmEntry d).store.base = s.store.base := by unfold State.alarmEntry; (repeat' (first | split | simp only [])) <;> simp
@[simp] theorem alarmEntry_store_pulses (d : Detector) (s : State) :
    (s.alarmEntry d).store.pulses = s.store.pulses := by unfold State.alarmEntry; (repeat' (first | split | simp only [])) <;> simp
@[simp] theorem alarmEntry_store_followups (d : Detector) (s : State) :
    (s.alarmEntry d).store.followups = s.store.followups := by unfold State.alarmEntry; (repeat' (first | split | simp only [])) <;> simp
@[simp] theorem alarmEntry_store_reported (d : Detector) (s : State) :
    (s.alarmEntry d).store.reported = s.store.reported := by unfold State.alarmEntry; (repeat' (first | split | simp only [])) <;> simp
@[simp] theorem alarmEntry_store_recorded (d : Detector) (s : State) :
    (s.alarmEntry d).store.recorded = s.store.recorded := by unfold State.alarmEntry; (repeat' (first | split | simp only [])) <;> simp
@[simp] theorem alarmEntry_store_flags (d : Detector) (s : State) :
    (s.alarmEntry d).store.flags = s.store.flags := by unfold State.alarmEntry; (repeat' (first | split | simp only [])) <;> simp
@[simp] theorem alarmEntry_store_format (d : Detector) (s : State) :
    (s.alarmEntry d).store.format = s.store.format := by unfold State.alarmEntry; (repeat' (first | split | simp only [])) <;> simp
@[simp] theorem alarmEntry_store_restart (d : Detector) (s : State) :
    (s.alarmEntry d).store.restart = s.store.restart := by unfold State.alarmEntry; (repeat' (first | split | simp only [])) <;> simp
@[simp] theorem alarmEntry_fire_detectors (d : Detector) (s : State) :
    (s.alarmEntry d).fire.detectors = s.fire.detectors := by unfold State.alarmEntry; (repeat' (first | split | simp only [])) <;> simp
@[simp] theorem alarmEntry_fire_abort (d : Detector) (s : State) :
    (s.alarmEntry d).fire.abort = s.fire.abort := by unfold State.alarmEntry; (repeat' (first | split | simp only [])) <;> simp
@[simp] theorem alarmEntry_climate_channels (d : Detector) (s : State) :
    (s.alarmEntry d).climate.channels = s.climate.channels := by unfold State.alarmEntry; (repeat' (first | split | simp only [])) <;> simp
@[simp] theorem alarmEntry_climate_settings (d : Detector) (s : State) :
    (s.alarmEntry d).climate.settings = s.climate.settings := by unfold State.alarmEntry; (repeat' (first | split | simp only [])) <;> simp
@[simp] theorem alarmEntry_staging_settings (d : Detector) (s : State) :
    (s.alarmEntry d).staging.settings = s.staging.settings := by unfold State.alarmEntry; (repeat' (first | split | simp only [])) <;> simp

end Sys2Proof.Machine
end

