-- ==== Sys2Proof/Laws/Requests.lean ====
section
/-! SUPPORT. A request at its link unit: the valid frame, the four checks and the hand-over to the owning block; and
an event at a part that runs or does not. -/

namespace Sys2Proof.Machine

set_option linter.unnecessarySeqFocus false

/-! ## The valid frame -/

/-- A valid frame touches the link units and TROUBLE alone (R171, R177). -/
theorem validFrame_frame (p : Port) (s : State) :
    s.validFrame p =
      { s with links := (s.validFrame p).links, fire := { s.fire with trouble := (s.validFrame p).fire.trouble } } := by
  cases p with
  | archive => rfl
  | handover => rfl
  | facility =>
    unfold State.validFrame
    simp only []
    split
    · rw [postNotice_frame]; rfl
    · rfl

/-- A request that has been received touches the link units and TROUBLE alone. -/
theorem received_frame (s : State) (h : ReqHead) :
    s.received h =
      { s with links := (s.received h).links, fire := { s.fire with trouble := (s.received h).fire.trouble } } := by
  unfold State.received State.onLink
  rw [validFrame_frame]

@[simp] theorem validFrame_pending (p : Port) (s : State) : (s.validFrame p).pending = s.pending := by rw [validFrame_frame]
@[simp] theorem validFrame_power (p : Port) (s : State) : (s.validFrame p).power = s.power := by rw [validFrame_frame]
@[simp] theorem validFrame_inputs (p : Port) (s : State) : (s.validFrame p).inputs = s.inputs := by rw [validFrame_frame]
@[simp] theorem validFrame_vault (p : Port) (s : State) : (s.validFrame p).vault = s.vault := by rw [validFrame_frame]
@[simp] theorem validFrame_climate (p : Port) (s : State) : (s.validFrame p).climate = s.climate := by rw [validFrame_frame]
@[simp] theorem validFrame_accumulators (p : Port) (s : State) : (s.validFrame p).accumulators = s.accumulators := by rw [validFrame_frame]
@[simp] theorem validFrame_custody (p : Port) (s : State) : (s.validFrame p).custody = s.custody := by rw [validFrame_frame]
@[simp] theorem validFrame_staging (p : Port) (s : State) : (s.validFrame p).staging = s.staging := by rw [validFrame_frame]
@[simp] theorem validFrame_consign (p : Port) (s : State) : (s.validFrame p).consign = s.consign := by rw [validFrame_frame]
@[simp] theorem validFrame_hatch (p : Port) (s : State) : (s.validFrame p).hatch = s.hatch := by rw [validFrame_frame]
@[simp] theorem validFrame_store (p : Port) (s : State) : (s.validFrame p).store = s.store := by rw [validFrame_frame]
@[simp] theorem validFrame_fire_detectors (p : Port) (s : State) : (s.validFrame p).fire.detectors = s.fire.detectors := by rw [validFrame_frame]
@[simp] theorem validFrame_fire_areas (p : Port) (s : State) : (s.validFrame p).fire.areas = s.fire.areas := by rw [validFrame_frame]
@[simp] theorem validFrame_fire_abort (p : Port) (s : State) : (s.validFrame p).fire.abort = s.fire.abort := by rw [validFrame_frame]
@[simp] theorem validFrame_fire_alert (p : Port) (s : State) : (s.validFrame p).fire.alert = s.fire.alert := by rw [validFrame_frame]
@[simp] theorem validFrame_fire_evacuate (p : Port) (s : State) : (s.validFrame p).fire.evacuate = s.fire.evacuate := by rw [validFrame_frame]
@[simp] theorem received_pending (s : State) (h : ReqHead) : (s.received h).pending = s.pending := by rw [received_frame]
@[simp] theorem received_power (s : State) (h : ReqHead) : (s.received h).power = s.power := by rw [received_frame]
@[simp] theorem received_inputs (s : State) (h : ReqHead) : (s.received h).inputs = s.inputs := by rw [received_frame]
@[simp] theorem received_vault (s : State) (h : ReqHead) : (s.received h).vault = s.vault := by rw [received_frame]
@[simp] theorem received_climate (s : State) (h : ReqHead) : (s.received h).climate = s.climate := by rw [received_frame]
@[simp] theorem received_accumulators (s : State) (h : ReqHead) : (s.received h).accumulators = s.accumulators := by rw [received_frame]
@[simp] theorem received_custody (s : State) (h : ReqHead) : (s.received h).custody = s.custody := by rw [received_frame]
@[simp] theorem received_staging (s : State) (h : ReqHead) : (s.received h).staging = s.staging := by rw [received_frame]
@[simp] theorem received_consign (s : State) (h : ReqHead) : (s.received h).consign = s.consign := by rw [received_frame]
@[simp] theorem received_hatch (s : State) (h : ReqHead) : (s.received h).hatch = s.hatch := by rw [received_frame]
@[simp] theorem received_store (s : State) (h : ReqHead) : (s.received h).store = s.store := by rw [received_frame]
@[simp] theorem received_fire_detectors (s : State) (h : ReqHead) : (s.received h).fire.detectors = s.fire.detectors := by rw [received_frame]
@[simp] theorem received_fire_areas (s : State) (h : ReqHead) : (s.received h).fire.areas = s.fire.areas := by rw [received_frame]
@[simp] theorem received_fire_abort (s : State) (h : ReqHead) : (s.received h).fire.abort = s.fire.abort := by rw [received_frame]
@[simp] theorem received_fire_alert (s : State) (h : ReqHead) : (s.received h).fire.alert = s.fire.alert := by rw [received_frame]
@[simp] theorem received_fire_evacuate (s : State) (h : ReqHead) : (s.received h).fire.evacuate = s.fire.evacuate := by rw [received_frame]

/-! ## The four checks -/

/-- On the archive and handover ports a received request touches its own link unit alone. -/
theorem received_links_other (s : State) (h : ReqHead) (hp : h.port ≠ .facility) :
    s.received h = s.onLink h.port fun l => { l with receiver := .hunting, outstanding := true } := by
  unfold State.received State.validFrame State.onLink
  cases hq : h.port with
  | facility => exact absurd hq hp
  | archive => rfl
  | handover => rfl

@[simp] theorem noticeOn_outstanding (n : NoticeBody) (p q : Port) (s : State) :
    ((s.noticeOn Link.takeNotice n p).links.get q).outstanding = (s.links.get q).outstanding := by
  have hs : ∀ l : Link, l.start.outstanding = l.outstanding := by
    intro l; unfold Link.start; (repeat' split) <;> rfl
  have hj : ∀ (l : Link) (x : Notice), (l.joinNotice x).outstanding = l.outstanding := by
    intro l x; unfold Link.joinNotice; (repeat' split) <;> rfl
  unfold State.noticeOn
  split
  · simp only [onLink_links, links_get_set]
    split
    · rename_i h; simp [Link.takeNotice, hs, hj, h]
    · rfl
  · rfl

@[simp] theorem postNotice_outstanding (n : NoticeBody) (q : Port) (s : State) :
    ((s.postNotice n).links.get q).outstanding = (s.links.get q).outstanding :=
  foldl_keeps (fun s p => State.noticeOn Link.takeNotice n p s) (fun s => (s.links.get q).outstanding) (by simp) _ _

/-- A valid frame leaves every port's outstanding flag. -/
@[simp] theorem validFrame_outstanding (p q : Port) (s : State) :
    ((s.validFrame p).links.get q).outstanding = (s.links.get q).outstanding := by
  have h1 : ((s.onLink p fun l => { l with receiver := .hunting }).links.get q).outstanding = (s.links.get q).outstanding := by
    simp only [onLink_links, links_get_set]; split <;> simp_all
  cases p with
  | archive => exact h1
  | handover => exact h1
  | facility =>
    unfold State.validFrame
    simp only []
    split
    · rw [postNotice_outstanding]; simpa [Links.get] using h1
    · simpa [Links.get] using h1

/-- A request that passes the four checks is handed to its owning block (R172). -/
theorem request_accepted {s : State} {h : ReqHead} {k : RequestKind} (owner : State → State) (ha : s.accepts h k) :
    s.request h k true owner = owner (s.received h) := by
  obtain ⟨hr, ho, hl, hp, hf⟩ := ha
  have ho' : ((s.validFrame h.port).link h.port).outstanding = false := by
    simpa [State.link] using ho
  have hc : (s.validFrame h.port).linkCheck h k true = none := by
    unfold State.linkCheck
    rcases hf with hf | hf
    · simp [ho', hl, hp, hf]
    · subst hf; simp [ho', hl, hp]
  unfold State.request
  rw [if_pos hr]
  simp only [hc]
  rfl

/-- HATCH_REQUEST is accepted when the purpose fits its port as well. -/
theorem request_accepted' {s : State} {h : ReqHead} {k : RequestKind} {named : Bool} (owner : State → State)
    (hn : named = true) (ha : s.accepts h k) : s.request h k named owner = owner (s.received h) := by
  subst hn; exact request_accepted owner ha

/-- An event at a part that runs. -/
theorem event_running {s : State} (act : State → State) (h : s.power = .running) : s.event act = act s := by
  unfold State.event; rw [if_pos h]

/-- An event at a part that is stopped or off has no effect (R180). -/
theorem event_stopped {s : State} (act : State → State) (h : s.power ≠ .running) : s.event act = s := by
  unfold State.event; rw [if_neg h]

/-- A request at a part that is stopped or off has no effect (R180). -/
theorem request_stopped {s : State} {h : ReqHead} {k : RequestKind} {named : Bool} (owner : State → State)
    (hp : s.power ≠ .running) : s.request h k named owner = s := by
  unfold State.request; rw [if_neg hp]

end Sys2Proof.Machine
end

