-- ==== Sys2Proof/Laws/Scan.lean ====
section
/-! SUPPORT. What the input scan and the events it takes leave as it was: the queue of commands, the supply, the inputs,
the clock and the accumulators; what one scan does to the inputs; and the same of what a request does behind its response. -/

set_option linter.unnecessarySeqFocus false

namespace Sys2Proof.Machine

/-! ## `State.evaluateDetector` -/

@[simp] theorem evaluateDetector_pending (d : Detector) (s : State) : (s.evaluateDetector d).pending = s.pending := by
  unfold State.evaluateDetector; (repeat' (first | split | simp only [])) <;> simp
@[simp] theorem evaluateDetector_power (d : Detector) (s : State) : (s.evaluateDetector d).power = s.power := by
  unfold State.evaluateDetector; (repeat' (first | split | simp only [])) <;> simp
@[simp] theorem evaluateDetector_inputs (d : Detector) (s : State) : (s.evaluateDetector d).inputs = s.inputs := by
  unfold State.evaluateDetector; (repeat' (first | split | simp only [])) <;> simp
@[simp] theorem evaluateDetector_vault (d : Detector) (s : State) : (s.evaluateDetector d).vault = s.vault := by
  unfold State.evaluateDetector; (repeat' (first | split | simp only [])) <;> simp
@[simp] theorem evaluateDetector_accumulators (d : Detector) (s : State) : (s.evaluateDetector d).accumulators = s.accumulators := by
  unfold State.evaluateDetector; (repeat' (first | split | simp only [])) <;> simp

/-! ## `State.detectorLines` -/

@[simp] theorem detectorLines_pending (d : Detector) (al fl : Level) (s : State) : (s.detectorLines d al fl).pending = s.pending := by
  unfold State.detectorLines; (repeat' (first | split | simp only [])) <;> simp
@[simp] theorem detectorLines_power (d : Detector) (al fl : Level) (s : State) : (s.detectorLines d al fl).power = s.power := by
  unfold State.detectorLines; (repeat' (first | split | simp only [])) <;> simp
@[simp] theorem detectorLines_inputs (d : Detector) (al fl : Level) (s : State) : (s.detectorLines d al fl).inputs = s.inputs := by
  unfold State.detectorLines; (repeat' (first | split | simp only [])) <;> simp
@[simp] theorem detectorLines_vault (d : Detector) (al fl : Level) (s : State) : (s.detectorLines d al fl).vault = s.vault := by
  unfold State.detectorLines; (repeat' (first | split | simp only [])) <;> simp
@[simp] theorem detectorLines_accumulators (d : Detector) (al fl : Level) (s : State) : (s.detectorLines d al fl).accumulators = s.accumulators := by
  unfold State.detectorLines; (repeat' (first | split | simp only [])) <;> simp

/-! ## `State.callEvent` -/

@[simp] theorem callEvent_pending (a : Area) (s : State) : (s.callEvent a).pending = s.pending := by
  unfold State.callEvent; (repeat' (first | split | simp only [])) <;> simp
@[simp] theorem callEvent_power (a : Area) (s : State) : (s.callEvent a).power = s.power := by
  unfold State.callEvent; (repeat' (first | split | simp only [])) <;> simp
@[simp] theorem callEvent_inputs (a : Area) (s : State) : (s.callEvent a).inputs = s.inputs := by
  unfold State.callEvent; (repeat' (first | split | simp only [])) <;> simp
@[simp] theorem callEvent_vault (a : Area) (s : State) : (s.callEvent a).vault = s.vault := by
  unfold State.callEvent; (repeat' (first | split | simp only [])) <;> simp
@[simp] theorem callEvent_accumulators (a : Area) (s : State) : (s.callEvent a).accumulators = s.accumulators := by
  unfold State.callEvent; (repeat' (first | split | simp only [])) <;> simp

/-! ## `State.callPointOn` -/

@[simp] theorem callPointOn_pending (a : Area) (s : State) : (s.callPointOn a).pending = s.pending := by
  unfold State.callPointOn; (repeat' (first | split | simp only [])) <;> simp
@[simp] theorem callPointOn_power (a : Area) (s : State) : (s.callPointOn a).power = s.power := by
  unfold State.callPointOn; (repeat' (first | split | simp only [])) <;> simp
@[simp] theorem callPointOn_inputs (a : Area) (s : State) : (s.callPointOn a).inputs = s.inputs := by
  unfold State.callPointOn; (repeat' (first | split | simp only [])) <;> simp
@[simp] theorem callPointOn_vault (a : Area) (s : State) : (s.callPointOn a).vault = s.vault := by
  unfold State.callPointOn; (repeat' (first | split | simp only [])) <;> simp
@[simp] theorem callPointOn_accumulators (a : Area) (s : State) : (s.callPointOn a).accumulators = s.accumulators := by
  unfold State.callPointOn; (repeat' (first | split | simp only [])) <;> simp

/-! ## `State.callPointOff` -/

@[simp] theorem callPointOff_pending (a : Area) (s : State) : (s.callPointOff a).pending = s.pending := by
  simp [State.callPointOff]
@[simp] theorem callPointOff_power (a : Area) (s : State) : (s.callPointOff a).power = s.power := by
  simp [State.callPointOff]
@[simp] theorem callPointOff_inputs (a : Area) (s : State) : (s.callPointOff a).inputs = s.inputs := by
  simp [State.callPointOff]
@[simp] theorem callPointOff_vault (a : Area) (s : State) : (s.callPointOff a).vault = s.vault := by
  simp [State.callPointOff]
@[simp] theorem callPointOff_accumulators (a : Area) (s : State) : (s.callPointOff a).accumulators = s.accumulators := by
  simp [State.callPointOff]

/-! ## `State.holdArea` -/

@[simp] theorem holdArea_pending (s : State) (a : Area) : (s.holdArea a).pending = s.pending := by
  unfold State.holdArea; (repeat' (first | split | simp only [])) <;> simp
@[simp] theorem holdArea_power (s : State) (a : Area) : (s.holdArea a).power = s.power := by
  unfold State.holdArea; (repeat' (first | split | simp only [])) <;> simp
@[simp] theorem holdArea_inputs (s : State) (a : Area) : (s.holdArea a).inputs = s.inputs := by
  unfold State.holdArea; (repeat' (first | split | simp only [])) <;> simp
@[simp] theorem holdArea_vault (s : State) (a : Area) : (s.holdArea a).vault = s.vault := by
  unfold State.holdArea; (repeat' (first | split | simp only [])) <;> simp
@[simp] theorem holdArea_accumulators (s : State) (a : Area) : (s.holdArea a).accumulators = s.accumulators := by
  unfold State.holdArea; (repeat' (first | split | simp only [])) <;> simp

/-! ## `State.resumeArea` -/

@[simp] theorem resumeArea_pending (s : State) (a : Area) : (s.resumeArea a).pending = s.pending := by
  unfold State.resumeArea; (repeat' (first | split | simp only [])) <;> simp
@[simp] theorem resumeArea_power (s : State) (a : Area) : (s.resumeArea a).power = s.power := by
  unfold State.resumeArea; (repeat' (first | split | simp only [])) <;> simp
@[simp] theorem resumeArea_inputs (s : State) (a : Area) : (s.resumeArea a).inputs = s.inputs := by
  unfold State.resumeArea; (repeat' (first | split | simp only [])) <;> simp
@[simp] theorem resumeArea_vault (s : State) (a : Area) : (s.resumeArea a).vault = s.vault := by
  unfold State.resumeArea; (repeat' (first | split | simp only [])) <;> simp
@[simp] theorem resumeArea_accumulators (s : State) (a : Area) : (s.resumeArea a).accumulators = s.accumulators := by
  unfold State.resumeArea; (repeat' (first | split | simp only [])) <;> simp

/-! ## `State.abortOn` -/

@[simp] theorem abortOn_pending (s : State) : s.abortOn.pending = s.pending := by
  unfold State.abortOn
  split <;> first | rfl | exact foldl_keeps _ State.pending (fun s a => holdArea_pending s a) _ _
@[simp] theorem abortOn_power (s : State) : s.abortOn.power = s.power := by
  unfold State.abortOn
  split <;> first | rfl | exact foldl_keeps _ State.power (fun s a => holdArea_power s a) _ _
@[simp] theorem abortOn_inputs (s : State) : s.abortOn.inputs = s.inputs := by
  unfold State.abortOn
  split <;> first | rfl | exact foldl_keeps _ State.inputs (fun s a => holdArea_inputs s a) _ _
@[simp] theorem abortOn_vault (s : State) : s.abortOn.vault = s.vault := by
  unfold State.abortOn
  split <;> first | rfl | exact foldl_keeps _ State.vault (fun s a => holdArea_vault s a) _ _
@[simp] theorem abortOn_accumulators (s : State) : s.abortOn.accumulators = s.accumulators := by
  unfold State.abortOn
  split <;> first | rfl | exact foldl_keeps _ State.accumulators (fun s a => holdArea_accumulators s a) _ _

/-! ## `State.abortOff` -/

@[simp] theorem abortOff_pending (s : State) : s.abortOff.pending = s.pending := by
  unfold State.abortOff
  split <;> first | rfl | exact foldl_keeps _ State.pending (fun s a => resumeArea_pending s a) _ _
@[simp] theorem abortOff_power (s : State) : s.abortOff.power = s.power := by
  unfold State.abortOff
  split <;> first | rfl | exact foldl_keeps _ State.power (fun s a => resumeArea_power s a) _ _
@[simp] theorem abortOff_inputs (s : State) : s.abortOff.inputs = s.inputs := by
  unfold State.abortOff
  split <;> first | rfl | exact foldl_keeps _ State.inputs (fun s a => resumeArea_inputs s a) _ _
@[simp] theorem abortOff_vault (s : State) : s.abortOff.vault = s.vault := by
  unfold State.abortOff
  split <;> first | rfl | exact foldl_keeps _ State.vault (fun s a => resumeArea_vault s a) _ _
@[simp] theorem abortOff_accumulators (s : State) : s.abortOff.accumulators = s.accumulators := by
  unfold State.abortOff
  split <;> first | rfl | exact foldl_keeps _ State.accumulators (fun s a => resumeArea_accumulators s a) _ _

/-! ## `State.retakeDetector` -/

@[simp] theorem retakeDetector_pending (s : State) (d : Detector) : (s.retakeDetector d).pending = s.pending := by
  unfold State.retakeDetector; (repeat' (first | split | simp only [])) <;> simp
@[simp] theorem retakeDetector_power (s : State) (d : Detector) : (s.retakeDetector d).power = s.power := by
  unfold State.retakeDetector; (repeat' (first | split | simp only [])) <;> simp
@[simp] theorem retakeDetector_inputs (s : State) (d : Detector) : (s.retakeDetector d).inputs = s.inputs := by
  unfold State.retakeDetector; (repeat' (first | split | simp only [])) <;> simp
@[simp] theorem retakeDetector_vault (s : State) (d : Detector) : (s.retakeDetector d).vault = s.vault := by
  unfold State.retakeDetector; (repeat' (first | split | simp only [])) <;> simp
@[simp] theorem retakeDetector_accumulators (s : State) (d : Detector) : (s.retakeDetector d).accumulators = s.accumulators := by
  unfold State.retakeDetector; (repeat' (first | split | simp only [])) <;> simp

/-! ## `State.retakeCall` -/

@[simp] theorem retakeCall_pending (s : State) (a : Area) : (s.retakeCall a).pending = s.pending := by
  unfold State.retakeCall; (repeat' (first | split | simp only [])) <;> simp
@[simp] theorem retakeCall_power (s : State) (a : Area) : (s.retakeCall a).power = s.power := by
  unfold State.retakeCall; (repeat' (first | split | simp only [])) <;> simp
@[simp] theorem retakeCall_inputs (s : State) (a : Area) : (s.retakeCall a).inputs = s.inputs := by
  unfold State.retakeCall; (repeat' (first | split | simp only [])) <;> simp
@[simp] theorem retakeCall_vault (s : State) (a : Area) : (s.retakeCall a).vault = s.vault := by
  unfold State.retakeCall; (repeat' (first | split | simp only [])) <;> simp
@[simp] theorem retakeCall_accumulators (s : State) (a : Area) : (s.retakeCall a).accumulators = s.accumulators := by
  unfold State.retakeCall; (repeat' (first | split | simp only [])) <;> simp

/-! ## `State.retakeInputs` -/

@[simp] theorem retakeInputs_pending (s : State) : s.retakeInputs.pending = s.pending :=
  (foldl_keeps _ State.pending (fun s a => retakeCall_pending s a) _ _).trans (foldl_keeps _ State.pending (fun s d => retakeDetector_pending s d) _ _)
@[simp] theorem retakeInputs_power (s : State) : s.retakeInputs.power = s.power :=
  (foldl_keeps _ State.power (fun s a => retakeCall_power s a) _ _).trans (foldl_keeps _ State.power (fun s d => retakeDetector_power s d) _ _)
@[simp] theorem retakeInputs_inputs (s : State) : s.retakeInputs.inputs = s.inputs :=
  (foldl_keeps _ State.inputs (fun s a => retakeCall_inputs s a) _ _).trans (foldl_keeps _ State.inputs (fun s d => retakeDetector_inputs s d) _ _)
@[simp] theorem retakeInputs_vault (s : State) : s.retakeInputs.vault = s.vault :=
  (foldl_keeps _ State.vault (fun s a => retakeCall_vault s a) _ _).trans (foldl_keeps _ State.vault (fun s d => retakeDetector_vault s d) _ _)
@[simp] theorem retakeInputs_accumulators (s : State) : s.retakeInputs.accumulators = s.accumulators :=
  (foldl_keeps _ State.accumulators (fun s a => retakeCall_accumulators s a) _ _).trans (foldl_keeps _ State.accumulators (fun s d => retakeDetector_accumulators s d) _ _)

/-! ## `State.normalOpening` -/

@[simp] theorem normalOpening_pending (w : Side) (s : State) : (s.normalOpening w).pending = s.pending := by
  unfold State.normalOpening; (repeat' (first | split | simp only [])) <;> simp
@[simp] theorem normalOpening_power (w : Side) (s : State) : (s.normalOpening w).power = s.power := by
  unfold State.normalOpening; (repeat' (first | split | simp only [])) <;> simp
@[simp] theorem normalOpening_inputs (w : Side) (s : State) : (s.normalOpening w).inputs = s.inputs := by
  unfold State.normalOpening; (repeat' (first | split | simp only [])) <;> simp
@[simp] theorem normalOpening_vault (w : Side) (s : State) : (s.normalOpening w).vault = s.vault := by
  unfold State.normalOpening; (repeat' (first | split | simp only [])) <;> simp
@[simp] theorem normalOpening_accumulators (w : Side) (s : State) : (s.normalOpening w).accumulators = s.accumulators := by
  unfold State.normalOpening; (repeat' (first | split | simp only [])) <;> simp

/-! ## `State.openDoor` -/

@[simp] theorem openDoor_pending (w : Side) (s : State) : (s.openDoor w).pending = s.pending := by
  unfold State.openDoor; (repeat' (first | split | simp only [])) <;> simp
@[simp] theorem openDoor_power (w : Side) (s : State) : (s.openDoor w).power = s.power := by
  unfold State.openDoor; (repeat' (first | split | simp only [])) <;> simp
@[simp] theorem openDoor_inputs (w : Side) (s : State) : (s.openDoor w).inputs = s.inputs := by
  unfold State.openDoor; (repeat' (first | split | simp only [])) <;> simp
@[simp] theorem openDoor_vault (w : Side) (s : State) : (s.openDoor w).vault = s.vault := by
  unfold State.openDoor; (repeat' (first | split | simp only [])) <;> simp
@[simp] theorem openDoor_accumulators (w : Side) (s : State) : (s.openDoor w).accumulators = s.accumulators := by
  unfold State.openDoor; (repeat' (first | split | simp only [])) <;> simp

/-! ## `State.closeDoor` -/

@[simp] theorem closeDoor_pending (w : Side) (s : State) : (s.closeDoor w).pending = s.pending := by
  unfold State.closeDoor State.closingLatch; (repeat' (first | split | simp only [])) <;> simp
@[simp] theorem closeDoor_power (w : Side) (s : State) : (s.closeDoor w).power = s.power := by
  unfold State.closeDoor State.closingLatch; (repeat' (first | split | simp only [])) <;> simp
@[simp] theorem closeDoor_inputs (w : Side) (s : State) : (s.closeDoor w).inputs = s.inputs := by
  unfold State.closeDoor State.closingLatch; (repeat' (first | split | simp only [])) <;> simp
@[simp] theorem closeDoor_vault (w : Side) (s : State) : (s.closeDoor w).vault = s.vault := by
  unfold State.closeDoor State.closingLatch; (repeat' (first | split | simp only [])) <;> simp
@[simp] theorem closeDoor_accumulators (w : Side) (s : State) : (s.closeDoor w).accumulators = s.accumulators := by
  unfold State.closeDoor State.closingLatch; (repeat' (first | split | simp only [])) <;> simp

/-! ## `State.scanDetector` -/

@[simp] theorem scanDetector_pending (x : Inputs) (s : State) (d : Detector) : (s.scanDetector x d).pending = s.pending := by
  simp [State.scanDetector]
@[simp] theorem scanDetector_power (x : Inputs) (s : State) (d : Detector) : (s.scanDetector x d).power = s.power := by
  simp [State.scanDetector]
@[simp] theorem scanDetector_inputs (x : Inputs) (s : State) (d : Detector) : (s.scanDetector x d).inputs = s.inputs := by
  simp [State.scanDetector]
@[simp] theorem scanDetector_vault (x : Inputs) (s : State) (d : Detector) : (s.scanDetector x d).vault = s.vault := by
  simp [State.scanDetector]
@[simp] theorem scanDetector_accumulators (x : Inputs) (s : State) (d : Detector) : (s.scanDetector x d).accumulators = s.accumulators := by
  simp [State.scanDetector]

/-! ## `State.scanCall` -/

@[simp] theorem scanCall_pending (x : Inputs) (s : State) (a : Area) : (s.scanCall x a).pending = s.pending := by
  unfold State.scanCall; (repeat' (first | split | simp only [])) <;> simp
@[simp] theorem scanCall_power (x : Inputs) (s : State) (a : Area) : (s.scanCall x a).power = s.power := by
  unfold State.scanCall; (repeat' (first | split | simp only [])) <;> simp
@[simp] theorem scanCall_inputs (x : Inputs) (s : State) (a : Area) : (s.scanCall x a).inputs = s.inputs := by
  unfold State.scanCall; (repeat' (first | split | simp only [])) <;> simp
@[simp] theorem scanCall_vault (x : Inputs) (s : State) (a : Area) : (s.scanCall x a).vault = s.vault := by
  unfold State.scanCall; (repeat' (first | split | simp only [])) <;> simp
@[simp] theorem scanCall_accumulators (x : Inputs) (s : State) (a : Area) : (s.scanCall x a).accumulators = s.accumulators := by
  unfold State.scanCall; (repeat' (first | split | simp only [])) <;> simp

/-! ## `State.scanAbort` -/

@[simp] theorem scanAbort_pending (x : Inputs) (s : State) : (s.scanAbort x).pending = s.pending := by
  unfold State.scanAbort; (repeat' (first | split | simp only [])) <;> simp
@[simp] theorem scanAbort_power (x : Inputs) (s : State) : (s.scanAbort x).power = s.power := by
  unfold State.scanAbort; (repeat' (first | split | simp only [])) <;> simp
@[simp] theorem scanAbort_inputs (x : Inputs) (s : State) : (s.scanAbort x).inputs = s.inputs := by
  unfold State.scanAbort; (repeat' (first | split | simp only [])) <;> simp
@[simp] theorem scanAbort_vault (x : Inputs) (s : State) : (s.scanAbort x).vault = s.vault := by
  unfold State.scanAbort; (repeat' (first | split | simp only [])) <;> simp
@[simp] theorem scanAbort_accumulators (x : Inputs) (s : State) : (s.scanAbort x).accumulators = s.accumulators := by
  unfold State.scanAbort; (repeat' (first | split | simp only [])) <;> simp

/-! ## `State.scanContact` -/

@[simp] theorem scanContact_pending (x : Inputs) (s : State) (w : Side) : (s.scanContact x w).pending = s.pending := by
  unfold State.scanContact; (repeat' (first | split | simp only [])) <;> simp
@[simp] theorem scanContact_power (x : Inputs) (s : State) (w : Side) : (s.scanContact x w).power = s.power := by
  unfold State.scanContact; (repeat' (first | split | simp only [])) <;> simp
@[simp] theorem scanContact_inputs (x : Inputs) (s : State) (w : Side) : (s.scanContact x w).inputs = s.inputs := by
  unfold State.scanContact; (repeat' (first | split | simp only [])) <;> simp
@[simp] theorem scanContact_vault (x : Inputs) (s : State) (w : Side) : (s.scanContact x w).vault = s.vault := by
  unfold State.scanContact; (repeat' (first | split | simp only [])) <;> simp
@[simp] theorem scanContact_accumulators (x : Inputs) (s : State) (w : Side) : (s.scanContact x w).accumulators = s.accumulators := by
  unfold State.scanContact; (repeat' (first | split | simp only [])) <;> simp

/-! ## What a request does behind its response (R5, R59, R80, R184) -/

@[simp] theorem evaluateAfresh_pending (d : Detector) (latched : Bool) (s : State) :
    (s.evaluateAfresh d latched).pending = s.pending := by
  unfold State.evaluateAfresh State.alarmAfresh; (repeat' (first | split | simp only [])) <;> simp
@[simp] theorem evaluateAfresh_power (d : Detector) (latched : Bool) (s : State) :
    (s.evaluateAfresh d latched).power = s.power := by
  unfold State.evaluateAfresh State.alarmAfresh; (repeat' (first | split | simp only [])) <;> simp
@[simp] theorem evaluateAfresh_inputs (d : Detector) (latched : Bool) (s : State) :
    (s.evaluateAfresh d latched).inputs = s.inputs := by
  unfold State.evaluateAfresh State.alarmAfresh; (repeat' (first | split | simp only [])) <;> simp
@[simp] theorem evaluateAfresh_vault (d : Detector) (latched : Bool) (s : State) :
    (s.evaluateAfresh d latched).vault = s.vault := by
  unfold State.evaluateAfresh State.alarmAfresh; (repeat' (first | split | simp only [])) <;> simp
@[simp] theorem evaluateAfresh_accumulators (d : Detector) (latched : Bool) (s : State) :
    (s.evaluateAfresh d latched).accumulators = s.accumulators := by
  unfold State.evaluateAfresh State.alarmAfresh; (repeat' (first | split | simp only [])) <;> simp
/-- The lapses of the overdue reservations keep what each lapse keeps. -/
theorem lapseOverdue_keeps {γ : Type} (g : State → γ) (h : ∀ needs n (s : State), g (s.lapsePick needs n).2 = g s) (s : State) :
    g s.lapseOverdue = g s := by
  unfold State.lapseOverdue
  exact foldl_keeps (fun (x : List Nat × State) n => x.2.lapsePick x.1 n) (fun x => g x.2) (fun x n => h x.1 n x.2)
    slotNumbers ([], s)

@[simp] theorem lapseOverdue_pending (s : State) : s.lapseOverdue.pending = s.pending := lapseOverdue_keeps (·.pending) lapsePick_pending s
@[simp] theorem lapseOverdue_power (s : State) : s.lapseOverdue.power = s.power := lapseOverdue_keeps (·.power) lapsePick_power s
@[simp] theorem lapseOverdue_inputs (s : State) : s.lapseOverdue.inputs = s.inputs := lapseOverdue_keeps (·.inputs) lapsePick_inputs s
@[simp] theorem lapseOverdue_vault (s : State) : s.lapseOverdue.vault = s.vault := lapseOverdue_keeps (·.vault) lapsePick_vault s
@[simp] theorem lapseOverdue_climate (s : State) : s.lapseOverdue.climate = s.climate := lapseOverdue_keeps (·.climate) lapsePick_climate s
@[simp] theorem lapseOverdue_accumulators (s : State) : s.lapseOverdue.accumulators = s.accumulators := lapseOverdue_keeps (·.accumulators) lapsePick_accumulators s
@[simp] theorem lapseOverdue_consign (s : State) : s.lapseOverdue.consign = s.consign := lapseOverdue_keeps (·.consign) lapsePick_consign s
@[simp] theorem lapseOverdue_hatch (s : State) : s.lapseOverdue.hatch = s.hatch := lapseOverdue_keeps (·.hatch) lapsePick_hatch s
@[simp] theorem lapseOverdue_fire (s : State) : s.lapseOverdue.fire = s.fire := lapseOverdue_keeps (·.fire) lapsePick_fire s

@[simp] theorem startSweep_pending (k : Nat) (s : State) : (s.startSweep k).pending = s.pending := rfl
@[simp] theorem startSweep_power (k : Nat) (s : State) : (s.startSweep k).power = s.power := rfl
@[simp] theorem startSweep_inputs (k : Nat) (s : State) : (s.startSweep k).inputs = s.inputs := rfl
@[simp] theorem startSweep_accumulators (k : Nat) (s : State) : (s.startSweep k).accumulators = s.accumulators := rfl
@[simp] theorem startSweep_custody (k : Nat) (s : State) : (s.startSweep k).custody = s.custody := rfl
@[simp] theorem startSweep_links (k : Nat) (s : State) : (s.startSweep k).links = s.links := rfl
@[simp] theorem startSweep_store (k : Nat) (s : State) : (s.startSweep k).store = s.store := rfl

@[simp] theorem changeDetectors_pending (x : State → Detector → DetectorState) (ds : List Detector) (s : State) :
    (ds.foldl (fun t d => t.changeDetector d (x t d)) s).pending = s.pending :=
  foldl_keeps _ (·.pending) (by simp) ds s
@[simp] theorem changeDetectors_power (x : State → Detector → DetectorState) (ds : List Detector) (s : State) :
    (ds.foldl (fun t d => t.changeDetector d (x t d)) s).power = s.power :=
  foldl_keeps _ (·.power) (by simp) ds s
@[simp] theorem changeDetectors_inputs (x : State → Detector → DetectorState) (ds : List Detector) (s : State) :
    (ds.foldl (fun t d => t.changeDetector d (x t d)) s).inputs = s.inputs :=
  foldl_keeps _ (·.inputs) (by simp) ds s

@[simp] theorem alarmAfresh_pending (d : Detector) (s : State) : (s.alarmAfresh d).pending = s.pending := by
  unfold State.alarmAfresh; split <;> simp
@[simp] theorem alarmAfresh_power (d : Detector) (s : State) : (s.alarmAfresh d).power = s.power := by
  unfold State.alarmAfresh; split <;> simp
@[simp] theorem alarmAfresh_inputs (d : Detector) (s : State) : (s.alarmAfresh d).inputs = s.inputs := by
  unfold State.alarmAfresh; split <;> simp

@[simp] theorem startFormat_pending (s : State) : s.startFormat.pending = s.pending := by
  unfold State.startFormat State.emptyBlocks
  refine (foldl_keeps (fun (s : State) d => s.alarmAfresh d) State.pending (fun s d => alarmAfresh_pending d s) _ _).trans ?_
  simp only [State.defaultDetectors, updateTrouble_pending, changeDetectors_pending]
@[simp] theorem startFormat_power (s : State) : s.startFormat.power = s.power := by
  unfold State.startFormat State.emptyBlocks
  refine (foldl_keeps (fun (s : State) d => s.alarmAfresh d) State.power (fun s d => alarmAfresh_power d s) _ _).trans ?_
  simp only [State.defaultDetectors, updateTrouble_power, changeDetectors_power]
@[simp] theorem startFormat_inputs (s : State) : s.startFormat.inputs = s.inputs := by
  unfold State.startFormat State.emptyBlocks
  refine (foldl_keeps (fun (s : State) d => s.alarmAfresh d) State.inputs (fun s d => alarmAfresh_inputs d s) _ _).trans ?_
  simp only [State.defaultDetectors, updateTrouble_inputs, changeDetectors_inputs]

@[simp] theorem followUp_pending (s : State) (f : Followup) : (s.followUp f).pending = s.pending := by
  cases f <;> simp [State.followUp]
@[simp] theorem followUp_power (s : State) (f : Followup) : (s.followUp f).power = s.power := by
  cases f <;> simp [State.followUp]
@[simp] theorem followUp_inputs (s : State) (f : Followup) : (s.followUp f).inputs = s.inputs := by
  cases f <;> simp [State.followUp]

@[simp] theorem endFollowups_pending (ticket : Nat) (s : State) : (s.endFollowups ticket).pending = s.pending :=
  foldl_keeps State.followUp (·.pending) followUp_pending _ _
@[simp] theorem endFollowups_power (ticket : Nat) (s : State) : (s.endFollowups ticket).power = s.power :=
  foldl_keeps State.followUp (·.power) followUp_power _ _
@[simp] theorem endFollowups_inputs (ticket : Nat) (s : State) : (s.endFollowups ticket).inputs = s.inputs :=
  foldl_keeps State.followUp (·.inputs) followUp_inputs _ _

/-- With nothing that follows a response of the ticket, its end changes nothing. -/
theorem endFollowups_none {ticket : Nat} {s : State} (h : ∀ x ∈ s.store.followups, x.1 ≠ ticket) :
    s.endFollowups ticket = s := by
  have h1 : s.store.followups.filter (fun x => x.1 == ticket) = [] := by
    rw [List.filter_eq_nil_iff]; intro x hx; simpa using h x hx
  have h2 : s.store.followups.filter (fun x => x.1 != ticket) = s.store.followups := by
    rw [List.filter_eq_self]; intro x hx; simpa using h x hx
  simp [State.endFollowups, h1, h2]

/-! ## `State.scan` -/

/-- A part without supply samples nothing (R180). -/
theorem scan_off {s : State} (h : s.power = .off) : s.scan = s := by
  unfold State.scan
  rw [h]

/-- A scan of a part that runs, with the reset line HIGH, samples every input (R37). -/
theorem scan_inputs {s : State} (h : s.power = .running) (hr : s.inputs.reset.taken .high = .high) :
    s.scan.inputs = s.inputs.scan := by
  unfold State.scan State.scanReset
  rw [h]
  simp only [hr, retakeInputs_inputs]
  refine (foldl_keeps _ State.inputs (fun t w => scanContact_inputs s.inputs t w) _ _).trans ?_
  rw [scanAbort_inputs]
  refine (foldl_keeps _ State.inputs (fun t a => scanCall_inputs s.inputs t a) _ _).trans ?_
  exact foldl_keeps _ State.inputs (fun t d => scanDetector_inputs s.inputs t d) _ _

/-- A scan of a part that runs, with the reset line HIGH keeps the clock. -/
theorem scan_vault {s : State} (h : s.power = .running) (hr : s.inputs.reset.taken .high = .high) :
    s.scan.vault = s.vault := by
  unfold State.scan State.scanReset
  rw [h]
  simp only [hr, retakeInputs_vault]
  refine (foldl_keeps _ State.vault (fun t w => scanContact_vault s.inputs t w) _ _).trans ?_
  rw [scanAbort_vault]
  refine (foldl_keeps _ State.vault (fun t a => scanCall_vault s.inputs t a) _ _).trans ?_
  exact foldl_keeps _ State.vault (fun t d => scanDetector_vault s.inputs t d) _ _

/-- A scan of a part that runs, with the reset line HIGH keeps the accumulators. -/
theorem scan_accumulators {s : State} (h : s.power = .running) (hr : s.inputs.reset.taken .high = .high) :
    s.scan.accumulators = s.accumulators := by
  unfold State.scan State.scanReset
  rw [h]
  simp only [hr, retakeInputs_accumulators]
  refine (foldl_keeps _ State.accumulators (fun t w => scanContact_accumulators s.inputs t w) _ _).trans ?_
  rw [scanAbort_accumulators]
  refine (foldl_keeps _ State.accumulators (fun t a => scanCall_accumulators s.inputs t a) _ _).trans ?_
  exact foldl_keeps _ State.accumulators (fun t d => scanDetector_accumulators s.inputs t d) _ _

end Sys2Proof.Machine
end

