-- ==== Sys2Proof/Laws/Tables.lean ====
section
/-! SUPPORT. The tables' canonical forms: the store's list of cells (R179) and the custody table (R82), what each
operation on them reads back, and that each keeps the form. -/

namespace Sys2Proof.Machine

set_option linter.unnecessarySeqFocus false

/-! ## The store's list of cells -/

/-- A record's number names it. -/
theorem addr_inj {a b : StoreRecord} (h : a.addr = b.addr) : a = b := by
  have area : ∀ x : Area, 1 ≤ x.number ∧ x.number ≤ 4 := by intro x; cases x <;> decide
  have areaInj : ∀ x y : Area, x.number = y.number → x = y := by intro x y; cases x <;> cases y <;> decide
  cases a <;> cases b <;> simp only [StoreRecord.addr] at h <;> first
    | rfl
    | omega
    | (congr 1; omega)
    | (congr 1; exact areaInj _ _ (by omega))
    | (rename_i x y; have := area x; have := area y; omega)
    | (rename_i x; have := area x; omega)
    | (rename_i x y; have := area x; omega)

/-- The canonical form in terms of the list: addresses rising, and no cell that is the default. -/
theorem cellsWf_iff (base : Nat × Nat) (cs : List (StoreRecord × Cell)) :
    cellsWf base cs = true ↔
      cs.Pairwise (fun x y => x.1.addr < y.1.addr) ∧ ∀ x ∈ cs, x.2 ≠ defaultCell base x.1 := by
  induction cs with
  | nil => simp [cellsWf]
  | cons x xs ih =>
    cases xs with
    | nil => simp [cellsWf]
    | cons y ys =>
      simp only [cellsWf, Bool.and_eq_true, decide_eq_true_eq, bne_iff_ne, ne_eq, ih]
      constructor
      · rintro ⟨⟨h1, h2⟩, h3, h4⟩
        refine ⟨?_, ?_⟩
        · rw [List.pairwise_cons]
          refine ⟨?_, h3⟩
          intro z hz
          rcases List.mem_cons.1 hz with rfl | hz
          · exact h1
          · exact Nat.lt_trans h1 ((List.pairwise_cons.1 h3).1 z hz)
        · intro z hz
          rcases List.mem_cons.1 hz with rfl | hz
          · exact h2
          · exact h4 z hz
      · rintro ⟨h1, h2⟩
        rw [List.pairwise_cons] at h1
        exact ⟨⟨h1.1 y (by simp), h2 x (by simp)⟩, h1.2, fun z hz => h2 z (by simp [List.mem_cons.1 hz])⟩

/-- What stands in a list after a cell has been put: it, unless it is the default, and the others. -/
theorem mem_putCell (base : Nat × Nat) (r : StoreRecord) (c : Cell) :
    ∀ cs : List (StoreRecord × Cell), cs.Pairwise (fun x y => x.1.addr < y.1.addr) → ∀ x : StoreRecord × Cell,
      x ∈ putCell base r c cs ↔ (x ∈ cs ∧ x.1 ≠ r) ∨ (x = (r, c) ∧ c ≠ defaultCell base r) := by
  intro cs
  induction cs with
  | nil => intro _ x; unfold putCell; split <;> simp_all
  | cons y ys ih =>
    intro hp x
    have hy := List.pairwise_cons.1 hp
    unfold putCell
    split
    · rename_i hlt
      have hne : y.1 ≠ r := by intro e; rw [e] at hlt; exact Nat.lt_irrefl _ hlt
      rw [List.mem_cons, ih hy.2 x, List.mem_cons]
      constructor
      · rintro (rfl | h | h)
        · exact Or.inl ⟨Or.inl rfl, hne⟩
        · exact Or.inl ⟨Or.inr h.1, h.2⟩
        · exact Or.inr h
      · rintro (⟨rfl | h, h2⟩ | h)
        · exact Or.inl rfl
        · exact Or.inr (Or.inl ⟨h, h2⟩)
        · exact Or.inr (Or.inr h)
    · rename_i hlt
      have later : ∀ z ∈ ys, z.1 ≠ r := by
        intro z hz e
        have := hy.1 z hz
        rw [e] at this
        exact hlt this
      split
      · rename_i he
        have : ∀ x, (x ∈ y :: ys ∧ x.1 ≠ r) ↔ x ∈ ys := by
          intro x
          constructor
          · rintro ⟨h, h2⟩
            rcases List.mem_cons.1 h with rfl | h
            · exact absurd he h2
            · exact h
          · intro h; exact ⟨List.mem_cons_of_mem _ h, later x h⟩
        rw [this x]
        split <;> simp_all [or_comm]
      · rename_i he
        have : ∀ x, (x ∈ y :: ys ∧ x.1 ≠ r) ↔ x ∈ y :: ys := by
          intro x
          constructor
          · exact fun h => h.1
          · intro h
            refine ⟨h, ?_⟩
            rcases List.mem_cons.1 h with rfl | h
            · exact he
            · exact later x h
        rw [this x]
        split
        · simp_all
        · rw [List.mem_cons]; rename_i hc; simp [hc, or_comm]

/-- Putting a cell keeps the addresses rising. -/
theorem putCell_pairwise (base : Nat × Nat) (r : StoreRecord) (c : Cell) :
    ∀ cs : List (StoreRecord × Cell), cs.Pairwise (fun x y => x.1.addr < y.1.addr) →
      (putCell base r c cs).Pairwise (fun x y => x.1.addr < y.1.addr) := by
  intro cs
  induction cs with
  | nil => intro _; unfold putCell; split <;> simp
  | cons y ys ih =>
    intro hp
    have hy := List.pairwise_cons.1 hp
    unfold putCell
    split
    · rename_i hlt
      rw [List.pairwise_cons]
      refine ⟨?_, ih hy.2⟩
      intro z hz
      rcases (mem_putCell base r c ys hy.2 z).1 hz with h | h
      · exact hy.1 z h.1
      · rw [h.1]; exact hlt
    · rename_i hlt
      split
      · rename_i he
        split
        · exact hy.2
        · rw [List.pairwise_cons]; refine ⟨?_, hy.2⟩
          intro z hz; rw [← he]; exact hy.1 z hz
      · rename_i he
        have hr : r.addr < y.1.addr := by
          rcases Nat.lt_or_ge r.addr y.1.addr with h | h
          · exact h
          · exact absurd (addr_inj (Nat.le_antisymm h (Nat.le_of_not_lt hlt))) he
        split
        · exact hp
        · rw [List.pairwise_cons]; refine ⟨?_, hp⟩
          intro z hz
          rcases List.mem_cons.1 hz with rfl | hz
          · exact hr
          · exact Nat.lt_trans hr (hy.1 z hz)

/-- Putting a cell keeps the canonical form. -/
theorem putCell_wf {base : Nat × Nat} {cs : List (StoreRecord × Cell)} (h : cellsWf base cs = true) (r : StoreRecord)
    (c : Cell) : cellsWf base (putCell base r c cs) = true := by
  rw [cellsWf_iff] at h ⊢
  refine ⟨putCell_pairwise base r c cs h.1, ?_⟩
  intro x hx
  rcases (mem_putCell base r c cs h.1 x).1 hx with h' | h'
  · exact h.2 x h'.1
  · rw [h'.1]; exact h'.2

/-- A record's cell by membership, in a list whose addresses rise. -/
theorem cellIn_of_mem {base : Nat × Nat} {cs : List (StoreRecord × Cell)}
    (h : cs.Pairwise (fun x y => x.1.addr < y.1.addr)) {x : StoreRecord × Cell} (hx : x ∈ cs) : cellIn base cs x.1 = x.2 := by
  induction cs with
  | nil => simp at hx
  | cons y ys ih =>
    have hy := List.pairwise_cons.1 h
    unfold cellIn
    by_cases he : y.1 = x.1
    · rcases List.mem_cons.1 hx with rfl | hx'
      · simp
      · have := hy.1 x hx'; rw [he] at this; exact absurd this (Nat.lt_irrefl _)
    · have hx' : x ∈ ys := by
        rcases List.mem_cons.1 hx with rfl | hx'
        · exact absurd rfl he
        · exact hx'
      have := ih hy.2 hx'
      unfold cellIn at this
      simpa [he] using this

/-- A record that is not listed has the default cell. -/
theorem cellIn_of_not_mem {base : Nat × Nat} {cs : List (StoreRecord × Cell)} {r : StoreRecord}
    (h : ∀ x ∈ cs, x.1 ≠ r) : cellIn base cs r = defaultCell base r := by
  unfold cellIn
  have : cs.find? (fun x => x.1 == r) = none := by simpa [List.find?_eq_none] using h
  rw [this]

/-- What a record reads after a cell has been put. -/
theorem cellIn_putCell {base : Nat × Nat} {cs : List (StoreRecord × Cell)} (h : cellsWf base cs = true)
    (r q : StoreRecord) (c : Cell) : cellIn base (putCell base r c cs) q = if q = r then c else cellIn base cs q := by
  have hp := ((cellsWf_iff base cs).1 h).1
  have hp' := putCell_pairwise base r c cs hp
  have hm := mem_putCell base r c cs hp
  split
  · rename_i hq
    subst hq
    by_cases hc : c = defaultCell base q
    · rw [cellIn_of_not_mem, hc]
      intro x hx
      rcases (hm x).1 hx with h' | h'
      · exact h'.2
      · exact absurd hc h'.2
    · exact cellIn_of_mem hp' ((hm (q, c)).2 (Or.inr ⟨rfl, hc⟩))
  · rename_i hq
    by_cases hx : ∃ x ∈ cs, x.1 = q
    · obtain ⟨x, hx, rfl⟩ := hx
      rw [cellIn_of_mem hp hx]
      exact cellIn_of_mem hp' ((hm x).2 (Or.inl ⟨hx, hq⟩))
    · have hn : ∀ x ∈ cs, x.1 ≠ q := fun x hx' e => hx ⟨x, hx', e⟩
      rw [cellIn_of_not_mem hn, cellIn_of_not_mem]
      intro x hx'
      rcases (hm x).1 hx' with h' | h'
      · exact hn x h'.1
      · rw [h'.1]; exact fun e => hq e.symm

/-- The store's cells are in canonical form. -/
abbrev Store.cellsHold (st : Store) : Prop := cellsWf st.base st.cells = true

/-! ## Copies and their checks (R179) -/

/-- A copy written whole has a good check. -/
@[simp] theorem sealed_good (x : Content) (n : Nat) : (Copy.sealed x n).good = true := by
  simp [Copy.good, Copy.sealed]

/-- A spoiled copy has a bad check. -/
@[simp] theorem spoiled_good (c : Copy) : c.spoiled.good = false := by
  simp only [Copy.good, Copy.spoiled, beq_eq_false_iff_ne]
  intro h
  have := congrArg (fun w : Word16 => w.getLsbD 0) h
  simp at this

@[simp] theorem sealed_content (x : Content) (n : Nat) : (Copy.sealed x n).content = x := rfl
@[simp] theorem sealed_count (x : Content) (n : Nat) : (Copy.sealed x n).count = n := rfl
@[simp] theorem spoiled_content (c : Copy) : c.spoiled.content = c.content := rfl
@[simp] theorem spoiled_count (c : Copy) : c.spoiled.count = c.count := rfl

/-- A record that is not listed is read as its formatted content. -/
@[simp] theorem defaultCell_read (base : Nat × Nat) (r : StoreRecord) :
    (defaultCell base r).read = some (formattedContent r) := by
  simp only [Cell.read, defaultCell, sealed_good, sealed_content]
  exact congrArg some (ite_self _)

/-- A record both of whose copies are spoiled is damaged. -/
@[simp] theorem spoil_both_read (c : Cell) : ((c.spoil false).spoil true).read = none := by
  simp [Cell.read, Cell.spoil]

@[simp] theorem setCell_base (st : Store) (r : StoreRecord) (c : Cell) : (st.setCell r c).base = st.base := rfl

/-- Setting a cell keeps the canonical form. -/
theorem setCell_wf {st : Store} (h : st.cellsHold) (r : StoreRecord) (c : Cell) : (st.setCell r c).cellsHold :=
  putCell_wf h r c

/-- What a record reads after a cell has been set. -/
theorem cell_setCell {st : Store} (h : st.cellsHold) (r q : StoreRecord) (c : Cell) :
    (st.setCell r c).cell q = if q = r then c else st.cell q := cellIn_putCell h r q c

@[simp] theorem writeNow_base (st : Store) (r : StoreRecord) (x : Content) : (st.writeNow r x).base = st.base := by
  unfold Store.writeNow; split <;> rfl

/-- Writing a record keeps the canonical form. -/
theorem writeNow_wf {st : Store} (h : st.cellsHold) (r : StoreRecord) (x : Content) : (st.writeNow r x).cellsHold := by
  unfold Store.writeNow; split <;> exact setCell_wf h _ _

/-- What a record reads after a write. -/
theorem cell_writeNow {st : Store} (h : st.cellsHold) (r q : StoreRecord) (x : Content) :
    (st.writeNow r x).cell q =
      if q = r then (if x = .custody none then (st.cell r).erase else (st.cell r).write x) else st.cell q := by
  unfold Store.writeNow
  split <;> rw [cell_setCell h]

/-- A write touches the cells alone. -/
theorem writeNow_frame (st : Store) (r : StoreRecord) (x : Content) :
    st.writeNow r x = { st with cells := (st.writeNow r x).cells } := by
  unfold Store.writeNow; split <;> rfl

/-- One of the format's writes keeps the canonical form. -/
theorem formatWrite_wf {st : Store} (h : st.cellsHold) (r : StoreRecord) (x : Content) : (st.formatWrite r x).cellsHold :=
  setCell_wf h _ _

/-- Copies found bad keep the canonical form. -/
theorem spoil_wf {st : Store} (h : st.cellsHold) (bad : List StoreCopy) : (st.spoil bad).cellsHold :=
  foldl_invariant _ Store.cellsHold (fun _ _ hb => setCell_wf hb _ _) bad st h

/-- Cells put one after another into an empty list are in canonical form. -/
theorem putCells_wf (base : Nat × Nat) (f : StoreRecord → Cell) (rs : List StoreRecord) :
    cellsWf base (rs.foldl (fun cs r => putCell base r (f r) cs) []) = true :=
  foldl_invariant _ (fun cs => cellsWf base cs = true) (fun _ _ hb => putCell_wf hb _ _) rs [] rfl

/-- The completed format is in canonical form. -/
theorem finishFormat_wf (st : Store) (k : Nat) (live : StoreRecord → Content) : (st.finishFormat k live).cellsHold :=
  putCells_wf _ _ _

/-- The cut-short write keeps the canonical form. -/
theorem cutShort_wf {st : Store} (h : st.cellsHold) : st.cutShort.cellsHold := by
  unfold Store.cutShort
  split
  · exact setCell_wf h _ _
  · split
    · exact setCell_wf h _ _
    · exact h
  · exact h
  · exact h

/-! ## The custody table -/

/-- The canonical form in terms of the list: places rising and below 2048. -/
theorem custodyWf_iff (t : List (Nat × CustodyRecord)) :
    custodyWf t = true ↔ t.Pairwise (fun x y => x.1 < y.1) ∧ ∀ x ∈ t, x.1 < Config.custodyPlaces := by
  induction t with
  | nil => simp [custodyWf]
  | cons x xs ih =>
    cases xs with
    | nil => simp [custodyWf]
    | cons y ys =>
      simp only [custodyWf, Bool.and_eq_true, decide_eq_true_eq, ih]
      constructor
      · rintro ⟨h1, h3, h4⟩
        refine ⟨?_, ?_⟩
        · rw [List.pairwise_cons]
          refine ⟨?_, h3⟩
          intro z hz
          rcases List.mem_cons.1 hz with rfl | hz
          · exact h1
          · exact Nat.lt_trans h1 ((List.pairwise_cons.1 h3).1 z hz)
        · intro z hz
          rcases List.mem_cons.1 hz with rfl | hz
          · exact Nat.lt_trans h1 (h4 y (by simp))
          · exact h4 z hz
      · rintro ⟨h1, h2⟩
        rw [List.pairwise_cons] at h1
        exact ⟨h1.1 y (by simp), h1.2, fun z hz => h2 z (by simp [List.mem_cons.1 hz])⟩

/-- A table with the same places is in canonical form with the other. -/
theorem custodyWf_places {t u : List (Nat × CustodyRecord)} (h : t.map (·.1) = u.map (·.1)) :
    custodyWf t = custodyWf u := by
  have key : ∀ t : List (Nat × CustodyRecord), custodyWf t = true ↔
      (t.map (·.1)).Pairwise (· < ·) ∧ ∀ p ∈ t.map (·.1), p < Config.custodyPlaces := by
    intro t; rw [custodyWf_iff, List.pairwise_map]; simp
  have := key t
  rw [h, ← key u] at this
  exact Bool.eq_iff_iff.2 this

/-- What stands in a table after a record has been placed. -/
theorem mem_placeRecord (p : Nat) (r : CustodyRecord) : ∀ t : List (Nat × CustodyRecord),
    t.Pairwise (fun x y => x.1 < y.1) → ∀ x, x ∈ placeRecord p r t ↔ (x ∈ t ∧ x.1 ≠ p) ∨ x = (p, r) := by
  intro t
  induction t with
  | nil => intro _ x; simp [placeRecord]
  | cons y ys ih =>
    intro hp x
    have hy := List.pairwise_cons.1 hp
    unfold placeRecord
    split
    · rename_i hlt
      rw [List.mem_cons, ih hy.2 x, List.mem_cons]
      constructor
      · rintro (rfl | h | h)
        · exact Or.inl ⟨Or.inl rfl, Nat.ne_of_lt hlt⟩
        · exact Or.inl ⟨Or.inr h.1, h.2⟩
        · exact Or.inr h
      · rintro (⟨rfl | h, h2⟩ | h)
        · exact Or.inl rfl
        · exact Or.inr (Or.inl ⟨h, h2⟩)
        · exact Or.inr (Or.inr h)
    · rename_i hlt
      have later : ∀ z ∈ ys, z.1 ≠ p := by intro z hz e; have := hy.1 z hz; omega
      split
      · rename_i he
        rw [List.mem_cons]
        constructor
        · rintro (h | h)
          · exact Or.inr h
          · exact Or.inl ⟨List.mem_cons_of_mem _ h, later x h⟩
        · rintro (⟨h, h2⟩ | h)
          · rcases List.mem_cons.1 h with rfl | h
            · exact absurd he h2
            · exact Or.inr h
          · exact Or.inl h
      · rename_i he
        rw [List.mem_cons]
        constructor
        · rintro (h | h)
          · exact Or.inr h
          · refine Or.inl ⟨h, ?_⟩
            rcases List.mem_cons.1 h with rfl | h
            · exact he
            · exact later x h
        · rintro (⟨h, _⟩ | h)
          · exact Or.inr h
          · exact Or.inl h

/-- Placing a record keeps the canonical form. -/
theorem placeRecord_wf {t : List (Nat × CustodyRecord)} (h : custodyWf t = true) {p : Nat} (hp : p < Config.custodyPlaces)
    (r : CustodyRecord) : custodyWf (placeRecord p r t) = true := by
  rw [custodyWf_iff] at h ⊢
  refine ⟨?_, ?_⟩
  · obtain ⟨h1, -⟩ := h
    induction t with
    | nil => simp [placeRecord]
    | cons y ys ih =>
      have hy := List.pairwise_cons.1 h1
      unfold placeRecord
      split
      · rename_i hlt
        rw [List.pairwise_cons]
        refine ⟨?_, ih hy.2⟩
        intro z hz
        rcases (mem_placeRecord p r ys hy.2 z).1 hz with h | h
        · exact hy.1 z h.1
        · rw [h]; exact hlt
      · rename_i hlt
        split
        · rename_i he
          rw [List.pairwise_cons]; refine ⟨?_, hy.2⟩
          intro z hz; rw [← he]; exact hy.1 z hz
        · rename_i he
          rw [List.pairwise_cons]; refine ⟨?_, h1⟩
          intro z hz
          have : p < y.1 := by omega
          rcases List.mem_cons.1 hz with rfl | hz
          · exact this
          · exact Nat.lt_trans this (hy.1 z hz)
  · intro x hx
    rcases (mem_placeRecord p r t h.1 x).1 hx with h' | h'
    · exact h.2 x h'.1
    · rw [h']; exact hp

/-- A record by membership, in a table whose places rise. -/
theorem recordAt_iff {t : List (Nat × CustodyRecord)} (h : t.Pairwise (fun x y => x.1 < y.1)) (p : Nat)
    (r : CustodyRecord) : recordAt p t = some r ↔ (p, r) ∈ t := by
  induction t with
  | nil => simp [recordAt]
  | cons y ys ih =>
    have hy := List.pairwise_cons.1 h
    unfold recordAt
    split
    · rename_i he
      constructor
      · intro e; injection e with e; rw [← he, ← e]; exact List.mem_cons_self
      · intro hm
        rcases List.mem_cons.1 hm with e | hm
        · rw [← e]
        · have := hy.1 _ hm; simp only at this; omega
    · rename_i he
      rw [ih hy.2, List.mem_cons]
      constructor
      · exact Or.inr
      · rintro (e | hm)
        · rw [← e] at he; exact absurd rfl he
        · exact hm

/-- What a place reads after a record has been placed. -/
theorem recordAt_placeRecord (t : List (Nat × CustodyRecord)) (p q : Nat) (r : CustodyRecord) :
    recordAt q (placeRecord p r t) = if q = p then some r else recordAt q t := by
  induction t with
  | nil =>
    unfold placeRecord recordAt
    simp only [recordAt]
    by_cases hq : q = p
    · simp [hq]
    · simp [hq, Ne.symm hq]
  | cons y ys ih =>
    unfold placeRecord
    split
    · rename_i hlt
      simp only [recordAt]
      split
      · rename_i he; rw [if_neg (by omega)]
      · exact ih
    · split
      · rename_i he
        simp only [recordAt]
        by_cases hq : q = p
        · simp [hq]
        · rw [if_neg (by omega), if_neg hq, if_neg (by omega)]
      · simp only [recordAt]
        by_cases hq : q = p
        · simp [hq]
        · rw [if_neg (by omega), if_neg hq]

/-- Records dropped from a table leave it in canonical form. -/
theorem filter_custodyWf {t : List (Nat × CustodyRecord)} (h : custodyWf t = true) (f : Nat × CustodyRecord → Bool) :
    custodyWf (t.filter f) = true := by
  rw [custodyWf_iff] at h ⊢
  exact ⟨h.1.filter _, fun x hx => h.2 x (List.mem_filter.1 hx).1⟩

/-! ### Each label at most once (R82) -/

/-- The records kept are among those found, in their order. -/
theorem labelsOnce_sublist (t : List (Nat × CustodyRecord)) : (labelsOnce t).Sublist t := by
  induction t with
  | nil => exact .slnil
  | cons x xs ih =>
    unfold labelsOnce
    simp only []
    split
    · exact ih.cons _
    · exact (List.filter_sublist.trans ih).cons_cons _

/-- No two of the records kept carry one label. -/
theorem labelsOnce_nodup (t : List (Nat × CustodyRecord)) : ((labelsOnce t).map fun x => x.2.label).Nodup := by
  induction t with
  | nil => exact .nil
  | cons x xs ih =>
    unfold labelsOnce
    simp only []
    split
    · exact ih
    · rw [List.map_cons, List.nodup_cons]
      exact ⟨by simp, ih.sublist (List.filter_sublist.map _)⟩

/-- A record whose label no other carries is kept. -/
theorem labelsOnce_keeps {t : List (Nat × CustodyRecord)} {x : Nat × CustodyRecord} (hx : x ∈ t)
    (h : ∀ y ∈ t, y.2.label = x.2.label → y = x) : x ∈ labelsOnce t := by
  induction t with
  | nil => cases hx
  | cons z zs ih =>
    unfold labelsOnce
    simp only []
    have among : ∀ y ∈ labelsOnce zs, y ∈ zs := fun y hy => (labelsOnce_sublist zs).subset hy
    rcases List.mem_cons.1 hx with rfl | hz
    · split
      · rename_i hc
        obtain ⟨y, hy, e⟩ := List.any_eq_true.1 hc.2
        simp only [Bool.and_eq_true, beq_iff_eq, bne_iff_ne] at e
        exact absurd hc.1 ((h y (List.mem_cons_of_mem _ (among y hy)) e.1) ▸ e.2)
      · exact List.mem_cons_self
    · have kept := ih hz fun y hy => h y (List.mem_cons_of_mem _ hy)
      split
      · exact kept
      · by_cases e : x.2.label = z.2.label
        · rw [h z List.mem_cons_self e.symm]; exact List.mem_cons_self
        · exact List.mem_cons_of_mem _ (List.mem_filter.2 ⟨kept, by simpa using e⟩)

/-- The table that the checks leave holds each label at most once (R82). -/
theorem custodyTable_labels (st : Store) : (st.custodyTable.map fun x => x.2.label).Nodup := labelsOnce_nodup _

/-- The record of a label stands in the table. -/
theorem record_mem {s : State} {l : Label} {p : Nat} {r : CustodyRecord} (h : s.record? l = some (p, r)) :
    (p, r) ∈ s.custody := List.mem_of_find?_eq_some h

/-- The record of a label has that label. -/
theorem record_label {s : State} {l : Label} {p : Nat} {r : CustodyRecord} (h : s.record? l = some (p, r)) :
    r.label = l := by
  have := List.find?_some h
  simpa using this

/-- The record of a label is the one at its place. -/
theorem record_place {s : State} (hw : custodyWf s.custody = true) {l : Label} {p : Nat} {r : CustodyRecord}
    (h : s.record? l = some (p, r)) : recordAt p s.custody = some r :=
  (recordAt_iff ((custodyWf_iff _).1 hw).1 p r).2 (record_mem h)

/-- Replacing the record of a place that the table holds keeps the places. -/
theorem placeRecord_places {t : List (Nat × CustodyRecord)} (h : t.Pairwise (fun x y => x.1 < y.1)) {p : Nat}
    {r : CustodyRecord} (hm : (p, r) ∈ t) (r' : CustodyRecord) : (placeRecord p r' t).map (·.1) = t.map (·.1) := by
  induction t with
  | nil => simp at hm
  | cons y ys ih =>
    have hy := List.pairwise_cons.1 h
    unfold placeRecord
    rcases List.mem_cons.1 hm with e | hm'
    · rw [← e]; simp
    · have : y.1 < p := hy.1 _ hm'
      rw [if_pos this]
      simp [ih hy.2 hm']

/-- The lowest free place is below 2048 and not in the table. -/
theorem freePlace_lt {s : State} {p : Nat} (h : s.freePlace = some p) : p < Config.custodyPlaces := by
  unfold State.freePlace at h
  simp only at h
  split at h
  · rename_i hc; injection h with h; rw [← h]; exact hc.2
  · simp at h

end Sys2Proof.Machine
end

