-- ==== Sys2Proof/Laws/Store.lean ====
section
/-! SUPPORT. The last write of each record in the store's queue (R179): what a hand-over, a write of its own, and the
beginning of the next write make of it, and what a request does behind its response. -/

namespace Sys2Proof.Machine

/-- Beginning the next write keeps the writes and their order. -/
theorem begin_writes (st : Store) : st.begin.inflight.toList ++ st.begin.queue = st.inflight.toList ++ st.queue := by
  unfold Store.begin; split <;> simp_all

theorem begin_lastWrite (st : Store) (r : StoreRecord) : st.begin.lastWrite r = st.lastWrite r := by
  unfold Store.lastWrite; rw [begin_writes]

/-- A fold sets the content of the last waiting write of its record. -/
theorem foldWrite_last (r : StoreRecord) (x : Content) (q : List Job) (h : q.any (fun j => j.record == r) = true) :
    ((foldWrite r x q).filter fun j => j.record == r).getLast?.map (·.content) = some x := by
  induction q with
  | nil => simp at h
  | cons j js ih =>
    unfold foldWrite
    split
    · rename_i hc
      have hn : js.filter (fun j => j.record == r) = [] := by
        rw [List.filter_eq_nil_iff]
        intro y hy
        simpa using List.all_eq_true.1 hc.2 y hy
      simp [hc.1, hn]
    · rename_i hc
      have hj : js.any (fun j => j.record == r) = true := by
        rw [List.any_cons] at h
        by_cases he : j.record = r
        · simp only [he, true_and, Bool.not_eq_true] at hc
          obtain ⟨y, hy, e⟩ := List.all_eq_false.1 hc
          exact List.any_eq_true.2 ⟨y, hy, by simpa using e⟩
        · simpa [he] using h
      have hl := ih hj
      rw [List.filter_cons]
      split
      · rw [List.getLast?_cons]
        cases hq : (List.filter (fun j => j.record == r) (foldWrite r x js)).getLast? <;> simp_all
      · exact hl

/-- A fold keeps the writes of every other record. -/
theorem foldWrite_other {r q : StoreRecord} (h : r ≠ q) (x : Content) (js : List Job) :
    (foldWrite r x js).filter (fun j => j.record == q) = js.filter fun j => j.record == q := by
  induction js with
  | nil => rfl
  | cons j js ih =>
    unfold foldWrite
    split
    · rename_i hc; simp [hc.1, h]
    · simp [List.filter_cons, ih]

/-- A write of its own is the last of its record, where none of a fire flag record waits, and of no other. -/
theorem append_lastWrite (st : Store) (r q : StoreRecord) (x : Content)
    (h : r.isFireFlags = true → st.queue.any (fun j => j.record == r) = false) :
    (st.append r x).lastWrite q = if q = r then some x else st.lastWrite q := by
  unfold Store.append
  rw [begin_lastWrite]
  unfold Store.lastWrite
  cases hf : r.isFireFlags
  · by_cases hq : q = r
    · subst hq; simp [List.filter_append]
    · simp [List.filter_append, Ne.symm hq, hq]
  · have hn : st.queue.filter (fun j => j.record == r) = [] := by
      rw [List.filter_eq_nil_iff]
      intro y hy
      simpa using List.any_eq_false.1 (h hf) y hy
    by_cases hq : q = r
    · subst hq; simp [List.filter_append, hn]
    · simp [List.filter_append, Ne.symm hq, hq]

/-- A hand-over makes the content the last write of its record, and of no other (R179). -/
theorem handOver_lastWrite (st : Store) (r q : StoreRecord) (x : Content) :
    (st.handOver r x).lastWrite q = if q = r then some x else st.lastWrite q := by
  unfold Store.handOver
  split
  · rename_i hc
    simp only [Bool.and_eq_true] at hc
    unfold Store.lastWrite
    by_cases hq : q = r
    · subst hq
      have hl := foldWrite_last q x st.queue hc.2
      simp only [List.filter_append, List.getLast?_append, if_true]
      cases hg : (List.filter (fun j => j.record == q) (foldWrite q x st.queue)).getLast? <;> simp_all
    · simp [List.filter_append, foldWrite_other (Ne.symm hq), hq]
  · rename_i hc
    refine append_lastWrite st r q x fun hf => ?_
    simpa [hf] using hc

/-- A record handed over is last written as its block holds it, and the other records as before; one that a format folds
is left (R179, R184). -/
theorem persist_lastWrite (r q : StoreRecord) (s : State) (h : s.store.folds r = false) :
    (s.persist r).store.lastWrite q = if q = r then some (s.liveContent r) else s.store.lastWrite q := by
  unfold State.persist
  simp [h, handOver_lastWrite]

/-- A creation's or a removal's write is the last of its record (R179). -/
theorem persistLast_lastWrite (r q : StoreRecord) (s : State) (h : r.isFireFlags = false) :
    (s.persistLast r).store.lastWrite q = if q = r then some (s.liveContent r) else s.store.lastWrite q :=
  append_lastWrite s.store r q (s.liveContent r) fun hf => absurd hf (by simp [h])

/-- With no write of the custody table in flight or waiting, no record of it has a last write (R179). -/
theorem custodyWriting_lastWrite {st : Store} (h : st.custodyWriting = false) {r : StoreRecord}
    (hr : r.isCustodyTable = true) : st.lastWrite r = none := by
  have hn : (st.inflight.toList ++ st.queue).filter (fun j => j.record == r) = [] := by
    rw [List.filter_eq_nil_iff]
    intro j hj e
    have hf := List.any_eq_false.1 h j hj
    rw [eq_of_beq e] at hf
    exact hf hr
  unfold Store.lastWrite
  rw [hn]; rfl

/-- A sweep that ends has visited every record, and the store has written the custody table (R6, R8). -/
theorem rezoneEnd_ends {s : State} {k : Nat} (hk : s.vault.rezone = some k) (h : s.rezoneEnd.vault.rezone = none) :
    s.nextShelved k = none ∧ s.store.custodyWriting = false ∧
    s.rezoneEnd = ({ s with vault := { s.vault with rezone := none } }).notify [] .rezoneDone := by
  unfold State.rezoneEnd at h ⊢
  rw [hk] at h ⊢
  dsimp only at h ⊢
  split at h
  · rw [hk] at h; cases h
  · rename_i hc
    simp only [Bool.or_eq_true, not_or, Bool.not_eq_true, Option.isSome_eq_false_iff, Option.isNone_iff_eq_none] at hc
    exact ⟨hc.1, hc.2, if_neg (by simp [hc.1, hc.2])⟩

/-- At the end of a sweep the cells of the custody table read as the table holds it (R8, R179). -/
theorem rezoneEnd_stored {s : State} {k : Nat} (hk : s.vault.rezone = some k) (hp : s.power = .running)
    (hf : s.store.format = .none) (hs : s.storeFollows) (h : s.rezoneEnd.vault.rezone = none) {r : StoreRecord}
    (hr : r.isCustodyTable = true) (hw : r.wf = true) : (s.store.cell r).read = some (s.liveContent r) := by
  have hn : s.store.lastWrite r = none := custodyWriting_lastWrite (rezoneEnd_ends hk h).2.1 hr
  rcases hs.2 hp r hw (by rintro rfl; cases hr) with ⟨_, hk, _⟩ | hl | hc
  · rw [hf] at hk; cases hk
  · rw [hn] at hl; cases hl
  · exact hc.2

/-- Every cell of a store that lists none is a default cell, whose counts are 0. -/
theorem countsWithin_of_base (st : Store) (h : st.cells = []) (b : st.base = (0, 0)) : st.countsWithin := by
  intro r; simp [Store.cell, cellIn, defaultCell, h, b]

/-- A record with a last write has a ticket that what depends on it waits on. -/
theorem lastWrite_pendingOf {st : Store} {r : StoreRecord} {x : Content} (h : st.lastWrite r = some x) :
    ∃ t, (st.pendingOf r).getLast? = some t := by
  unfold Store.lastWrite at h
  unfold Store.pendingOf
  rw [List.getLast?_map]
  cases hl : ((st.inflight.toList ++ st.queue).filter fun j => j.record == r).getLast? with
  | none => rw [hl] at h; cases h
  | some j => exact ⟨j.ticket, rfl⟩

/-- What follows a response waits on the last write of its record. -/
theorem follow_waits {s : State} {r : StoreRecord} {t : Nat} (h : (s.store.pendingOf r).getLast? = some t) (f : Followup)
    (now : State → State) :
    s.follow r f now = { s with store := { s.store with followups := s.store.followups ++ [(t, f)] } } := by
  unfold State.follow; rw [h]

/-- With no write of the record to wait for, it is done at once. -/
theorem follow_now {s : State} {r : StoreRecord} (h : s.store.pendingOf r = []) (f : Followup) (now : State → State) :
    s.follow r f now = now s := by
  unfold State.follow; rw [h]; rfl

end Sys2Proof.Machine
end

