-- ==== Sys2Proof/Tests/Slice0.lean ====
section
/-! SUPPORT. The model's own tests: the checks of WellFormed, the manual's worked examples, and for each statement
that has hypotheses a state and operands that meet them, clause by clause, at boundary values. -/

namespace Sys2Proof.Tests

open Sys2Proof.Machine

/-! ## Operands and states of the tests -/

def onFacility : ReqHead := ⟨.facility, 2, true⟩
def onArchive : ReqHead := ⟨.archive, 1, true⟩
def onHandover : ReqHead := ⟨.handover, 3, true⟩

/-- MV2207K5 -/
def tape : Label := [0x4D#8, 0x56#8, 0x32#8, 0x32#8, 0x30#8, 0x37#8, 0x4B#8, 0x35#8]

/-- QR0051C7 -/
def tape2 : Label := [0x51#8, 0x52#8, 0x30#8, 0x30#8, 0x35#8, 0x31#8, 0x43#8, 0x37#8]

/-- Eight bytes that are no label of good form. -/
def badLabel : Label := List.replicate 8 0x61#8

/-- The state after reset in a mode, at an uptime, with no sweep in flight. -/
def inMode (m : VaultMode) (up : Nat := 3600) : State :=
  { State.reset with vault := { State.reset.vault with mode := m, uptime := up, rezone := none } }

def staffed : State := inMode .staffed
def upkeep : State := inMode .maintenance

/-- MV2207K5 at 12.3.7 in Vault A, in a custody state. -/
def tapeIn (st : CustodyState) : CustodyRecord :=
  { CustodyRecord.blank tape st with
    location := some (locationOf 12 3 7), area := some .vaultA, storedDose := some 0, mark := some 0 }

def holding (r : CustodyRecord) (s : State) : State := { s with custody := [(0, r)] }

/-- A custody table with no free place. -/
def fullTable : List (Nat × CustodyRecord) :=
  (List.range 2048).map fun p => (p, CustodyRecord.blank (twoBytes p ++ [0, 0, 0, 0, 0, 0]) .inVault)

def queued (n : Nat) (s : State) : State :=
  { s with staging := { s.staging with queue := List.replicate n ⟨tape2, 0⟩ } }

def slotted (n : Fin 32) (x : Slot) (s : State) : State :=
  { s with staging := { s.staging with slots := s.staging.slots.set n x } }

def allSlots (x : Slot) (s : State) : State := { s with staging := { s.staging with slots := tabulate fun _ => x } }

/-- Consignment 7 of courier 9, with MV2207K5 to go out and one label expected in, in a state. -/
def consignIn (st : ConsignState) : Consignment :=
  { Consignment.opened 7 9 1 0 with state := st, outbound := [tape] }

def consigned (c : Consignment) (s : State) : State :=
  { s with consign := { s.consign with places := s.consign.places.set 0 (some c) } }

def allPlaces (c : Consignment) (s : State) : State :=
  { s with consign := { s.consign with places := tabulate fun _ => some c } }

def entered (es : List HatchEntry) (s : State) : State := { s with hatch := { s.hatch with entries := es } }

/-- The entry of MV2207K5 for consignment 7. -/
def outEntry : HatchEntry := ⟨tape, .outbound, 7, some 250, false⟩
def inEntry : HatchEntry := ⟨tape, .inbound, 7, some 250, false⟩

/-- An exchange open for consignment 7, with its leg as given. -/
def exchanging (leg : OuterLeg) (s : State) : State :=
  { s with hatch := { s.hatch with exchange := some ⟨7, 9, 4500, leg, [], []⟩ } }

/-- A side in possession, its latch RELEASED. -/
def possessing (side : Side) (purpose : Option Purpose) (s : State) : State :=
  (s.onDoor side fun d => { d with released := true }).onArbiter fun a =>
    { a with grant := some side, possession := true, purpose := purpose, lapseAt := some 3600 }

def opened (side : Side) (s : State) : State := s.onDoor side fun d => { d with isOpen := true, openedAt := some 3420 }

def burning (a : Area) (st : FireState) (s : State) : State := s.onFireArea a fun x => { x with state := st }

def sensing (c : Channel) (h : Option Held) (s : State) : State :=
  { s with climate := { s.climate with channels := s.climate.channels.set c ⟨.good, h, 0, false⟩ } }

def sweeping (w : Sweep) (s : State) : State := s.setSweep w

def formatting (k : Nat) (s : State) : State := { s with store := { s.store with format := .writing k } }

def writing (r : StoreRecord) (s : State) : State :=
  { s with store := { s.store with inflight := some ⟨0, r, formattedContent r⟩, nextTicket := 1 } }

/-- What a command gives, where it gives a next state. -/
def after (c : Instr) (s : State) : Option State :=
  match exec c s with
  | .next t => some t
  | .fault _ => none
  | .refused _ => none

/-- The code of the response being sent on a port, else of the last that waits there. -/
def codeOn (p : Port) (s : State) : Option ResultCode :=
  match (s.link p).sending with
  | some (.response r) => some r.code
  | some (.notice _) => (s.link p).responses.getLast?.map (·.code)
  | none => none

/-- The code that a request is answered with at once. -/
def codeOf (c : Instr) (p : Port) (s : State) : Option ResultCode := (after c s).bind (codeOn p)

/-! ## WellFormed: each check refuses an ill-formed command -/

theorem test_wf_refuses_place : Instr.wf (.powerOn [⟨.custody 2048, false⟩]) = false ∧
    Instr.wf (.resetLineHigh [⟨.key 2048, true⟩]) = false ∧ Instr.wf (.restartTaken [⟨.custody 2047, false⟩]) = true := by
  decide

theorem test_wf_refuses_short_label : Instr.wf (.enrol onArchive [0x4D#8] 0) = false ∧
    Instr.wf (.enrol onArchive badLabel 0) = true := by decide

theorem test_wf_refuses_wide_number : Instr.wf (.consignSeal onArchive 65536) = false ∧
    Instr.wf (.consignAdd onArchive 65536 tape) = false ∧ Instr.wf (.arrive onHandover 7 65536 0) = false ∧
    Instr.wf (.hatchRequest onArchive (.load 65536)) = false ∧ Instr.wf (.consignOpen onArchive 65536 0) = false ∧
    Instr.wf (.consignOpen onArchive 65535 0) = true := by decide

theorem test_wf_refuses_wide_dose : Instr.wf (.setStaging onArchive ⟨0, 0, 0, 300, 1, 0, 5, 4294967296, 300⟩) = false := by
  decide

theorem test_wf_refuses_kind : Instr.wf (.unknownRequestKind onFacility 0x40#8) = false ∧
    Instr.wf (.nonRequestFrame .facility 0x3F#8) = false ∧ Instr.wf (.unknownRequestKind onFacility 0x3F#8) = true ∧
    Instr.wf (.nonRequestFrame .facility 0x40#8) = true := by decide

/-! ## The manual's worked examples -/

/-- The CRC of R127 over the nine characters. -/
theorem test_crc_check : crc16 [0x31#8, 0x32#8, 0x33#8, 0x34#8, 0x35#8, 0x36#8, 0x37#8, 0x38#8, 0x39#8] = 0x29B1#16 := by
  decide +kernel

/-- The descriptors of R4's example. -/
def exampleDescriptors : Vector Descriptor 8 :=
  (((State.reset.vault.descriptors.set 0 ⟨true, locationOf 12 0 0, 8, .vaultB⟩).set 1
    ⟨true, locationOf 12 40 0, 16, .vaultA⟩).set 5 ⟨true, locationOf 12 40 128, 17, .vaultB⟩).set 6
    ⟨true, locationOf 30 0 0, 7, .vaultB⟩

theorem test_locations : resolveLocation exampleDescriptors (locationOf 12 40 7) = .vaultA ∧
    resolveLocation exampleDescriptors (locationOf 12 40 200) = .vaultB ∧
    resolveLocation exampleDescriptors (locationOf 12 41 7) = .vaultB ∧
    resolveLocation exampleDescriptors (locationOf 31 2 2) = .vaultB ∧
    resolveLocation exampleDescriptors (locationOf 13 0 0) = .vaultA := by decide

theorem test_dew_points : Held.dewPoint ⟨310, 780⟩ = 266 ∧ Held.dewPoint ⟨310, 783⟩ = 267 ∧ Held.dewPoint ⟨180, 400⟩ = 60 ∧
    Held.dewPoint ⟨250, 150⟩ = 90 ∧ Held.dewPoint ⟨-200, 0⟩ = -360 := by decide

theorem test_acclimatisation : acclimatise 180 300 64 = 210 ∧ acclimatise 210 300 64 = 232 ∧ acclimatise 232 300 64 = 249 ∧
    acclimatise 310 280 32 = 307 ∧ acclimatise 307 280 32 = 304 ∧ acclimatise 299 300 64 = 300 := by decide

theorem test_token_input : Consignment.tokenInput { Consignment.opened 41 517 2 0 with outbound := [tape, tape2] } =
    [0x00#8, 0x29#8, 0x02#8, 0x05#8, 0x02#8, 0x02#8] ++ tape ++ tape2 := by decide

/-- R123's example: with 65535, 1 and 2 in use, the number after 65534 is 3. -/
theorem test_number_wraps :
    let s := holding { tapeIn .inVault with consignment := some 65535 } (consigned (Consignment.opened 1 9 0 0)
      { staffed with consign := { staffed.consign with
          counter := 65534, places := staffed.consign.places.set 1 (some (Consignment.opened 2 9 0 0)) } })
    s.issueNumber = 3 := by decide

/-! ## Witnesses: chapter 10 and the step -/

theorem test_witness_StepRunsTheFrontCommand :
    ({ State.reset with pending := [.timeBaseSecond, .sweepDue] } : State).pending = [Instr.timeBaseSecond, .sweepDue] ∧
    State.reset.pending = [] ∧ ({ State.reset with power := .off } : State).power = .off ∧
    State.reset.power = .running ∧ ({ State.reset with power := .off } : State).power ≠ .running := by decide

/-- After reset RESTARTED waits on each port with the transmitter idle; the first step without a command starts it, a
response joins behind it, and the end of a frame is its end. -/
theorem test_restarted_leaves_first :
    let restarted : Notice := ⟨0, .restarted .powerOn DamageFlags.clear⟩
    let first := fun s : State => (s.links.archive.sending, s.links.archive.notices, s.links.archive.responses.length)
    first State.reset = (none, [restarted], 0) ∧ first State.reset.startTransmitters = (some (.notice restarted), [], 0) ∧
    (after (.subscribe onArchive 0x3F#8) State.reset).map first = some (some (.notice restarted), [], 1) ∧
    (after (.frameTransmitEnd .archive) State.reset).map first = some (none, [], 0) := by decide

theorem test_witness_EveryCommandAnswersAndKeepsTheQueue :
    ({ staffed with power := .off } : State).power ≠ .running ∧ ({ staffed with power := .stopped } : State).power ≠ .running ∧
    Instr.actsWhenStopped .sweepDue = false ∧ Instr.actsWhenStopped .resetLineLow = false := by decide

/-- A write in flight that an output waits on, and records of which none is being written. -/
theorem test_witness_SharedOperationsLeaveTheRest :
    let s := writing (.slot 31) staffed
    s.awaits [.counter, .slot 31] = [0] ∧ s.awaits [.slot 31] ≠ [] ∧ s.awaits [.slot 30] = [] ∧
    (∃ j ∈ s.store.inflight.toList ++ s.store.queue, j.record ∈ [StoreRecord.slot 31] ∧ j.ticket = 0) := by decide

/-- The four checks of R172, each with a request that fails it alone, and the last with STATUS passing. -/
theorem test_witness_LinkUnitChecksEveryRequest :
    let busy := staffed.onLink .archive fun l => { l with outstanding := true }
    Instr.requestOf (.retire onArchive tape) = some (onArchive, .retire, true) ∧ staffed.power = .running ∧
    (busy.link .archive).outstanding = true ∧
    (staffed.link .archive).outstanding = false ∧ (⟨.archive, 1, false⟩ : ReqHead).lengthRight = false ∧
    Instr.requestOf (.hatchRequest onArchive .absent) = some (onArchive, .hatchRequest, false) ∧
    Instr.requestOf (.retire onFacility tape) = some (onFacility, .retire, true) ∧
    RequestKind.permitted .retire .facility = false ∧ RequestKind.permitted .retire .archive = true ∧
    (formatting 2 staffed).store.format.inFlight = true ∧ RequestKind.retire ≠ .status := by decide

theorem test_link_checks_answer :
    codeOf (.retire onArchive tape) .archive (staffed.onLink .archive fun l => { l with outstanding := true }) = some .busy ∧
    codeOf (.retire ⟨.archive, 1, false⟩ tape) .archive staffed = some .invalid ∧
    codeOf (.retire onFacility tape) .facility staffed = some .permission ∧
    codeOf (.retire onArchive tape) .archive (formatting 2 staffed) = some .busy ∧
    codeOf (.status onArchive) .archive (formatting 2 staffed) = some .ok ∧
    codeOf (.unknownRequestKind onHandover 0x00#8) .handover staffed = some .invalid := by decide

/-- 20 s of silence at its boundary, a lost link, and bytes of each kind. -/
theorem test_witness_OtherFramesAndSilence :
    let quiet := fun up => { inMode .staffed up with links := { State.reset.links with lastValid := 100 } }
    let lost := { staffed with links := { staffed.links with lost := true } }
    let wrong : List Byte := [0x00#8, 0x40#8, 0x01#8]
    staffed.power = .running ∧ Port.archive ≠ .facility ∧ staffed.links.lost = false ∧ lost.links.lost = true ∧
    ((quiet 120).links.lastValid + 20 ≤ (quiet 120).vault.uptime) ∧
    ((quiet 119).vault.uptime < (quiet 119).links.lastValid + 20) ∧
    (0xA4#8 : Byte) ≠ 0xA5#8 ∧ (⟨0x00#8, false⟩ : LineByte).stopBit = false ∧ 96 < (0x61#8 : Byte).toNat ∧
    (List.replicate 96 (0#8 : Byte)).length ≤ 96 ∧ [0x00#8, 0x00#8] ≠ [highByte (crc16 wrong), lowByte (crc16 wrong)] ∧
    (∀ e ∈ (Receiver.run .hunting [⟨0xA5#8, true⟩, ⟨0x61#8, true⟩]).2, e = .discard) ∧
    (∃ e ∈ (Receiver.run .hunting ((frameBytes 0x40#8 0x01#8 []).map fun b => ⟨b, true⟩)).2, e ≠ .discard) := by
  decide +kernel

/-- Bodies of both lengths; a transmitter that sends a response of each kind, one that sends a notice, and one idle. -/
theorem test_witness_ReceiverReadsBackEveryFrame :
    let sending := fun f : SentFrame => ({ Link.initial .archive with sending := some f } : Link)
    let unknown : Response := ⟨.undefinedKind 0x3F#8, 1, .invalid, .none, true⟩
    let mask : Response := ⟨.subscribe, 1, .ok, .mask 0x3D#8, false⟩
    (List.replicate 96 (0xA5#8 : Byte)).length ≤ 96 ∧ ([] : List Byte).length ≤ 96 ∧
    (sending (.response unknown)).sending = some (.response unknown) ∧ unknown.kind = .undefinedKind 0x3F#8 ∧
    (unknown.code ≠ .ok ∧ unknown.code ≠ .accepted ∧ unknown.data = .none) ∧
    (∀ k, mask.kind ≠ .undefinedKind k) ∧ (mask.code = .ok ∧ mask.data = .mask 0x3D#8) ∧
    (sending (.notice ⟨0, .pickLapsed tape⟩)).sending = some (.notice ⟨0, .pickLapsed tape⟩) ∧ tape.length = 8 ∧
    (sending (.notice ⟨0, .rezoneDone⟩)).sending = some (.notice ⟨0, .rezoneDone⟩) ∧
    (Link.initial .archive).sending = none ∧ (sending (.response mask)).sending.isSome = true := by
  refine ⟨by decide, by decide, rfl, rfl, by decide, ?_, by decide, rfl, rfl, rfl, rfl, rfl⟩
  intro k h
  exact RequestKind.noConfusion h

/-- The INVALID of a KIND that names no request, and a notice without content, as bytes on the line. -/
theorem test_frames_on_the_line :
    Response.frame ⟨.undefinedKind 0x3F#8, 7, .invalid, .none, true⟩ =
      (let c := [0x01#8, 0xBF#8, 0x07#8, 0x08#8]
       [0xA5#8] ++ c ++ [highByte (crc16 c), lowByte (crc16 c)]) ∧
    Notice.frameBody ⟨0x01020304#32, .pickLapsed tape⟩ = [0x01#8, 0x02#8, 0x03#8, 0x04#8] ++ tape ∧
    Link.lineBytes (Link.initial .archive) = [] ∧ Link.lineBits (Link.initial .archive) = [] ∧
    bitsOfByte ⟨0xA5#8, true⟩ = [.start, .data true, .data false, .data true, .data false, .data false, .data true,
      .data false, .data true, .stop true] ∧
    byteOfBits (bitsOfByte ⟨0x61#8, false⟩) = some ⟨0x61#8, false⟩ ∧ byteOfBits [.start, .data true, .stop true] = none := by
  decide +kernel

/-- Fields of notices and responses: PICK with its place, its number and the free bytes of an absent place; a mode; and
RELOCATE's area and dose. -/
theorem test_fields_of_bodies :
    NoticeBody.content (.pick tape (some (locationOf 12 3 255)) 31) = tape ++ [12#8, 3#8, 255#8, 31#8] ∧
    NoticeBody.content (.pick tape none 0) =
      tape ++ [Config.absentByte 3 0, Config.absentByte 3 1, Config.absentByte 3 2, 0#8] ∧
    NoticeBody.content (.climateAlarm .hatch 650) = [4#8, 0x02#8, 0x8A#8] ∧
    NoticeBody.content (.sensorState .outside .failed) = [5#8, Config.nameByte (.channelState .failed)] ∧
    ResponseData.bytes (.relocated .vaultB (some 0x01020304)) = [2#8, 1#8, 2#8, 3#8, 4#8] ∧
    (∃ r : Response, r.code = .ok ∧ r.code ≠ .accepted) := ⟨rfl, rfl, rfl, rfl, rfl, ⟨.subscribe, 1, .ok, .none, false⟩, rfl,
      fun h => ResultCode.noConfusion h⟩

/-- Queues of 15 and 16, with a notice of each kind to make room. -/
theorem test_witness_NoticesAreQueuedByClass :
    let l := Link.initial .archive
    let fire : Notice := ⟨0, .agentSpent .vaultA⟩
    let hold : Notice := ⟨0, .hold⟩
    let of_ := fun ns : List Notice => { l with notices := ns }
    (of_ (List.replicate 15 hold)).notices.length < 16 ∧ (of_ (List.replicate 16 hold)).notices.length = 16 ∧
    hold.body.cls ≠ .fire ∧ fire.body.cls = .fire ∧
    (of_ ([fire] ++ hold :: List.replicate 14 fire)).notices.length = 16 ∧ (∀ x ∈ [fire], x.body.cls = .fire) ∧
    (of_ (fire :: List.replicate 15 fire)).notices.length = 16 ∧
    (∀ x ∈ (of_ (fire :: List.replicate 15 fire)).notices, x.body.cls = .fire) := by decide

/-- A transmitter that is busy, one with a response and one with a notice to send, and RESTART's response leaving. -/
theorem test_witness_TransmitterSendsResponsesFirst :
    let l := Link.initial .facility
    let r : Response := ⟨.restart, 2, .ok, .none, false⟩
    let n : Notice := ⟨0, .hold⟩
    let own : Response := { r with own := true }
    let leaving := staffed.onLink .facility fun l => { l with sending := some (.response r) }
    ({ l with sending := some (.notice n) } : Link).sending = some (.notice n) ∧ l.sending = none ∧
    ({ l with responses := [r] } : Link).responses = [r] ∧ ({ l with notices := [n] } : Link).notices = [n] ∧
    l.responses = [] ∧ l.notices = [] ∧ r.own = false ∧ own.own = true ∧
    ¬ ((Port.archive) = .facility) ∧
    (leaving.link .facility).start.sending = some (.response r) ∧ r.kind = .restart ∧ r.code = .ok ∧ leaving.power = .running := by
  decide

theorem test_witness_SubscribeAndStatusAnswer :
    staffed.accepts onArchive .subscribe ∧ (0x3F#8 : Byte).toNat < 64 ∧ 64 ≤ (0x40#8 : Byte).toNat ∧
    (formatting 2 staffed).accepts onHandover .status := by decide

/-! ## Witnesses: chapter 1 -/

/-- Each check of R10, and a change to each kind of mode, with and without a pending inner request. -/
theorem test_witness_ModeAndClocksAreSet :
    let swept := { upkeep with vault := { upkeep.vault with rezone := some 0 } }
    let pending := staffed.onArbiter fun a => { a with pendingInner := some .unload }
    let released := staffed.onDoor .outer fun d => { d with released := true }
    staffed.accepts onFacility .setMode ∧ VaultMode.staffed = staffed.vault.mode ∧
    (VaultMode.staffed ≠ swept.vault.mode ∧ swept.vault.mode = .maintenance ∧ swept.vault.rezone.isSome = true ∧
      swept.accepts onFacility .setMode) ∧
    (VaultMode.maintenance ≠ released.vault.mode ∧ released.hatch.outer.released = true ∧
      released.accepts onFacility .setMode) ∧
    (exchanging .waiting staffed).hatch.exchange.isSome = true ∧
    (VaultMode.staffed ≠ upkeep.vault.mode ∧ ¬ (upkeep.vault.mode = .maintenance ∧ upkeep.vault.rezone.isSome = true) ∧
      upkeep.accepts onFacility .setMode) ∧
    (VaultMode.maintenance ≠ staffed.vault.mode ∧ staffed.hatch.exchange.isSome = false ∧
      staffed.hatch.inner.released = false ∧ staffed.hatch.outer.released = false ∧
      staffed.hatch.arbiter.pendingInner = none) ∧
    (VaultMode.unstaffed ≠ .staffed ∧ pending.hatch.arbiter.pendingInner.isSome = true ∧
      pending.accepts onFacility .setMode) := by decide

/-- A snapshot point due at 3600 s, one taken already, and a second at the top of uptime. -/
theorem test_witness_ModeAndClocksAreSet_clocks :
    let taken := { staffed with vault := { staffed.vault with lastSnapshotAt := some 3600 } }
    let top := inMode .staffed 4294967295
    staffed.power = .running ∧ staffed.accepts onFacility .setTime ∧
    (staffed.vault.uptime % 60 = 0 ∧ staffed.vault.lastSnapshotAt ≠ some staffed.vault.uptime) ∧
    taken.vault.lastSnapshotAt = some taken.vault.uptime ∧ (inMode .staffed 3601).vault.uptime % 60 ≠ 0 ∧
    top.vault.uptime = 4294967295 := by decide

theorem test_clock_wraps :
    ((after .timeBaseSecond { inMode .staffed 4294967295 with
      vault := { (inMode .staffed 4294967295).vault with clock := 0xFFFFFFFF#32 } }).map
        fun t => (t.vault.clock, t.vault.uptime)) = some (0, 4294967295) := by decide

/-- Each field of SET_DESCRIPTOR just outside its range, and a write that changes and one that does not. -/
theorem test_witness_SetDescriptorStartsARezoneSweep :
    let swept := { upkeep with vault := { upkeep.vault with rezone := some 2048 } }
    upkeep.accepts onFacility .setDescriptor ∧ staffed.vault.mode ≠ .maintenance ∧
    (staffed.accepts onFacility .setDescriptor) ∧
    (swept.vault.mode = .maintenance ∧ swept.vault.rezone.isSome = true ∧ swept.accepts onFacility .setDescriptor) ∧
    (upkeep.vault.mode = .maintenance ∧ upkeep.vault.rezone = none) ∧
    (8 : Nat) ≤ 8 ∧ (24 : Nat) < 25 ∧ ((3 : Nat) ≠ 1 ∧ (3 : Nat) ≠ 2) ∧ (locationOf 0 0 1).toNat % 2 ^ (24 - 23) ≠ 0 ∧
    ((7 : Nat) = (7 : Fin 8).val ∧ (locationOf 12 3 7).toNat % 2 ^ (24 - 24) = 0 ∧ (24 : Nat) ≤ 24 ∧
      (⟨true, locationOf 12 3 7, 24, .vaultB⟩ : Descriptor) ≠ upkeep.vault.descriptors[(7 : Fin 8)]) ∧
    ((0 : Location).toNat % 2 ^ (24 - 0) = 0 ∧ (⟨false, 0, 0, .vaultA⟩ : Descriptor) = upkeep.vault.descriptors[(0 : Fin 8)]) := by
  decide

/-- The sweep of SET_DESCRIPTOR starts behind ACCEPTED, with the descriptor in the store (R5, R7). -/
theorem test_sweep_starts_behind_accepted :
    let c := Instr.setDescriptor onFacility 7 (some true) (locationOf 12 3 7) 24 2
    let seen := fun t : State => (t.vault.rezone, t.links.facility.responses.map (·.code),
      (t.store.cell .config).first.content == t.liveContent .config)
    let s := upkeep.startTransmitters
    (after c s).map seen = some (none, [], false) ∧
    ((after c s).bind (after .rezoneSweepStep)).map seen = some (none, [], false) ∧
    ((after c s).bind (after .storeWriteEnd)).map seen = some (some 0, [.accepted], true) := by decide +kernel

/-- A record that agrees with the descriptors, one that does not, a sweep with nothing left, with and without a key entry
being written, and none in flight. -/
theorem test_witness_RezoneSweepVisitsShelvedRecords :
    let moved := holding { tapeIn .picking with area := some .vaultB } State.reset
    let done := holding (tapeIn .withCourier) State.reset
    (moved.power = .running ∧ moved.vault.rezone = some 0 ∧
      moved.custody.find? (fun x => decide (0 ≤ x.1) && (x.2.state == .inVault || x.2.state == .requested ||
        x.2.state == .picking)) = some (0, { tapeIn .picking with area := some .vaultB }) ∧
      (tapeIn .picking).location = some (locationOf 12 3 7) ∧
      some Area.vaultB ≠ some (resolveLocation moved.vault.descriptors (locationOf 12 3 7)) ∧
      some Area.vaultA = some (resolveLocation moved.vault.descriptors (locationOf 12 3 7))) ∧
    (done.vault.rezone = some 0 ∧
      ∀ x ∈ done.custody, 0 ≤ x.1 → x.2.state ≠ .inVault ∧ x.2.state ≠ .requested ∧ x.2.state ≠ .picking) ∧
    (done.store.custodyWriting = false ∧ (writing (.key 2047) done).store.custodyWriting = true) ∧
    (custodyWf moved.custody = true ∧ ∀ x ∈ moved.custody, ¬ x.1 < 0) ∧
    ((0, tapeIn .inVault) ∈ (holding (tapeIn .inVault) State.reset).custody ∧ (tapeIn .inVault).state = .inVault) ∧
    staffed.vault.rezone = none := by decide

/-- The sweep that settled a record ends when the record's write has ended (R6, R8). -/
theorem test_sweep_ends_behind_its_writes :
    let s := { holding { tapeIn .inVault with area := some .vaultB } State.reset with links := staffed.links }
    let rezone := fun t : State => t.vault.rezone
    let swept := after .rezoneSweepStep s
    (swept.bind (after .rezoneDone)).map rezone = some (some 1) ∧
    ((swept.bind (after .storeWriteEnd)).bind (after .rezoneDone)).map rezone = some none := by decide +kernel

/-- A part whose sweep has passed its one record, which the store holds. -/
def sweptPart : State :=
  let st := State.reset.store.writeNow (.custody 0) (.custody (some (tapeIn .inVault)))
  { holding (tapeIn .inVault) State.reset with
    vault := { State.reset.vault with rezone := some 1 }, store := st.writeNow (.key 0) (.key (some tape)) }

theorem sweptPart_cells : sweptPart.store.cells.map (·.1) = [.custody 0, .key 0] := by decide +kernel

theorem sweptPart_cell {r : StoreRecord} (hc : r ≠ .custody 0) (hk : r ≠ .key 0) :
    sweptPart.store.cell r = defaultCell (0, 0) r :=
  cellIn_of_not_mem fun x hx e => by
    have hm := List.mem_map_of_mem (f := (·.1)) hx
    rw [sweptPart_cells, e] at hm
    simp [hc, hk] at hm

theorem sweptPart_follows : sweptPart.storeFollows := by
  constructor
  · intro r
    by_cases hc : r = .custody 0
    · subst hc; decide +kernel
    by_cases hk : r = .key 0
    · subst hk; decide +kernel
    rw [sweptPart_cell hc hk]; simp [defaultCell]
  · intro _ r _ hn
    refine Or.inr (Or.inr ⟨rfl, ?_⟩)
    by_cases hc : r = .custody 0
    · subst hc; decide +kernel
    by_cases hk : r = .key 0
    · subst hk; decide +kernel
    rw [sweptPart_cell hc hk, defaultCell_read]
    refine congrArg some ?_
    cases r with
    | snapshot => exact absurd rfl hn
    | custody p =>
      have hp : (0 : Nat) ≠ p := fun e => hc (e ▸ rfl)
      simp [formattedContent, State.liveContent, sweptPart, holding, recordAt, hp]
    | key p =>
      have hp : (0 : Nat) ≠ p := fun e => hk (e ▸ rfl)
      simp [formattedContent, State.liveContent, sweptPart, holding, recordAt, hp]
    | consignment i => revert i; decide +kernel
    | slot i => revert i; decide +kernel
    | accumulator a => cases a <;> rfl
    | fireFlags a => cases a <;> rfl
    | config => decide
    | _ => rfl

/-- The end of the sweep and the loss of supply leave the cells of the store as they were. -/
theorem sweptPart_cells_kept : sweptPart.rezoneEnd.loseSupply.store.cells = sweptPart.store.cells := by decide +kernel

theorem sweptPart_base_kept : sweptPart.rezoneEnd.loseSupply.store.base = sweptPart.store.base := by decide +kernel

theorem sweptPart_content : sweptPart.rezoneEnd.loseSupply.store.content .config = some (.config ConfigRecord.default) := by
  have hd : cellIn sweptPart.store.base sweptPart.store.cells .config = defaultCell (0, 0) .config :=
    sweptPart_cell nofun nofun
  unfold Store.content Store.cell
  rw [sweptPart_base_kept, sweptPart_cells_kept, hd, defaultCell_read, formattedContent]

theorem config_of_content {st : Store} {c : ConfigRecord} (h : st.content .config = some (.config c)) : st.config = c := by
  unfold Store.config
  rw [h]

/-- The supply fails at the REZONE_DONE of a sweep that has passed its one record (R8). -/
theorem test_witness_RezoneSweepVisitsShelvedRecords_restart :
    sweptPart.power = .running ∧ sweptPart.vault.rezone = some 1 ∧ sweptPart.tablesCanonical = true ∧
    sweptPart.storeFollows ∧ sweptPart.store.format = .none ∧
    (∀ x ∈ sweptPart.custody, x.1 < 1 ∧ x.2.state = .inVault ∧
      ∀ l, x.2.location = some l → x.2.area = some (resolveLocation sweptPart.vault.descriptors l)) ∧
    exec .rezoneDone sweptPart = .next sweptPart.rezoneEnd ∧ sweptPart.rezoneEnd.vault.rezone = none ∧
    exec .lossOfSupply sweptPart.rezoneEnd = .next sweptPart.rezoneEnd.loseSupply ∧
    sweptPart.rezoneEnd.loseSupply.store.config.descriptors = sweptPart.vault.descriptors := by
  refine ⟨rfl, rfl, by decide +kernel, sweptPart_follows, rfl, ?_, congrArg _ (if_pos rfl), by decide +kernel, rfl,
    congrArg (·.descriptors) (config_of_content sweptPart_content)⟩
  intro x hx
  obtain rfl := List.mem_singleton.1 hx
  exact ⟨by decide, rfl, by rintro l ⟨⟩; decide +kernel⟩

/-- In R4's example 12.40.200 matches descriptors 0, 1 and 5, and 13.0.0 matches none. -/
theorem test_witness_LocationTakesTheHighestMatch :
    let matches_ := fun (l : Location) (i : Fin 8) => (exampleDescriptors[i]).enabled = true ∧
      (exampleDescriptors[i]).prefixValue.toNat / 2 ^ (24 - (exampleDescriptors[i]).prefixLength) =
        l.toNat / 2 ^ (24 - (exampleDescriptors[i]).prefixLength)
    (matches_ (locationOf 12 40 200) 5 ∧ matches_ (locationOf 12 40 200) 1 ∧ ∀ j, 5 < j → ¬ matches_ (locationOf 12 40 200) j) ∧
    ∀ i, ¬ matches_ (locationOf 13 0 0) i := by decide

/-! ## Witnesses: chapter 2 -/

/-- A sweep due, one due while a read is in flight, one not due; and each state of the sweep, with the wait at 30 s. -/
theorem test_witness_SweepsStartOrAreDropped :
    let since := fun n => sweeping (.waiting .outside n) staffed
    let reading := sweeping (.reading (.area .hatch)) staffed
    let taken := { staffed with climate := { staffed.climate with lastSweepDueAt := some 3600 } }
    staffed.power = .running ∧
    (staffed.vault.uptime % 60 = 0 ∧ staffed.climate.lastSweepDueAt ≠ some staffed.vault.uptime ∧
      staffed.climate.sweep = .idle) ∧
    (reading.vault.uptime % 60 = 0 ∧ reading.climate.lastSweepDueAt ≠ some reading.vault.uptime ∧
      reading.climate.sweep ≠ .idle ∧ reading.climate.sweep = .reading (.area .hatch)) ∧
    taken.climate.lastSweepDueAt = some taken.vault.uptime ∧
    ((since 3570).climate.sweep = .waiting .outside 3570 ∧ 3570 + 30 ≤ (since 3570).vault.uptime) ∧
    ((since 3571).climate.sweep = .waiting .outside 3571 ∧ (since 3571).vault.uptime < 3571 + 30) ∧
    (sweeping (.ended .outside) staffed).climate.sweep = .ended .outside := by decide

/-- A good word at each end of the ranges and a bad one; channel records by state and count; and the decisions. -/
theorem test_witness_ReadingsMoveChannelsAndOutputs :
    let g : ClimateSettings := ⟨450, 30, 280, 1, 450, 32⟩
    let chk := fun b1 b2 b3 b4 : Byte => (crc16 [b1, b2, b3, b4]).setWidth 8
    SensorReading.value (.word 0xFF#8 0x38#8 0x04#8 0x1A#8 (chk 0xFF#8 0x38#8 0x04#8 0x1A#8)) = some ⟨-200, 1000⟩ ∧
    SensorReading.value (.word 0x02#8 0x58#8 0x00#8 0x00#8 (chk 0x02#8 0x58#8 0x00#8 0x00#8)) = some ⟨600, 0⟩ ∧
    SensorReading.value (.word 0x02#8 0x59#8 0x00#8 0x00#8 (chk 0x02#8 0x59#8 0x00#8 0x00#8)) = none ∧
    SensorReading.value (.word 0x00#8 0x00#8 0x04#8 0x1B#8 (chk 0x00#8 0x00#8 0x04#8 0x1B#8)) = none ∧
    ChannelRecord.initial.state = .none ∧ ChannelRecord.initial.missCount + 1 < 3 ∧
    (⟨.stale, none, 2, false⟩ : ChannelRecord).missCount + 1 = 3 ∧ (⟨.good, none, 0, false⟩ : ChannelRecord).state = .good ∧
    (⟨.failed, none, 255, true⟩ : ChannelRecord).state = .failed ∧
    (⟨.good, some ⟨270, 480⟩, 0, false⟩ : ChannelRecord).held = some ⟨270, 480⟩ ∧ g.rhTarget + g.rhBand ≤ 480 ∧
    420 + g.rhBand ≤ g.rhTarget ∧ (270 : Int) ≤ (g.heatTarget : Int) - 10 ∧ (g.heatTarget : Int) ≤ 280 ∧
    ((g.heatTarget : Int) - 10 < 271 ∧ (271 : Int) < g.heatTarget) := by decide +kernel

theorem test_witness_SampleEventDrivesClimateAndDose :
    staffed.power = .running ∧ (sweeping (.reading .outside) staffed).climate.sweep = .reading .outside ∧
    (sweeping (.ended (.area .vaultA)) staffed).climate.sweep = .ended (.area .vaultA) ∧ staffed.climate.sweep = .idle ∧
    (sweeping (.waiting .outside 0) staffed).climate.sweep = .waiting .outside 0 ∧
    (let s := sweeping (.reading (.area .hatch)) (entered [outEntry, { inEntry with estimate := none }] staffed)
     let pends := s.onArbiter fun a => { a with pendingOuter := true }
     s.climate.sweep = .reading (.area .hatch) ∧ s.hatch.arbiter.pendingOuter = false ∧ Channel.area .hatch ≠ .area .staging ∧
     (pends.hatch.arbiter.pendingOuter = true ∧ pends.hatch.arbiter.possession = false) ∧
     (possessing .inner none pends).hatch.arbiter.possession = true) := by decide

/-- A Hatch sample event steps the entries of the list, and an Outside one gives an IN entry its base; the bus. -/
theorem test_hatch_samples_step_entries :
    let w := [0x01#8, 0x18#8, 0x01#8, 0xC2#8]
    let reading := SensorReading.word 0x01#8 0x18#8 0x01#8 0xC2#8 ((crc16 w).setWidth 8)
    let s := entered [outEntry, { inEntry with estimate := none }] staffed
    (after (.sampleEvent reading) (sweeping (.reading (.area .hatch)) s)).map (fun t => t.hatch.entries.map (·.estimate)) =
      some [some 253, none] ∧
    (after (.sampleEvent reading) (sweeping (.reading .outside) s)).map (fun t => t.hatch.entries.map (·.estimate)) =
      some [some 250, some 280] ∧
    (after .sensorReadStart (sweeping (.waiting .outside 0) s)).map (fun t => t.climate.bus) =
      some [.start, .addressRead 0x4C#7] ∧
    (after (.sampleEvent .noAck) (sweeping (.reading .outside) s)).map (fun t => t.climate.bus) = some [.stop] := by
  decide +kernel

/-- The limit of a read acknowledges the bytes that were in, whose number is a free value, and stops. -/
theorem test_read_limit_stops_the_bus :
    (after .readTimeLimit (sweeping (.reading .outside) staffed)).map (fun t => (t.climate.sweep, t.climate.bus)) =
      some (.ended .outside, List.replicate (Config.bytesBeforeLimit 0).val .acknowledge ++ [.stop]) := rfl

/-- The accumulator's write at a sample event of its area: begun, and left to a format that has it still to write. -/
theorem test_sample_writes_accumulator :
    let t := fun s => (after (.sampleEvent .noAck) (sweeping (.reading (.area .vaultB)) s)).map fun t => t.store.inflight
    t staffed = some (some ⟨0, .accumulator .vaultB, .accumulator 0⟩) ∧ t (formatting 6 staffed) = some none ∧
    t (formatting 7 staffed) = some (some ⟨0, .accumulator .vaultB, .accumulator 0⟩) ∧
    (formatting 6 staffed).store.format = .writing 6 ∧ (6 : Nat) ≤ 4 + Area.vaultB.number ∧ 4 + Area.vaultB.number < 7 := by decide

/-- 48.0 %RH held in Vault A: the dehumidifier starts, and the accumulator gains 30 above its threshold. -/
theorem test_sample_drives_area :
    let w := [0x01#8, 0x2C#8, 0x01#8, 0xE0#8]
    ((after (.sampleEvent (.word 0x01#8 0x2C#8 0x01#8 0xE0#8 ((crc16 w).setWidth 8)))
      (sweeping (.reading (.area .vaultA)) staffed)).map fun t =>
        (t.climate.controls.vaultA.dehumidifier, t.accumulators.vaultA, t.climate.sweep)) =
      some (true, 30, .waiting (.area .vaultB) 3600) := by decide +kernel

/-- The ranges of SET_CLIMATE at their ends, and the numbers just outside. -/
theorem test_witness_ClimateRequestsActOnTheirArea :
    staffed.accepts onFacility .setClimate ∧ staffed.accepts onFacility .clearClimateFlags ∧
    staffed.accepts onHandover .areaQuery ∧ (0 : Nat) < 1 ∧ 4 < 5 ∧ 5 < 6 ∧ 1 = Area.number .vaultA ∧ 4 = Area.number .hatch ∧
    5 = Channel.number .outside ∧ climateFieldsOk .vaultA ⟨300, 10, 0, 0, 300, 0⟩ = true ∧
    climateFieldsOk .vaultB ⟨600, 100, 0, 3, 800, 0⟩ = true ∧ climateFieldsOk .staging ⟨300, 10, 150, 0, 300, 1⟩ = true ∧
    climateFieldsOk .hatch ⟨600, 100, 400, 3, 800, 255⟩ = true ∧ climateFieldsOk .vaultA ⟨300, 10, 150, 0, 300, 0⟩ = false ∧
    climateFieldsOk .hatch ⟨600, 100, 400, 3, 801, 255⟩ = false ∧ climateFieldsOk .staging ⟨300, 10, 150, 0, 300, 0⟩ = false := by
  decide

/-! ## Witnesses: chapter 3 -/

/-- A state for each clause: entry into the shutdown from QUIET, from a later state, venting, and the return to QUIET. -/
theorem test_witness_FireStateChangeReachesEveryBlock :
    FireState.shutdown (.countdown 3600) = true ∧ (staffed.fire.areas.get .staging).state.late = false ∧
    ((burning .staging (.countdown 1) staffed).fire.areas.get .staging).state.late = true ∧
    FireState.shutdown .discharged = true ∧ FireState.vents (.venting 3600) = true ∧
    ((burning .staging .held staffed).fire.areas.get .staging).state.late = true ∧
    ((burning .staging .preAlarm staffed).fire.areas.get .staging).state.late = false ∧ Area.hatch ≠ .staging := by decide

def detectorIn (d : Detector) (f : DetectorRecord → DetectorRecord) (s : State) : State := s.onDetector d f

/-- Lines that change and that do not, on a detector in each state, assigned and not; and the count at 1 and at 2. -/
theorem test_witness_DetectorLinesMoveDetectorAndArea :
    let isolated := detectorIn 0 (fun x => { x with state := .isolated }) staffed
    let latched := detectorIn 0 (fun x => { x with state := .alarm, alarmLine := .high }) staffed
    let two := detectorIn 1 (fun x => { x with state := .alarm }) latched
    let free := detectorIn 0 (fun x => { x with assignment := none }) staffed
    let single := staffed.onFireArea .vaultA fun x => { x with settings := ⟨.single, 10, 60⟩ }
    let count := fun s : State => (s.fire.detectors.toList.filter fun x => x.assignment == some .vaultA && x.state == .alarm).length
    staffed.power = .running ∧
    (staffed.fire.detectors[(0 : Detector)].alarmLine = .low ∧ staffed.fire.detectors[(0 : Detector)].faultLine = .low) ∧
    ¬ (staffed.fire.detectors[(0 : Detector)].alarmLine = .high ∧ staffed.fire.detectors[(0 : Detector)].faultLine = .low) ∧
    isolated.fire.detectors[(0 : Detector)].state = .isolated ∧
    (latched.fire.detectors[(0 : Detector)].state = .alarm ∧ latched.fire.detectors[(0 : Detector)].assignment.isSome = true ∧
      latched.fire.detectors[(0 : Detector)].alarmLine ≠ .low) ∧
    (staffed.fire.detectors[(0 : Detector)].state = .normal ∧ staffed.fire.detectors[(0 : Detector)].polarity = .activeHigh) ∧
    free.fire.detectors[(0 : Detector)].assignment = none ∧
    staffed.fire.detectors[(0 : Detector)].assignment = some .vaultA ∧
    (count latched = 1 ∧ count two = 2 ∧ (latched.fire.areas.get .vaultA).state = .quiet ∧
      (latched.fire.areas.get .vaultA).settings.coincidence = .double) ∧
    ((burning .vaultA .preAlarm two).fire.areas.get .vaultA).state = .preAlarm ∧
    (single.fire.areas.get .vaultA).settings.coincidence = .single ∧
    ((burning .vaultA .held two).fire.areas.get .vaultA).state.late = true := by decide

/-- A pin as an input scan finds it. -/
def pinned (p : Pin) (s : State) : State := s.onInputs fun x => { x with alarm := x.alarm.set 1 p }

/-- A pin whose level the last scan sampled and one that it did not; inputs at rest with nothing to re-take. -/
theorem test_witness_DetectorLinesMoveDetectorAndArea_scan :
    (⟨.high, .high⟩ : Pin).sample = (⟨.high, .high⟩ : Pin).now ∧ (⟨.high, .low⟩ : Pin).sample ≠ (⟨.high, .low⟩ : Pin).now ∧
    (let s := pinned ⟨.high, .low⟩ staffed
     s.power = .running ∧ s.inputs.reset.taken .high = .high ∧
     (∀ d : Detector, s.inputs.alarm[d].taken s.fire.detectors[d].alarmLine = s.fire.detectors[d].alarmLine ∧
       s.inputs.fault[d].taken s.fire.detectors[d].faultLine = s.fire.detectors[d].faultLine ∧
       s.fire.detectors[d].retake = false) ∧
     (∀ a ∈ Area.all, (s.inputs.call.get a).taken (levelOf (s.fire.areas.get a).callActive) =
       levelOf (s.fire.areas.get a).callActive ∧ (s.fire.areas.get a).callRetake = false) ∧
     s.inputs.abort.taken (levelOf s.fire.abort) = levelOf s.fire.abort ∧
     ∀ w ∈ [Side.inner, Side.outer], (s.inputs.contact w).taken (levelOf (s.hatch.door w).isOpen) =
       levelOf (s.hatch.door w).isOpen) := by decide

/-- What an input's scan finds with every input at rest but one: an alarm pin that two scans agree on and a fault pin that
flickers, a call point, the abort-hold switch and a door's contact, each taken; and the reset line LOW twice. -/
theorem test_witness_DetectorLinesMoveDetectorAndArea_taken :
    let rest := fun s : State => (∀ d : Detector, d ≠ 1 → s.inputs.alarm[d].taken s.fire.detectors[d].alarmLine =
      s.fire.detectors[d].alarmLine ∧ s.inputs.fault[d].taken s.fire.detectors[d].faultLine = s.fire.detectors[d].faultLine)
    let flicker := pinned ⟨.high, .high⟩ (staffed.onInputs fun x => { x with fault := x.fault.set 1 ⟨.high, .low⟩ })
    let call := staffed.onInputs fun x => { x with call := x.call.set .hatch ⟨.high, .high⟩ }
    let abort := staffed.onInputs fun x => { x with abort := ⟨.high, .high⟩ }
    let door := staffed.onInputs fun x => { x with outer := ⟨.high, .high⟩ }
    let low := staffed.onInputs fun x => { x with reset := ⟨.low, .low⟩ }
    (rest flicker ∧ flicker.inputs.reset.taken .high = .high ∧
      flicker.inputs.alarm[(1 : Detector)].taken flicker.fire.detectors[(1 : Detector)].alarmLine = .high ∧
      flicker.inputs.fault[(1 : Detector)].taken flicker.fire.detectors[(1 : Detector)].faultLine = .low) ∧
    (rest call ∧ call.inputs.alarm[(1 : Detector)].taken call.fire.detectors[(1 : Detector)].alarmLine = .low ∧
      (call.inputs.call.get .hatch).taken (levelOf (call.fire.areas.get .hatch).callActive) = .high) ∧
    abort.inputs.abort.taken (levelOf abort.fire.abort) = .high ∧
    (door.inputs.contact .outer).taken (levelOf (door.hatch.door .outer).isOpen) = .high ∧
    (rest low ∧ low.inputs.reset = ⟨.low, .low⟩ ∧ low.power = .running) ∧
    (call.scan.fire.areas.get .hatch).callLatch = true ∧ (door.scan.hatch.door .outer).isOpen = true ∧
    low.scan.power = .stopped := by decide +kernel

/-- An alarm line that goes HIGH is taken at the second scan that samples it, and one that bounces back is not. -/
theorem test_scan_debounces :
    let once := (pinned ⟨.high, .low⟩ staffed).scan
    once.fire.detectors[(1 : Detector)].state = .normal ∧ once.scan.fire.detectors[(1 : Detector)].state = .alarm ∧
    (once.scan.fire.areas.get .vaultA).state = .preAlarm ∧
    ((pinned ⟨.low, .high⟩ once).scan.scan).fire.detectors[(1 : Detector)].state = .normal := by decide +kernel

/-- The second detector of an area in alarm takes it into COUNTDOWN, with EVACUATE, the shutdown and DETECTOR sent. -/
theorem test_second_alarm_starts_countdown :
    let one := burning .vaultA .preAlarm (detectorIn 0 (fun x => { x with state := .alarm, alarmLine := .high }) staffed)
    (after (.detectorLineChange 1 .high .low) one).map (fun t => ((t.fire.areas.get .vaultA).state, t.fire.evacuate,
      (t.climate.controls.get .vaultA).damperOpen)) = some (.countdown 3600, true, false) := by decide

/-- A call point by latch and fire state, and abort-hold over areas in COUNTDOWN, HELD and QUIET. -/
theorem test_witness_CallPointsAndAbortHoldMoveAreas :
    let at_ := fun (active latch : Bool) (st : FireState) =>
      (staffed.onFireArea .hatch fun x => { x with callActive := active, callLatch := latch, state := st })
    let held := { burning .hatch .held staffed with fire := { (burning .hatch .held staffed).fire with abort := true } }
    staffed.power = .running ∧
    ((at_ true true .quiet).fire.areas.get .hatch).callActive = true ∧
    (((at_ false true .quiet).fire.areas.get .hatch).callActive = false ∧
      ((at_ false true .quiet).fire.areas.get .hatch).callLatch = true) ∧
    (((at_ false false .held).fire.areas.get .hatch).callLatch = false ∧
      ((at_ false false .held).fire.areas.get .hatch).state.late = true) ∧
    (((at_ false false .preAlarm).fire.areas.get .hatch).callActive = false ∧
      ((at_ false false .preAlarm).fire.areas.get .hatch).callLatch = false ∧
      ((at_ false false .preAlarm).fire.areas.get .hatch).state = .preAlarm) ∧
    staffed.fire.abort = false ∧ held.fire.abort = true ∧ (held.fire.areas.get .hatch).state = .held ∧
    (held.fire.areas.get .vaultA).state ≠ .held ∧
    ((burning .hatch (.countdown 9) staffed).fire.areas.get .hatch).state = .countdown 9 := by decide

/-- The delay, the pulse and the vent time at their last second and one before, agent-spent clear and set. -/
theorem test_witness_DischargePulsesOnceAndVents :
    let counting := fun n => burning .vaultB (.countdown n) staffed
    let spent := (counting 3570).onFireArea .vaultB fun x => { x with agentSpent := true }
    let pulsing := fun n => staffed.onFireArea .vaultB fun x => { x with pulse := some n }
    let venting := fun n => burning .vaultB (.venting n) staffed
    staffed.power = .running ∧
    (((counting 3571).fire.areas.get .vaultB).state = .countdown 3571 ∧
      (counting 3571).vault.uptime < 3571 + ((counting 3571).fire.areas.get .vaultB).settings.delay) ∧
    (3570 + ((counting 3570).fire.areas.get .vaultB).settings.delay ≤ (counting 3570).vault.uptime ∧
      ((counting 3570).fire.areas.get .vaultB).agentSpent = false) ∧
    (spent.fire.areas.get .vaultB).agentSpent = true ∧ (staffed.fire.areas.get .vaultB).state = .quiet ∧
    (((pulsing 3598).fire.areas.get .vaultB).pulse = some 3598 ∧ 3598 + 2 ≤ (pulsing 3598).vault.uptime) ∧
    (((pulsing 3599).fire.areas.get .vaultB).pulse = some 3599 ∧ (pulsing 3599).vault.uptime < 3599 + 2) ∧
    (staffed.fire.areas.get .vaultB).pulse = none ∧
    (((venting 3000).fire.areas.get .vaultB).state = .venting 3000 ∧
      3000 + ((venting 3000).fire.areas.get .vaultB).settings.vent ≤ (venting 3000).vault.uptime) ∧
    ((venting 3001).vault.uptime < 3001 + ((venting 3001).fire.areas.get .vaultB).settings.vent) := by decide

/-- A detector and a call point marked for re-taking with their lines still active, in an area in QUIET and in HELD. -/
theorem test_witness_ReturnToQuietAndRetake :
    let marked := detectorIn 0 (fun x => { x with retake := true, alarmLine := .high }) staffed
    let call := staffed.onFireArea .vaultA fun x => { x with callRetake := true, callActive := true }
    staffed.power = .running ∧ marked.fire.detectors[(0 : Detector)].retake = true ∧
    marked.fire.detectors[(0 : Detector)].condition = .alarm ∧ marked.fire.detectors[(0 : Detector)].state ≠ .isolated ∧
    marked.fire.detectors[(0 : Detector)].assignment = some .vaultA ∧
    marked.fire.detectors[(11 : Detector)].assignment ≠ some .vaultA ∧
    ((burning .vaultA .held marked).fire.areas.get .vaultA).state.late = true ∧
    (marked.fire.detectors[(0 : Detector)].state ≠ .alarm ∧ (marked.fire.areas.get .vaultA).state.late = false ∧
      (marked.fire.areas.get .vaultA).callRetake = false ∧ (marked.fire.areas.get .vaultA).settings.coincidence = .double ∧
      ((marked.onFireArea .vaultA fun x => { x with settings := ⟨.single, 10, 60⟩ }).fire.areas.get .vaultA).settings.coincidence =
        .single ∧
      (marked.retakeInputs.fire.detectors.toList.countP fun z => z.assignment == some .vaultA && z.state == .alarm) = 1 ∧
      ((detectorIn 1 (fun x => { x with state := .alarm }) marked).retakeInputs.fire.detectors.toList.countP fun z =>
        z.assignment == some .vaultA && z.state == .alarm) = 2) ∧
    ((call.fire.areas.get .vaultA).callRetake = true ∧ (call.fire.areas.get .vaultA).callActive = true ∧
      (call.fire.areas.get .vaultA).callLatch = false ∧ (call.fire.areas.get .vaultA).state.late = false) ∧
    ((marked.fire.areas.get .vaultB).callRetake = false ∧
      ∀ d : Detector, marked.fire.detectors[d].assignment = some .vaultB → marked.fire.detectors[d].retake = false) := by
  decide +kernel

/-- RESET_AREA in every fire state, CONFIRM_AREA in and out of PRE_ALARM, and numbers just outside 1..4. -/
theorem test_witness_AreaRequestsActByFireState :
    let in_ := fun st => burning .hatch st staffed
    staffed.accepts onFacility .resetArea ∧ staffed.accepts onFacility .confirmArea ∧ (0 : Nat) < 1 ∧ 4 < 5 ∧
    4 = Area.number .hatch ∧ ((in_ .quiet).fire.areas.get .hatch).state = .quiet ∧
    ((in_ .preAlarm).fire.areas.get .hatch).state = .preAlarm ∧ ((in_ .held).fire.areas.get .hatch).state = .held ∧
    ((in_ .discharged).fire.areas.get .hatch).state = .discharged ∧
    ((in_ (.countdown 3600)).fire.areas.get .hatch).state = .countdown 3600 ∧
    ((in_ (.venting 3600)).fire.areas.get .hatch).state = .venting 3600 ∧
    (in_ (.venting 3600)).accepts onFacility .resetArea := by decide

theorem test_reset_and_confirm_answer :
    codeOf (.resetArea onFacility 4) .facility (burning .hatch (.countdown 3600) staffed) = some .state ∧
    codeOf (.resetArea onFacility 5) .facility staffed = some .invalid ∧
    codeOf (.confirmArea onFacility 4) .facility staffed = some .state ∧
    (after (.resetArea onFacility 4) (burning .hatch .held staffed)).map (fun t => (t.fire.areas.get .hatch).state) =
      some .quiet := by decide +kernel

/-- Both forms of SET_FIRE at the ends of their ranges, in each mode, quiet and not; ISOLATE on and off. -/
theorem test_witness_FireSettingsAndIsolation :
    let noisy := burning .hatch .preAlarm upkeep
    let isolated := detectorIn 11 (fun x => { x with state := .isolated, alarmLine := .high }) upkeep
    upkeep.accepts onFacility .setFire ∧ staffed.accepts onFacility .setFire ∧ upkeep.accepts onFacility .isolate ∧
    staffed.vault.mode ≠ .maintenance ∧ upkeep.vault.mode = .maintenance ∧
    fireOfFields (some .single) 10 60 = some ⟨.single, 10, 60⟩ ∧ fireOfFields (some .double) 60 3600 = some ⟨.double, 60, 3600⟩ ∧
    fireOfFields (some .single) 9 60 = none ∧ fireOfFields (some .double) 60 3601 = none ∧ fireOfFields none 10 60 = none ∧
    4 = Area.number .hatch ∧ upkeep.allQuiet = true ∧ noisy.allQuiet = false ∧ noisy.accepts onFacility .setFire ∧
    (12 : Nat) = (11 : Detector).val + 1 ∧ AssignField.area 4 = .area (Area.number .hatch) ∧
    detectorOfFields .unassigned (some .activeLow) = some ⟨none, .activeLow⟩ ∧
    detectorOfFields (.area 5) (some .activeLow) = none ∧ Detector.ofNumber 13 = none ∧ Detector.ofNumber 0 = none ∧
    upkeep.fire.detectors[(11 : Detector)].state ≠ .isolated ∧ isolated.fire.detectors[(11 : Detector)].state = .isolated ∧
    isolated.fire.detectors[(11 : Detector)].condition = .alarm ∧
    (detectorIn 11 (fun x => { x with alarmLine := .low }) isolated).fire.detectors[(11 : Detector)].condition ≠ .alarm := by
  decide

/-- A detector's new settings stand at once, and it is evaluated with the end of their write: a new polarity takes an
unassigned detector's ALARM away with its lines, and leaves a latched one. -/
theorem test_new_settings_evaluate_afresh :
    let s := fun to_ => detectorIn 11 (fun x => { x with state := .alarm, alarmLine := .high, assignment := to_ }) upkeep
    let c := Instr.setFireDetector onFacility 12 (.area 4) (some .activeLow)
    let states := fun t : State => (t.fire.detectors[(11 : Detector)].state, (t.fire.areas.get .hatch).state)
    (after c (s none)).map states = some (.alarm, .quiet) ∧
    ((after c (s none)).bind (after .storeWriteEnd)).map states = some (.normal, .quiet) ∧
    ((after c (s (some .hatch))).bind (after .storeWriteEnd)).map states = some (.alarm, .preAlarm) := by decide +kernel

/-- SET_FIRE's OK is queued before the DETECTOR and the FIRE_STATE of its evaluation (R59). -/
theorem test_set_fire_answers_before_it_evaluates :
    let s := (detectorIn 11 (fun x => { x with alarmLine := .low }) upkeep).startTransmitters
    let c := Instr.setFireDetector onFacility 12 (.area 4) (some .activeLow)
    let queued := fun t : State => (t.links.facility.responses.map (·.code), t.links.facility.notices.map (·.body))
    (after c s).map queued = some ([], []) ∧
    ((after c s).bind (after .storeWriteEnd)).map queued =
      some ([.ok], [.detector 11 .alarm, .fireState .hatch .preAlarm]) := by decide +kernel

theorem test_set_fire_answers :
    codeOf (.setFireArea onFacility 4 (some .single) 10 60) .facility staffed = some .mode ∧
    codeOf (.setFireArea onFacility 4 (some .single) 9 60) .facility upkeep = some .invalid ∧
    codeOf (.setFireArea onFacility 4 (some .single) 10 60) .facility (burning .vaultA .preAlarm upkeep) = some .state ∧
    codeOf (.setFireDetector onFacility 13 .unassigned (some .activeHigh)) .facility upkeep = some .invalid ∧
    codeOf (.isolate onFacility 12 none) .facility upkeep = some .invalid ∧
    codeOf (.isolate onFacility 12 (some true)) .facility upkeep = some .ok := by decide

/-- RECHARGED in a format, outside MAINTENANCE, on number 0 and 5, on an area not QUIET, and spent or not. -/
theorem test_witness_AreaRequestsActByFireState_recharged :
    let spent := upkeep.onFireArea .hatch fun x => { x with agentSpent := true }
    upkeep.power = .running ∧ (upkeep.link onFacility.port).outstanding = false ∧ onFacility.lengthRight = true ∧
    onFacility.port = .facility ∧ (formatting 2 upkeep).store.format.inFlight = true ∧ upkeep.store.format = .none ∧
    staffed.vault.mode ≠ .maintenance ∧ upkeep.vault.mode = .maintenance ∧ (0 : Nat) < 1 ∧ 4 < 5 ∧ 4 = Area.number .hatch ∧
    ((burning .hatch .preAlarm upkeep).fire.areas.get .hatch).state ≠ .quiet ∧
    ((upkeep.fire.areas.get .hatch).state = .quiet ∧ (upkeep.fire.areas.get .hatch).agentSpent = false) ∧
    ((spent.fire.areas.get .hatch).state = .quiet ∧ (spent.fire.areas.get .hatch).agentSpent = true) := by decide

/-! ## Witnesses: chapter 4 -/

theorem test_witness_MarginAndReadinessTests :
    (⟨310, 1000⟩ : Held).humidity ≤ 1000 ∧ 200 ≤ (⟨310, 200⟩ : Held).humidity ∧ (⟨-200, 199⟩ : Held).humidity < 200 ∧
    ((-200 : Int) ≤ (⟨-200, 199⟩ : Held).temperature ∧ (⟨-200, 199⟩ : Held).temperature ≤ 600) ∧
    passesMargin (some 90) 30 (some 120) = true ∧ passesMargin (some 90) 30 (some 119) = false := by decide

/-- Gaps of 0, of a step, and of the forced unit step both ways, at both ends of the coupling. -/
theorem test_witness_AcclimatisationStepsTowardTheAir :
    (1 : Nat) ≤ 1 ∧ (255 : Nat) ≤ 255 ∧ (300 : Int) - 300 = 0 ∧ (((300 : Int) - 44) * 1).tdiv 256 ≠ 0 ∧
    ((((300 : Int) - 45) * 1).tdiv 256 = 0 ∧ 0 < (300 : Int) - 45) ∧
    ((((299 : Int) - 300) * 255).tdiv 256 = 0 ∧ (299 : Int) - 300 < 0) ∧ (300 : Int) ≠ 45 ∧
    ((600 : Int) - (-200)).natAbs ≤ 800 := by decide

/-- A record without a dose, without a mark, and with the accumulator below, at and above its mark. -/
theorem test_witness_SettleKeepsTheEffectiveDose :
    (CustodyRecord.blank tape .unknown).storedDose = none ∧ (tapeIn .inVault).storedDose = some 0 ∧
    ({ tapeIn .withCourier with mark := none } : CustodyRecord).mark = none ∧ (tapeIn .inVault).mark = some 0 ∧
    (tapeIn .inVault).area = some .vaultA ∧ (⟨4, 0, 0, 0⟩ : PerArea Nat).get .vaultA < 5 ∧
    5 ≤ (⟨5, 0, 0, 0⟩ : PerArea Nat).get .vaultA ∧ (4294967295 : Nat) ≤ 4294967295 := by decide

/-- READY_OUT's slot with its estimate at 25.0 degrees and 10 minutes of dwell. -/
def shelf (d : Direction) (st : CustodyState) (dwell : Nat) (e : Option Int) : State :=
  slotted 31 (.occupied tape d (.area .vaultA) dwell e) (holding { tapeIn st with slot := some 31 }
    (sensing .outside (some ⟨250, 200⟩) (sensing (.area .vaultA) (some ⟨240, 400⟩)
      (sensing (.area .staging) (some ⟨260, 500⟩) (sweeping (.reading (.area .staging)) staffed)))))

/-- A slot in each form, with and without an estimate or a base, and each staged state with a test that passes and one
that fails. -/
theorem test_witness_StagingSampleStepsAndFlips :
    let t := shelf .outbound .stagedOut 10 (some 250)
    let g := t.staging.settings
    t.power = .running ∧ custodyWf t.custody = true ∧ t.climate.sweep = .reading (.area .staging) ∧
    t.staging.slots[(0 : Fin 32)] = .free ∧
    (slotted 0 (.reserved tape2 .vaultB 0) t).staging.slots[(0 : Fin 32)] = .reserved tape2 .vaultB 0 ∧
    t.staging.slots[(31 : Fin 32)] = .occupied tape .outbound (.area .vaultA) 10 (some 250) ∧
    (t.climate.channels.get (.area .staging)).held = some ⟨260, 500⟩ ∧
    (t.climate.channels.get (.area .vaultA)).held = some ⟨240, 400⟩ ∧
    ((staffed.climate.channels.get (.area .staging)).held = none ∧ (staffed.climate.channels.get .outside).held = none) ∧
    t.record? tape = some (0, { tapeIn .stagedOut with slot := some 31 }) ∧
    readyOutTest t.climate g 10 (some 120) = true ∧ readyOutTest t.climate g 9 (some 120) = false ∧
    readyOutTest t.climate g 10 (some 119) = false ∧
    readyInTest t.climate g 240 (some 250) = true ∧ readyInTest t.climate g 239 (some 250) = false ∧
    readyInTest t.climate g 240 (some 229) = false ∧
    (shelf .inbound .readyIn 240 none).record? tape = some (0, { tapeIn .readyIn with slot := some 31 }) := by
  decide

/-- No two slots of the shelf hold one label, and a read of each channel that only gives bases. -/
theorem test_witness_StagingSampleStepsAndFlips_slots :
    let s := shelf .outbound .stagedOut 10 (some 250)
    (∀ (m n : Fin 32) l d d' o o' dwell dwell' e e', s.staging.slots[m] = .occupied l d o dwell e →
      s.staging.slots[n] = .occupied l d' o' dwell' e' → m = n) ∧
    (sweeping (.reading (.area .vaultA)) s).climate.sweep = .reading (.area .vaultA) ∧
    (sweeping (.ended .outside) s).climate.sweep = .ended .outside ∧
    (sweeping (.ended (.area .staging)) s).climate.sweep = .ended (.area .staging) := by
  refine ⟨?_, rfl, rfl, rfl⟩
  have h : ∀ m : Fin 32, m ≠ 31 → (shelf .outbound .stagedOut 10 (some 250)).staging.slots[m] = .free := by decide
  intro m n l d d' o o' dwell dwell' e e' hm hn
  by_cases h1 : m = 31
  · by_cases h2 : n = 31
    · rw [h1, h2]
    · rw [h n h2] at hn; exact Slot.noConfusion hn
  · rw [h m h1] at hm; exact Slot.noConfusion hm

/-- The sample event steps the slot and flips its record to READY_OUT. -/
theorem test_staging_sample_flips :
    let w := [0x01#8, 0x04#8, 0x01#8, 0xF4#8]
    (after (.sampleEvent (.word 0x01#8 0x04#8 0x01#8 0xF4#8 ((crc16 w).setWidth 8))) (shelf .outbound .stagedOut 9 (some 250))).map
      (fun t => (t.staging.slots[(31 : Fin 32)], t.custody.map fun x => x.2.state)) =
        some (.occupied tape .outbound (.area .vaultA) 10 (some 252), [.readyOut]) := by decide +kernel

/-! ## Witnesses: chapter 5 -/

/-- A label of bad form, one in the table, one not, and a table with and without a free place. -/
theorem test_witness_EnrolRetireRelocate :
    let s := holding (tapeIn .inVault) staffed
    s.accepts onArchive .enrol ∧ s.accepts onArchive .retire ∧ s.accepts onArchive .relocate ∧
    goodLabel badLabel = false ∧ goodLabel tape = true ∧ (s.record? tape).isSome = true ∧
    (goodLabel tape2 = true ∧ s.record? tape2 = none ∧ s.freePlace = some 1) ∧
    s.record? tape = some (0, tapeIn .inVault) ∧ (tapeIn .inVault).state = .inVault ∧
    (tapeIn .picking).state ≠ .inVault ∧ (tapeIn .picking).state ≠ .withCourier ∧ (tapeIn .picking).state ≠ .unknown ∧
    (holding (tapeIn .unknown) staffed).record? tape = some (0, tapeIn .unknown) := by decide

theorem test_witness_EnrolRetireRelocate_full :
    let s := { staffed with custody := fullTable }
    s.record? tape = none ∧ s.freePlace = none ∧ s.accepts onArchive .enrol := by decide +kernel

/-- The lowest free place: of an empty table, behind the first record, in a gap, and the last place of all. -/
theorem test_witness_EnrolRetireRelocate_place :
    let r := CustodyRecord.blank tape .inVault
    let at_ := fun xs => ({ staffed with custody := xs } : State).freePlace
    at_ [] = some 0 ∧ at_ [(0, r)] = some 1 ∧ at_ [(0, r), (2, r)] = some 1 ∧ at_ [(1, r)] = some 0 ∧
    at_ (fullTable.take 2047) = some 2047 ∧ custodyWf fullTable = true ∧ fullTable.length = 2048 := by decide +kernel

/-- RETIRE with a write of the record in flight and another waiting: the free key entry follows both, and the erased
record follows the key entry; and a record made at the place after that follows them. -/
theorem test_removal_frees_the_key_first :
    let r := tapeIn .inVault
    let s := ((holding r staffed).putRecord 0 r).putRecord 0 r
    let records := fun t : State => (t.store.inflight.toList ++ t.store.queue).map fun j => (j.record, j.content)
    let retired := [(StoreRecord.custody 0, Content.custody (some r)), (.custody 0, .custody (some r)), (.key 0, .key none),
      (.custody 0, .custody none)]
    records (s.removeRecord 0) = retired ∧
    records ((s.removeRecord 0).createRecord 0 { r with label := tape2 }) =
      retired ++ [(.custody 0, .custody (some { r with label := tape2 })), (.key 0, .key (some tape2))] ∧
    (∀ x ∈ s.custody, x.2.label ≠ tape2) ∧ (s.custody.map fun x => x.2.label).Nodup := by decide +kernel

theorem test_custody_requests_answer :
    let s := holding (tapeIn .picking) staffed
    codeOf (.enrol onArchive badLabel 0) .archive s = some .invalid ∧ codeOf (.enrol onArchive tape 0) .archive s = some .duplicate ∧
    codeOf (.retire onArchive tape2) .archive s = some .notFound ∧ codeOf (.retire onArchive tape) .archive s = some .state ∧
    codeOf (.relocate onArchive tape 0) .archive s = some .state ∧
    codeOf (.doseReset onArchive tape) .archive (holding (tapeIn .unknown) staffed) = some .state ∧
    codeOf (.custodyQuery onArchive tape) .archive s = some .ok ∧ codeOf (.slotQuery onArchive 32) .archive s = some .invalid := by
  decide

/-- ENROL writes the record and then the key entry, and its response waits on both. -/
theorem test_enrol_waits_on_its_writes :
    (after (.enrol onArchive tape (locationOf 12 3 7)) staffed).map (fun t =>
      (t.store.inflight.map (·.record), t.store.queue.map (·.record), t.store.waiting.map (·.needs), t.custody.map (·.1))) =
      some (some (.custody 0), [.key 0], [[0, 1]], [0]) := by decide

/-- A dose at the limit and one below it, an UNKNOWN record, and a slot of each form. -/
theorem test_witness_CustodyAndSlotQueriesReport :
    let dosed := { tapeIn .inVault with storedDose := some 300000 }
    let s := holding dosed staffed
    s.accepts onArchive .custodyQuery ∧ s.accepts onArchive .slotQuery ∧ s.record? tape = some (0, dosed) ∧
    (s.overDose dosed = true ∧ dosed.state ≠ .unknown) ∧
    (s.overDose { dosed with storedDose := some 299999 } = false) ∧
    ((CustodyRecord.blank tape .unknown).state = .unknown ∧ (CustodyRecord.blank tape .unknown).storedDose = none) ∧
    (32 : Nat) ≤ 32 ∧ (31 : Nat) = (31 : Fin 32).val ∧ s.staging.slots[(31 : Fin 32)] = .free ∧
    (slotted 31 (.reserved tape .vaultA 0) s).staging.slots[(31 : Fin 32)] = .reserved tape .vaultA 0 := by decide

theorem test_witness_DoseResetStartsTheDoseAfresh :
    let s := holding (tapeIn .inVault) staffed
    s.accepts onArchive .doseReset ∧ goodLabel badLabel = false ∧ goodLabel tape = true ∧ staffed.record? tape = none ∧
    s.record? tape = some (0, tapeIn .inVault) ∧ (tapeIn .withCourier).state = .withCourier ∧
    ((tapeIn .inVault).state ≠ .withCourier ∧ (tapeIn .inVault).state ≠ .unknown ∧ (tapeIn .inVault).area = some .vaultA) := by
  decide

/-! ## Witnesses: chapter 6 -/

/-- Each check of R104, a full queue, and appends that reach 20 and that do not. -/
theorem test_witness_CheckoutJoinsTheQueue :
    let s := holding (tapeIn .inVault) staffed
    s.accepts onArchive .checkout ∧ upkeep.vault.mode = .maintenance ∧ s.vault.mode ≠ .maintenance ∧
    goodLabel badLabel = false ∧ goodLabel tape = true ∧ staffed.record? tape = none ∧
    s.record? tape = some (0, tapeIn .inVault) ∧ (tapeIn .requested).state = .requested ∧
    ((tapeIn .picking).state ≠ .requested ∧ (tapeIn .picking).state ≠ .inVault) ∧
    ({ tapeIn .inVault with inspect := true } : CustodyRecord).inspect = true ∧
    s.overDose { tapeIn .inVault with storedDose := some 300000 } = true ∧
    ((tapeIn .inVault).inspect = false ∧ s.overDose (tapeIn .inVault) = false) ∧
    24 ≤ (queued 24 s).staging.queue.length ∧ (queued 23 s).staging.queue.length < 24 ∧
    ((queued 19 s).staging.queue.length + 1 = 20 ∧ (queued 19 s).staging.holdSent = false) := by decide

theorem test_checkout_answers :
    codeOf (.checkout onArchive tape) .archive upkeep = some .mode ∧
    codeOf (.checkout onArchive tape) .archive (holding (tapeIn .requested) staffed) = some .duplicate ∧
    codeOf (.checkout onArchive tape) .archive (queued 24 (holding (tapeIn .inVault) staffed)) = some .full ∧
    (after (.checkout onArchive tape) (holding (tapeIn .inVault) (inMode .unstaffed))).map (fun t =>
      (t.staging.queue.map (·.label), t.custody.map fun x => x.2.state)) = some ([tape], [.requested]) := by decide

/-- A queued and a picked record, removals that leave 8 and 9, a reservation at its timeout and a second before, and
the fields of SET_STAGING in and out of range. -/
theorem test_witness_ReservationsEndByCancelOrLapse :
    let queuedTape := fun n => queued n (holding (tapeIn .requested) staffed)
    let sent := fun n => { queuedTape n with staging := { (queuedTape n).staging with holdSent := true } }
    let picked := { tapeIn .picking with slot := some 3 }
    let reserved := fun n => slotted 3 (.reserved tape .vaultA n) (holding picked staffed)
    let fields : StagingFields := ⟨100, 240, 1440, 800, 2, 16, 120, 4294967295, 3600⟩
    staffed.accepts onArchive .cancel ∧ goodLabel badLabel = false ∧ staffed.record? tape = none ∧
    (queuedTape 0).record? tape = some (0, tapeIn .requested) ∧
    ((tapeIn .inVault).state ≠ .requested ∧ (tapeIn .inVault).state ≠ .picking) ∧
    (((sent 8).unqueue tape).staging.queue.length ≤ 8 ∧ (sent 8).staging.holdSent = true) ∧
    ¬ (((sent 9).unqueue tape).staging.queue.length ≤ 8) ∧
    (picked.state = .picking ∧ picked.slot = some 3 ∧ (reserved 0).record? tape = some (0, picked)) ∧
    ((reserved 1800).staging.slots[(3 : Fin 32)] = .reserved tape .vaultA 1800 ∧
      1800 + (reserved 1800).staging.settings.pickTimeout * 60 ≤ (reserved 1800).vault.uptime) ∧
    ((reserved 1801).vault.uptime < 1801 + (reserved 1801).staging.settings.pickTimeout * 60) ∧
    staffed.staging.slots[(3 : Fin 32)] = .free ∧ (reserved 1800).store.followups = [] ∧
    upkeep.accepts onArchive .setStaging ∧ staffed.vault.mode ≠ .maintenance ∧
    ((stagingOfFields fields).isSome = true ∧ fields.doseLimit ≠ upkeep.staging.settings.doseLimit) ∧
    (stagingOfFields ⟨0, 0, 0, 300, 1, 0, 5, 300000, 300⟩).isSome = true ∧
    stagingOfFields { fields with marginOut := 101 } = none ∧ stagingOfFields { fields with inboundRef := 3 } = none ∧
    stagingOfFields { fields with pickTimeout := 4 } = none := by decide

/-- A lapse at its last second and one before: the record goes back to its shelf, and PICK_LAPSED waits on its write. -/
theorem test_pick_lapses :
    let r := { tapeIn .picking with slot := some 3 }
    let s := fun since => slotted 3 (.reserved tape .vaultA since) (holding r staffed)
    let u := ((s 1800).lapsePick [] 3).2
    u.staging.slots[(3 : Fin 32)] = .free ∧ (u.record? tape).map (fun x => (x.2.state, x.2.slot)) = some (.inVault, none) ∧
    u.store.waiting.map (·.outs) = [[.notice (.pickLapsed tape)]] ∧
    ((s 1801).lapsePick [] 3) = ([], s 1801) ∧ (s 1800).record? tape = some (0, r) := by decide +kernel

/-- SET_STAGING shortens the timeout to 5 min: an overdue reservation stands until the OK is queued, also against
PICK_LAPSED, and lapses behind it (R80). -/
theorem test_set_staging_answers_before_the_lapses :
    let s := (slotted 3 (.reserved tape .vaultA 3300) (holding { tapeIn .picking with slot := some 3 } upkeep)).startTransmitters
    let c := Instr.setStaging onArchive ⟨0, 0, 0, 300, 1, 0, 5, 300000, 300⟩
    let seen := fun t : State => (t.links.archive.responses.map (·.code), (t.record? tape).map (·.2.state),
      t.staging.slots[(3 : Fin 32)] == .free)
    (after c s).map seen = some ([], some .picking, false) ∧
    ((after c s).bind (after (.pickLapsed 3))).map seen = some ([], some .picking, false) ∧
    ((after c s).bind (after .storeWriteEnd)).map seen = some ([.ok], some .inVault, true) := by decide +kernel

/-- What forbids a dispatch attempt; a queue with no entry to take; and an entry with INSPECT, over its dose, and
neither, with exactly one slot above the inbound reserve. -/
theorem test_witness_DispatchTakesEntriesInOrder :
    let s := holding (tapeIn .requested) { staffed with staging := { staffed.staging with queue := [⟨tape2, 0⟩, ⟨tape, 0⟩] } }
    let tight := slotted 28 .free (slotted 29 .free (slotted 30 .free (slotted 31 .free
      (allSlots (.reserved tape2 .vaultB 0) s))))
    let room := slotted 27 .free tight
    let free := fun t : State => (t.staging.slots.toList.filter (· == .free)).length
    upkeep.vault.mode ≠ .staffed ∧ ((burning .hatch .held staffed).fire.areas.get .hatch).state.late = true ∧
    free tight ≤ tight.staging.settings.inboundReserve ∧ room.staging.settings.inboundReserve < free room ∧
    (∀ e ∈ (queued 1 staffed).staging.queue, staffed.quietArea e.label = none) ∧
    room.vault.mode = .staffed ∧ room.staging.queue = [⟨tape2, 0⟩] ++ ⟨tape, 0⟩ :: [] ∧
    (∀ x ∈ ([⟨tape2, 0⟩] : List QueueEntry), room.quietArea x.label = none) ∧
    room.record? tape = some (0, tapeIn .requested) ∧ (tapeIn .requested).area = some .vaultA ∧
    (room.fire.areas.get .vaultA).state = .quiet ∧ (∀ b ∈ Area.all, (room.fire.areas.get b).state.late = false) ∧
    room.staging.slots[(27 : Fin 32)] = .free ∧ (∀ m, m < (27 : Fin 32) → room.staging.slots[m] ≠ .free) ∧
    ({ tapeIn .requested with inspect := true } : CustodyRecord).inspect = true ∧
    room.overDose { tapeIn .requested with storedDose := some 300000 } = true ∧
    ((tapeIn .requested).inspect = false ∧ room.overDose (tapeIn .requested) = false) ∧
    ((queued 8 staffed).staging.queue.length ≤ 8 ∧ ¬ ((queued 9 staffed).staging.queue.length ≤ 8)) := by decide +kernel

/-- The area of a label's record while it is QUIET, and none in a PRE_ALARM area, of a record with no area, or of no
record. -/
theorem test_witness_DispatchTakesEntriesInOrder_quiet :
    let s := holding (tapeIn .requested) staffed
    s.quietArea tape = some .vaultA ∧ (burning .vaultA .preAlarm s).quietArea tape = none ∧
    (burning .vaultB .preAlarm s).quietArea tape = some .vaultA ∧ s.quietArea tape2 = none ∧
    (holding { tapeIn .requested with area := none } staffed).quietArea tape = none := by decide

/-- A dispatch by SET_MODE picks the second entry into the lowest free slot. -/
theorem test_dispatch_picks :
    let s := holding (tapeIn .requested) { inMode .unstaffed with
      staging := { staffed.staging with queue := [⟨tape2, 0⟩, ⟨tape, 0⟩] } }
    (after (.setMode onFacility (some .staffed)) s).map (fun t =>
      (t.staging.queue.map (·.label), t.staging.slots[(0 : Fin 32)], t.custody.map fun x => (x.2.state, x.2.slot))) =
        some ([tape2], .reserved tape .vaultA 3600, [(.picking, some 0)]) := by decide

/-- PLACED's and SHELVED's checks, and a record that passes them, bound to no consignment and to one in each case. -/
theorem test_witness_PlacedAndShelvedMoveTheTape :
    let picked := { tapeIn .picking with slot := some 31 }
    let shelvedFrom := fun st n => { tapeIn st with slot := some (31 : Fin 32), consignment := n }
    let bound := fun st => consigned (consignIn st) (holding (shelvedFrom .readyOut (some 7)) staffed)
    staffed.accepts onArchive .placed ∧ staffed.accepts onArchive .shelved ∧ upkeep.vault.mode = .maintenance ∧
    staffed.vault.mode ≠ .maintenance ∧ goodLabel badLabel = false ∧ (32 : Nat) ≤ 32 ∧ (31 : Nat) = (31 : Fin 32).val ∧
    staffed.record? tape = none ∧ (tapeIn .requested).state ≠ .picking ∧
    ((holding picked staffed).record? tape = some (0, picked) ∧ picked.state = .picking ∧ picked.slot = some 31 ∧
      picked.slot ≠ some 30 ∧ picked.area = some .vaultA) ∧
    ((tapeIn .stagedIn).state ≠ .stagedOut ∧ (tapeIn .stagedIn).state ≠ .readyOut ∧ (tapeIn .stagedIn).state ≠ .readyIn) ∧
    ((bound .lockedOut).record? tape = some (0, shelvedFrom .readyOut (some 7)) ∧
      (bound .lockedOut).consignment? 7 = some (0, consignIn .lockedOut)) ∧
    ((bound .opened).consignment? 7 = some (0, consignIn .opened) ∧ (consignIn .opened).state = .opened) ∧
    ((bound .cancelled).consignment? 7 = some (0, consignIn .cancelled) ∧ (consignIn .cancelled).state ≠ .opened) ∧
    ((shelvedFrom .stagedOut none).consignment = none ∧ (shelvedFrom .stagedOut none).slot = some 31) := by decide

theorem test_placed_and_shelved_answer :
    let picked := holding { tapeIn .picking with slot := some 31 } staffed
    codeOf (.placed onArchive tape 30) .archive picked = some .wrongSlot ∧
    codeOf (.placed onArchive tape 32) .archive picked = some .invalid ∧
    codeOf (.shelved onArchive tape 0) .archive picked = some .state ∧
    codeOf (.shelved onArchive tape 0) .archive (consigned (consignIn .sealed)
      (holding { tapeIn .readyOut with slot := some 31, consignment := some 7 } staffed)) = some .bound ∧
    codeOf (.cancel onArchive tape) .archive (holding (tapeIn .inVault) staffed) = some .state := by decide

theorem test_placed_occupies_slot :
    let picked := holding { tapeIn .picking with slot := some 31 } staffed
    (after (.placed onArchive tape 31) picked).map (fun t => t.staging.slots[(31 : Fin 32)]) =
      some (.occupied tape .outbound (.area .vaultA) 0 none) := by decide

/-! ## Witnesses: chapter 7 -/

/-- Operands at the ends of their ranges; a free place, a reusable one in a full table, and none; and the counter's
last number. -/
theorem test_witness_ConsignOpenMakesARecord :
    let old := { consignIn .closed with closed := some 5 }
    let full := allPlaces (consignIn .opened) staffed
    let one := { full with consign := { full.consign with places := full.consign.places.set 15 (some old) } }
    staffed.accepts onArchive .consignOpen ∧ upkeep.vault.mode = .maintenance ∧ staffed.vault.mode ≠ .maintenance ∧
    ((1 : Nat) ≤ 65535 ∧ (8 : Nat) ≤ 8) ∧ ¬ ((1 : Nat) ≤ 0) ∧ ¬ ((9 : Nat) ≤ 8) ∧
    (staffed.consign.places[(0 : Fin 16)] = none ∧ ∀ j, j < (0 : Fin 16) → staffed.consign.places[j] ≠ none) ∧
    ((∀ j : Fin 16, one.consign.places[j] ≠ none) ∧ one.consign.places[(15 : Fin 16)] = some old ∧ old.state = .closed ∧
      (∀ j : Fin 16, j ≠ 15 → one.consign.places[j] = some (consignIn .opened)) ∧ (consignIn .opened).state ≠ .closed ∧
      (consignIn .opened).state ≠ .cancelled) ∧
    (∀ j : Fin 16, full.consign.places[j] = some (consignIn .opened)) ∧
    ({ staffed with consign := { staffed.consign with counter := 65535 } } : State).consign.counter ≤ 65535 ∧
    staffed.custody.length ≤ 2048 := by decide

/-- A list of 8 and of fewer, a record in each state the checks name, bound and not. -/
theorem test_witness_ConsignAddAndRemoveBindLabels :
    let c := { consignIn .opened with outbound := [] }
    let full := { c with outbound := List.replicate 8 tape2 }
    let s := consigned c (holding (tapeIn .readyOut) staffed)
    let bound := holding { tapeIn .readyOut with consignment := some 7 } (consigned (consignIn .opened) staffed)
    s.accepts onArchive .consignAdd ∧ s.accepts onArchive .consignRemove ∧ upkeep.vault.mode = .maintenance ∧
    s.vault.mode ≠ .maintenance ∧ goodLabel tape = true ∧ (1 ≤ 65535 ∧ 65535 ≤ 65535) ∧ ¬ ((65536 : Nat) ≤ 65535) ∧
    s.consignment? 8 = none ∧ s.consignment? 7 = some (0, c) ∧ (consignIn .sealed).state ≠ .opened ∧ c.state = .opened ∧
    s.record? tape2 = none ∧ s.record? tape = some (0, tapeIn .readyOut) ∧
    ((tapeIn .inVault).state ≠ .stagedOut ∧ (tapeIn .inVault).state ≠ .readyOut) ∧
    (tapeIn .readyOut).consignment = none ∧ ({ tapeIn .readyOut with consignment := some 7 } : CustodyRecord).consignment.isSome = true ∧
    8 ≤ full.outbound.length ∧ c.outbound.length < 8 ∧
    (bound.record? tape = some (0, { tapeIn .readyOut with consignment := some 7 }) ∧
      tape ∈ (consignIn .opened).outbound ∧ tape2 ∉ (consignIn .opened).outbound) ∧
    ((consigned (consignIn .opened) staffed).record? tape = none ∧ (tapeIn .unknown).consignment ≠ some 7) := by decide

/-- Of a list that holds a label twice, CONSIGN_REMOVE takes out the first copy (log 51). -/
theorem test_remove_takes_the_first_copy :
    let s := consigned { consignIn .opened with outbound := [tape, tape2, tape] }
      (holding { tapeIn .readyOut with consignment := some 7 } staffed)
    (after (.consignRemove onArchive 7 tape) s).map (fun t => (t.consign.places[(0 : Fin 16)]).map (·.outbound)) =
      some (some [tape2, tape]) := by decide +kernel

theorem test_consign_requests_answer :
    let s := consigned (consignIn .opened) (holding (tapeIn .stagedOut) staffed)
    codeOf (.consignOpen onArchive 0 0) .archive s = some .invalid ∧
    codeOf (.consignOpen onArchive 1 0) .archive (allPlaces (consignIn .opened) staffed) = some .full ∧
    codeOf (.consignAdd onArchive 8 tape) .archive s = some .notFound ∧
    codeOf (.consignRemove onArchive 7 tape2) .archive s = some .notFound ∧
    codeOf (.consignSeal onArchive 7) .archive s = some .state ∧
    codeOf (.consignUnlock onArchive 7) .archive s = some .state ∧
    codeOf (.consignCancel onArchive 7) .archive (consigned (consignIn .closed) staffed) = some .state ∧
    codeOf (.consignQuery onArchive 7) .archive s = some .ok := by decide

/-- A list with a label NOT_READY, all LOADED, READY and LOADED, and empty; and a record of each kind of state. -/
theorem test_witness_ConsignmentTestGivesTheState :
    let with_ := fun st c => consigned c (holding { tapeIn st with consignment := some 7 } staffed)
    (with_ .stagedOut (consignIn .ready)).consignTest (consignIn .ready) = .sealed ∧
    (with_ .inHatchOut (consignIn .ready)).consignTest (consignIn .ready) = .loaded ∧
    (with_ .readyOut (consignIn .ready)).consignTest (consignIn .ready) = .ready ∧
    (with_ .readyOut (consignIn .ready)).boundState 7 tape = some .readyOut ∧
    (with_ .readyOut (consignIn .ready)).consign.places[(0 : Fin 16)] = some (consignIn .ready) ∧
    ((consignIn .lockedOut).state = .lockedOut ∧ (consignIn .lockedOut).beforeLockout ≠ some .ready) ∧
    ({ consignIn .lockedOut with beforeLockout := some .ready } : Consignment).beforeLockout = some .ready ∧
    ((consignIn .opened).state ≠ .sealed ∧ (consignIn .opened).state ≠ .lockedOut) := by decide

/-- Numbers 0 and 65536, one not in use, and for each request a record that it takes and one that it refuses. -/
theorem test_witness_ConsignmentsAreSealedUnlockedCancelled :
    let s := consigned (consignIn .opened) (holding { tapeIn .readyOut with consignment := some 7 } staffed)
    let empty := { consignIn .opened with outbound := [], expected := 0 }
    let locked := { consignIn .lockedOut with beforeLockout := some .ready }
    s.accepts onArchive .consignSeal ∧ s.accepts onArchive .consignUnlock ∧ s.accepts onArchive .consignCancel ∧
    s.accepts onArchive .consignQuery ∧ s.vault.mode ≠ .maintenance ∧ upkeep.vault.mode = .maintenance ∧
    (65535 : Nat) < 65536 ∧ s.consignment? 65535 = none ∧ s.consignment? 7 = some (0, consignIn .opened) ∧
    (consignIn .sealed).state ≠ .opened ∧ (empty.outbound = [] ∧ empty.expected = 0) ∧
    (s.boundState 7 tape2 ≠ some .stagedOut ∧ s.boundState 7 tape2 ≠ some .readyOut) ∧
    (∀ l ∈ (consignIn .opened).outbound, s.boundState 7 l = some .readyOut) ∧
    (∃ l ∈ (consignIn .opened).outbound, (consigned (consignIn .opened)
      (holding { tapeIn .stagedOut with consignment := some 7 } staffed)).boundState 7 l = some .stagedOut) ∧
    (locked.state = .lockedOut ∧ locked.beforeLockout = some .ready) ∧ (consignIn .loaded).cancellable = false ∧
    (∃ l ∈ (consignIn .ready).outbound, (holding { tapeIn .inHatchOut with consignment := some 7 } staffed).boundState 7 l =
      some .inHatchOut) ∧
    (∀ l ∈ (consignIn .opened).outbound, s.boundState 7 l ≠ some .inHatchOut) ∧
    s.record? tape = some (0, { tapeIn .readyOut with consignment := some 7 }) ∧ some 7 ≠ some 8 := by decide

/-- A record that carries the number, one that carries another, and no record. -/
theorem test_witness_ConsignmentsAreSealedUnlockedCancelled_bound :
    let s := holding { tapeIn .readyOut with consignment := some 7 } staffed
    s.boundState 7 tape = some .readyOut ∧ s.boundState 8 tape = none ∧ s.boundState 7 tape2 = none ∧
    s.boundRecords 7 [tape2, tape] = [.custody 0] ∧ s.boundRecords 8 [tape] = [] := by decide

/-- CONSIGN_SEAL makes READY of a list that is all READY_OUT, with its token. -/
theorem test_seal_computes_token :
    let s := consigned (consignIn .opened) (holding { tapeIn .readyOut with consignment := some 7 } staffed)
    (after (.consignSeal onArchive 7) s).map (fun t => (t.consign.places[(0 : Fin 16)]).map fun c => (c.state, c.token)) =
      some (some (.ready, some (crc16 ([0x00#8, 0x07#8, 0x00#8, 0x09#8, 0x01#8, 0x01#8] ++ tape)))) := by decide +kernel

/-! ## Witnesses: chapter 8 -/

/-- Each check of R141 on both sides, and HATCH_RELEASE in possession with the door open and closed, and without. -/
theorem test_witness_HatchRequestsAreArbitrated :
    let s := consigned (consignIn .ready) staffed
    let pends := s.onArbiter fun a => { a with pendingInner := some .unload, pendingOuter := true }
    let exchange := exchanging .waiting staffed
    s.accepts onArchive .hatchRequest ∧ onArchive.port = .archive ∧ PurposeField.load 65535 ≠ .absent ∧
    upkeep.vault.mode ≠ .staffed ∧ s.vault.mode = .staffed ∧ (purposeOf .unnamed = none ∧ purposeOf (.load 0) = none) ∧
    (PurposeField.load 7 = .load 7 ∧ (1 : Nat) ≤ 7 ∧ (7 : Nat) ≤ 65535) ∧ (burning .hatch .preAlarm s).fire.blocked = true ∧
    (s.fire.blocked = false ∧ s.hatch.arbiter.pendingInner = none ∧ s.hatch.arbiter.holds .inner = false) ∧
    pends.hatch.arbiter.pendingInner.isSome = true ∧ (possessing .inner none s).hatch.arbiter.holds .inner = true ∧
    s.consignment? 8 = none ∧ s.consignment? 7 = some (0, consignIn .ready) ∧ (consignIn .ready).state = .ready ∧
    ((consignIn .loaded).state ≠ .sealed ∧ (consignIn .loaded).state ≠ .ready) ∧
    (exchange.accepts onHandover .hatchRequest ∧ onHandover.port = .handover) ∧ pends.hatch.arbiter.pendingOuter = true ∧
    (possessing .outer none s).hatch.arbiter.holds .outer = true ∧
    (s.hatch.arbiter.pendingOuter = false ∧ s.hatch.arbiter.holds .outer = false ∧ s.hatch.exchange = none) ∧
    exchange.hatch.exchange.isSome = true ∧
    (s.accepts onHandover .hatchRelease ∧ onHandover.port = Side.outer.port) ∧
    ((opened .outer (possessing .outer none s)).hatch.arbiter.holds .outer = true ∧
      ((opened .outer (possessing .outer none s)).hatch.door .outer).isOpen = true) ∧
    ((possessing .outer none s).hatch.door .outer).isOpen = false := by decide

theorem test_hatch_requests_answer :
    let s := consigned (consignIn .loaded) staffed
    codeOf (.hatchRequest onArchive .unload) .archive (inMode .unstaffed) = some .mode ∧
    codeOf (.hatchRequest onArchive .unload) .archive (burning .hatch .preAlarm s) = some .fire ∧
    codeOf (.hatchRequest onArchive .unload) .archive (possessing .inner none s) = some .busy ∧
    codeOf (.hatchRequest onArchive (.load 7)) .archive s = some .state ∧
    codeOf (.hatchRequest onArchive (.load 8)) .archive s = some .notFound ∧
    codeOf (.hatchRequest onHandover .absent) .handover s = some .state ∧
    codeOf (.hatchRequest onHandover .unload) .handover s = some .invalid ∧
    (after (.hatchRequest onArchive (.load 7)) (consigned (consignIn .ready) staffed)).map (fun t =>
      (t.hatch.inner.released, t.hatch.arbiter.purpose, t.hatch.arbiter.lapseAt)) = some (true, some (.load 7), some 3660) := by
  decide

/-- Both sides grantable, each alone and neither; both doors secure and one not. -/
theorem test_witness_ArbitrationGivesPossession :
    let gated := sensing .outside (some ⟨250, 200⟩) (exchanging .waiting staffed)
    let outer := gated.onArbiter fun a => { a with pendingOuter := true }
    let inner := (entered [outEntry] staffed).onArbiter fun a => { a with pendingInner := some .unload }
    (((burning .vaultA (.venting 1) staffed).fire.areas.get .vaultA).state.name ∈ [.countdown, .held, .discharged, .venting] ∧
      ((burning .hatch .preAlarm staffed).fire.areas.get .hatch).state = .preAlarm) ∧
    (outer.fire.blocked = false ∧ outer.gate = true) ∧
    (gated.hatch.exchange = some ⟨7, 9, 4500, .waiting, [], []⟩ ∧ gated.climate.outsideDewPoint = some 90 ∧
      outEntry.estimate = some 250 ∧ (gated.staging.settings.marginOut : Int) ≤ 120 - 90) ∧
    (inner.hatch.arbiter.pendingInner = some .unload ∧ inner.innerGrantable .unload = true ∧
      inner.hatch.arbiter.possession = false ∧ inner.outerGrantable = false) ∧
    (outer.hatch.arbiter.pendingOuter = true ∧ outer.outerGrantable = true ∧ outer.hatch.arbiter.pendingInner = none) ∧
    (possessing .inner none staffed).hatch.arbiter.possession = true ∧
    (staffed.hatch.arbiter.possession = false ∧ staffed.hatch.arbiter.pendingInner = none ∧
      staffed.hatch.arbiter.pendingOuter = false) ∧
    (opened .outer inner).hatch.outer.isOpen = true ∧
    (inner.hatch.inner.isOpen = false ∧ inner.hatch.inner.released = false ∧ inner.hatch.outer.isOpen = false ∧
      inner.hatch.outer.released = false) := by decide

/-- Arbitration with a winner, which is told, and with none. -/
theorem test_arbitration_tells_the_winner :
    let inner := (entered [outEntry] staffed).onArbiter fun a => { a with pendingInner := some .unload }
    inner.arbitration.2 = some .inner ∧ staffed.arbitration.2 = none ∧
    ((inner.arbitrate []).link .archive).notices.map (·.body) = [.hatchGranted .inner] ∧
    ((inner.arbitrate [0]).store.waiting.map fun w => (w.needs, w.outs)) = [([0], [.notice (.hatchGranted .inner)])] := by
  decide +kernel

/-- A label to load and one to unload, each check, a list of 12 and of 11, no slot free and one. -/
theorem test_witness_LoadedAndUnloadedMoveEntries :
    let r := { tapeIn .readyOut with consignment := some 7, slot := some 31 }
    let s := consigned (consignIn .ready) (holding r (possessing .inner (some (.load 7)) staffed))
    let unloads := entered [outEntry] (holding (tapeIn .inHatchOut) (possessing .inner (some .unload) staffed))
    let inbound := entered [inEntry] (holding (tapeIn .inHatchIn) (possessing .inner (some .unload) staffed))
    let back := consigned (consignIn .returning) staffed
    s.accepts onArchive .loaded ∧ s.accepts onArchive .unloaded ∧ upkeep.vault.mode = .maintenance ∧
    s.vault.mode ≠ .maintenance ∧ goodLabel badLabel = false ∧ staffed.record? tape = none ∧
    (s.hatch.arbiter.holds .inner = true ∧ s.hatch.arbiter.purpose = some (.load 7) ∧ r.state = .readyOut ∧
      r.consignment = some 7 ∧ s.consignment? 7 = some (0, consignIn .ready) ∧ r.slot = some 31 ∧
      s.record? tape = some (0, r)) ∧
    (staffed.hatch.arbiter.holds .inner = false) ∧
    12 ≤ (entered (List.replicate 12 inEntry) s).hatch.entries.length ∧
    (entered (List.replicate 11 inEntry) s).hatch.entries.length < 12 ∧
    (unloads.hatch.arbiter.holds .inner = true ∧ unloads.hatch.arbiter.purpose = some .unload ∧
      unloads.hatch.entries.find? (fun e => e.label == tape) = some outEntry ∧
      unloads.record? tape = some (0, tapeIn .inHatchOut)) ∧
    inbound.hatch.entries.find? (fun e => e.label == tape) = some inEntry ∧
    (∀ e ∈ s.hatch.entries, e.label ≠ tape) ∧
    (∀ k : Fin 32, (allSlots (.reserved tape2 .vaultB 0) unloads).staging.slots[k] ≠ .free) ∧
    (unloads.staging.slots[(0 : Fin 32)] = .free) ∧
    (back.consignment? 7 = some (0, consignIn .returning) ∧ (consignIn .returning).state = .returning ∧
      ∀ e ∈ back.hatch.entries, e.number ≠ 7) ∧
    (∃ e ∈ (entered [outEntry] back).hatch.entries, e.number = 7) := by decide

theorem test_loaded_and_unloaded_move :
    let r := { tapeIn .readyOut with consignment := some 7, slot := some 31 }
    let s := consigned (consignIn .ready) (holding r (possessing .inner (some (.load 7)) staffed))
    let unloads := entered [outEntry] (holding (tapeIn .inHatchOut) (possessing .inner (some .unload) staffed))
    (after (.loaded onArchive tape) s).map (fun t =>
      (t.hatch.entries.map (·.label), (t.consign.places[(0 : Fin 16)]).map (·.state))) = some ([tape], some .loaded) ∧
    (after (.unloaded onArchive tape) unloads).map (fun t => (t.hatch.entries.length, t.custody.map fun x => x.2.state)) =
      some (0, [.stagedOut]) ∧
    codeOf (.unloaded onArchive tape) .archive (allSlots (.reserved tape2 .vaultB 0) unloads) = some .noSlot := by decide

/-- Openings and closings of each kind; 180 s and a second less; the lapse at its time and a second before. -/
theorem test_witness_DoorsAndLatchesFollowTheirEvents :
    let held := possessing .outer none staffed
    let releasing := opened .outer (held.onArbiter fun a => { a with releasePending := true })
    let young := staffed.onDoor .inner fun d => { d with isOpen := true, openedAt := some 3421 }
    let told := (opened .inner staffed).onDoor .inner fun d => { d with heldSent := true }
    staffed.power = .running ∧ ((opened .inner staffed).hatch.door .inner).isOpen = true ∧
    ((staffed.hatch.door .inner).isOpen = false ∧ (staffed.hatch.door .inner).released = false) ∧
    ((held.hatch.door .outer).isOpen = false ∧ (held.hatch.door .outer).released = true ∧ held.hatch.exchange = none) ∧
    (exchanging .waiting held).hatch.exchange = some ⟨7, 9, 4500, .waiting, [], []⟩ ∧
    ((releasing.hatch.door .outer).isOpen = true ∧ releasing.hatch.arbiter.holds .outer = true ∧
      releasing.hatch.arbiter.releasePending = true) ∧
    (((opened .outer held).hatch.door .outer).isOpen = true ∧ (opened .outer held).hatch.arbiter.holds .outer = true ∧
      (opened .outer held).hatch.arbiter.releasePending = false ∧ ((opened .outer held).hatch.door .outer).released = true) ∧
    (opened .inner staffed).hatch.arbiter.holds .inner = false ∧
    (((opened .inner staffed).hatch.door .inner).openedAt = some 3420 ∧
      ((opened .inner staffed).hatch.door .inner).heldSent = false ∧ 3420 + 180 ≤ staffed.vault.uptime) ∧
    ((young.hatch.door .inner).openedAt = some 3421 ∧ young.vault.uptime < 3421 + 180) ∧
    (told.hatch.door .inner).heldSent = true ∧
    (held.hatch.arbiter.lapseAt = some 3600 ∧ held.hatch.arbiter.possession = true ∧ held.hatch.arbiter.grant = some .outer ∧
      3600 ≤ held.vault.uptime) ∧
    ((inMode .staffed 3599).vault.uptime < 3600) ∧ staffed.hatch.arbiter.lapseAt = none := by decide

/-- An exchange with its leg OPEN and WAITING; a hatch that becomes blocked with each side pending and in possession. -/
theorem test_witness_PossessionsEndAndAreRevoked :
    let fire := burning .hatch .preAlarm
    let pends := (fire staffed).onArbiter fun a => { a with pendingInner := some .unload, pendingOuter := true }
    let held := fire (possessing .outer none staffed)
    staffed.hatch.exchange = none ∧ (exchanging .opened staffed).hatch.exchange = some ⟨7, 9, 4500, .opened, [], []⟩ ∧
    OuterLeg.waiting ≠ .opened ∧ staffed.fire.blocked = false ∧ (fire staffed).fire.blocked = true ∧
    (pends.hatch.arbiter.pends .inner = true ∧ pends.hatch.arbiter.pends .outer = true ∧
      pends.hatch.arbiter.possession = false) ∧
    ((fire staffed).hatch.arbiter.pends .inner = false ∧ (fire staffed).hatch.arbiter.holds .inner = false) ∧
    (held.hatch.arbiter.holds .outer = true ∧ held.hatch.arbiter.possession = true ∧
      held.hatch.arbiter.grant = some .outer ∧ (held.hatch.door .outer).isOpen = false) ∧
    ((opened .outer held).hatch.door .outer).isOpen = true := by decide

/-! ## Witnesses: chapter 9 -/

/-- Each check of R158; a courier and a token that differ, at two and at three mismatches; and a match. -/
theorem test_witness_ArriveOpensTheExchange :
    let c := { consignIn .loaded with token := some 0x1234#16 }
    let s := consigned c (entered [outEntry] (holding { tapeIn .inHatchOut with consignment := some 7 } staffed))
    s.accepts onHandover .arrive ∧ upkeep.vault.mode = .maintenance ∧ s.vault.mode ≠ .maintenance ∧
    ((1 : Nat) ≤ 7 ∧ (7 : Nat) ≤ 65535 ∧ (1 : Nat) ≤ 9) ∧ ¬ ((1 : Nat) ≤ 0) ∧ s.consignment? 8 = none ∧
    s.consignment? 7 = some (0, c) ∧ (consignIn .lockedOut).state = .lockedOut ∧
    (c.state = .loaded ∧ c.state ≠ .lockedOut ∧ ∀ e ∈ s.hatch.entries, e.number = 7) ∧
    ((consignIn .ready).state = .ready ∧ (consignIn .ready).outbound ≠ []) ∧
    ({ consignIn .ready with outbound := [] } : Consignment).outbound = [] ∧
    (∃ e ∈ (entered [{ outEntry with number := 8 }] s).hatch.entries, e.number ≠ 7) ∧
    (possessing .inner none s).hatch.arbiter.holds .inner = true ∧
    (s.hatch.exchange = none ∧ s.hatch.arbiter.holds .inner = false ∧ s.fire.blocked = false) ∧
    (burning .staging .preAlarm s).fire.blocked = true ∧ (8 : Nat) ≠ c.courier ∧ 9 = c.courier ∧
    c.token ≠ some 0x1235#16 ∧ c.token = some 0x1234#16 ∧ c.mismatches + 1 < 3 ∧
    3 ≤ ({ c with mismatches := 2 } : Consignment).mismatches + 1 := by decide

theorem test_arrive_answers :
    let c := { consignIn .loaded with token := some 0x1234#16, mismatches := 2 }
    let s := consigned c (entered [outEntry] staffed)
    codeOf (.arrive onHandover 0 9 0) .handover s = some .invalid ∧ codeOf (.arrive onHandover 8 9 0) .handover s = some .notFound ∧
    codeOf (.arrive onHandover 7 9 0x1234#16) .handover (possessing .inner none s) = some .busy ∧
    codeOf (.arrive onHandover 7 9 0x1234#16) .handover (burning .staging .preAlarm s) = some .fire ∧
    (after (.arrive onHandover 7 9 0x1235#16) s).map (fun t => (t.consign.places[(0 : Fin 16)]).map (·.state)) =
      some (some .lockedOut) ∧
    (after (.arrive onHandover 7 9 0x1234#16) s).map (fun t => t.hatch.exchange.map (·.timeoutAt)) = some (some 4500) := by decide

/-- An outer possession with its leg OPEN, entries to take and not, lists at their bounds, and labels of each kind. -/
theorem test_witness_TakenAndDepositedMoveEntries :
    let r := { tapeIn .inHatchOut with consignment := some 7 }
    let s := exchanging .opened (possessing .outer none (consigned (consignIn .exchanging)
      (entered [outEntry] (holding r staffed))))
    let away := holding (tapeIn .withCourier) s
    s.accepts onHandover .taken ∧ s.accepts onHandover .deposited ∧ upkeep.vault.mode = .maintenance ∧
    s.vault.mode ≠ .maintenance ∧ goodLabel badLabel = false ∧ staffed.record? tape = none ∧ s.record? tape = some (0, r) ∧
    (s.hatch.exchange = some ⟨7, 9, 4500, .opened, [], []⟩ ∧ s.hatch.arbiter.holds .outer = true ∧
      (∃ e ∈ s.hatch.entries, e.label = tape ∧ e.direction = .outbound ∧ e.number = 7) ∧
      s.consignment? 7 = some (0, consignIn .exchanging)) ∧
    (staffed.hatch.exchange = none ∧ staffed.hatch.arbiter.holds .outer = false) ∧
    ({ consignIn .exchanging with received := [tape2] } : Consignment).expected ≤ [tape2].length ∧
    (consignIn .exchanging).received.length < (consignIn .exchanging).expected ∧
    12 ≤ (entered (List.replicate 12 outEntry) s).hatch.entries.length ∧
    (entered (List.replicate 11 outEntry) s).hatch.entries.length < 12 ∧
    (away.record? tape = some (0, tapeIn .withCourier) ∧ (tapeIn .withCourier).state = .withCourier) ∧
    r.state ≠ .withCourier ∧ (s.record? tape2 = none ∧ s.freePlace = some 1) := by decide

theorem test_witness_TakenAndDepositedMoveEntries_full :
    let s := { exchanging .opened (possessing .outer none (consigned (consignIn .exchanging) staffed)) with custody := fullTable }
    s.record? tape = none ∧ s.freePlace = none ∧ s.hatch.arbiter.holds .outer = true := by decide +kernel

theorem test_deposited_creates :
    let s := exchanging .opened (possessing .outer none (consigned (consignIn .exchanging) (entered [outEntry] staffed)))
    (after (.deposited onHandover tape2) s).map (fun t =>
      (t.custody.map fun x => (x.2.state, x.2.new), t.hatch.entries.length)) = some ([(.inHatchIn, true)], 2) := by decide

/-- An exchange WAITING and OPEN, at its timeout and a second before, with the OUTER side in possession and not. -/
theorem test_witness_ExchangeIsReportedAndTimesOut :
    let at_ := fun up leg => exchanging leg (consigned (consignIn .exchanging) (inMode .staffed up))
    (at_ 4500 .waiting).accepts onHandover .exchangeQuery ∧ staffed.hatch.exchange = none ∧
    (at_ 4500 .waiting).hatch.exchange = some ⟨7, 9, 4500, .waiting, [], []⟩ ∧
    (at_ 4500 .waiting).consignment? 7 = some (0, consignIn .exchanging) ∧
    4500 ≤ (at_ 4500 .waiting).vault.uptime ∧ (at_ 4499 .waiting).vault.uptime < 4500 ∧ OuterLeg.opened ≠ .waiting ∧
    (at_ 4500 .waiting).hatch.arbiter.holds .outer = false ∧
    (possessing .outer none (at_ 4500 .waiting)).hatch.arbiter.holds .outer = true ∧
    ((at_ 4500 .waiting).onArbiter fun a => { a with pendingOuter := true }).hatch.arbiter.pendingOuter = true ∧
    (at_ 4500 .waiting).power = .running := by decide

theorem test_exchange_times_out :
    (after .exchangeTimeout (exchanging .waiting (consigned (consignIn .exchanging) (inMode .staffed 4500)))).map (fun t =>
      (t.hatch.exchange.isSome, (t.consign.places[(0 : Fin 16)]).map (·.state))) = some (false, some .loaded) := by decide

/-- The end of an exchange with entries left and without, revoked and not. -/
theorem test_witness_ExchangeEndsWithItsResult :
    let r := { tapeIn .inHatchOut with consignment := some 7 }
    let s := consigned (consignIn .exchanging) (entered [outEntry] (holding r staffed))
    s.consignment? 7 = some (0, consignIn .exchanging) ∧ custodyWf s.custody = true ∧ s.record? tape = some (0, r) ∧
    (∃ e ∈ s.hatch.entries, e.number = 7) ∧ ¬ (∃ e ∈ staffed.hatch.entries, e.number = 7) ∧
    ({ consignIn .exchanging with takenCount := 1, received := [tape2] } : Consignment).takenCount =
      (consignIn .exchanging).outbound.length := by decide

/-! ## Witnesses: chapter 11 and the invariants -/

/-- Copies good and torn, counts at the wrap, and each case of a hand-over. -/
theorem test_witness_StoreWritesAreQueuedAndReadBack :
    let c : Cell := ⟨Copy.sealed (.counter 1) 65535, Copy.sealed (.counter 2) 0⟩
    let one := (writing .counter staffed).store
    let job := fun r : StoreRecord => (⟨1, r, formattedContent r⟩ : Job)
    let two := fun r : StoreRecord => { one with queue := [job .config, job r, job .hatchList] }
    c.first.count < 65536 ∧ c.second.count < 65536 ∧ c.firstOlder = true ∧
    (⟨c.second, c.first⟩ : Cell).firstOlder = false ∧ (c.first.good = true ∧ c.second.good = true) ∧
    newerCount 0 65535 = true ∧ newerCount 32767 0 = true ∧ newerCount 32768 0 = false ∧
    (staffed.store.format = .none) ∧ (one.inflight = some ⟨0, .counter, .counter 0⟩ ∧ one.queue = []) ∧
    ((two .counter).queue = [job .config] ++ job .counter :: [job .hatchList] ∧ (job .counter).record = .counter ∧
      ∀ k ∈ [job .hatchList], k.record ≠ .counter) ∧
    (∀ j ∈ one.queue, j.record ≠ .fireFlags .hatch) ∧
    ((two (.fireFlags .hatch)).queue = [job .config] ++ job (.fireFlags .hatch) :: [job .hatchList]) ∧
    (staffed.store.inflight = none ∧ staffed.store.queue = [] ∧ one.inflight.isSome = true) ∧
    ({ staffed.store with queue := [job .counter] } : Store).queue = job .counter :: [] := by decide +kernel

/-- The check of a copy is the CRC over its bytes and its count, and a torn copy fails it. -/
theorem test_copy_check :
    (Copy.sealed (.counter 258) 3).check = crc16 [0x01#8, 0x02#8, 0x00#8, 0x03#8] ∧
    (defaultCell (0, 0) .counter).tear.first.good = false ∧ (defaultCell (0, 0) .counter).tear.read = some (.counter 0) := by
  decide +kernel

/-- A write in flight that a pulse and RESTART wait on and one that they do not, and the format's first and last. -/
theorem test_witness_StoreWriteEndCommits :
    let s := writing (.fireFlags .hatch) staffed
    s.power = .running ∧ s.store.inflight = some ⟨0, .fireFlags .hatch, .fireFlags false false⟩ ∧
    cellsWf s.store.base s.store.cells = true ∧
    ({ s.store with restart := .writing 0 } : Store).restart = .writing 0 ∧ s.store.restart ≠ .writing 0 ∧
    ((formatting 4156 upkeep).store.format = .writing 4156 ∧ (formatting 4156 upkeep).store.inflight = none ∧ 4156 < 4157) ∧
    (4157 : Nat) ≤ 4157 ∧ (staffed.store.inflight = none ∧ ∀ k ∈ [2, 4157], staffed.store.format ≠ .writing k) ∧
    s.store.followups = [] ∧
    (let t := { s with store := { s.store with followups := [(0, .evaluate 11 true), (1, .sweep 0), (0, .format)] } }
     (t.store.followups.filter fun x => x.1 == 0).map (·.2) = [.evaluate 11 true, .format] ∧
     t.store.inflight = some ⟨0, .fireFlags .hatch, .fireFlags false false⟩) := by decide

/-- FORMAT's checks, and FORMAT_DONE due at the first and after the last of its writes, and not due. -/
theorem test_witness_FormatEmptiesTheBlocks :
    let swept := { upkeep with vault := { upkeep.vault with rezone := some 0 } }
    let spent := upkeep.onFireArea .hatch fun x => { x with agentSpent := true }
    upkeep.accepts onFacility .format ∧ staffed.vault.mode ≠ .maintenance ∧
    (upkeep.vault.mode = .maintenance ∧ upkeep.vault.rezone = none) ∧ swept.vault.rezone.isSome = true ∧
    (spent.fire.areas.get .hatch).agentSpent = true ∧ ((burning .hatch .held upkeep).fire.areas.get .hatch).state.late = true ∧
    (∀ a ∈ Area.all, (upkeep.fire.areas.get a).agentSpent = false ∧ (upkeep.fire.areas.get a).state.late = false) ∧
    (∀ k ∈ [2, 4157], (formatting k upkeep).power = .running ∧ (formatting k upkeep).store.format = .writing k ∧
      (formatting k upkeep).store.inflight = none ∧ (formatting k upkeep).tablesCanonical = true) ∧
    upkeep.store.format = .none ∧ (writing .status (formatting 2 upkeep)).store.inflight.isSome = true := by decide

/-- FORMAT with D1 of Vault B and D5 of Vault A in ALARM: under the defaults Vault A counts D1 alone, and goes to
PRE_ALARM. -/
theorem test_format_takes_all_defaults_first :
    let s := detectorIn 0 (fun x => { x with state := .alarm, assignment := some .vaultB })
      (detectorIn 4 (fun x => { x with state := .alarm, assignment := some .vaultA }) upkeep)
    ((after (.format onFacility) s).bind (after .storeWriteEnd)).map (fun t => ((t.fire.areas.get .vaultA).state, (t.fire.areas.get .vaultB).state,
      t.fire.detectors[(0 : Detector)].state)) = some (.preAlarm, .preAlarm, .alarm) := by decide +kernel

/-- FORMAT's ACCEPTED is queued before the DETECTOR and the FIRE_STATE of its effect; until the mark is written a format is
in flight, the blocks stand as they were, and a sample event's accumulator is written (R184). -/
theorem test_format_answers_before_it_takes_effect :
    let s := (holding (tapeIn .inVault) (detectorIn 11 (fun x => { x with alarmLine := .high }) upkeep)).startTransmitters
    let seen := fun t : State => (t.links.facility.responses.map (·.code), t.links.facility.notices.map (·.body),
      t.store.format, t.custody.length)
    let sampled := (after (.format onFacility) s).bind fun t => after (.sampleEvent .noAck) (sweeping (.reading (.area .vaultB)) t)
    (after (.format onFacility) s).map seen = some ([], [], .marking, 1) ∧
    sampled.map (fun t => t.store.queue.map (·.record)) = some [.accumulator .vaultB] ∧
    ((after (.format onFacility) s).bind (after .storeWriteEnd)).map seen =
      some ([.accepted], [.detector 11 .alarm, .fireState .hatch .preAlarm], .writing 2, 0) := by decide +kernel

theorem test_format_and_mode_answer :
    codeOf (.format onFacility) .facility staffed = some .mode ∧
    codeOf (.format onFacility) .facility (burning .hatch .held upkeep) = some .state ∧
    codeOf (.setMode onFacility (some .staffed)) .facility
      { upkeep with vault := { upkeep.vault with rezone := some 0 } } = some .busy ∧
    codeOf (.setDescriptor onFacility 8 (some true) 0 0 1) .facility upkeep = some .invalid ∧
    codeOf (.setStaging onArchive ⟨101, 0, 0, 300, 1, 0, 5, 1, 300⟩) .archive upkeep = some .invalid ∧
    codeOf (.setClimate onFacility 1 ⟨300, 10, 150, 0, 300, 0⟩) .facility staffed = some .invalid := by decide

/-- The supply on and off, a write in flight and none, the line HIGH and LOW, and RESTART due and not. -/
theorem test_witness_SupplyAndResetLineRestartThePart :
    let due := { staffed with store := { staffed.store with restart := .due } }
    ({ staffed with power := .off } : State).power = .off ∧ staffed.power ≠ .off ∧
    (writing .counter staffed).store.inflight = some ⟨0, .counter, .counter 0⟩ ∧
    (staffed.store.inflight = none ∧ staffed.store.format = .none ∧ staffed.tablesCanonical = true ∧
      (formatting 4156 staffed).store.format = .writing 4156 ∧ (formatting 4156 staffed).store.inflight = none ∧
      cellsWf staffed.store.base staffed.store.cells = true) ∧
    ({ staffed with power := .stopped } : State).power = .stopped ∧ staffed.power = .running ∧
    staffed.accepts onFacility .restart ∧ staffed.store.restart ≠ .due ∧ due.store.restart = .due ∧
    (staffed.onInputs fun x => { x with reset := ⟨.low, .low⟩ }).inputs.reset = ⟨.low, .low⟩ ∧
    (let stopped := fun p => ({ staffed with power := .stopped } : State).onInputs fun x => { x with reset := p }
     (stopped ⟨.high, .high⟩).power = .stopped ∧ (stopped ⟨.high, .high⟩).inputs.reset = ⟨.high, .high⟩ ∧
     (stopped ⟨.high, .low⟩).inputs.reset ≠ ⟨.high, .high⟩) := by decide

/-- A cell whose newer copy has a bad check. -/
def damagedCopy (c : Cell) : Cell := c.spoil c.firstOlder

/-- Both copies of a record damaged, of each kind that R181 names; and a store whose format mark is set. -/
def damagedIn (r : StoreRecord) (st : Store) : Store :=
  st.spoil [⟨r, false⟩, ⟨r, true⟩]

theorem test_witness_RestartGivesTheRestartValues :
    let st := State.reset.store
    st.status.2.2 = false ∧ (st.writeNow .status (.status .restart ⟨true, true, true⟩ false)).status.2.2 = false := by decide +kernel

/-- A record of each kind with its content read back, and each damaged in both copies. -/
theorem test_witness_RestartReadsTheStore_each :
    let st := State.reset.store
    let status := Content.status .restart ⟨true, false, true⟩ false
    let good := fun r x => ((st.writeNow r x).cell r).read = some x
    let bad := fun r x => ((damagedIn r (st.writeNow r x)).cell r).read = none
    let both := fun r x => good r x ∧ bad r x
    both (.custody 2047) (.custody (some (tapeIn .inVault))) ∧ both (.key 0) (.key (some tape)) ∧ both (.key 2047) (.key none) ∧
    both (.consignment 15) (.consignment (some (consignIn .ready))) ∧ both .counter (.counter 65535) ∧
    both (.slot 31) (.slot .free) ∧ both (.slot 0) (.slot (.reserved tape .vaultA)) ∧
    both (.slot 5) (.slot (.occupied tape .outbound .outside)) ∧ both .hatchList (.hatchList [⟨tape, .inbound, 7, true⟩]) ∧
    both (.accumulator .hatch) (.accumulator 9) ∧ both (.fireFlags .vaultA) (.fireFlags true true) ∧
    both .snapshot (.snapshot (some 3600#32)) ∧ both .snapshot (.snapshot none) ∧ both .status status := by decide +kernel

/-- A damaged accumulator of the area of a good record, which is found with INSPECT and mark 0; an erased record beside
its key entry; and a damaged counter, the highest number that a record carries. -/
theorem test_restart_reads_records :
    let rec_ := { tapeIn .inVault with consignment := some 41 }
    let st := (State.reset.store.writeNow (.key 9) (.key (some tape))).writeNow (.custody 9) (.custody (some rec_))
    let hurt := (damagedIn .counter (damagedIn (.accumulator .vaultA) st))
    let erased := st.writeNow (.custody 9) (.custody none)
    hurt.custodyTable = [(9, { rec_ with inspect := true, mark := some 0 })] ∧ hurt.counter = 41 ∧
    (erased.custodyTable.map fun x => (x.1, x.2.label, x.2.state)) = [(9, tape, .unknown)] := by decide +kernel

/-- A record damaged beside its key entry, and a store whose format mark is set. -/
theorem test_witness_RestartReadsTheStore :
    let st := State.reset.store
    let keyed := damagedIn (.custody 2047) (st.writeNow (.key 2047) (.key (some tape)))
    let marked := st.writeNow .status (.status .powerOn DamageFlags.clear true)
    (keyed.status.2.2 = false ∧ cellsWf keyed.base keyed.cells = true ∧ (2047 : Nat) < 2048 ∧
      (keyed.cell (.key 2047)).read = some (.key (some tape)) ∧ (keyed.cell (.custody 2047)).read = none) ∧
    (marked.status.2.2 = true ∧ cellsWf marked.base marked.cells = true ∧ marked.base = (0, 0) ∧
      ∀ x ∈ marked.cells, x.2.first.count < 65536 ∧ x.2.second.count < 65536) := by decide +kernel

/-- One label found at two places, by a stale key entry, is kept at one: the lowest that is not UNKNOWN; and a good record
that carries another label than its key entry keeps its own. -/
theorem test_restart_keeps_each_label_once :
    let st := ((State.reset.store.writeNow (.key 3) (.key (some tape))).writeNow (.key 9) (.key (some tape))).writeNow
      (.custody 9) (.custody (some (tapeIn .inVault)))
    let other := (st.writeNow (.key 5) (.key (some tape))).writeNow (.custody 5) (.custody (some { tapeIn .inVault with
      label := tape2 }))
    st.custodyTable.map (fun x => (x.1, x.2.label, x.2.state)) = [(9, tape, .inVault)] ∧
    other.custodyTable.map (fun x => (x.1, x.2.label, x.2.state)) = [(5, tape2, .inVault), (9, tape, .inVault)] ∧
    (∀ q r, q ≠ 3 → State.reset.store.custodyAt q = some r → r.label ≠ tape) := by
  refine ⟨by decide +kernel, by decide +kernel, ?_⟩
  intro q r _ h
  simp [Store.custodyAt, Store.content, State.reset, Store.cell, cellIn, defaultCell, Cell.read, formattedContent] at h

/-- The configuration damaged in both copies. -/
theorem test_witness_RestartReadsTheStore_config (c : Cell) : ((c.spoil false).spoil true).read = none :=
  spoil_both_read c

/-- A state that the checks of a restart may leave: a PICKING record that names slot 3, a READY_OUT one in slot 31 that no
slot holds, an IN_HATCH_IN one without an entry, and consignment 7 EXCHANGING. -/
def found : State :=
  let labels : List Label := [tape, tape2, List.replicate 8 0x41#8]
  consigned { consignIn .exchanging with outbound := [tape], received := [] }
    (slotted 3 (.reserved tape .vaultA 0) (slotted 5 (.occupied tape2 .outbound (.area .vaultB) 9 (some 250))
      { staffed with custody := (labels.zip [{ tapeIn .picking with slot := some 3 }, { tapeIn .readyOut with slot := some 31 },
          { tapeIn .inHatchIn with consignment := some 7 }]).mapIdx fun p x => (p, { x.2 with label := x.1 }) }))

/-- Each clause of the recovery: a slot that is kept and one that is not, and a consignment in each state. -/
theorem test_witness_RestartGivesTheRestartValues_recovery :
    let kept := slotted 31 (.occupied tape2 .outbound (.area .vaultB) 9 (some 250)) found
    (∃ x ∈ found.custody, x.2.state = .picking ∧ x.2.slot = some 3) ∧
    (kept.staging.slots[(31 : Fin 32)] = .occupied tape2 .outbound (.area .vaultB) 9 (some 250) ∧
      (kept.record? tape2).map (·.2.slot) = some (some 31)) ∧
    (∃ x ∈ found.custody, x.2.state = .readyOut ∧ x.2.slot = some 31) ∧
    (∀ x ∈ found.custody, x.2.slot ≠ some 5) ∧
    (∀ x ∈ found.custody, x.2.state = .inHatchOut ∨ x.2.state = .inHatchIn → x.2.consignment.isSome = true) ∧
    found.consign.places[(1 : Fin 16)] = none ∧ ((found.consign.places[(0 : Fin 16)]).map (·.state)) = some .exchanging ∧
    (∃ e ∈ found.recovered.hatch.entries, e.number = 7) ∧
    (∀ e ∈ (consigned (consignIn .exchanging) staffed).recovered.hatch.entries, e.number ≠ 7) := by decide +kernel

/-- What the recovery makes of it: slot 3 FREE, slot 31 taken again, the entry made anew with FIRE_HELD, and the
consignment INTERRUPTED and RETURNING with its count and its list rebuilt. -/
theorem test_recovery :
    let t := found.recovered
    t.custody.map (fun x => (x.2.state, x.2.slot, x.2.fireHeld)) =
      [(.inVault, none, false), (.readyOut, some 31, false), (.inHatchIn, none, true)] ∧
    t.staging.slots[(3 : Fin 32)] = .free ∧ t.staging.slots[(5 : Fin 32)] = .free ∧
    t.staging.slots[(31 : Fin 32)] = .occupied tape2 .outbound (.area .vaultA) 0 none ∧
    t.hatch.entries = [⟨List.replicate 8 0x41#8, .inbound, 7, none, true⟩] ∧
    (t.consign.places[(0 : Fin 16)]).map (fun c => (c.state, c.result, c.takenCount, c.received)) =
      some (.returning, some .interrupted, 1, [List.replicate 8 0x41#8]) := by decide +kernel

/-- With fifteen consignments whose state the recovery changed the archive port holds sixteen notices, RESTARTED first, and
its transmitter is idle; with sixteen the transmitter has taken RESTARTED, and none is discarded. -/
theorem test_restart_keeps_all_notices :
    let restarted : Notice := ⟨0, .restarted .powerOn DamageFlags.clear⟩
    let before := (allPlaces (consignIn .ready) staffed).consign.places
    let sealed_ := (allPlaces (consignIn .sealed) staffed)
    let told := fun (is : List (Fin 16)) => (is.foldl (State.announceConsign before)
      { sealed_ with links := { Links.restored with archive := (Link.initial .archive).takeAtRestart restarted } }).links.archive
    let fifteen := told (placeNumbers.take 15)
    let sixteen := told placeNumbers
    (fifteen.sending, fifteen.notices.head?, fifteen.notices.length, fifteen.overrun) = (none, some restarted, 16, false) ∧
    (sixteen.sending, sixteen.notices.length, sixteen.overrun) = (some (.notice restarted), 16, false) := by decide +kernel

/-- A format's mark that the older copy of the store status holds goes with the write of the next restart. -/
theorem test_restart_writes_the_status :
    let mark := fun b => Content.status .powerOn DamageFlags.clear b
    let st := (State.reset.store.writeNow .status (mark true)).writeNow .status (mark false)
    let t := { State.reset with store := st }
    st.status.2.2 = false ∧ (damagedCopy (st.cell .status)).read = some (mark true) ∧
    (damagedCopy (t.writeStatus.store.cell .status)).read = some (mark false) := by decide +kernel

/-- A damaged accumulator is found as 0. -/
theorem test_damaged_accumulator :
    let st := damagedIn (.accumulator .hatch) (State.reset.store.writeNow (.accumulator .hatch) (.accumulator 9))
    st.accumulator .hatch = 0 ∧ st.damaged (.accumulator .hatch) = true ∧ st.damaged (.accumulator .staging) = false := by
  decide +kernel

/-- The invariants hold in states that are not the reset state, and a step from each answers. -/
theorem test_witness_StepsKeepTheLatchesSafe :
    let s := { possessing .outer none (exchanging .waiting staffed) with pending := [.doorOpened .outer] }
    s.latchSafe = true ∧ (after (.doorOpened .outer) { s with pending := [] }).isSome = true ∧ s.hatch.outer.released = true := by
  decide

theorem test_witness_StepsKeepTheOutputsOnTheirCauses :
    let s := { (staffed.changeFire .hatch .preAlarm) with pending := [.callPointOperated .hatch] }
    s.outputsFollow = true ∧ s.fire.alert = true ∧ (after (.callPointOperated .hatch) s).isSome = true := by decide

theorem test_witness_StepsKeepTablesAndCapacities :
    let s := { queued 24 (holding (tapeIn .inVault) staffed) with pending := [.retire onArchive tape] }
    s.tablesCanonical = true ∧ s.withinCapacity = true ∧ (after (.retire onArchive tape) s).isSome = true ∧
    (let u := exchanging .waiting (consigned (consignIn .exchanging) (entered (List.replicate 12 outEntry) s))
     u.listsWithin = true ∧ u.hatch.exchange = some ⟨7, 9, 4500, .waiting, [], []⟩ ∧
     u.consignment? 7 = some (0, consignIn .exchanging) ∧ (consignIn .exchanging).state = .exchanging ∧
     (after .exchangeTimeout u).isSome = true ∧ u.power = .running) := by decide +kernel

/-- A part that runs with its counter in flight as its block holds it and every other record read back from its cell,
at the end of the write; and a format, to which a custody place is left. -/
theorem test_witness_StepsKeepTheStoreOnTheBlocks :
    let s := { (writing .counter staffed) with pending := [.storeWriteEnd] }
    s.tablesCanonical = true ∧ s.storeFollows ∧ s.power = .running ∧ (after .storeWriteEnd s).isSome = true ∧
    s.store.lastWrite .counter = some (s.liveContent .counter) ∧ s.store.lastWrite .hatchList = none ∧
    (formatting 0 staffed).store.leftToFormat (.custody 2047) := by
  intro s
  refine ⟨by decide, ⟨countsWithin_of_base _ rfl rfl, ?_⟩, rfl, by decide +kernel, by decide, by decide,
    0, rfl, Or.inr ⟨rfl, Nat.zero_le _⟩⟩
  intro _ r _ n
  have read : (s.store.cell r).read = some (formattedContent r) := defaultCell_read (0, 0) r
  have live : r ≠ .counter → formattedContent r = s.liveContent r := by
    intro c
    cases r with
    | counter => exact absurd rfl c
    | snapshot => exact absurd rfl n
    | consignment i => revert i; decide +kernel
    | slot i => revert i; decide +kernel
    | accumulator a => cases a <;> rfl
    | fireFlags a => cases a <;> rfl
    | config => decide
    | _ => rfl
  by_cases c : r = .counter
  · subst c; exact Or.inr (Or.inl rfl)
  · refine Or.inr (Or.inr ⟨?_, read.trans (congrArg some (live c))⟩)
    show Option.map _ (List.filter _ [(⟨0, .counter, .counter 0⟩ : Job)]).getLast? = none
    simp [Ne.symm c]

end Sys2Proof.Tests
end

