-- ==== Sys2Proof/Proofs/Vault.lean ====
section
/-! SUPPORT. Chapter 1: the area of a location, the change of mode, the clocks, SET_DESCRIPTOR and the rezone sweep. -/

namespace Sys2Proof.Machine

/-! ## The area of a location (R2, R4) -/

/-- A descriptor covers a location when it is enabled and the top bits agree (R4). -/
theorem covers_iff (d : Descriptor) (l : Location) :
    d.covers l = true ↔ d.enabled = true ∧
      d.prefixValue.toNat / 2 ^ (24 - d.prefixLength) = l.toNat / 2 ^ (24 - d.prefixLength) := by
  simp [Descriptor.covers, topBits]

/-- The area is that of the highest-numbered descriptor that covers the location (R4). -/
theorem resolveLocation_of_highest {ds : Vector Descriptor 8} {l : Location} {i : Fin 8}
    (covers : ds[i].covers l = true) (none_above : ∀ j, i < j → ds[j].covers l = false) :
    resolveLocation ds l = ds[i].area := by
  have found : ds.toList.reverse.find? (fun d => d.covers l) = some ds[i] := by
    rw [List.find?_eq_some_iff_getElem]
    refine ⟨covers, 7 - i.val, by simp; omega, ?_, ?_⟩
    · have e : 8 - 1 - (7 - i.val) = i.val := by omega
      simp [List.getElem_reverse, e]
    · intro j hj
      have above := none_above ⟨8 - 1 - j, by omega⟩ (by rw [Fin.lt_def]; simp only; omega)
      simpa [List.getElem_reverse] using above
  unfold resolveLocation
  rw [found]

/-- With no descriptor that covers it a location lies in Vault A (R4). -/
theorem resolveLocation_of_none {ds : Vector Descriptor 8} {l : Location} (h : ∀ i : Fin 8, ds[i].covers l = false) :
    resolveLocation ds l = .vaultA := by
  have found : ds.toList.reverse.find? (fun d => d.covers l) = none := by
    rw [List.find?_eq_none]
    intro d hd
    obtain ⟨i, hi, rfl⟩ := List.mem_iff_getElem.1 (List.mem_reverse.1 hd)
    have := h ⟨i, by simpa using hi⟩
    simpa using this
  unfold resolveLocation
  rw [found]

/-- Settles O13: the highest match of the list searched from its end, and Vault A where the search finds none. -/
theorem locationTakesTheHighestMatch : Obligations.LocationTakesTheHighestMatch := by
  intro ds l matches_
  have covers : ∀ i : Fin 8, ds[i].covers l = true ↔ matches_ i := fun i => covers_iff ds[i] l
  have not_covers : ∀ i, ¬ matches_ i → ds[i].covers l = false := fun i hi =>
    Bool.eq_false_iff.2 fun hc => hi ((covers i).1 hc)
  exact ⟨fun i hi above => resolveLocation_of_highest ((covers i).2 hi) fun j hj => not_covers j (above j hj),
    fun h => resolveLocation_of_none fun i => not_covers i (h i)⟩

/-! ## SET_MODE (R10, R11) -/

/-- SET_MODE accepted by its link unit is the vault unit's. -/
theorem exec_setMode {h : ReqHead} {s : State} (mode : Option VaultMode) (ha : s.accepts h .setMode) :
    exec (.setMode h mode) s = .next ((s.received h).setMode h mode) :=
  congrArg Host.Outcome.next (request_accepted _ ha)

/-- The hatch is not at rest while an exchange is open or a latch is RELEASED (R10). -/
theorem hatchAtRest_eq_false_iff (s : State) :
    s.hatchAtRest = false ↔
      s.hatch.exchange.isSome = true ∨ s.hatch.inner.released = true ∨ s.hatch.outer.released = true := by
  unfold State.hatchAtRest
  cases s.hatch.exchange <;> cases s.hatch.inner.released <;> cases s.hatch.outer.released <;> simp

/-- A mode that names none is INVALID (R10). -/
theorem setMode_none (h : ReqHead) (s : State) : s.setMode h none = s.refuse h .setMode .invalid := rfl

/-- The mode in force is answered OK (R10). -/
theorem setMode_same (h : ReqHead) (s : State) : s.setMode h (some s.vault.mode) = s.answer h .setMode [] .ok .none :=
  if_pos rfl

/-- MAINTENANCE is not left while a sweep is in flight (R10). -/
theorem setMode_busy {h : ReqHead} {s : State} {m : VaultMode} (hm : m ≠ s.vault.mode)
    (hb : s.vault.mode = .maintenance ∧ s.vault.rezone.isSome = true) :
    s.setMode h (some m) = s.refuse h .setMode .busy := by
  simp only [State.setMode, if_neg hm, if_pos hb]

/-- MAINTENANCE is not entered while the hatch is not at rest (R10). -/
theorem setMode_state {h : ReqHead} {s : State} {m : VaultMode} (hm : m ≠ s.vault.mode)
    (hb : ¬ (s.vault.mode = .maintenance ∧ s.vault.rezone.isSome = true))
    (hr : m = .maintenance ∧ s.hatchAtRest = false) : s.setMode h (some m) = s.refuse h .setMode .state := by
  simp only [State.setMode, if_neg hm, if_neg hb, if_pos hr]

/-- A change that passes the checks is made (R11). -/
theorem setMode_change {h : ReqHead} {s : State} {m : VaultMode} (hm : m ≠ s.vault.mode)
    (hb : ¬ (s.vault.mode = .maintenance ∧ s.vault.rezone.isSome = true))
    (hr : ¬ (m = .maintenance ∧ s.hatchAtRest = false)) : s.setMode h (some m) = s.changeMode h m := by
  simp only [State.setMode, if_neg hm, if_neg hb, if_neg hr]

/-- A mode that is not STAFFED removes the pending inner request (R11). -/
theorem actOnMode_of_ne_staffed {m : VaultMode} (hm : m ≠ .staffed) (s : State) : s.actOnMode m = s.removeInner := by
  cases m
  case staffed => exact absurd rfl hm
  all_goals rfl

theorem removeInner_of_none {s : State} (h : s.hatch.arbiter.pendingInner = none) : s.removeInner = s := by
  simp [State.removeInner, h]

theorem removeInner_of_some {s : State} (h : s.hatch.arbiter.pendingInner.isSome = true) :
    s.removeInner = (s.onArbiter fun a => { a with pendingInner := none }).notify [] (.hatchRevoked .inner) :=
  if_pos h

/-- Which answer SET_MODE gives, by the checks of R10, and what a change does, by the order of R11. -/
theorem setMode_checks_and_change {h : ReqHead} {s : State} (mode : Option VaultMode) (ha : s.accepts h .setMode) :
    let u := s.received h
    (mode = none → exec (.setMode h mode) s = .next (u.refuse h .setMode .invalid)) ∧
    ∀ m, mode = some m →
      (m = s.vault.mode → exec (.setMode h mode) s = .next (u.answer h .setMode [] .ok .none)) ∧
      (m ≠ s.vault.mode → s.vault.mode = .maintenance → s.vault.rezone.isSome = true →
        exec (.setMode h mode) s = .next (u.refuse h .setMode .busy)) ∧
      (m ≠ s.vault.mode → m = .maintenance → s.hatchAtRest = false →
        exec (.setMode h mode) s = .next (u.refuse h .setMode .state)) ∧
      (m ≠ s.vault.mode → ¬ (s.vault.mode = .maintenance ∧ s.vault.rezone.isSome = true) →
        ¬ (m = .maintenance ∧ s.hatchAtRest = false) → exec (.setMode h mode) s = .next (u.changeMode h m)) := by
  intro u
  have rest : u.hatchAtRest = s.hatchAtRest := by simp only [State.hatchAtRest, u, received_hatch]
  have vault : u.vault = s.vault := received_vault s h
  rw [exec_setMode mode ha]
  refine ⟨?_, ?_⟩
  · rintro rfl; rfl
  rintro m rfl
  rw [← vault, ← rest]
  refine ⟨?_, ?_, ?_, ?_⟩
  · rintro rfl; exact congrArg _ (setMode_same h u)
  · exact fun hm hb hz => congrArg _ (setMode_busy hm ⟨hb, hz⟩)
  · intro hm hr hh
    have hb : ¬ (u.vault.mode = .maintenance ∧ u.vault.rezone.isSome = true) := fun hb => hm (hr.trans hb.1.symm)
    exact congrArg _ (setMode_state hm hb ⟨hr, hh⟩)
  · exact fun hm hb hr => congrArg _ (setMode_change hm hb hr)

/-! ## SET_TIME and the clocks (R12 to R14) -/

/-- A format leaves no record but an accumulator's to its own writes (R184). -/
theorem folds_of_not_accumulator (st : Store) {r : StoreRecord} (hr : r.isAccumulator = false) : st.folds r = false := by
  unfold Store.folds
  split
  · rw [hr]; rfl
  · rfl
  · rfl

/-- A snapshot handed over is in flight or waits, whatever the format does (R13). -/
theorem persist_snapshot_queued (s : State) :
    ((s.persist .snapshot).store.inflight.toList ++ (s.persist .snapshot).store.queue).any (fun j =>
      j.record == .snapshot && j.content == .snapshot (some s.vault.clock)) = true := by
  have last := persist_lastWrite .snapshot .snapshot s (folds_of_not_accumulator _ rfl)
  rw [if_pos rfl] at last
  unfold Store.lastWrite at last
  obtain ⟨j, hj, hc⟩ := Option.map_eq_some_iff.1 last
  obtain ⟨hm, hr⟩ := List.mem_filter.1 (List.mem_of_getLast? hj)
  exact List.any_eq_true.2 ⟨j, hm, by simp only [hr, hc, State.liveContent, beq_self_eq_true, Bool.and_self]⟩

/-- SET_TIME accepted by its link unit is the vault unit's. -/
theorem exec_setTime {h : ReqHead} {s : State} (seconds : Clock) (ha : s.accepts h .setTime) :
    exec (.setTime h seconds) s = .next ((s.received h).setTime h seconds) :=
  congrArg Host.Outcome.next (request_accepted _ ha)

/-- A second is a tick of the clocks of a part that runs (R12, R14). -/
theorem exec_timeBaseSecond {s : State} (hp : s.power = .running) : exec .timeBaseSecond s = .next s.tick :=
  congrArg Host.Outcome.next (event_running _ hp)

theorem exec_clockSnapshot {s : State} (hp : s.power = .running) : exec .clockSnapshot s = .next s.snapshotPoint :=
  congrArg Host.Outcome.next (event_running _ hp)

/-- Settles O10: SET_MODE check by check, and each of the clocks' commands by its equation. -/
theorem modeAndClocksAreSet : Obligations.ModeAndClocksAreSet := by
  refine ⟨?_, ?_, ?_, ?_⟩
  · intro h mode s ha
    obtain ⟨invalid, checks⟩ := setMode_checks_and_change mode ha
    refine ⟨invalid, fun m hm => ?_⟩
    obtain ⟨same, busy, state, change⟩ := checks m hm
    refine ⟨same, busy, fun hne hr hh => state hne hr ((hatchAtRest_eq_false_iff s).2 hh), fun hne hb hr => ?_⟩
    rw [← hatchAtRest_eq_false_iff] at hr
    intro v w
    have hw : w.hatch = s.hatch := by simp [w, v]
    have changed : exec (.setMode h mode) s = .next ((w.actOnMode m).arbitrate []) := change hne hb hr
    rw [changed]
    refine ⟨?_, fun hs hi => ?_, fun hs hi => ?_⟩
    · rintro rfl; rfl
    · rw [actOnMode_of_ne_staffed hs, removeInner_of_none (by rw [hw]; exact hi)]
    · rw [actOnMode_of_ne_staffed hs, removeInner_of_some (by rw [hw]; exact hi)]
  · exact fun s hp => exec_timeBaseSecond hp
  · exact fun h seconds s ha => ⟨exec_setTime seconds ha, persist_snapshot_queued _⟩
  · intro s hp due
    rw [exec_clockSnapshot hp]
    exact ⟨fun hd => congrArg _ (if_pos hd), fun hd => congrArg _ (if_neg hd)⟩

/-! ## SET_DESCRIPTOR (R5) -/

/-- SET_DESCRIPTOR accepted by its link unit is the vault unit's. -/
theorem exec_setDescriptor {h : ReqHead} {s : State} (index : Nat) (enabled : Option Bool) (value : Location)
    (length area : Nat) (ha : s.accepts h .setDescriptor) :
    exec (.setDescriptor h index enabled value length area) s =
      .next ((s.received h).setDescriptor h index enabled value length area) :=
  congrArg Host.Outcome.next (request_accepted _ ha)

/-- The area of a number that names a vault area (R1). -/
theorem ofVaultNumber_eq_some_iff (n : Nat) (a : Area) :
    Area.ofVaultNumber n = some a ↔ n = 1 ∧ a = .vaultA ∨ n = 2 ∧ a = .vaultB := by
  unfold Area.ofVaultNumber
  split <;> simp_all [eq_comm]

/-- Fields in range make the descriptor they spell (R5). -/
theorem descriptorOfFields_of_range {e : Bool} {value : Location} {length area : Nat} {a : Area}
    (hl : length ≤ 24) (ha : area = 1 ∧ a = .vaultA ∨ area = 2 ∧ a = .vaultB)
    (hv : value.toNat % 2 ^ (24 - length) = 0) :
    descriptorOfFields (some e) value length area = some ⟨e, value, length, a⟩ := by
  unfold descriptorOfFields
  rw [(ofVaultNumber_eq_some_iff area a).2 ha]
  exact if_pos ⟨hl, by simp [prefixClean, hv]⟩

/-- A field out of range makes none (R5). -/
theorem descriptorOfFields_of_not_range {enabled : Option Bool} {value : Location} {length area : Nat}
    (h : enabled = none ∨ 24 < length ∨ (area ≠ 1 ∧ area ≠ 2) ∨ value.toNat % 2 ^ (24 - length) ≠ 0) :
    descriptorOfFields enabled value length area = none := by
  unfold descriptorOfFields
  split
  · rename_i a ha
    have named := (ofVaultNumber_eq_some_iff area a).1 ha
    refine if_neg fun ⟨hl, hv⟩ => ?_
    simp only [prefixClean, beq_iff_eq] at hv
    simp only [reduceCtorEq, false_or] at h
    omega
  · rfl

theorem setDescriptor_mode {h : ReqHead} {index length area : Nat} {enabled : Option Bool} {value : Location}
    {s : State} (hm : s.vault.mode ≠ .maintenance) :
    s.setDescriptor h index enabled value length area = s.refuse h .setDescriptor .mode := if_pos hm

theorem setDescriptor_busy {h : ReqHead} {index length area : Nat} {enabled : Option Bool} {value : Location}
    {s : State} (hm : s.vault.mode = .maintenance) (hz : s.vault.rezone.isSome = true) :
    s.setDescriptor h index enabled value length area = s.refuse h .setDescriptor .busy := by
  simp only [State.setDescriptor, if_neg (not_not.2 hm), if_pos hz]

/-- Past the first two checks SET_DESCRIPTOR goes by its fields (R5). -/
theorem setDescriptor_fields {h : ReqHead} {index length area : Nat} {enabled : Option Bool} {value : Location}
    {s : State} (hm : s.vault.mode = .maintenance) (hz : s.vault.rezone = none)
    (bad : 8 ≤ index ∨ descriptorOfFields enabled value length area = none) :
    s.setDescriptor h index enabled value length area = s.refuse h .setDescriptor .invalid := by
  have hz' : ¬ s.vault.rezone.isSome = true := by simp [hz]
  simp only [State.setDescriptor, if_neg (not_not.2 hm), if_neg hz']
  split
  · rfl
  · rename_i hd
    have hi : ¬ index < 8 := by
      rcases bad with hi | hn
      · omega
      · rw [hn] at hd; cases hd
    rw [dif_neg hi]

/-- The state in which a descriptor's write has been handed over (R5). -/
def State.withDescriptor (s : State) (i : Fin 8) (d : Descriptor) : State :=
  ({ s with vault := { s.vault with descriptors := s.vault.descriptors.set i d } }).persist .config

/-- SET_DESCRIPTOR's effect: the descriptor, its write, ACCEPTED behind it, and the sweep behind that (R5; log 55). -/
theorem setDescriptor_accepted {h : ReqHead} {length area : Nat} {enabled : Option Bool} {value : Location}
    {s : State} {d : Descriptor} (i : Fin 8) (hm : s.vault.mode = .maintenance) (hz : s.vault.rezone = none)
    (hd : descriptorOfFields enabled value length area = some d) :
    let old := s.vault.descriptors[i]
    let start := if d = old then Config.custodyPlaces else 0
    let v := s.withDescriptor i d
    s.setDescriptor h i.val enabled value length area =
      (v.answer h .setDescriptor (v.awaits [.config]) .accepted (.descriptor old)).follow .config (.sweep start)
        (State.startSweep start) := by
  have hz' : ¬ s.vault.rezone.isSome = true := by simp [hz]
  simp only [State.setDescriptor, if_neg (not_not.2 hm), if_neg hz', hd, dif_pos i.isLt]
  rfl

/-- What a response and a notice leave of the store's writes. -/
@[simp] theorem answer_pendingOf (h : ReqHead) (k : RequestKind) (needs : List Nat) (c : ResultCode) (d : ResponseData)
    (s : State) (r : StoreRecord) : (s.answer h k needs c d).store.pendingOf r = s.store.pendingOf r := by
  rw [answer_frame]; rfl

/-- What waits on one record waits on its writes that have not ended. -/
@[simp] theorem awaits_single (s : State) (r : StoreRecord) : s.awaits [r] = s.store.pendingOf r := by
  simp [State.awaits]

/-- A record handed over has a write that what depends on it waits on. -/
theorem persist_has_ticket (s : State) {r : StoreRecord} (hr : r.isAccumulator = false) :
    ∃ ticket, ((s.persist r).store.pendingOf r).getLast? = some ticket :=
  lastWrite_pendingOf ((persist_lastWrite r r s (folds_of_not_accumulator _ hr)).trans (if_pos rfl))

/-- Settles O11: the checks one by one, and the effect by the ticket of the configuration's write. -/
theorem setDescriptorStartsARezoneSweep : Obligations.SetDescriptorStartsARezoneSweep := by
  intro h index length area enabled value s ha u c refused
  have vault : u.vault = s.vault := received_vault s h
  have exec_c : exec c s = .next (u.setDescriptor h index enabled value length area) :=
    exec_setDescriptor index enabled value length area ha
  rw [exec_c, ← vault]
  refine ⟨fun hm => congrArg _ (setDescriptor_mode hm), fun hm hz => congrArg _ (setDescriptor_busy hm hz),
    fun hm hz bad => congrArg _ (setDescriptor_fields hm hz (bad.imp_right descriptorOfFields_of_not_range)), ?_,
    fun k s => rfl⟩
  rintro i e a hm hz rfl rfl hl harea hv d old v w
  obtain ⟨ticket, ht⟩ : ∃ ticket, (v.store.pendingOf .config).getLast? = some ticket := persist_has_ticket _ rfl
  have pending : (w.store.pendingOf .config).getLast? = some ticket := by rw [answer_pendingOf, ht]
  refine ⟨ticket, by rw [awaits_single, ht], by simp [w, v, hz], ?_⟩
  rw [setDescriptor_accepted i hm hz (descriptorOfFields_of_range hl harea hv)]
  exact congrArg _ (follow_waits pending _ _)

end Sys2Proof.Machine
end

