-- ==== Sys2Proof/Proofs/WriteEnd.lean ====
section
/-! SUPPORT. The end of a write (R179): what the store, the link units and the release pulses hold after it, as one
equation, and STORE_WRITE_END by that equation. -/

namespace Sys2Proof.Machine

/-! ## Outputs read the link units and the clock alone -/

/-- What a notice on one port leaves in the link units depends on them and on the clock. -/
theorem noticeOn_links_congr {s t : State} (hl : s.links = t.links) (hc : s.vault.clock = t.vault.clock)
    (take : Link → Notice → Link) (n : NoticeBody) (p : Port) :
    (s.noticeOn take n p).links = (t.noticeOn take n p).links := by
  unfold State.noticeOn State.link
  rw [hl, hc]
  split
  · simp only [onLink_links, hl]
  · exact hl

/-- What a notice leaves in the link units depends on them and on the clock. -/
theorem sendNotice_links_congr {s t : State} (hl : s.links = t.links) (hc : s.vault.clock = t.vault.clock)
    (take : Link → Notice → Link) (n : NoticeBody) : (s.sendNotice take n).links = (t.sendNotice take n).links := by
  unfold State.sendNotice
  generalize n.ports = ps
  induction ps generalizing s t with
  | nil => exact hl
  | cons p ps ih => exact ih (noticeOn_links_congr hl hc take n p) (by simp [hc])

/-- What an output leaves in the link units depends on them and on the clock. -/
theorem deliver_links_congr {s t : State} (hl : s.links = t.links) (hc : s.vault.clock = t.vault.clock) (x : Out) :
    (s.deliver x).links = (t.deliver x).links := by
  cases x with
  | response p r => simp only [State.deliver, State.postResponse, onLink_links, hl]
  | notice n => exact sendNotice_links_congr hl hc _ n

/-- What several outputs leave in the link units depends on them and on the clock. -/
theorem delivers_links_congr (xs : List Out) {s t : State} (hl : s.links = t.links)
    (hc : s.vault.clock = t.vault.clock) : (xs.foldl State.deliver s).links = (xs.foldl State.deliver t).links := by
  induction xs generalizing s t with
  | nil => exact hl
  | cons x xs ih => exact ih (deliver_links_congr hl hc x) (by simp [hc])

/-- Outputs queued in a state with the link units and the clock of another. -/
theorem delivers_within (xs : List Out) {s t : State} (hl : t.links = s.links) (hc : t.vault.clock = s.vault.clock) :
    xs.foldl State.deliver t = { t with links := (xs.foldl State.deliver s).links } := by
  rw [← delivers_links_congr xs hl hc]
  exact delivers_frame xs t

/-! ## Release pulses (R49, R50) -/

/-- The fire records once the release pulses of some areas have started at an uptime. -/
def pulsedAreas (uptime : Nat) (due : List Area) (areas : PerArea FireArea) : PerArea FireArea :=
  due.foldl (fun x a => x.set a { x.get a with pulse := some uptime }) areas

/-- Pulses that start touch the fire records alone. -/
theorem startPulse_foldl (due : List Area) (s : State) :
    due.foldl State.startPulse s =
      { s with fire := { s.fire with areas := pulsedAreas s.vault.uptime due s.fire.areas } } := by
  induction due generalizing s with
  | nil => rfl
  | cons a due ih => rw [List.foldl_cons, ih]; rfl

/-- Each area whose pulse starts holds the uptime, and the others are as they were. -/
theorem pulsedAreas_get (uptime : Nat) (due : List Area) (areas : PerArea FireArea) (a : Area) :
    (pulsedAreas uptime due areas).get a =
      { areas.get a with pulse := if a ∈ due then some uptime else (areas.get a).pulse } := by
  induction due generalizing areas with
  | nil => rfl
  | cons b due ih =>
    refine (ih _).trans ?_
    rw [perArea_get_set]
    by_cases hb : a = b
    · subst hb; simp
    · simp [hb]

/-! ## The end of a write as one equation (R179) -/

/-- With no write in flight the first that waits is begun. -/
theorem begin_of_idle {st : Store} (h : st.inflight = none) :
    st.begin = { st with inflight := st.queue.head?, queue := st.queue.tail } := by
  obtain ⟨cells, base, inflight, queue⟩ := st
  cases h
  cases queue <;> rfl

/-- The outputs that waited, without the ended write (R89). -/
abbrev Store.waitingWithout (st : Store) (ticket : Nat) : List Waiting :=
  st.waiting.map fun w => { w with needs := w.needs.filter (· != ticket) }

/-- The outputs that waited on the ended write and on no other, in order (R89). -/
abbrev Store.outputsDue (st : Store) (ticket : Nat) : List Out :=
  ((st.waitingWithout ticket).filter fun w => w.needs.isEmpty).flatMap (·.outs)

/-- The store once a write has ended (R179). -/
def Store.afterWrite (st : Store) (j : Job) : Store :=
  { st with
    cells := (st.writeNow j.record j.content).cells
    inflight := st.queue.head?
    queue := st.queue.tail
    restart := st.restart.ended j.ticket
    pulses := st.pulses.filter fun p => p.1 != j.ticket
    waiting := (st.waitingWithout j.ticket).filter fun w => !w.needs.isEmpty }

/-- The areas whose pulse waits on the ended write (R49). -/
abbrev Store.pulsesDue (st : Store) (ticket : Nat) : List Area :=
  (st.pulses.filter fun p => p.1 == ticket).map (·.2)

/-- The pulses that waited on a ticket start (R49). -/
theorem startPulses_eq (ticket : Nat) (s : State) :
    s.startPulses ticket =
      { s with
        store := { s.store with pulses := s.store.pulses.filter fun p => p.1 != ticket }
        fire := { s.fire with areas := pulsedAreas s.vault.uptime (s.store.pulsesDue ticket) s.fire.areas } } :=
  startPulse_foldl _ _

/-- The outputs that waited on a ticket alone are queued (R89). -/
theorem releaseOutputs_eq (ticket : Nat) (s : State) :
    s.releaseOutputs ticket =
      { s with
        links := ((s.store.outputsDue ticket).foldl State.deliver s).links
        store := { s.store with waiting := (s.store.waitingWithout ticket).filter fun w => !w.needs.isEmpty } } :=
  delivers_within _ rfl rfl

/-- The end of a write: the store, the outputs that waited on it alone, and the pulses that waited on it. -/
theorem endWrite_eq (s : State) (j : Job) :
    s.endWrite j =
      { s with
        links := ((s.store.outputsDue j.ticket).foldl State.deliver s).links
        store := s.store.afterWrite j
        fire := { s.fire with areas := pulsedAreas s.vault.uptime (s.store.pulsesDue j.ticket) s.fire.areas } } := by
  have written : ({ s.store.writeNow j.record j.content with
      inflight := none, restart := (s.store.writeNow j.record j.content).restart.ended j.ticket }).begin =
      { s.store with
        cells := (s.store.writeNow j.record j.content).cells, inflight := s.store.queue.head?,
        queue := s.store.queue.tail, restart := s.store.restart.ended j.ticket } := by
    rw [begin_of_idle rfl, writeNow_frame]
  refine (congrArg (fun st => (({ s with store := st } : State).startPulses j.ticket).releaseOutputs j.ticket) written).trans ?_
  simp only [startPulses_eq, releaseOutputs_eq]
  refine congrArg (fun l => State.mk _ _ _ l _ _ _ _ _ _ _ _ _) ?_
  exact delivers_links_congr _ rfl rfl

/-- The follow-ups that wait are not touched by the end of a write. -/
theorem endWrite_withFollowups (s : State) (j : Job) (fs : List (Nat × Followup)) :
    ({ s with store := { s.store with followups := fs } }).endWrite j =
      { s.endWrite j with store := { (s.endWrite j).store with followups := fs } } := by
  have cells : ({ s.store with followups := fs }.writeNow j.record j.content).cells =
      (s.store.writeNow j.record j.content).cells := by
    unfold Store.writeNow; split <;> rfl
  rw [endWrite_eq, endWrite_eq, delivers_links_congr _ (s := { s with store := { s.store with followups := fs } }) (t := s) rfl rfl]
  simp only [Store.afterWrite, cells]

/-- A record's cell once a write has ended. -/
theorem afterWrite_cell {st : Store} (hw : st.cellsHold) (j : Job) (r : StoreRecord) :
    (st.afterWrite j).cell r =
      if r = j.record then (if j.content = .custody none then (st.cell j.record).erase else (st.cell j.record).write j.content)
      else st.cell r := by
  have same : (st.afterWrite j).cell r = (st.writeNow j.record j.content).cell r := by
    simp only [Store.cell, Store.afterWrite, writeNow_base]
  rw [same, cell_writeNow hw]

/-! ## STORE_WRITE_END -/

theorem exec_storeWriteEnd {s : State} (hp : s.power = .running) : exec .storeWriteEnd s = .next s.writeEnd :=
  congrArg Host.Outcome.next (event_running _ hp)

theorem writeEnd_of_inflight {s : State} {j : Job} (h : s.store.inflight = some j) :
    s.writeEnd = (s.endWrite j).endFollowups j.ticket := by
  unfold State.writeEnd; rw [h]

theorem writeEnd_of_idle {s : State} (h : s.store.inflight = none) : s.writeEnd = s.endFormatWrite := by
  unfold State.writeEnd; rw [h]

/-- With nothing to do behind a response of the ended write, the end of the write is all. -/
theorem writeEnd_of_no_followup {s : State} {j : Job} (h : s.store.inflight = some j)
    (hf : ∀ x ∈ s.store.followups, x.1 ≠ j.ticket) : s.writeEnd = s.endWrite j := by
  rw [writeEnd_of_inflight h]
  exact endFollowups_none (by rw [endWrite_eq]; exact hf)

/-- STORE_WRITE_END is the end of the write without what follows its responses, and then that, in order (R5, R59, R80,
R184; log 55). -/
theorem writeEnd_followups {s : State} {j : Job} (h : s.store.inflight = some j) :
    let due := (s.store.followups.filter fun x => x.1 == j.ticket).map (·.2)
    let rest := s.store.followups.filter fun x => x.1 != j.ticket
    s.writeEnd = due.foldl State.followUp ({ s with store := { s.store with followups := rest } }).writeEnd := by
  intro due rest
  have none_left : ∀ x ∈ rest, x.1 ≠ j.ticket := fun x hx => by simpa using (List.mem_filter.1 hx).2
  rw [writeEnd_of_no_followup (s := { s with store := { s.store with followups := rest } }) h none_left,
    endWrite_withFollowups, writeEnd_of_inflight h, State.endFollowups, endWrite_eq]
  rfl

/-- The format's next write, while it has one (R184; log 18). -/
theorem endFormatWrite_of_lt {s : State} {k : Nat} (hf : s.store.format = .writing k) (hk : k < formatLimit) :
    s.endFormatWrite =
      { s with store := { s.store.formatWrite (.ofAddr k) (s.liveContent (.ofAddr k)) with format := .writing (k + 1) } } := by
  unfold State.endFormatWrite
  rw [hf]
  exact if_pos hk

/-- A format past its last write has none to make (log 3). -/
theorem endFormatWrite_of_ge {s : State} {k : Nat} (hf : s.store.format = .writing k) (hk : formatLimit ≤ k) :
    s.endFormatWrite = s := by
  unfold State.endFormatWrite
  rw [hf]
  exact if_neg (Nat.not_lt.2 hk)

/-- Without a format in effect there is none (log 3). -/
theorem endFormatWrite_of_not_writing {s : State} (h : ∀ k, s.store.format ≠ .writing k) : s.endFormatWrite = s := by
  unfold State.endFormatWrite
  cases hf : s.store.format with
  | none => rfl
  | marking => rfl
  | writing k => exact absurd hf (h k)

/-- The pulses due are those that wait on the ticket. -/
theorem mem_pulses_due (ps : List (Nat × Area)) (ticket : Nat) (a : Area) :
    a ∈ (ps.filter fun p => p.1 == ticket).map (·.2) ↔ ps.any (fun x => x == (ticket, a)) = true := by
  simp

/-- The cause of a RESTART is written when its write ends, and no other write changes the phase (R180). -/
theorem restart_ended (ph : RestartPhase) (ticket : Nat) :
    (ph = .writing ticket → ph.ended ticket = .due) ∧ (ph ≠ .writing ticket → ph.ended ticket = ph) := by
  cases ph <;> simp [RestartPhase.ended]

/-- Settles O51, by the equation of the end of a write and the format's own writes. -/
theorem storeWriteEndCommits : Obligations.StoreWriteEndCommits := by
  refine ⟨?_, ?_, ?_, ?_⟩
  · intro j s hp hj due rest
    exact ⟨_, exec_storeWriteEnd hp, (exec_storeWriteEnd hp).trans (congrArg _ (writeEnd_followups hj))⟩
  · intro j s hp hj hw hf
    refine ⟨s.endWrite j, (exec_storeWriteEnd hp).trans (congrArg _ (writeEnd_of_no_followup hj hf)), ?_⟩
    obtain ⟨due, kept⟩ := restart_ended s.store.restart j.ticket
    rw [endWrite_eq]
    refine ⟨rfl, (afterWrite_cell hw j j.record).trans (if_pos rfl),
      fun r hr => (afterWrite_cell hw j r).trans (if_neg hr), rfl, rfl, rfl, fun a => ?_, ⟨rfl, rfl⟩, due, kept, rfl⟩
    refine (pulsedAreas_get _ _ _ a).trans ?_
    simp only [mem_pulses_due]
  · intro k s hp hi hf r
    rw [exec_storeWriteEnd hp, writeEnd_of_idle hi]
    exact ⟨fun hk => congrArg _ (endFormatWrite_of_lt hf hk), fun hk => congrArg _ (endFormatWrite_of_ge hf hk)⟩
  · intro s hp hi hf
    rw [exec_storeWriteEnd hp, writeEnd_of_idle hi, endFormatWrite_of_not_writing hf]

end Sys2Proof.Machine
end

