-- ==== Sys2Proof/Proofs/Recovery.lean ====
section
/-! SUPPORT. The recovery of R182, step by step: what each step makes of the custody records, the slots, the hatch list
and the consignments, and then the whole as equations on the blocks as the checks leave them. -/

namespace Sys2Proof.Machine

/-! ## Step 1: records returned to their shelf -/

theorem recoverRecord_of_pending {s : State} {x : Nat × CustodyRecord}
    (h : x.2.state = .requested ∨ x.2.state = .picking) : s.recoverRecord x = (x.1, s.backToVault x.2) := if_pos h

theorem recoverRecord_of_not_pending {s : State} {x : Nat × CustodyRecord}
    (h : ¬ (x.2.state = .requested ∨ x.2.state = .picking)) : s.recoverRecord x = x := if_neg h

/-- What step 1 keeps of every record. -/
theorem recoverRecord_keeps (s : State) (x : Nat × CustodyRecord) :
    (s.recoverRecord x).1 = x.1 ∧ (s.recoverRecord x).2.label = x.2.label ∧
      (s.recoverRecord x).2.consignment = x.2.consignment ∧ (s.recoverRecord x).2.fireHeld = x.2.fireHeld ∧
      (s.recoverRecord x).2.location = x.2.location ∧ (s.recoverRecord x).2.area = x.2.area := by
  unfold State.recoverRecord
  split
  · exact ⟨rfl, rfl, rfl, rfl, rfl, rfl⟩
  · exact ⟨rfl, rfl, rfl, rfl, rfl, rfl⟩

@[simp] theorem recoverRecord_place (s : State) (x : Nat × CustodyRecord) : (s.recoverRecord x).1 = x.1 :=
  (recoverRecord_keeps s x).1
@[simp] theorem recoverRecord_label (s : State) (x : Nat × CustodyRecord) : (s.recoverRecord x).2.label = x.2.label :=
  (recoverRecord_keeps s x).2.1
@[simp] theorem recoverRecord_consignment (s : State) (x : Nat × CustodyRecord) :
    (s.recoverRecord x).2.consignment = x.2.consignment := (recoverRecord_keeps s x).2.2.1
@[simp] theorem recoverRecord_fireHeld (s : State) (x : Nat × CustodyRecord) :
    (s.recoverRecord x).2.fireHeld = x.2.fireHeld := (recoverRecord_keeps s x).2.2.2.1

/-- Step 1 changes no record into or out of a state other than IN_VAULT, REQUESTED and PICKING. -/
theorem recoverRecord_state_eq (s : State) (x : Nat × CustodyRecord) {st : CustodyState}
    (h : st ≠ .inVault ∧ st ≠ .requested ∧ st ≠ .picking) :
    ((s.recoverRecord x).2.state == st) = (x.2.state == st) := by
  obtain ⟨hv, hr, hp⟩ := h
  by_cases hs : x.2.state = .requested ∨ x.2.state = .picking
  · rw [recoverRecord_of_pending hs]
    rcases hs with hs | hs <;> simp [State.backToVault, hs, Ne.symm hv, Ne.symm hr, Ne.symm hp]
  · rw [recoverRecord_of_not_pending hs]

@[simp] theorem recoverRecord_entryDirection (s : State) (x : Nat × CustodyRecord) :
    (s.recoverRecord x).2.state.entryDirection = x.2.state.entryDirection := by
  by_cases hs : x.2.state = .requested ∨ x.2.state = .picking
  · rw [recoverRecord_of_pending hs]
    rcases hs with hs | hs <;> rw [hs] <;> rfl
  · rw [recoverRecord_of_not_pending hs]

@[simp] theorem recoverRecord_slotDirection (s : State) (x : Nat × CustodyRecord) :
    (s.recoverRecord x).2.state.slotDirection = x.2.state.slotDirection := by
  by_cases hs : x.2.state = .requested ∨ x.2.state = .picking
  · rw [recoverRecord_of_pending hs]
    rcases hs with hs | hs <;> rw [hs] <;> rfl
  · rw [recoverRecord_of_not_pending hs]

/-- The record is staged and carries the number of a slot (R182, step 2). -/
def CustodyRecord.stagedIn (n : Fin 32) (r : CustodyRecord) : Bool := r.state.slotDirection.isSome && r.slot == some n

@[simp] theorem recoverRecord_stagedIn (s : State) (x : Nat × CustodyRecord) (n : Fin 32) :
    (s.recoverRecord x).2.stagedIn n = x.2.stagedIn n := by
  by_cases hs : x.2.state = .requested ∨ x.2.state = .picking
  · rw [recoverRecord_of_pending hs]
    rcases hs with hs | hs <;> simp [CustodyRecord.stagedIn, State.backToVault, hs, CustodyState.slotDirection]
  · rw [recoverRecord_of_not_pending hs]

/-- A lookup by label goes through a change that keeps the labels. -/
theorem findLabel_map {f : Nat × CustodyRecord → Nat × CustodyRecord} (hf : ∀ x, (f x).2.label = x.2.label) (l : Label)
    (t : List (Nat × CustodyRecord)) : findLabel l (t.map f) = (findLabel l t).map f := by
  unfold findLabel
  rw [List.find?_map]
  exact congrArg (fun p => (t.find? p).map f) (funext fun x => by simp [hf])

/-! ## Step 2: the slots -/

/-- The slot that a staged record calls for (R182, step 2). -/
def State.stagedSlot (s : State) (r : CustodyRecord) (d : Direction) : Slot :=
  .occupied r.label d (s.unloadOrigin d) 0 none

/-- A vector read at a place after a write. -/
theorem vector_getElem_set {α : Type} {n : Nat} (v : Vector α n) (i j : Fin n) (x : α) :
    (v.set i x)[j] = if j = i then x else v[j] := by
  by_cases h : j = i
  · subst h; simp
  · have : (i : Nat) ≠ j := fun e => h (Fin.ext e.symm)
    simp [h, this]

theorem reoccupy_of_staged {s : State} {x : Nat × CustodyRecord} {d : Direction} {m : Fin 32}
    (hd : x.2.state.slotDirection = some d) (hm : x.2.slot = some m) :
    s.reoccupy x =
      if (s.staging.slots[m]).isFree then
        { s with staging := { s.staging with slots := s.staging.slots.set m (s.stagedSlot x.2 d) } }
      else s := by
  unfold State.reoccupy
  rw [hd, hm]
  rfl

theorem reoccupy_of_not_staged {s : State} {x : Nat × CustodyRecord}
    (h : ∀ d m, ¬ (x.2.state.slotDirection = some d ∧ x.2.slot = some m)) : s.reoccupy x = s := by
  unfold State.reoccupy
  split
  · rename_i d m hd hm; exact absurd ⟨hd, hm⟩ (h d m)
  · rfl

/-- A staged record touches the slots alone. -/
theorem reoccupy_frame (s : State) (x : Nat × CustodyRecord) :
    s.reoccupy x = { s with staging := { s.staging with slots := (s.reoccupy x).staging.slots } } := by
  unfold State.reoccupy
  split
  · split <;> rfl
  · rfl

theorem reoccupy_foldl_frame (xs : List (Nat × CustodyRecord)) (s : State) :
    xs.foldl State.reoccupy s =
      { s with staging := { s.staging with slots := (xs.foldl State.reoccupy s).staging.slots } } := by
  induction xs generalizing s with
  | nil => rfl
  | cons x xs ih => rw [List.foldl_cons, ih, reoccupy_frame]

theorem stagedIn_iff (r : CustodyRecord) (n : Fin 32) :
    r.stagedIn n = true ↔ ∃ d, r.state.slotDirection = some d ∧ r.slot = some n := by
  unfold CustodyRecord.stagedIn
  cases r.state.slotDirection <;> simp

/-- A FREE slot goes to a staged record that carries its number. -/
theorem reoccupy_slot_taken {s : State} {x : Nat × CustodyRecord} {n : Fin 32} (hx : x.2.stagedIn n = true)
    (hf : (s.staging.slots[n]).isFree = true) :
    (s.reoccupy x).staging.slots[n] = s.stagedSlot x.2 (x.2.state.slotDirection.getD .outbound) := by
  obtain ⟨d, hd, hm⟩ := (stagedIn_iff _ _).1 hx
  rw [reoccupy_of_staged hd hm, if_pos hf, hd]
  exact (vector_getElem_set _ n n _).trans (if_pos rfl)

/-- Any other slot stays. -/
theorem reoccupy_slot_left {s : State} {x : Nat × CustodyRecord} {n : Fin 32}
    (h : ¬ (x.2.stagedIn n = true ∧ (s.staging.slots[n]).isFree = true)) :
    (s.reoccupy x).staging.slots[n] = s.staging.slots[n] := by
  by_cases hs : ∃ d m, x.2.state.slotDirection = some d ∧ x.2.slot = some m
  · obtain ⟨d, m, hd, hm⟩ := hs
    rw [reoccupy_of_staged hd hm]
    split
    · rename_i hf
      have hn : n ≠ m := by
        rintro rfl
        exact h ⟨(stagedIn_iff _ _).2 ⟨d, hd, hm⟩, hf⟩
      exact (vector_getElem_set _ m n _).trans (if_neg hn)
    · rfl
  · rw [reoccupy_of_not_staged fun d m h => hs ⟨d, m, h⟩]

/-- A slot that is not FREE stays as it is. -/
theorem reoccupy_foldl_kept (xs : List (Nat × CustodyRecord)) {s : State} {n : Fin 32}
    (hf : (s.staging.slots[n]).isFree = false) : (xs.foldl State.reoccupy s).staging.slots[n] = s.staging.slots[n] := by
  induction xs generalizing s with
  | nil => rfl
  | cons x xs ih =>
    have left : (s.reoccupy x).staging.slots[n] = s.staging.slots[n] :=
      reoccupy_slot_left fun h => by rw [hf] at h; exact absurd h.2 Bool.false_ne_true
    rw [List.foldl_cons, ih (by rw [left, hf]), left]

/-- The first staged record in the table's order gets a slot that is FREE (R182, step 2; log 23). -/
theorem reoccupy_foldl_free (xs : List (Nat × CustodyRecord)) {s : State} {n : Fin 32}
    (hf : (s.staging.slots[n]).isFree = true) :
    (xs.foldl State.reoccupy s).staging.slots[n] =
      match xs.find? (fun x => x.2.stagedIn n) with
      | some x => s.stagedSlot x.2 (x.2.state.slotDirection.getD .outbound)
      | none => s.staging.slots[n] := by
  induction xs generalizing s with
  | nil => rfl
  | cons x xs ih =>
    rw [List.foldl_cons, List.find?_cons]
    cases hx : x.2.stagedIn n with
    | true =>
      have taken := reoccupy_slot_taken hx hf
      exact (reoccupy_foldl_kept xs (by rw [taken]; rfl)).trans taken
    | false =>
      have left : (s.reoccupy x).staging.slots[n] = s.staging.slots[n] :=
        reoccupy_slot_left fun h => by rw [hx] at h; exact absurd h.1 Bool.false_ne_true
      have slot : ∀ r d, (s.reoccupy x).stagedSlot r d = s.stagedSlot r d := by
        intro r d; rw [reoccupy_frame]; cases d <;> rfl
      rw [ih (by rw [left, hf]), left]
      simp only [slot]

/-! ## Steps 1 to 3 together -/

/-- The hatch list of step 3, before FIRE_HELD is set (R182). -/
def State.listRecovered (s : State) : List HatchEntry := s.recoverCustody.recoverSlots.recoverList.hatch.entries

/-- Steps 1 to 3 change the records, the slots and the hatch list alone. -/
theorem recoverList_eq (s : State) :
    s.recoverCustody.recoverSlots.recoverList =
      { s with
        custody := s.custody.map s.recoverRecord
        staging := { s.staging with slots := s.recoverCustody.recoverSlots.staging.slots }
        hatch := { s.hatch with entries := s.listRecovered } } := by
  have slots : s.recoverCustody.recoverSlots =
      { s with
        custody := s.custody.map s.recoverRecord
        staging := { s.staging with slots := s.recoverCustody.recoverSlots.staging.slots } } :=
    reoccupy_foldl_frame _ _
  have list : s.recoverCustody.recoverSlots.recoverList =
      { s.recoverCustody.recoverSlots with
        hatch := { s.recoverCustody.recoverSlots.hatch with entries := s.listRecovered } } := rfl
  rw [list, slots]

/-- A record by its label after step 1 is the one before it, returned. -/
theorem record_map_recoverRecord {s t : State} (h : t.custody = s.custody.map s.recoverRecord) (l : Label) :
    t.record? l = (s.record? l).map s.recoverRecord := by
  unfold State.record?
  rw [h]
  exact findLabel_map (recoverRecord_label s) l s.custody

/-- A PICKING record names the slot (R182, step 1). -/
abbrev State.picked (s : State) (n : Fin 32) : Bool := s.custody.any fun x => x.2.picks n

/-- A slot is kept that a staged record of its label carries, and that no PICKING record names (R182, steps 1 and 2). -/
theorem keptSlot_of_kept {s : State} {n : Fin 32} {l : Label} {d : Direction} {o : Channel} {w : Nat} {e : Option Int}
    {p : Nat} {r : CustodyRecord} (hp : s.picked n = false) (hs : s.staging.slots[n] = .occupied l d o w e)
    (hr : s.record? l = some (p, r)) (hst : r.stagedIn n = true) :
    s.recoverCustody.keptSlot n = .occupied l d o w e := by
  have slot : s.recoverCustody.staging.slots[n] = .occupied l d o w e := by
    refine (tabulate_get _ n).trans ?_
    rw [show (s.custody.any fun x => x.2.picks n) = false from hp]
    exact hs
  have record := record_map_recoverRecord (s := s) (t := s.recoverCustody) rfl l
  rw [hr, Option.map_some] at record
  have staged : (s.recoverRecord (p, r)).2.stagedIn n = true := by rw [recoverRecord_stagedIn]; exact hst
  simp only [CustodyRecord.stagedIn, Bool.and_eq_true, beq_iff_eq] at staged
  unfold State.keptSlot
  simp only [slot, record]
  exact if_pos staged

/-- A slot that is not kept is FREE before step 2 gives it to a record. -/
theorem keptSlot_of_not_kept {s : State} {n : Fin 32}
    (h : ¬ (s.picked n = false ∧ ∃ l d o w e p r, s.staging.slots[n] = .occupied l d o w e ∧
      s.record? l = some (p, r) ∧ r.stagedIn n = true)) : s.recoverCustody.keptSlot n = .free := by
  have slot : s.recoverCustody.staging.slots[n] = if s.picked n then .free else s.staging.slots[n] := tabulate_get _ n
  cases hp : s.picked n with
  | true =>
    rw [hp, if_pos rfl] at slot
    unfold State.keptSlot
    rw [slot]
  | false =>
    rw [hp, if_neg Bool.false_ne_true] at slot
    unfold State.keptSlot
    rw [slot]
    split
    · rfl
    · rfl
    · rename_i l d o w e hs
      rw [record_map_recoverRecord (s := s) (t := s.recoverCustody) rfl l]
      cases hr : s.record? l with
      | none => rfl
      | some y =>
        refine if_neg fun hst => h ⟨hp, l, d, o, w, e, y.1, y.2, hs, hr, ?_⟩
        rw [← recoverRecord_stagedIn s y]
        simp only [CustodyRecord.stagedIn, Bool.and_eq_true, beq_iff_eq]
        exact hst

/-- Step 2 keeps the slots it may, and gives the others to the first staged record in place order that carries their
number (R182; log 23). -/
theorem recoverSlots_slot (s : State) (n : Fin 32) :
    s.recoverCustody.recoverSlots.staging.slots[n] =
      if (s.recoverCustody.keptSlot n).isFree = true then
        match s.custody.find? (fun x => x.2.stagedIn n) with
        | some x => s.stagedSlot x.2 (x.2.state.slotDirection.getD .outbound)
        | none => .free
      else s.recoverCustody.keptSlot n := by
  let t : State := { s.recoverCustody with
    staging := { s.recoverCustody.staging with slots := tabulate s.recoverCustody.keptSlot } }
  have kept : t.staging.slots[n] = s.recoverCustody.keptSlot n := tabulate_get _ n
  have fold : s.recoverCustody.recoverSlots = (s.custody.map s.recoverRecord).foldl State.reoccupy t := rfl
  have find : (s.custody.map s.recoverRecord).find? (fun x => x.2.stagedIn n) =
      (s.custody.find? fun x => x.2.stagedIn n).map s.recoverRecord := by
    rw [List.find?_map]
    exact congrArg (fun p => (s.custody.find? p).map s.recoverRecord) (funext fun x => recoverRecord_stagedIn s x n)
  rw [fold]
  cases hf : (s.recoverCustody.keptSlot n).isFree with
  | true =>
    rw [reoccupy_foldl_free _ (by rw [kept, hf]), find, if_pos rfl]
    cases s.custody.find? (fun x => x.2.stagedIn n) with
    | none =>
      refine kept.trans ?_
      cases hk : s.recoverCustody.keptSlot n with
      | free => rfl
      | reserved => rw [hk] at hf; cases hf
      | occupied => rw [hk] at hf; cases hf
    | some x =>
      simp only [Option.map_some, State.stagedSlot, recoverRecord_label, recoverRecord_slotDirection]
      rfl
  | false =>
    rw [reoccupy_foldl_kept _ (by rw [kept, hf]), if_neg Bool.false_ne_true, kept]

/-! ## Step 3: the hatch list -/

/-- An entry is kept when a record of its label is in a hatch state with its number (R182, step 3). -/
def State.entryStays (s : State) (e : HatchEntry) : Bool :=
  match s.record? e.label with
  | none => false
  | some (_, r) => r.state.entryDirection.isSome && r.consignment == some e.number

/-- The hatch list of step 3: the entries that stay, and the entries that the records call for (R182). -/
theorem listRecovered_eq (s : State) :
    s.listRecovered = s.hatch.entries.filter s.entryStays ++
      s.custody.filterMap fun x => missingEntry (s.hatch.entries.filter s.entryStays) x.2 := by
  have slots : s.recoverCustody.recoverSlots =
      { s with
        custody := s.custody.map s.recoverRecord
        staging := { s.staging with slots := s.recoverCustody.recoverSlots.staging.slots } } :=
    reoccupy_foldl_frame _ _
  have custody : s.recoverCustody.recoverSlots.custody = s.custody.map s.recoverRecord := by rw [slots]
  have stays : s.recoverCustody.recoverSlots.keptEntry = s.entryStays := by
    funext e
    unfold State.keptEntry State.entryStays
    rw [record_map_recoverRecord custody]
    cases s.record? e.label with
    | none => rfl
    | some y => simp only [Option.map_some, recoverRecord_entryDirection, recoverRecord_consignment]
  have entries : s.recoverCustody.recoverSlots.hatch.entries = s.hatch.entries := by rw [slots]
  have missing : ∀ es x, missingEntry es (s.recoverRecord x).2 = missingEntry es x.2 := by
    intro es x
    unfold missingEntry
    simp only [recoverRecord_entryDirection, recoverRecord_label, recoverRecord_consignment, recoverRecord_fireHeld]
  unfold State.listRecovered State.recoverList
  simp only [stays, entries, custody, List.filterMap_map]
  exact congrArg _ (congrArg (fun f => List.filterMap f s.custody) (funext fun x => missing _ x))

/-! ## Step 4: the consignments found EXCHANGING -/

/-- A hatch list entry, with FIRE_HELD if its consignment is one of those named. -/
def holdEntry (p : Nat → Bool) (e : HatchEntry) : HatchEntry := if p e.number then { e with fireHeld := true } else e

/-- A record, with FIRE_HELD if the list holds it with an entry of one of the consignments named. -/
def holdRecordOf (es : List HatchEntry) (p : Nat → Bool) (x : Nat × CustodyRecord) : Nat × CustodyRecord :=
  if es.any (fun e => p e.number && e.label == x.2.label) then (x.1, { x.2 with fireHeld := true }) else x

/-- FIRE_HELD for the entries of the consignments named and for the records they hold (R182, step 4). -/
def State.heldFor (p : Nat → Bool) (s : State) : State :=
  { s with
    hatch := { s.hatch with entries := s.hatch.entries.map (holdEntry p) }
    custody := s.custody.map (holdRecordOf s.hatch.entries p) }

@[simp] theorem holdEntry_number (p : Nat → Bool) (e : HatchEntry) : (holdEntry p e).number = e.number := by
  unfold holdEntry; split <;> rfl
@[simp] theorem holdEntry_label (p : Nat → Bool) (e : HatchEntry) : (holdEntry p e).label = e.label := by
  unfold holdEntry; split <;> rfl
@[simp] theorem holdEntry_estimate (p : Nat → Bool) (e : HatchEntry) : (holdEntry p e).estimate = e.estimate := by
  unfold holdEntry; split <;> rfl

/-- FIRE_HELD apart, an entry is as it was. -/
theorem holdEntry_eq (p : Nat → Bool) (e : HatchEntry) :
    holdEntry p e = { e with fireHeld := e.fireHeld || p e.number } := by
  unfold holdEntry
  cases p e.number <;> simp

/-- FIRE_HELD apart, a record is as it was. -/
theorem holdRecordOf_eq (es : List HatchEntry) (p : Nat → Bool) (x : Nat × CustodyRecord) :
    holdRecordOf es p x =
      (x.1, { x.2 with fireHeld := x.2.fireHeld || es.any fun e => p e.number && e.label == x.2.label }) := by
  unfold holdRecordOf
  split
  · rename_i h; simp [h]
  · rename_i h; simp [Bool.eq_false_iff.2 h]

theorem holdConsignment_eq (n : Nat) (s : State) : s.holdConsignment n = s.heldFor (· == n) := by
  have entry : (fun e : HatchEntry => if e.number = n then { e with fireHeld := true } else e) = holdEntry (· == n) := by
    funext e; simp [holdEntry]
  unfold State.holdConsignment
  rw [entry]
  rfl

/-- FIRE_HELD for no consignment changes nothing. -/
theorem heldFor_none (s : State) : s.heldFor (fun _ => false) = s := by
  have entry : holdEntry (fun _ => false) = id := rfl
  have record : holdRecordOf s.hatch.entries (fun _ => false) = id := by
    funext x; simp [holdRecordOf]
  simp only [State.heldFor, entry, record, List.map_id]

/-- FIRE_HELD for some consignments and then for others is FIRE_HELD for all of them. -/
theorem heldFor_heldFor (p q : Nat → Bool) (s : State) :
    (s.heldFor p).heldFor q = s.heldFor fun n => p n || q n := by
  have entry : ∀ e, holdEntry q (holdEntry p e) = holdEntry (fun n => p n || q n) e := by
    intro e; simp only [holdEntry_eq, Bool.or_assoc]
  have either : ∀ (es : List HatchEntry) (l : Label),
      (es.any fun e => (p e.number || q e.number) && e.label == l) =
        ((es.any fun e => p e.number && e.label == l) || es.any fun e => q e.number && e.label == l) := by
    intro es l
    rw [Bool.eq_iff_iff]
    simp only [Bool.or_eq_true, List.any_eq_true, Bool.and_eq_true, or_and_right, and_or_left, exists_or]
  have record : ∀ x, holdRecordOf (s.hatch.entries.map (holdEntry p)) q (holdRecordOf s.hatch.entries p x) =
      holdRecordOf s.hatch.entries (fun n => p n || q n) x := by
    intro x
    simp only [holdRecordOf_eq, List.any_map, Function.comp_def, holdEntry_number, holdEntry_label, either, Bool.or_assoc]
  unfold State.heldFor
  simp only [List.map_map, Function.comp_def, entry, record]

/-- The consignment of a place is EXCHANGING under a number. -/
def State.exchangingAt (s : State) (n : Nat) (i : Fin 16) : Bool :=
  (s.consign.places[i]).any fun c => c.state == .exchanging && c.number == n

/-- What step 4 makes of a consignment (R182). -/
def State.stepFour (s : State) (c : Option Consignment) : Option Consignment :=
  c.map fun c => if c.state = .exchanging then s.interrupted c else c

theorem recoverExchanging_of_exchanging {s : State} {i : Fin 16} {c : Consignment} (h : s.consign.places[i] = some c)
    (hc : c.state = .exchanging) :
    s.recoverExchanging i = (s.heldFor (s.exchangingAt · i)).setConsign i (s.interrupted c) := by
  have number : (s.exchangingAt · i) = (· == c.number) := by
    funext n
    simp only [State.exchangingAt, h, Option.any_some, hc, beq_self_eq_true, Bool.true_and]
    exact Bool.beq_comm
  unfold State.recoverExchanging
  rw [h, number, ← holdConsignment_eq]
  exact if_pos hc

theorem recoverExchanging_of_not_exchanging {s : State} {i : Fin 16}
    (h : ∀ c, s.consign.places[i] = some c → c.state ≠ .exchanging) :
    s.recoverExchanging i = s ∧ (s.exchangingAt · i) = fun _ => false := by
  unfold State.recoverExchanging State.exchangingAt
  cases hc : s.consign.places[i] with
  | none => exact ⟨rfl, rfl⟩
  | some c => exact ⟨if_neg (h c hc), funext fun n => by simp [h c hc]⟩

/-- Step 4 at a place: FIRE_HELD for its consignment, and the place. -/
theorem recoverExchanging_eq (s : State) (i : Fin 16) :
    s.recoverExchanging i =
      { s.heldFor (s.exchangingAt · i) with
        consign := { s.consign with places := s.consign.places.set i (s.stepFour s.consign.places[i]) } } := by
  by_cases h : ∃ c, s.consign.places[i] = some c ∧ c.state = .exchanging
  · obtain ⟨c, hi, hc⟩ := h
    rw [recoverExchanging_of_exchanging hi hc, hi]
    simp only [State.stepFour, Option.map_some, hc, if_true]
    rfl
  · have other : ∀ c, s.consign.places[i] = some c → c.state ≠ .exchanging := fun c hi hc => h ⟨c, hi, hc⟩
    obtain ⟨same, none⟩ := recoverExchanging_of_not_exchanging other
    have place : s.stepFour s.consign.places[i] = s.consign.places[i] := by
      cases hi : s.consign.places[i] with
      | none => rfl
      | some c => exact congrArg some (if_neg (other c hi))
    rw [same, none, heldFor_none, place]
    simp

/-- A lookup by label after FIRE_HELD is set. -/
theorem record_heldFor (p : Nat → Bool) (s : State) (l : Label) :
    (s.heldFor p).record? l = (s.record? l).map (holdRecordOf s.hatch.entries p) :=
  findLabel_map (fun x => by rw [holdRecordOf_eq]) l s.custody

/-- What step 4 makes of a consignment does not depend on FIRE_HELD. -/
theorem stepFour_congr {s t : State} {p : Nat → Bool} (hc : t.custody = (s.heldFor p).custody)
    (hh : t.hatch = (s.heldFor p).hatch) (hv : t.vault = s.vault) (c : Option Consignment) :
    t.stepFour c = s.stepFour c := by
  have inbound : ∀ n, t.inboundOf n = s.inboundOf n := by
    intro n
    unfold State.inboundOf
    rw [hc]
    simp only [State.heldFor, List.filter_map, List.map_map, Function.comp_def, holdRecordOf_eq]
  have bound : ∀ n l, t.boundState n l = s.boundState n l := by
    intro n l
    have record : t.record? l = (s.heldFor p).record? l := by unfold State.record?; rw [hc]
    unfold State.boundState
    rw [record, record_heldFor]
    cases s.record? l with
    | none => rfl
    | some y => simp only [Option.map_some, holdRecordOf_eq]
  have present : ∀ n, (t.hatch.entries.any fun e => e.number == n) = s.hatch.entries.any fun e => e.number == n := by
    intro n
    rw [hh]
    simp only [State.heldFor, List.any_map, Function.comp_def, holdEntry_number]
  unfold State.stepFour State.interrupted
  simp only [inbound, bound, present, hv]

/-- A visit to one place and then once to each of several others is one visit to each. -/
theorem visit_once {α : Type} {is : List (Fin 16)} {i j : Fin 16} (hj : j ∉ is) (g : α → α) (x : α) :
    (if i ∈ is then g (if i = j then g x else x) else if i = j then g x else x) = if i ∈ j :: is then g x else x := by
  by_cases h : i = j
  · subst h; simp [hj]
  · simp [h]

/-- Step 4 over several places, each visited once. -/
theorem recoverExchanging_foldl {is : List (Fin 16)} (hd : is.Nodup) (s : State) :
    let t := is.foldl State.recoverExchanging s
    t = { s.heldFor (fun n => is.any (s.exchangingAt n)) with consign := t.consign } ∧
      t.consign.counter = s.consign.counter ∧
      ∀ i : Fin 16, t.consign.places[i] = if i ∈ is then s.stepFour s.consign.places[i] else s.consign.places[i] := by
  induction is generalizing s with
  | nil => exact ⟨by simp only [List.any_nil, heldFor_none, List.foldl_nil], rfl, fun i => rfl⟩
  | cons j is ih =>
    obtain ⟨hj, hd⟩ := List.nodup_cons.1 hd
    obtain ⟨frame, counter, places⟩ := ih hd (s.recoverExchanging j)
    have step := recoverExchanging_eq s j
    have place : ∀ i : Fin 16, (s.recoverExchanging j).consign.places[i] =
        if i = j then s.stepFour s.consign.places[i] else s.consign.places[i] := by
      intro i
      rw [step]
      refine (vector_getElem_set _ j i _).trans ?_
      split
      · rename_i h; rw [h]
      · rfl
    have exchanging : ∀ n, is.any ((s.recoverExchanging j).exchangingAt n) = is.any (s.exchangingAt n) := by
      intro n
      rw [Bool.eq_iff_iff, List.any_eq_true, List.any_eq_true]
      refine exists_congr fun i => and_congr_right fun hi => ?_
      have ne : i ≠ j := by rintro rfl; exact hj hi
      unfold State.exchangingAt
      rw [place, if_neg ne]
    have held : (s.recoverExchanging j).heldFor (fun n => is.any ((s.recoverExchanging j).exchangingAt n)) =
        { s.heldFor (fun n => (j :: is).any (s.exchangingAt n)) with consign := (s.recoverExchanging j).consign } := by
      simp only [exchanging, List.any_cons, ← heldFor_heldFor]
      rw [step]
      rfl
    have step_four : ∀ c, (s.recoverExchanging j).stepFour c = s.stepFour c := by
      rw [step]
      exact stepFour_congr (p := (s.exchangingAt · j)) rfl rfl rfl
    rw [held] at frame
    refine ⟨frame, counter.trans (by rw [step]), fun i => (places i).trans ?_⟩
    rw [place, step_four]
    exact visit_once hj s.stepFour _

/-! ## Step 5: the consignments that come back and the test -/

/-- What step 5 makes of a consignment (R129, R130, R182). -/
def State.stepFive (s : State) (c : Consignment) : Consignment :=
  match c.state with
  | .returning =>
    if s.hatch.entries.any (fun e => e.number == c.number) then c
    else { c with state := .closed, closed := some s.vault.clock }
  | .sealed => { c with state := s.consignTest c }
  | .ready => { c with state := s.consignTest c }
  | .loaded => { c with state := s.consignTest c }
  | .lockedOut => { c with beforeLockout := some (s.consignTest c) }
  | .opened => c
  | .exchanging => c
  | .closed => c
  | .cancelled => c

/-- Step 5 at a place sets the place alone. -/
theorem recoverConsign_eq (s : State) (i : Fin 16) :
    s.recoverConsign i =
      { s with consign := { s.consign with places := s.consign.places.set i (s.consign.places[i].map s.stepFive) } } := by
  have same : s = { s with consign := { s.consign with places := s.consign.places.set i s.consign.places[i] } } := by
    simp
  unfold State.recoverConsign
  cases hi : s.consign.places[i] with
  | none => rw [hi] at same; exact same
  | some c =>
    rw [hi] at same
    simp only [Option.map_some, State.stepFive]
    cases hc : c.state with
    | returning =>
      simp only
      split
      · exact same
      · rfl
    | sealed => rfl
    | ready => rfl
    | loaded => rfl
    | lockedOut => rfl
    | opened => exact same
    | exchanging => exact same
    | closed => exact same
    | cancelled => exact same

/-- Step 5 over several places, each visited once. -/
theorem recoverConsign_foldl {is : List (Fin 16)} (hd : is.Nodup) (s : State) :
    let t := is.foldl State.recoverConsign s
    t = { s with consign := t.consign } ∧ t.consign.counter = s.consign.counter ∧
      ∀ i : Fin 16, t.consign.places[i] = if i ∈ is then s.consign.places[i].map s.stepFive else s.consign.places[i] := by
  induction is generalizing s with
  | nil => exact ⟨rfl, rfl, fun i => rfl⟩
  | cons j is ih =>
    obtain ⟨hj, hd⟩ := List.nodup_cons.1 hd
    obtain ⟨frame, counter, places⟩ := ih hd (s.recoverConsign j)
    have step := recoverConsign_eq s j
    have place : ∀ i : Fin 16, (s.recoverConsign j).consign.places[i] =
        if i = j then s.consign.places[i].map s.stepFive else s.consign.places[i] := by
      intro i
      rw [step]
      refine (vector_getElem_set _ j i _).trans ?_
      split
      · rename_i h; rw [h]
      · rfl
    have step_five : (s.recoverConsign j).stepFive = s.stepFive := by rw [step]; rfl
    have keeps : ∀ c, { s.recoverConsign j with consign := c } = { s with consign := c } := by intro c; rw [step]
    refine ⟨frame.trans (keeps _), counter.trans (by rw [step]), fun i => (places i).trans ?_⟩
    rw [place, step_five]
    exact visit_once hj (Option.map s.stepFive) _

/-! ## The recovery as a whole (R182) -/

/-- Some consignment is EXCHANGING under a number. -/
def State.exchangingNumber (s : State) (n : Nat) : Bool := placeNumbers.any (s.exchangingAt n)

theorem placeNumbers_nodup : placeNumbers.Nodup := List.nodup_finRange 16

/-- Two tables with one counter differ in their places alone. -/
theorem consignTable_of_counter {a b : ConsignTable} (h : a.counter = b.counter) : a = { b with places := a.places } := by
  cases a; cases b; cases h; rfl

/-- What the recovery makes of the blocks: the records, the slots, the hatch list and the consignments (R182). -/
theorem recovered_eq (s : State) :
    s.recovered =
      { s with
        custody := s.custody.map fun x => holdRecordOf s.listRecovered s.exchangingNumber (s.recoverRecord x)
        staging := { s.staging with slots := s.recoverCustody.recoverSlots.staging.slots }
        hatch := { s.hatch with entries := s.listRecovered.map (holdEntry s.exchangingNumber) }
        consign := { s.consign with places := s.recovered.consign.places } } := by
  have two_folds : s.recovered = placeNumbers.foldl State.recoverConsign
      (placeNumbers.foldl State.recoverExchanging s.recoverCustody.recoverSlots.recoverList) := rfl
  obtain ⟨frame4, counter4, -⟩ := recoverExchanging_foldl placeNumbers_nodup s.recoverCustody.recoverSlots.recoverList
  obtain ⟨frame5, counter5, -⟩ := recoverConsign_foldl placeNumbers_nodup
    (placeNumbers.foldl State.recoverExchanging s.recoverCustody.recoverSlots.recoverList)
  rw [counter4] at counter5
  rw [← two_folds] at frame5 counter5
  have same : s.recoverCustody.recoverSlots.recoverList.consign = s.consign := by rw [recoverList_eq]
  rw [same] at counter5
  have consign : s.recovered.consign = { s.consign with places := s.recovered.consign.places } :=
    consignTable_of_counter counter5
  have exchanging : ∀ n, placeNumbers.any (s.recoverCustody.recoverSlots.recoverList.exchangingAt n) =
      s.exchangingNumber n := by
    intro n; rw [recoverList_eq]; rfl
  rw [← consign]
  refine frame5.trans ?_
  rw [frame4]
  simp only [exchanging]
  rw [recoverList_eq]
  simp only [State.heldFor, List.map_map, Function.comp_def]

/-- What step 5 makes of a consignment depends on the records, the hatch list and the clock. -/
theorem stepFive_congr {s t : State} (hc : s.custody = t.custody) (hh : s.hatch = t.hatch) (hv : s.vault = t.vault) :
    s.stepFive = t.stepFive := by
  have kind : s.itemKind = t.itemKind := by
    funext n l; simp only [State.itemKind, State.boundState, State.record?, hc]
  funext c
  simp only [State.stepFive, State.consignTest, kind, hh, hv]

/-- The state after steps 1 to 3 (R182). -/
abbrev State.listed (s : State) : State := s.recoverCustody.recoverSlots.recoverList

/-- Each consignment goes through steps 4 and 5. -/
theorem recovered_places (s : State) (i : Fin 16) :
    s.recovered.consign.places[i] = (s.listed.stepFour s.consign.places[i]).map s.recovered.stepFive := by
  have two_folds : s.recovered = placeNumbers.foldl State.recoverConsign
      (placeNumbers.foldl State.recoverExchanging s.listed) := rfl
  have every : ∀ i : Fin 16, i ∈ placeNumbers := List.mem_finRange
  obtain ⟨-, -, places4⟩ := recoverExchanging_foldl placeNumbers_nodup s.listed
  obtain ⟨frame5, -, places5⟩ := recoverConsign_foldl placeNumbers_nodup
    (placeNumbers.foldl State.recoverExchanging s.listed)
  rw [← two_folds] at frame5 places5
  have same : s.listed.consign = s.consign := by rw [State.listed, recoverList_eq]
  have five : (placeNumbers.foldl State.recoverExchanging s.listed).stepFive = s.recovered.stepFive :=
    stepFive_congr (by rw [frame5]) (by rw [frame5]) (by rw [frame5])
  rw [places5, if_pos (every i), places4, if_pos (every i), five, same]

/-! ## Each part of the recovery, on the blocks as the checks leave them (R182) -/

/-- The numbers of the consignments found EXCHANGING. -/
theorem exchangingNumber_eq (s : State) (n : Nat) :
    s.exchangingNumber n =
      s.consign.places.toList.any fun c => c.any fun c => c.state == .exchanging && c.number == n := by
  rw [Bool.eq_iff_iff]
  unfold State.exchangingNumber State.exchangingAt
  constructor
  · intro h
    obtain ⟨i, -, hi⟩ := List.any_eq_true.1 h
    exact List.any_eq_true.2 ⟨_, Vector.mem_toList_iff.2 (Vector.getElem_mem i.isLt), hi⟩
  · intro h
    obtain ⟨c, hc, h⟩ := List.any_eq_true.1 h
    obtain ⟨i, hi, rfl⟩ := Vector.mem_iff_getElem.1 (Vector.mem_toList_iff.1 hc)
    exact List.any_eq_true.2 ⟨⟨i, hi⟩, List.mem_finRange _, h⟩

/-- Whether the recovered list holds a label with an entry of a consignment found EXCHANGING. -/
theorem recovered_held (s : State) (l : Label) :
    (s.recovered.hatch.entries.any fun e => s.exchangingNumber e.number && e.label == l) =
      s.listRecovered.any fun e => s.exchangingNumber e.number && e.label == l := by
  rw [recovered_eq]
  simp only [List.any_map, Function.comp_def, holdEntry_number, holdEntry_label]

/-- Every record of the recovered table (R182, steps 1 and 4). -/
theorem recovered_custody (s : State) :
    s.recovered.custody = s.custody.map fun x =>
      let held := s.recovered.hatch.entries.any fun e => s.exchangingNumber e.number && e.label == x.2.label
      let y := { x.2 with fireHeld := x.2.fireHeld || held }
      (x.1, if x.2.state ∈ [.requested, .picking]
        then { y with state := .inVault, slot := none, lastMove := some s.vault.clock } else y) := by
  simp only [recovered_held]
  rw [recovered_eq]
  refine List.map_congr_left fun x _ => ?_
  rw [holdRecordOf_eq, recoverRecord_label, recoverRecord_fireHeld, recoverRecord_place]
  by_cases h : x.2.state = .requested ∨ x.2.state = .picking
  · rw [recoverRecord_of_pending h, if_pos (by simpa using h)]
    rfl
  · rw [recoverRecord_of_not_pending h, if_neg (by simpa using h)]

/-- A consignment that step 4 interrupts, in terms of the records as they were found (R182). -/
theorem listed_interrupted (s : State) (c : Consignment) :
    let kept := c.received.filter fun l => s.custody.any fun x =>
      x.2.label == l && x.2.state == .inHatchIn && x.2.consignment == some c.number
    let added := (s.custody.filter fun x => x.2.state == .inHatchIn && x.2.consignment == some c.number &&
      !kept.contains x.2.label).map fun x => x.2.label
    let left := c.outbound.countP fun l =>
      (s.record? l).any fun x => x.2.state == .inHatchOut && x.2.consignment == some c.number
    let rebuilt := { c with
      result := some .interrupted, takenCount := c.outbound.length - left, received := kept ++ added }
    s.listed.interrupted c =
      if s.listRecovered.any (fun e => e.number == c.number) then { rebuilt with state := .returning }
      else { rebuilt with state := .closed, closed := some s.vault.clock } := by
  intro kept added left rebuilt
  have custody : s.listed.custody = s.custody.map s.recoverRecord := by rw [State.listed, recoverList_eq]
  have inbound : s.listed.inboundOf c.number =
      (s.custody.filter fun x => x.2.state == .inHatchIn && x.2.consignment == some c.number).map fun x => x.2.label := by
    unfold State.inboundOf
    rw [custody]
    simp only [List.filter_map, List.map_map, Function.comp_def, recoverRecord_label, recoverRecord_consignment,
      recoverRecord_state_eq s _ (st := .inHatchIn) ⟨nofun, nofun, nofun⟩]
  have kept_eq : c.received.filter (s.listed.inboundOf c.number).contains = kept := by
    refine congrArg (fun p => c.received.filter p) (funext fun l => ?_)
    rw [inbound, Bool.eq_iff_iff]
    simp only [List.contains_eq_mem, decide_eq_true_eq, List.mem_map, List.mem_filter, List.any_eq_true, Bool.and_eq_true,
      beq_iff_eq]
    exact exists_congr fun x => ⟨fun ⟨⟨hm, hs, hn⟩, hl⟩ => ⟨hm, ⟨hl, hs⟩, hn⟩, fun ⟨hm, ⟨hl, hs⟩, hn⟩ => ⟨⟨hm, hs, hn⟩, hl⟩⟩
  have added_eq : (s.listed.inboundOf c.number).filter (fun l => !kept.contains l) = added := by
    rw [inbound, List.filter_map, List.filter_filter]
    refine congrArg (fun p => (s.custody.filter p).map fun x => x.2.label) (funext fun x => ?_)
    exact Bool.and_comm _ _
  have left_eq : (c.outbound.filter fun l => s.listed.boundState c.number l == some .inHatchOut).length = left := by
    rw [← List.countP_eq_length_filter]
    refine List.countP_congr fun l _ => ?_
    unfold State.boundState
    rw [record_map_recoverRecord custody]
    cases s.record? l with
    | none => simp
    | some y =>
      have state := recoverRecord_state_eq s y (st := .inHatchOut) ⟨nofun, nofun, nofun⟩
      simp only [Option.map_some, recoverRecord_consignment, Option.any_some, Bool.and_eq_true, ← state, beq_iff_eq]
      split
      · rename_i hn; simp [hn]
      · rename_i hn; simp [hn]
  have clock : s.listed.vault = s.vault := by rw [State.listed, recoverList_eq]
  have list : s.listed.hatch.entries = s.listRecovered := rfl
  unfold State.interrupted
  simp only [kept_eq, added_eq, left_eq, clock, list]
  rfl

end Sys2Proof.Machine
end

