-- ==== Sys2Proof/Proofs/RecoveryRules.lean ====
section
/-! SUPPORT. The recovery in the words of R182: which slots, entries and consignments it leaves, by the states of the
records that the checks found. -/

namespace Sys2Proof.Machine

/-! ## States that call for a slot or an entry (R90) -/

/-- The staged records that carry a slot's number are those in a staged state with that number. -/
theorem stagedIn_iff_mem (r : CustodyRecord) (n : Fin 32) :
    r.stagedIn n = true ↔ r.state ∈ [.stagedOut, .readyOut, .stagedIn, .readyIn] ∧ r.slot = some n := by
  have staged : ∀ st : CustodyState, st.slotDirection.isSome = true ↔
      st ∈ [CustodyState.stagedOut, .readyOut, .stagedIn, .readyIn] := by intro st; cases st <;> decide
  simp only [CustodyRecord.stagedIn, Bool.and_eq_true, staged, beq_iff_eq]

/-- The direction that a staged state calls for. -/
theorem slotDirection_of_staged {st : CustodyState} (h : st ∈ [CustodyState.stagedOut, .readyOut, .stagedIn, .readyIn]) :
    st.slotDirection.getD .outbound =
      if st ∈ [CustodyState.stagedOut, .readyOut, .inHatchOut] then Direction.outbound else .inbound := by
  revert h; cases st <;> decide

/-- The hatch states, and the direction that each calls for. -/
theorem entryDirection_eq (st : CustodyState) :
    st.entryDirection =
      if st ∈ [CustodyState.inHatchOut, .inHatchIn] then
        some (if st ∈ [CustodyState.stagedOut, .readyOut, .inHatchOut] then Direction.outbound else .inbound)
      else none := by
  cases st <;> decide

theorem unloadOrigin_eq (s : State) (r : CustodyRecord) :
    s.unloadOrigin (if r.state ∈ [CustodyState.stagedOut, .readyOut, .inHatchOut] then .outbound else .inbound) =
      if r.state ∈ [CustodyState.stagedOut, .readyOut, .inHatchOut] then .area s.staging.settings.inboundRef else .outside := by
  split <;> rfl

/-! ## Slots (R182, steps 1 and 2) -/

theorem picked_eq_false_iff (s : State) (n : Fin 32) :
    s.picked n = false ↔ ¬ ∃ x ∈ s.custody, x.2.state = .picking ∧ x.2.slot = some n := by
  rw [← Bool.not_eq_true, List.any_eq_true]
  simp only [CustodyRecord.picks, Bool.and_eq_true, beq_iff_eq]

/-- Whether the recovery keeps a slot: OCCUPIED by the label of a staged record with its number, and named by no PICKING
record. -/
abbrev State.slotStays (s : State) (n : Fin 32) : Prop :=
  ¬ (∃ x ∈ s.custody, x.2.state = .picking ∧ x.2.slot = some n) ∧
    ∃ l d o w e p r, s.staging.slots[n] = .occupied l d o w e ∧ s.record? l = some (p, r) ∧
      r.state ∈ [.stagedOut, .readyOut, .stagedIn, .readyIn] ∧ r.slot = some n

theorem recovered_slot (s : State) (n : Fin 32) :
    s.recovered.staging.slots[n] = s.recoverCustody.recoverSlots.staging.slots[n] := by rw [recovered_eq]

theorem recovered_slot_of_stays {s : State} {n : Fin 32} (h : s.slotStays n) :
    s.recovered.staging.slots[n] = s.staging.slots[n] := by
  obtain ⟨hp, l, d, o, w, e, p, r, hs, hr, hst⟩ := h
  have kept := keptSlot_of_kept ((picked_eq_false_iff s n).2 hp) hs hr ((stagedIn_iff_mem r n).2 hst)
  rw [recovered_slot, recoverSlots_slot, kept, hs]
  exact if_neg Bool.false_ne_true

/-- A slot that is not kept goes to the first staged record with its number, or is FREE. -/
theorem recovered_slot_of_not_stays {s : State} {n : Fin 32} (h : ¬ s.slotStays n) :
    s.recovered.staging.slots[n] =
      match s.custody.find? (fun x => x.2.stagedIn n) with
      | some x => s.stagedSlot x.2 (x.2.state.slotDirection.getD .outbound)
      | none => .free := by
  have kept : s.recoverCustody.keptSlot n = .free := by
    refine keptSlot_of_not_kept fun ⟨hp, l, d, o, w, e, p, r, hs, hr, hst⟩ => h ?_
    exact ⟨(picked_eq_false_iff s n).1 hp, l, d, o, w, e, p, r, hs, hr, (stagedIn_iff_mem r n).1 hst⟩
  rw [recovered_slot, recoverSlots_slot, kept]
  exact if_pos rfl

/-- The slot that the first staged record with its number gets (log 23). -/
theorem recovered_slot_of_first {s : State} {n : Fin 32} {x : Nat × CustodyRecord} (h : ¬ s.slotStays n)
    (hx : s.custody.find? (fun x => decide (x.2.state ∈ [.stagedOut, .readyOut, .stagedIn, .readyIn] ∧
      x.2.slot = some n)) = some x) :
    s.recovered.staging.slots[n] = .occupied x.2.label
      (if x.2.state ∈ [.stagedOut, .readyOut, .inHatchOut] then Direction.outbound else .inbound)
      (if x.2.state ∈ [.stagedOut, .readyOut, .inHatchOut] then .area s.staging.settings.inboundRef else .outside)
      0 none := by
  have same : s.custody.find? (fun x => x.2.stagedIn n) = some x := by
    rw [← hx]
    exact congrArg (s.custody.find? ·) (funext fun x => Bool.eq_iff_iff.2 (by rw [stagedIn_iff_mem, decide_eq_true_iff]))
  have staged : x.2.state ∈ [.stagedOut, .readyOut, .stagedIn, .readyIn] := by
    have found := List.find?_some hx
    exact (of_decide_eq_true found).1
  rw [recovered_slot_of_not_stays h, same]
  simp only [State.stagedSlot, slotDirection_of_staged staged, unloadOrigin_eq]

theorem recovered_slot_of_no_record {s : State} {n : Fin 32} (h : ¬ s.slotStays n)
    (hx : ∀ x ∈ s.custody, ¬ (x.2.state ∈ [.stagedOut, .readyOut, .stagedIn, .readyIn] ∧ x.2.slot = some n)) :
    s.recovered.staging.slots[n] = .free := by
  have none_found : s.custody.find? (fun x => x.2.stagedIn n) = none :=
    List.find?_eq_none.2 fun x hm hs => hx x hm ((stagedIn_iff_mem x.2 n).1 hs)
  rw [recovered_slot_of_not_stays h, none_found]

/-! ## The hatch list (R182, step 3) -/

theorem entryStays_iff (s : State) (e : HatchEntry) :
    s.entryStays e = true ↔ ∃ p r, s.record? e.label = some (p, r) ∧ r.state ∈ [.inHatchOut, .inHatchIn] ∧
      r.consignment = some e.number := by
  have hatch : ∀ st : CustodyState, st.entryDirection.isSome = true ↔ st ∈ [CustodyState.inHatchOut, .inHatchIn] := by
    intro st; cases st <;> decide
  unfold State.entryStays
  cases s.record? e.label with
  | none => simp
  | some y =>
    simp only [Bool.and_eq_true, hatch, beq_iff_eq, Option.some.injEq]
    exact ⟨fun h => ⟨y.1, y.2, rfl, h⟩, fun ⟨p, r, hy, h⟩ => by rw [hy]; exact h⟩

/-- The entry that a record in a hatch state calls for (R182, step 3). -/
def entryFor (r : CustodyRecord) : HatchEntry :=
  ⟨r.label, if r.state ∈ [.stagedOut, .readyOut, .inHatchOut] then Direction.outbound else .inbound,
    r.consignment.getD 0, none, r.fireHeld⟩

/-- A record in a hatch state whose label no kept entry carries. -/
abbrev callsForEntry (kept : List HatchEntry) (r : CustodyRecord) : Prop :=
  r.state ∈ [CustodyState.inHatchOut, .inHatchIn] ∧ ∀ e ∈ kept, e.label ≠ r.label

/-- Step 3 makes an entry anew for a record that calls for one. -/
theorem missingEntry_eq (kept : List HatchEntry) (r : CustodyRecord) :
    missingEntry kept r = if decide (callsForEntry kept r) = true then some (entryFor r) else none := by
  have held : kept.any (fun e => e.label == r.label) = true ↔ ¬ ∀ e ∈ kept, e.label ≠ r.label := by simp
  unfold missingEntry
  rw [entryDirection_eq]
  by_cases hs : r.state ∈ [CustodyState.inHatchOut, .inHatchIn]
  · rw [if_pos hs]
    by_cases hk : ∀ e ∈ kept, e.label ≠ r.label
    · rw [if_pos (decide_eq_true (p := callsForEntry kept r) ⟨hs, hk⟩)]
      exact if_neg fun h => held.1 h hk
    · have none_called : ¬ decide (callsForEntry kept r) = true := fun h => hk (of_decide_eq_true h).2
      rw [if_neg none_called]
      exact if_pos (held.2 hk)
  · have none_called : ¬ decide (callsForEntry kept r) = true := fun h => hs (of_decide_eq_true h).1
    rw [if_neg hs, if_neg none_called]

/-- The recovered list: the entries that stay and those made anew, with FIRE_HELD for the consignments found EXCHANGING
(R182, steps 3 and 4). -/
theorem recovered_entries (s : State) :
    let kept := s.hatch.entries.filter s.entryStays
    s.recovered.hatch.entries =
      (kept ++ (s.custody.filter fun x => decide (callsForEntry kept x.2)).map fun x => entryFor x.2).map
        (holdEntry s.exchangingNumber) := by
  intro kept
  have missing : s.custody.filterMap (fun x => missingEntry kept x.2) =
      (s.custody.filter fun x => decide (callsForEntry kept x.2)).map fun x => entryFor x.2 := by
    rw [← List.filterMap_eq_map, List.filterMap_filter]
    exact List.filterMap_congr fun x _ => missingEntry_eq kept x.2
  rw [← missing, recovered_eq]
  exact congrArg (List.map _) (listRecovered_eq s)

/-- Whether the recovered list holds an entry of a number. -/
theorem recovered_present (s : State) (n : Nat) :
    s.listRecovered.any (fun e => e.number == n) = true ↔ ∃ e ∈ s.recovered.hatch.entries, e.number = n := by
  rw [recovered_eq]
  simp only [List.any_eq_true, beq_iff_eq, List.mem_map, exists_exists_and_eq_and, holdEntry_number]

/-! ## Consignments (R182, steps 4 and 5) -/

/-- The entries that step 5 looks for are those of the recovered list. -/
theorem recovered_entry_any (s : State) (n : Nat) :
    s.recovered.hatch.entries.any (fun e => e.number == n) = s.listRecovered.any fun e => e.number == n := by
  rw [recovered_eq]
  simp only [List.any_map, Function.comp_def, holdEntry_number]

theorem recovered_clock (s : State) : s.recovered.vault = s.vault := by rw [recovered_eq]

/-- A consignment that is not EXCHANGING goes through step 5 alone. -/
theorem recovered_place_of_other {s : State} {i : Fin 16} {c : Consignment} (hi : s.consign.places[i] = some c)
    (hc : c.state ≠ .exchanging) : s.recovered.consign.places[i] = some (s.recovered.stepFive c) := by
  rw [recovered_places, hi]
  simp only [State.stepFour, Option.map_some, if_neg hc]

theorem recovered_place_of_none {s : State} {i : Fin 16} (hi : s.consign.places[i] = none) :
    s.recovered.consign.places[i] = none := by
  rw [recovered_places, hi]; rfl

/-- A consignment found EXCHANGING is interrupted, and what step 4 makes of it stays (R182). -/
theorem recovered_place_of_exchanging {s : State} {i : Fin 16} {c : Consignment} (hi : s.consign.places[i] = some c)
    (hc : c.state = .exchanging) : s.recovered.consign.places[i] = some (s.listed.interrupted c) := by
  rw [recovered_places, hi]
  simp only [State.stepFour, Option.map_some, if_pos hc, Option.some.injEq]
  rw [listed_interrupted]
  by_cases hp : s.listRecovered.any (fun e => e.number == c.number) = true
  · rw [if_pos hp]
    simp only [State.stepFive, recovered_entry_any, hp, if_true]
  · rw [if_neg hp]
    rfl

/-- A RETURNING consignment stays while the list holds an entry of it, and is CLOSED otherwise. -/
theorem stepFive_of_returning {s : State} {c : Consignment} (hc : c.state = .returning) :
    s.recovered.stepFive c = if s.listRecovered.any (fun e => e.number == c.number) = true then c
      else { c with state := .closed, closed := some s.vault.clock } := by
  simp only [State.stepFive, hc, recovered_entry_any, recovered_clock]

theorem stepFive_of_tested {s : State} {c : Consignment} (hc : c.state ∈ [.sealed, .ready, .loaded]) :
    s.stepFive c = { c with state := s.consignTest c } := by
  simp only [List.mem_cons, List.not_mem_nil, or_false] at hc
  rcases hc with hc | hc | hc <;> simp only [State.stepFive, hc]

theorem stepFive_of_lockedOut {s : State} {c : Consignment} (hc : c.state = .lockedOut) :
    s.stepFive c = { c with beforeLockout := some (s.consignTest c) } := by
  simp only [State.stepFive, hc]

theorem stepFive_of_settled {s : State} {c : Consignment} (hc : c.state ∈ [.opened, .closed, .cancelled]) :
    s.stepFive c = c := by
  simp only [List.mem_cons, List.not_mem_nil, or_false] at hc
  rcases hc with hc | hc | hc <;> simp only [State.stepFive, hc]

end Sys2Proof.Machine
end

