-- ==== Sys2Proof/Proofs/Restart.lean ====
section
/-! SUPPORT. A restart (R178, R181 to R184): the blocks it leaves, what its notices leave in each link unit, and what its
writes leave in each cell. -/

namespace Sys2Proof.Machine

/-! ## The blocks after a restart -/

/-- The store that a restart's checks read: that of the rise, with a marked format completed first (R184). -/
def Store.checked (st : Store) : Store := if st.status.2.2 then st.finishFormat formatFirst formattedContent else st

/-- The damage flags after a restart (R183, R184). -/
def Store.restartFlags (st : Store) : DamageFlags :=
  if st.status.2.2 then DamageFlags.clear else st.status.2.1.join st.found

/-- The blocks at a restart, recovered, before its writes and its notices. -/
def Store.restartBlocks (st : Store) (cause : Cause) (pending : List Instr) (x : Inputs) : State :=
  let t := (st.checked.restored pending x).recovered
  { t with store := { t.store with reported := cause, recorded := .powerOn, flags := st.restartFlags } }

/-- A written-back record touches the cells alone. -/
theorem syncRecord_frame (s : State) (r : StoreRecord) :
    s.syncRecord r = { s with store := { s.store with cells := (s.syncRecord r).store.cells } } := by
  unfold State.syncRecord
  split
  · rfl
  · simp only []; rw [writeNow_frame]

theorem syncRecord_foldl_frame (rs : List StoreRecord) (s : State) :
    rs.foldl State.syncRecord s =
      { s with store := { s.store with cells := (rs.foldl State.syncRecord s).store.cells } } := by
  induction rs generalizing s with
  | nil => rfl
  | cons r rs ih => rw [List.foldl_cons, ih, syncRecord_frame]

/-- The restart's writes touch the cells alone. -/
theorem sync_frame (s : State) : s.sync = { s with store := { s.store with cells := s.sync.store.cells } } := by
  unfold State.sync State.writeStatus
  simp only []
  rw [writeNow_frame, syncRecord_foldl_frame]

theorem announceConsign_frame (before : Vector (Option Consignment) 16) (s : State) (i : Fin 16) :
    s.announceConsign before i = { s with links := (s.announceConsign before i).links } := by
  unfold State.announceConsign
  split
  · split
    · rfl
    · rw [noticeAtRestart_frame]
  · rfl

theorem announceConsign_foldl_frame (before : Vector (Option Consignment) 16) (is : List (Fin 16)) (s : State) :
    is.foldl (State.announceConsign before) s =
      { s with links := (is.foldl (State.announceConsign before) s).links } := by
  induction is generalizing s with
  | nil => rfl
  | cons i is ih => rw [List.foldl_cons, ih, announceConsign_frame]

/-- The restart up to its notices (R178, R183). -/
def Store.restartSynced (st : Store) (cause : Cause) (pending : List Instr) (x : Inputs) : State :=
  (st.restartBlocks cause pending x).sync.updateSounders.updateTrouble

/-- The restart's first notices: RESTARTED, and FORMAT_DONE behind a format that it completed (R178, R184). -/
def Store.restartNoticed (st : Store) (cause : Cause) (pending : List Instr) (x : Inputs) : State :=
  let t := (st.restartSynced cause pending x).noticeAtRestart (.restarted cause st.restartFlags)
  if st.status.2.2 then t.noticeAtRestart .formatDone else t

theorem restart_eq (cause : Cause) (st : Store) (pending : List Instr) (x : Inputs) :
    State.restart cause st pending x =
      placeNumbers.foldl (State.announceConsign (st.checked.restored pending x).consign.places)
        (st.restartNoticed cause pending x) := by
  unfold State.restart Store.restartNoticed Store.restartSynced Store.restartBlocks Store.checked Store.restartFlags
  generalize placeNumbers = is
  rfl

/-- A restart leaves its blocks with the notices it queued, the common outputs worked out, and its writes in the cells. -/
theorem restart_frame (cause : Cause) (st : Store) (pending : List Instr) (x : Inputs) :
    State.restart cause st pending x =
      { st.restartBlocks cause pending x with
        links := (State.restart cause st pending x).links
        fire := (st.restartSynced cause pending x).fire
        store := (st.restartBlocks cause pending x).sync.store } := by
  have noticed : st.restartNoticed cause pending x =
      { st.restartSynced cause pending x with links := (st.restartNoticed cause pending x).links } := by
    unfold Store.restartNoticed
    simp only []
    split
    · rw [noticeAtRestart_frame, noticeAtRestart_frame]
    · rw [noticeAtRestart_frame]
  have synced : { st.restartSynced cause pending x with links := (State.restart cause st pending x).links } =
      { st.restartBlocks cause pending x with
        links := (State.restart cause st pending x).links
        fire := (st.restartSynced cause pending x).fire
        store := (st.restartBlocks cause pending x).sync.store } := by
    unfold Store.restartSynced State.updateSounders State.updateTrouble
    simp only []
    rw [sync_frame]
  rw [← synced, restart_eq, announceConsign_foldl_frame, noticed]

/-! ### What a restart leaves in each block -/

section
variable (cause : Cause) (st : Store) (pending : List Instr) (x : Inputs)

theorem restart_custody : (State.restart cause st pending x).custody = (st.checked.restored pending x).recovered.custody := by
  rw [restart_frame, Store.restartBlocks]
theorem restart_consign : (State.restart cause st pending x).consign = (st.checked.restored pending x).recovered.consign := by
  rw [restart_frame, Store.restartBlocks]
theorem restart_hatch : (State.restart cause st pending x).hatch = (st.checked.restored pending x).recovered.hatch := by
  rw [restart_frame, Store.restartBlocks]
theorem restart_staging : (State.restart cause st pending x).staging = (st.checked.restored pending x).recovered.staging := by
  rw [restart_frame, Store.restartBlocks]
theorem restart_pending : (State.restart cause st pending x).pending = pending := by
  rw [restart_frame, Store.restartBlocks, recovered_eq]; rfl
theorem restart_power : (State.restart cause st pending x).power = .running := by
  rw [restart_frame, Store.restartBlocks, recovered_eq]; rfl
theorem restart_inputs : (State.restart cause st pending x).inputs = x.restart st.checked.config := by
  rw [restart_frame, Store.restartBlocks, recovered_eq]; rfl
theorem restart_vault : (State.restart cause st pending x).vault = (st.checked.restored pending x).vault := by
  rw [restart_frame, Store.restartBlocks, recovered_eq]
theorem restart_climate : (State.restart cause st pending x).climate = (st.checked.restored pending x).climate := by
  rw [restart_frame, Store.restartBlocks, recovered_eq]
theorem restart_accumulators :
    (State.restart cause st pending x).accumulators = (st.checked.restored pending x).accumulators := by
  rw [restart_frame, Store.restartBlocks, recovered_eq]

/-- A restart leaves the fire unit as it was restored, but for the common outputs. -/
theorem restart_fire :
    (State.restart cause st pending x).fire =
      { (st.checked.restored pending x).fire with
        alert := (State.restart cause st pending x).fire.alert
        evacuate := (State.restart cause st pending x).fire.evacuate
        trouble := (State.restart cause st pending x).fire.trouble } := by
  have synced : (State.restart cause st pending x).fire = (st.restartSynced cause pending x).fire := by rw [restart_frame]
  rw [synced]
  unfold Store.restartSynced State.updateSounders State.updateTrouble
  simp only []
  rw [sync_frame, Store.restartBlocks, recovered_eq]

/-- A restart leaves the store idle, with its cause, POWER_ON recorded, the flags and the cells that its writes leave. -/
theorem restart_store :
    (State.restart cause st pending x).store =
      { (st.checked.restored pending x).store with
        reported := cause, recorded := .powerOn, flags := st.restartFlags
        cells := (st.restartBlocks cause pending x).sync.store.cells } := by
  have synced : (State.restart cause st pending x).store = (st.restartBlocks cause pending x).sync.store := by
    rw [restart_frame]
  rw [synced, sync_frame, Store.restartBlocks, recovered_eq]

end

/-! ## The notices of a restart (R178, R183) -/

theorem noticeOn_link (take : Link → Notice → Link) (n : NoticeBody) (p q : Port) (s : State) :
    (s.noticeOn take n p).link q =
      if q = p ∧ (n.fixed || (s.link q).subscribed n.cls) = true then take (s.link q) ⟨s.vault.clock, n⟩ else s.link q := by
  unfold State.noticeOn
  by_cases hp : q = p
  · subst hp
    by_cases hs : (n.fixed || (s.link q).subscribed n.cls) = true
    · rw [if_pos hs, if_pos ⟨rfl, hs⟩]
      exact (links_get_set _ _ _ _).trans (if_pos rfl)
    · have off : ¬ (q = q ∧ (n.fixed || (s.link q).subscribed n.cls) = true) := fun h => hs h.2
      rw [if_neg hs, if_neg off]
  · have off : ¬ (q = p ∧ (n.fixed || (s.link q).subscribed n.cls) = true) := fun h => hp h.1
    rw [if_neg off]
    split
    · exact (links_get_set _ _ _ _).trans (if_neg hp)
    · rfl

/-- A notice of every port is queued on each that subscribes to it, or on all if it is fixed there (R174). -/
theorem sendNotice_link {n : NoticeBody} (hn : n.ports = [.facility, .archive, .handover]) (take : Link → Notice → Link)
    (q : Port) (s : State) :
    (s.sendNotice take n).link q =
      if (n.fixed || (s.link q).subscribed n.cls) = true then take (s.link q) ⟨s.vault.clock, n⟩ else s.link q := by
  unfold State.sendNotice
  rw [hn]
  simp only [List.foldl_cons, List.foldl_nil, noticeOn_link, noticeOn_vault]
  cases q <;> simp

/-- The notice that the restart sends of a place whose consignment's state the recovery changed (R183, step 4). -/
def changeNotice (before after : Vector (Option Consignment) 16) (i : Fin 16) : Option NoticeBody :=
  match before[i], after[i] with
  | some b, some c => if b.state = c.state then none else some (.consignState c.number c.state c.result)
  | _, _ => none

/-- It is a CONSIGN_STATE. -/
theorem changeNotice_eq_some {before after : Vector (Option Consignment) 16} {i : Fin 16} {n : NoticeBody}
    (h : changeNotice before after i = some n) : ∃ m st r, n = .consignState m st r := by
  unfold changeNotice at h
  split at h
  · split at h
    · cases h
    · cases h; exact ⟨_, _, _, rfl⟩
  · cases h

theorem announceConsign_of_none {before : Vector (Option Consignment) 16} {s : State} {i : Fin 16}
    (h : changeNotice before s.consign.places i = none) : s.announceConsign before i = s := by
  unfold changeNotice at h
  unfold State.announceConsign
  split
  · rename_i b c hb hc
    rw [hb, hc] at h
    by_cases he : b.state = c.state
    · exact if_pos he
    · simp [he] at h
  · rfl

theorem announceConsign_of_some {before : Vector (Option Consignment) 16} {s : State} {i : Fin 16} {n : NoticeBody}
    (h : changeNotice before s.consign.places i = some n) : s.announceConsign before i = s.noticeAtRestart n := by
  unfold changeNotice at h
  unfold State.announceConsign
  split
  · rename_i b c hb hc
    rw [hb, hc] at h
    by_cases he : b.state = c.state
    · simp [he] at h
    · simp only [he, if_false, Option.some.injEq] at h
      rw [if_neg he, h]
  · rename_i hn
    split at h
    · rename_i b c hb hc; exact absurd hc (hn b c hb)
    · cases h

/-- A CONSIGN_STATE of a restart is queued on the ports that subscribe to it (R174, R178). -/
theorem consignState_link (m : Nat) (cs : ConsignState) (r : Option ExchangeResult) (q : Port) (s : State) :
    (s.noticeAtRestart (.consignState m cs r)).link q =
      if (s.link q).subscribed .custody = true then (s.link q).takeAtRestart ⟨s.vault.clock, .consignState m cs r⟩
      else s.link q := sendNotice_link rfl _ q s

@[simp] theorem takeAtRestart_mask (l : Link) (n : Notice) : (l.takeAtRestart n).mask = l.mask := by
  have start : l.start.mask = l.mask := by rw [start_frame]
  have join : ∀ l : Link, (l.joinNotice n).mask = l.mask := by intro l; unfold Link.joinNotice; (repeat' split) <;> rfl
  unfold Link.takeAtRestart
  rw [join]
  split
  · rfl
  · exact start

/-- The CONSIGN_STATEs of a restart reach a port that subscribes to them, in place order, and no other. -/
theorem announceConsign_foldl_link (before : Vector (Option Consignment) 16) (is : List (Fin 16)) (q : Port) (s : State) :
    (is.foldl (State.announceConsign before) s).link q =
      if (s.link q).subscribed .custody = true then
        ((is.filterMap (changeNotice before s.consign.places)).map (Notice.mk s.vault.clock)).foldl
          Link.takeAtRestart (s.link q)
      else s.link q := by
  induction is generalizing s with
  | nil => exact (ite_self _).symm
  | cons i is ih =>
    rw [List.foldl_cons, ih]
    have consign : (s.announceConsign before i).consign = s.consign := by rw [announceConsign_frame]
    have vault : (s.announceConsign before i).vault = s.vault := by rw [announceConsign_frame]
    rw [consign, vault]
    cases hn : changeNotice before s.consign.places i with
    | none => rw [announceConsign_of_none hn, List.filterMap_cons_none hn]
    | some n =>
      obtain ⟨m, cs, r, rfl⟩ := changeNotice_eq_some hn
      rw [announceConsign_of_some hn, consignState_link, List.filterMap_cons_some hn]
      by_cases hs : (s.link q).subscribed .custody = true
      · have still : ((s.link q).takeAtRestart ⟨s.vault.clock, .consignState m cs r⟩).subscribed .custody = true := by
          unfold Link.subscribed
          rw [takeAtRestart_mask]
          exact hs
        rw [if_pos hs, if_pos still, if_pos hs]
        rfl
      · simp only [if_neg hs]

/-- Notices join a queue that has room for them all (R175, R178). -/
theorem takeAtRestart_foldl (ns : List Notice) (l : Link) (h : l.notices.length + ns.length ≤ Config.noticeCapacity) :
    ns.foldl Link.takeAtRestart l = { l with notices := l.notices ++ ns } := by
  induction ns generalizing l with
  | nil => simp
  | cons n ns ih =>
    have room : l.notices.length < Config.noticeCapacity := by simp only [List.length_cons] at h; omega
    have joined : l.takeAtRestart n = { l with notices := l.notices ++ [n] } := by
      unfold Link.takeAtRestart Link.joinNotice
      rw [if_pos room, if_pos room]
    rw [List.foldl_cons, joined, ih _ (by simp only [List.length_append, List.length_cons, List.length_nil] at h ⊢; omega)]
    simp

/-- One notice more than the queue of an idle transmitter holds sends the first (log 15). -/
theorem takeAtRestart_foldl_full {l : Link} {first : Notice} {ns : List Notice} (hn : l.notices = [first])
    (hs : l.sending = none) (hr : l.responses = []) (h : ns.length = Config.noticeCapacity) :
    ns.foldl Link.takeAtRestart l = { l with notices := ns, sending := some (.notice first) } := by
  obtain ⟨init, last, rfl⟩ : ∃ init last, ns = init ++ [last] :=
    ⟨ns.dropLast, ns.getLast (by rintro rfl; cases h), (List.dropLast_append_getLast _).symm⟩
  simp only [List.length_append, List.length_cons, List.length_nil] at h
  have held : init.foldl Link.takeAtRestart l = { l with notices := first :: init } := by
    rw [takeAtRestart_foldl init l (by rw [hn, List.length_singleton]; omega), hn]
    rfl
  have full : ¬ (first :: init).length < Config.noticeCapacity := by rw [List.length_cons]; omega
  have room : init.length < Config.noticeCapacity := by omega
  rw [List.foldl_append, held]
  simp only [List.foldl_cons, List.foldl_nil, Link.takeAtRestart, if_neg full, Link.start, hs, hr, Link.joinNotice,
    if_pos room]

/-! ### What a restart leaves in each link unit -/

/-- Every port subscribes to system notices after a restart (R174). -/
theorem defaultMask_system (p : Port) : (Port.defaultMask p).getLsbD NoticeClass.system.bit = true := by
  cases p <;> decide

/-- The archive port alone subscribes to custody notices after a restart (R174). -/
theorem defaultMask_custody (p : Port) : (Port.defaultMask p).getLsbD NoticeClass.custody.bit = decide (p = .archive) := by
  cases p <;> decide

section
variable (cause : Cause) (st : Store) (pending : List Instr) (x : Inputs)

theorem restartSynced_links : (st.restartSynced cause pending x).links = Links.restored := by
  unfold Store.restartSynced
  rw [updateTrouble_links, updateSounders_links, sync_frame, Store.restartBlocks, recovered_eq]
  rfl

theorem restartSynced_clock : (st.restartSynced cause pending x).vault.clock = st.checked.clock := by
  unfold Store.restartSynced
  rw [updateTrouble_vault, updateSounders_vault, sync_frame, Store.restartBlocks, recovered_eq]
  rfl

/-- RESTARTED stands alone in each queue before the CONSIGN_STATEs, or with FORMAT_DONE behind it (R178, R184). -/
theorem restartNoticed_link (p : Port) :
    (st.restartNoticed cause pending x).link p =
      { Link.initial p with
        notices := ⟨st.checked.clock, .restarted cause st.restartFlags⟩ ::
          if st.status.2.2 then [⟨st.checked.clock, .formatDone⟩] else [] } := by
  let s := st.restartSynced cause pending x
  have initial : s.link p = Link.initial p := by
    unfold State.link
    rw [restartSynced_links]
    cases p <;> rfl
  have clock : s.vault.clock = st.checked.clock := restartSynced_clock cause st pending x
  have restarted : (s.noticeAtRestart (.restarted cause st.restartFlags)).link p =
      { Link.initial p with notices := [⟨st.checked.clock, .restarted cause st.restartFlags⟩] } := by
    refine (sendNotice_link rfl Link.takeAtRestart p s).trans ?_
    rw [initial, clock]
    cases p <;> rfl
  unfold Store.restartNoticed
  cases st.status.2.2 with
  | false => exact restarted
  | true =>
    refine (sendNotice_link rfl Link.takeAtRestart p _).trans ?_
    have clock' : (s.noticeAtRestart (.restarted cause st.restartFlags)).vault.clock = st.checked.clock := by
      rw [noticeAtRestart_frame, clock]
    rw [restarted, clock']
    exact if_pos (defaultMask_system p)

theorem restartNoticed_clock : (st.restartNoticed cause pending x).vault.clock = st.checked.clock := by
  rw [← restartSynced_clock cause st pending x]
  unfold Store.restartNoticed
  simp only []
  split
  · rw [noticeAtRestart_frame, noticeAtRestart_frame]
  · rw [noticeAtRestart_frame]

/-- The CONSIGN_STATEs of a restart, in place order (R183, step 4). -/
def Store.changeNotices (st : Store) (cause : Cause) (pending : List Instr) (x : Inputs) : List Notice :=
  (placeNumbers.filterMap (changeNotice (st.checked.restored pending x).consign.places
    (State.restart cause st pending x).consign.places)).map (Notice.mk st.checked.clock)

/-- What each link unit holds after a restart: the CONSIGN_STATEs join on the ports that subscribe to them (R183). -/
theorem restart_link (p : Port) :
    (State.restart cause st pending x).link p =
      if ((st.restartNoticed cause pending x).link p).subscribed .custody = true then
        (st.changeNotices cause pending x).foldl Link.takeAtRestart ((st.restartNoticed cause pending x).link p)
      else (st.restartNoticed cause pending x).link p := by
  have consign : (st.restartNoticed cause pending x).consign = (State.restart cause st pending x).consign := by
    rw [restart_eq, announceConsign_foldl_frame]
  rw [Store.changeNotices, ← consign, ← restartNoticed_clock cause st pending x]
  rw [restart_eq, announceConsign_foldl_link]

/-- The facility and handover ports do not subscribe to custody notices after a restart (R174). -/
theorem restart_link_of_ne_archive {p : Port} (hp : p ≠ .archive) :
    (State.restart cause st pending x).link p = (st.restartNoticed cause pending x).link p := by
  refine (restart_link cause st pending x p).trans (if_neg fun h => ?_)
  rw [restartNoticed_link] at h
  exact hp (of_decide_eq_true ((defaultMask_custody p).symm.trans h))

/-- The archive port does. -/
theorem restart_link_archive :
    (State.restart cause st pending x).link .archive =
      (st.changeNotices cause pending x).foldl Link.takeAtRestart ((st.restartNoticed cause pending x).link .archive) := by
  refine (restart_link cause st pending x .archive).trans (if_pos ?_)
  rw [restartNoticed_link]
  exact defaultMask_custody .archive

end

end Sys2Proof.Machine
end

