-- ==== Sys2Proof/Proofs/RestartValues.lean ====
section
/-! SUPPORT. The restart values of the blocks and the recovery in the words of R182. -/

namespace Sys2Proof.Machine

/-! ## A restart on a store whose format mark is clear -/

theorem checked_of_unmarked {st : Store} (h : st.status.2.2 = false) : st.checked = st := by
  unfold Store.checked; rw [h]; rfl

theorem restartFlags_of_unmarked {st : Store} (h : st.status.2.2 = false) :
    st.restartFlags = st.status.2.1.join st.found := by
  unfold Store.restartFlags; rw [h]; rfl

@[simp] theorem perArea_get {α : Type} (f : Area → α) (a : Area) : (perArea f).get a = f a := by cases a <;> rfl

/-! ### The link units -/

section
variable {cause : Cause} {st : Store} {pending : List Instr} {x : Inputs}

theorem restartNoticed_link_of_unmarked (h : st.status.2.2 = false) (p : Port) :
    (st.restartNoticed cause pending x).link p =
      { Link.initial p with notices := [⟨st.clock, .restarted cause (st.status.2.1.join st.found)⟩] } := by
  rw [restartNoticed_link, h, checked_of_unmarked h, restartFlags_of_unmarked h]
  rfl

theorem changeNotices_length (cause : Cause) (st : Store) (pending : List Instr) (x : Inputs) :
    (st.changeNotices cause pending x).length ≤ 16 := by
  rw [Store.changeNotices, List.length_map]
  exact List.length_filterMap_le _ _

/-- With room for every CONSIGN_STATE the archive queue holds RESTARTED and then them (R178, R183). -/
theorem restart_link_archive_room (h : st.status.2.2 = false) (hn : (st.changeNotices cause pending x).length < 16) :
    (State.restart cause st pending x).link .archive =
      { Link.initial .archive with
        notices := ⟨st.clock, .restarted cause (st.status.2.1.join st.found)⟩ :: st.changeNotices cause pending x } := by
  rw [restart_link_archive, restartNoticed_link_of_unmarked h]
  refine takeAtRestart_foldl _ _ ?_
  rw [List.length_singleton]
  show 1 + _ ≤ 16
  omega

/-- With sixteen of them the transmitter has taken RESTARTED (log 15). -/
theorem restart_link_archive_full (h : st.status.2.2 = false) (hn : (st.changeNotices cause pending x).length = 16) :
    (State.restart cause st pending x).link .archive =
      { Link.initial .archive with
        notices := st.changeNotices cause pending x
        sending := some (.notice ⟨st.clock, .restarted cause (st.status.2.1.join st.found)⟩) } := by
  rw [restart_link_archive, restartNoticed_link_of_unmarked h]
  exact takeAtRestart_foldl_full rfl rfl rfl hn

/-- Every link unit is as it is initially, but for what it has queued and sends (R174, R178). -/
theorem restart_link_initial (h : st.status.2.2 = false) (p : Port) :
    ∃ ns sending, (State.restart cause st pending x).link p =
      { Link.initial p with notices := ns, sending := sending } := by
  by_cases hp : p = .archive
  · subst hp
    rcases Nat.lt_or_eq_of_le (changeNotices_length cause st pending x) with hn | hn
    · exact ⟨_, none, restart_link_archive_room h hn⟩
    · exact ⟨_, _, restart_link_archive_full h hn⟩
  · exact ⟨_, none, (restart_link_of_ne_archive cause st pending x hp).trans (restartNoticed_link_of_unmarked h p)⟩

/-- The CONSIGN_STATEs are those of the places whose state changed, from what the store held to what the part holds. -/
theorem changeNotices_eq (h : st.status.2.2 = false) :
    st.changeNotices cause pending x = (List.finRange 16).filterMap fun i =>
      match st.consignmentAt i, (State.restart cause st pending x).consign.places[i] with
      | some b, some c => if b.state = c.state then none else some ⟨st.clock, .consignState c.number c.state c.result⟩
      | _, _ => none := by
  have before : ∀ i : Fin 16, (st.restored pending x).consign.places[i] = st.consignmentAt i := tabulate_get _
  rw [Store.changeNotices, checked_of_unmarked h, List.map_filterMap]
  refine List.filterMap_congr fun i _ => ?_
  unfold changeNotice
  rw [before]
  cases st.consignmentAt i with
  | none => rfl
  | some b =>
    cases (State.restart cause st pending x).consign.places[i] with
    | none => rfl
    | some c =>
      by_cases he : b.state = c.state
      · simp [he]
      · simp [he]

/-- The facility link is not lost after a restart, and its silence count begins (R178). -/
theorem restart_links_rest (cause : Cause) (st : Store) (pending : List Instr) (x : Inputs) :
    (State.restart cause st pending x).links.lost = false ∧ (State.restart cause st pending x).links.lastValid = 0 := by
  let rest := fun s : State => (s.links.lost, s.links.lastValid)
  have notice : ∀ (n : NoticeBody) (s : State), rest (s.noticeAtRestart n) = rest s := fun n s =>
    foldl_keeps (fun s p => State.noticeOn Link.takeAtRestart n p s) rest
      (fun s p => by unfold State.noticeOn; split <;> simp [rest]) n.ports s
  have announce : ∀ before (s : State) i, rest (s.announceConsign before i) = rest s := by
    intro before s i
    unfold State.announceConsign
    split
    · split
      · rfl
      · exact notice _ s
    · rfl
  have kept : rest (State.restart cause st pending x) = (false, 0) := by
    rw [restart_eq, foldl_keeps _ rest (announce _)]
    unfold Store.restartNoticed
    simp only []
    have first := notice (.restarted cause st.restartFlags) (st.restartSynced cause pending x)
    have links : rest (st.restartSynced cause pending x) = (false, 0) := by simp only [rest, restartSynced_links]; rfl
    split
    · rw [notice, first, links]
    · rw [first, links]
  exact ⟨congrArg Prod.fst kept, congrArg Prod.snd kept⟩

end

/-! ### What the recovery leaves -/

/-- A slot after the recovery: as it was and OCCUPIED, OCCUPIED anew, or FREE. -/
theorem recovered_slot_cases (s : State) (n : Fin 32) :
    (∃ l d o w e, s.staging.slots[n] = .occupied l d o w e ∧ s.recovered.staging.slots[n] = .occupied l d o w e) ∨
    (∃ l d o, s.recovered.staging.slots[n] = .occupied l d o 0 none) ∨ s.recovered.staging.slots[n] = .free := by
  by_cases hs : s.slotStays n
  · obtain ⟨-, l, d, o, w, e, -, -, slot, -⟩ := id hs
    exact Or.inl ⟨l, d, o, w, e, slot, (recovered_slot_of_stays hs).trans slot⟩
  · have slot := recovered_slot_of_not_stays hs
    split at slot
    · exact Or.inr (Or.inl ⟨_, _, _, slot⟩)
    · exact Or.inr (Or.inr slot)

/-- A slot that the checks leave OCCUPIED has no dwell and no estimate (R69). -/
theorem slotAt_occupied {st : Store} {n : Fin 32} {l : Label} {d : Direction} {o : Channel} {w : Nat} {e : Option Int}
    (h : st.slotAt n = .occupied l d o w e) : w = 0 ∧ e = none := by
  unfold Store.slotAt at h
  split at h
  · rename_i y _
    cases y with
    | free => cases h
    | reserved => cases h
    | occupied => cases h; exact ⟨rfl, rfl⟩
  · cases h

/-- After the recovery no slot is RESERVED. -/
theorem recovered_not_reserved (s : State) (n : Fin 32) (l : Label) (o : Area) (m : Nat) :
    s.recovered.staging.slots[n] ≠ .reserved l o m := by
  rcases recovered_slot_cases s n with ⟨_, _, _, _, _, -, h⟩ | ⟨_, _, _, h⟩ | h <;> rw [h] <;> exact nofun

/-- After a restart's recovery an OCCUPIED slot has no dwell and no estimate (R69, R120). -/
theorem recovered_occupied {st : Store} {pending : List Instr} {x : Inputs} {n : Fin 32} {l : Label} {d : Direction}
    {o : Channel} {w : Nat} {e : Option Int}
    (h : (st.restored pending x).recovered.staging.slots[n] = .occupied l d o w e) : w = 0 ∧ e = none := by
  have slot : (st.restored pending x).staging.slots[n] = st.slotAt n := tabulate_get _ n
  rcases recovered_slot_cases (st.restored pending x) n with ⟨_, _, _, _, _, found, hs⟩ | ⟨_, _, _, hs⟩ | hs
  · rw [hs] at h
    rw [slot, h] at found
    exact slotAt_occupied found
  · rw [hs] at h; cases h; exact ⟨rfl, rfl⟩
  · rw [hs] at h; cases h

/-- After the recovery no record is REQUESTED or PICKING. -/
theorem recovered_settled {s : State} {x : Nat × CustodyRecord} (h : x ∈ s.recovered.custody) :
    x.2.state ≠ .requested ∧ x.2.state ≠ .picking := by
  rw [recovered_custody] at h
  obtain ⟨y, -, rfl⟩ := List.mem_map.1 h
  simp only []
  split
  · exact ⟨nofun, nofun⟩
  · rename_i hs
    simp only [List.mem_cons, List.not_mem_nil, or_false, not_or] at hs
    exact hs

/-- What the consignment test gives is no EXCHANGING (R129). -/
theorem consignTest_ne_exchanging (s : State) (c : Consignment) : s.consignTest c ≠ .exchanging := by
  unfold State.consignTest
  simp only []
  split
  · exact nofun
  · split <;> exact nofun

/-- Step 5 makes no consignment EXCHANGING. -/
theorem stepFive_ne_exchanging {s : State} {c : Consignment} (hc : c.state ≠ .exchanging) :
    (s.stepFive c).state ≠ .exchanging := by
  unfold State.stepFive
  split
  · split
    · exact hc
    · exact nofun
  · exact consignTest_ne_exchanging s c
  · exact consignTest_ne_exchanging s c
  · exact consignTest_ne_exchanging s c
  all_goals exact hc

/-- After the recovery no consignment is EXCHANGING. -/
theorem recovered_not_exchanging {s : State} {i : Fin 16} {y : Consignment}
    (h : s.recovered.consign.places[i] = some y) : y.state ≠ .exchanging := by
  cases hi : s.consign.places[i] with
  | none => rw [recovered_place_of_none hi] at h; cases h
  | some c =>
    by_cases hc : c.state = .exchanging
    · rw [recovered_place_of_exchanging hi hc, listed_interrupted] at h
      cases h
      split <;> exact nofun
    · rw [recovered_place_of_other hi hc] at h
      cases h
      exact stepFive_ne_exchanging hc

/-- After a restart's recovery no entry of the hatch list has an estimate (R65). -/
theorem recovered_no_estimate {st : Store} {pending : List Instr} {x : Inputs} {e : HatchEntry}
    (h : e ∈ (st.restored pending x).recovered.hatch.entries) : e.estimate = none := by
  rw [recovered_entries] at h
  obtain ⟨f, hf, rfl⟩ := List.mem_map.1 h
  rw [holdEntry_estimate]
  rcases List.mem_append.1 hf with hf | hf
  · have found : f ∈ st.hatchEntries := (List.mem_filter.1 hf).1
    unfold Store.hatchEntries at found
    split at found
    · obtain ⟨g, -, rfl⟩ := List.mem_map.1 found; rfl
    · cases found
  · obtain ⟨y, -, rfl⟩ := List.mem_map.1 hf; rfl

/-- The inactive level of an alarm line is not active (R38). -/
theorem initial_condition (c : DetectorSettings) : (DetectorRecord.initial c).condition = .normal := by
  unfold DetectorRecord.condition DetectorRecord.initial
  cases c.polarity <;> rfl

/-! ### The obligation -/

/-- Settles O54: the restart's frame for each block, the fold of its notices, and the recovery step by step. -/
theorem restartGivesTheRestartValues : Obligations.RestartGivesTheRestartValues := by
  refine ⟨?_, ?_⟩
  · intro cause st pending x hm t v flags
    have recovered : v = (st.restored pending x).recovered := rfl
    have checked := checked_of_unmarked hm
    have blocks : st.checked.restored pending x = st.restored pending x := by rw [checked]
    have vault : t.vault = (st.restored pending x).vault := (restart_vault cause st pending x).trans (by rw [blocks])
    have custody : t.custody = v.custody := (restart_custody cause st pending x).trans (by rw [blocks])
    have consign : t.consign = v.consign := (restart_consign cause st pending x).trans (by rw [blocks])
    have hatch : t.hatch = v.hatch := (restart_hatch cause st pending x).trans (by rw [blocks])
    have staging : t.staging = v.staging := (restart_staging cause st pending x).trans (by rw [blocks])
    have inputs : t.inputs = x.restart st.config := (restart_inputs cause st pending x).trans (by rw [checked])
    have climate : t.climate = (st.restored pending x).climate := (restart_climate cause st pending x).trans (by rw [blocks])
    have accumulators : t.accumulators = (st.restored pending x).accumulators :=
      (restart_accumulators cause st pending x).trans (by rw [blocks])
    have fire := restart_fire cause st pending x
    have store := restart_store cause st pending x
    rw [blocks] at fire store
    obtain ⟨lost, lastValid⟩ := restart_links_rest cause st pending x
    have initial : ∀ p : Port, ∃ ns sending, t.link p = { Link.initial p with notices := ns, sending := sending } :=
      restart_link_initial hm
    have mask : ∀ p : Port, (t.link p).mask = Port.defaultMask p := by
      intro p; obtain ⟨ns, sending, h⟩ := initial p; rw [h]; rfl
    have recovered_hatch : v.hatch = { (st.restored pending x).hatch with entries := v.hatch.entries } := by
      simp only [v]; rw [recovered_eq]
    have recovered_staging : v.staging = { (st.restored pending x).staging with slots := v.staging.slots } := by
      simp only [v]; rw [recovered_eq]
    have recovered_counter : v.consign.counter = st.counter := by
      simp only [v]; rw [recovered_eq]; rfl
    have area : ∀ a, t.fire.areas.get a = FireArea.restored (st.fireFlags a) (st.config.fire.get a) := by
      intro a
      simp only [t]
      rw [fire]
      exact perArea_get _ a
    have detector : ∀ d : Detector, t.fire.detectors[d] = DetectorRecord.initial st.config.detectors[d] := by
      intro d
      simp only [t]
      rw [fire]
      exact tabulate_get _ d
    have hatch_rest : t.hatch = { (st.restored pending x).hatch with entries := v.hatch.entries } :=
      hatch.trans recovered_hatch
    have staging_rest : t.staging = { (st.restored pending x).staging with slots := v.staging.slots } :=
      staging.trans recovered_staging
    refine ⟨restart_pending cause st pending x, restart_power cause st pending x, vault, fun p => ?_, ?_, fun d => ?_,
      fun a => ?_, by rw [inputs]; rfl, by rw [inputs]; rfl, by rw [inputs]; rfl, by rw [inputs]; rfl,
      by rw [inputs]; rfl, custody, by rw [staging], by rw [hatch], consign, mask .facility, mask .archive, mask .handover,
      lost, lastValid, fun c => ?_, by rw [climate]; rfl, by rw [climate]; rfl, by rw [climate]; rfl, by rw [climate]; rfl,
      by rw [climate]; rfl, fun a => ?_, fun a => ?_, by rw [staging_rest]; rfl, by rw [staging_rest]; rfl,
      by rw [staging_rest]; rfl, fun n l o m => ?_, fun n l d o w e h => ?_, fun y hy => ?_, ?_, fun i y hy => ?_,
      by rw [hatch_rest]; rfl, by rw [hatch_rest]; rfl, by rw [hatch_rest]; rfl, by rw [hatch_rest]; rfl, fun e he => ?_,
      area, fun d => ?_, ?_, ?_⟩
    · obtain ⟨ns, sending, h⟩ := initial p
      rw [h]
      exact ⟨rfl, rfl, rfl, rfl⟩
    · intro restarted changes
      have notices : changes = st.changeNotices cause pending x := (changeNotices_eq hm).symm
      rw [notices]
      refine ⟨fun p hp => ?_, fun hn => ?_, fun hn => ?_⟩
      · have link : t.link p = _ :=
          (restart_link_of_ne_archive cause st pending x hp).trans (restartNoticed_link_of_unmarked hm p)
        rw [link]
        exact ⟨rfl, rfl⟩
      · have link : t.link .archive = _ := restart_link_archive_room hm hn
        rw [link]
        exact ⟨rfl, rfl⟩
      · have link : t.link .archive = _ := restart_link_archive_full hm hn
        rw [link]
        exact ⟨rfl, rfl⟩
    · rw [inputs]
      exact ⟨tabulate_get _ d, Vector.getElem_map _ _⟩
    · rw [inputs]
      exact perArea_get_map _ _ a
    · rw [climate]
      cases c with
      | area a => cases a <;> rfl
      | outside => rfl
    · rw [climate]
      exact perArea_get _ a
    · rw [accumulators]
      exact perArea_get _ a
    · rw [staging, recovered]
      exact recovered_not_reserved _ n l o m
    · rw [staging, recovered] at h
      exact recovered_occupied h
    · rw [custody] at hy
      exact recovered_settled hy
    · rw [consign]
      exact recovered_counter
    · rw [consign, recovered] at hy
      exact recovered_not_exchanging hy
    · rw [hatch, recovered] at he
      exact recovered_no_estimate he
    · rw [detector]
      exact ⟨rfl, initial_condition _, rfl, rfl, rfl⟩
    · simp only [t]
      rw [fire]
      rfl
    · simp only [t]
      rw [store]
      exact ⟨rfl, rfl, restartFlags_of_unmarked hm, rfl, rfl, rfl, rfl⟩
  · intro s t places exchanging outbound direction staged inHatch
    have exch : ∀ n, s.exchangingNumber n = exchanging n := exchangingNumber_eq s
    have recovered : t = s.recovered := rfl
    refine ⟨?_, fun n => ?_, ?_, ?_⟩
    · rw [recovered, recovered_custody]
      simp only [exch]
    · rw [recovered]
      exact ⟨recovered_slot_of_stays, fun x => recovered_slot_of_first, recovered_slot_of_no_record⟩
    · refine ⟨s.hatch.entries.filter s.entryStays, fun e => ?_, List.filter_sublist, fun _ => ?_⟩
      · rw [List.mem_filter, entryStays_iff]
      · have entries := recovered_entries s
        have hold : holdEntry s.exchangingNumber = fun e => if exchanging e.number then { e with fireHeld := true } else e := by
          funext e; unfold holdEntry
          rw [exch]
        rw [hold] at entries
        rw [recovered]
        exact entries
    · intro i
      refine ⟨fun hi => by rw [recovered]; exact recovered_place_of_none hi, fun c hi => ?_⟩
      intro present kept added left rebuilt
      have presence : s.listRecovered.any (fun e => e.number == c.number) = true ↔ present := by
        show _ ↔ ∃ e ∈ t.hatch.entries, e.number = c.number
        rw [recovered]
        exact recovered_present s c.number
      have interrupted : s.listed.interrupted c =
          if s.listRecovered.any (fun e => e.number == c.number) then { rebuilt with state := .returning }
          else { rebuilt with state := .closed, closed := some s.vault.clock } := listed_interrupted s c
      refine ⟨fun hc hp => ?_, fun hc hp => ?_, fun hc hp => ?_, fun hc hp => ?_, fun hc => ?_, fun hc => ?_, fun hc => ?_⟩
      · rw [recovered, recovered_place_of_exchanging hi hc, interrupted, if_pos (presence.2 hp)]
      · rw [recovered, recovered_place_of_exchanging hi hc, interrupted, if_neg fun h => hp (presence.1 h)]
      · rw [recovered, recovered_place_of_other hi (by rw [hc]; exact nofun), stepFive_of_returning hc,
          if_pos (presence.2 hp)]
      · rw [recovered, recovered_place_of_other hi (by rw [hc]; exact nofun), stepFive_of_returning hc,
          if_neg fun h => hp (presence.1 h)]
      · have other : c.state ≠ .exchanging := by intro h; rw [h] at hc; revert hc; decide
        rw [recovered, recovered_place_of_other hi other, stepFive_of_tested hc]
      · rw [recovered, recovered_place_of_other hi (by rw [hc]; exact nofun), stepFive_of_lockedOut hc]
      · have other : c.state ≠ .exchanging := by intro h; rw [h] at hc; revert hc; decide
        rw [recovered, recovered_place_of_other hi other, stepFive_of_settled hc]

end Sys2Proof.Machine
end

