-- ==== Sys2Proof/Proofs/StoreReading.lean ====
section
/-! SUPPORT. What the checks of a restart make of each record of the store, good or damaged (R102, R135, R179, R181). -/

namespace Sys2Proof.Machine

/-! ## Key entries and the custody table (R82, R181) -/

/-- A record of which the store lists no cell is read as its formatted content. -/
theorem content_of_not_listed {st : Store} {r : StoreRecord} (h : ∀ x ∈ st.cells, x.1 ≠ r) :
    st.content r = some (formattedContent r) := by
  unfold Store.content Store.cell
  rw [cellIn_of_not_mem h, defaultCell_read]

/-- A record that is read otherwise is listed. -/
theorem listed_of_content {st : Store} {r : StoreRecord} (h : st.content r ≠ some (formattedContent r)) :
    ∃ x ∈ st.cells, x.1 = r := by
  by_contra hn
  exact h (content_of_not_listed fun x hx e => hn ⟨x, hx, e⟩)

theorem mem_keyPlaces (st : Store) (p : Nat) :
    p ∈ st.keyPlaces ↔ p < Config.custodyPlaces ∧ ∃ x ∈ st.cells, x.1 = .key p := by
  unfold Store.keyPlaces
  rw [List.mem_filterMap]
  constructor
  · rintro ⟨x, hx, h⟩
    split at h
    · rename_i q hq
      split at h
      · rename_i hlt; cases h; exact ⟨hlt, x, hx, hq⟩
      · cases h
    · cases h
  · rintro ⟨hlt, x, hx, h⟩
    exact ⟨x, hx, by rw [h]; exact if_pos hlt⟩

/-- A key entry that is read as anything but free stands among the places. -/
theorem mem_keyPlaces_of_content {st : Store} {p : Nat} (hp : p < Config.custodyPlaces)
    (h : st.content (.key p) ≠ some (.key none)) : p ∈ st.keyPlaces :=
  (mem_keyPlaces st p).2 ⟨hp, listed_of_content h⟩

/-- In a store in canonical form the places rise. -/
theorem keyPlaces_rise {st : Store} (h : st.cellsHold) : st.keyPlaces.Pairwise (· < ·) := by
  refine List.Pairwise.filterMap _ (fun x y hxy p hp q hq => ?_) ((cellsWf_iff _ _).1 h).1
  have addr : ∀ (z : StoreRecord × Cell) (n : Nat), (match z.1 with
      | .key p => if p < Config.custodyPlaces then some p else none
      | _ => none) = some n → z.1.addr = 62 + 2 * n := by
    intro z n hz
    split at hz
    · rename_i q hq
      split at hz
      · cases hz; rw [hq]; rfl
      · cases hz
    · cases hz
  have hx := addr x p hp
  have hy := addr y q hq
  omega

/-- The record of a place whose key entry names a label, and the two kinds of content beside it (log 33, log 49). -/
theorem custodyAt_of_record {st : Store} {p : Nat} {l : Label} {r : CustodyRecord}
    (hk : st.content (.key p) = some (.key (some l))) (hr : st.content (.custody p) = some (.custody (some r))) :
    st.custodyAt p = some r := by
  unfold Store.custodyAt; rw [hk, hr]

theorem custodyAt_of_damaged {st : Store} {p : Nat} {l : Label} (hk : st.content (.key p) = some (.key (some l)))
    (hr : st.content (.custody p) = none ∨ st.content (.custody p) = some (.custody none)) :
    st.custodyAt p = some { CustodyRecord.blank l .unknown with damaged := true } := by
  unfold Store.custodyAt
  rcases hr with hr | hr <;> rw [hk, hr]

theorem custodyAt_of_free {st : Store} {p : Nat} (hk : st.content (.key p) = none ∨ st.content (.key p) = some (.key none)) :
    st.custodyAt p = none := by
  unfold Store.custodyAt
  rcases hk with hk | hk <;> rw [hk]

/-- A place with a record has a key entry that names a label. -/
theorem key_of_custodyAt {st : Store} {p : Nat} {r : CustodyRecord} (h : st.custodyAt p = some r) :
    ∃ l, st.content (.key p) = some (.key (some l)) := by
  unfold Store.custodyAt at h
  split at h
  · rename_i l hl; exact ⟨l, hl⟩
  · cases h

/-- A record as the checks leave it, with INSPECT and mark 0 where the accumulator of its area is damaged (R181). -/
theorem remark_eq (st : Store) (r : CustodyRecord) :
    st.remark r =
      if (r.area.any fun a => (st.content (.accumulator a)).isNone) = true then { r with inspect := true, mark := some 0 }
      else r := by
  unfold Store.remark
  cases r.area <;> rfl

@[simp] theorem remark_keeps (st : Store) (r : CustodyRecord) :
    (st.remark r).label = r.label ∧ (st.remark r).state = r.state ∧ (st.remark r).location = r.location ∧
      (st.remark r).area = r.area := by
  rw [remark_eq]
  split <;> exact ⟨rfl, rfl, rfl, rfl⟩

/-- The records of all places, before one of each label is kept. -/
abbrev Store.foundRecords (st : Store) : List (Nat × CustodyRecord) :=
  st.keyPlaces.filterMap fun p => (st.custodyAt p).map fun r => (p, st.remark r)

theorem mem_foundRecords (st : Store) (x : Nat × CustodyRecord) :
    x ∈ st.foundRecords ↔ x.1 < Config.custodyPlaces ∧ ∃ r, st.custodyAt x.1 = some r ∧ x.2 = st.remark r := by
  rw [List.mem_filterMap]
  constructor
  · rintro ⟨p, hp, h⟩
    obtain ⟨r, hr, rfl⟩ := Option.map_eq_some_iff.1 h
    exact ⟨((mem_keyPlaces st p).1 hp).1, r, hr, rfl⟩
  · rintro ⟨hp, r, hr, hx⟩
    obtain ⟨l, hl⟩ := key_of_custodyAt hr
    refine ⟨x.1, mem_keyPlaces_of_content hp (by rw [hl]; exact nofun), ?_⟩
    rw [hr, Option.map_some, ← hx]

/-- Every record of the table that the checks leave was found at its place. -/
theorem found_of_custodyTable {st : Store} {x : Nat × CustodyRecord} (h : x ∈ st.custodyTable) :
    x.1 < Config.custodyPlaces ∧ ∃ r, st.custodyAt x.1 = some r ∧ x.2 = st.remark r :=
  (mem_foundRecords st x).1 ((labelsOnce_sublist _).subset h)

/-- In a store in canonical form the table that the checks leave is in canonical form. -/
theorem custodyTable_wf {st : Store} (h : st.cellsHold) : custodyWf st.custodyTable = true := by
  rw [custodyWf_iff]
  refine ⟨List.Pairwise.sublist (labelsOnce_sublist _) ?_, fun x hx => (found_of_custodyTable hx).1⟩
  refine List.Pairwise.filterMap _ (fun p q hpq x hx y hy => ?_) (keyPlaces_rise h)
  obtain ⟨r, -, rfl⟩ := Option.map_eq_some_iff.1 hx
  obtain ⟨r', -, rfl⟩ := Option.map_eq_some_iff.1 hy
  exact hpq

/-- The record of a place in the table is one that was found there. -/
theorem custodyTable_recordAt {st : Store} (h : st.cellsHold) (p : Nat) (y : CustodyRecord) :
    recordAt p st.custodyTable = some y ↔ (p, y) ∈ st.custodyTable :=
  recordAt_iff ((custodyWf_iff _).1 (custodyTable_wf h)).1 p y

/-- A place where no record is found is free in the table. -/
theorem custodyTable_free {st : Store} (h : st.cellsHold) {p : Nat} (hp : st.custodyAt p = none) :
    recordAt p st.custodyTable = none := by
  cases hr : recordAt p st.custodyTable with
  | none => rfl
  | some y =>
    obtain ⟨-, r, hr', -⟩ := found_of_custodyTable ((custodyTable_recordAt h p y).1 hr)
    rw [hp] at hr'; cases hr'

/-- A record whose label no other place carries stands at its place in the table. -/
theorem custodyTable_alone {st : Store} (h : st.cellsHold) {p : Nat} {r : CustodyRecord} (hp : p < Config.custodyPlaces)
    (hr : st.custodyAt p = some r) (alone : ∀ q r', q ≠ p → st.custodyAt q = some r' → r'.label ≠ r.label) :
    recordAt p st.custodyTable = some (st.remark r) := by
  rw [custodyTable_recordAt h]
  refine labelsOnce_keeps ((mem_foundRecords st _).2 ⟨hp, r, hr, rfl⟩) fun y hy hl => ?_
  obtain ⟨-, r', hr', hy'⟩ := (mem_foundRecords st y).1 hy
  have place : y.1 = p := by
    by_contra hq
    refine alone y.1 r' hq hr' ?_
    rw [← (remark_keeps st r').1, ← hy', hl]
    exact (remark_keeps st r).1
  rw [place, hr] at hr'
  cases hr'
  exact Prod.ext place hy'

/-- Of the records of one label one is kept (R82; log 44). -/
theorem labelsOnce_label {t : List (Nat × CustodyRecord)} {x : Nat × CustodyRecord} (hx : x ∈ t) :
    ∃ y ∈ labelsOnce t, y.2.label = x.2.label := by
  induction t with
  | nil => cases hx
  | cons z zs ih =>
    unfold labelsOnce
    simp only []
    rcases List.mem_cons.1 hx with rfl | hx
    · split
      · rename_i hc
        obtain ⟨y, hy, e⟩ := List.any_eq_true.1 hc.2
        simp only [Bool.and_eq_true, beq_iff_eq] at e
        exact ⟨y, hy, e.1⟩
      · exact ⟨x, List.mem_cons_self, rfl⟩
    · obtain ⟨y, hy, e⟩ := ih hx
      split
      · exact ⟨y, hy, e⟩
      · by_cases hz : y.2.label = z.2.label
        · exact ⟨z, List.mem_cons_self, hz.symm.trans e⟩
        · exact ⟨y, List.mem_cons_of_mem _ (List.mem_filter.2 ⟨hy, by simpa using hz⟩), e⟩

theorem custodyTable_label {st : Store} {p : Nat} {r : CustodyRecord} (hp : p < Config.custodyPlaces)
    (hr : st.custodyAt p = some r) : ∃ y ∈ st.custodyTable, y.2.label = r.label := by
  obtain ⟨y, hy, e⟩ := labelsOnce_label ((mem_foundRecords st (p, st.remark r)).2 ⟨hp, r, hr, rfl⟩)
  exact ⟨y, hy, e.trans (remark_keeps st r).1⟩

/-! ## The consignment counter (R181) -/

/-- The maximum of a list and a starting value bounds them, and is one of them. -/
theorem foldl_max_spec (l : List Nat) (a : Nat) :
    (a ≤ l.foldl max a ∧ ∀ n ∈ l, n ≤ l.foldl max a) ∧ (l.foldl max a = a ∨ l.foldl max a ∈ l) := by
  induction l generalizing a with
  | nil => simp
  | cons b l ih =>
    obtain ⟨⟨start, bound⟩, one⟩ := ih (max a b)
    rw [List.foldl_cons]
    refine ⟨⟨by omega, fun n hn => ?_⟩, ?_⟩
    · rcases List.mem_cons.1 hn with rfl | hn
      · omega
      · exact bound n hn
    · rcases one with one | one
      · rcases Nat.le_total a b with h | h
        · exact Or.inr (by rw [one, Nat.max_eq_right h]; exact List.mem_cons_self)
        · exact Or.inl (by rw [one, Nat.max_eq_left h])
      · exact Or.inr (List.mem_cons_of_mem _ one)

/-- A consignment or a custody record that the checks leave carries the number. -/
abbrev Store.carries (st : Store) (n : Nat) : Prop :=
  (∃ (i : Fin 16) (c : Consignment), st.consignmentAt i = some c ∧ c.number = n) ∨
    ∃ y ∈ st.custodyTable, y.2.consignment = some n

theorem highestNumber_spec (st : Store) :
    (∀ n, st.carries n → n ≤ st.highestNumber) ∧ (st.highestNumber = 0 ∨ st.carries st.highestNumber) := by
  have mem : ∀ n, n ∈ placeNumbers.filterMap (fun i => (st.consignmentAt i).map (·.number)) ++
      st.custodyTable.filterMap (fun x => x.2.consignment) ↔ st.carries n := by
    intro n
    rw [List.mem_append, List.mem_filterMap, List.mem_filterMap]
    refine or_congr ?_ Iff.rfl
    simp only [Option.map_eq_some_iff, placeNumbers, List.mem_finRange, true_and]
  obtain ⟨⟨-, bound⟩, one⟩ := foldl_max_spec (placeNumbers.filterMap (fun i => (st.consignmentAt i).map (·.number)) ++
      st.custodyTable.filterMap (fun x => x.2.consignment)) 0
  exact ⟨fun n hn => bound n ((mem n).2 hn), one.imp_right (mem _).1⟩


/-! ## The records of which there are few (R181) -/

section
variable (st : Store) (pending : List Instr) (x : Inputs)

/-- The configuration that a restart reads, and its defaults in numbers (R3, R33, R58, R59, R79). -/
theorem config_of_record {c : ConfigRecord} (h : st.content .config = some (.config c)) : st.config = c := by
  unfold Store.config; rw [h]

theorem config_of_damaged (h : st.content .config = none) : st.config = ConfigRecord.default := by
  unfold Store.config; rw [h]

theorem default_detector (d : Detector) :
    ConfigRecord.default.detectors[d] = ⟨some (if d.val < 3 then .vaultA else if d.val < 6 then .vaultB
      else if d.val < 9 then .staging else .hatch), .activeHigh⟩ := tabulate_get _ d

theorem default_descriptor (i : Fin 8) : ConfigRecord.default.descriptors[i] = ⟨false, 0, 0, .vaultA⟩ := tabulate_get _ i

theorem default_fire (a : Area) : ConfigRecord.default.fire.get a = ⟨.double, 30, 600⟩ := by cases a <;> rfl

theorem status_of_record {c : Cause} {f : DamageFlags} {m : Bool} (h : st.content .status = some (.status c f m)) :
    st.status = (c, f, m) := by
  unfold Store.status; rw [h]

theorem status_of_damaged (h : st.content .status = none) : st.status = (.powerOn, DamageFlags.clear, false) := by
  unfold Store.status; rw [h]

theorem restored_place (i : Fin 16) : (st.restored pending x).consign.places[i] = st.consignmentAt i := tabulate_get _ i

theorem consignmentAt_of_record {i : Fin 16} {c : Option Consignment}
    (h : st.content (.consignment i) = some (.consignment c)) : st.consignmentAt i = c := by
  unfold Store.consignmentAt; rw [h]

theorem consignmentAt_of_damaged {i : Fin 16} (h : st.content (.consignment i) = none) : st.consignmentAt i = none := by
  unfold Store.consignmentAt; rw [h]

theorem counter_of_record {n : Nat} (h : st.content .counter = some (.counter n)) : st.counter = n := by
  unfold Store.counter; rw [h]

theorem counter_of_damaged (h : st.content .counter = none) : st.counter = st.highestNumber := by
  unfold Store.counter; rw [h]

theorem restored_slot (n : Fin 32) : (st.restored pending x).staging.slots[n] = st.slotAt n := tabulate_get _ n

theorem slotAt_of_record {n : Fin 32} {y : StoredSlot} (h : st.content (.slot n) = some (.slot y)) :
    st.slotAt n = y.restored := by
  unfold Store.slotAt; rw [h]

theorem slotAt_of_damaged {n : Fin 32} (h : st.content (.slot n) = none) : st.slotAt n = .free := by
  unfold Store.slotAt; rw [h]

theorem hatchEntries_of_record {es : List StoredEntry} (h : st.content .hatchList = some (.hatchList es)) :
    st.hatchEntries = es.map StoredEntry.restored := by
  unfold Store.hatchEntries; rw [h]

theorem hatchEntries_of_damaged (h : st.content .hatchList = none) : st.hatchEntries = [] := by
  unfold Store.hatchEntries; rw [h]

theorem accumulator_of_record {a : Area} {n : Nat} (h : st.content (.accumulator a) = some (.accumulator n)) :
    st.accumulator a = n := by
  unfold Store.accumulator; rw [h]

theorem accumulator_of_damaged {a : Area} (h : st.content (.accumulator a) = none) : st.accumulator a = 0 := by
  unfold Store.accumulator; rw [h]

theorem fireFlags_of_record {a : Area} {d spent : Bool} (h : st.content (.fireFlags a) = some (.fireFlags d spent)) :
    st.fireFlags a = (d, spent) := by
  unfold Store.fireFlags; rw [h]

theorem fireFlags_of_damaged {a : Area} (h : st.content (.fireFlags a) = none) : st.fireFlags a = (false, true) := by
  unfold Store.fireFlags; rw [h]

theorem clock_of_record {c : Clock} (h : st.content .snapshot = some (.snapshot (some c))) : st.clock = c := by
  unfold Store.clock; rw [h]

theorem clock_of_none (h : st.content .snapshot = none ∨ st.content .snapshot = some (.snapshot none)) : st.clock = 0 := by
  unfold Store.clock
  rcases h with h | h <;> rw [h]

/-! ## The damage flags (R181) -/

theorem damaged_iff (r : StoreRecord) : st.damaged r = true ↔ st.content r = none := Option.isNone_iff_eq_none

theorem found_config : st.found.config = true ↔ st.content .config = none ∨ st.content .status = none := by
  rw [← damaged_iff, ← damaged_iff]
  exact Bool.or_eq_true_iff

theorem found_consign : st.found.consign = true ↔ ∃ i : Fin 16, st.content (.consignment i) = none := by
  simp only [Store.found, List.any_eq_true, damaged_iff, placeNumbers, List.mem_finRange, true_and]

theorem mem_areas (a : Area) : a ∈ Area.all := by cases a <;> decide

/-- A key entry that is damaged is listed, so that the places of the list are enough. -/
theorem found_dose : st.found.dose = true ↔
    (∃ p, p < Config.custodyPlaces ∧ st.content (.key p) = none) ∨ ∃ a, st.content (.accumulator a) = none := by
  simp only [Store.found, Bool.or_eq_true, List.any_eq_true, damaged_iff, mem_areas, true_and]
  refine or_congr_left ⟨fun ⟨p, hp, h⟩ => ⟨p, ((mem_keyPlaces st p).1 hp).1, h⟩, fun ⟨p, hp, h⟩ => ?_⟩
  exact ⟨p, mem_keyPlaces_of_content hp (by rw [h]; exact nofun), h⟩

end

end Sys2Proof.Machine
end

