-- ==== Sys2Proof/Proofs/RestartWrites.lean ====
section
/-! SUPPORT. What the writes of a restart leave in each cell of the store (R179, R181 to R184). -/

namespace Sys2Proof.Machine

/-! ## One write of a cell (R179) -/

/-- The count after a copy's is the newer of the two. -/
theorem newerCount_next {a : Nat} (h : a < 65536) :
    newerCount ((a + 1) % 65536) a = true ∧ newerCount a ((a + 1) % 65536) = false := by
  simp only [newerCount, Bool.and_eq_true, Bool.and_eq_false_iff, decide_eq_true_eq, decide_eq_false_iff_not]
  omega

/-- A write is read back. -/
theorem read_write {c : Cell} (h : c.first.count < 65536 ∧ c.second.count < 65536) (x : Content) :
    (c.write x).read = some x := by
  unfold Cell.write
  cases ho : c.firstOlder with
  | true =>
    have newer := (newerCount_next h.2).1
    simp only [if_true, Cell.read, Cell.firstOlder, sealed_good, sealed_content, sealed_count, newer]
    cases c.second.good <;> rfl
  | false =>
    have older := (newerCount_next h.1).2
    simp only [Bool.false_eq_true, if_false, Cell.read, Cell.firstOlder, sealed_good, sealed_content, sealed_count, older]
    cases c.first.good <;> rfl

/-- An erased custody record is read as none. -/
theorem read_erase (c : Cell) : c.erase.read = some (.custody none) := by
  simp only [Cell.read, Cell.erase, sealed_good, sealed_content]
  exact congrArg some (ite_self _)

theorem write_counts {c : Cell} (h : c.first.count < 65536 ∧ c.second.count < 65536) (x : Content) :
    (c.write x).first.count < 65536 ∧ (c.write x).second.count < 65536 := by
  have mod : ∀ n : Nat, n % 65536 < 65536 := fun n => Nat.mod_lt _ (by decide)
  unfold Cell.write
  split
  · exact ⟨mod _, h.2⟩
  · exact ⟨h.1, mod _⟩

/-! ## The records that a restart writes back (R181, R182) -/

/-- The blocks' contents do not depend on the cells. -/
theorem liveContent_cells (s : State) (cs : List (StoreRecord × Cell)) :
    ({ s with store := { s.store with cells := cs } }).liveContent = s.liveContent := by
  funext r; cases r <;> rfl

/-- A record's cell once it has been written back: as it was where it is read as its block holds it. -/
def State.syncedCell (s : State) (r : StoreRecord) : Cell :=
  if (s.store.cell r).read = some (s.liveContent r) then s.store.cell r
  else if s.liveContent r = .custody none then (s.store.cell r).erase else (s.store.cell r).write (s.liveContent r)

/-- It is read as its block holds it. -/
theorem syncedCell_read {s : State} (h : s.store.countsWithin) (r : StoreRecord) :
    (s.syncedCell r).read = some (s.liveContent r) := by
  unfold State.syncedCell
  split
  · assumption
  · split
    · rename_i he; rw [read_erase, he]
    · exact read_write (h r) _

theorem syncRecord_live (s : State) (r : StoreRecord) : (s.syncRecord r).liveContent = s.liveContent := by
  rw [syncRecord_frame, liveContent_cells]

theorem syncRecord_cell {s : State} (h : s.store.cellsHold) (r q : StoreRecord) :
    (s.syncRecord r).store.cell q = if q = r then s.syncedCell r else s.store.cell q := by
  unfold State.syncRecord State.syncedCell Store.content
  split
  · split
    · rename_i e; rw [e]
    · rfl
  · exact cell_writeNow h _ _ _

theorem syncRecord_wf {s : State} (h : s.store.cellsHold) (r : StoreRecord) : (s.syncRecord r).store.cellsHold := by
  unfold State.syncRecord
  split
  · exact h
  · exact writeNow_wf h _ _

/-- A second write-back of a record finds it as its block holds it (log 54). -/
theorem syncRecord_syncedCell {s : State} (h : s.store.cellsHold)
    (live : ∀ q, (s.syncedCell q).read = some (s.liveContent q)) (r q : StoreRecord) :
    (s.syncRecord r).syncedCell q = s.syncedCell q := by
  have cell := syncRecord_cell h r q
  by_cases hq : q = r
  · subst hq
    rw [if_pos rfl] at cell
    unfold State.syncedCell
    rw [syncRecord_live, cell, if_pos (live q)]
    rfl
  · rw [if_neg hq] at cell
    unfold State.syncedCell
    rw [syncRecord_live, cell]

/-- The records written back have their cells written at most once, and the others keep theirs (log 54). -/
theorem syncRecord_foldl_cell (rs : List StoreRecord) {s : State} (h : s.store.cellsHold)
    (live : ∀ q, (s.syncedCell q).read = some (s.liveContent q)) (q : StoreRecord) :
    (rs.foldl State.syncRecord s).store.cellsHold ∧
      (rs.foldl State.syncRecord s).store.cell q = if q ∈ rs then s.syncedCell q else s.store.cell q := by
  induction rs generalizing s with
  | nil => exact ⟨h, rfl⟩
  | cons r rs ih =>
    have synced := syncRecord_syncedCell h live r
    obtain ⟨wf, cell⟩ := ih (syncRecord_wf h r) fun q => by rw [synced, syncRecord_live]; exact live q
    refine ⟨wf, ?_⟩
    rw [List.foldl_cons, cell, synced, syncRecord_cell h]
    by_cases hq : q = r
    · subst hq; simp
    · simp [hq]

/-- The records of which there are few are those outside the custody table that a format writes. -/
theorem mem_fewRecords (r : StoreRecord) :
    r ∈ fewRecords ↔ r ≠ .snapshot ∧ r ≠ .status ∧ r.isCustodyTable = false := by
  cases r <;>
    simp [fewRecords, placeNumbers, slotNumbers, StoreRecord.isCustodyTable, mem_areas]

theorem mem_custodyRecords (st : Store) (r : StoreRecord) :
    r ∈ st.custodyRecords ↔
      ∃ p, (r = .custody p ∨ r = .key p) ∧ ∃ x ∈ st.cells, x.1 = .custody p ∨ x.1 = .key p := by
  have two : ∀ x : StoreRecord × Cell, (r ∈ match x.1 with
      | .custody p => [StoreRecord.custody p, .key p]
      | .key p => [.custody p, .key p]
      | _ => []) ↔ ∃ p, (r = .custody p ∨ r = .key p) ∧ (x.1 = .custody p ∨ x.1 = .key p) := by
    intro x
    cases hx : x.1 <;> simp
  unfold Store.custodyRecords
  rw [List.mem_flatMap]
  constructor
  · rintro ⟨x, hx, hr⟩
    obtain ⟨p, hp, hk⟩ := (two x).1 hr
    exact ⟨p, hp, x, hx, hk⟩
  · rintro ⟨p, hp, x, hx, hk⟩
    exact ⟨x, hx, (two x).2 ⟨p, hp, hk⟩⟩

/-- The blocks' custody records stand at places whose key entries are listed. -/
abbrev State.custodyListed (s : State) : Prop := ∀ p, (∀ x ∈ s.store.cells, x.1 ≠ .key p) → recordAt p s.custody = none

/-- What a restart's writes leave in each cell: the status is written, the snapshot left, and every other record
written back (R180 to R183; log 47). -/
theorem sync_cell {s : State} (h : s.store.cellsHold) (counts : s.store.countsWithin) (listed : s.custodyListed)
    (r : StoreRecord) :
    s.sync.store.cell r =
      if r = .status then (s.store.cell .status).write (s.liveContent .status)
      else if r = .snapshot then s.store.cell .snapshot else s.syncedCell r := by
  obtain ⟨wf, -⟩ := syncRecord_foldl_cell (s.store.custodyRecords ++ fewRecords) h (syncedCell_read counts) r
  have cell := fun q => (syncRecord_foldl_cell (s.store.custodyRecords ++ fewRecords) h (syncedCell_read counts) q).2
  have outside : ∀ q, q = .status ∨ q = .snapshot → q ∉ s.store.custodyRecords ++ fewRecords := by
    rintro q (rfl | rfl) hq <;> simp [mem_custodyRecords, mem_fewRecords] at hq
  have status : ((s.store.custodyRecords ++ fewRecords).foldl State.syncRecord s).liveContent .status =
      s.liveContent .status := by rw [syncRecord_foldl_frame]; rfl
  unfold State.sync State.writeStatus
  simp only []
  rw [cell_writeNow wf, status]
  by_cases hs : r = .status
  · have not_none : s.liveContent .status ≠ .custody none := nofun
    rw [if_pos hs, if_pos hs, if_neg not_none, cell, if_neg (outside _ (Or.inl rfl))]
  · rw [if_neg hs, if_neg hs, cell]
    by_cases hn : r = .snapshot
    · subst hn
      rw [if_pos rfl, if_neg (outside _ (Or.inr rfl))]
    · rw [if_neg hn]
      split
      · rfl
      · rename_i hr
        rw [List.mem_append, mem_fewRecords, not_or] at hr
        have table : r.isCustodyTable = true := by
          by_contra ht; exact hr.2 ⟨hn, hs, Bool.eq_false_iff.2 ht⟩
        obtain ⟨p, hp⟩ : ∃ p, r = .custody p ∨ r = .key p := by
          cases r with
          | custody p => exact ⟨p, Or.inl rfl⟩
          | key p => exact ⟨p, Or.inr rfl⟩
          | _ => cases table
        have unlisted : ∀ x ∈ s.store.cells, x.1 ≠ .custody p ∧ x.1 ≠ .key p := fun x hx =>
          not_or.1 fun hk => hr.1 ((mem_custodyRecords _ _).2 ⟨p, hp, x, hx, hk⟩)
        have free : recordAt p s.custody = none := listed p fun x hx => (unlisted x hx).2
        have content : s.store.content r = some (formattedContent r) := content_of_not_listed fun x hx => by
          rcases hp with rfl | rfl
          · exact (unlisted x hx).1
          · exact (unlisted x hx).2
        have same : (s.store.cell r).read = some (s.liveContent r) := by
          refine content.trans (congrArg some ?_)
          rcases hp with rfl | rfl <;> simp only [State.liveContent, formattedContent, free, Option.map_none]
        exact (if_pos same).symm

end Sys2Proof.Machine
end

