-- ==== Sys2Proof/Proofs/RestartStore.lean ====
section
/-! SUPPORT. A restart completes a format that its store is marked with, reads the store, and writes back what it
changed (R179 to R184). -/

namespace Sys2Proof.Machine

/-! ## The completed format (R184) -/

/-- Cells put one after another into an empty list. -/
theorem cellIn_putCells (base : Nat × Nat) (f : StoreRecord → Cell) (rs : List StoreRecord) (q : StoreRecord) :
    cellIn base (rs.foldl (fun cs r => putCell base r (f r) cs) []) q = if q ∈ rs then f q else defaultCell base q := by
  have put : ∀ (rs : List StoreRecord) (cs : List (StoreRecord × Cell)), cellsWf base cs = true →
      cellIn base (rs.foldl (fun cs r => putCell base r (f r) cs) cs) q = if q ∈ rs then f q else cellIn base cs q := by
    intro rs
    induction rs with
    | nil => intro cs _; rfl
    | cons r rs ih =>
      intro cs wf
      rw [List.foldl_cons, ih _ (putCell_wf wf r (f r)), cellIn_putCell wf]
      by_cases hq : q = r
      · subst hq; simp
      · simp [hq]
  exact put rs [] rfl

theorem formatFirst_le {r : StoreRecord} (h : r.formatted = true) : formatFirst ≤ r.addr := by
  cases r <;> simp only [StoreRecord.formatted, StoreRecord.addr, formatFirst, Bool.false_eq_true] at h ⊢ <;> omega

theorem defaultCell_of_formatted (base : Nat × Nat) {r : StoreRecord} (h : r.formatted = true) :
    defaultCell base r = ⟨Copy.sealed (formattedContent r) base.1, Copy.sealed (formattedContent r) base.2⟩ := by
  unfold defaultCell; rw [h]; rfl

/-- A default cell of a formatted record and the base of the store, written once more. -/
theorem defaultCell_write (base : Nat × Nat) {r : StoreRecord} (h : r.formatted = true) :
    (defaultCell base r).write (formattedContent r) = defaultCell (nextBase base) r := by
  rw [defaultCell_of_formatted _ h, defaultCell_of_formatted _ h, nextBase, defaultCell_of_formatted base rfl]
  by_cases newer : newerCount base.1 base.2 = true <;> simp [Cell.write, Cell.firstOlder, newer]

/-- A completed format writes every formatted record once, and leaves the clock snapshot and the status (R184). -/
theorem finishFormat_cell (st : Store) (r : StoreRecord) :
    (st.finishFormat formatFirst formattedContent).cell r =
      if r.formatted = true then (st.cell r).write (formattedContent r) else st.cell r := by
  have finished : st.finishedCell formatFirst formattedContent r =
      if r.formatted = true then (st.cell r).write (formattedContent r) else st.cell r := by
    unfold Store.finishedCell
    cases hf : r.formatted with
    | true => simp only [decide_eq_true (formatFirst_le hf), Bool.and_self, if_true]
    | false => rfl
  rw [← finished]
  refine (cellIn_putCells (nextBase st.base) (st.finishedCell formatFirst formattedContent)
    (st.namedRecords formatFirst) r).trans ?_
  split
  · rfl
  · rename_i hn
    have unlisted : ∀ x ∈ st.cells, x.1 ≠ r := fun x hx e =>
      hn (List.mem_append_left _ (List.mem_append_left _ (List.mem_map.2 ⟨x, hx, e⟩)))
    have table : r.formatted = true := by
      cases hf : r.formatted with
      | true => rfl
      | false =>
        refine absurd (List.mem_append_right _ ?_) hn
        cases r with
        | snapshot => decide
        | status => decide
        | _ => cases hf
    have default : st.cell r = defaultCell st.base r := cellIn_of_not_mem unlisted
    rw [finished, if_pos table, default, defaultCell_write _ table]

section
variable {st : Store}

theorem checked_of_marked (h : st.status.2.2 = true) : st.checked = st.finishFormat formatFirst formattedContent := by
  unfold Store.checked; rw [h]; rfl

theorem checked_cell (st : Store) (r : StoreRecord) :
    st.checked.cell r =
      if st.status.2.2 = true ∧ r.formatted = true then (st.cell r).write (formattedContent r) else st.cell r := by
  cases h : st.status.2.2 with
  | false => rw [checked_of_unmarked h]; rfl
  | true => rw [checked_of_marked h, finishFormat_cell]; simp

theorem checked_wf (h : st.cellsHold) : st.checked.cellsHold := by
  unfold Store.checked
  split
  · exact finishFormat_wf _ _ _
  · exact h

theorem checked_counts (h : st.countsWithin) : st.checked.countsWithin := by
  intro r
  rw [checked_cell]
  split
  · exact write_counts (h r) _
  · exact h r

/-- The clock snapshot is not a format's to write. -/
theorem checked_clock (st : Store) : st.checked.clock = st.clock := by
  have cell : st.checked.cell .snapshot = st.cell .snapshot := by
    rw [checked_cell]; exact if_neg fun h => Bool.false_ne_true h.2
  unfold Store.clock Store.content
  rw [cell]

/-- A completed format leaves every formatted record in its formatted form (R184). -/
theorem checked_content_of_marked (h : st.status.2.2 = true) (counts : st.countsWithin) {r : StoreRecord}
    (hr : r.formatted = true) : st.checked.content r = some (formattedContent r) := by
  unfold Store.content
  rw [checked_cell, if_pos ⟨h, hr⟩, read_write (counts r)]

/-! ## The cells after a restart (R180 to R183) -/

section
variable (cause : Cause) (st : Store) (pending : List Instr) (x : Inputs)

theorem restart_store_sync :
    (State.restart cause st pending x).store = (st.restartBlocks cause pending x).sync.store := by rw [restart_frame]

/-- The notices, the common outputs and the writes of a restart change no persisted field. -/
theorem restart_live : (State.restart cause st pending x).liveContent = (st.restartBlocks cause pending x).liveContent := by
  have stored : (State.restart cause st pending x).store =
      { (st.restartBlocks cause pending x).store with cells := (State.restart cause st pending x).store.cells } := by
    rw [restart_store_sync, sync_frame]
  have fire := restart_fire cause st pending x
  have blocks : (st.restartBlocks cause pending x).fire = (st.checked.restored pending x).fire := by
    rw [Store.restartBlocks, recovered_eq]
  rw [← blocks] at fire
  funext r
  cases r with
  | config =>
    have parts : (State.restart cause st pending x).configRecord = (st.restartBlocks cause pending x).configRecord := by
      unfold State.configRecord
      rw [fire, restart_frame]
    exact congrArg Content.config parts
  | fireFlags a => unfold State.liveContent; rw [fire]
  | status => unfold State.liveContent; rw [stored]
  | _ => unfold State.liveContent; rw [restart_frame]

theorem restartBlocks_cells : (st.restartBlocks cause pending x).store.cell = st.checked.cell := by
  rw [Store.restartBlocks, recovered_eq]; rfl

theorem restartBlocks_wf (h : st.cellsHold) : (st.restartBlocks cause pending x).store.cellsHold := by
  rw [Store.restartBlocks, recovered_eq]; exact checked_wf h

theorem restartBlocks_counts (h : st.countsWithin) : (st.restartBlocks cause pending x).store.countsWithin := by
  intro r; rw [restartBlocks_cells]; exact checked_counts h r

/-- A place of which the table has no record. -/
theorem recordAt_of_not_mem {p : Nat} {t : List (Nat × CustodyRecord)} (h : ∀ y ∈ t, y.1 ≠ p) : recordAt p t = none := by
  induction t with
  | nil => rfl
  | cons y ys ih =>
    unfold recordAt
    rw [if_neg (h y List.mem_cons_self), ih fun z hz => h z (List.mem_cons_of_mem _ hz)]

/-- The recovery moves no record to another place. -/
theorem recovered_custody_places (s : State) : s.recovered.custody.map (·.1) = s.custody.map (·.1) := by
  rw [recovered_custody, List.map_map]; rfl

theorem recovered_custody_labels (s : State) :
    (s.recovered.custody.map fun x => x.2.label) = s.custody.map fun x => x.2.label := by
  rw [recovered_custody, List.map_map]
  refine List.map_congr_left fun x _ => ?_
  simp only [Function.comp_apply]
  split <;> rfl

theorem restartBlocks_listed : (st.restartBlocks cause pending x).custodyListed := by
  intro p unlisted
  have cells : (st.restartBlocks cause pending x).store.cells = st.checked.cells := by
    rw [Store.restartBlocks, recovered_eq]; rfl
  rw [cells] at unlisted
  refine recordAt_of_not_mem fun y hy hp => ?_
  have places : (st.restartBlocks cause pending x).custody.map (·.1) = st.checked.custodyTable.map (·.1) := by
    simp only [Store.restartBlocks]
    exact recovered_custody_places (st.checked.restored pending x)
  have place : p ∈ (st.restartBlocks cause pending x).custody.map (·.1) := List.mem_map.2 ⟨y, hy, hp⟩
  rw [places] at place
  obtain ⟨z, hz, rfl⟩ := List.mem_map.1 place
  obtain ⟨hlt, r, hr, -⟩ := found_of_custodyTable hz
  obtain ⟨l, hl⟩ := key_of_custodyAt hr
  obtain ⟨c, hc, e⟩ := listed_of_content (st := st.checked) (r := .key z.1) (by rw [hl]; exact nofun)
  exact unlisted c hc e

variable {st}

/-- Each cell after a restart. -/
theorem restart_cell (h : st.cellsHold) (counts : st.countsWithin) (r : StoreRecord) :
    (State.restart cause st pending x).store.cell r =
      if r = .status then (st.cell .status).write (.status .powerOn st.restartFlags false)
      else if r = .snapshot then st.cell .snapshot else (st.restartBlocks cause pending x).syncedCell r := by
  have fixed : ∀ q : StoreRecord, q.formatted = false → st.checked.cell q = st.cell q := by
    intro q hq; rw [checked_cell, hq]; exact if_neg fun h => Bool.false_ne_true h.2
  have live : (st.restartBlocks cause pending x).liveContent .status = .status .powerOn st.restartFlags false := by
    rw [Store.restartBlocks, recovered_eq]; rfl
  rw [restart_store_sync, sync_cell (restartBlocks_wf cause st pending x h) (restartBlocks_counts cause st pending x counts)
    (restartBlocks_listed cause st pending x), live, restartBlocks_cells, fixed _ rfl, fixed _ rfl]

/-- Every record but the clock snapshot is read as its block holds it. -/
theorem restart_read (h : st.cellsHold) (counts : st.countsWithin) {r : StoreRecord} (hr : r ≠ .snapshot) :
    ((State.restart cause st pending x).store.cell r).read = some ((State.restart cause st pending x).liveContent r) := by
  rw [restart_cell cause pending x h counts, restart_live, if_neg hr]
  split
  · rename_i hs
    have live : (st.restartBlocks cause pending x).liveContent .status = .status .powerOn st.restartFlags false := by
      rw [Store.restartBlocks, recovered_eq]; rfl
    rw [hs, read_write (counts _), live]
  · exact syncedCell_read (restartBlocks_counts cause st pending x counts) r

end

/-! ## A restart on a marked store (R184) -/

/-- The configuration that the blocks restore is the one read. -/
theorem restored_configRecord (st : Store) (pending : List Instr) (x : Inputs) :
    (st.restored pending x).configRecord = st.config := by
  have fire : (st.restored pending x).fire.areas.map (·.settings) = st.config.fire := rfl
  have detectors : (tabulate fun d => ⟨(st.restored pending x).fire.detectors[d].assignment,
      (st.restored pending x).fire.detectors[d].polarity⟩ : Vector DetectorSettings 12) = st.config.detectors := by
    refine Vector.ext fun i hi => ?_
    have cell : ∀ d : Detector, (st.restored pending x).fire.detectors[d] = DetectorRecord.initial st.config.detectors[d] :=
      tabulate_get _
    exact (tabulate_get _ ⟨i, hi⟩).trans (by rw [cell]; rfl)
  unfold State.configRecord
  rw [fire, detectors]
  rfl

section
variable (cause : Cause) {st : Store} (pending : List Instr) (x : Inputs)

/-- The checks of a completed format find no consignment, no custody record, no entry, and every slot FREE (R184). -/
theorem checked_blocks_of_marked (h : st.status.2.2 = true) (counts : st.countsWithin) :
    (st.checked.restored pending x).custody = [] ∧ (∀ i : Fin 16, (st.checked.restored pending x).consign.places[i] = none) ∧
      (st.checked.restored pending x).hatch.entries = [] ∧
      ∀ n : Fin 32, (st.checked.restored pending x).staging.slots[n] = .free := by
  have content : ∀ r : StoreRecord, r.formatted = true → st.checked.content r = some (formattedContent r) :=
    fun r => checked_content_of_marked h counts
  refine ⟨List.eq_nil_iff_forall_not_mem.2 fun y hy => ?_, fun i => ?_, ?_, fun n => ?_⟩
  · obtain ⟨-, r, hr, -⟩ := found_of_custodyTable hy
    rw [custodyAt_of_free (Or.inr (content (.key y.1) rfl))] at hr
    cases hr
  · rw [restored_place]
    exact consignmentAt_of_record st.checked (content (.consignment i) rfl)
  · exact hatchEntries_of_record st.checked (content .hatchList rfl)
  · rw [restored_slot]
    exact slotAt_of_record st.checked (content (.slot n) rfl)

/-- In blocks without records, entries and consignments, and with every slot FREE, the recovery changes nothing that
is written (R182). -/
theorem recovered_live_of_empty {s : State} (custody : s.custody = []) (places : ∀ i : Fin 16, s.consign.places[i] = none)
    (entries : s.hatch.entries = []) (slots : ∀ n : Fin 32, s.staging.slots[n] = .free) :
    s.recovered.liveContent = s.liveContent := by
  have custody' : s.recovered.custody = s.custody := by rw [recovered_custody, custody]; rfl
  have entries' : s.recovered.hatch.entries = s.hatch.entries := by
    have list := recovered_entries s
    rw [custody, entries] at list
    exact list.trans entries.symm
  have slots' : ∀ n : Fin 32, s.recovered.staging.slots[n] = s.staging.slots[n] := by
    intro n
    have leaves : ¬ s.slotStays n := by
      rintro ⟨-, l, d, o, w, e, p, r, hs, -⟩
      rw [slots n] at hs; cases hs
    rw [slots n]
    refine recovered_slot_of_no_record leaves fun y hy => ?_
    rw [custody] at hy; cases hy
  have places' : ∀ i : Fin 16, s.recovered.consign.places[i] = s.consign.places[i] := fun i =>
    (recovered_place_of_none (places i)).trans (places i).symm
  have rest := recovered_eq s
  generalize s.recovered = t at *
  funext r
  cases r with
  | custody p => simp only [State.liveContent, custody']
  | key p => simp only [State.liveContent, custody']
  | consignment i => simp only [State.liveContent, places']
  | slot n => simp only [State.liveContent, slots']
  | hatchList => simp only [State.liveContent, entries']
  | config => simp only [State.liveContent, State.configRecord]; rw [rest]
  | _ => simp only [State.liveContent]; rw [rest]

/-- The cause, the damage flags and the recorded cause are the status's alone. -/
theorem liveContent_status_fields (s : State) (c d : Cause) (f : DamageFlags) {r : StoreRecord} (hr : r.formatted = true) :
    ({ s with store := { s.store with reported := c, recorded := d, flags := f } }).liveContent r = s.liveContent r := by
  cases r with
  | snapshot => cases hr
  | status => cases hr
  | _ => rfl

/-- The blocks as the checks of a completed format leave them hold every formatted record in its formatted form. -/
theorem restored_live_of_marked (h : st.status.2.2 = true) (counts : st.countsWithin) {r : StoreRecord}
    (hr : r.formatted = true) : (st.checked.restored pending x).liveContent r = formattedContent r := by
  have content : ∀ r : StoreRecord, r.formatted = true → st.checked.content r = some (formattedContent r) :=
    fun r => checked_content_of_marked h counts
  obtain ⟨custody, places, entries, slots⟩ := checked_blocks_of_marked pending x h counts
  cases r with
  | config =>
    simp only [State.liveContent, restored_configRecord]
    exact congrArg Content.config (config_of_record _ (content .config rfl))
  | custody p => simp only [State.liveContent, custody]; rfl
  | key p => simp only [State.liveContent, custody]; rfl
  | consignment i => simp only [State.liveContent, places]; rfl
  | counter => exact congrArg Content.counter (counter_of_record _ (content .counter rfl))
  | slot n => simp only [State.liveContent, slots]; rfl
  | hatchList => simp only [State.liveContent, entries]; rfl
  | accumulator a =>
    have value : (st.checked.restored pending x).accumulators.get a = st.checked.accumulator a := perArea_get _ a
    simp only [State.liveContent, value]
    exact congrArg Content.accumulator (accumulator_of_record _ (content (.accumulator a) rfl))
  | fireFlags a =>
    have area : (st.checked.restored pending x).fire.areas.get a =
        FireArea.restored (st.checked.fireFlags a) (st.checked.config.fire.get a) := perArea_get _ a
    have flags : st.checked.fireFlags a = (false, false) := fireFlags_of_record _ (content (.fireFlags a) rfl)
    simp only [State.liveContent, area, flags]
    rfl
  | snapshot => cases hr
  | status => cases hr

/-- After a restart that completed a format the blocks hold every formatted record in its formatted form (R184). -/
theorem restart_live_of_marked (h : st.status.2.2 = true) (counts : st.countsWithin) {r : StoreRecord}
    (hr : r.formatted = true) : (State.restart cause st pending x).liveContent r = formattedContent r := by
  obtain ⟨custody, places, entries, slots⟩ := checked_blocks_of_marked pending x h counts
  rw [restart_live, Store.restartBlocks]
  simp only []
  rw [liveContent_status_fields _ _ _ _ hr, recovered_live_of_empty custody places entries slots]
  exact restored_live_of_marked pending x h counts hr

/-- It sends no CONSIGN_STATE: RESTARTED stands at the head of each queue, and FORMAT_DONE behind it (R178, R184). -/
theorem restart_link_of_marked (h : st.status.2.2 = true) (counts : st.countsWithin) (p : Port) :
    (State.restart cause st pending x).link p =
      { Link.initial p with notices := [⟨st.clock, .restarted cause DamageFlags.clear⟩, ⟨st.clock, .formatDone⟩] } := by
  have none_changed : st.changeNotices cause pending x = [] := by
    obtain ⟨-, places, -⟩ := checked_blocks_of_marked pending x h counts
    unfold Store.changeNotices
    rw [List.map_eq_nil_iff, List.filterMap_eq_nil_iff]
    intro i _
    unfold changeNotice
    rw [places i]
  have flags : st.restartFlags = DamageFlags.clear := by unfold Store.restartFlags; rw [h]; rfl
  have noticed := restartNoticed_link cause st pending x p
  rw [h, flags, checked_clock] at noticed
  rw [restart_link, none_changed, List.foldl_nil, ite_self, noticed]
  rfl

end

end
end Sys2Proof.Machine
end

