-- ==== Sys2Proof/Proofs/RestartReads.lean ====
section
/-! SUPPORT. What a restart reads from its store, and what it writes back (R135, R179, R181 to R184). -/

namespace Sys2Proof.Machine

/-! ## What a restart reads -/

section
variable (st : Store) (pending : List Instr) (x : Inputs)

/-- The custody table that the checks leave of a store in canonical form (R82, R102, R181). -/
theorem custodyTable_reads (h : st.cellsHold) :
    (∀ y ∈ st.custodyTable, y.1 < 2048) ∧ (st.custodyTable.map fun y => y.2.label).Nodup ∧
      (∀ p, p < 2048 → st.custodyAt p = none → recordAt p st.custodyTable = none) ∧
      (∀ p r, p < 2048 → st.custodyAt p = some r → (∀ q r', q ≠ p → st.custodyAt q = some r' → r'.label ≠ r.label) →
        recordAt p st.custodyTable = some
          (if r.area.any fun a => (st.content (.accumulator a)).isNone then { r with inspect := true, mark := some 0 }
           else r)) ∧
      ∀ p r, p < 2048 → st.custodyAt p = some r → ∃ y ∈ st.custodyTable, y.2.label = r.label :=
  ⟨fun _ hy => (found_of_custodyTable hy).1, custodyTable_labels st, fun _ _ hp => custodyTable_free h hp,
    fun _ r hp hr alone => (custodyTable_alone h hp hr alone).trans (congrArg some (remark_eq st r)),
    fun _ _ hp hr => custodyTable_label hp hr⟩

/-- The counter of a damaged record bounds every number carried, and is one of them or 0 (R181). -/
theorem counter_reads (h : st.content .counter = none) :
    let carried := fun n => (∃ (i : Fin 16) (c : Consignment), (st.restored pending x).consign.places[i] = some c ∧
      c.number = n) ∨ ∃ y ∈ st.custodyTable, y.2.consignment = some n
    (∀ n, carried n → n ≤ st.counter) ∧ (st.counter = 0 ∨ carried st.counter) := by
  intro carried
  have same : ∀ n, carried n ↔ st.carries n := fun n =>
    or_congr_left (exists_congr fun i => by rw [restored_place])
  rw [counter_of_damaged st h]
  obtain ⟨bound, one⟩ := highestNumber_spec st
  exact ⟨fun n hn => bound n ((same n).1 hn), one.imp_right (same _).2⟩

/-- A slot after the checks, before the recovery (R69, R120, R181). -/
theorem slot_reads (n : Fin 32) :
    (st.content (.slot n) = some (.slot .free) ∨ st.content (.slot n) = none →
      (st.restored pending x).staging.slots[n] = .free) ∧
    (∀ l o, st.content (.slot n) = some (.slot (.reserved l o)) →
      (st.restored pending x).staging.slots[n] = .reserved l o 0) ∧
    ∀ l d o, st.content (.slot n) = some (.slot (.occupied l d o)) →
      (st.restored pending x).staging.slots[n] = .occupied l d o 0 none := by
  rw [restored_slot]
  refine ⟨?_, fun l o h => slotAt_of_record st h, fun l d o h => slotAt_of_record st h⟩
  rintro (h | h)
  · exact slotAt_of_record st h
  · exact slotAt_of_damaged st h

end

/-! ## What a restart writes back -/

section
variable (cause : Cause) {st : Store} (pending : List Instr) (x : Inputs)

theorem restart_labels (st : Store) : ((State.restart cause st pending x).custody.map fun y => y.2.label).Nodup := by
  rw [restart_custody, recovered_custody_labels]
  exact custodyTable_labels _

theorem restart_flags (st : Store) : (State.restart cause st pending x).store.flags = st.restartFlags := by
  rw [restart_store]

/-- A restart on a store without a format mark writes back each record that it changed or found damaged, and no other
(log 54). -/
theorem restart_cell_of_unmarked (wf : st.cellsHold) (counts : st.countsWithin) (h : st.status.2.2 = false)
    {r : StoreRecord} (hn : r ≠ .snapshot) (hs : r ≠ .status) :
    (State.restart cause st pending x).store.cell r =
      if (st.cell r).read = some ((State.restart cause st pending x).liveContent r) then st.cell r
      else if (State.restart cause st pending x).liveContent r = .custody none then (st.cell r).erase
      else (st.cell r).write ((State.restart cause st pending x).liveContent r) := by
  rw [restart_cell cause pending x wf counts, if_neg hs, if_neg hn, restart_live, State.syncedCell, restartBlocks_cells,
    checked_of_unmarked h]

/-- A restart on a store with a format mark leaves the part formatted (R184). -/
theorem restart_of_marked (counts : st.countsWithin) (h : st.status.2.2 = true) :
    let t := State.restart cause st pending x
    (∀ r : StoreRecord, r.formatted = true → t.liveContent r = formattedContent r) ∧
      t.custody = [] ∧ t.store.flags = ⟨false, false, false⟩ ∧ t.store.reported = cause ∧
      ∀ p : Port, (t.link p).sending = none ∧
        (t.link p).notices = ⟨st.clock, .restarted cause ⟨false, false, false⟩⟩ ::
          if (t.link p).mask.getLsbD 0 = true then [⟨st.clock, .formatDone⟩] else [] := by
  intro t
  obtain ⟨custody, -⟩ := checked_blocks_of_marked pending x h counts
  refine ⟨fun r hr => restart_live_of_marked cause pending x h counts hr, ?_, ?_, ?_, fun p => ?_⟩
  · exact (restart_custody cause st pending x).trans (by rw [recovered_custody, custody]; rfl)
  · exact (restart_flags cause pending x st).trans (by unfold Store.restartFlags; rw [h]; rfl)
  · exact congrArg Store.reported (restart_store cause st pending x)
  · have link : t.link p = _ := restart_link_of_marked cause pending x h counts p
    rw [link]
    exact ⟨rfl, congrArg (List.cons _) (if_pos (defaultMask_system p)).symm⟩

end

/-- Settles O55: each part of the checks by the lemma on its record, and the writes by the cell that each leaves. -/
theorem restartReadsTheStore : Obligations.RestartReadsTheStore := by
  unfold Obligations.RestartReadsTheStore
  refine ⟨fun st pending x => ?_, fun cause st pending x => ?_, fun r => by cases r <;> rfl⟩
  · intro b read
    refine ⟨⟨fun c => config_of_record st, fun h => ?_⟩, ⟨fun c f m => status_of_record st, status_of_damaged st⟩,
      fun p => ⟨fun l r => custodyAt_of_record, fun l => custodyAt_of_damaged, custodyAt_of_free⟩, custodyTable_reads st,
      fun i => ?_, ⟨fun n => counter_of_record st, counter_reads st pending x⟩, slot_reads st pending x,
      ⟨fun es => hatchEntries_of_record st, hatchEntries_of_damaged st⟩,
      fun a => ⟨fun n => accumulator_of_record st, accumulator_of_damaged st, fun d spent => fireFlags_of_record st,
        fireFlags_of_damaged st⟩,
      ⟨fun c => clock_of_record st, clock_of_none st⟩, found_config st, found_consign st, found_dose st⟩
    · rw [config_of_damaged st h]
      exact ⟨default_descriptor, rfl, rfl, default_fire, default_detector⟩
    · rw [restored_place]
      exact ⟨fun c => consignmentAt_of_record st, consignmentAt_of_damaged st⟩
  · intro t
    refine ⟨restart_labels cause pending x st, fun wf counts => ⟨fun r => restart_read cause pending x wf counts, ?_, ?_,
      fun h r => restart_cell_of_unmarked cause pending x wf counts h, restart_of_marked cause pending x counts⟩⟩
    · exact restart_cell cause pending x wf counts .snapshot
    · rw [show t.store.flags = st.restartFlags from restart_flags cause pending x st]
      exact restart_cell cause pending x wf counts .status

end Sys2Proof.Machine
end

