-- ==== Sys2Proof/Proofs/RezoneSweep.lean ====
section
/-! SUPPORT. The rezone sweep: which record it reaches next, what it makes of it, and when it ends (R6, R75). -/

namespace Sys2Proof.Machine

theorem exec_rezoneSweepStep {s : State} (h : s.power = .running) : exec .rezoneSweepStep s = .next s.rezoneStep :=
  congrArg Host.Outcome.next (event_running State.rezoneStep h)

theorem exec_rezoneDone {s : State} (h : s.power = .running) : exec .rezoneDone s = .next s.rezoneEnd :=
  congrArg Host.Outcome.next (event_running State.rezoneEnd h)

/-! ## Records that carry a location (R6, R85) -/

theorem shelved_eq (c : CustodyState) : c.shelved = (c == .inVault || c == .requested || c == .picking) := by
  cases c <;> rfl

theorem shelved_iff (c : CustodyState) : c.shelved = true ↔ c = .inVault ∨ c = .requested ∨ c = .picking := by
  cases c <;> simp [CustodyState.shelved]

/-- A record that carries a location agrees with the descriptors: it stands in the area of its location (R6). -/
abbrev CustodyRecord.agrees (ds : Vector Descriptor 8) (r : CustodyRecord) : Prop :=
  (r.state = .inVault ∨ r.state = .requested ∨ r.state = .picking) →
    ∀ l, r.location = some l → r.area = some (resolveLocation ds l)

theorem nextShelved_eq (s : State) (k : Nat) :
    s.nextShelved k = s.custody.find? fun x => decide (k ≤ x.1) && (x.2.state == .inVault || x.2.state == .requested ||
      x.2.state == .picking) := by
  simp only [State.nextShelved, shelved_eq]

theorem nextShelved_eq_none {s : State} {k : Nat} :
    s.nextShelved k = none ↔
      ∀ x ∈ s.custody, k ≤ x.1 → ¬ (x.2.state = .inVault ∨ x.2.state = .requested ∨ x.2.state = .picking) := by
  simp only [State.nextShelved, List.find?_eq_none, Bool.and_eq_true, decide_eq_true_eq, not_and, shelved_iff]

/-- The next record carries a location and stands at or above the sweep's place, and every other such record stands
above it. -/
theorem nextShelved_eq_some {s : State} {k p : Nat} {r : CustodyRecord} (wf : custodyWf s.custody = true)
    (h : s.nextShelved k = some (p, r)) :
    (p, r) ∈ s.custody ∧ k ≤ p ∧
      ∀ x ∈ s.custody, k ≤ x.1 → x.1 < p → ¬ (x.2.state = .inVault ∨ x.2.state = .requested ∨ x.2.state = .picking) := by
  obtain ⟨rises, -⟩ := (custodyWf_iff _).1 wf
  obtain ⟨found, before, after, table, earlier⟩ := List.find?_eq_some_iff_append.1 h
  simp only [Bool.and_eq_true, decide_eq_true_eq] at found
  refine ⟨by rw [table]; simp, found.1, fun x hx hk hlt hs => ?_⟩
  rw [table] at hx rises
  rcases List.mem_append.1 hx with hb | ha
  · have skipped := earlier x hb
    rw [decide_eq_true hk, (shelved_iff _).2 hs] at skipped
    cases skipped
  · have later : p ≤ x.1 := by
      rcases List.mem_cons.1 ha with rfl | ha
      · exact Nat.le_refl _
      · exact Nat.le_of_lt ((List.pairwise_cons.1 (List.pairwise_append.1 rises).2.1).1 x ha)
    omega

/-! ## A step of the sweep -/

/-- A settled record: the effective dose, the mark of the new area, and INSPECT evaluated (R75, R78). -/
theorem settled_eq (s : State) (after : Option Area) (r : CustodyRecord) :
    s.settled after r = { r with storedDose := effectiveDose s.accumulators r, mark := after.map s.accumulators.get,
                                 inspect := r.inspect || s.overDose r } := by
  unfold State.settled State.evaluated State.doseOf
  cases s.overDose r <;> simp

theorem rezoneRecord_of_agrees {s : State} {p : Nat} {r : CustodyRecord}
    (h : ∀ l, r.location = some l → r.area = some (s.resolve l)) : s.rezoneRecord p r = s := by
  unfold State.rezoneRecord
  split
  · rfl
  · rename_i l hl; exact if_pos (h l hl)

theorem rezoneRecord_of_changed {s : State} {p : Nat} {r : CustodyRecord} {l : Location} (hl : r.location = some l)
    (h : r.area ≠ some (s.resolve l)) :
    s.rezoneRecord p r = s.putRecord p
      { r with area := some (s.resolve l), storedDose := effectiveDose s.accumulators r,
               mark := some (s.accumulators.get (s.resolve l)), inspect := r.inspect || s.overDose r } := by
  unfold State.rezoneRecord
  split
  · rename_i hn; rw [hl] at hn; cases hn
  · rename_i l' hl'
    rw [hl] at hl'
    cases hl'
    rw [if_neg h, settled_eq]
    rfl

theorem rezoneRecord_vault (s : State) (p : Nat) (r : CustodyRecord) : (s.rezoneRecord p r).vault = s.vault := by
  unfold State.rezoneRecord
  split
  · rfl
  · split
    · rfl
    · exact putRecord_vault _ _ _

/-- The sweep's work leaves the other places, and a record that agrees at its own (R6). -/
theorem rezoneRecord_custody {s : State} {p : Nat} {r : CustodyRecord} (wf : custodyWf s.custody = true)
    (hr : (p, r) ∈ s.custody) {x : Nat × CustodyRecord} (hx : x ∈ (s.rezoneRecord p r).custody) :
    (x ∈ s.custody ∧ x.1 ≠ p) ∨ (x.1 = p ∧ x.2.agrees s.vault.descriptors) := by
  obtain ⟨rises, -⟩ := (custodyWf_iff _).1 wf
  by_cases agrees : ∀ l, r.location = some l → r.area = some (s.resolve l)
  · rw [rezoneRecord_of_agrees agrees] at hx
    by_cases hp : x.1 = p
    · have same : x.2 = r := Option.some.inj (((recordAt_iff rises p x.2).2 (by rw [← hp]; exact hx)).symm.trans
        ((recordAt_iff rises p r).2 hr))
      exact Or.inr ⟨hp, fun _ => by rw [same]; exact agrees⟩
    · exact Or.inl ⟨hx, hp⟩
  · simp only [not_forall] at agrees
    obtain ⟨l, hl, changed⟩ := agrees
    rw [rezoneRecord_of_changed hl changed, putRecord_custody, mem_placeRecord _ _ _ rises] at hx
    rcases hx with hx | rfl
    · exact Or.inl hx
    · refine Or.inr ⟨rfl, fun _ l' hl' => ?_⟩
      rw [hl] at hl'
      cases hl'
      rfl

theorem rezoneStep_of_some {s : State} {k p : Nat} {r : CustodyRecord} (hk : s.vault.rezone = some k)
    (h : s.nextShelved k = some (p, r)) :
    s.rezoneStep = { s.rezoneRecord p r with vault := { (s.rezoneRecord p r).vault with rezone := some (p + 1) } } := by
  unfold State.rezoneStep
  rw [hk]
  simp only [h]

theorem rezoneStep_of_none {s : State} {k : Nat} (hk : s.vault.rezone = some k) (h : s.nextShelved k = none) :
    s.rezoneStep = s := by
  unfold State.rezoneStep
  rw [hk]
  simp only [h]

theorem rezoneStep_of_idle {s : State} (h : s.vault.rezone = none) : s.rezoneStep = s := by
  unfold State.rezoneStep; rw [h]

/-- The records below the sweep's place agree with the descriptors, before a step and after it (R6). -/
theorem rezoneStep_agrees {s : State} {k : Nat} (hk : s.vault.rezone = some k) (wf : custodyWf s.custody = true)
    (passed : ∀ x ∈ s.custody, x.1 < k → x.2.agrees s.vault.descriptors) :
    ∃ k', s.rezoneStep.vault.rezone = some k' ∧ k ≤ k' ∧
      ∀ x ∈ s.rezoneStep.custody, x.1 < k' → x.2.agrees s.rezoneStep.vault.descriptors := by
  cases hn : s.nextShelved k with
  | none => rw [rezoneStep_of_none hk hn]; exact ⟨k, hk, Nat.le_refl _, passed⟩
  | some y =>
    obtain ⟨p, r⟩ := y
    obtain ⟨hr, hkp, between⟩ := nextShelved_eq_some wf hn
    rw [rezoneStep_of_some hk hn]
    refine ⟨p + 1, rfl, by omega, fun x hx hlt => ?_⟩
    simp only [rezoneRecord_vault]
    rcases rezoneRecord_custody wf hr hx with ⟨hx, hp⟩ | ⟨-, agrees⟩
    · by_cases hlow : x.1 < k
      · exact passed x hx hlow
      · exact fun hs => absurd hs (between x hx (by omega) (by omega))
    · exact agrees

/-- A sweep on a table whose records agree changes no record and hands none to the store (R6, R8). -/
theorem rezoneStep_of_agrees {s : State} (agrees : ∀ x ∈ s.custody, x.2.agrees s.vault.descriptors) :
    s.rezoneStep.custody = s.custody ∧ s.rezoneStep.store = s.store := by
  cases hk : s.vault.rezone with
  | none => rw [rezoneStep_of_idle hk]; exact ⟨rfl, rfl⟩
  | some k =>
    cases hn : s.nextShelved k with
    | none => rw [rezoneStep_of_none hk hn]; exact ⟨rfl, rfl⟩
    | some y =>
      have found := List.find?_some hn
      simp only [Bool.and_eq_true] at found
      have at_rest := agrees y (List.mem_of_find?_eq_some hn) ((shelved_iff _).1 found.2)
      rw [rezoneStep_of_some hk hn, rezoneRecord_of_agrees at_rest]
      exact ⟨rfl, rfl⟩

/-! ## The end of the sweep -/

/-- No write of the custody table is in flight or waits (R179). -/
theorem custodyWriting_eq_false (st : Store) :
    st.custodyWriting = false ↔
      ∀ j ∈ st.inflight.toList ++ st.queue, ∀ p, j.record ≠ .custody p ∧ j.record ≠ .key p := by
  unfold Store.custodyWriting
  rw [List.any_eq_false]
  refine forall₂_congr fun j _ => ?_
  cases j.record <;> simp [StoreRecord.isCustodyTable]

theorem rezoneEnd_of_done {s : State} {k : Nat} (hk : s.vault.rezone = some k) (hn : s.nextShelved k = none)
    (hw : s.store.custodyWriting = false) :
    s.rezoneEnd = ({ s with vault := { s.vault with rezone := none } }).notify [] .rezoneDone := by
  unfold State.rezoneEnd
  rw [hk]
  simp only [hn, hw, Option.isSome_none, Bool.or_self, Bool.false_eq_true, if_false]

theorem rezoneEnd_of_writing {s : State} (hw : s.store.custodyWriting = true) : s.rezoneEnd = s := by
  unfold State.rezoneEnd
  split
  · rfl
  · exact if_pos (by rw [hw, Bool.or_true])

theorem rezoneEnd_of_next {s : State} {k : Nat} (hk : s.vault.rezone = some k) (hn : (s.nextShelved k).isSome = true) :
    s.rezoneEnd = s := by
  unfold State.rezoneEnd
  rw [hk]
  simp only [hn, Bool.true_or, if_true]

theorem rezoneEnd_of_idle {s : State} (h : s.vault.rezone = none) : s.rezoneEnd = s := by
  unfold State.rezoneEnd; rw [h]

end Sys2Proof.Machine
end

