-- ==== Sys2Proof/Proofs/RezoneRestart.lean ====
section
/-! SUPPORT. After an uninterrupted rezone the restart sweep changes no record (R8). -/

namespace Sys2Proof.Machine

/-! ## The supply fails at the end of a sweep (R8, R179, R180) -/

theorem tear_counts {c : Cell} (h : c.first.count < 65536 ∧ c.second.count < 65536) :
    c.tear.first.count < 65536 ∧ c.tear.second.count < 65536 := by
  unfold Cell.tear
  split <;> exact h

/-- Cutting a write short touches the cell of its record alone. -/
theorem cutShort_cell {st : Store} (wf : st.cellsHold) (hf : st.format = .none) (r : StoreRecord) :
    st.cutShort.cell r = if (st.inflight.any fun j => j.record == r) = true then (st.cell r).tear else st.cell r := by
  unfold Store.cutShort
  rw [hf]
  cases hj : st.inflight with
  | none => rfl
  | some j =>
    simp only [Option.any_some, beq_iff_eq]
    rw [cell_setCell wf]
    by_cases hr : r = j.record
    · rw [if_pos hr, if_pos hr.symm, hr]
    · rw [if_neg hr, if_neg fun e => hr e.symm]

/-- With no write of the custody table in flight, the supply leaves its cells whole (R179). -/
theorem cutShort_cell_of_table {st : Store} (wf : st.cellsHold) (hf : st.format = .none)
    (hw : st.custodyWriting = false) {r : StoreRecord} (hr : r.isCustodyTable = true) : st.cutShort.cell r = st.cell r := by
  rw [cutShort_cell wf hf]
  refine if_neg fun hj => ?_
  unfold Store.custodyWriting at hw
  rw [List.any_append, Bool.or_eq_false_iff] at hw
  cases he : st.inflight with
  | none => rw [he] at hj; cases hj
  | some j =>
    rw [he] at hw hj
    have table := List.any_eq_false.1 hw.1 j (List.mem_singleton_self j)
    rw [eq_of_beq (show (j.record == r) = true from hj)] at table
    exact table hr

theorem cutShort_counts {st : Store} (wf : st.cellsHold) (hf : st.format = .none) (counts : st.countsWithin) :
    st.cutShort.countsWithin := by
  intro r
  rw [cutShort_cell wf hf]
  split
  · exact tear_counts (counts r)
  · exact counts r

/-- A store made quiet keeps its cells. -/
theorem quiet_cell (st : Store) : st.quiet.cell = st.cell := rfl

/-- A custody place whose record and key entry are read as the blocks hold them gives back the record (R181). -/
theorem custodyAt_of_live {st : Store} {s : State} {p : Nat} (hk : st.content (.key p) = some (s.liveContent (.key p)))
    (hr : st.content (.custody p) = some (s.liveContent (.custody p))) : st.custodyAt p = recordAt p s.custody := by
  cases h : recordAt p s.custody with
  | none => exact custodyAt_of_free (Or.inr (by rw [hk]; simp only [State.liveContent, h, Option.map_none]))
  | some r =>
    refine custodyAt_of_record (l := r.label) ?_ ?_
    · rw [hk]; simp only [State.liveContent, h, Option.map_some]
    · rw [hr]; simp only [State.liveContent, h]

/-! ## The restart behind it (R8) -/

/-- A restart that brings back a location-bearing record has read the descriptors from its store, and brings the record
back with the location and the area it was found with (R181, R182). -/
theorem restart_shelved {cause : Cause} {st : Store} {pending : List Instr} {i : Inputs} (counts : st.countsWithin)
    {x : Nat × CustodyRecord} (hx : x ∈ (State.restart cause st pending i).custody)
    (hs : x.2.state = .inVault ∨ x.2.state = .requested ∨ x.2.state = .picking) :
    (State.restart cause st pending i).vault.descriptors = st.config.descriptors ∧ x.1 < Config.custodyPlaces ∧ ∃ r, st.custodyAt x.1 = some r ∧
      (r.state = .inVault ∨ r.state = .requested ∨ r.state = .picking) ∧ x.2.location = r.location ∧ x.2.area = r.area := by
  cases hm : st.status.2.2 with
  | true =>
    have none_left : (State.restart cause st pending i).custody = [] := (restart_of_marked cause pending i counts hm).2.1
    rw [none_left] at hx
    cases hx
  | false =>
    rw [restart_custody, checked_of_unmarked hm, recovered_custody] at hx
    obtain ⟨y, hy, rfl⟩ := List.mem_map.1 hx
    obtain ⟨hp, r, hr, hy2⟩ := found_of_custodyTable hy
    obtain ⟨-, state, location, area⟩ := remark_keeps st r
    rw [← hy2] at state location area
    refine ⟨by rw [restart_vault, checked_of_unmarked hm]; rfl, hp, r, hr, ?_⟩
    rw [← state, ← location, ← area]
    by_cases pending : y.2.state ∈ [CustodyState.requested, .picking]
    · simp only [if_pos pending, and_true]
      exact Or.inr (by simpa using pending)
    · simp only [if_neg pending, and_true] at hs ⊢
      exact hs

/-- The restart after a loss of supply at the end of a sweep brings back the records that the table held (R8). -/
theorem restart_after_rezone {k : Nat} {s : State} (hp : s.power = .running) (hk : s.vault.rezone = some k)
    (tables : s.tablesCanonical = true) (follows : s.storeFollows) (hf : s.store.format = .none)
    (ended : s.rezoneEnd.vault.rezone = none) {st : Store} (cells : st.cell = s.store.cutShort.cell)
    (pending : List Instr) (i : Inputs) {x : Nat × CustodyRecord} (hx : x ∈ (State.restart .powerOn st pending i).custody)
    (hs : x.2.state = .inVault ∨ x.2.state = .requested ∨ x.2.state = .picking) :
    (State.restart .powerOn st pending i).vault.descriptors = st.config.descriptors ∧
      ∃ r, (x.1, r) ∈ s.custody ∧ (r.state = .inVault ∨ r.state = .requested ∨ r.state = .picking) ∧
        x.2.location = r.location ∧ x.2.area = r.area := by
  simp only [State.tablesCanonical, Bool.and_eq_true] at tables
  obtain ⟨⟨⟨wf, custody⟩, -⟩, -⟩ := tables
  obtain ⟨-, quiet, -⟩ := rezoneEnd_ends hk ended
  have counts : st.countsWithin := by intro r; rw [cells]; exact cutShort_counts wf hf follows.1 r
  obtain ⟨descriptors, hlt, r, hr, shelved, location, area⟩ := restart_shelved counts hx hs
  have content : ∀ q : StoreRecord, q.isCustodyTable = true → q.wf = true → st.content q = some (s.liveContent q) := by
    intro q hq hw
    rw [Store.content, cells, cutShort_cell_of_table wf hf quiet hq]
    exact rezoneEnd_stored hk hp hf follows ended hq hw
  rw [custodyAt_of_live (content (.key x.1) rfl (decide_eq_true hlt)) (content (.custody x.1) rfl (decide_eq_true hlt))] at hr
  exact ⟨descriptors, r, (recordAt_iff ((custodyWf_iff _).1 custody).1 x.1 r).1 hr, shelved, location, area⟩

theorem loseSupply_store {s : State} (h : s.power = .running) : s.loseSupply.store = s.store.cutShort.quiet := by
  unfold State.loseSupply
  rw [if_neg (by rw [h]; decide)]

theorem loseSupply_power (s : State) : s.loseSupply.power = .off := by
  unfold State.loseSupply
  split
  · assumption
  · rfl

/-- The supply rises on a part that has lost it (R180). -/
theorem exec_powerOn_of_off {w : State} (h : w.power = .off) :
    exec (.powerOn []) w = .next (State.restart .powerOn w.store w.pending w.inputs) := by
  have lost : w.loseSupply = w := if_pos h
  have exec_eq : exec (.powerOn []) w =
      .next (State.restart .powerOn (w.loseSupply.store.spoil []) w.loseSupply.pending w.loseSupply.inputs) := rfl
  rw [exec_eq, lost]
  rfl

/-- The restart sweep behind an uninterrupted rezone finds every record in agreement (R8). -/
theorem restart_sweep_of_rezone {k : Nat} {s t w : State} (hp : s.power = .running) (hk : s.vault.rezone = some k)
    (tables : s.tablesCanonical = true) (follows : s.storeFollows) (hf : s.store.format = .none)
    (passed : ∀ x ∈ s.custody, x.1 < k → x.2.agrees s.vault.descriptors) (done : exec .rezoneDone s = .next t)
    (ended : t.vault.rezone = none) (lost : exec .lossOfSupply t = .next w)
    (config : w.store.config.descriptors = s.vault.descriptors) :
    ∃ u, exec (.powerOn []) w = .next u ∧
      (∀ x ∈ u.custody, (x.2.state = .inVault ∨ x.2.state = .requested ∨ x.2.state = .picking) →
        x.2.agrees u.vault.descriptors ∧
        ∃ r, (x.1, r) ∈ s.custody ∧ (r.state = .inVault ∨ r.state = .requested ∨ r.state = .picking) ∧
          x.2.location = r.location ∧ x.2.area = r.area) ∧
      ∀ v v' : State, v.custody = u.custody → v.vault.descriptors = u.vault.descriptors →
        exec .rezoneSweepStep v = .next v' → v'.custody = v.custody ∧ v'.store = v.store := by
  rw [exec_rezoneDone hp] at done
  cases done
  cases lost
  obtain ⟨none_left, -, notified⟩ := rezoneEnd_ends hk ended
  have power : s.rezoneEnd.power = .running := by rw [notified, notify_power]; exact hp
  have store : s.rezoneEnd.store = s.store := by rw [notified, State.notify, State.emit]; exact delivers_store _ _
  have cells : s.rezoneEnd.loseSupply.store.cell = s.store.cutShort.cell := by
    rw [loseSupply_store power, quiet_cell, store]
  have back := fun (x : Nat × CustodyRecord) hx hs => restart_after_rezone hp hk tables follows hf ended cells
    s.rezoneEnd.loseSupply.pending s.rezoneEnd.loseSupply.inputs (x := x) hx hs
  refine ⟨_, exec_powerOn_of_off (loseSupply_power _), ?_⟩
  generalize State.restart .powerOn s.rezoneEnd.loseSupply.store s.rezoneEnd.loseSupply.pending
    s.rezoneEnd.loseSupply.inputs = u at back ⊢
  have agrees : ∀ x ∈ u.custody, x.2.agrees u.vault.descriptors := by
    intro x hx hs l hl
    obtain ⟨descriptors, r, hr, shelved, location, area⟩ := back x hx hs
    have below : x.1 < k := by
      by_contra hlow
      exact nextShelved_eq_none.1 none_left (x.1, r) hr (by omega) shelved
    rw [descriptors, config, area]
    exact passed (x.1, r) hr below shelved l (location ▸ hl)
  refine ⟨fun x hx hs => ⟨agrees x hx, (back x hx hs).2⟩, fun v v' custody descriptors step => ?_⟩
  have same := rezoneStep_of_agrees (s := v) (by rw [custody, descriptors]; exact agrees)
  have event : v' = v.event State.rezoneStep := by
    have steps : exec .rezoneSweepStep v = .next (v.event State.rezoneStep) := rfl
    rw [steps] at step
    cases step
    rfl
  rw [event]
  unfold State.event
  split
  · exact same
  · exact ⟨rfl, rfl⟩

/-- Settles O12: each step of the sweep by the record it reaches next, and R8's restart by the records that the store
gives back. -/
theorem rezoneSweepVisitsShelvedRecords : Obligations.RezoneSweepVisitsShelvedRecords := by
  unfold Obligations.RezoneSweepVisitsShelvedRecords
  intro shelved agrees settledStore
  refine ⟨fun k p r l s hp hk hn hl => ?_, fun k s t hp hk wf passed step => ?_, fun k s hp hk past => ?_,
    fun k x s hp hk hx hlow hs => ?_, fun s hp hk => ?_,
    fun k s t w hp hk tables follows hf passed done ended lost config =>
      restart_sweep_of_rezone hp hk tables follows hf passed done ended lost config⟩
  · rw [← nextShelved_eq] at hn
    intro a next
    rw [exec_rezoneSweepStep hp, rezoneStep_of_some hk hn]
    refine ⟨fun same => ?_, fun changed => ?_⟩
    · rw [rezoneRecord_of_agrees fun l' hl' => by rw [hl] at hl'; cases hl'; exact same]
    · rw [rezoneRecord_of_changed hl changed]
      rfl
  · rw [exec_rezoneSweepStep hp] at step
    cases step
    exact rezoneStep_agrees hk wf passed
  · have none_left : s.nextShelved k = none := nextShelved_eq_none.2 past
    rw [exec_rezoneSweepStep hp, exec_rezoneDone hp, rezoneStep_of_none hk none_left]
    refine ⟨rfl, fun settled => ?_, fun unsettled => ?_⟩
    · rw [rezoneEnd_of_done hk none_left ((custodyWriting_eq_false s.store).2 settled)]
    · have writing : s.store.custodyWriting = true := by
        by_contra hw
        exact unsettled ((custodyWriting_eq_false s.store).1 (Bool.eq_false_iff.2 hw))
      rw [rezoneEnd_of_writing writing]
  · have next : (s.nextShelved k).isSome = true := by
      by_contra hn
      rw [Bool.not_eq_true, Option.isSome_eq_false_iff, Option.isNone_iff_eq_none, nextShelved_eq_none] at hn
      exact hn x hx hlow hs
    rw [exec_rezoneDone hp, rezoneEnd_of_next hk next]
  · rw [exec_rezoneSweepStep hp, exec_rezoneDone hp, rezoneStep_of_idle hk, rezoneEnd_of_idle hk]
    exact ⟨rfl, rfl⟩

end Sys2Proof.Machine
end

