-- ==== Sys2Proof/Proofs/OutputParts.lean ====
section
/-! SUPPORT. What the common outputs and the causes of TROUBLE are read from, and the operations that leave it as it is. -/

namespace Sys2Proof.Machine

/-! ## What the common outputs are worked out from -/

/-- The fire unit, the extract fan, the channels, the facility link's state and the damage flags: the common outputs, and
all that their causes are read from (R29, R56, R57). -/
def State.outputParts (s : State) : FireUnit × Bool × PerChannel ChannelRecord × Bool × DamageFlags :=
  (s.fire, s.climate.fan, s.climate.channels, s.links.lost, s.store.flags)

/-! ### The facility link's state under the shared operations -/

@[simp] theorem noticeOn_lost (take : Link → Notice → Link) (n : NoticeBody) (p : Port) (s : State) :
    (s.noticeOn take n p).links.lost = s.links.lost := by
  unfold State.noticeOn; split <;> simp

@[simp] theorem postNotice_lost (n : NoticeBody) (s : State) : (s.postNotice n).links.lost = s.links.lost :=
  foldl_keeps _ (·.links.lost) (by simp) n.ports s

@[simp] theorem startTransmitters_lost (s : State) : s.startTransmitters.links.lost = s.links.lost := by
  unfold State.startTransmitters; split <;> rfl

@[simp] theorem postResponse_lost (p : Port) (r : Response) (s : State) : (s.postResponse p r).links.lost = s.links.lost :=
  links_set_lost _ _ _

@[simp] theorem deliver_lost (s : State) (x : Out) : (s.deliver x).links.lost = s.links.lost := by
  cases x <;> simp [State.deliver]

@[simp] theorem delivers_lost (xs : List Out) (s : State) : (xs.foldl State.deliver s).links.lost = s.links.lost :=
  foldl_keeps _ (·.links.lost) deliver_lost xs s

@[simp] theorem emit_lost (needs : List Nat) (xs : List Out) (s : State) : (s.emit needs xs).links.lost = s.links.lost := by
  unfold State.emit; split <;> simp

@[simp] theorem notify_lost (needs : List Nat) (n : NoticeBody) (s : State) :
    (s.notify needs n).links.lost = s.links.lost := emit_lost needs _ s

@[simp] theorem answer_lost (h : ReqHead) (k : RequestKind) (needs : List Nat) (c : ResultCode) (d : ResponseData) (s : State) :
    (s.answer h k needs c d).links.lost = s.links.lost := emit_lost needs _ s

@[simp] theorem refuse_lost (h : ReqHead) (k : RequestKind) (c : ResultCode) (s : State) :
    (s.refuse h k c).links.lost = s.links.lost := answer_lost h k [] c .none s

@[simp] theorem resumeTest_lost (needs : List Nat) (s : State) : (s.resumeTest needs).links.lost = s.links.lost := by
  unfold State.resumeTest; split <;> simp
@[simp] theorem holdTest_lost (needs : List Nat) (s : State) : (s.holdTest needs).links.lost = s.links.lost := by
  unfold State.holdTest; split <;> simp
@[simp] theorem dispatch_lost (needs : List Nat) (s : State) : (s.dispatch needs).links.lost = s.links.lost :=
  dispatch_keeps (·.links.lost) (by simp [State.dropEntry]) (by simp [State.pickEntry]) needs s
@[simp] theorem lapsePick_lost (needs : List Nat) (n : Fin 32) (s : State) :
    (s.lapsePick needs n).2.links.lost = s.links.lost := by
  simp only [State.lapsePick]; (repeat' split) <;> simp
@[simp] theorem testConsign_lost (needs : List Nat) (i : Fin 16) (s : State) :
    (s.testConsign needs i).2.links.lost = s.links.lost := by
  simp only [State.testConsign]; (repeat' split) <;> simp
@[simp] theorem testNumber_lost (needs : List Nat) (n : Nat) (s : State) :
    (s.testNumber needs n).2.links.lost = s.links.lost := by
  unfold State.testNumber; split <;> simp
@[simp] theorem testPlaces_lost (needs : List Nat) (is : List (Fin 16)) (s : State) :
    (s.testPlaces needs is).2.links.lost = s.links.lost :=
  foldl_keeps _ (fun x : List Nat × State => x.2.links.lost) (by simp) is (needs, s)
@[simp] theorem arbitrate_lost (needs : List Nat) (s : State) : (s.arbitrate needs).links.lost = s.links.lost := by
  rw [arbitrate_eq]; split <;> simp
@[simp] theorem endExchange_lost (needs : List Nat) (x : Exchange) (revoked : Bool) (s : State) :
    (s.endExchange needs x revoked).2.links.lost = s.links.lost := by
  simp only [State.endExchange]; (repeat' split) <;> simp
@[simp] theorem outerSecured_lost (needs : List Nat) (ending : Bool) (s : State) :
    (s.outerSecured needs ending).2.links.lost = s.links.lost := by
  simp only [State.outerSecured]; (repeat' split) <;> simp
@[simp] theorem endPossession_lost (needs : List Nat) (side : Side) (s : State) :
    (s.endPossession needs side).2.links.lost = s.links.lost := by
  unfold State.endPossession; cases side <;> simp
@[simp] theorem revoke_lost (s : State) : s.revoke.2.links.lost = s.links.lost := by
  simp only [State.revoke, State.notifyRevoked]; (repeat' split) <;> simp
@[simp] theorem hatchFireChange_lost (b : Bool) (s : State) : (s.hatchFireChange b).links.lost = s.links.lost := by
  rw [hatchFireChange_eq]; split <;> simp

/-! ## Operations that leave the common outputs and their causes -/

@[simp] theorem refuse_parts (h : ReqHead) (k : RequestKind) (c : ResultCode) (s : State) :
    (s.refuse h k c).outputParts = s.outputParts := by simp [State.outputParts]
@[simp] theorem answer_parts (h : ReqHead) (k : RequestKind) (needs : List Nat) (c : ResultCode) (d : ResponseData) (s : State) :
    (s.answer h k needs c d).outputParts = s.outputParts := by simp [State.outputParts]
@[simp] theorem notify_parts (needs : List Nat) (n : NoticeBody) (s : State) :
    (s.notify needs n).outputParts = s.outputParts := by simp [State.outputParts]
@[simp] theorem postNotice_parts (n : NoticeBody) (s : State) : (s.postNotice n).outputParts = s.outputParts := by
  simp [State.outputParts]
@[simp] theorem startTransmitters_parts (s : State) : s.startTransmitters.outputParts = s.outputParts := by
  simp [State.outputParts]
@[simp] theorem onLink_parts (p : Port) (f : Link → Link) (s : State) : (s.onLink p f).outputParts = s.outputParts := by
  simp [State.outputParts]
@[simp] theorem persist_parts (r : StoreRecord) (s : State) : (s.persist r).outputParts = s.outputParts := by
  simp [State.outputParts]
@[simp] theorem putRecord_parts (p : Nat) (r : CustodyRecord) (s : State) : (s.putRecord p r).outputParts = s.outputParts := by
  simp [State.outputParts]
@[simp] theorem putSlot_parts (n : Fin 32) (x : Slot) (s : State) : (s.putSlot n x).outputParts = s.outputParts := by
  simp [State.outputParts]
@[simp] theorem putConsign_parts (i : Fin 16) (c : Consignment) (s : State) :
    (s.putConsign i c).outputParts = s.outputParts := by simp [State.outputParts]
@[simp] theorem putEntries_parts (es : List HatchEntry) (s : State) : (s.putEntries es).outputParts = s.outputParts := by
  simp [State.outputParts]
@[simp] theorem createRecord_parts (p : Nat) (r : CustodyRecord) (s : State) :
    (s.createRecord p r).outputParts = s.outputParts := by simp [State.outputParts]
@[simp] theorem removeRecord_parts (p : Nat) (s : State) : (s.removeRecord p).outputParts = s.outputParts := by
  simp [State.outputParts]
@[simp] theorem unqueue_parts (l : Label) (s : State) : (s.unqueue l).outputParts = s.outputParts := rfl
@[simp] theorem resumeTest_parts (needs : List Nat) (s : State) : (s.resumeTest needs).outputParts = s.outputParts := by
  simp [State.outputParts]
@[simp] theorem holdTest_parts (needs : List Nat) (s : State) : (s.holdTest needs).outputParts = s.outputParts := by
  simp [State.outputParts]
@[simp] theorem dispatch_parts (needs : List Nat) (s : State) : (s.dispatch needs).outputParts = s.outputParts := by
  simp [State.outputParts]
@[simp] theorem arbitrate_parts (needs : List Nat) (s : State) : (s.arbitrate needs).outputParts = s.outputParts := by
  simp [State.outputParts]
@[simp] theorem arbitration_parts (s : State) : s.arbitration.1.outputParts = s.outputParts := by simp [State.outputParts]
@[simp] theorem onArbiter_parts (f : Arbiter → Arbiter) (s : State) : (s.onArbiter f).outputParts = s.outputParts := rfl
@[simp] theorem onDoor_parts (d : Side) (f : Door → Door) (s : State) : (s.onDoor d f).outputParts = s.outputParts := rfl
@[simp] theorem onInputs_parts (f : Inputs → Inputs) (s : State) : (s.onInputs f).outputParts = s.outputParts := rfl
@[simp] theorem onControl_parts (a : Area) (f : AreaControl → AreaControl) (s : State) :
    (s.onControl a f).outputParts = s.outputParts := rfl
@[simp] theorem setSweep_parts (w : Sweep) (s : State) : (s.setSweep w).outputParts = s.outputParts := rfl
@[simp] theorem drive_parts (xs : List BusSignal) (s : State) : (s.drive xs).outputParts = s.outputParts := rfl
@[simp] theorem mapSlots_parts (f : Slot → Slot) (s : State) : (s.mapSlots f).outputParts = s.outputParts := rfl
@[simp] theorem startSweep_parts (k : Nat) (s : State) : (s.startSweep k).outputParts = s.outputParts := rfl
@[simp] theorem testNumber_parts (needs : List Nat) (n : Nat) (s : State) :
    (s.testNumber needs n).2.outputParts = s.outputParts := by simp [State.outputParts]
@[simp] theorem testPlaces_parts (needs : List Nat) (is : List (Fin 16)) (s : State) :
    (s.testPlaces needs is).2.outputParts = s.outputParts := by simp [State.outputParts]
@[simp] theorem endPossession_parts (needs : List Nat) (side : Side) (s : State) :
    (s.endPossession needs side).2.outputParts = s.outputParts := by simp [State.outputParts]
@[simp] theorem outerSecured_parts (needs : List Nat) (ending : Bool) (s : State) :
    (s.outerSecured needs ending).2.outputParts = s.outputParts := by simp [State.outputParts]
@[simp] theorem lapsePick_parts (needs : List Nat) (n : Fin 32) (s : State) :
    (s.lapsePick needs n).2.outputParts = s.outputParts := by simp [State.outputParts]
@[simp] theorem lapseOverdue_parts (s : State) : s.lapseOverdue.outputParts = s.outputParts :=
  lapseOverdue_keeps State.outputParts lapsePick_parts s
/-- What follows a response keeps them, if it keeps them done now (R5, R80). -/
theorem follow_parts {r : StoreRecord} {f : Followup} {now : State → State} {s : State}
    (h : (now s).outputParts = s.outputParts) : (s.follow r f now).outputParts = s.outputParts := by
  unfold State.follow; split
  · rfl
  · exact h

/-! ### Requests -/

theorem answerStatus_parts (h : ReqHead) (s : State) : (s.answerStatus h).outputParts = s.outputParts := by
  simp [State.answerStatus]
theorem subscribe_parts (h : ReqHead) (m : Byte) (s : State) : (s.subscribe h m).outputParts = s.outputParts := by
  unfold State.subscribe; split <;> simp
theorem areaQuery_parts (h : ReqHead) (n : Nat) (s : State) : (s.areaQuery h n).outputParts = s.outputParts := by
  unfold State.areaQuery; split <;> simp
theorem removeInner_parts (s : State) : s.removeInner.outputParts = s.outputParts := by
  unfold State.removeInner; split <;> simp
theorem changeMode_parts (h : ReqHead) (m : VaultMode) (s : State) : (s.changeMode h m).outputParts = s.outputParts := by
  cases m <;> simp [State.changeMode, State.actOnMode, removeInner_parts] <;> rfl
theorem setMode_parts (h : ReqHead) (m : Option VaultMode) (s : State) : (s.setMode h m).outputParts = s.outputParts := by
  unfold State.setMode; (repeat' split) <;> simp [changeMode_parts]
theorem setTime_parts (h : ReqHead) (c : Clock) (s : State) : (s.setTime h c).outputParts = s.outputParts := by
  simp [State.setTime, State.outputParts]
theorem setDescriptor_parts (h : ReqHead) (i : Nat) (e : Option Bool) (v : Location) (n a : Nat) (s : State) :
    (s.setDescriptor h i e v n a).outputParts = s.outputParts := by
  unfold State.setDescriptor
  split
  · simp
  split
  · simp
  split
  · simp
  split
  · exact (follow_parts rfl).trans ((answer_parts _ _ _ _ _ _).trans (persist_parts _ _))
  · simp

theorem setClimate_parts (h : ReqHead) (n : Nat) (f : ClimateSettings) (s : State) :
    (s.setClimate h n f).outputParts = s.outputParts := by
  unfold State.setClimate
  (repeat' split) <;> simp [State.outputParts]
theorem clearClimateFlags_parts (h : ReqHead) (n : Nat) (s : State) :
    (s.clearClimateFlags h n).outputParts = s.outputParts := by
  unfold State.clearClimateFlags
  split <;> simp

theorem enrol_parts (h : ReqHead) (l : Label) (x : Location) (s : State) : (s.enrol h l x).outputParts = s.outputParts := by
  unfold State.enrol; (repeat' split) <;> simp
theorem retire_parts (h : ReqHead) (l : Label) (s : State) : (s.retire h l).outputParts = s.outputParts := by
  unfold State.retire; (repeat' split) <;> simp
theorem relocate_parts (h : ReqHead) (l : Label) (x : Location) (s : State) :
    (s.relocate h l x).outputParts = s.outputParts := by
  unfold State.relocate; (repeat' split) <;> simp
theorem custodyQuery_parts (h : ReqHead) (l : Label) (s : State) : (s.custodyQuery h l).outputParts = s.outputParts := by
  unfold State.custodyQuery; (repeat' split) <;> simp
theorem doseReset_parts (h : ReqHead) (l : Label) (s : State) : (s.doseReset h l).outputParts = s.outputParts := by
  unfold State.doseReset; (repeat' split) <;> simp

theorem enqueue_parts (h : ReqHead) (p : Nat) (r : CustodyRecord) (s : State) : (s.enqueue h p r).outputParts = s.outputParts := by
  simp [State.enqueue]; rfl
theorem checkout_parts (h : ReqHead) (l : Label) (s : State) : (s.checkout h l).outputParts = s.outputParts := by
  unfold State.checkout; (repeat' split) <;> simp [enqueue_parts]
@[simp] theorem freeSlotOf_parts (r : CustodyRecord) (s : State) : (s.freeSlotOf r).outputParts = s.outputParts := by
  unfold State.freeSlotOf; split <;> simp
theorem cancel_parts (h : ReqHead) (l : Label) (s : State) : (s.cancel h l).outputParts = s.outputParts := by
  unfold State.cancel; (repeat' split) <;> simp
theorem placed_parts (h : ReqHead) (l : Label) (n : Nat) (s : State) : (s.placed h l n).outputParts = s.outputParts := by
  unfold State.placed State.placeInSlot; (repeat' split) <;> simp
theorem shelve_parts (h : ReqHead) (p : Nat) (r : CustodyRecord) (l : Location) (s : State) :
    (s.shelve h p r l).outputParts = s.outputParts := by
  simp only [State.shelve, dispatch_parts, answer_parts, putRecord_parts, freeSlotOf_parts]
  unfold State.leaveOpenConsignment
  (repeat' split) <;> simp
theorem shelved_parts (h : ReqHead) (l : Label) (x : Location) (s : State) : (s.shelved h l x).outputParts = s.outputParts := by
  unfold State.shelved; (repeat' split) <;> simp [shelve_parts]
theorem slotQuery_parts (h : ReqHead) (n : Nat) (s : State) : (s.slotQuery h n).outputParts = s.outputParts := by
  unfold State.slotQuery; split <;> simp
theorem setStaging_parts (h : ReqHead) (f : StagingFields) (s : State) : (s.setStaging h f).outputParts = s.outputParts := by
  unfold State.setStaging
  split
  · simp
  split
  · simp
  · refine (follow_parts (lapseOverdue_parts _)).trans ?_
    have stored := fun g => persist_parts .config { s with staging := { s.staging with settings := g } }
    split
    · exact (answer_parts _ _ _ _ _ _).trans (stored _)
    · exact (dispatch_parts _ _).trans ((answer_parts _ _ _ _ _ _).trans (stored _))

theorem answerConsign_parts (h : ReqHead) (k : RequestKind) (rs : List StoreRecord) (d : ResponseData) (c : Consignment)
    (s : State) : (s.answerConsign h k rs d c).outputParts = s.outputParts := by
  simp [State.answerConsign]
theorem consignOpen_parts (h : ReqHead) (a b : Nat) (s : State) : (s.consignOpen h a b).outputParts = s.outputParts := by
  unfold State.consignOpen
  split
  · simp
  split
  · simp
  split
  · simp
  · rw [answerConsign_parts, persist_parts]
    exact putConsign_parts _ _ _
@[simp] theorem bindRecord_parts (p : Nat) (r : CustodyRecord) (n : Option Nat) (s : State) :
    (s.bindRecord p r n).outputParts = s.outputParts := putRecord_parts _ _ s
theorem consignAdd_parts (h : ReqHead) (n : Nat) (l : Label) (s : State) : (s.consignAdd h n l).outputParts = s.outputParts := by
  unfold State.consignAdd; (repeat' split) <;> simp
theorem consignRemove_parts (h : ReqHead) (n : Nat) (l : Label) (s : State) :
    (s.consignRemove h n l).outputParts = s.outputParts := by
  simp only [State.consignRemove]; (repeat' split) <;> simp
theorem consignSeal_parts (h : ReqHead) (n : Nat) (s : State) : (s.consignSeal h n).outputParts = s.outputParts := by
  unfold State.consignSeal; (repeat' split) <;> simp [answerConsign_parts]
theorem consignUnlock_parts (h : ReqHead) (n : Nat) (s : State) : (s.consignUnlock h n).outputParts = s.outputParts := by
  unfold State.consignUnlock; (repeat' split) <;> simp [answerConsign_parts]
theorem unbind_parts (n : Nat) (s : State) (l : Label) : (s.unbind n l).outputParts = s.outputParts := by
  unfold State.unbind; (repeat' split) <;> simp
theorem consignCancel_parts (h : ReqHead) (n : Nat) (s : State) : (s.consignCancel h n).outputParts = s.outputParts := by
  unfold State.consignCancel
  (repeat' split) <;> simp [answerConsign_parts, foldl_keeps _ State.outputParts (unbind_parts n)]
theorem consignQuery_parts (h : ReqHead) (n : Nat) (s : State) : (s.consignQuery h n).outputParts = s.outputParts := by
  unfold State.consignQuery; (repeat' split) <;> simp

theorem answerHatch_parts (h : ReqHead) (side : Side) (s : State) : (s.answerHatch h side).outputParts = s.outputParts := by
  have given := arbitration_parts s
  unfold State.answerHatch
  split <;> rename_i t _ e <;> rw [e] at given <;> simpa using given
theorem hatchRequest_parts (h : ReqHead) (p : PurposeField) (s : State) : (s.hatchRequest h p).outputParts = s.outputParts := by
  unfold State.hatchRequest State.innerRequest State.outerRequest
  (repeat' split) <;> simp [answerHatch_parts]
theorem releaseSide_parts (h : ReqHead) (side : Side) (s : State) : (s.releaseSide h side).outputParts = s.outputParts := by
  simp only [State.releaseSide]; (repeat' split) <;> simp
theorem hatchRelease_parts (h : ReqHead) (s : State) : (s.hatchRelease h).outputParts = s.outputParts := by
  unfold State.hatchRelease; split <;> simp [releaseSide_parts]
theorem loadEntry_parts (h : ReqHead) (p : Nat) (r : CustodyRecord) (n : Nat) (s : State) :
    (s.loadEntry h p r n).outputParts = s.outputParts := by
  simp [State.loadEntry]
theorem loaded_parts (h : ReqHead) (l : Label) (s : State) : (s.loaded h l).outputParts = s.outputParts := by
  unfold State.loaded; (repeat' split) <;> simp [loadEntry_parts]
theorem closeReturned_parts (needs : List Nat) (n : Nat) (s : State) :
    (s.closeReturned needs n).2.outputParts = s.outputParts := by
  unfold State.closeReturned; (repeat' split) <;> simp
theorem unloadEntry_parts (h : ReqHead) (p : Nat) (r : CustodyRecord) (e : HatchEntry) (n : Fin 32) (s : State) :
    (s.unloadEntry h p r e n).outputParts = s.outputParts := by
  unfold State.unloadEntry; (repeat' split) <;> simp [closeReturned_parts]
theorem unloaded_parts (h : ReqHead) (l : Label) (s : State) : (s.unloaded h l).outputParts = s.outputParts := by
  unfold State.unloaded; (repeat' split) <;> simp [unloadEntry_parts]

theorem mismatch_parts (h : ReqHead) (i : Fin 16) (c : Consignment) (code : ResultCode) (s : State) :
    (s.mismatch h i c code).outputParts = s.outputParts := by
  simp only [State.mismatch]; split <;> simp
theorem openExchange_parts (h : ReqHead) (i : Fin 16) (c : Consignment) (s : State) :
    (s.openExchange h i c).outputParts = s.outputParts := by
  unfold State.openExchange
  simp only [arbitrate_parts, notify_parts, answer_parts]
  exact putConsign_parts _ _ _
theorem arrive_parts (h : ReqHead) (n c : Nat) (w : Word16) (s : State) : (s.arrive h n c w).outputParts = s.outputParts := by
  unfold State.arrive; (repeat' split) <;> simp [mismatch_parts, openExchange_parts]
theorem takeEntry_parts (h : ReqHead) (p : Nat) (r : CustodyRecord) (x : Exchange) (i : Fin 16) (c : Consignment) (s : State) :
    (s.takeEntry h p r x i c).outputParts = s.outputParts := by
  simp [State.takeEntry, State.outputParts]
theorem taken_parts (h : ReqHead) (l : Label) (s : State) : (s.taken h l).outputParts = s.outputParts := by
  unfold State.taken; (repeat' split) <;> simp [takeEntry_parts]
theorem depositEntry_parts (h : ReqHead) (l : Label) (p : Nat) (old : Option CustodyRecord) (x : Exchange) (i : Fin 16)
    (c : Consignment) (s : State) : (s.depositEntry h l p old x i c).outputParts = s.outputParts := by
  unfold State.depositEntry
  cases old <;> simp [State.outputParts]
theorem deposited_parts (h : ReqHead) (l : Label) (s : State) : (s.deposited h l).outputParts = s.outputParts := by
  unfold State.deposited; (repeat' split) <;> simp [depositEntry_parts]
theorem exchangeQuery_parts (h : ReqHead) (s : State) : (s.exchangeQuery h).outputParts = s.outputParts := by
  unfold State.exchangeQuery; split <;> simp

/-! ### Events -/

theorem rezoneStep_parts (s : State) : s.rezoneStep.outputParts = s.outputParts := by
  unfold State.rezoneStep State.rezoneRecord
  simp only []
  (repeat' split) <;> simp [State.outputParts]
theorem rezoneEnd_parts (s : State) : s.rezoneEnd.outputParts = s.outputParts := by
  unfold State.rezoneEnd; (repeat' split) <;> simp [State.outputParts]
theorem discardFrame_parts (p : Port) (bs : List LineByte) (s : State) : (s.discardFrame p bs).outputParts = s.outputParts := by
  simp only [State.discardFrame]; split <;> simp
theorem beginRestart_parts (s : State) : s.beginRestart.outputParts = s.outputParts := by
  simp only [State.beginRestart]; split <;> simp [State.outputParts]
theorem frameEnd_parts (p : Port) (s : State) : (s.frameEnd p).outputParts = s.outputParts := by
  simp only [State.frameEnd, onLink_parts]; split <;> simp [beginRestart_parts]
theorem snapshotPoint_parts (s : State) : s.snapshotPoint.outputParts = s.outputParts := by
  unfold State.snapshotPoint; split <;> simp [State.outputParts]
theorem formatEnd_parts (s : State) : s.formatEnd.outputParts = s.outputParts := by
  unfold State.formatEnd; split
  · rw [postNotice_parts, persist_parts]; rfl
  · rfl
theorem endFormatWrite_parts (s : State) : s.endFormatWrite.outputParts = s.outputParts := by
  unfold State.endFormatWrite
  (repeat' split) <;> rfl

theorem sweepFallsDue_parts (s : State) : s.sweepFallsDue.outputParts = s.outputParts := by
  simp only [State.sweepFallsDue]; (repeat' split) <;> rfl
theorem beginRead_parts (s : State) : s.beginRead.outputParts = s.outputParts := by
  unfold State.beginRead; split <;> rfl
theorem limitRead_parts (s : State) : s.limitRead.outputParts = s.outputParts := by
  unfold State.limitRead; split <;> rfl
theorem endBusWait_parts (s : State) : s.endBusWait.outputParts = s.outputParts := by
  unfold State.endBusWait; (repeat' split) <;> rfl

theorem openDoor_parts (d : Side) (s : State) : (s.openDoor d).outputParts = s.outputParts := by
  simp only [State.openDoor, State.normalOpening]
  split
  · rfl
  · split
    · cases d <;> split <;> rfl
    · simp
theorem closingLatch_parts (d : Side) (s : State) : (s.closingLatch d).2.outputParts = s.outputParts := by
  simp only [State.closingLatch]
  (repeat' split) <;> simp
theorem closeDoor_parts (d : Side) (s : State) : (s.closeDoor d).outputParts = s.outputParts := by
  simp only [State.closeDoor]
  (repeat' split) <;> simp [closingLatch_parts]
theorem heldDoor_parts (d : Side) (s : State) : (s.heldDoor d).outputParts = s.outputParts := by
  simp only [State.heldDoor]; (repeat' split) <;> simp
theorem lapseLatch_parts (s : State) : s.lapseLatch.outputParts = s.outputParts := by
  simp only [State.lapseLatch]; (repeat' split) <;> simp
theorem pickLapse_parts (n : Fin 32) (s : State) : (s.pickLapse n).outputParts = s.outputParts := by
  unfold State.pickLapse; split <;> simp
theorem dropExchange_parts (x : Exchange) (s : State) : (s.dropExchange x).outputParts = s.outputParts := by
  simp only [State.dropExchange]
  (repeat' split) <;> simp [State.outputParts]
theorem timeOutExchange_parts (s : State) : s.timeOutExchange.outputParts = s.outputParts := by
  unfold State.timeOutExchange; (repeat' split) <;> simp [dropExchange_parts]

/-! ### Sample events behind the channel's record -/
theorem controlSample_parts (a : Area) (s : State) : (s.controlSample a).outputParts = s.outputParts := by
  unfold State.controlSample; split <;> simp
theorem alarmSample_parts (a : Area) (s : State) : (s.alarmSample a).outputParts = s.outputParts := by
  unfold State.alarmSample; (repeat' split) <;> simp
theorem accumulateSample_parts (a : Area) (s : State) : (s.accumulateSample a).outputParts = s.outputParts := by
  simp only [State.accumulateSample, persist_parts]; rfl
theorem areaSample_parts (a : Area) (s : State) : (s.areaSample a).outputParts = s.outputParts := by
  simp only [State.areaSample, accumulateSample_parts, alarmSample_parts, controlSample_parts]
theorem flipSlot_parts (x : List Nat × State) (n : Fin 32) : (State.flipSlot x n).2.outputParts = x.2.outputParts := by
  unfold State.flipSlot; (repeat' split) <;> simp
theorem stageSample_parts (s : State) : s.stageSample.outputParts = s.outputParts := by
  have flips := fun s => foldl_keeps State.flipSlot (fun x => x.2.outputParts) flipSlot_parts slotNumbers ([], s)
  simp only [State.stageSample]
  split <;> simp [flips]
theorem hatchSample_parts (f : HatchEntry → HatchEntry) (s : State) : (s.hatchSample f).outputParts = s.outputParts := by
  simp only [State.hatchSample]; split
  · rw [arbitrate_parts]; rfl
  · rfl
theorem handSample_parts (c : Channel) (s : State) : (s.handSample c).outputParts = s.outputParts := by
  unfold State.handSample
  split <;> simp [areaSample_parts, stageSample_parts, hatchSample_parts]
theorem nextRead_parts (c : Channel) (s : State) : (s.nextRead c).outputParts = s.outputParts := by
  unfold State.nextRead; split <;> simp

end Sys2Proof.Machine
end

