-- ==== Sys2Proof/Proofs/OutputCauses.lean ====
section
/-! SUPPORT. Every step keeps the common outputs on their causes (R29, R56, R57): the operations that move an output or
a cause, then the scan, a restart and each command. -/

namespace Sys2Proof.Machine

/-! ## The common outputs on their causes -/

/-- ALERT, EVACUATE and the extract fan stand as the fire states of the areas call for (R29, R56). -/
def State.areasDrive (s : State) : Prop :=
  s.fire.alert = s.fire.alertOf ∧ s.fire.evacuate = s.fire.evacuateOf ∧
    s.climate.fan = s.fire.areas.any fun x => x.state.vents

/-- TROUBLE stands as its five causes call for (R57). -/
def State.troubleDriven (s : State) : Prop := s.fire.trouble = s.causes.any

/-- The common outputs stand as their causes call for. -/
def State.driven (s : State) : Prop := s.areasDrive ∧ s.troubleDriven

theorem outputsFollow_iff (s : State) : s.outputsFollow = true ↔ (s.power = .running → s.driven) := by
  unfold State.outputsFollow State.driven State.areasDrive State.troubleDriven
  by_cases hp : s.power = .running <;> simp [hp, and_assoc, and_comm, and_left_comm]

theorem outputsFollow_of_driven {s : State} (h : s.driven) : s.outputsFollow = true :=
  (outputsFollow_iff s).2 fun _ => h

/-- The causes of TROUBLE are read from the output parts. -/
theorem causes_congr {s t : State} (h : t.outputParts = s.outputParts) : t.causes = s.causes := by
  simp only [State.outputParts, Prod.mk.injEq] at h
  obtain ⟨hf, _, hc, hl, hd⟩ := h
  simp only [State.causes, troubleCauses, hf, hc, hl, hd]

theorem troubleDriven_congr {s t : State} (h : t.outputParts = s.outputParts) : t.troubleDriven ↔ s.troubleDriven := by
  have hf : t.fire = s.fire := congrArg Prod.fst h
  unfold State.troubleDriven
  rw [causes_congr h, hf]

theorem driven_congr {s t : State} (h : t.outputParts = s.outputParts) : t.driven ↔ s.driven := by
  have same := h
  simp only [State.outputParts, Prod.mk.injEq] at same
  obtain ⟨hf, hn, _⟩ := same
  simp only [State.driven, troubleDriven_congr h, State.areasDrive, hf, hn]

/-! ### The operations that move an output or a cause -/

/-- TROUBLE worked out again stands on its causes, and the rest on theirs as before. -/
theorem updateTrouble_driven {s : State} (h : s.areasDrive) : s.updateTrouble.driven := ⟨h, rfl⟩

/-- A change of an area's fire record is no cause of TROUBLE. -/
theorem onFireArea_troubleDriven {a : Area} {f : FireArea → FireArea} {s : State} (h : s.troubleDriven) :
    (s.onFireArea a f).troubleDriven := h

theorem perArea_any_set {α : Type} (p : PerArea α) (a : Area) (x : α) (f : α → Bool) (h : f x = f (p.get a)) :
    (p.set a x).any f = p.any f := by
  cases a <;> simp only [PerArea.get] at h <;> simp [PerArea.set, PerArea.any, h]

/-- A change of an area's fire record that keeps its state moves no output. -/
theorem onFireArea_driven {a : Area} {f : FireArea → FireArea} {s : State} (hf : ∀ x, (f x).state = x.state)
    (h : s.driven) : (s.onFireArea a f).driven := by
  obtain ⟨⟨alert, evacuate, fan⟩, trouble⟩ := h
  refine ⟨⟨alert.trans ?_, evacuate.trans ?_, fan.trans ?_⟩, trouble⟩
  all_goals exact (perArea_any_set _ a _ _ (by rw [hf])).symm

/-- The climate unit works out the fan from the fire states (R29). -/
@[simp] theorem climateFireChange_fan (a : Area) (old : FireState) (s : State) :
    (s.climateFireChange a old).climate.fan = s.fire.areas.any fun x => x.state.vents := by
  simp only [State.climateFireChange]
  (repeat' split) <;> rfl

/-- The climate unit's part in a change of fire state moves the fan alone. -/
theorem climateFireChange_driven {a : Area} {old : FireState} {s : State} (alert : s.fire.alert = s.fire.alertOf)
    (evacuate : s.fire.evacuate = s.fire.evacuateOf) (trouble : s.troubleDriven) : (s.climateFireChange a old).driven := by
  simp only [State.driven, State.areasDrive, State.troubleDriven, State.causes, climateFireChange_fire,
    climateFireChange_fan, climateFireChange_links, climateFireChange_store, troubleCauses,
    climateFireChange_climate_channels]
  exact ⟨⟨alert, evacuate, trivial⟩, trouble⟩

@[simp] theorem hatchFireChange_parts (b : Bool) (s : State) : (s.hatchFireChange b).outputParts = s.outputParts := by
  simp [State.outputParts]

/-- The order of R55 works out ALERT, EVACUATE and the fan, and leaves TROUBLE and its causes. -/
theorem announceFire_driven {a : Area} {old : FireState} {b : Bool} {s : State} (h : s.troubleDriven) :
    (s.announceFire a old b).driven := by
  unfold State.announceFire
  rw [driven_congr (hatchFireChange_parts _ _), driven_congr (dispatch_parts _ _)]
  refine climateFireChange_driven rfl rfl ?_
  exact (troubleDriven_congr (postNotice_parts _ s)).2 h

theorem changeFire_driven {a : Area} {new : FireState} {s : State} (h : s.troubleDriven) : (s.changeFire a new).driven :=
  announceFire_driven h

theorem enterCountdown_driven {a : Area} {s : State} (h : s.troubleDriven) : (s.enterCountdown a).driven :=
  changeFire_driven h

/-- A list map sees no change of a vector's element that its function does not see. -/
theorem vector_map_set {α β : Type} {n : Nat} (v : Vector α n) (i : Fin n) (y : α) (g : α → β) (h : g y = g v[i]) :
    (v.set i y).toList.map g = v.toList.map g := by
  have there : g v[i] = (v.toList.map g)[i.val]'(by simp) := by simp
  rw [Vector.toList_set, List.map_set, h, there, List.set_getElem_self]

/-- What TROUBLE reads of the detectors: their states and assignments (R42, R57). -/
def FireUnit.detectorCauses (f : FireUnit) : List (DetectorState × Option Area) :=
  f.detectors.toList.map fun x => (x.state, x.assignment)

theorem causes_of_detectorCauses {s t : State} (hd : t.fire.detectorCauses = s.fire.detectorCauses)
    (hc : t.climate.channels = s.climate.channels) (hl : t.links.lost = s.links.lost)
    (hf : t.store.flags = s.store.flags) : t.causes = s.causes := by
  have fault : ∀ f : FireUnit, f.detectors.toList.any (fun x => x.state == .fault) =
      f.detectorCauses.any fun x => x.1 == .fault := fun f => by simp [FireUnit.detectorCauses, Function.comp_def]
  have off : ∀ f : FireUnit, f.protectionOff =
      fun a => f.detectorCauses.all fun x => x.2 != some a || x.1 == .isolated := fun f => by
    funext a; simp [FireUnit.protectionOff, FireUnit.detectorCauses, Function.comp_def]
  simp only [State.causes, troubleCauses, fault, off, hd, hc, hl, hf]

/-- A change of a detector's record that keeps its state and assignment moves no output. -/
theorem onDetector_troubleDriven {d : Detector} {f : DetectorRecord → DetectorRecord} {s : State}
    (hf : ∀ x, (f x).state = x.state ∧ (f x).assignment = x.assignment) (h : s.troubleDriven) :
    (s.onDetector d f).troubleDriven := by
  have seen : (s.onDetector d f).fire.detectorCauses = s.fire.detectorCauses :=
    vector_map_set _ d _ _ (Prod.ext (hf _).1 (hf _).2)
  have causes : (s.onDetector d f).causes = s.causes := causes_of_detectorCauses seen rfl rfl rfl
  unfold State.troubleDriven
  rw [causes]
  exact h

theorem onDetector_driven {d : Detector} {f : DetectorRecord → DetectorRecord} {s : State}
    (hf : ∀ x, (f x).state = x.state ∧ (f x).assignment = x.assignment) (h : s.driven) : (s.onDetector d f).driven :=
  ⟨h.1, onDetector_troubleDriven hf h.2⟩

/-- A change of a detector's state works TROUBLE out again (R55). -/
theorem changeDetector_troubleDriven {d : Detector} {x : DetectorState} {s : State} (h : s.troubleDriven) :
    (s.changeDetector d x).troubleDriven := by
  unfold State.changeDetector
  split
  · exact h
  · rfl

theorem changeDetector_areasDrive {d : Detector} {x : DetectorState} {s : State} (h : s.areasDrive) :
    (s.changeDetector d x).areasDrive := by
  unfold State.changeDetector
  split
  · exact h
  · simpa [State.areasDrive, FireUnit.alertOf, FireUnit.evacuateOf] using h

theorem changeDetector_driven {d : Detector} {x : DetectorState} {s : State} (h : s.driven) :
    (s.changeDetector d x).driven :=
  ⟨changeDetector_areasDrive h.1, changeDetector_troubleDriven h.2⟩

/-- Each way out of an alarm entry leaves the state or changes the area's fire state (R46). -/
theorem alarmEntry_driven {d : Detector} {s : State} (h : s.driven) : (s.alarmEntry d).driven := by
  unfold State.alarmEntry
  split
  · exact h
  simp only []
  split
  · exact enterCountdown_driven h.2
  · split
    · exact enterCountdown_driven h.2
    · exact changeFire_driven h.2
  · exact enterCountdown_driven h.2
  · split
    · exact enterCountdown_driven h.2
    · exact h
  all_goals exact h

theorem evaluateDetector_driven {d : Detector} {s : State} (h : s.driven) : (s.evaluateDetector d).driven := by
  simp only [State.evaluateDetector]
  split
  · exact alarmEntry_driven (changeDetector_driven h)
  · exact changeDetector_driven h

theorem detectorLines_driven {d : Detector} {al fl : Level} {s : State} (h : s.driven) :
    (s.detectorLines d al fl).driven := by
  simp only [State.detectorLines]
  split
  · exact h
  · exact evaluateDetector_driven (onDetector_driven (fun _ => ⟨rfl, rfl⟩) h)

theorem callEvent_driven {a : Area} {s : State} (h : s.driven) : (s.callEvent a).driven := by
  have latched := onFireArea_driven (a := a) (f := fun x => { x with callLatch := true }) (fun _ => rfl) h
  simp only [State.callEvent]
  split
  · exact h
  split
  · exact latched
  · exact enterCountdown_driven latched.2

theorem callPointOn_driven {a : Area} {s : State} (h : s.driven) : (s.callPointOn a).driven := by
  unfold State.callPointOn
  split
  · exact h
  · exact callEvent_driven (onFireArea_driven (fun _ => rfl) h)

theorem callPointOff_driven {a : Area} {s : State} (h : s.driven) : (s.callPointOff a).driven :=
  onFireArea_driven (fun _ => rfl) h

theorem holdArea_driven {a : Area} {s : State} (h : s.driven) : (s.holdArea a).driven := by
  unfold State.holdArea
  split
  · exact changeFire_driven h.2
  all_goals exact h

theorem resumeArea_driven {a : Area} {s : State} (h : s.driven) : (s.resumeArea a).driven := by
  unfold State.resumeArea
  split
  · exact changeFire_driven h.2
  · exact h

theorem abortOn_driven {s : State} (h : s.driven) : s.abortOn.driven := by
  unfold State.abortOn
  split
  · exact h
  · exact foldl_invariant _ State.driven (fun _ _ => holdArea_driven) _ _ h

theorem abortOff_driven {s : State} (h : s.driven) : s.abortOff.driven := by
  unfold State.abortOff
  split
  · exact foldl_invariant _ State.driven (fun _ _ => resumeArea_driven) _ _ h
  · exact h

theorem retakeDetector_driven {d : Detector} {s : State} (h : s.driven) : (s.retakeDetector d).driven := by
  have cleared := onDetector_driven (d := d) (f := fun x => { x with retake := false }) (fun _ => ⟨rfl, rfl⟩) h
  simp only [State.retakeDetector]
  split
  · split
    · exact evaluateDetector_driven cleared
    · exact cleared
  · exact h

theorem retakeCall_driven {a : Area} {s : State} (h : s.driven) : (s.retakeCall a).driven := by
  have cleared := onFireArea_driven (a := a) (f := fun x => { x with callRetake := false }) (fun _ => rfl) h
  simp only [State.retakeCall]
  split
  · split
    · exact callEvent_driven cleared
    · exact cleared
  · exact h

theorem retakeInputs_driven {s : State} (h : s.driven) : s.retakeInputs.driven :=
  foldl_invariant _ State.driven (fun _ _ => retakeCall_driven) _ _
    (foldl_invariant _ State.driven (fun _ _ => retakeDetector_driven) _ _ h)

/-- The four steps of R53 keep TROUBLE on its causes, and the order of R55 behind them works out the rest. -/
theorem returnToQuiet_driven {a : Area} {s : State} (h : s.driven) : (s.returnToQuiet a).driven := by
  refine announceFire_driven (onFireArea_troubleDriven ?_)
  refine foldl_invariant _ State.troubleDriven (fun t d ht => ?_) _ _
    (foldl_invariant _ State.troubleDriven (fun t d ht => ?_) _ _ (onFireArea_troubleDriven h.2))
  · simp only [State.markRetake]
    split
    · exact onDetector_troubleDriven (fun _ => ⟨rfl, rfl⟩) ht
    · exact ht
  · simp only [State.dropLatch]
    split
    · exact changeDetector_troubleDriven ht
    · exact ht

/-- A release pulse is no cause of an output of the whole part. -/
theorem startPulse_driven {a : Area} {s : State} (h : s.driven) : (s.startPulse a).driven :=
  onFireArea_driven (f := fun x => { x with pulse := some s.vault.uptime }) (fun _ => rfl) h

theorem awaitPulse_troubleDriven {a : Area} {s : State} (h : s.troubleDriven) : (s.awaitPulse a).troubleDriven := by
  unfold State.awaitPulse
  split <;> exact h

theorem dischargeArea_driven {a : Area} {s : State} (h : s.driven) : (s.dischargeArea a).driven := by
  simp only [State.dischargeArea]
  split
  · split
    · have stored : ((s.onFireArea a fun x => { x with state := .discharged, agentSpent := true }).persist
          (.fireFlags a)).troubleDriven := (troubleDriven_congr (persist_parts _ _)).2 h.2
      split
      · exact (driven_congr (notify_parts _ _ _)).2 (announceFire_driven stored)
      · exact announceFire_driven (awaitPulse_troubleDriven stored)
    · exact h
  all_goals exact h

theorem endPulse_driven {a : Area} {s : State} (h : s.driven) : (s.endPulse a).driven := by
  unfold State.endPulse
  split
  · split
    · exact onFireArea_driven (fun _ => rfl) h
    · exact h
  · exact h

theorem ventEnd_driven {a : Area} {s : State} (h : s.driven) : (s.ventEnd a).driven := by
  simp only [State.ventEnd]
  split
  · split
    · exact returnToQuiet_driven h
    · exact h
  all_goals exact h

theorem ventArea_driven {a : Area} {s : State} (h : s.driven) : (s.ventArea a).driven :=
  announceFire_driven ((troubleDriven_congr (persist_parts _ _)).2 (onFireArea_troubleDriven h.2))

theorem alarmAfresh_driven {d : Detector} {s : State} (h : s.driven) : (s.alarmAfresh d).driven := by
  unfold State.alarmAfresh
  split
  · exact alarmEntry_driven h
  · exact h

theorem evaluateAfresh_driven {d : Detector} {latched : Bool} {s : State} (h : s.driven) :
    (s.evaluateAfresh d latched).driven :=
  alarmAfresh_driven (changeDetector_driven h)

/-! ### The fire unit's requests -/

theorem answer_driven {h : ReqHead} {k : RequestKind} {needs : List Nat} {c : ResultCode} {d : ResponseData} {s : State}
    (hs : s.driven) : (s.answer h k needs c d).driven := (driven_congr (answer_parts h k needs c d s)).2 hs

theorem refuse_driven {h : ReqHead} {k : RequestKind} {c : ResultCode} {s : State} (hs : s.driven) :
    (s.refuse h k c).driven := answer_driven hs

theorem persist_driven {r : StoreRecord} {s : State} (hs : s.driven) : (s.persist r).driven :=
  (driven_congr (persist_parts r s)).2 hs

theorem setFireArea_driven {h : ReqHead} {n : Nat} {c : Option Coincidence} {delay vent : Nat} {s : State} (hs : s.driven) :
    (s.setFireArea h n c delay vent).driven := by
  simp only [State.setFireArea]
  split
  · exact refuse_driven hs
  split
  · split
    · exact refuse_driven hs
    · exact answer_driven (persist_driven (onFireArea_driven (fun _ => rfl) hs))
  · exact refuse_driven hs

theorem follow_driven {r : StoreRecord} {f : Followup} {now : State → State} {s : State} (hs : s.driven)
    (hn : s.driven → (now s).driven) : (s.follow r f now).driven := by
  unfold State.follow
  split
  · exact hs
  · exact hn hs

theorem setFireDetector_driven {h : ReqHead} {n : Nat} {x : AssignField} {p : Option Polarity} {s : State} (hs : s.driven) :
    (s.setFireDetector h n x p).driven := by
  simp only [State.setFireDetector]
  split
  · exact refuse_driven hs
  split
  · split
    · exact refuse_driven hs
    · exact follow_driven (answer_driven (persist_driven (updateTrouble_driven hs.1))) evaluateAfresh_driven
  · exact refuse_driven hs

theorem recharged_driven {h : ReqHead} {n : Nat} {s : State} (hs : s.driven) : (s.recharged h n).driven := by
  simp only [State.recharged]
  split
  · exact refuse_driven hs
  split
  · exact refuse_driven hs
  split
  · exact refuse_driven hs
  split
  · exact answer_driven (persist_driven (onFireArea_driven (fun _ => rfl) hs))
  · exact answer_driven hs

theorem isolate_driven {h : ReqHead} {n : Nat} {on : Option Bool} {s : State} (hs : s.driven) : (s.isolate h n on).driven := by
  simp only [State.isolate]
  split
  · have cleared := fun d : Detector =>
      onDetector_driven (d := d) (f := fun x => { x with retake := false }) (fun _ => ⟨rfl, rfl⟩) hs
    refine answer_driven ?_
    split
    · exact changeDetector_driven (cleared _)
    · split
      · exact alarmEntry_driven (changeDetector_driven (cleared _))
      · exact changeDetector_driven (cleared _)
    · exact cleared _
    · exact cleared _
  · exact refuse_driven hs

theorem confirmArea_driven {h : ReqHead} {n : Nat} {s : State} (hs : s.driven) : (s.confirmArea h n).driven := by
  unfold State.confirmArea
  split
  · exact refuse_driven hs
  split
  · exact answer_driven (enterCountdown_driven hs.2)
  · exact refuse_driven hs

theorem resetArea_driven {h : ReqHead} {n : Nat} {s : State} (hs : s.driven) : (s.resetArea h n).driven := by
  simp only [State.resetArea]
  split
  · exact refuse_driven hs
  split
  · exact answer_driven hs
  · exact answer_driven (returnToQuiet_driven hs)
  · exact refuse_driven hs
  · exact answer_driven (returnToQuiet_driven hs)
  · exact answer_driven (ventArea_driven hs)
  · exact refuse_driven hs

/-! ### The link unit and the sensors -/

theorem validFrame_driven {p : Port} {s : State} (h : s.driven) : (s.validFrame p).driven := by
  have taken : (s.onLink p fun l => { l with receiver := .hunting }).driven := (driven_congr (onLink_parts _ _ _)).2 h
  cases p with
  | archive => exact taken
  | handover => exact taken
  | facility =>
    simp only [State.validFrame]
    split
    · refine (driven_congr (postNotice_parts _ _)).2 (updateTrouble_driven ?_)
      exact h.1
    · exact taken

theorem loseLink_driven {s : State} (h : s.driven) : s.loseLink.driven := by
  unfold State.loseLink
  split
  · refine (driven_congr (postNotice_parts _ _)).2 (updateTrouble_driven ?_)
    exact h.1
  · exact h

/-- The channel's record works TROUBLE out again (R57). -/
theorem recordSample_driven {c : Channel} {v : Option Held} {s : State} (h : s.areasDrive) : (s.recordSample c v).driven := by
  have recorded : ({ s with climate := { s.climate with
      channels := s.climate.channels.set c ((s.climate.channels.get c).after v) } }).updateTrouble.driven :=
    updateTrouble_driven h
  simp only [State.recordSample]
  split
  · exact (driven_congr (postNotice_parts _ _)).2 recorded
  · exact recorded

/-- What a sample event does behind its channel's record keeps the outputs and their causes. -/
theorem sample_parts (c : Channel) (v : Option Held) (s : State) :
    (s.sample c v).outputParts = (s.recordSample c v).outputParts :=
  (nextRead_parts _ _).trans (handSample_parts _ _)

theorem sampleOf_driven {reading : SensorReading} {s : State} (h : s.driven) : (s.sampleOf reading).driven := by
  unfold State.sampleOf
  split
  · exact (driven_congr (sample_parts _ _ _)).2 (recordSample_driven h.1)
  · exact (driven_congr (sample_parts _ _ _)).2 (recordSample_driven h.1)
  · exact h
  · exact h

/-! ### The format and the end of a write -/

/-- A format's effect works TROUBLE out again once the detectors' settings and the flags stand (R61, R184). -/
theorem emptyBlocks_driven {s : State} (h : s.driven) : s.emptyBlocks.driven := by
  obtain ⟨⟨alert, evacuate, fan⟩, _⟩ := h
  refine foldl_invariant _ State.driven (fun _ _ => alarmAfresh_driven) _ _ (updateTrouble_driven ?_)
  exact foldl_invariant _ State.areasDrive (fun _ _ => changeDetector_areasDrive) _ _ ⟨alert, evacuate, fan⟩

theorem startFormat_driven {s : State} (h : s.driven) : s.startFormat.driven := emptyBlocks_driven h

theorem followUp_driven {s : State} {f : Followup} (h : s.driven) : (s.followUp f).driven := by
  cases f with
  | sweep k => exact h
  | evaluate d latched => exact evaluateAfresh_driven h
  | lapses => exact (driven_congr (lapseOverdue_parts s)).2 h
  | format => exact startFormat_driven h

theorem formatRequest_driven {h : ReqHead} {s : State} (hs : s.driven) : (s.formatRequest h).driven := by
  simp only [State.formatRequest]
  split
  · exact refuse_driven hs
  split
  · exact refuse_driven hs
  split
  · exact refuse_driven hs
  · refine follow_driven (answer_driven (persist_driven ?_)) startFormat_driven
    exact hs

theorem startPulses_driven {ticket : Nat} {s : State} (h : s.driven) : (s.startPulses ticket).driven :=
  foldl_invariant _ State.driven (fun _ _ => startPulse_driven) _ _ h

@[simp] theorem releaseOutputs_parts (ticket : Nat) (s : State) : (s.releaseOutputs ticket).outputParts = s.outputParts := by
  rw [releaseOutputs_eq]
  simp [State.outputParts]

theorem endWrite_driven {j : Job} {s : State} (h : s.driven) : (s.endWrite j).driven := by
  refine (driven_congr (releaseOutputs_parts _ _)).2 (startPulses_driven ?_)
  refine (driven_congr ?_).2 h
  rw [begin_frame, writeNow_frame]
  rfl

theorem endFollowups_driven {ticket : Nat} {s : State} (h : s.driven) : (s.endFollowups ticket).driven :=
  foldl_invariant _ State.driven (fun _ _ => followUp_driven) _ _ h

theorem writeEnd_driven {s : State} (h : s.driven) : s.writeEnd.driven := by
  unfold State.writeEnd
  split
  · exact endFollowups_driven (endWrite_driven h)
  · exact (driven_congr (endFormatWrite_parts s)).2 h

/-! ### A restart -/

@[simp] theorem noticeAtRestart_parts (n : NoticeBody) (s : State) : (s.noticeAtRestart n).outputParts = s.outputParts := by
  have lost : (s.noticeAtRestart n).links.lost = s.links.lost := foldl_keeps _ (·.links.lost) (by simp) n.ports s
  rw [State.outputParts, lost, noticeAtRestart_frame]
  rfl

theorem announceConsign_parts (before : Vector (Option Consignment) 16) (s : State) (i : Fin 16) :
    (s.announceConsign before i).outputParts = s.outputParts := by
  unfold State.announceConsign
  (repeat' split) <;> simp

/-- No area vents after a restart (R62), and the fan is off. -/
theorem restarted_fan (st : Store) (cause : Cause) (pending : List Instr) (x : Inputs) :
    (st.restartBlocks cause pending x).climate.fan = (st.restartBlocks cause pending x).fire.areas.any fun a => a.state.vents := by
  have vents : ∀ flags g, (FireArea.restored flags g).state.vents = false := by
    rintro ⟨d, spent⟩ g
    cases d <;> rfl
  rw [Store.restartBlocks, recovered_eq]
  simp [Store.restored, perArea, PerArea.any, vents]

/-- ALERT and EVACUATE worked out again stand on their causes, and the fan on its own as before. -/
theorem updateSounders_areasDrive {s : State} (fan : s.climate.fan = s.fire.areas.any fun x => x.state.vents) :
    s.updateSounders.areasDrive := ⟨rfl, rfl, fan⟩

/-- A restart works ALERT, EVACUATE and TROUBLE out again, and leaves the fan off (R36, R62, R183). -/
theorem restart_driven (cause : Cause) (st : Store) (pending : List Instr) (x : Inputs) :
    (State.restart cause st pending x).driven := by
  have synced : (st.restartSynced cause pending x).driven := by
    have fan := restarted_fan st cause pending x
    unfold Store.restartSynced
    generalize st.restartBlocks cause pending x = t at fan ⊢
    refine updateTrouble_driven (updateSounders_areasDrive ?_)
    rw [sync_frame]
    exact fan
  have noticed : (st.restartNoticed cause pending x).driven := by
    refine (driven_congr ?_).2 synced
    simp only [Store.restartNoticed]
    split <;> simp
  rw [restart_eq]
  generalize placeNumbers = is
  exact foldl_invariant (State.announceConsign (st.checked.restored pending x).consign.places) State.driven
    (fun t i => (driven_congr (announceConsign_parts _ t i)).2) is _ noticed

theorem riseReset_driven (bad : List StoreCopy) (s : State) : (s.riseReset bad).driven := by
  unfold State.riseReset
  exact restart_driven _ _ _ _

theorem takeRestart_driven {bad : List StoreCopy} {s : State} (h : s.driven) : (s.takeRestart bad).driven := by
  unfold State.takeRestart
  split
  · exact restart_driven _ _ _ _
  · exact h

theorem resetLow_power (s : State) : s.resetLow.power = .stopped := rfl

/-! ### The input scan -/

theorem scanDetector_driven {x : Inputs} {s : State} {d : Detector} (h : s.driven) : (s.scanDetector x d).driven :=
  detectorLines_driven h

theorem scanCall_driven {x : Inputs} {s : State} {a : Area} (h : s.driven) : (s.scanCall x a).driven := by
  unfold State.scanCall
  split
  · exact callPointOn_driven h
  · exact callPointOff_driven h

theorem scanAbort_driven {x : Inputs} {s : State} (h : s.driven) : (s.scanAbort x).driven := by
  unfold State.scanAbort
  split
  · exact abortOn_driven h
  · exact abortOff_driven h

theorem scanContact_driven {x : Inputs} {s : State} {d : Side} (h : s.driven) : (s.scanContact x d).driven := by
  unfold State.scanContact
  split
  · exact (driven_congr (openDoor_parts d s)).2 h
  · exact (driven_congr (closeDoor_parts d s)).2 h

theorem outputsFollow_of_not_running {s : State} (h : s.power ≠ .running) : s.outputsFollow = true :=
  (outputsFollow_iff s).2 fun hp => absurd hp h

theorem scan_follows {s : State} (h : s.outputsFollow = true) : s.scan.outputsFollow = true := by
  have driven := (outputsFollow_iff s).1 h
  unfold State.scan
  split
  · exact h
  · rename_i hp
    simp only []
    split
    · exact outputsFollow_of_driven (riseReset_driven _ _)
    · exact outputsFollow_of_not_running (by simp [hp])
  · rename_i hp
    have sampled : (s.onInputs Inputs.scan).driven := driven hp
    have detectors := foldl_invariant (State.scanDetector s.inputs) State.driven (fun _ _ => scanDetector_driven)
      Detector.all _ sampled
    have calls := foldl_invariant (State.scanCall s.inputs) State.driven (fun _ _ => scanCall_driven) Area.all _ detectors
    have contacts := foldl_invariant (State.scanContact s.inputs) State.driven (fun _ _ => scanContact_driven)
      [Side.inner, Side.outer] _ (scanAbort_driven (x := s.inputs) calls)
    simp only [State.scanReset]
    split
    · exact outputsFollow_of_driven (retakeInputs_driven contacts)
    · exact outputsFollow_of_not_running (by rw [resetLow_power]; decide)

/-! ### Settled pins (log 6) -/

theorem detectorChange_driven {d : Detector} {al fl : Level} {s : State} (h : s.driven) :
    (s.detectorChange d al fl).driven := by
  simp only [State.detectorChange]
  split
  · exact h
  · exact detectorLines_driven h

theorem callPointOperated_driven {a : Area} {s : State} (h : s.driven) :
    (if (s.fire.areas.get a).callActive then s else (s.settleCall a .high).callPointOn a).driven := by
  split
  · exact h
  · exact callPointOn_driven h

theorem callPointInactive_driven {a : Area} {s : State} (h : s.driven) :
    (if (s.fire.areas.get a).callActive then (s.settleCall a .low).callPointOff a else s).driven := by
  split
  · exact callPointOff_driven h
  · exact h

theorem abortHoldActive_driven {s : State} (h : s.driven) :
    (if s.fire.abort then s else (s.settleAbort .high).abortOn).driven := by
  split
  · exact h
  · exact abortOn_driven h

theorem abortHoldReleased_driven {s : State} (h : s.driven) :
    (if s.fire.abort then (s.settleAbort .low).abortOff else s).driven := by
  split
  · exact abortOff_driven h
  · exact h

theorem doorOpened_parts (d : Side) (s : State) :
    (if (s.hatch.door d).isOpen then s else (s.settleContact d .high).openDoor d).outputParts = s.outputParts := by
  split
  · rfl
  · exact openDoor_parts d _

theorem doorClosed_parts (d : Side) (s : State) :
    (if (s.hatch.door d).isOpen then (s.settleContact d .low).closeDoor d else s).outputParts = s.outputParts := by
  split
  · exact closeDoor_parts d _
  · rfl

/-! ### The commands -/

theorem event_follows {act : State → State} {s : State} (h : s.outputsFollow = true)
    (keeps : s.driven → (act s).driven) : (s.event act).outputsFollow = true := by
  unfold State.event
  split
  · rename_i hp
    exact outputsFollow_of_driven (keeps ((outputsFollow_iff s).1 h hp))
  · exact h

theorem event_parts_follows {act : State → State} {s : State} (h : s.outputsFollow = true)
    (keeps : ∀ s, (act s).outputParts = s.outputParts) : (s.event act).outputsFollow = true :=
  event_follows h (driven_congr (keeps s)).2

theorem event_stops {act : State → State} {s : State} (h : s.outputsFollow = true)
    (stops : ∀ s, (act s).power = .stopped) : (s.event act).outputsFollow = true := by
  unfold State.event
  split
  · exact outputsFollow_of_not_running (by rw [stops]; decide)
  · exact h

theorem request_follows {h : ReqHead} {k : RequestKind} {named : Bool} {owner : State → State} {s : State}
    (hs : s.outputsFollow = true) (keeps : ∀ u : State, u.driven → (owner u).driven) :
    (s.request h k named owner).outputsFollow = true := by
  unfold State.request
  split
  · rename_i hp
    have taken := validFrame_driven (p := h.port) ((outputsFollow_iff s).1 hs hp)
    simp only []
    split
    · exact outputsFollow_of_driven ((driven_congr (onLink_parts _ _ _)).2 taken)
    · exact outputsFollow_of_driven (keeps _ ((driven_congr (onLink_parts _ _ _)).2 taken))
  · exact hs

theorem request_parts_follows {h : ReqHead} {k : RequestKind} {named : Bool} {owner : State → State} {s : State}
    (hs : s.outputsFollow = true) (keeps : ∀ u, (owner u).outputParts = u.outputParts) :
    (s.request h k named owner).outputsFollow = true :=
  request_follows hs fun u => (driven_congr (keeps u)).2

theorem exec_follows {c : Instr} {s t : State} (hs : s.outputsFollow = true) (he : exec c s = .next t) :
    t.outputsFollow = true := by
  cases c
  case powerOn bad => cases he; exact outputsFollow_of_driven (restart_driven _ _ _ _)
  case resetLineLow =>
    cases he
    exact event_stops hs fun s => resetLow_power _
  case resetLineHigh bad =>
    cases he
    split
    · exact outputsFollow_of_driven (riseReset_driven _ _)
    · exact hs
  case restartTaken bad => cases he; exact event_follows hs takeRestart_driven
  case status h => cases he; exact request_parts_follows hs (answerStatus_parts h)
  case subscribe h m => cases he; exact request_parts_follows hs (subscribe_parts h m)
  case areaQuery h n => cases he; exact request_parts_follows hs (areaQuery_parts h n)
  case setMode h m => cases he; exact request_parts_follows hs (setMode_parts h m)
  case setTime h c => cases he; exact request_parts_follows hs (setTime_parts h c)
  case setDescriptor h i e v n a => cases he; exact request_parts_follows hs (setDescriptor_parts h i e v n a)
  case setClimate h n f => cases he; exact request_parts_follows hs (setClimate_parts h n f)
  case clearClimateFlags h n => cases he; exact request_parts_follows hs (clearClimateFlags_parts h n)
  case setFireArea h n c d v => cases he; exact request_follows hs fun _ => setFireArea_driven
  case setFireDetector h n a p => cases he; exact request_follows hs fun _ => setFireDetector_driven
  case recharged h n => cases he; exact request_follows hs fun _ => recharged_driven
  case isolate h n x => cases he; exact request_follows hs fun _ => isolate_driven
  case confirmArea h n => cases he; exact request_follows hs fun _ => confirmArea_driven
  case resetArea h n => cases he; exact request_follows hs fun _ => resetArea_driven
  case format h => cases he; exact request_follows hs fun _ => formatRequest_driven
  case restart h => cases he; exact request_parts_follows hs fun u => answer_parts h _ _ _ _ u
  case enrol h l x => cases he; exact request_parts_follows hs (enrol_parts h l x)
  case retire h l => cases he; exact request_parts_follows hs (retire_parts h l)
  case relocate h l x => cases he; exact request_parts_follows hs (relocate_parts h l x)
  case custodyQuery h l => cases he; exact request_parts_follows hs (custodyQuery_parts h l)
  case doseReset h l => cases he; exact request_parts_follows hs (doseReset_parts h l)
  case checkout h l => cases he; exact request_parts_follows hs (checkout_parts h l)
  case cancel h l => cases he; exact request_parts_follows hs (cancel_parts h l)
  case placed h l n => cases he; exact request_parts_follows hs (placed_parts h l n)
  case shelved h l x => cases he; exact request_parts_follows hs (shelved_parts h l x)
  case slotQuery h n => cases he; exact request_parts_follows hs (slotQuery_parts h n)
  case setStaging h f => cases he; exact request_parts_follows hs (setStaging_parts h f)
  case consignOpen h a b => cases he; exact request_parts_follows hs (consignOpen_parts h a b)
  case consignAdd h n l => cases he; exact request_parts_follows hs (consignAdd_parts h n l)
  case consignRemove h n l => cases he; exact request_parts_follows hs (consignRemove_parts h n l)
  case consignSeal h n => cases he; exact request_parts_follows hs (consignSeal_parts h n)
  case consignCancel h n => cases he; exact request_parts_follows hs (consignCancel_parts h n)
  case consignUnlock h n => cases he; exact request_parts_follows hs (consignUnlock_parts h n)
  case consignQuery h n => cases he; exact request_parts_follows hs (consignQuery_parts h n)
  case hatchRequest h p => cases he; exact request_parts_follows hs (hatchRequest_parts h p)
  case hatchRelease h => cases he; exact request_parts_follows hs (hatchRelease_parts h)
  case loaded h l => cases he; exact request_parts_follows hs (loaded_parts h l)
  case unloaded h l => cases he; exact request_parts_follows hs (unloaded_parts h l)
  case arrive h n c w => cases he; exact request_parts_follows hs (arrive_parts h n c w)
  case taken h l => cases he; exact request_parts_follows hs (taken_parts h l)
  case deposited h l => cases he; exact request_parts_follows hs (deposited_parts h l)
  case exchangeQuery h => cases he; exact request_parts_follows hs (exchangeQuery_parts h)
  case unknownRequestKind h k => cases he; exact request_parts_follows hs fun _ => rfl
  case rezoneSweepStep => cases he; exact event_parts_follows hs rezoneStep_parts
  case rezoneDone => cases he; exact event_parts_follows hs rezoneEnd_parts
  case formatDone => cases he; exact event_parts_follows hs formatEnd_parts
  case nonRequestFrame p k => cases he; exact event_follows hs validFrame_driven
  case frameDiscarded p bs => cases he; exact event_parts_follows hs (discardFrame_parts p bs)
  case interByteGapTimeout p => cases he; exact event_parts_follows hs (onLink_parts p _)
  case frameTransmitEnd p => cases he; exact event_parts_follows hs (frameEnd_parts p)
  case facilityLinkLost => cases he; exact event_follows hs loseLink_driven
  case storeWriteEnd => cases he; exact event_follows hs writeEnd_driven
  case clockSnapshot => cases he; exact event_parts_follows hs snapshotPoint_parts
  case sweepDue => cases he; exact event_parts_follows hs sweepFallsDue_parts
  case sensorReadStart => cases he; exact event_parts_follows hs beginRead_parts
  case readTimeLimit => cases he; exact event_parts_follows hs limitRead_parts
  case busWaitTimeout => cases he; exact event_parts_follows hs endBusWait_parts
  case sampleEvent r => cases he; exact event_follows hs sampleOf_driven
  case detectorLineChange d al fl => cases he; exact event_follows hs detectorChange_driven
  case callPointOperated a => cases he; exact event_follows hs callPointOperated_driven
  case callPointInactive a => cases he; exact event_follows hs callPointInactive_driven
  case abortHoldActive => cases he; exact event_follows hs abortHoldActive_driven
  case abortHoldReleased => cases he; exact event_follows hs abortHoldReleased_driven
  case retakeAtScan => cases he; exact event_follows hs retakeInputs_driven
  case dischargeDelayExpiry a => cases he; exact event_follows hs dischargeArea_driven
  case releasePulseEnd a => cases he; exact event_follows hs endPulse_driven
  case ventTimeExpiry a => cases he; exact event_follows hs ventEnd_driven
  case doorOpened d => cases he; exact event_parts_follows hs (doorOpened_parts d)
  case doorClosed d => cases he; exact event_parts_follows hs (doorClosed_parts d)
  case doorHeld d => cases he; exact event_parts_follows hs (heldDoor_parts d)
  case latchLapse => cases he; exact event_parts_follows hs lapseLatch_parts
  case pickLapsed n => cases he; exact event_parts_follows hs (pickLapse_parts n)
  case exchangeTimeout => cases he; exact event_parts_follows hs timeOutExchange_parts
  case timeBaseSecond => cases he; exact event_parts_follows hs fun _ => rfl
  case lossOfSupply => cases he; exact outputsFollow_of_not_running (by rw [loseSupply_power]; decide)

/-- Taking a command off the queue, and the idle transmitters' next frames, leave the outputs and their causes. -/
theorem step_follows {s t : State} (hs : s.outputsFollow = true) (he : step s = .next t) : t.outputsFollow = true := by
  unfold step at he
  split at he
  · cases he
    refine scan_follows ((outputsFollow_iff _).2 fun running => ?_)
    rw [startTransmitters_power] at running
    exact (driven_congr (startTransmitters_parts s)).2 ((outputsFollow_iff s).1 hs running)
  · exact exec_follows (by exact hs) he

/-- Settles O58: every command's act, and the input scan, keeps the outputs on their causes. -/
theorem stepsKeepTheOutputsOnTheirCauses : Obligations.StepsKeepTheOutputsOnTheirCauses :=
  fun _ _ hs he => step_follows hs he

end Sys2Proof.Machine
end

