-- ==== Sys2Proof/Proofs/SensorSweep.lean ====
section
/-! SUPPORT. The events of the climate sweep and of the sensor bus (R16 to R18). -/

namespace Sys2Proof.Machine

/-! ## The sweep and the sensor bus (R16 to R18) -/

theorem exec_sweepDue {s : State} (hp : s.power = .running) : exec .sweepDue s = .next s.sweepFallsDue :=
  congrArg Host.Outcome.next (event_running _ hp)

theorem exec_sensorReadStart {s : State} (hp : s.power = .running) : exec .sensorReadStart s = .next s.beginRead :=
  congrArg Host.Outcome.next (event_running _ hp)

theorem exec_readTimeLimit {s : State} (hp : s.power = .running) : exec .readTimeLimit s = .next s.limitRead :=
  congrArg Host.Outcome.next (event_running _ hp)

theorem exec_busWaitTimeout {s : State} (hp : s.power = .running) : exec .busWaitTimeout s = .next s.endBusWait :=
  congrArg Host.Outcome.next (event_running _ hp)

/-- A sweep that falls due with none in flight starts (R17). -/
theorem sweepFallsDue_starts {s : State} (due : s.vault.uptime % 60 = 0 ∧ s.climate.lastSweepDueAt ≠ some s.vault.uptime)
    (idle : s.climate.sweep = .idle) : s.sweepFallsDue = { s with climate := { s.climate with
      lastSweepDueAt := some s.vault.uptime, sweep := .waiting (.area .vaultA) s.vault.uptime } } := by
  simp only [State.sweepFallsDue]
  rw [if_pos due, idle]
  rfl

/-- A sweep that falls due while one is in flight is dropped and counted (R17). -/
theorem sweepFallsDue_drops {s : State} (due : s.vault.uptime % 60 = 0 ∧ s.climate.lastSweepDueAt ≠ some s.vault.uptime)
    (busy : s.climate.sweep ≠ .idle) : s.sweepFallsDue = { s with climate := { s.climate with
      lastSweepDueAt := some s.vault.uptime, dropped := min 65535 (s.climate.dropped + 1) } } := by
  simp only [State.sweepFallsDue]
  rw [if_pos due]
  split
  · exact absurd ‹_› busy
  all_goals rfl

theorem sweepFallsDue_of_not_due {s : State}
    (due : ¬ (s.vault.uptime % 60 = 0 ∧ s.climate.lastSweepDueAt ≠ some s.vault.uptime)) : s.sweepFallsDue = s := by
  simp only [State.sweepFallsDue]
  rw [if_neg due]

/-- While a channel waits, its read begins or its wait ends (R16, R18). -/
theorem sweep_events_of_waiting {s : State} {c : Channel} {since : Nat} (w : s.climate.sweep = .waiting c since) :
    s.beginRead = { s with climate := { s.climate with sweep := .reading c, bus := [.start, .addressRead c.busAddress] } } ∧
    s.limitRead = s ∧
    s.endBusWait = if since + 30 ≤ s.vault.uptime then { s with climate := { s.climate with sweep := .ended c } } else s := by
  refine ⟨?_, ?_, ?_⟩
  · simp only [State.beginRead, w]; rfl
  · simp only [State.limitRead, w]
  · simp only [State.endBusWait, w]; rfl

/-- While a read is in progress, its limit ends it (R16; log 19). -/
theorem sweep_events_of_reading {s : State} {c : Channel} (r : s.climate.sweep = .reading c) :
    s.limitRead = { s with
      climate := { s.climate with
        sweep := .ended c
        bus := s.climate.bus ++ List.replicate (Config.bytesBeforeLimit s.inputs.limitedReads).val .acknowledge ++ [.stop] }
      inputs := { s.inputs with limitedReads := s.inputs.limitedReads + 1 } } ∧
    s.beginRead = s ∧ s.endBusWait = s := by
  refine ⟨?_, ?_, ?_⟩
  · simp only [State.limitRead, r, List.append_assoc]; rfl
  · simp only [State.beginRead, r]
  · simp only [State.endBusWait, r]

/-- With no channel waiting and no read in progress, no event of the bus is due (log 3). -/
theorem sweep_events_of_none {s : State} (n : s.climate.sweep = .idle ∨ ∃ c, s.climate.sweep = .ended c) :
    s.beginRead = s ∧ s.limitRead = s ∧ s.endBusWait = s := by
  obtain idle | ⟨c, ended⟩ := n
  · simp only [State.beginRead, State.limitRead, State.endBusWait, idle, and_self]
  · simp only [State.beginRead, State.limitRead, State.endBusWait, ended, and_self]

/-- Settles O14: each event of the sweep by the state of the sweep it finds. -/
theorem sweepsStartOrAreDropped : Obligations.SweepsStartOrAreDropped := by
  refine ⟨fun s hp => ?_, fun c since s hp w => ?_, fun c s hp r => ?_, fun s hp n => ?_⟩
  · rw [exec_sweepDue hp]
    exact ⟨fun due idle => congrArg _ (sweepFallsDue_starts due idle),
      fun due busy => congrArg _ (sweepFallsDue_drops due busy), fun due => congrArg _ (sweepFallsDue_of_not_due due)⟩
  · obtain ⟨begins, limit, wait⟩ := sweep_events_of_waiting w
    rw [exec_sensorReadStart hp, exec_readTimeLimit hp, exec_busWaitTimeout hp, begins, limit, wait]
    exact ⟨rfl, rfl, fun late => by rw [if_pos late], fun early => by rw [if_neg (by omega)]⟩
  · obtain ⟨limit, begins, wait⟩ := sweep_events_of_reading r
    rw [exec_sensorReadStart hp, exec_readTimeLimit hp, exec_busWaitTimeout hp, begins, limit, wait]
    exact ⟨rfl, rfl, rfl⟩
  · obtain ⟨begins, limit, wait⟩ := sweep_events_of_none n
    rw [exec_sensorReadStart hp, exec_readTimeLimit hp, exec_busWaitTimeout hp, begins, limit, wait]
    exact ⟨rfl, rfl, rfl⟩

end Sys2Proof.Machine
end

