-- ==== Sys2Proof/Proofs/ClimateControl.lean ====
section
/-! SUPPORT. Sensor words, channel records, the control of an area's outputs, and the three requests of chapter 2 (R16,
R19 to R27, R32 to R35). -/

namespace Sys2Proof.Machine

/-! ## Readings (R16, R19) -/

/-- Two bytes, the high-order one first, are the number that they spell. -/
theorem bytes_toNat (a b : Byte) : (a ++ b : Word16).toNat = a.toNat * 256 + b.toNat := by
  rw [BitVec.toNat_append, Nat.shiftLeft_eq, Nat.mul_comm, ← Nat.two_pow_add_eq_or_of_lt b.isLt]

/-- A sensor word's temperature is the two's complement of its first two bytes (R16). -/
theorem wordTemperature_eq (a b : Byte) : wordTemperature a b =
    if a.toNat < 128 then (a.toNat * 256 + b.toNat : Int) else (a.toNat * 256 + b.toNat : Int) - 65536 := by
  have low := b.isLt
  unfold wordTemperature
  rw [BitVec.toInt_eq_toNat_cond, bytes_toNat]
  by_cases positive : a.toNat < 128
  · rw [if_pos positive, if_pos (by omega)]
    push_cast; rfl
  · rw [if_neg positive, if_neg (by omega)]
    push_cast; rfl

theorem wordHumidity_eq (a b : Byte) : wordHumidity a b = a.toNat * 256 + b.toNat := bytes_toNat a b

/-! ## Channel records (R20, R21) -/

/-- The third invalid read in succession fails a channel that has not been GOOD since (R20, R21). -/
theorem after_invalid_of_missing {c : ChannelRecord} (h : c.state = .none ∨ c.state = .stale) :
    c.after none = if 3 ≤ c.missCount + 1 then { c with state := .failed, missCount := min 255 (c.missCount + 1), reported := true }
      else { c with missCount := min 255 (c.missCount + 1) } := by
  unfold ChannelRecord.after
  obtain unread | stale := h
  · simp only [unread]
  · simp only [stale]

/-! ## Normal control (R24 to R27) -/

/-- A held reading decides the dehumidifier by target and band, and the heater by its target (R24, R26). -/
theorem control_of_held {ch : ChannelRecord} {x : Held} (held : ch.held = some x) (st : ch.state = .good ∨ ch.state = .stale)
    (up : Nat) (g : ClimateSettings) (c : AreaControl) :
    c.control up g ch = (c.dehumidify up (humidityDecision g x.humidity)).heat (heaterDecision g x.temperature) := by
  unfold AreaControl.control
  obtain good | stale := st
  · simp only [good, held]
  · simp only [stale, held]

theorem heaterDecision_on {g : ClimateSettings} {t : Int} (h : t ≤ (g.heatTarget : Int) - 10) : heaterDecision g t = .on :=
  if_pos h

theorem heaterDecision_off {g : ClimateSettings} {t : Int} (h : (g.heatTarget : Int) ≤ t) : heaterDecision g t = .off := by
  unfold heaterDecision
  rw [if_neg (by omega), if_pos h]

theorem heaterDecision_unchanged {g : ClimateSettings} {t : Int} (low : (g.heatTarget : Int) - 10 < t)
    (high : t < (g.heatTarget : Int)) : heaterDecision g t = .unchanged := by
  unfold heaterDecision
  rw [if_neg (by omega), if_neg (by omega)]

/-- The dehumidifier under the decision of a held humidity (R24). -/
theorem dehumidify_of_humidity (up : Nat) (g : ClimateSettings) (c : AreaControl) (rh : Nat) :
    c.dehumidify up (humidityDecision g rh) =
      if g.rhTarget + g.rhBand ≤ rh then c.dehumidify up .on
      else if rh + g.rhBand ≤ g.rhTarget then c.dehumidify up .off
      else { c with deferred := false } := by
  unfold humidityDecision
  (repeat' split) <;> rfl

/-- Settles O15: the sensor word by its bytes, the channel record by its state, and the control by the channel's state
and the decisions of its held reading. -/
theorem readingsMoveChannelsAndOutputs : Obligations.ReadingsMoveChannelsAndOutputs := by
  refine ⟨⟨rfl, fun b1 b2 b3 b4 b5 => ?_, fun c x => rfl, fun c => ⟨?_, ?_, ?_, ?_⟩⟩, fun up g ch c => ⟨?_, ?_, ?_⟩⟩
  · intro t rh good
    have temperature : wordTemperature b1 b2 = t := wordTemperature_eq b1 b2
    have humidity : wordHumidity b3 b4 = rh := wordHumidity_eq b3 b4
    simp only [SensorReading.value, temperature, humidity]
    exact ⟨fun valid => if_pos valid, fun invalid => if_neg invalid⟩
  · intro good
    simp only [ChannelRecord.after, good]
  · intro failed
    simp only [ChannelRecord.after, failed]
  · intro missing few
    rw [after_invalid_of_missing missing, if_neg (by omega), Nat.min_eq_right (by omega)]
  · intro missing third
    rw [after_invalid_of_missing missing, if_pos (by omega), third]
    rfl
  · intro x held st
    rw [control_of_held held st, dehumidify_of_humidity]
    exact ⟨fun cold => by rw [heaterDecision_on cold]; rfl, fun warm => by rw [heaterDecision_off warm]; rfl,
      fun low high => by rw [heaterDecision_unchanged low high]; rfl⟩
  · intro failed
    simp only [AreaControl.control, failed]
    rfl
  · intro unread
    simp only [AreaControl.control, unread]
    rfl

/-! ## SET_CLIMATE, CLEAR_CLIMATE_FLAGS and AREA_QUERY (R32 to R35) -/

theorem exec_setClimate {h : ReqHead} {s : State} (n : Nat) (f : ClimateSettings) (ha : s.accepts h .setClimate) :
    exec (.setClimate h n f) s = .next ((s.received h).setClimate h n f) :=
  congrArg Host.Outcome.next (request_accepted _ ha)

theorem exec_clearClimateFlags {h : ReqHead} {s : State} (n : Nat) (ha : s.accepts h .clearClimateFlags) :
    exec (.clearClimateFlags h n) s = .next ((s.received h).clearClimateFlags h n) :=
  congrArg Host.Outcome.next (request_accepted _ ha)

theorem exec_areaQuery {h : ReqHead} {s : State} (n : Nat) (ha : s.accepts h .areaQuery) :
    exec (.areaQuery h n) s = .next ((s.received h).areaQuery h n) :=
  congrArg Host.Outcome.next (request_accepted _ ha)

@[simp] theorem area_ofNumber_number (a : Area) : Area.ofNumber a.number = some a := by cases a <;> rfl

theorem area_ofNumber_eq_none {n : Nat} (h : n < 1 ∨ 4 < n) : Area.ofNumber n = none := by
  match n, h with
  | 0, _ => rfl
  | n + 5, _ => rfl

@[simp] theorem channel_ofNumber_number (c : Channel) : Channel.ofNumber c.number = some c := by
  cases c with
  | area a => simp only [Channel.ofNumber, Channel.number, area_ofNumber_number]
  | outside => rfl

theorem channel_ofNumber_eq_none {n : Nat} (h : n < 1 ∨ 5 < n) : Channel.ofNumber n = none := by
  simp only [Channel.ofNumber, area_ofNumber_eq_none (n := n) (by omega), if_neg (show ¬ n = 5 by omega)]

theorem area_heated_eq (a : Area) : a.heated = decide (3 ≤ a.number) := by cases a <;> rfl

/-- The ranges of an area's six settings (R33). -/
theorem climateFieldsOk_iff (a : Area) (f : ClimateSettings) : climateFieldsOk a f = true ↔
    300 ≤ f.rhTarget ∧ f.rhTarget ≤ 600 ∧ 10 ≤ f.rhBand ∧ f.rhBand ≤ 100 ∧ f.alarmIndex ≤ 3 ∧ 300 ≤ f.doseThreshold ∧
      f.doseThreshold ≤ 800 ∧
      (if decide (3 ≤ a.number) = true then 150 ≤ f.heatTarget ∧ f.heatTarget ≤ 400 ∧ 1 ≤ f.coupling ∧ f.coupling ≤ 255
       else f.heatTarget = 0 ∧ f.coupling = 0) := by
  unfold climateFieldsOk
  rw [area_heated_eq]
  split <;> simp only [Bool.and_eq_true, decide_eq_true_eq, beq_iff_eq, and_assoc]

/-- A notice leaves every port's mask. -/
theorem takeNotice_mask (l : Link) (n : Notice) : (l.takeNotice n).mask = l.mask := by
  have start : ∀ l : Link, l.start.mask = l.mask := fun l => by rw [start_frame]
  have join : ∀ l : Link, (l.joinNotice n).mask = l.mask := fun l => by unfold Link.joinNotice; (repeat' split) <;> rfl
  rw [Link.takeNotice, start, join, start]

theorem postNotice_mask (n : NoticeBody) (p : Port) (s : State) : ((s.postNotice n).link p).mask = (s.link p).mask := by
  refine foldl_keeps _ (fun t : State => (t.link p).mask) (fun t q => ?_) n.ports s
  rw [noticeOn_link]
  split
  · exact takeNotice_mask _ _
  · rfl

/-- A request taken leaves every port's mask (R171, R172). -/
theorem received_mask (s : State) (h : ReqHead) (p : Port) : ((s.received h).link p).mask = (s.link p).mask := by
  have onLink : ∀ (q : Port) (f : Link → Link) (t : State), (∀ l, (f l).mask = l.mask) →
      ((t.onLink q f).link p).mask = (t.link p).mask := fun q f t hf => by
    simp only [State.onLink, State.link, links_get_set]
    split
    · rw [hf, ‹p = q›]
    · rfl
  refine (onLink h.port (fun l => { l with outstanding := true }) _ fun _ => rfl).trans ?_
  unfold State.validFrame
  split
  · exact onLink _ _ s fun _ => rfl
  · exact onLink _ _ s fun _ => rfl
  · simp only []
    split
    · exact (postNotice_mask _ _ _).trans (onLink _ _ s fun _ => rfl)
    · exact onLink _ _ s fun _ => rfl

/-- AREA_QUERY reports a channel as the state before the request has it (R35). -/
theorem areaReport_received (h : ReqHead) (c : Channel) (s : State) :
    (s.received h).areaReport h.port c = s.areaReport h.port c := by
  cases c with
  | outside => simp only [State.areaReport, received_climate]
  | area a =>
    simp only [State.areaReport, State.areaOutputs, received_climate, received_fire_areas, FireUnit.protectionOff,
      received_fire_detectors, Link.subscribed, received_mask]

/-- Settles O17: each of the three requests by the area or channel that its number names. -/
theorem climateRequestsActOnTheirArea : Obligations.ClimateRequestsActOnTheirArea := by
  refine ⟨fun h n f s ha => ?_, fun h n s ha => ?_, fun h n s ha => ?_⟩
  · rw [exec_setClimate n f ha]
    refine ⟨fun out => ?_, ?_, ?_⟩
    · simp only [State.setClimate, area_ofNumber_eq_none out]
    · rintro a rfl bad
      simp only [State.setClimate, area_ofNumber_number]
      rw [if_pos (Bool.eq_false_iff.2 fun ok => bad ((climateFieldsOk_iff a f).1 ok))]
    · rintro a rfl good
      simp only [State.setClimate, area_ofNumber_number]
      rw [if_neg (by rw [(climateFieldsOk_iff a f).2 good]; decide), received_climate]
  · rw [exec_clearClimateFlags n ha]
    refine ⟨fun out => ?_, ?_⟩
    · simp only [State.clearClimateFlags, area_ofNumber_eq_none out]
    · rintro a rfl
      simp only [State.clearClimateFlags, area_ofNumber_number]
  · rw [exec_areaQuery n ha]
    refine ⟨fun out => ?_, ?_⟩
    · simp only [State.areaQuery, channel_ofNumber_eq_none out]
    · rintro c rfl
      simp only [State.areaQuery, channel_ofNumber_number, areaReport_received]
      refine ⟨_, rfl, rfl, rfl, rfl, rfl, ?_, ?_⟩
      · cases c <;> simp [State.areaReport]
      · rintro a o rfl ho
        cases ho
        exact ⟨rfl, rfl, rfl, rfl, rfl, rfl, rfl, rfl⟩

end Sys2Proof.Machine
end

