-- ==== Sys2Proof/Proofs/FireChange.lean ====
section
/-! SUPPORT. A change of an area's fire state in the blocks that take it (R28 to R30, R55, R56). -/

namespace Sys2Proof.Machine

/-! ## A change of fire state in the climate unit (R28 to R30) -/

/-- An area's outputs under a change of its fire state: the shutdown, the damper opened, or as they are (R28 to R30). -/
def AreaControl.onFireChange (up : Nat) (old new : FireState) (c : AreaControl) : AreaControl :=
  if new.shutdown && !old.late then c.shutDown up
  else if new.vents || (old.late && new == .quiet) then { c with damperOpen := true }
  else c

/-- The climate unit's part in a change of fire state, in one equation. -/
theorem climateFireChange_climate (a : Area) (old : FireState) (s : State) :
    (s.climateFireChange a old).climate = { s.climate with
      fan := s.fire.areas.any fun x => x.state.vents
      controls := s.climate.controls.set a ((s.climate.controls.get a).onFireChange s.vault.uptime old
        (s.fire.areas.get a).state) } := by
  simp only [State.climateFireChange, AreaControl.onFireChange]
  split
  · rfl
  split
  · rfl
  · rw [perArea_set_get]

/-- A change of fire state in the climate unit, by the two states of the area. -/
theorem changeFire_climate (a : Area) (new : FireState) (s : State) :
    (s.changeFire a new).climate = { s.climate with
      fan := (s.changeFire a new).fire.areas.any fun x => x.state.vents
      controls := s.climate.controls.set a ((s.climate.controls.get a).onFireChange s.vault.uptime
        (s.fire.areas.get a).state new) } := by
  rw [changeFire_fire_areas]
  simp only [State.changeFire, State.announceFire, hatchFireChange_climate, dispatch_climate, climateFireChange_climate]
  simp [State.onFireArea, State.updateSounders]

theorem onFireChange_of_shutdown {new old : FireState} (up : Nat) (c : AreaControl) (h : new.shutdown = true)
    (early : old.late = false) : c.onFireChange up old new = c.shutDown up := by
  simp only [AreaControl.onFireChange, h, early, Bool.not_false, Bool.and_self, if_true]

theorem onFireChange_of_vents {new old : FireState} (up : Nat) (c : AreaControl)
    (h : new.vents = true ∨ (new = .quiet ∧ old.late = true)) : c.onFireChange up old new = { c with damperOpen := true } := by
  have opens : (new.vents || (old.late && new == .quiet)) = true := by
    obtain vents | ⟨quiet, late⟩ := h
    · rw [vents, Bool.true_or]
    · simp only [quiet, late, beq_self_eq_true, Bool.and_self, Bool.or_true]
  have runs : new.shutdown = false := by
    cases new <;> simp_all [FireState.vents, FireState.shutdown]
  simp only [AreaControl.onFireChange, runs, opens, Bool.false_and, if_true]
  rfl

theorem onFireChange_of_other {new old : FireState} (up : Nat) (c : AreaControl)
    (kept : (new.shutdown && !old.late) = false) (shut : (new.vents || (old.late && new == .quiet)) = false) :
    c.onFireChange up old new = c := by
  simp only [AreaControl.onFireChange, kept, shut]
  rfl

theorem vents_of_shutdown {x : FireState} (h : x.shutdown = true) : x.vents = false ∧ (x == .quiet) = false := by
  cases x <;> cases h <;> exact ⟨rfl, rfl⟩

/-- ALERT and EVACUATE follow the states at once (R56). -/
theorem changeFire_sounders (a : Area) (new : FireState) (s : State) :
    (s.changeFire a new).fire.alert = (s.changeFire a new).fire.alertOf ∧
      (s.changeFire a new).fire.evacuate = (s.changeFire a new).fire.evacuateOf := by
  have fire : (s.changeFire a new).fire =
      (((s.onFireArea a fun x => { x with state := new }).postNotice
        (.fireState a ((s.onFireArea a fun x => { x with state := new }).fire.areas.get a).state.name)).updateSounders).fire := by
    simp only [State.changeFire, State.announceFire, hatchFireChange_fire, dispatch_fire, climateFireChange_fire]
  rw [fire]
  exact ⟨rfl, rfl⟩

/-- Settles O18: the blocks that a change of fire state reaches, by the equations of its parts. -/
theorem fireStateChangeReachesEveryBlock : Obligations.FireStateChangeReachesEveryBlock := by
  intro a new s t old k v
  have climate : t.climate = _ := changeFire_climate a new s
  have control : t.climate.controls.get a = k.onFireChange s.vault.uptime old new := by
    rw [climate, perArea_get_set, if_pos rfl]
  obtain ⟨alert, evacuate⟩ := changeFire_sounders a new s
  have now : (v.fire.areas.get a).state = new := by
    simp only [v, State.onFireArea, perArea_get_set, if_pos]
  refine ⟨?_, ?_, ?_, ?_, ?_, alert, evacuate, ?_, ?_, ?_, ?_, ?_, ?_, ?_, ?_, ?_, ?_, ?_, fun _ _ _ => rfl⟩
  · simp only [t, State.changeFire, State.announceFire]
    rw [now]
  · exact changeFire_fire_areas a new s
  · exact changeFire_fire_detectors a new s
  · exact changeFire_fire_abort a new s
  · simp only [t, State.changeFire, announceFire_fire_trouble]; rfl
  · rw [climate]
  · rw [climate]
  · intro b other
    rw [climate, perArea_get_set, if_neg other]
  · intro shuts early
    rw [control, onFireChange_of_shutdown _ _ shuts early]
    rfl
  · intro opens
    rw [control, onFireChange_of_vents _ _ opens]
  · intro shuts late
    obtain ⟨closed, loud⟩ := vents_of_shutdown shuts
    rw [control, onFireChange_of_other _ _ (by rw [late, Bool.not_true, Bool.and_false])
      (by rw [closed, loud, Bool.and_false, Bool.or_false])]
  · rintro (rfl | ⟨rfl, early⟩)
    · rw [control, onFireChange_of_other _ _ rfl (by simp [FireState.vents])]
    · rw [control, onFireChange_of_other _ _ rfl (by rw [early]; rfl)]
  · exact changeFire_vault a new s
  · exact changeFire_power a new s
  · exact changeFire_accumulators a new s
  · exact changeFire_staging_settings a new s

end Sys2Proof.Machine
end

