-- ==== Sys2Proof/Proofs/SampleParts.lean ====
section
/-! SUPPORT. The parts of a sample event (R22), each as an equation: the channel's record, the area's control, alarm and
accumulator, and what the staging and hatch units leave. -/

namespace Sys2Proof.Machine

/-! ## A sample event in the climate and exposure units (R20 to R23, R31, R73) -/

/-- SENSOR_STATE as a sample event sends it: on a change of a channel that has been FAILED (R21). -/
def State.channelNotice (c : Channel) (v : Option Held) (s : State) : State :=
  if ((s.climate.channels.get c).after v).reported = true ∧
      ((s.climate.channels.get c).after v).state ≠ (s.climate.channels.get c).state
  then s.postNotice (.sensorState c ((s.climate.channels.get c).after v).state) else s

/-- CLIMATE_ALARM as a sample event sends it: at the alarm level, with HIGH_RH not latched (R31). -/
def State.alarmNotice (a : Area) (held : Option Held) (s : State) : State :=
  match held with
  | some x =>
    if alarmLevel (s.climate.settings.get a).alarmIndex ≤ x.humidity ∧ (s.climate.controls.get a).highRh = false
    then s.postNotice (.climateAlarm a x.humidity) else s
  | none => s

/-- The notices of a sample event in the climate unit (R21, R31). -/
def State.sampleNotices (c : Channel) (v : Option Held) (s : State) : State :=
  match c with
  | .area a => (s.channelNotice c v).alarmNotice a ((s.climate.channels.get c).after v).held
  | .outside => s.channelNotice c v

/-- An area's outputs under normal control, and left alone in the later fire states (R23). -/
def State.controlled (s : State) (a : Area) : AreaControl :=
  if (s.fire.areas.get a).state.late then s.climate.controls.get a
  else (s.climate.controls.get a).control s.vault.uptime (s.climate.settings.get a) (s.climate.channels.get (.area a))

/-- A control record with HIGH_RH latched at the alarm level (R31). -/
def AreaControl.latch (level : Nat) (held : Option Held) (k : AreaControl) : AreaControl :=
  { k with highRh := k.highRh || held.any fun x => decide (level ≤ x.humidity) }

/-- An area's accumulator as its sample event leaves it (R73). -/
def State.accumulated (s : State) (a : Area) : Nat :=
  match s.climate.held (.area a) with
  | some x => accumulate (s.accumulators.get a) x.humidity (s.climate.settings.get a).doseThreshold
  | none => s.accumulators.get a

/-- A store with an area's accumulator handed over, unless a format folds it (R73, R179, R184). -/
def Store.takeAccumulator (st : Store) (a : Area) (n : Nat) : Store :=
  if st.folds (.accumulator a) then st else st.handOver (.accumulator a) (.accumulator n)

/-- What a notice leaves in the link units depends on them and on the clock. -/
theorem postNotice_links_congr {s t : State} (hl : s.links = t.links) (hc : s.vault.clock = t.vault.clock)
    (n : NoticeBody) : (s.postNotice n).links = (t.postNotice n).links := sendNotice_links_congr hl hc _ n

/-- A notice sent in a state with the link units and the clock of another. -/
theorem postNotice_within {s t : State} (hl : t.links = s.links) (hc : t.vault.clock = s.vault.clock) (n : NoticeBody) :
    t.postNotice n = { t with links := (s.postNotice n).links } := by
  rw [← postNotice_links_congr hl hc n]
  exact postNotice_frame n t

theorem channelNotice_frame (c : Channel) (v : Option Held) (s : State) :
    s.channelNotice c v = { s with links := (s.channelNotice c v).links } := by
  unfold State.channelNotice
  split
  · rw [postNotice_frame]
  · rfl

/-- A sample event's work on its channel's record: the record, SENSOR_STATE and TROUBLE, and nothing else (R20, R21). -/
theorem recordSample_eq (c : Channel) (v : Option Held) (s : State) : s.recordSample c v = { s with
    climate := { s.climate with channels := s.climate.channels.set c ((s.climate.channels.get c).after v) }
    fire := { s.fire with trouble := (s.recordSample c v).fire.trouble }
    links := (s.channelNotice c v).links } := by
  simp only [State.recordSample, State.channelNotice, Bool.and_eq_true, bne_iff_ne]
  split
  · refine (postNotice_within (s := s) (by rfl) (by rfl) _).trans ?_
    rw [postNotice_fire]
    rfl
  · rfl

/-- TROUBLE stands on its causes behind the channel's record (R57). -/
theorem recordSample_trouble (c : Channel) (v : Option Held) (s : State) : (s.recordSample c v).troubleDriven := by
  simp only [State.recordSample]
  split
  · exact (troubleDriven_congr (postNotice_parts _ _)).2 rfl
  · rfl

theorem dehumidify_highRh (up : Nat) (c : AreaControl) (d : Decision) : (c.dehumidify up d).highRh = c.highRh := by
  cases d <;> unfold AreaControl.dehumidify <;> (repeat' split) <;> rfl

theorem heat_highRh (c : AreaControl) (d : Decision) : (c.heat d).highRh = c.highRh := by cases d <;> rfl

theorem control_highRh (up : Nat) (g : ClimateSettings) (ch : ChannelRecord) (c : AreaControl) :
    (c.control up g ch).highRh = c.highRh := by
  unfold AreaControl.control
  split <;> simp only [heat_highRh, dehumidify_highRh]

theorem controlled_highRh (s : State) (a : Area) : (s.controlled a).highRh = (s.climate.controls.get a).highRh := by
  unfold State.controlled
  split
  · rfl
  · exact control_highRh _ _ _ _

theorem controlSample_eq (a : Area) (s : State) : s.controlSample a = s.onControl a fun _ => s.controlled a := by
  unfold State.controlSample State.controlled
  split
  · simp only [State.onControl, perArea_set_get]
  · rfl

theorem latch_none (level : Nat) (k : AreaControl) : k.latch level none = k := by
  simp only [AreaControl.latch, Option.any_none, Bool.or_false]

theorem latch_of_latched {k : AreaControl} (h : k.highRh = true) (level : Nat) (held : Option Held) :
    k.latch level held = k := by
  rw [AreaControl.latch, h, Bool.true_or, ← h]

theorem latch_of_low {level : Nat} {x : Held} (h : ¬ level ≤ x.humidity) (k : AreaControl) : k.latch level (some x) = k := by
  simp only [AreaControl.latch, Option.any_some, decide_eq_false h, Bool.or_false]

/-- The alarm test latches HIGH_RH at the alarm level, with CLIMATE_ALARM where it was not latched (R31). -/
theorem alarmSample_eq (a : Area) (s : State) : s.alarmSample a =
    { s.onControl a (AreaControl.latch (alarmLevel (s.climate.settings.get a).alarmIndex) (s.climate.held (.area a))) with
      links := (s.alarmNotice a (s.climate.held (.area a))).links } := by
  unfold State.alarmSample State.alarmNotice
  cases s.climate.held (.area a) with
  | none => simp only [State.onControl, latch_none, perArea_set_get]
  | some x =>
    by_cases alarm : alarmLevel (s.climate.settings.get a).alarmIndex ≤ x.humidity ∧ (s.climate.controls.get a).highRh = false
    · simp only [if_pos alarm]
      refine (postNotice_within (s := s) (by rfl) (by rfl) _).trans ?_
      simp [State.onControl, AreaControl.latch, alarm.1]
    · have kept : (s.climate.controls.get a).latch (alarmLevel (s.climate.settings.get a).alarmIndex) (some x) =
          s.climate.controls.get a := by
        cases latched : (s.climate.controls.get a).highRh
        · exact latch_of_low (fun h => alarm ⟨h, latched⟩) _
        · exact latch_of_latched latched _ _
      simp only [if_neg alarm, State.onControl, kept, perArea_set_get]

/-- An area's accumulator gains at its sample event, and is handed to the store (R73). -/
theorem accumulateSample_eq (a : Area) (s : State) : s.accumulateSample a = { s with
    accumulators := s.accumulators.set a (s.accumulated a), store := s.store.takeAccumulator a (s.accumulated a) } := by
  have live : ({ s with accumulators := s.accumulators.set a (s.accumulated a) }).liveContent (.accumulator a) =
      .accumulator (s.accumulated a) := congrArg Content.accumulator ((perArea_get_set _ _ _ _).trans (if_pos rfl))
  change ({ s with accumulators := s.accumulators.set a (s.accumulated a) }).persist (.accumulator a) = _
  unfold State.persist Store.takeAccumulator
  rw [live]
  split <;> rfl

/-- What CLIMATE_ALARM leaves in the link units depends on them, the clock, the alarm level and HIGH_RH (R31). -/
theorem alarmNotice_links_congr {s t : State} {a : Area} (hl : s.links = t.links) (hc : s.vault.clock = t.vault.clock)
    (hg : s.climate.settings = t.climate.settings)
    (hh : (s.climate.controls.get a).highRh = (t.climate.controls.get a).highRh) (held : Option Held) :
    (s.alarmNotice a held).links = (t.alarmNotice a held).links := by
  unfold State.alarmNotice
  rw [hg, hh]
  split
  · split
    · exact postNotice_links_congr hl hc _
    · exact hl
  · exact hl

/-- What a sample event of an area's channel does in the climate and exposure units, in one equation (R23, R31, R73). -/
theorem areaSample_eq (a : Area) (s : State) : s.areaSample a = { s with
    climate := { s.climate with controls := s.climate.controls.set a ((s.controlled a).latch
      (alarmLevel (s.climate.settings.get a).alarmIndex) (s.climate.held (.area a))) }
    accumulators := s.accumulators.set a (s.accumulated a)
    links := (s.alarmNotice a (s.climate.held (.area a))).links
    store := s.store.takeAccumulator a (s.accumulated a) } := by
  have latched : ((s.onControl a fun _ => s.controlled a).climate.controls.get a).highRh =
      (s.climate.controls.get a).highRh := by
    rw [onControl_climate, perArea_get_set, if_pos rfl, controlled_highRh]
  have notice := alarmNotice_links_congr (s := s.onControl a fun _ => s.controlled a) (t := s) rfl rfl rfl latched
    (s.climate.held (.area a))
  have held : (s.onControl a fun _ => s.controlled a).climate.held (.area a) = s.climate.held (.area a) := rfl
  rw [State.areaSample, controlSample_eq, alarmSample_eq, accumulateSample_eq, held, notice]
  simp only [State.onControl, perArea_set_set, perArea_get_set, if_true]
  rfl

/-! ## A sample event as its two halves (R22) -/

/-- A sample event in the climate and exposure units: the channel's record, and behind it the work on its area (R22). -/
def State.sensed (c : Channel) (v : Option Held) (s : State) : State :=
  match c with
  | .area a => (s.recordSample c v).areaSample a
  | .outside => s.recordSample c v

/-- A sample event in the staging and hatch units, which read the channels of a climate unit (R22). -/
def State.handUnits (g : ClimateUnit) (c : Channel) (s : State) : State :=
  match c with
  | .area .vaultA => s.mapSlots (Slot.takeBase g c)
  | .area .vaultB => s.mapSlots (Slot.takeBase g c)
  | .area .staging => s.stageSample
  | .area .hatch => s.hatchSample (HatchEntry.step g)
  | .outside => (s.mapSlots (Slot.takeBase g c)).hatchSample (HatchEntry.takeBase g)

/-- A sample event is its two halves, and then the sweep's next channel. -/
theorem sample_eq (c : Channel) (v : Option Held) (s : State) :
    s.sample c v = ((s.sensed c v).handUnits (s.recordSample c v).climate c).nextRead c := by
  cases c with
  | outside => rfl
  | area a => cases a <;> rfl

/-- The climate unit with a channel's record after a read (R20). -/
def ClimateUnit.recorded (g : ClimateUnit) (c : Channel) (v : Option Held) : ClimateUnit :=
  { g with channels := g.channels.set c ((g.channels.get c).after v) }

theorem recordSample_climate (c : Channel) (v : Option Held) (s : State) :
    (s.recordSample c v).climate = s.climate.recorded c v := by rw [recordSample_eq]; rfl

@[simp] theorem recorded_held (g : ClimateUnit) (c : Channel) (v : Option Held) :
    (g.recorded c v).held c = ((g.channels.get c).after v).held := by
  simp only [ClimateUnit.held, ClimateUnit.recorded, perChannel_get_set, if_true]

/-- An area's outputs behind its sample event: normal control by the new record, unless the fire state is a later one,
and HIGH_RH latched at the alarm level (R23, R31). -/
def State.sensedControl (s : State) (a : Area) (now : ChannelRecord) : AreaControl :=
  (if (s.fire.areas.get a).state.late then s.climate.controls.get a
    else (s.climate.controls.get a).control s.vault.uptime (s.climate.settings.get a) now).latch
      (alarmLevel (s.climate.settings.get a).alarmIndex) now.held

/-- An area's accumulator behind its sample event (R73). -/
def State.sensedDose (s : State) (a : Area) (held : Option Held) : Nat :=
  match held with
  | some x => accumulate (s.accumulators.get a) x.humidity (s.climate.settings.get a).doseThreshold
  | none => s.accumulators.get a

theorem recordSample_controlled (a : Area) (v : Option Held) (s : State) :
    ((s.recordSample (.area a) v).controlled a).latch (alarmLevel (s.climate.settings.get a).alarmIndex)
      ((s.climate.channels.get (.area a)).after v).held =
    s.sensedControl a ((s.climate.channels.get (.area a)).after v) := by
  unfold State.controlled State.sensedControl
  rw [recordSample_eq]
  simp only [perChannel_get_set, if_true]

theorem recordSample_accumulated (a : Area) (v : Option Held) (s : State) :
    (s.recordSample (.area a) v).accumulated a = s.sensedDose a ((s.climate.channels.get (.area a)).after v).held := by
  unfold State.accumulated State.sensedDose
  rw [recordSample_climate, recorded_held, recordSample_eq]
  rfl

theorem recordSample_alarmNotice (a : Area) (v : Option Held) (held : Option Held) (s : State) :
    ((s.recordSample (.area a) v).alarmNotice a held).links = ((s.channelNotice (.area a) v).alarmNotice a held).links := by
  have links : (s.recordSample (.area a) v).links = (s.channelNotice (.area a) v).links := by rw [recordSample_eq]
  have vault : (s.recordSample (.area a) v).vault = (s.channelNotice (.area a) v).vault := by
    rw [recordSample_eq, channelNotice_frame]
  have climate : (s.channelNotice (.area a) v).climate = s.climate := by rw [channelNotice_frame]
  exact alarmNotice_links_congr links (by rw [vault]) (by rw [recordSample_climate, climate]; rfl)
    (by rw [recordSample_climate, climate]; rfl) held

/-- A sample event of an area's channel in the climate and exposure units, in one equation (R20 to R23, R31, R73). -/
theorem sensed_area (a : Area) (v : Option Held) (s : State) : s.sensed (.area a) v = { s with
    climate := { s.climate.recorded (.area a) v with
      controls := s.climate.controls.set a (s.sensedControl a ((s.climate.channels.get (.area a)).after v)) }
    accumulators := s.accumulators.set a (s.sensedDose a ((s.climate.channels.get (.area a)).after v).held)
    fire := { s.fire with trouble := (s.sensed (.area a) v).fire.trouble }
    links := (s.sampleNotices (.area a) v).links
    store := s.store.takeAccumulator a (s.sensedDose a ((s.climate.channels.get (.area a)).after v).held) } := by
  have climate := recordSample_climate (.area a) v s
  have settings : (s.climate.recorded (.area a) v).settings = s.climate.settings := rfl
  have trouble : (s.sensed (.area a) v).fire.trouble = (s.recordSample (.area a) v).fire.trouble := by
    rw [State.sensed, areaSample_eq]
  rw [trouble, State.sensed, areaSample_eq, recordSample_accumulated, recordSample_alarmNotice, climate, recorded_held, settings,
    recordSample_controlled]
  rw [recordSample_eq]
  rfl

/-- A sample event of channel 5 in the climate and exposure units (R20, R21). -/
theorem sensed_outside (v : Option Held) (s : State) : s.sensed .outside v = { s with
    climate := s.climate.recorded .outside v
    fire := { s.fire with trouble := (s.sensed .outside v).fire.trouble }
    links := (s.sampleNotices .outside v).links } := recordSample_eq .outside v s

/-- What a sample event does in no unit but the climate and exposure units. -/
theorem sensed_frame (c : Channel) (v : Option Held) (s : State) : s.sensed c v = { s with
    climate := (s.sensed c v).climate, accumulators := (s.sensed c v).accumulators, fire := (s.sensed c v).fire
    links := (s.sampleNotices c v).links, store := (s.sensed c v).store } := by
  cases c with
  | area a => rw [sensed_area]
  | outside => rw [sensed_outside]

/-- The climate unit takes the channel's record and controls the areas' outputs. -/
theorem sensed_climate (c : Channel) (v : Option Held) (s : State) :
    (s.sensed c v).climate = { s.climate.recorded c v with controls := (s.sensed c v).climate.controls } := by
  cases c with
  | area a => rw [sensed_area]
  | outside => rw [sensed_outside]

/-- An area's outputs and accumulator are moved by the sample events of its own channel alone (R23, R73). -/
theorem sensed_other (c : Channel) (v : Option Held) (a : Area) (s : State) (h : c ≠ .area a) :
    (s.sensed c v).climate.controls.get a = s.climate.controls.get a ∧
      (s.sensed c v).accumulators.get a = s.accumulators.get a := by
  cases c with
  | area b =>
    have other : a ≠ b := fun e => h (by rw [e])
    rw [sensed_area]
    simp only [perArea_get_set, if_neg other, and_self]
  | outside => rw [sensed_outside]; exact ⟨rfl, rfl⟩

/-! ## The store (R73, R179, R184) -/

/-- The writes of a record that have not ended, in their order. -/
def Store.writesOf (st : Store) (r : StoreRecord) : List Job := (st.inflight.toList ++ st.queue).filter fun j => j.record == r

/-- A hand-over leaves the writes of every other record. -/
theorem handOver_writesOf {r q : StoreRecord} (h : r ≠ q) (x : Content) (st : Store) :
    (st.handOver r x).writesOf q = st.writesOf q := by
  unfold Store.handOver Store.writesOf
  split
  · simp only [List.filter_append, foldWrite_other h]
  · unfold Store.append
    rw [begin_writes]
    split <;> simp [List.filter_append, h]

theorem persist_writesOf {r q : StoreRecord} (h : r ≠ q) (s : State) :
    (s.persist r).store.writesOf q = s.store.writesOf q := by
  unfold State.persist
  split
  · rfl
  · exact handOver_writesOf h _ _

/-- A format takes an accumulator in while it has its record still to write (R184; log 18). -/
theorem folds_accumulator_iff (st : Store) (a : Area) :
    st.folds (.accumulator a) = true ↔ ∃ k, st.format = .writing k ∧ k ≤ 4 + a.number := by
  unfold Store.folds
  cases st.format with
  | writing k =>
    simp only [StoreRecord.isAccumulator, Bool.true_and, decide_eq_true_eq, FormatPhase.writing.injEq, exists_eq_left']
    exact Iff.rfl
  | marking => simp
  | none => simp

theorem takeAccumulator_of_folds {st : Store} {a : Area} (h : ∃ k, st.format = .writing k ∧ k ≤ 4 + a.number) (n : Nat) :
    st.takeAccumulator a n = st := if_pos ((folds_accumulator_iff st a).2 h)

theorem takeAccumulator_of_not_folds {st : Store} {a : Area} (h : ¬ ∃ k, st.format = .writing k ∧ k ≤ 4 + a.number)
    (n : Nat) : st.takeAccumulator a n = st.handOver (.accumulator a) (.accumulator n) :=
  if_neg fun f => h ((folds_accumulator_iff st a).1 f)

theorem takeAccumulator_writesOf {a b : Area} (h : b ≠ a) (st : Store) (n : Nat) :
    (st.takeAccumulator b n).writesOf (.accumulator a) = st.writesOf (.accumulator a) := by
  unfold Store.takeAccumulator
  split
  · rfl
  · exact handOver_writesOf (fun e => h (StoreRecord.accumulator.inj e)) _ _

/-- What a hand-over of an accumulator leaves of the store. -/
theorem takeAccumulator_frame (st : Store) (a : Area) (n : Nat) : (st.takeAccumulator a n).cells = st.cells ∧
    (st.takeAccumulator a n).flags = st.flags ∧ (st.takeAccumulator a n).format = st.format := by
  unfold Store.takeAccumulator
  split
  · exact ⟨rfl, rfl, rfl⟩
  · rw [handOver_frame]; exact ⟨rfl, rfl, rfl⟩

theorem sensed_store_frame (c : Channel) (v : Option Held) (s : State) : (s.sensed c v).store.cells = s.store.cells ∧
    (s.sensed c v).store.flags = s.store.flags ∧ (s.sensed c v).store.format = s.store.format := by
  cases c with
  | area a => rw [sensed_area]; exact takeAccumulator_frame _ _ _
  | outside => rw [sensed_outside]; exact ⟨rfl, rfl, rfl⟩

/-! ## The staging and hatch units -/

/-- Nothing waits for an output without tickets, so the store is as it was. -/
@[simp] theorem notify_nil_store (n : NoticeBody) (s : State) : (s.notify [] n).store = s.store := postNotice_store n s

@[simp] theorem arbitrate_nil_store (s : State) : (s.arbitrate []).store = s.store := by
  rw [arbitrate_eq]
  split <;> simp

/-- A quantity that the record's write, its READY notice, the consignment test and an arbitration keep is kept by the
flips, and by all of a Staging sample event behind the slots' steps (R118, R119). -/
theorem flipSlot_keeps {β : Type} (g : State → β) (put : ∀ p r s, g (State.putRecord p r s) = g s)
    (tell : ∀ needs n s, g (State.notify needs n s) = g s) (x : List Nat × State) (n : Fin 32) :
    g (State.flipSlot x n).2 = g x.2 := by
  unfold State.flipSlot
  split
  · rfl
  · simp only []
    split
    · exact put _ _ _
    · exact (tell _ _ _).trans (put _ _ _)

theorem stageSample_keeps {β : Type} (g : State → β) (steps : ∀ f s, g (State.mapSlots f s) = g s)
    (put : ∀ p r s, g (State.putRecord p r s) = g s) (tell : ∀ needs n s, g (State.notify needs n s) = g s)
    (test : ∀ needs is s, g (State.testPlaces needs is s).2 = g s) (arb : ∀ needs s, g (State.arbitrate needs s) = g s)
    (s : State) : g s.stageSample = g s := by
  have flips := fun t => foldl_keeps State.flipSlot (fun x => g x.2) (flipSlot_keeps g put tell) slotNumbers ([], t)
  simp only [State.stageSample]
  split
  · exact (test _ _ _).trans ((flips _).trans (steps _ _))
  · exact (arb _ _).trans ((test _ _ _).trans ((flips _).trans (steps _ _)))

theorem putRecord_writesOf (p : Nat) (r : CustodyRecord) (a : Area) (s : State) :
    (s.putRecord p r).store.writesOf (.accumulator a) = s.store.writesOf (.accumulator a) :=
  persist_writesOf (by simp) _

theorem notify_writesOf (needs : List Nat) (n : NoticeBody) (q : StoreRecord) (s : State) :
    (s.notify needs n).store.writesOf q = s.store.writesOf q := by
  simp only [Store.writesOf, notify_store_inflight, notify_store_queue]

theorem testConsign_writesOf (needs : List Nat) (i : Fin 16) (a : Area) (s : State) :
    (s.testConsign needs i).2.store.writesOf (.accumulator a) = s.store.writesOf (.accumulator a) := by
  have put : ∀ c, (s.putConsign i c).store.writesOf (.accumulator a) = s.store.writesOf (.accumulator a) :=
    fun c => persist_writesOf (by simp) _
  simp only [State.testConsign]
  (repeat' split) <;> simp only [notify_writesOf, put]

theorem testPlaces_writesOf (needs : List Nat) (is : List (Fin 16)) (a : Area) (s : State) :
    (s.testPlaces needs is).2.store.writesOf (.accumulator a) = s.store.writesOf (.accumulator a) :=
  foldl_keeps _ (fun x : List Nat × State => x.2.store.writesOf (.accumulator a)) (fun x i => testConsign_writesOf x.1 i a x.2)
    is (needs, s)

theorem arbitrate_writesOf (needs : List Nat) (q : StoreRecord) (s : State) :
    (s.arbitrate needs).store.writesOf q = s.store.writesOf q := by
  simp only [Store.writesOf, arbitrate_store_inflight, arbitrate_store_queue]

/-- What the staging and hatch units leave as it is at every sample event. -/
def State.beyondHands (s : State) :=
  (s.climate, s.accumulators, s.fire, s.vault, s.power, s.inputs, (s.staging.queue, s.staging.settings, s.staging.holdSent),
    (s.store.cells, s.store.flags, s.store.format, fun a => s.store.writesOf (.accumulator a)))

theorem stageSample_beyondHands (s : State) : s.stageSample.beyondHands = s.beyondHands :=
  stageSample_keeps State.beyondHands (fun _ _ => rfl) (by simp [State.beyondHands, putRecord_writesOf])
    (by simp [State.beyondHands, notify_writesOf]) (by simp [State.beyondHands, testPlaces_writesOf])
    (by simp [State.beyondHands, arbitrate_writesOf]) s

theorem hatchSample_beyondHands (f : HatchEntry → HatchEntry) (s : State) : (s.hatchSample f).beyondHands = s.beyondHands := by
  simp only [State.hatchSample]
  split
  · simp [State.beyondHands]
  · rfl

theorem handUnits_beyondHands (g : ClimateUnit) (c : Channel) (s : State) : (s.handUnits g c).beyondHands = s.beyondHands := by
  cases c with
  | outside => exact (hatchSample_beyondHands _ _).trans rfl
  | area a =>
    cases a with
    | vaultA => rfl
    | vaultB => rfl
    | staging => exact stageSample_beyondHands s
    | hatch => exact hatchSample_beyondHands _ s

/-- A Staging sample event alone moves the store behind the exposure unit, the records or the consignments. -/
theorem handUnits_records (g : ClimateUnit) {c : Channel} (h : c ≠ .area .staging) (s : State) :
    (s.handUnits g c).store = s.store ∧ (s.handUnits g c).custody = s.custody ∧ (s.handUnits g c).consign = s.consign := by
  have hatch : ∀ (f : HatchEntry → HatchEntry) (t : State), (t.hatchSample f).store = t.store ∧
      (t.hatchSample f).custody = t.custody ∧ (t.hatchSample f).consign = t.consign := fun f t => by
    simp only [State.hatchSample]
    split
    · simp
    · exact ⟨rfl, rfl, rfl⟩
  cases c with
  | outside => exact hatch _ _
  | area a =>
    cases a with
    | vaultA => exact ⟨rfl, rfl, rfl⟩
    | vaultB => exact ⟨rfl, rfl, rfl⟩
    | staging => exact absurd rfl h
    | hatch => exact hatch _ _

/-- A Staging sample event leaves the hatch list. -/
theorem stageSample_entries (s : State) : s.stageSample.hatch.entries = s.hatch.entries :=
  stageSample_keeps (·.hatch.entries) (fun _ _ => rfl) (by simp) (by simp) (by simp) (by simp) s

/-- A Hatch or an Outside sample event changes the entries, and then arbitrates for a pending outer request when no side
holds possession (R154). -/
theorem hatchSample_eq (f : HatchEntry → HatchEntry) (s : State) : s.hatchSample f =
    if s.hatch.arbiter.pendingOuter = true ∧ s.hatch.arbiter.possession = false then
      ({ s with hatch := { s.hatch with entries := s.hatch.entries.map f } }).arbitrate []
    else { s with hatch := { s.hatch with entries := s.hatch.entries.map f } } := by
  simp only [State.hatchSample, Bool.and_eq_true, Bool.not_eq_true']

/-- An absent estimate takes its base, and a present one stays (R68). -/
theorem withBase_eq (g : ClimateUnit) (c : Channel) (e : Option Int) :
    withBase g c e = (e <|> (g.held c).map fun x => x.temperature) := by
  cases e <;> rfl

/-- The order of the sweep (R17). -/
theorem nextRead_eq (c : Channel) (s : State) : s.nextRead c = s.setSweep (match c with
    | .area .vaultA => .waiting (.area .vaultB) s.vault.uptime
    | .area .vaultB => .waiting (.area .staging) s.vault.uptime
    | .area .staging => .waiting (.area .hatch) s.vault.uptime
    | .area .hatch => .waiting .outside s.vault.uptime
    | .outside => .idle) := by
  cases c with
  | outside => rfl
  | area a => cases a <;> rfl

end Sys2Proof.Machine
end

