-- ==== Sys2Proof/Proofs/SampleEvent.lean ====
section
/-! SUPPORT. The whole sample event, and its effect on every unit (R17, R20 to R23, R31, R67, R68, R73, R154). -/

namespace Sys2Proof.Machine

/-! ## The whole sample event -/

/-- What every sample event leaves as its first half has it, behind the staging and hatch units and the sweep's next
channel. -/
theorem sample_keeps (c : Channel) (v : Option Held) (s : State) :
    (s.sample c v).climate = { (s.sensed c v).climate with sweep := (s.sample c v).climate.sweep } ∧
    (s.sample c v).accumulators = (s.sensed c v).accumulators ∧ (s.sample c v).fire = (s.sensed c v).fire ∧
    (s.sample c v).vault = s.vault ∧ (s.sample c v).power = s.power ∧ (s.sample c v).inputs = s.inputs ∧
    (s.sample c v).staging = { s.staging with slots := (s.sample c v).staging.slots } ∧
    (s.sample c v).store.cells = s.store.cells ∧ (s.sample c v).store.flags = s.store.flags ∧
    (s.sample c v).store.format = s.store.format ∧
    ∀ a, (s.sample c v).store.writesOf (.accumulator a) = (s.sensed c v).store.writesOf (.accumulator a) := by
  have kept := handUnits_beyondHands (s.recordSample c v).climate c (s.sensed c v)
  simp only [State.beyondHands, Prod.mk.injEq] at kept
  obtain ⟨climate, accumulators, fire, vault, power, inputs, ⟨queue, settings, hold⟩, cells, flags, format, writes⟩ := kept
  obtain ⟨cells', flags', format'⟩ := sensed_store_frame c v s
  have frame := sensed_frame c v s
  rw [sample_eq, nextRead_eq]
  simp only [setSweep_climate, setSweep_accumulators, setSweep_fire, setSweep_vault, setSweep_power, setSweep_inputs,
    setSweep_staging, setSweep_store, climate, accumulators, fire, vault, power, inputs, cells, flags, format, cells', flags',
    format', true_and]
  refine ⟨by rw [frame], by rw [frame], by rw [frame], ?_, fun a => congrFun writes a⟩
  have staging : (s.sensed c v).staging = s.staging := by rw [frame]
  rw [← staging, ← queue, ← settings, ← hold]

/-- The sweep behind a sample event: the next channel waits, or the sweep ends after channel 5 (R17). -/
theorem sample_sweep (c : Channel) (v : Option Held) (s : State) : (s.sample c v).climate.sweep = (match c with
    | .area .vaultA => .waiting (.area .vaultB) s.vault.uptime
    | .area .vaultB => .waiting (.area .staging) s.vault.uptime
    | .area .staging => .waiting (.area .hatch) s.vault.uptime
    | .area .hatch => .waiting .outside s.vault.uptime
    | .outside => .idle) := by
  obtain ⟨_, _, _, vault, _⟩ := sample_keeps c v s
  rw [sample_eq, nextRead_eq, setSweep_vault] at vault
  rw [sample_eq, nextRead_eq, vault]
  rfl

/-- The fire unit takes TROUBLE from its causes, and nothing else (R57). -/
theorem sample_fire (c : Channel) (v : Option Held) (s : State) :
    (s.sample c v).fire = { s.fire with trouble := (s.sample c v).causes.any } := by
  obtain ⟨_, _, fire, _⟩ := sample_keeps c v s
  have trouble : (s.sample c v).fire.trouble = (s.sample c v).causes.any :=
    (troubleDriven_congr (sample_parts c v s)).2 (recordSample_trouble c v s)
  have others : (s.sensed c v).fire = { s.fire with trouble := (s.sensed c v).fire.trouble } := by
    cases c with
    | area a => rw [sensed_area]
    | outside => rw [sensed_outside]
  rw [← trouble, fire]
  exact others

/-- What the climate unit keeps at a sample event (R22). -/
theorem sample_climate (c : Channel) (v : Option Held) (s : State) : (s.sample c v).climate =
    { s.climate.recorded c v with
      sweep := (s.sample c v).climate.sweep, controls := (s.sample c v).climate.controls } := by
  obtain ⟨climate, _⟩ := sample_keeps c v s
  rw [climate, sensed_climate]

theorem channelNotice_links_drive (c : Channel) (v : Option Held) (xs : List BusSignal) (s : State) :
    ((s.drive xs).channelNotice c v).links = (s.channelNotice c v).links := by
  unfold State.channelNotice State.drive
  split
  · exact postNotice_links_congr (by rfl) (by rfl) _
  · rfl

/-- The notices of a sample event do not read the bus. -/
theorem sampleNotices_links_drive (c : Channel) (v : Option Held) (xs : List BusSignal) (s : State) :
    ((s.drive xs).sampleNotices c v).links = (s.sampleNotices c v).links := by
  cases c with
  | outside => exact channelNotice_links_drive _ v xs s
  | area a =>
    have climate : ((s.drive xs).channelNotice (.area a) v).climate = (s.drive xs).climate := by rw [channelNotice_frame]
    have plain : (s.channelNotice (.area a) v).climate = s.climate := by rw [channelNotice_frame]
    refine alarmNotice_links_congr (channelNotice_links_drive _ v xs s) ?_ ?_ ?_ _
    · rw [channelNotice_frame, channelNotice_frame (s := s)]; rfl
    · rw [climate, plain]; rfl
    · rw [climate, plain]; rfl

/-- The notices of a sample event, told in one: SENSOR_STATE, and CLIMATE_ALARM of an area behind it. -/
theorem sampleNotices_eq (c : Channel) (v : Option Held) (s : State) : s.sampleNotices c v =
    (match c, ((s.climate.channels.get c).after v).held with
      | .area a, some x =>
        if alarmLevel (s.climate.settings.get a).alarmIndex ≤ x.humidity ∧ (s.climate.controls.get a).highRh = false
        then (s.channelNotice c v).postNotice (.climateAlarm a x.humidity) else s.channelNotice c v
      | _, _ => s.channelNotice c v) := by
  cases c with
  | outside => rfl
  | area a =>
    have climate : (s.channelNotice (.area a) v).climate = s.climate := by rw [channelNotice_frame]
    simp only [State.sampleNotices, State.alarmNotice, climate]
    cases ((s.climate.channels.get (.area a)).after v).held <;> rfl

/-- An arbitration that waits on no write moves the hatch unit and the link units alone (R143, R155). -/
theorem arbitrate_nil_frame (s : State) :
    s.arbitrate [] = { s with hatch := (s.arbitrate []).hatch, links := (s.arbitrate []).links } := by
  have fields : s.arbitrate [] = State.mk (s.arbitrate []).pending (s.arbitrate []).power (s.arbitrate []).inputs (s.arbitrate []).links (s.arbitrate []).vault (s.arbitrate []).climate (s.arbitrate []).accumulators
    (s.arbitrate []).custody (s.arbitrate []).staging (s.arbitrate []).consign (s.arbitrate []).hatch (s.arbitrate []).fire (s.arbitrate []).store := rfl
  rw [arbitrate_pending, arbitrate_power, arbitrate_inputs, arbitrate_vault, arbitrate_climate, arbitrate_accumulators,
    arbitrate_custody, arbitrate_staging, arbitrate_consign, arbitrate_fire, arbitrate_nil_store] at fields
  exact fields

/-- The change of the hatch list's entries at a Hatch or an Outside sample event (R67, R68). -/
def entryChange (c : Channel) (g : ClimateUnit) : HatchEntry → HatchEntry :=
  match c with
  | .area _ => HatchEntry.step g
  | .outside => HatchEntry.takeBase g

/-- The state in which a Hatch or an Outside sample event tests the gate again, with the entries changed (R154). -/
def State.atGate (s : State) (c : Channel) (v : Option Held) : State :=
  { (match c with
    | .area _ => s.sensed c v
    | .outside => (s.sensed c v).mapSlots (Slot.takeBase (s.climate.recorded c v) c)) with
    hatch := { s.hatch with entries := s.hatch.entries.map (entryChange c (s.climate.recorded c v)) } }

theorem sensed_links (c : Channel) (v : Option Held) (s : State) :
    (s.sensed c v).links = (s.sampleNotices c v).links := by rw [sensed_frame]

theorem atGate_links (c : Channel) (v : Option Held) (s : State) : (s.atGate c v).links = (s.sampleNotices c v).links := by
  cases c <;> exact sensed_links _ v s

/-- A Hatch or an Outside sample event: the entries, and an arbitration for a pending outer request when no side holds
possession (R154). -/
theorem sample_gate {c : Channel} (hc : c = .area .hatch ∨ c = .outside) (v : Option Held) (s : State) :
    s.sample c v = (if s.hatch.arbiter.pendingOuter = true ∧ s.hatch.arbiter.possession = false
      then (s.atGate c v).arbitrate [] else s.atGate c v).nextRead c := by
  have hatch : (s.sensed c v).hatch = s.hatch := by rw [sensed_frame]
  have based := fun f => (mapSlots_hatch f (s.sensed c v)).trans hatch
  rw [sample_eq, recordSample_climate]
  obtain rfl | rfl := hc
  · rw [State.handUnits, hatchSample_eq, hatch]
    rfl
  · rw [State.handUnits, hatchSample_eq, based]
    rfl

/-- The entries behind a Hatch or an Outside sample event (R67, R68, R154). -/
theorem sample_entries {c : Channel} (hc : c = .area .hatch ∨ c = .outside) (v : Option Held) (s : State) :
    (s.sample c v).hatch.entries = s.hatch.entries.map (entryChange c (s.climate.recorded c v)) := by
  rw [sample_gate hc, nextRead_eq, setSweep_hatch]
  split
  · exact arbitrate_hatch_entries _ _
  · rfl

/-- A vault area's sample event leaves the hatch (R22). -/
theorem sample_hatch_of_vault {c : Channel} (hc : c = .area .vaultA ∨ c = .area .vaultB) (v : Option Held) (s : State) :
    (s.sample c v).hatch = s.hatch ∧ (s.sample c v).links = (s.sampleNotices c v).links := by
  have frame := sensed_frame c v s
  have hatch : (s.sensed c v).hatch = s.hatch := by rw [frame]
  have links : (s.sensed c v).links = (s.sampleNotices c v).links := by rw [frame]
  obtain rfl | rfl := hc
  · exact ⟨hatch, links⟩
  · exact ⟨hatch, links⟩

/-- A Staging sample event leaves the hatch list. -/
theorem sample_entries_of_staging (v : Option Held) (s : State) :
    (s.sample (.area .staging) v).hatch.entries = s.hatch.entries := by
  have frame := sensed_frame (.area .staging) v s
  rw [sample_eq, nextRead_eq, setSweep_hatch, State.handUnits, stageSample_entries, frame]

/-- A sample event but a Staging one leaves the records and the consignments, and the store as the exposure unit has it. -/
theorem sample_records {c : Channel} (hc : c ≠ .area .staging) (v : Option Held) (s : State) :
    (s.sample c v).store = (s.sensed c v).store ∧ (s.sample c v).custody = s.custody ∧
      (s.sample c v).consign = s.consign := by
  obtain ⟨store, custody, consign⟩ := handUnits_records (s.recordSample c v).climate hc (s.sensed c v)
  have frame := sensed_frame c v s
  rw [sample_eq, nextRead_eq, setSweep_store, setSweep_custody, setSweep_consign, store, custody, consign]
  exact ⟨rfl, by rw [frame], by rw [frame]⟩

/-- A Hatch sample event leaves the slots (R118). -/
theorem sample_slots_of_hatch (v : Option Held) (s : State) :
    (s.sample (.area .hatch) v).staging.slots = s.staging.slots := by
  rw [sample_gate (Or.inl rfl), nextRead_eq, setSweep_staging]
  split
  · rw [arbitrate_staging, State.atGate, sensed_frame]
  · rw [State.atGate, sensed_frame]

/-- The accumulator's writes behind a sample event (R73, R179, R184). -/
theorem sample_writes (c : Channel) (v : Option Held) (a : Area) (s : State) :
    (c = .area a → (¬ ∃ k, s.store.format = .writing k ∧ k ≤ 4 + a.number) →
      ((s.sample c v).store.writesOf (.accumulator a)).getLast?.map (·.content) =
        some (.accumulator ((s.sample c v).accumulators.get a))) ∧
    (c ≠ .area a ∨ (∃ k, s.store.format = .writing k ∧ k ≤ 4 + a.number) →
      (s.sample c v).store.writesOf (.accumulator a) = s.store.writesOf (.accumulator a)) := by
  obtain ⟨_, dose, _, _, _, _, _, _, _, _, writes⟩ := sample_keeps c v s
  rw [writes, dose]
  cases c with
  | outside => exact ⟨nofun, fun _ => by rw [sensed_outside]⟩
  | area b =>
    rw [sensed_area]
    refine ⟨?_, ?_⟩
    · rintro ⟨⟩ free
      simp only [takeAccumulator_of_not_folds free, perArea_get_set, if_true]
      exact (handOver_lastWrite _ _ _ _).trans (if_pos rfl)
    · rintro other
      by_cases same : b = a
      · subst same
        rw [takeAccumulator_of_folds (other.resolve_left fun h => h rfl)]
      · exact takeAccumulator_writesOf same _ _

theorem exec_sampleEvent {s : State} (reading : SensorReading) (hp : s.power = .running) :
    exec (.sampleEvent reading) s = .next (s.sampleOf reading) :=
  congrArg Host.Outcome.next (event_running _ hp)

theorem drive_nil (s : State) : s.drive [] = s := by simp only [State.drive, List.append_nil]

theorem sampleOf_of_reading {s : State} {c : Channel} (h : s.climate.sweep = .reading c) (reading : SensorReading) :
    s.sampleOf reading = (s.drive (SensorReading.signals reading)).sample c reading.value := by
  simp only [State.sampleOf, h]

theorem sampleOf_of_ended {s : State} {c : Channel} (h : s.climate.sweep = .ended c) (reading : SensorReading) :
    s.sampleOf reading = (s.drive []).sample c none := by
  simp only [State.sampleOf, h, drive_nil]

/-- An area's outputs and accumulator behind its own sample event (R23, R31, R73). -/
theorem sample_area (a : Area) (v : Option Held) (s : State) :
    (s.sample (.area a) v).climate.controls.get a = s.sensedControl a ((s.climate.channels.get (.area a)).after v) ∧
    (s.sample (.area a) v).accumulators.get a =
      s.sensedDose a ((s.climate.channels.get (.area a)).after v).held := by
  obtain ⟨climate, dose, _⟩ := sample_keeps (.area a) v s
  rw [climate, dose, sensed_area]
  simp only [perArea_get_set, if_true, and_self]

theorem sample_other {c : Channel} {a : Area} (h : c ≠ .area a) (v : Option Held) (s : State) :
    (s.sample c v).climate.controls.get a = s.climate.controls.get a ∧
    (s.sample c v).accumulators.get a = s.accumulators.get a := by
  obtain ⟨climate, dose, _⟩ := sample_keeps c v s
  rw [climate, dose]
  exact sensed_other c v a s h

theorem sample_channels (c : Channel) (v : Option Held) (s : State) :
    (s.sample c v).climate.channels = s.climate.channels.set c ((s.climate.channels.get c).after v) := by
  rw [sample_climate]; rfl

/-- The dose gained, as R73 words it. -/
theorem sensedDose_eq (s : State) (a : Area) (held : Option Held) : s.sensedDose a held = (match held with
    | some x => min 4294967295 (s.accumulators.get a + (x.humidity - (s.climate.settings.get a).doseThreshold))
    | none => s.accumulators.get a) := by
  cases held with
  | none => rfl
  | some x => exact Nat.min_comm _ _

/-- A hatch list entry behind a Hatch sample event, as R67 and R68 word it. -/
theorem entryChange_hatch (g : ClimateUnit) (e : HatchEntry) : entryChange (.area .hatch) g e =
    (match (g.channels.get (.area .hatch)).held, (e.estimate <|> (g.channels.get (match e.direction with
        | .outbound => .area .hatch
        | .inbound => .outside)).held.map fun x => x.temperature) with
      | some air, some y => { e with estimate := some (acclimatise y air.temperature g.settings.hatch.coupling) }
      | _, _ => e) := by
  simp only [entryChange, HatchEntry.step, withBase_eq, HatchEntry.base, ClimateUnit.held] <;> rfl

/-- A hatch list entry behind an Outside sample event, as R68 and R154 word it. -/
theorem entryChange_outside (g : ClimateUnit) (e : HatchEntry) : entryChange .outside g e =
    if e.direction = .inbound ∧ e.estimate = none
    then { e with estimate := (g.channels.get .outside).held.map fun x => x.temperature } else e := by
  obtain ⟨label, direction, number, estimate, fireHeld⟩ := e
  cases direction <;> cases estimate <;> rfl

/-- The gate tested again at a Hatch or an Outside sample event, for a pending outer request with no side in possession
(R154). -/
theorem sample_arbitrates {c : Channel} (hc : c = .area .hatch ∨ c = .outside) (v : Option Held) {s : State}
    (pending : s.hatch.arbiter.pendingOuter = true) (free : s.hatch.arbiter.possession = false) :
    s.atGate c v = { s.sample c v with links := (s.atGate c v).links, hatch := (s.atGate c v).hatch, climate :=
      { (s.sample c v).climate with sweep := (s.atGate c v).climate.sweep } } ∧
    (s.sample c v).hatch = ((s.atGate c v).arbitrate []).hatch ∧
    (s.sample c v).links = ((s.atGate c v).arbitrate []).links := by
  rw [sample_gate hc, if_pos ⟨pending, free⟩, nextRead_eq, setSweep_hatch, setSweep_links]
  refine ⟨?_, rfl, rfl⟩
  rw [arbitrate_nil_frame]
  rfl

theorem sample_waits {c : Channel} (hc : c = .area .hatch ∨ c = .outside) (v : Option Held) {s : State}
    (idle : s.hatch.arbiter.pendingOuter = false ∨ s.hatch.arbiter.possession = true) :
    (s.sample c v).hatch = { s.hatch with entries := (s.sample c v).hatch.entries } ∧
    (s.sample c v).links = (s.sampleNotices c v).links := by
  have quiet : ¬ (s.hatch.arbiter.pendingOuter = true ∧ s.hatch.arbiter.possession = false) := by
    rintro ⟨pending, free⟩
    rw [pending, free] at idle
    simp at idle
  rw [sample_gate hc, if_neg quiet, nextRead_eq, setSweep_hatch, setSweep_links, atGate_links]
  exact ⟨rfl, rfl⟩

/-- The store behind a sample event but a Staging one: an accumulator's hand-over, or nothing (R73, R184). -/
theorem sample_store {a : Area} (h : a ≠ .staging) (v : Option Held) (s : State) :
    ((∃ k, s.store.format = .writing k ∧ k ≤ 4 + a.number) → (s.sample (.area a) v).store = s.store) ∧
    ((¬ ∃ k, s.store.format = .writing k ∧ k ≤ 4 + a.number) → (s.sample (.area a) v).store =
      s.store.handOver (.accumulator a) (.accumulator ((s.sample (.area a) v).accumulators.get a))) := by
  obtain ⟨store, _⟩ := sample_records (c := .area a) (fun e => h (Channel.area.inj e)) v s
  obtain ⟨_, dose⟩ := sample_area a v s
  rw [store, dose, sensed_area]
  exact ⟨fun taken => takeAccumulator_of_folds taken _, fun free => takeAccumulator_of_not_folds free _⟩

/-- Settles O16: the effect of a sample event, clause by clause, for a read that ended by itself and for one that was
ended. -/
theorem sampleEventDrivesClimateAndDose : Obligations.SampleEventDrivesClimateAndDose := by
  unfold Obligations.SampleEventDrivesClimateAndDose
  intro notices effect
  have told : ∀ c v bus s, ((s.drive bus).sampleNotices c v).links = (notices c v s).links := fun c v bus s => by
    rw [sampleNotices_links_drive, sampleNotices_eq]
    rfl
  have key : ∀ (c : Channel) (v : Option Held) (bus : List BusSignal) (s : State),
      effect c v bus s ((s.drive bus).sample c v) := by
    intro c v bus s
    obtain ⟨_, _, _, vault, power, inputs, staging, cells, flags, format, _⟩ := sample_keeps c v (s.drive bus)
    have records := fun h => sample_records (c := c) h v (s.drive bus)
    refine ⟨sample_channels c v _, sample_sweep c v _, ?_, fun a h => sample_other h v _, fun a => sample_writes c v a (s.drive bus),
      format, ?_, sample_fire c v _, vault, power, inputs, ?_, ?_, ?_, cells, flags, ?_, ?_, ?_, ?_, ?_, ?_, ?_, ?_, ?_⟩
    · rintro a rfl
      obtain ⟨control, dose⟩ := sample_area a v (s.drive bus)
      exact ⟨control, dose.trans (sensedDose_eq _ _ _)⟩
    · rw [sample_climate]
      rfl
    · rintro rfl
      rw [(records nofun).1, sensed_outside]
      rfl
    · rintro a rfl h
      exact sample_store h v (s.drive bus)
    · rintro rfl
      exact sample_slots_of_hatch v _
    · rw [staging]; rfl
    · rw [staging]; rfl
    · rw [staging]; rfl
    · intro h
      exact (records h).2
    · intro h
      obtain ⟨hatch, links⟩ := sample_hatch_of_vault h v (s.drive bus)
      exact ⟨hatch, links.trans (told c v bus s)⟩
    · rintro rfl
      exact sample_entries_of_staging v _
    · rintro rfl
      refine (sample_entries (Or.inl rfl) v _).trans (List.map_congr_left fun e _ => (entryChange_hatch _ e).trans ?_)
      rw [sample_channels]
      simp [ClimateUnit.recorded]
      rfl
    · rintro rfl
      refine (sample_entries (Or.inr rfl) v _).trans (List.map_congr_left fun e _ => (entryChange_outside _ e).trans ?_)
      simp only [ClimateUnit.recorded, perChannel_get_set, if_true]
      rfl
    · intro h
      refine ⟨fun pending free => ⟨(s.drive bus).atGate c v, (atGate_links c v _).trans (told c v bus s), ?_,
        sample_arbitrates h v pending free⟩, fun idle => ?_⟩
      · rw [sample_entries h]
        rfl
      · obtain ⟨hatch, links⟩ := sample_waits h v (s := s.drive bus) idle
        exact ⟨hatch, links.trans (told c v bus s)⟩
  refine ⟨⟨rfl, rfl, rfl, rfl⟩, fun reading s hp => ⟨fun c reads => ?_, fun c ended => ?_, fun idle => ?_⟩⟩
  · refine ⟨_, (exec_sampleEvent reading hp).trans (congrArg _ (sampleOf_of_reading reads reading)), ?_⟩
    cases reading <;> exact key c _ _ s
  · exact ⟨_, (exec_sampleEvent reading hp).trans (congrArg _ (sampleOf_of_ended ended reading)), key c none [] s⟩
  · rw [exec_sampleEvent reading hp]
    obtain idle | ⟨c, n, waits⟩ := idle
    · simp only [State.sampleOf, idle]
    · simp only [State.sampleOf, waits]

end Sys2Proof.Machine
end

