-- ==== Sys2Proof/Proofs/Flips.lean ====
section
/-! SUPPORT. The flips of a Staging sample event on the custody table (R72, R119). -/

namespace Sys2Proof.Machine

/-! ## The flips on the custody table (R72, R119) -/

/-- A table's entry with the record of one place given a state. -/
def restate (p : Nat) (a : CustodyState) (x : Nat × CustodyRecord) : Nat × CustodyRecord :=
  if x.1 = p then (x.1, { x.2 with state := a }) else x

@[simp] theorem restate_place (p : Nat) (a : CustodyState) (x : Nat × CustodyRecord) : (restate p a x).1 = x.1 := by
  unfold restate; split <;> rfl

@[simp] theorem restate_label (p : Nat) (a : CustodyState) (x : Nat × CustodyRecord) :
    (restate p a x).2.label = x.2.label := by
  unfold restate; split <;> rfl

theorem restate_other {p : Nat} {x : Nat × CustodyRecord} (h : x.1 ≠ p) (a : CustodyState) : restate p a x = x := if_neg h

/-- A record of the table placed with another state restates its place. -/
theorem placeRecord_restate {t : List (Nat × CustodyRecord)} (rises : t.Pairwise fun x y => x.1 < y.1) {p : Nat}
    {r : CustodyRecord} (hm : (p, r) ∈ t) (a : CustodyState) :
    placeRecord p { r with state := a } t = t.map (restate p a) := by
  induction t with
  | nil => cases hm
  | cons y ys ih =>
    obtain ⟨below, rises'⟩ := List.pairwise_cons.1 rises
    obtain rfl | later := List.mem_cons.1 hm
    · have others : ys.map (restate p a) = ys :=
        (List.map_congr_left fun z hz => restate_other (Nat.ne_of_gt (below z hz)) a).trans (List.map_id' ys)
      simp [placeRecord, others, restate]
    · have first : y.1 < p := below _ later
      rw [placeRecord, if_pos first, ih rises' later, List.map_cons, restate_other (Nat.ne_of_lt first)]

theorem recordAt_restate (p q : Nat) (a : CustodyState) (t : List (Nat × CustodyRecord)) :
    recordAt q (t.map (restate p a)) = (recordAt q t).map fun r => if q = p then { r with state := a } else r := by
  induction t with
  | nil => rfl
  | cons y ys ih =>
    rw [List.map_cons, recordAt, recordAt, restate_place, ih]
    split
    · rename_i here
      rw [restate, here]
      by_cases same : q = p
      · rw [if_pos same, Option.map_some, if_pos same]
      · rw [if_neg same, Option.map_some, if_neg same]
    · rfl

theorem places_restate (p : Nat) (a : CustodyState) (t : List (Nat × CustodyRecord)) :
    (t.map (restate p a)).map (·.1) = t.map (·.1) := by
  rw [List.map_map]
  exact List.map_congr_left fun x _ => restate_place p a x

/-- The flip that a slot calls for: of the record its label names, to the state of its readiness test, where that is a
change (R72, R119). -/
theorem flipOf_eq_some_iff {s : State} {n : Fin 32} {p : Nat} {r : CustodyRecord} {a : CustodyState} :
    s.flipOf n = some (p, r, a) ↔ ∃ l d o dwell e, s.staging.slots[n] = .occupied l d o dwell e ∧
      s.record? l = some (p, r) ∧ a = r.state.flip (s.slotReady (.occupied l d o dwell e)) ∧ a ≠ r.state := by
  unfold State.flipOf
  constructor
  · intro h
    split at h
    · cases h
    · cases h
    · rename_i l d o dwell e slot
      split at h
      · cases h
      · rename_i p' r' record
        simp only [] at h
        split at h
        · cases h
        · rename_i change
          cases h
          exact ⟨l, d, o, dwell, e, slot, record, rfl, change⟩
  · rintro ⟨l, d, o, dwell, e, slot, record, rfl, change⟩
    rw [slot]
    simp only [record]
    exact if_neg change

theorem flipSlot_climate (x : List Nat × State) (n : Fin 32) : (State.flipSlot x n).2.climate = x.2.climate :=
  flipSlot_keeps (·.climate) (by simp) (by simp) x n

theorem flipSlot_staging (x : List Nat × State) (n : Fin 32) : (State.flipSlot x n).2.staging = x.2.staging :=
  flipSlot_keeps (·.staging) (by simp) (by simp) x n

theorem flipSlot_of_none {x : List Nat × State} {n : Fin 32} (h : x.2.flipOf n = none) : State.flipSlot x n = x := by
  unfold State.flipSlot; rw [h]

/-- A flip restates the place of its record, and changes no other record (R119). -/
theorem flipSlot_custody {x : List Nat × State} (wf : custodyWf x.2.custody = true) {n : Fin 32} {p : Nat}
    {r : CustodyRecord} {a : CustodyState} (h : x.2.flipOf n = some (p, r, a)) :
    (State.flipSlot x n).2.custody = x.2.custody.map (restate p a) := by
  obtain ⟨l, _, _, _, _, _, record, _⟩ := flipOf_eq_some_iff.1 h
  have placed := placeRecord_restate ((custodyWf_iff _).1 wf).1 (record_mem record) a
  unfold State.flipSlot
  rw [h, ← placed]
  simp only []
  split <;> simp

theorem flipSlot_wf {x : List Nat × State} (wf : custodyWf x.2.custody = true) (n : Fin 32) :
    custodyWf (State.flipSlot x n).2.custody = true := by
  cases h : x.2.flipOf n with
  | none => rw [flipSlot_of_none h]; exact wf
  | some y => rw [flipSlot_custody wf h, custodyWf_places (places_restate _ _ _)]; exact wf

/-- What the flips of some slots leave of the table's form, and of what they read. -/
theorem flips_frame (ns : List (Fin 32)) {x : List Nat × State} (wf : custodyWf x.2.custody = true) :
    custodyWf (ns.foldl State.flipSlot x).2.custody = true ∧
    (ns.foldl State.flipSlot x).2.custody.map (·.1) = x.2.custody.map (·.1) ∧
    (ns.foldl State.flipSlot x).2.climate = x.2.climate ∧ (ns.foldl State.flipSlot x).2.staging = x.2.staging := by
  induction ns generalizing x with
  | nil => exact ⟨wf, rfl, rfl, rfl⟩
  | cons n ns ih =>
    obtain ⟨wf', places, climate, staging⟩ := ih (flipSlot_wf wf n)
    refine ⟨wf', places.trans ?_, climate.trans (flipSlot_climate x n), staging.trans (flipSlot_staging x n)⟩
    cases h : x.2.flipOf n with
    | none => rw [flipSlot_of_none h]
    | some y => rw [flipSlot_custody wf h, places_restate]

/-- A flip moves a record between READY and STAGED of one direction (R119). -/
def CustodyState.turnsTo (a b : CustodyState) : Prop :=
  b = a ∨ (a = .stagedOut ∧ b = .readyOut) ∨ (a = .readyOut ∧ b = .stagedOut) ∨ (a = .stagedIn ∧ b = .readyIn) ∨
    (a = .readyIn ∧ b = .stagedIn)

theorem turnsTo_flip (a : CustodyState) (pass : Bool) : a.turnsTo (a.flip pass) := by
  cases a <;> cases pass <;> simp [CustodyState.turnsTo, CustodyState.flip]

theorem turnsTo_trans {a b c : CustodyState} (h : a.turnsTo b) (h' : b.turnsTo c) : a.turnsTo c := by
  unfold CustodyState.turnsTo at *
  obtain rfl | ⟨rfl, rfl⟩ | ⟨rfl, rfl⟩ | ⟨rfl, rfl⟩ | ⟨rfl, rfl⟩ := h
  · exact h'
  all_goals
    obtain rfl | ⟨e, rfl⟩ | ⟨e, rfl⟩ | ⟨e, rfl⟩ | ⟨e, rfl⟩ := h' <;> simp at *

/-- Each record of the flipped table is the record of its place, turned in its state at most (R119). -/
theorem flips_turn (ns : List (Fin 32)) {x : List Nat × State} (wf : custodyWf x.2.custody = true) {p : Nat}
    {r' : CustodyRecord} (h : recordAt p (ns.foldl State.flipSlot x).2.custody = some r') :
    ∃ r, recordAt p x.2.custody = some r ∧ r' = { r with state := r'.state } ∧ r.state.turnsTo r'.state := by
  induction ns generalizing x with
  | nil => exact ⟨r', h, rfl, Or.inl rfl⟩
  | cons n ns ih =>
    obtain ⟨r1, found, kept, turned⟩ := ih (flipSlot_wf wf n) h
    cases flip : x.2.flipOf n with
    | none => rw [flipSlot_of_none flip] at found; exact ⟨r1, found, kept, turned⟩
    | some y =>
      obtain ⟨q, r0, a⟩ := y
      obtain ⟨l, d, o, dwell, e, _, record, rfl, _⟩ := flipOf_eq_some_iff.1 flip
      rw [flipSlot_custody wf flip, recordAt_restate] at found
      obtain ⟨r, here, rfl⟩ := Option.map_eq_some_iff.1 found
      refine ⟨r, here, ?_, ?_⟩
      · by_cases same : p = q
        · rw [kept, if_pos same]
        · rw [kept, if_neg same]
      · by_cases same : p = q
        · rw [if_pos same] at turned
          have it : r = r0 := Option.some.inj (here.symm.trans (same ▸ record_place wf record))
          exact turnsTo_trans (it ▸ turnsTo_flip _ _) turned
        · rw [if_neg same] at turned
          exact turned

/-- A flip keeps the record that a label names, but for its state. -/
theorem flipSlot_record {x : List Nat × State} (wf : custodyWf x.2.custody = true) {n : Fin 32} {p : Nat}
    {r : CustodyRecord} {a : CustodyState} (h : x.2.flipOf n = some (p, r, a)) (l : Label) :
    (State.flipSlot x n).2.record? l = (x.2.record? l).map (restate p a) := by
  unfold State.record?
  rw [flipSlot_custody wf h]
  exact findLabel_map (restate_label p a) l _

/-- A place whose record the flips changed is the place of a record that an OCCUPIED slot names (R119). -/
theorem flips_changed (ns : List (Fin 32)) {x : List Nat × State} (wf : custodyWf x.2.custody = true) {p : Nat}
    (h : recordAt p (ns.foldl State.flipSlot x).2.custody ≠ recordAt p x.2.custody) :
    ∃ n ∈ ns, ∃ l d o dwell e r, x.2.staging.slots[n] = .occupied l d o dwell e ∧ x.2.record? l = some (p, r) := by
  induction ns generalizing x with
  | nil => exact absurd rfl h
  | cons n ns ih =>
    cases flip : x.2.flipOf n with
    | none =>
      rw [List.foldl_cons, flipSlot_of_none flip] at h
      obtain ⟨m, hm, found⟩ := ih wf h
      exact ⟨m, List.mem_cons_of_mem _ hm, found⟩
    | some y =>
      obtain ⟨q, r0, a⟩ := y
      obtain ⟨l, d, o, dwell, e, slot, record, _⟩ := flipOf_eq_some_iff.1 flip
      by_cases same : p = q
      · exact ⟨n, List.mem_cons_self, l, d, o, dwell, e, r0, slot, same ▸ record⟩
      · have unmoved : recordAt p (State.flipSlot x n).2.custody = recordAt p x.2.custody := by
          rw [flipSlot_custody wf flip, recordAt_restate]
          simp only [if_neg same, Option.map_id']
        rw [List.foldl_cons, ← unmoved] at h
        obtain ⟨m, hm, l', d', o', dwell', e', r', slot', record'⟩ := ih (flipSlot_wf wf n) h
        rw [flipSlot_record wf flip] at record'
        obtain ⟨⟨p', r''⟩, found, restated⟩ := Option.map_eq_some_iff.1 record'
        have place : p' = p := (restate_place q a (p', r'')).symm.trans (congrArg Prod.fst restated)
        exact ⟨m, List.mem_cons_of_mem _ hm, l', d', o', dwell', e', r'', by rw [← slot', flipSlot_staging], place ▸ found⟩

/-- A label that no slot holds names the record it named before the flips. -/
theorem flips_record_of_unslotted (ns : List (Fin 32)) {x : List Nat × State} (wf : custodyWf x.2.custody = true)
    {l : Label} (h : ∀ n ∈ ns, ∀ d o dwell e, x.2.staging.slots[n] ≠ .occupied l d o dwell e) :
    (ns.foldl State.flipSlot x).2.record? l = x.2.record? l := by
  induction ns generalizing x with
  | nil => rfl
  | cons n ns ih =>
    have first : (State.flipSlot x n).2.record? l = x.2.record? l := by
      cases flip : x.2.flipOf n with
      | none => rw [flipSlot_of_none flip]
      | some y =>
        obtain ⟨q, r0, a⟩ := y
        obtain ⟨l', d, o, dwell, e, slot, record, _⟩ := flipOf_eq_some_iff.1 flip
        rw [flipSlot_record wf flip]
        cases found : x.2.record? l with
        | none => rfl
        | some z =>
          obtain ⟨p, r⟩ := z
          have elsewhere : p ≠ q := by
            rintro rfl
            have it : r = r0 := Option.some.inj ((record_place wf found).symm.trans (record_place wf record))
            have label : l = l' := by rw [← record_label found, ← record_label record, it]
            exact h n List.mem_cons_self d o dwell e (label ▸ slot)
          rw [Option.map_some, restate_other elsewhere]
    refine (ih (flipSlot_wf wf n) fun m hm d o dwell e => ?_).trans first
    rw [flipSlot_staging]
    exact h m (List.mem_cons_of_mem _ hm) d o dwell e

/-- The record that an OCCUPIED slot names takes the state of the slot's readiness test (R119). -/
theorem flipSlot_record_of_slot {x : List Nat × State} (wf : custodyWf x.2.custody = true) {n : Fin 32} {l : Label}
    {d : Direction} {o : Channel} {dwell : Nat} {e : Option Int} {p : Nat} {r : CustodyRecord}
    (slot : x.2.staging.slots[n] = .occupied l d o dwell e) (record : x.2.record? l = some (p, r)) :
    (State.flipSlot x n).2.record? l =
      some (p, { r with state := r.state.flip (x.2.slotReady (.occupied l d o dwell e)) }) := by
  by_cases change : r.state.flip (x.2.slotReady (.occupied l d o dwell e)) = r.state
  · have none : x.2.flipOf n = none := by
      unfold State.flipOf
      rw [slot]
      simp only [record]
      exact if_pos change
    rw [flipSlot_of_none none, record, change]
  · rw [flipSlot_record wf (flipOf_eq_some_iff.2 ⟨l, d, o, dwell, e, slot, record, rfl, change⟩), record, Option.map_some,
      restate, if_pos rfl]

/-- A label that stands in one slot alone: its record takes the state of that slot's readiness test (R119). -/
theorem flips_record_of_slot {ns : List (Fin 32)} (once : ns.Nodup) {x : List Nat × State}
    (wf : custodyWf x.2.custody = true) {n : Fin 32} (hn : n ∈ ns) {l : Label} {d : Direction} {o : Channel} {dwell : Nat}
    {e : Option Int} {p : Nat} {r : CustodyRecord} (slot : x.2.staging.slots[n] = .occupied l d o dwell e)
    (record : x.2.record? l = some (p, r))
    (alone : ∀ m d' o' dwell' e', x.2.staging.slots[m] = .occupied l d' o' dwell' e' → m = n) :
    (ns.foldl State.flipSlot x).2.record? l =
      some (p, { r with state := r.state.flip (x.2.slotReady (.occupied l d o dwell e)) }) := by
  obtain ⟨before, after, rfl⟩ := List.append_of_mem hn
  rw [List.nodup_append] at once
  obtain ⟨_, once, apart⟩ := once
  obtain ⟨wf', _, climate, staging⟩ := flips_frame before wf
  have unslotted : ∀ ms : List (Fin 32), n ∉ ms → ∀ m ∈ ms, ∀ d o dwell e,
      x.2.staging.slots[m] ≠ .occupied l d o dwell e := fun ms hms m hm d o dwell e held =>
    hms (alone m d o dwell e held ▸ hm)
  have first : (before.foldl State.flipSlot x).2.record? l = some (p, r) :=
    (flips_record_of_unslotted before wf (unslotted _ fun h => apart _ h _ List.mem_cons_self rfl)).trans record
  have ready : (before.foldl State.flipSlot x).2.slotReady (.occupied l d o dwell e) =
      x.2.slotReady (.occupied l d o dwell e) := by
    cases d <;> simp only [State.slotReady, climate, staging]
  have turned := flipSlot_record_of_slot wf' (n := n) (by rw [staging]; exact slot) first
  rw [List.foldl_append, List.foldl_cons, flips_record_of_unslotted after (flipSlot_wf wf' n), turned, ready]
  rw [flipSlot_staging, staging]
  exact unslotted _ (List.nodup_cons.1 once).1

end Sys2Proof.Machine
end

