-- ==== Sys2Proof/Proofs/StagingSample.lean ====
section
/-! SUPPORT. The shelf, the records and the consignments behind a Staging sample event, and the slots behind the others
(R66 to R72, R118, R119, R133). -/

namespace Sys2Proof.Machine

/-! ## One flip (R72, R119) -/

/-- A flip to a ready state has its READY notice, behind those before it (R119). -/
theorem flipSlot_to_ready {x : List Nat × State} {n : Fin 32} {p : Nat} {r : CustodyRecord} {a : CustodyState} {d : Direction}
    (h : x.2.flipOf n = some (p, r, a)) (ready : a.readyDirection = some d) :
    State.flipSlot x n = (x.1 ++ (x.2.putRecord p { r with state := a }).awaits [.custody p],
      (x.2.putRecord p { r with state := a }).notify (x.1 ++ (x.2.putRecord p { r with state := a }).awaits [.custody p])
        (.ready r.label d n)) := by
  unfold State.flipSlot
  rw [h]
  simp only [ready]

theorem flipSlot_to_staged {x : List Nat × State} {n : Fin 32} {p : Nat} {r : CustodyRecord} {a : CustodyState}
    (h : x.2.flipOf n = some (p, r, a)) (staged : a.readyDirection = none) :
    State.flipSlot x n = (x.1, x.2.putRecord p { r with state := a }) := by
  unfold State.flipSlot
  rw [h]
  simp only [staged]

/-- The flip of an OCCUPIED slot whose label names a record, by its readiness test. -/
theorem flipOf_of_slot {s : State} {n : Fin 32} {l : Label} {d : Direction} {o : Channel} {dwell : Nat} {e : Option Int}
    {p : Nat} {r : CustodyRecord} (slot : s.staging.slots[n] = .occupied l d o dwell e) (record : s.record? l = some (p, r)) :
    s.flipOf n = if r.state.flip (s.slotReady (.occupied l d o dwell e)) = r.state then none
      else some (p, r, r.state.flip (s.slotReady (.occupied l d o dwell e))) := by
  unfold State.flipOf
  rw [slot]
  simp only [record]

/-! ## A Staging sample event (R118, R119) -/

/-- The shelf with every slot stepped, as a Staging sample event evaluates it (R67 to R69). -/
def State.stepped (s : State) : State := s.mapSlots (Slot.step s.climate)

theorem stageSample_eq (s : State) : s.stageSample =
    if ((slotNumbers.foldl State.flipSlot ([], s.stepped)).2.testPlaces (slotNumbers.foldl State.flipSlot ([], s.stepped)).1
        s.stepped.flipPlaces).2.consign = (slotNumbers.foldl State.flipSlot ([], s.stepped)).2.consign
    then ((slotNumbers.foldl State.flipSlot ([], s.stepped)).2.testPlaces (slotNumbers.foldl State.flipSlot ([], s.stepped)).1
        s.stepped.flipPlaces).2
    else ((slotNumbers.foldl State.flipSlot ([], s.stepped)).2.testPlaces (slotNumbers.foldl State.flipSlot ([], s.stepped)).1
        s.stepped.flipPlaces).2.arbitrate ((slotNumbers.foldl State.flipSlot ([], s.stepped)).2.testPlaces
          (slotNumbers.foldl State.flipSlot ([], s.stepped)).1 s.stepped.flipPlaces).1 := by
  unfold State.stageSample State.stepped
  generalize slotNumbers = ns
  rfl

/-- The records behind a Staging sample event are those that the flips leave. -/
theorem stageSample_custody (s : State) :
    s.stageSample.custody = (slotNumbers.foldl State.flipSlot ([], s.stepped)).2.custody := by
  rw [stageSample_eq]
  split <;> simp

/-- The slots behind a Staging sample event are those that it stepped. -/
theorem stageSample_staging (s : State) : s.stageSample.staging = s.stepped.staging := by
  have flips := foldl_keeps State.flipSlot (fun x => x.2.staging) flipSlot_staging slotNumbers ([], s.stepped)
  rw [stageSample_eq]
  split <;> simp [flips]

theorem sample_staging (v : Option Held) (s : State) : s.sample (.area .staging) v =
    (s.sensed (.area .staging) v).stageSample.setSweep (.waiting (.area .hatch) s.vault.uptime) := by
  have vault : (s.sensed (.area .staging) v).stageSample.vault = s.vault := by
    rw [stageSample_keeps (·.vault) (fun _ _ => rfl) (by simp) (by simp) (by simp) (by simp), sensed_frame]
  rw [sample_eq, nextRead_eq]
  simp only [State.handUnits, vault]

/-- The state in which a Staging sample event makes its flips: the climate and exposure units have acted, and the slots
are stepped (R118). -/
def State.atFlips (s : State) (v : Option Held) : State := (s.sensed (.area .staging) v).stepped

theorem atFlips_climate (v : Option Held) (s : State) : (s.atFlips v).climate =
    { (s.sample (.area .staging) v).climate with sweep := (s.atFlips v).climate.sweep } := by
  obtain ⟨climate, _⟩ := sample_keeps (.area .staging) v s
  rw [climate]
  rfl

theorem atFlips_custody (v : Option Held) (s : State) : (s.atFlips v).custody = s.custody := by
  rw [State.atFlips, State.stepped, mapSlots_custody, sensed_frame]

theorem atFlips_consign (v : Option Held) (s : State) : (s.atFlips v).consign = s.consign := by
  rw [State.atFlips, State.stepped, mapSlots_consign, sensed_frame]

/-- The notices of the climate unit have been sent when a Staging sample event makes its flips (R21, R31). -/
theorem atFlips_links (v : Option Held) (s : State) :
    (s.atFlips v).links = (s.sampleNotices (.area .staging) v).links := by
  rw [State.atFlips, State.stepped, mapSlots_links, sensed_frame]

/-- What a Staging sample event has left alone when it makes its flips. -/
theorem atFlips_frame (v : Option Held) (s : State) : (s.atFlips v).vault = s.vault ∧ (s.atFlips v).hatch = s.hatch ∧
    (s.atFlips v).inputs = s.inputs ∧ (s.atFlips v).power = s.power ∧ (s.atFlips v).pending = s.pending := by
  unfold State.atFlips State.stepped
  rw [mapSlots_vault, mapSlots_hatch, mapSlots_inputs, mapSlots_power, mapSlots_pending, sensed_frame]
  exact ⟨rfl, rfl, rfl, rfl, rfl⟩

/-- A Staging sample event leaves the slots as they are when it makes its flips. -/
theorem atFlips_staging (v : Option Held) (s : State) :
    (s.atFlips v).staging = (s.sample (.area .staging) v).staging := by
  rw [sample_staging, setSweep_staging, stageSample_staging]
  rfl

/-- A Staging sample event leaves the fire unit and the accumulators as they are when it makes its flips. -/
theorem atFlips_kept (v : Option Held) (s : State) : (s.atFlips v).fire = (s.sample (.area .staging) v).fire ∧
    (s.atFlips v).accumulators = (s.sample (.area .staging) v).accumulators := by
  obtain ⟨_, dose, fire, _⟩ := sample_keeps (.area .staging) v s
  rw [fire, dose]
  exact ⟨rfl, rfl⟩

/-- The accumulator has been handed over when a Staging sample event makes its flips (R73, R184). -/
theorem atFlips_store (v : Option Held) (s : State) :
    ((∃ k, s.store.format = .writing k ∧ k ≤ 7) → (s.atFlips v).store = s.store) ∧
    ((¬ ∃ k, s.store.format = .writing k ∧ k ≤ 7) → (s.atFlips v).store = s.store.handOver (.accumulator .staging)
      (.accumulator ((s.sample (.area .staging) v).accumulators.get .staging))) := by
  obtain ⟨_, dose⟩ := sample_area .staging v s
  rw [dose, State.atFlips, State.stepped, mapSlots_store, sensed_area]
  exact ⟨fun taken => takeAccumulator_of_folds taken _, fun free => takeAccumulator_of_not_folds free _⟩

/-- A slot's step does not read the sweep. -/
theorem step_sweep (x : Slot) (g : ClimateUnit) (w : Sweep) : x.step { g with sweep := w } = x.step g := by
  cases x with
  | free => rfl
  | reserved l o t => rfl
  | occupied l d o dwell e => simp only [Slot.step, withBase, ClimateUnit.held]

/-- A slot behind a Staging sample event is the slot before it, stepped by the channels that the event leaves (R67). -/
theorem sample_slot (v : Option Held) (s : State) (n : Fin 32) : (s.sample (.area .staging) v).staging.slots[n] =
    (s.staging.slots[n]).step (s.sample (.area .staging) v).climate := by
  obtain ⟨climate, _⟩ := sample_keeps (.area .staging) v s
  have staging : (s.sensed (.area .staging) v).staging = s.staging := by rw [sensed_frame]
  have slots : (s.atFlips v).staging.slots[n] = (s.staging.slots[n]).step (s.sensed (.area .staging) v).climate := by
    rw [State.atFlips, State.stepped, mapSlots_staging, staging]
    rw [tabulate_get]
  rw [← atFlips_staging, slots, climate]
  exact (step_sweep _ _ _).symm

/-- A step keeps what an OCCUPIED slot holds (R67, R69). -/
theorem step_occupied (g : ClimateUnit) (l : Label) (d : Direction) (o : Channel) (dwell : Nat) (e : Option Int) :
    ∃ dwell' e', (Slot.occupied l d o dwell e).step g = .occupied l d o dwell' e' := by
  simp only [Slot.step]
  split <;> exact ⟨_, _, rfl⟩

theorem occupied_of_step {g : ClimateUnit} {x : Slot} {l : Label} {d : Direction} {o : Channel} {dwell : Nat}
    {e : Option Int} (h : x.step g = .occupied l d o dwell e) : ∃ dwell' e', x = .occupied l d o dwell' e' := by
  cases x with
  | free => cases h
  | reserved l o t => cases h
  | occupied l' d' o' dwell' e' =>
    obtain ⟨dwell'', e'', stepped⟩ := step_occupied g l' d' o' dwell' e'
    rw [stepped] at h
    cases h
    exact ⟨dwell', e', rfl⟩

/-- No step without held values, or without an estimate or a base for one (R67, R68). -/
theorem step_of_absent {g : ClimateUnit} {o : Channel} {e : Option Int}
    (h : g.held (.area .staging) = none ∨ (e = none ∧ g.held o = none)) (l : Label) (d : Direction) (dwell : Nat) :
    (Slot.occupied l d o dwell e).step g = .occupied l d o dwell e := by
  obtain air | ⟨rfl, base⟩ := h
  · simp only [Slot.step, air]
  · cases held : g.held (.area .staging) <;> simp only [Slot.step, withBase, base, held, Option.map_none]

/-- A step toward the Staging air from the estimate or its base, with the dwell counted (R66 to R69). -/
theorem step_of_present {g : ClimateUnit} {o : Channel} {e : Option Int} {air : Held} {x : Int}
    (held : g.held (.area .staging) = some air)
    (estimate : e = some x ∨ e = none ∧ ∃ b, g.held o = some b ∧ x = b.temperature) (l : Label) (d : Direction) (dwell : Nat) :
    (Slot.occupied l d o dwell e).step g = .occupied l d o (min 65535 (dwell + 1))
      (some (acclimatise x air.temperature g.settings.staging.coupling)) := by
  have based : withBase g o e = some x := by
    obtain rfl | ⟨rfl, b, base, rfl⟩ := estimate
    · rfl
    · simp only [withBase, base, Option.map_some]
  simp only [Slot.step, held, based]

/-- The records of a Staging sample event are those that the flips leave (R119). -/
theorem sample_custody (v : Option Held) (s : State) : (s.sample (.area .staging) v).custody =
    (slotNumbers.foldl State.flipSlot ([], s.atFlips v)).2.custody := by
  rw [sample_staging, setSweep_custody, stageSample_custody, State.atFlips]

/-! ## The shelf behind a Staging sample event (R118, R119) -/

theorem mem_slotNumbers (n : Fin 32) : n ∈ slotNumbers := List.mem_finRange n

/-- No label stands in two slots. -/
def State.alone (s : State) : Prop :=
  ∀ (m n : Fin 32) l d d' o o' dwell dwell' e e', s.staging.slots[m] = .occupied l d o dwell e →
    s.staging.slots[n] = .occupied l d' o' dwell' e' → m = n

theorem atFlips_slot (v : Option Held) (s : State) (n : Fin 32) :
    (s.atFlips v).staging.slots[n] = (s.staging.slots[n]).step (s.sample (.area .staging) v).climate := by
  rw [atFlips_staging, sample_slot]

theorem atFlips_alone {v : Option Held} {s : State} (h : s.alone) : (s.atFlips v).alone := by
  intro m n l d d' o o' dwell dwell' e e' hm hn
  rw [atFlips_slot] at hm hn
  obtain ⟨_, _, held⟩ := occupied_of_step hm
  obtain ⟨_, _, held'⟩ := occupied_of_step hn
  exact h m n l d d' o o' _ _ _ _ held held'

/-- The readiness test of an OCCUPIED slot, by its direction (R70, R71). -/
def readyBy (g : ClimateUnit) (settings : StagingSettings) (d : Direction) (dwell : Nat) (e : Option Int) : Bool :=
  match d with
  | .outbound => readyOutTest g settings dwell e
  | .inbound => readyInTest g settings dwell e

theorem slotReady_eq (s : State) (l : Label) (d : Direction) (o : Channel) (dwell : Nat) (e : Option Int) :
    s.slotReady (.occupied l d o dwell e) = readyBy s.climate s.staging.settings d dwell e := by cases d <;> rfl

/-- The readiness test reads the channels alone. -/
theorem readyBy_sweep (g : ClimateUnit) (w : Sweep) (settings : StagingSettings) (d : Direction) (dwell : Nat)
    (e : Option Int) : readyBy { g with sweep := w } settings d dwell e = readyBy g settings d dwell e := by
  cases d <;> rfl

theorem atFlips_ready (v : Option Held) (s : State) (l : Label) (d : Direction) (o : Channel) (dwell : Nat) (e : Option Int) :
    (s.atFlips v).slotReady (.occupied l d o dwell e) =
      readyBy (s.sample (.area .staging) v).climate s.staging.settings d dwell e := by
  have settings : (s.atFlips v).staging.settings = s.staging.settings := by
    obtain ⟨_, _, _, _, _, _, staging, _⟩ := sample_keeps (.area .staging) v s
    rw [atFlips_staging, staging]
  rw [slotReady_eq, settings, atFlips_climate]
  exact readyBy_sweep _ _ _ _ _ _

theorem atFlips_record (v : Option Held) (s : State) (l : Label) : (s.atFlips v).record? l = s.record? l := by
  unfold State.record?
  rw [atFlips_custody]

section
variable {v : Option Held} {s : State}

/-- The places of the custody table stay (R119). -/
theorem sample_places (wf : custodyWf s.custody = true) :
    (s.sample (.area .staging) v).custody.map (·.1) = s.custody.map (·.1) := by
  have custody := atFlips_custody v s
  obtain ⟨_, places, _⟩ := flips_frame slotNumbers (x := ([], s.atFlips v)) (by rw [custody]; exact wf)
  rw [sample_custody, places, custody]

/-- No record changes but in its state, and that between READY and STAGED (R119). -/
theorem sample_turns (wf : custodyWf s.custody = true) {p : Nat} {r' : CustodyRecord}
    (h : recordAt p (s.sample (.area .staging) v).custody = some r') :
    ∃ r, recordAt p s.custody = some r ∧ r' = { r with state := r'.state } ∧ r.state.turnsTo r'.state := by
  have custody := atFlips_custody v s
  rw [sample_custody] at h
  obtain ⟨r, found, kept⟩ := flips_turn slotNumbers (x := ([], s.atFlips v)) (by rw [custody]; exact wf) h
  exact ⟨r, custody ▸ found, kept⟩

/-- A record that changes is the one that an OCCUPIED slot names (R119). -/
theorem sample_changed (wf : custodyWf s.custody = true) {p : Nat} {r : CustodyRecord} (found : recordAt p s.custody = some r)
    (h : recordAt p (s.sample (.area .staging) v).custody ≠ some r) :
    s.record? r.label = some (p, r) ∧ ∃ (n : Fin 32) (d : Direction) (o : Channel) (dwell : Nat) (e : Option Int),
      s.staging.slots[n] = .occupied r.label d o dwell e := by
  have custody := atFlips_custody v s
  have changed : recordAt p (slotNumbers.foldl State.flipSlot ([], s.atFlips v)).2.custody ≠
      recordAt p (s.atFlips v).custody := by
    rw [← sample_custody, custody, found]; exact h
  obtain ⟨n, _, l, d, o, dwell, e, r', slot, record⟩ :=
    flips_changed slotNumbers (x := ([], s.atFlips v)) (by rw [custody]; exact wf) changed
  rw [atFlips_record] at record
  have it : r' = r := Option.some.inj ((record_place wf record).symm.trans found)
  have label : r.label = l := by rw [← it]; exact record_label record
  rw [atFlips_slot] at slot
  obtain ⟨_, _, held⟩ := occupied_of_step slot
  rw [label]
  exact ⟨it ▸ record, n, d, o, _, _, held⟩

/-- With no label in two slots, the record that an OCCUPIED slot names takes the state of the slot's test (R119). -/
theorem sample_flips (wf : custodyWf s.custody = true) (alone : s.alone) {n : Fin 32} {l : Label} {d : Direction}
    {o : Channel} {dwell : Nat} {e : Option Int} {p : Nat} {r : CustodyRecord}
    (slot : (s.sample (.area .staging) v).staging.slots[n] = .occupied l d o dwell e) (record : s.record? l = some (p, r)) :
    recordAt p (s.sample (.area .staging) v).custody = some { r with
      state := r.state.flip (readyBy (s.sample (.area .staging) v).climate s.staging.settings d dwell e) } := by
  have custody := atFlips_custody v s
  have wf' : custodyWf (s.atFlips v).custody = true := by rw [custody]; exact wf
  rw [← atFlips_staging] at slot
  have turned := flips_record_of_slot (List.nodup_finRange 32) (x := ([], s.atFlips v)) wf' (mem_slotNumbers n) slot
    ((atFlips_record v s l).trans record) fun m d' o' dwell' e' held =>
      atFlips_alone alone m n l d' d o' o dwell' dwell e' e held slot
  rw [sample_custody, ← atFlips_ready v s l d o dwell e]
  exact record_place (flips_frame slotNumbers (x := ([], s.atFlips v)) wf').1 turned

/-- The consignments handed over are those of the OUT records that flip (R119, R129). -/
theorem mem_flipPlaces {s : State} {i : Fin 16} : i ∈ s.flipPlaces ↔ ∃ c n p r a, s.consign.places[i] = some c ∧
    s.flipOf n = some (p, r, a) ∧ (a = .stagedOut ∨ a = .readyOut) ∧ r.consignment = some c.number := by
  have place : i ∈ placeNumbers := List.mem_finRange i
  simp only [State.flipPlaces, List.mem_filter, place, true_and]
  cases s.consign.places[i] with
  | none => simp
  | some c =>
    simp only [List.any_eq_true, List.mem_filterMap, mem_slotNumbers, true_and, Bool.and_eq_true, Bool.or_eq_true,
      beq_iff_eq, Option.some.injEq]
    constructor
    · rintro ⟨⟨p, r, a⟩, ⟨n, flip⟩, out, bound⟩
      exact ⟨c, n, p, r, a, rfl, flip, out, bound⟩
    · rintro ⟨_, n, p, r, a, rfl, flip, out, bound⟩
      exact ⟨(p, r, a), ⟨n, flip⟩, out, bound⟩

theorem flip_out_iff (a : CustodyState) (pass : Bool) :
    (a.flip pass = .stagedOut ∨ a.flip pass = .readyOut) ↔ (a = .stagedOut ∨ a = .readyOut) := by
  cases a <;> cases pass <;> simp [CustodyState.flip]

/-- The consignments handed over, by the records before and behind the event (R119, R129, R133). -/
theorem sample_flipPlaces (wf : custodyWf s.custody = true) (alone : s.alone) (i : Fin 16) :
    i ∈ (s.atFlips v).flipPlaces ↔ ∃ c p r r', s.consign.places[i] = some c ∧ recordAt p s.custody = some r ∧
      recordAt p (s.sample (.area .staging) v).custody = some r' ∧ r'.state ≠ r.state ∧
      (r.state = .stagedOut ∨ r.state = .readyOut) ∧ r.consignment = some c.number := by
  rw [mem_flipPlaces, atFlips_consign]
  constructor
  · rintro ⟨c, n, p, r, a, place, flip, out, bound⟩
    obtain ⟨l, d, o, dwell, e, slot, record, rfl, change⟩ := flipOf_eq_some_iff.1 flip
    rw [atFlips_record] at record
    rw [atFlips_staging] at slot
    rw [atFlips_ready] at out change
    exact ⟨c, p, r, _, place, record_place wf record, sample_flips wf alone slot record, change, (flip_out_iff _ _).1 out,
      bound⟩
  · rintro ⟨c, p, r, r', place, before, behind, change, out, bound⟩
    have moved : recordAt p (s.sample (.area .staging) v).custody ≠ some r := fun same =>
      change (congrArg CustodyRecord.state (Option.some.inj (behind.symm.trans same)))
    obtain ⟨record, n, d, o, dwell, e, held⟩ := sample_changed wf before moved
    obtain ⟨dwell', e', stepped⟩ := step_occupied (s.sample (.area .staging) v).climate r.label d o dwell e
    have slot : (s.sample (.area .staging) v).staging.slots[n] = .occupied r.label d o dwell' e' := by
      rw [sample_slot, held, stepped]
    have turned := sample_flips wf alone slot record
    have state : r'.state = r.state.flip (readyBy (s.sample (.area .staging) v).climate s.staging.settings d dwell' e') :=
      congrArg CustodyRecord.state (Option.some.inj (behind.symm.trans turned))
    rw [state] at change
    refine ⟨c, n, p, r, _, place, flipOf_eq_some_iff.2 ⟨r.label, d, o, dwell', e', ?_, ?_, rfl, ?_⟩, ?_, bound⟩
    · rw [atFlips_staging]; exact slot
    · rw [atFlips_record]; exact record
    · rw [atFlips_ready]; exact change
    · rw [atFlips_ready]; exact (flip_out_iff _ _).2 out

end

theorem flipPlaces_rise (s : State) : s.flipPlaces.Pairwise (fun i j => i < j) :=
  (List.pairwise_lt_finRange 16).sublist List.filter_sublist

/-- A slot behind a sample event of channel 1, 2 or 5 has its base at most (R68). -/
theorem sample_slot_of_base {c : Channel} (hc : c = .area .vaultA ∨ c = .area .vaultB ∨ c = .outside) (v : Option Held)
    (s : State) (n : Fin 32) :
    (s.sample c v).staging.slots[n] = (s.staging.slots[n]).takeBase (s.climate.recorded c v) c := by
  have staging : (s.sensed c v).staging = s.staging := by rw [sensed_frame]
  have based : ((s.sensed c v).mapSlots (Slot.takeBase (s.climate.recorded c v) c)).staging.slots[n] =
      (s.staging.slots[n]).takeBase (s.climate.recorded c v) c := by
    rw [mapSlots_staging, staging]
    rw [tabulate_get]
  obtain rfl | rfl | rfl := hc
  · rw [sample_eq, nextRead_eq, setSweep_staging, recordSample_climate]; exact based
  · rw [sample_eq, nextRead_eq, setSweep_staging, recordSample_climate]; exact based
  · have gate : (s.sample .outside v).staging = (s.atGate .outside v).staging := by
      rw [sample_gate (Or.inr rfl), nextRead_eq, setSweep_staging]
      split
      · exact arbitrate_staging _ _
      · rfl
    rw [gate]
    exact based

/-- A sample event of a read that has ended, valid or not, is the channel's with the read's value. -/
theorem sampleOf_ended {reading : SensorReading} {v : Option Held} {c : Channel} {s : State}
    (h : s.climate.sweep = .reading c ∧ v = reading.value ∨ s.climate.sweep = .ended c ∧ v = none) :
    ∃ bus, s.sampleOf reading = (s.drive bus).sample c v := by
  obtain ⟨reads, rfl⟩ | ⟨ended, rfl⟩ := h
  · exact ⟨_, sampleOf_of_reading reads reading⟩
  · exact ⟨_, sampleOf_of_ended ended reading⟩

/-- A slot that takes its base, in the words of R68. -/
theorem takeBase_eq (g : ClimateUnit) (c : Channel) (x : Slot) : x.takeBase g c =
    (match x, (g.channels.get c).held with
      | .occupied l d o dwell none, some y => if o = c then .occupied l d o dwell (some y.temperature)
          else .occupied l d o dwell none
      | y, _ => y) := by
  cases x with
  | free => rfl
  | reserved l o t => rfl
  | occupied l d o dwell e =>
    by_cases based : o = c
    · subst based
      cases e <;> cases held : (g.channels.get o).held <;>
        simp only [Slot.takeBase, withBase, ClimateUnit.held, held, if_true, Option.map_none, Option.map_some]
    · cases e <;> cases (g.channels.get c).held <;> simp only [Slot.takeBase, if_neg based]

/-- A Staging sample event is what its flips, the consignment tests behind them, and an arbitration make of the state in
which it makes the flips (R119, R133, R143). -/
theorem sample_staging_eq {v : Option Held} {s w x : State} {needs needs' : List Nat}
    (flips : (List.finRange 32).foldl State.flipSlot ([], s.atFlips v) = (needs, w))
    (tests : (s.atFlips v).flipPlaces.foldl (fun x i => x.2.testConsign x.1 i) (needs, w) = (needs', x)) :
    s.sample (.area .staging) v = (if x.consign = w.consign then x else x.arbitrate needs').setSweep
      (.waiting (.area .hatch) s.vault.uptime) := by
  have tested : w.testPlaces needs (s.atFlips v).flipPlaces = (needs', x) := tests
  rw [sample_staging, stageSample_eq]
  unfold State.atFlips slotNumbers at *
  rw [flips, tested]

/-- Settles O28: the shelf and the records behind a Staging sample event, the sample events that give a base alone, and
one flip by the record's state. -/
theorem stagingSampleStepsAndFlips : Obligations.StagingSampleStepsAndFlips := by
  refine ⟨fun reading v s hp wf ended => ?_, fun reading v c s hp hc ended => ?_,
    fun needs n l d o dwell p e r s slot record => ?_⟩
  · intro now state told
    obtain ⟨bus, sampled⟩ := sampleOf_ended ended
    have wf' : custodyWf (s.drive bus).custody = true := wf
    have links : ((s.drive bus).atFlips v).links = told.links := by
      rw [atFlips_links, sampleNotices_links_drive, sampleNotices_eq]
      simp only [told]
      cases now.held <;> rfl
    obtain ⟨vault, hatch, inputs, power, pending⟩ := atFlips_frame v (s.drive bus)
    obtain ⟨fire, doses⟩ := atFlips_kept v (s.drive bus)
    obtain ⟨taken, free⟩ := atFlips_store v (s.drive bus)
    have settings : ((s.drive bus).sample (.area .staging) v).climate.settings = s.climate.settings := by
      rw [sample_climate]; rfl
    have stepped : ∀ n : Fin 32, ((s.drive bus).sample (.area .staging) v).staging.slots[n] =
      (s.staging.slots[n]).step ((s.drive bus).sample (.area .staging) v).climate := sample_slot v (s.drive bus)
    refine ⟨(s.drive bus).sample (.area .staging) v, (exec_sampleEvent reading hp).trans (congrArg _ sampled), ?_,
      fun n => ⟨?_, fun l d o dwell e held => ⟨fun absent => ?_, fun air x present estimate => ?_⟩⟩, sample_places wf',
      fun p r' found => sample_turns wf' found, fun p r found unslotted => ?_, fun alone n l d o dwell e p r slot record => ?_,
      (s.drive bus).atFlips v, ((s.drive bus).atFlips v).flipPlaces, atFlips_custody v _, atFlips_consign v _,
      atFlips_staging v _, vault, fire,
      atFlips_climate v _, links, hatch, doses, inputs, power, pending, ⟨taken, free⟩,
      fun alone => sample_flipPlaces wf' alone, flipPlaces_rise _, ?_⟩
    · rw [sample_channels, perChannel_get_set, if_pos rfl]
      rfl
    · rintro (empty | ⟨l, o, t, reserved⟩)
      · rw [stepped n, empty]
        rfl
      · rw [stepped n, reserved]
        rfl
    · rw [stepped n, held, step_of_absent absent]
    · rw [stepped n, held, step_of_present present estimate, settings]
    · by_contra moved
      obtain ⟨_, n, d, o, dwell, e, held⟩ := sample_changed wf' found moved
      exact unslotted n d o dwell e held
    · intro pass
      have tested : readyBy ((s.drive bus).sample (.area .staging) v).climate s.staging.settings d dwell e = pass := by
        cases d <;> rfl
      refine (sample_flips wf' alone slot record).trans (congrArg (fun st => some { r with state := st }) ?_)
      refine (congrArg r.state.flip tested).trans ?_
      clear_value pass
      cases r.state <;> cases pass <;> rfl
    · generalize flips : (List.finRange 32).foldl State.flipSlot ([], (s.drive bus).atFlips v) = flipped
      obtain ⟨needs, w⟩ := flipped
      simp only []
      generalize tests : ((s.drive bus).atFlips v).flipPlaces.foldl (fun x i => x.2.testConsign x.1 i) (needs, w) = tested
      obtain ⟨needs', x⟩ := tested
      exact sample_staging_eq flips tests
  · obtain ⟨bus, sampled⟩ := sampleOf_ended ended
    obtain ⟨_, _, _, _, _, _, staging, _⟩ := sample_keeps c v (s.drive bus)
    obtain ⟨_, custody, consign⟩ := sample_records (c := c) (by rintro rfl; simp at hc) v (s.drive bus)
    refine ⟨_, (exec_sampleEvent reading hp).trans (congrArg _ sampled), staging, custody, consign, fun n => ?_⟩
    refine (sample_slot_of_base hc v (s.drive bus) n).trans ((takeBase_eq _ _ _).trans ?_)
    rw [sample_channels]
    rfl
  · intro pass ready
    have tested : s.slotReady (.occupied l d o dwell e) = pass := (slotReady_eq s l d o dwell e).trans (by cases d <;> rfl)
    have flip := flipOf_of_slot slot record
    rw [tested] at flip
    refine ⟨fun st hpass => ?_, fun st hpass => ?_, fun st hpass => ?_, fun st hpass => ?_, ?_, ?_⟩
    · rw [st, hpass] at flip
      exact flipSlot_to_ready (x := (needs, s)) flip rfl
    · rw [st, hpass] at flip
      exact flipSlot_to_ready (x := (needs, s)) flip rfl
    · rw [st, hpass] at flip
      exact flipSlot_to_staged (x := (needs, s)) flip rfl
    · rw [st, hpass] at flip
      exact flipSlot_to_staged (x := (needs, s)) flip rfl
    · rintro (st | st) hpass
      · rw [st, hpass] at flip
        exact flipSlot_of_none (x := (needs, s)) flip
      · rw [st, hpass] at flip
        exact flipSlot_of_none (x := (needs, s)) flip
    · rintro (st | st) hpass
      · rw [st, hpass] at flip
        exact flipSlot_of_none (x := (needs, s)) flip
      · rw [st, hpass] at flip
        exact flipSlot_of_none (x := (needs, s)) flip

end Sys2Proof.Machine
end

