-- ==== Sys2Proof/Proofs/FireUnit.lean ====
section
/-! SUPPORT. The fire unit's operations on its own records: what a change of a detector, an entry into alarm and the
entry of the countdown leave in the detectors and in the areas (R38 to R48). -/

namespace Sys2Proof.Machine

/-! ## Detectors (R38 to R42) -/

theorem onDetector_get (d e : Detector) (f : DetectorRecord → DetectorRecord) (s : State) :
    (s.onDetector d f).fire.detectors[e] = if e = d then f s.fire.detectors[d] else s.fire.detectors[e] :=
  vector_getElem_set _ d e _

theorem changeDetector_of_same {d : Detector} {x : DetectorState} {s : State} (h : s.fire.detectors[d].state = x) :
    s.changeDetector d x = s := if_pos h

theorem changeDetector_of_ne {d : Detector} {x : DetectorState} {s : State} (h : s.fire.detectors[d].state ≠ x) :
    s.changeDetector d x = ((s.onDetector d fun y => { y with state := x }).postNotice (.detector d x)).updateTrouble :=
  if_neg h

/-- A change of a detector's state is that of its record alone, whether there is one or not. -/
theorem changeDetector_detectors (d : Detector) (x : DetectorState) (s : State) :
    (s.changeDetector d x).fire.detectors = s.fire.detectors.set d { s.fire.detectors[d] with state := x } := by
  by_cases h : s.fire.detectors[d].state = x
  · subst h
    rw [changeDetector_of_same rfl]
    exact (Vector.set_getElem_self d.isLt).symm
  · rw [changeDetector_of_ne h, updateTrouble_fire, postNotice_fire]
    rfl

theorem changeDetector_get (d e : Detector) (x : DetectorState) (s : State) :
    (s.changeDetector d x).fire.detectors[e] =
      if e = d then { s.fire.detectors[d] with state := x } else s.fire.detectors[e] := by
  rw [changeDetector_detectors]
  exact vector_getElem_set _ d e _

theorem isActive_eq (p : Polarity) (l : Level) :
    p.isActive l = ((p == .activeHigh && l == .high) || (p == .activeLow && l == .low)) := by
  cases p <;> cases l <;> rfl

/-- The state that a detector's lines name, with alarm before fault (R38). -/
theorem condition_names (x : DetectorRecord) : x.condition.names =
    if (x.polarity == .activeHigh && x.alarmLine == .high) || (x.polarity == .activeLow && x.alarmLine == .low) then .alarm
    else if x.faultLine = .high then .fault else .normal := by
  unfold DetectorRecord.condition
  rw [isActive_eq]
  split
  · rfl
  split <;> rfl

theorem names_eq_alarm_iff (c : LineCondition) : c.names = .alarm ↔ c = .alarm := by cases c <;> simp [LineCondition.names]

/-- What an evaluation gives a detector that is neither ISOLATED nor in a latched ALARM (R39, R41). -/
theorem evaluated_of_free {x : DetectorRecord} (hi : x.state ≠ .isolated)
    (ha : ¬ (x.state = .alarm ∧ x.assignment.isSome = true)) : x.evaluated = x.condition.names := by
  unfold DetectorRecord.evaluated
  cases hs : x.state with
  | isolated => exact absurd hs hi
  | alarm => exact if_neg fun h => ha ⟨hs, h⟩
  | normal => rfl
  | fault => rfl

/-- ISOLATED and a latched ALARM stay (R39, R40). -/
theorem evaluated_of_kept {x : DetectorRecord}
    (h : x.state = .isolated ∨ x.state = .alarm ∧ x.assignment.isSome = true) : x.evaluated = x.state := by
  obtain hs | ⟨hs, ha⟩ := h <;> simp only [DetectorRecord.evaluated, hs]
  exact if_pos ha

/-- An evaluation that changes nothing has no effect. -/
theorem evaluateDetector_of_same {d : Detector} {s : State}
    (h : s.fire.detectors[d].evaluated = s.fire.detectors[d].state) : s.evaluateDetector d = s := by
  refine (if_neg fun e => e.2 (h.symm.trans e.1)).trans ?_
  exact changeDetector_of_same h.symm

/-- An evaluation that gives no new ALARM is a change of the detector's state. -/
theorem evaluateDetector_of_no_entry {d : Detector} {s : State}
    (h : s.fire.detectors[d].evaluated ≠ .alarm ∨ s.fire.detectors[d].state = .alarm) :
    s.evaluateDetector d = s.changeDetector d s.fire.detectors[d].evaluated :=
  if_neg fun e => h.elim (fun k => k e.1) e.2

/-- A new ALARM reaches the area (R45). -/
theorem evaluateDetector_of_entry {d : Detector} {s : State} (h : s.fire.detectors[d].evaluated = .alarm)
    (hs : s.fire.detectors[d].state ≠ .alarm) : s.evaluateDetector d = (s.changeDetector d .alarm).alarmEntry d := by
  refine (if_pos ⟨h, hs⟩).trans ?_
  rw [h]

/-! ## Areas (R45 to R48) -/

theorem onFireArea_onFireArea (a : Area) (f g : FireArea → FireArea) (s : State) :
    (s.onFireArea a f).onFireArea a g = s.onFireArea a fun x => g (f x) := by
  simp only [State.onFireArea, perArea_get_set, if_pos, perArea_set_set]

theorem onFireArea_get (a b : Area) (f : FireArea → FireArea) (s : State) :
    (s.onFireArea a f).fire.areas.get b = if b = a then f (s.fire.areas.get a) else s.fire.areas.get b :=
  perArea_get_set _ a b _

/-- A change that leaves an area's record as it is has no effect. -/
theorem onFireArea_of_same {a : Area} {f : FireArea → FireArea} {s : State} (h : f (s.fire.areas.get a) = s.fire.areas.get a) :
    s.onFireArea a f = s := by
  simp only [State.onFireArea, h, perArea_set_get]

/-- The state in which an area enters the countdown (R47). -/
def State.countdownState (s : State) : FireState := if s.fire.abort then .held else .countdown s.vault.uptime

theorem enterCountdown_eq (a : Area) (s : State) : s.enterCountdown a = s.changeFire a s.countdownState := rfl

/-- The state of an area behind an entry of one of its detectors into ALARM, by the count of those in ALARM (R46). -/
def FireArea.entered (count : Nat) (countdown : FireState) (x : FireArea) : FireState :=
  if x.state.late = true then x.state
  else if x.settings.coincidence = .single ∨ 2 ≤ count then countdown
  else .preAlarm

theorem entered_of_late {x : FireArea} (h : x.state.late = true) (n : Nat) (c : FireState) : x.entered n c = x.state :=
  if_pos h

theorem entered_of_two {x : FireArea} {n : Nat} (h : x.state.late = false) (two : x.settings.coincidence = .single ∨ 2 ≤ n)
    (c : FireState) : x.entered n c = c := by
  simp only [FireArea.entered, h, if_pos two]
  rfl

theorem entered_of_one {x : FireArea} {n : Nat} (h : x.state.late = false) (one : x.settings.coincidence = .double)
    (two : n < 2) (c : FireState) : x.entered n c = .preAlarm := by
  simp [FireArea.entered, h, one, Nat.not_le.2 two]

theorem alarmEntry_of_unassigned {d : Detector} {s : State} (h : s.fire.detectors[d].assignment = none) :
    s.alarmEntry d = s := by
  simp only [State.alarmEntry, h]

/-- An entry into ALARM changes the area's fire state to what R46 gives, or has no effect where that is its state. -/
theorem alarmEntry_of_assigned {d : Detector} {a : Area} {s : State} (h : s.fire.detectors[d].assignment = some a) :
    let new := (s.fire.areas.get a).entered (s.fire.alarmCount a) s.countdownState
    s.alarmEntry d = if (s.fire.areas.get a).state = new then s else s.changeFire a new := by
  intro new
  have counts : s.countdownState.late = true := by
    unfold State.countdownState
    split <;> rfl
  have early : ∀ {x : FireState}, x.late = false → x ≠ s.countdownState := fun hx e => by rw [e, counts] at hx; cases hx
  simp only [new, State.alarmEntry, h, enterCountdown_eq, FireArea.entered]
  cases hs : (s.fire.areas.get a).state with
  | quiet =>
    have q := early (x := .quiet) rfl
    cases hc : (s.fire.areas.get a).settings.coincidence <;> by_cases two : 2 ≤ s.fire.alarmCount a <;>
      simp [FireState.late, two, q]
  | preAlarm =>
    have q := early (x := .preAlarm) rfl
    cases hc : (s.fire.areas.get a).settings.coincidence <;> by_cases two : 2 ≤ s.fire.alarmCount a <;>
      simp [FireState.late, two, q]
  | countdown n => simp [FireState.late]
  | held => simp [FireState.late]
  | discharged => simp [FireState.late]
  | venting n => simp [FireState.late]

/-- What an entry into ALARM leaves in the areas (R46). -/
theorem alarmEntry_areas {d : Detector} {a : Area} {s : State} (h : s.fire.detectors[d].assignment = some a) :
    (s.alarmEntry d).fire.areas = s.fire.areas.set a { s.fire.areas.get a with
      state := (s.fire.areas.get a).entered (s.fire.alarmCount a) s.countdownState } := by
  rw [alarmEntry_of_assigned h]
  split
  · rename_i same
    rw [← same, perArea_set_get]
  · exact changeFire_fire_areas a _ s

/-- An entry into ALARM touches no area but the detector's. -/
theorem alarmEntry_get {d : Detector} {s : State} (b : Area) : (s.alarmEntry d).fire.areas.get b =
    if s.fire.detectors[d].assignment = some b then { s.fire.areas.get b with
      state := (s.fire.areas.get b).entered (s.fire.alarmCount b) s.countdownState }
    else s.fire.areas.get b := by
  cases h : s.fire.detectors[d].assignment with
  | none => rw [alarmEntry_of_unassigned h, if_neg (by simp)]
  | some a =>
    rw [alarmEntry_areas h, perArea_get_set]
    by_cases hb : b = a
    · subst hb; rw [if_pos rfl, if_pos rfl]
    · rw [if_neg hb, if_neg fun e => hb (Option.some.inj e).symm]

/-! ## A change of every area or of every detector, in number order -/

theorem areas_nodup : Area.all.Nodup := by decide

theorem mem_detectors (d : Detector) : d ∈ Detector.all := List.mem_finRange d

theorem detectors_nodup : Detector.all.Nodup := List.nodup_finRange 12

/-- Two folds agree where their steps agree; `P` is what the steps keep. -/
theorem foldl_congr_of {α β : Type} {P : β → Prop} {f g : β → α → β} (keeps : ∀ b a, P b → P (f b a))
    (same : ∀ b a, P b → f b a = g b a) : ∀ (l : List α) (b : β), P b → l.foldl f b = l.foldl g b
  | [], _, _ => rfl
  | a :: l, b, hb => by
    rw [List.foldl_cons, List.foldl_cons, ← same b a hb]
    exact foldl_congr_of keeps same l _ (keeps b a hb)

/-- A fold whose steps each change one area's record takes each area once; `P` is what its steps keep. -/
theorem foldl_areas_get {P : State → Prop} {f : State → Area → State} {g : Area → FireArea → FireArea}
    (keeps : ∀ t a, P t → P (f t a))
    (step : ∀ t a, P t → (f t a).fire.areas = t.fire.areas.set a (g a (t.fire.areas.get a))) (b : Area) :
    ∀ (as : List Area) (s : State), as.Nodup → P s →
      (as.foldl f s).fire.areas.get b = if b ∈ as then g b (s.fire.areas.get b) else s.fire.areas.get b
  | [], _, _, _ => rfl
  | a :: as, s, once, hp => by
    obtain ⟨fresh, once⟩ := List.nodup_cons.1 once
    rw [List.foldl_cons, foldl_areas_get keeps step b as _ once (keeps s a hp), step s a hp, perArea_get_set]
    by_cases hb : b = a
    · subst hb; simp [fresh]
    · simp [hb]

/-- The same for the detectors. -/
theorem foldl_detectors_get {P : State → Prop} {f : State → Detector → State} {g : Detector → DetectorRecord → DetectorRecord}
    (keeps : ∀ t d, P t → P (f t d))
    (step : ∀ t d, P t → (f t d).fire.detectors = t.fire.detectors.set d (g d t.fire.detectors[d])) (e : Detector) :
    ∀ (ds : List Detector) (s : State), ds.Nodup → P s →
      (ds.foldl f s).fire.detectors[e] = if e ∈ ds then g e s.fire.detectors[e] else s.fire.detectors[e]
  | [], _, _, _ => rfl
  | d :: ds, s, once, hp => by
    obtain ⟨fresh, once⟩ := List.nodup_cons.1 once
    have here : (f s d).fire.detectors[e] = if e = d then g d s.fire.detectors[d] else s.fire.detectors[e] := by
      rw [step s d hp]
      exact vector_getElem_set _ d e _
    rw [List.foldl_cons, foldl_detectors_get keeps step e ds _ once (keeps s d hp), here]
    by_cases he : e = d
    · subst he; simp [fresh]
    · simp [he]

theorem foldl_detectors_all {f : State → Detector → State} {g : DetectorRecord → DetectorRecord}
    (step : ∀ t d, (f t d).fire.detectors = t.fire.detectors.set d (g t.fire.detectors[d])) (s : State) (e : Detector) :
    (Detector.all.foldl f s).fire.detectors[e] = g s.fire.detectors[e] :=
  (foldl_detectors_get (P := fun _ => True) (g := fun _ => g) (fun _ _ _ => trivial) (fun t d _ => step t d) e _ s
    detectors_nodup trivial).trans (if_pos (mem_detectors e))

end Sys2Proof.Machine
end

