-- ==== Sys2Proof/Proofs/CallPoints.lean ====
section
/-! SUPPORT. Call points and the abort-hold switch (R43, R44, R47, R48). -/

namespace Sys2Proof.Machine

/-! ## Call points (R43, R47) -/

theorem exec_callPointOperated {a : Area} {s : State} (hp : s.power = .running) : exec (.callPointOperated a) s =
    .next (if (s.fire.areas.get a).callActive then s else (s.settleCall a .high).callPointOn a) :=
  congrArg Host.Outcome.next (event_running _ hp)

theorem exec_callPointInactive {a : Area} {s : State} (hp : s.power = .running) : exec (.callPointInactive a) s =
    .next (if (s.fire.areas.get a).callActive then (s.settleCall a .low).callPointOff a else s) :=
  congrArg Host.Outcome.next (event_running _ hp)

theorem callPointOn_of_active {a : Area} {s : State} (h : (s.fire.areas.get a).callActive = true) : s.callPointOn a = s :=
  if_pos h

theorem callPointOn_of_inactive {a : Area} {s : State} (h : (s.fire.areas.get a).callActive = false) :
    s.callPointOn a = (s.onFireArea a fun x => { x with callActive := true }).callEvent a := if_neg (by simp [h])

theorem callPointOff_of_inactive {a : Area} {s : State} (h : (s.fire.areas.get a).callActive = false) :
    s.callPointOff a = s := onFireArea_of_same (by rw [← h])

theorem callEvent_of_latched {a : Area} {s : State} (h : (s.fire.areas.get a).callLatch = true) : s.callEvent a = s :=
  if_pos h

/-- The first call event of an area sets its latch, and takes an area in QUIET or PRE_ALARM into the countdown. -/
theorem callEvent_of_clear {a : Area} {s : State} (h : (s.fire.areas.get a).callLatch = false) : s.callEvent a =
    let t := s.onFireArea a fun x => { x with callLatch := true }
    if (s.fire.areas.get a).state.late then t else t.enterCountdown a := if_neg (by simp [h])

theorem late_of_early {x : FireState} (h : x = .quiet ∨ x = .preAlarm) : x.late = false := by
  obtain rfl | rfl := h <;> rfl

theorem early_of_not_late {x : FireState} (h : x.late = false) : x = .quiet ∨ x = .preAlarm := by
  cases x <;> simp_all [FireState.late]

/-- A call point that goes active, by its area's call latch and state. -/
theorem callPointOperated_of_inactive {a : Area} {s : State} (h : (s.fire.areas.get a).callActive = false) :
    let v := (s.settleCall a .high).onFireArea a fun x => { x with callActive := true }
    let w := (s.settleCall a .high).onFireArea a fun x => { x with callActive := true, callLatch := true }
    (s.settleCall a .high).callPointOn a =
      if (s.fire.areas.get a).callLatch then v else if (s.fire.areas.get a).state.late then w else w.enterCountdown a := by
  intro v w
  have record : v.fire.areas.get a = { s.fire.areas.get a with callActive := true } := by
    rw [onFireArea_get, if_pos rfl]; rfl
  have joined : (v.onFireArea a fun x => { x with callLatch := true }) = w := onFireArea_onFireArea a _ _ _
  rw [callPointOn_of_inactive (s := s.settleCall a .high) h]
  cases hl : (s.fire.areas.get a).callLatch with
  | true => exact callEvent_of_latched (by rw [record]; exact hl)
  | false =>
    refine (callEvent_of_clear (by rw [record]; exact hl)).trans ?_
    rw [record, joined]
    rfl

/-! ## Abort-hold (R44, R48) -/

theorem exec_abortHoldActive {s : State} (hp : s.power = .running) :
    exec .abortHoldActive s = .next (if s.fire.abort then s else (s.settleAbort .high).abortOn) :=
  congrArg Host.Outcome.next (event_running _ hp)

theorem exec_abortHoldReleased {s : State} (hp : s.power = .running) :
    exec .abortHoldReleased s = .next (if s.fire.abort then (s.settleAbort .low).abortOff else s) :=
  congrArg Host.Outcome.next (event_running _ hp)

/-- An area behind abort-hold's going ACTIVE (R48). -/
def FireArea.holding (x : FireArea) : FireArea :=
  match x.state with
  | .countdown _ => { x with state := .held }
  | _ => x

/-- An area behind abort-hold's going RELEASED at an uptime (R48). -/
def FireArea.resuming (uptime : Nat) (x : FireArea) : FireArea :=
  if x.state = .held then { x with state := .countdown uptime } else x

theorem holding_of_countdown {x : FireArea} (h : ∃ n, x.state = .countdown n) : x.holding = { x with state := .held } := by
  obtain ⟨n, h⟩ := h
  simp only [FireArea.holding, h]

theorem holding_of_other {x : FireArea} (h : ∀ n, x.state ≠ .countdown n) : x.holding = x := by
  unfold FireArea.holding
  split
  · rename_i n hn; exact absurd hn (h n)
  · rfl

theorem holdArea_areas (s : State) (a : Area) :
    (s.holdArea a).fire.areas = s.fire.areas.set a (s.fire.areas.get a).holding := by
  unfold State.holdArea FireArea.holding
  cases (s.fire.areas.get a).state <;> simp

theorem resumeArea_areas (s : State) (a : Area) :
    (s.resumeArea a).fire.areas = s.fire.areas.set a ((s.fire.areas.get a).resuming s.vault.uptime) := by
  unfold State.resumeArea FireArea.resuming
  split <;> simp

/-- What a change of an area's fire state in either direction keeps. -/
theorem holdArea_keeps (s : State) (a : Area) : (s.holdArea a).fire.detectors = s.fire.detectors ∧
    (s.holdArea a).fire.abort = s.fire.abort ∧ (s.holdArea a).climate.channels = s.climate.channels := by
  unfold State.holdArea
  split <;> simp

theorem resumeArea_keeps (s : State) (a : Area) : (s.resumeArea a).fire.detectors = s.fire.detectors ∧
    (s.resumeArea a).fire.abort = s.fire.abort ∧ (s.resumeArea a).climate.channels = s.climate.channels := by
  unfold State.resumeArea
  split <;> simp

/-- The part of the state that abort-hold leaves behind the switch itself. -/
def State.besideAreas (s : State) := (s.fire.detectors, s.fire.abort, s.climate.channels)

theorem holdAreas_besideAreas (s : State) : (Area.all.foldl State.holdArea s).besideAreas = s.besideAreas :=
  foldl_keeps _ State.besideAreas (fun t a => by simp only [State.besideAreas, holdArea_keeps t a]) _ _

theorem resumeAreas_besideAreas (s : State) : (Area.all.foldl State.resumeArea s).besideAreas = s.besideAreas :=
  foldl_keeps _ State.besideAreas (fun t a => by simp only [State.besideAreas, resumeArea_keeps t a]) _ _

theorem holdAreas_get (s : State) (a : Area) :
    (Area.all.foldl State.holdArea s).fire.areas.get a = (s.fire.areas.get a).holding :=
  (foldl_areas_get (P := fun _ => True) (g := fun _ => FireArea.holding) (fun _ _ _ => trivial)
    (fun t b _ => holdArea_areas t b) a _ s areas_nodup trivial).trans (if_pos (mem_areas a))

theorem resumeAreas_get (s : State) (a : Area) :
    (Area.all.foldl State.resumeArea s).fire.areas.get a = (s.fire.areas.get a).resuming s.vault.uptime :=
  (foldl_areas_get (P := fun t => t.vault = s.vault) (g := fun _ => FireArea.resuming s.vault.uptime)
    (fun t b h => (resumeArea_vault t b).trans h) (fun t b h => by rw [resumeArea_areas, h]) a _ s areas_nodup rfl).trans
    (if_pos (mem_areas a))

/-- Settles O20: the call points by their area's latch and state, and abort-hold by its two folds over the areas. -/
theorem callPointsAndAbortHoldMoveAreas : Obligations.CallPointsAndAbortHoldMoveAreas := by
  refine ⟨?_, fun _ _ _ => rfl, ?_, ?_⟩
  · intro a s hp x v w
    have operated : x.callActive = false → exec (.callPointOperated a) s = .next
        (if x.callLatch then v else if x.state.late then w else w.enterCountdown a) := fun h => by
      rw [exec_callPointOperated hp, if_neg (by simp [x, h]), callPointOperated_of_inactive h]
    refine ⟨fun h => ?_, fun h hl => ?_, fun h hl late => ?_, fun h hl early => ?_, fun h => ?_, fun h => ?_⟩
    · rw [exec_callPointOperated hp, if_pos h]
    · rw [operated h, if_pos hl]
    · rw [operated h, if_neg (by simp [hl]), if_pos late]
    · rw [operated h, if_neg (by simp [hl]), if_neg (by simp [late_of_early early])]
    · rw [exec_callPointInactive hp, if_pos h]; rfl
    · rw [exec_callPointInactive hp, if_neg (by simp [x, h])]
  · intro a s
    exact ⟨fun h => by rw [enterCountdown_eq, State.countdownState, h]; rfl,
      fun h => by rw [enterCountdown_eq, State.countdownState, h]; rfl⟩
  · intro s hp
    refine ⟨fun h => by rw [exec_abortHoldActive hp, if_pos h], fun h => by rw [exec_abortHoldReleased hp, if_neg (by simp [h])],
      fun h => ?_, fun h => ?_⟩
    · have fold : (s.settleAbort .high).abortOn = Area.all.foldl State.holdArea
          { s.settleAbort .high with fire := { s.fire with abort := true } } := if_neg (by simp [State.settleAbort, h])
      refine ⟨_, by rw [exec_abortHoldActive hp, if_neg (by simp [h]), fold], ?_⟩
      have beside := holdAreas_besideAreas { s.settleAbort .high with fire := { s.fire with abort := true } }
      simp only [State.besideAreas, Prod.mk.injEq] at beside
      obtain ⟨detectors, abort, channels⟩ := beside
      refine ⟨abort, ?_, foldl_keeps _ State.inputs holdArea_inputs _ _, detectors, foldl_keeps _ State.vault holdArea_vault _ _,
        foldl_keeps _ State.accumulators holdArea_accumulators _ _, channels, fun a => ?_⟩
      · refine congrArg (fun f => List.foldl f _ _) (funext fun t => funext fun a => ?_)
        unfold State.holdArea
        cases (t.fire.areas.get a).state <;> rfl
      · rw [holdAreas_get]
        exact ⟨holding_of_countdown, holding_of_other⟩
    · have fold : (s.settleAbort .low).abortOff = Area.all.foldl State.resumeArea
          { s.settleAbort .low with fire := { s.fire with abort := false } } := if_pos (by simp [State.settleAbort, h])
      refine ⟨_, by rw [exec_abortHoldReleased hp, if_pos h, fold], ?_⟩
      have beside := resumeAreas_besideAreas { s.settleAbort .low with fire := { s.fire with abort := false } }
      simp only [State.besideAreas, Prod.mk.injEq] at beside
      obtain ⟨detectors, abort, channels⟩ := beside
      refine ⟨abort, ?_, foldl_keeps _ State.inputs resumeArea_inputs _ _, detectors,
        foldl_keeps _ State.vault resumeArea_vault _ _, foldl_keeps _ State.accumulators resumeArea_accumulators _ _,
        channels, fun a => ?_⟩
      · refine foldl_congr_of (P := fun t => t.vault = s.vault) (fun t a k => (resumeArea_vault t a).trans k)
          (fun t a k => ?_) _ _ rfl
        unfold State.resumeArea
        rw [k]
        cases (t.fire.areas.get a).state <;> rfl
      · rw [resumeAreas_get]
        exact ⟨fun h => if_pos h, fun h => if_neg h⟩

end Sys2Proof.Machine
end

