-- ==== Sys2Proof/Proofs/Discharge.lean ====
section
/-! SUPPORT. The discharge, its release pulse and the end of the vent time (R49, R50, R52), and what the order of R55
leaves of the fire records' writes (R179). -/

namespace Sys2Proof.Machine

/-! ## The writes of a fire record behind the order of R55 -/

theorem emit_writesOf (needs : List Nat) (xs : List Out) (q : StoreRecord) (s : State) :
    (s.emit needs xs).store.writesOf q = s.store.writesOf q := by
  simp only [Store.writesOf, emit_store_inflight, emit_store_queue]

theorem notifyRevoked_writesOf (x : Arbiter) (d : Side) (q : StoreRecord) (s : State) :
    (s.notifyRevoked x d).store.writesOf q = s.store.writesOf q := by
  simp only [Store.writesOf, notifyRevoked_store_inflight, notifyRevoked_store_queue]

theorem resumeTest_writesOf (needs : List Nat) (q : StoreRecord) (s : State) :
    (s.resumeTest needs).store.writesOf q = s.store.writesOf q := by
  simp only [Store.writesOf, resumeTest_store_inflight, resumeTest_store_queue]

section
variable (a : Area)

/-- A dispatch attempt writes slots and custody records alone (R109, R110). -/
theorem dispatch_fireWrites (needs : List Nat) (s : State) :
    (s.dispatch needs).store.writesOf (.fireFlags a) = s.store.writesOf (.fireFlags a) := by
  have put : ∀ p r (t : State), (t.putRecord p r).store.writesOf (.fireFlags a) = t.store.writesOf (.fireFlags a) :=
    fun p r t => persist_writesOf (by simp) _
  have slot : ∀ n x (t : State), (t.putSlot n x).store.writesOf (.fireFlags a) = t.store.writesOf (.fireFlags a) :=
    fun n x t => persist_writesOf (by simp) _
  refine dispatch_keeps (fun t => t.store.writesOf (.fireFlags a)) ?_ ?_ needs s
  · intro needs p r w t
    simp only [State.dropEntry, resumeTest_writesOf, notify_writesOf, put]
    rfl
  · intro needs p r b n t
    simp only [State.pickEntry, resumeTest_writesOf, notify_writesOf, put, unqueue_store, slot]

/-- The end of an exchange writes the hatch list, custody records and a consignment alone (R166). -/
theorem endExchange_fireWrites (needs : List Nat) (x : Exchange) (revoked : Bool) (s : State) :
    (s.endExchange needs x revoked).2.store.writesOf (.fireFlags a) = s.store.writesOf (.fireFlags a) := by
  have record : ∀ (t : State) l, (t.holdRecord l).store.writesOf (.fireFlags a) = t.store.writesOf (.fireFlags a) := by
    intro t l
    unfold State.holdRecord
    split
    · exact persist_writesOf (by simp) _
    · rfl
  have held : s.holdEntries.store.writesOf (.fireFlags a) = s.store.writesOf (.fireFlags a) :=
    (foldl_keeps State.holdRecord (fun t => t.store.writesOf (.fireFlags a)) record _ _).trans
      (persist_writesOf (by simp) _)
  have consign : ∀ i c (t : State), (t.putConsign i c).store.writesOf (.fireFlags a) = t.store.writesOf (.fireFlags a) :=
    fun i c t => persist_writesOf (by simp) _
  unfold State.endExchange
  split
  · rfl
  · simp only [emit_writesOf, consign]
    split
    · exact held
    · rfl

theorem endPossession_fireWrites (needs : List Nat) (side : Side) (s : State) :
    (s.endPossession needs side).2.store.writesOf (.fireFlags a) = s.store.writesOf (.fireFlags a) := by
  cases side with
  | inner => rfl
  | outer =>
    simp only [State.endPossession, State.outerSecured]
    split
    · rfl
    · split
      · exact endExchange_fireWrites a _ _ _ _
      · rfl

theorem revoke_fireWrites (s : State) :
    s.revoke.2.store.writesOf (.fireFlags a) = s.store.writesOf (.fireFlags a) := by
  simp only [State.revoke]
  split
  · split
    · simp only [onArbiter_store, notifyRevoked_writesOf]
    · simp only [endPossession_fireWrites, onArbiter_store, notifyRevoked_writesOf]
  · simp only [onArbiter_store, notifyRevoked_writesOf]

/-- The order of R55 writes no fire record. -/
theorem announceFire_fireWrites (b : Area) (old : FireState) (was : Bool) (s : State) :
    (s.announceFire b old was).store.writesOf (.fireFlags a) = s.store.writesOf (.fireFlags a) := by
  have hatch : ∀ t : State, (t.hatchFireChange was).store.writesOf (.fireFlags a) = t.store.writesOf (.fireFlags a) := by
    intro t
    rw [hatchFireChange_eq]
    split
    · rw [arbitrate_writesOf, revoke_fireWrites]
    · rw [arbitrate_writesOf]
  simp only [State.announceFire, hatch, dispatch_fireWrites, climateFireChange_store, updateSounders_store, postNotice_store]

end

/-! ## The commands (R49, R50, R52) -/

theorem exec_dischargeDelayExpiry {a : Area} {s : State} (hp : s.power = .running) :
    exec (.dischargeDelayExpiry a) s = .next (s.dischargeArea a) := congrArg Host.Outcome.next (event_running _ hp)

theorem exec_releasePulseEnd {a : Area} {s : State} (hp : s.power = .running) :
    exec (.releasePulseEnd a) s = .next (s.endPulse a) := congrArg Host.Outcome.next (event_running _ hp)

theorem exec_ventTimeExpiry {a : Area} {s : State} (hp : s.power = .running) :
    exec (.ventTimeExpiry a) s = .next (s.ventEnd a) := congrArg Host.Outcome.next (event_running _ hp)

/-- The discharge: the new state and its record's write, which come before the announcement (R49; log 35). -/
def State.discharged (a : Area) (s : State) : State :=
  (s.onFireArea a fun y => { y with state := .discharged, agentSpent := true }).persist (.fireFlags a)

theorem discharged_keeps (a : Area) (s : State) :
    (s.discharged a).fire.areas =
      s.fire.areas.set a { s.fire.areas.get a with state := .discharged, agentSpent := true } ∧
    (s.discharged a).fire.detectors = s.fire.detectors ∧
    (s.discharged a).vault = s.vault ∧ (s.discharged a).accumulators = s.accumulators ∧
    (s.discharged a).store.pulses = s.store.pulses := by
  simp [State.discharged]

/-- The discharge's last write of its fire record names DISCHARGED and agent-spent. -/
theorem discharged_write (a : Area) (s : State) : ∃ j ∈ (s.discharged a).store.writesOf (.fireFlags a),
    ((s.discharged a).store.pendingOf (.fireFlags a)).getLast? = some j.ticket ∧ j.content = .fireFlags true true := by
  have last := persist_lastWrite (.fireFlags a) (.fireFlags a)
    (s.onFireArea a fun y => { y with state := .discharged, agentSpent := true }) (folds_of_not_accumulator _ rfl)
  rw [if_pos rfl] at last
  obtain ⟨j, hj, content⟩ := Option.map_eq_some_iff.1 last
  refine ⟨j, List.mem_of_getLast? hj, ?_, content.trans ?_⟩
  · exact List.getLast?_map.trans (congrArg (Option.map (·.ticket)) hj)
  · simp [State.liveContent]

theorem dischargeArea_of_early {a : Area} {start : Nat} {s : State} (hs : (s.fire.areas.get a).state = .countdown start)
    (early : s.vault.uptime < start + (s.fire.areas.get a).settings.delay) : s.dischargeArea a = s := by
  simp only [State.dischargeArea, hs]
  exact if_neg (Nat.not_le.2 early)

theorem dischargeArea_of_due {a : Area} {start : Nat} {s : State} (hs : (s.fire.areas.get a).state = .countdown start)
    (due : start + (s.fire.areas.get a).settings.delay ≤ s.vault.uptime) :
    s.dischargeArea a =
      if (s.fire.areas.get a).agentSpent then
        ((s.discharged a).announceFire a (s.fire.areas.get a).state s.fire.blocked).notify
          ((s.discharged a).awaits [.fireFlags a]) (.agentSpent a)
      else ((s.discharged a).awaitPulse a).announceFire a (s.fire.areas.get a).state s.fire.blocked := by
  simp only [State.dischargeArea, hs]
  exact if_pos due

theorem dischargeArea_of_other {a : Area} {s : State} (hs : ∀ n, (s.fire.areas.get a).state ≠ .countdown n) :
    s.dischargeArea a = s := by
  simp only [State.dischargeArea]
  split
  · rename_i n hn
    exact absurd hn (hs n)
  all_goals rfl

theorem ventEnd_of_other {a : Area} {s : State} (hs : ∀ n, (s.fire.areas.get a).state ≠ .venting n) : s.ventEnd a = s := by
  simp only [State.ventEnd]
  split
  · rename_i n hn
    exact absurd hn (hs n)
  all_goals rfl

theorem ventEnd_of_venting {a : Area} {start : Nat} {s : State} (hs : (s.fire.areas.get a).state = .venting start) :
    s.ventEnd a = if start + (s.fire.areas.get a).settings.vent ≤ s.vault.uptime then s.returnToQuiet a else s := by
  simp only [State.ventEnd, hs]

theorem endPulse_of_on {a : Area} {on : Nat} {s : State} (h : (s.fire.areas.get a).pulse = some on) :
    s.endPulse a = if on + 2 ≤ s.vault.uptime then s.onFireArea a fun x => { x with pulse := none } else s := by
  simp only [State.endPulse, h]

theorem endPulse_of_off {a : Area} {s : State} (h : (s.fire.areas.get a).pulse = none) : s.endPulse a = s := by
  simp only [State.endPulse, h]

/-- A discharge with the agent left: the pulse waits on the fire record's write (R49). -/
theorem discharge_pulses {a : Area} {s : State} (old : FireState) (was : Bool) :
    ∃ ticket, (s.discharged a).awaitPulse a = { s.discharged a with
        store := { (s.discharged a).store with pulses := (s.discharged a).store.pulses ++ [(ticket, a)] } } ∧
      ∃ j ∈ (((s.discharged a).awaitPulse a).announceFire a old was).store.inflight.toList ++
          (((s.discharged a).awaitPulse a).announceFire a old was).store.queue,
        j.ticket = ticket ∧ j.record = .fireFlags a ∧ j.content = .fireFlags true true := by
  obtain ⟨j, mem, ticket, content⟩ := discharged_write a s
  have waits : (s.discharged a).awaitPulse a = { s.discharged a with
      store := { (s.discharged a).store with pulses := (s.discharged a).store.pulses ++ [(j.ticket, a)] } } := by
    unfold State.awaitPulse
    rw [ticket]
  refine ⟨j.ticket, waits, j, ?_⟩
  have kept : (((s.discharged a).awaitPulse a).announceFire a old was).store.writesOf (.fireFlags a) =
      (s.discharged a).store.writesOf (.fireFlags a) := by
    rw [announceFire_fireWrites, waits]
    rfl
  rw [← kept] at mem
  obtain ⟨queued, record⟩ := List.mem_filter.1 mem
  exact ⟨queued, rfl, beq_iff_eq.1 record, content⟩

/-- Settles O21: each expiry by its area's state and time, and the discharge by its record's last write. -/
theorem dischargePulsesOnceAndVents : Obligations.DischargePulsesOnceAndVents := by
  refine ⟨?_, fun a s hp hs => ?_, fun a on s hp h => ?_, fun a s hp h => ?_, fun a start s hp hs => ?_, fun a s hp hs => ?_⟩
  · intro a start s hp hs x v
    refine ⟨fun early => by rw [exec_dischargeDelayExpiry hp, dischargeArea_of_early hs early], fun due => ?_⟩
    refine ⟨_, exec_dischargeDelayExpiry hp, ?_⟩
    rw [dischargeArea_of_due hs due]
    obtain ⟨areas, detectors, vault, accumulators, pulses⟩ := discharged_keeps a s
    cases spent : x.agentSpent with
    | true =>
      rw [if_pos rfl]
      refine ⟨?_, ?_, ?_, ?_, fun _ => ⟨?_, rfl⟩, nofun⟩
      · simp [areas, x]
      · simp [detectors]
      · simp [vault]
      · simp [accumulators]
      · simp [pulses]
    | false =>
      obtain ⟨ticket, waits, write⟩ := discharge_pulses (a := a) (s := s) x.state s.fire.blocked
      rw [if_neg Bool.false_ne_true]
      refine ⟨?_, ?_, ?_, ?_, nofun, fun _ => ⟨ticket, ?_, ?_, write⟩⟩
      · simp [waits, areas, x]
      · simp [waits, detectors]
      · simp [waits, vault]
      · simp [waits, accumulators]
      · rw [waits]; rfl
      · simp [waits, pulses]
  · rw [exec_dischargeDelayExpiry hp, dischargeArea_of_other hs]
  · rw [exec_releasePulseEnd hp, endPulse_of_on h]
    exact ⟨fun due => by rw [if_pos due], fun early => by rw [if_neg (Nat.not_le.2 early)]⟩
  · rw [exec_releasePulseEnd hp, endPulse_of_off h]
  · rw [exec_ventTimeExpiry hp, ventEnd_of_venting hs]
    exact ⟨fun due => by rw [if_pos due], fun early => by rw [if_neg (Nat.not_le.2 early)]⟩
  · rw [exec_ventTimeExpiry hp, ventEnd_of_other hs]

end Sys2Proof.Machine
end

