-- ==== Sys2Proof/Proofs/Status.lean ====
section
/-! SUPPORT. SUBSCRIBE and STATUS (R174, R176), and what a test over every area, channel or detector says. -/

namespace Sys2Proof.Machine

/-! ## Tests over the shapes -/

theorem area_exists_iff {P : Area → Prop} : (∃ a, P a) ↔ P .vaultA ∨ P .vaultB ∨ P .staging ∨ P .hatch := by
  constructor
  · rintro ⟨a, h⟩
    cases a <;> simp [h]
  · rintro (h | h | h | h) <;> exact ⟨_, h⟩

theorem area_forall_iff {P : Area → Prop} : (∀ a, P a) ↔ P .vaultA ∧ P .vaultB ∧ P .staging ∧ P .hatch :=
  ⟨fun h => ⟨h _, h _, h _, h _⟩, fun ⟨h1, h2, h3, h4⟩ a => by cases a <;> assumption⟩

theorem perArea_any_iff {α : Type} (p : PerArea α) (f : α → Bool) : p.any f = true ↔ ∃ a, f (p.get a) = true := by
  simp only [PerArea.any, Bool.or_eq_true, area_exists_iff, PerArea.get, or_assoc]

theorem perArea_all_iff {α : Type} (p : PerArea α) (f : α → Bool) : p.all f = true ↔ ∀ a, f (p.get a) = true := by
  simp only [PerArea.all, Bool.and_eq_true, area_forall_iff, PerArea.get, and_assoc]

theorem perChannel_any_iff {α : Type} (p : PerChannel α) (f : α → Bool) : p.any f = true ↔ ∃ c, f (p.get c) = true := by
  simp only [PerChannel.any, Bool.or_eq_true, perArea_any_iff]
  constructor
  · rintro (⟨a, h⟩ | h)
    · exact ⟨.area a, h⟩
    · exact ⟨.outside, h⟩
  · rintro ⟨c, h⟩
    cases c with
    | area a => exact .inl ⟨a, h⟩
    | outside => exact .inr h

theorem vector_mem_iff {α : Type} {n : Nat} (v : Vector α n) (x : α) : x ∈ v.toList ↔ ∃ i : Fin n, v[i] = x := by
  rw [Vector.mem_toList_iff, Vector.mem_iff_getElem]
  exact ⟨fun ⟨i, h, e⟩ => ⟨⟨i, h⟩, e⟩, fun ⟨i, e⟩ => ⟨i.val, i.isLt, e⟩⟩

theorem vector_any_iff {α : Type} {n : Nat} (v : Vector α n) (f : α → Bool) :
    v.toList.any f = true ↔ ∃ i : Fin n, f v[i] = true := by
  simp only [List.any_eq_true, vector_mem_iff]
  exact ⟨fun ⟨x, ⟨i, e⟩, h⟩ => ⟨i, e ▸ h⟩, fun ⟨i, h⟩ => ⟨_, ⟨i, rfl⟩, h⟩⟩

theorem vector_all_iff {α : Type} {n : Nat} (v : Vector α n) (f : α → Bool) :
    v.toList.all f = true ↔ ∀ i : Fin n, f v[i] = true := by
  simp only [List.all_eq_true, vector_mem_iff]
  exact ⟨fun h i => h _ ⟨i, rfl⟩, fun h x ⟨i, e⟩ => e ▸ h i⟩

/-! ## The causes of TROUBLE (R42, R57) -/

theorem protectionOff_iff (f : FireUnit) (a : Area) : f.protectionOff a = true ↔
    ∀ d : Detector, f.detectors[d].assignment = some a → f.detectors[d].state = .isolated := by
  simp only [FireUnit.protectionOff, vector_all_iff, Bool.or_eq_true, bne_iff_ne, beq_iff_eq, or_iff_not_imp_left, not_not]

theorem causes_detectorFault_iff (s : State) :
    s.causes.detectorFault = true ↔ ∃ d : Detector, s.fire.detectors[d].state = .fault := by
  simp only [State.causes, troubleCauses, vector_any_iff, beq_iff_eq]

theorem causes_sensorFailed_iff (s : State) :
    s.causes.sensorFailed = true ↔ ∃ c : Channel, (s.climate.channels.get c).state = .failed := by
  simp only [State.causes, troubleCauses, perChannel_any_iff, beq_iff_eq]

theorem causes_protectionOff_iff (s : State) : s.causes.protectionOff = true ↔
    ∃ a : Area, ∀ d : Detector, s.fire.detectors[d].assignment = some a → s.fire.detectors[d].state = .isolated := by
  simp only [State.causes, troubleCauses, List.any_eq_true, mem_areas, true_and, protectionOff_iff]

theorem causes_storeDamage_iff (s : State) : s.causes.storeDamage = true ↔
    s.store.flags.config = true ∨ s.store.flags.consign = true ∨ s.store.flags.dose = true := by
  simp only [State.causes, troubleCauses, DamageFlags.any, Bool.or_eq_true, or_assoc]

/-! ## The fields of STATUS that are counts (R57, R111, R122, R136) -/

theorem secondsLeft_of_still {x : FireArea} (uptime : Nat) (h : ∀ m, x.state ≠ .countdown m ∧ x.state ≠ .venting m) :
    x.secondsLeft uptime = none := by
  unfold FireArea.secondsLeft
  cases hs : x.state with
  | countdown m => exact absurd hs (h m).1
  | venting m => exact absurd hs (h m).2
  | quiet => rfl
  | preAlarm => rfl
  | held => rfl
  | discharged => rfl

theorem secondsLeft_of_countdown {x : FireArea} {m : Nat} (h : x.state = .countdown m) (uptime : Nat) :
    x.secondsLeft uptime = some (m + x.settings.delay - uptime) := by
  simp only [FireArea.secondsLeft, h]

theorem secondsLeft_of_venting {x : FireArea} {m : Nat} (h : x.state = .venting m) (uptime : Nat) :
    x.secondsLeft uptime = some (m + x.settings.vent - uptime) := by
  simp only [FireArea.secondsLeft, h]

theorem slotCount_eq (s : State) (f : Slot → Bool) : s.slotCount f = s.staging.slots.toList.countP f :=
  List.countP_eq_length_filter.symm

theorem isFree_eq : Slot.isFree = (· == .free) := by
  funext x
  cases x <;> rfl

theorem isReserved_eq : Slot.isReserved = fun x => match x with | .reserved _ _ _ => true | _ => false := by
  funext x
  cases x <;> rfl

theorem isOccupied_eq : Slot.isOccupied = fun x => match x with | .occupied _ _ _ _ _ => true | _ => false := by
  funext x
  cases x <;> rfl

theorem consignCount_eq (t : ConsignTable) (st : ConsignState) :
    t.count st = t.places.toList.countP fun x => x.any fun y => y.state == st := by
  rw [ConsignTable.count, ← List.countP_eq_length_filter]
  refine List.countP_congr fun x _ => ?_
  cases x <;> simp

/-- STATUS reports each of the nine states of a consignment with its count (R122). -/
theorem mem_consignCounts (t : ConsignTable) (st : ConsignState) (n : Nat) :
    (st, n) ∈ (ConsignState.all.map fun st => (st, t.count st)) ↔
      n = t.places.toList.countP fun x => x.any fun y => y.state == st := by
  have every : st ∈ ConsignState.all := by cases st <;> decide
  rw [← consignCount_eq, List.mem_map]
  constructor
  · rintro ⟨x, _, e⟩
    cases e
    rfl
  · rintro rfl
    exact ⟨st, every, rfl⟩

theorem secure_iff (d : Door) : d.secure = true ↔ d.isOpen = false ∧ d.released = false := by
  simp only [Door.secure, Bool.and_eq_true, Bool.not_eq_true']

/-! ## The requests -/

theorem exec_subscribe {h : ReqHead} {s : State} (mask : Byte) (ha : s.accepts h .subscribe) :
    exec (.subscribe h mask) s = .next ((s.received h).subscribe h mask) :=
  congrArg Host.Outcome.next (request_accepted _ ha)

theorem exec_status {h : ReqHead} {s : State} (ha : s.accepts h .status) :
    exec (.status h) s = .next ((s.received h).answerStatus h) := congrArg Host.Outcome.next (request_accepted _ ha)

/-- Settles O9: SUBSCRIBE by its mask, and STATUS field by field of the report. -/
theorem subscribeAndStatusAnswer : Obligations.SubscribeAndStatusAnswer := by
  refine ⟨?_, ?_⟩
  · intro h mask s ha u
    rw [exec_subscribe mask ha]
    refine ⟨fun small => congrArg _ ?_, fun large => congrArg _ ?_⟩
    · refine (if_pos (decide_eq_true small)).trans ?_
      rw [received_mask]
    · exact if_neg fun e => Nat.not_lt.2 large (of_decide_eq_true e)
  · intro h s ha u
    refine ⟨u.statusReport h.port, exec_status ha, rfl, received_mask s h h.port, rfl, ?_⟩
    simp only [State.statusReport, slotCount_eq, isFree_eq, mem_consignCounts,
      causes_detectorFault_iff, causes_sensorFailed_iff, causes_protectionOff_iff, causes_storeDamage_iff,
      ← List.countP_eq_length_filter, tabulate_get, perArea_get_map, FireArea.report, Config.custodyPlaces, u,
      received_vault, received_store, received_climate, received_accumulators, received_fire_detectors, received_fire_abort,
      received_fire_alert, received_fire_evacuate, received_fire_areas, received_custody, received_staging,
      received_consign, received_hatch, true_and, and_true, implies_true, iff_self]
    refine ⟨fun a => ⟨fun m hm => secondsLeft_of_countdown hm _, fun m hm => secondsLeft_of_venting hm _,
      secondsLeft_of_still _⟩, ?_⟩
    exact ⟨Iff.rfl, congrArg (fun f => List.countP f _) isReserved_eq, congrArg (fun f => List.countP f _) isOccupied_eq,
      fun w => by cases w <;> exact ⟨rfl, rfl, rfl, secure_iff _⟩⟩

end Sys2Proof.Machine
end

