-- ==== Sys2Proof/Proofs/FireRequests.lean ====
section
/-! SUPPORT. The fire unit's requests (R40, R47, R51, R53, R54, R58, R59) and the evaluation of a detector afresh. -/

namespace Sys2Proof.Machine

/-! ## RESET_AREA and CONFIRM_AREA (R47, R51) -/

theorem exec_resetArea {h : ReqHead} {s : State} (n : Nat) (ha : s.accepts h .resetArea) :
    exec (.resetArea h n) s = .next ((s.received h).resetArea h n) := congrArg Host.Outcome.next (request_accepted _ ha)

theorem exec_confirmArea {h : ReqHead} {s : State} (n : Nat) (ha : s.accepts h .confirmArea) :
    exec (.confirmArea h n) s = .next ((s.received h).confirmArea h n) := congrArg Host.Outcome.next (request_accepted _ ha)

theorem resetArea_of_unnamed {h : ReqHead} {n : Nat} {s : State} (bad : n < 1 ∨ 4 < n) :
    s.resetArea h n = s.refuse h .resetArea .invalid := by
  simp only [State.resetArea, area_ofNumber_eq_none bad]

/-- RESET_AREA by the fire state of the area that it names (R51). -/
theorem resetArea_of_area (h : ReqHead) (a : Area) (s : State) :
    ((s.fire.areas.get a).state = .quiet → s.resetArea h a.number = s.answer h .resetArea [] .ok .none) ∧
    ((s.fire.areas.get a).state = .preAlarm ∨ (s.fire.areas.get a).state = .held →
      s.resetArea h a.number = (s.returnToQuiet a).answer h .resetArea [] .ok .none) ∧
    ((s.fire.areas.get a).state = .discharged → s.resetArea h a.number =
      (s.ventArea a).answer h .resetArea ((s.ventArea a).awaits [.fireFlags a]) .ok .none) ∧
    ((∃ m, (s.fire.areas.get a).state = .countdown m ∨ (s.fire.areas.get a).state = .venting m) →
      s.resetArea h a.number = s.refuse h .resetArea .state) := by
  refine ⟨fun hs => ?_, ?_, fun hs => ?_, ?_⟩
  · simp only [State.resetArea, area_ofNumber_number, hs]
  · rintro (hs | hs) <;> simp only [State.resetArea, area_ofNumber_number, hs]
  · simp only [State.resetArea, area_ofNumber_number, hs]
  · rintro ⟨m, hs | hs⟩ <;> simp only [State.resetArea, area_ofNumber_number, hs]

theorem confirmArea_of_unnamed {h : ReqHead} {n : Nat} {s : State} (bad : n < 1 ∨ 4 < n) :
    s.confirmArea h n = s.refuse h .confirmArea .invalid := by
  simp only [State.confirmArea, area_ofNumber_eq_none bad]

theorem confirmArea_of_area (h : ReqHead) (a : Area) (s : State) : s.confirmArea h a.number =
    if (s.fire.areas.get a).state = .preAlarm then (s.enterCountdown a).answer h .confirmArea [] .ok .none
    else s.refuse h .confirmArea .state := by
  simp only [State.confirmArea, area_ofNumber_number]

/-! ## RECHARGED (R54) -/

theorem exec_recharged {h : ReqHead} {s : State} (n : Nat) (ha : s.accepts h .recharged) :
    exec (.recharged h n) s = .next ((s.received h).recharged h n) := congrArg Host.Outcome.next (request_accepted _ ha)

/-- A request other than STATUS that passes the first three checks is refused with BUSY during a format (R172). -/
theorem request_during_format {s : State} {h : ReqHead} {k : RequestKind} (owner : State → State) (hp : s.power = .running)
    (free : (s.link h.port).outstanding = false) (whole : h.lengthRight = true) (permitted : k.permitted h.port = true)
    (format : s.store.format.inFlight = true) (hk : k ≠ .status) :
    s.request h k true owner = (s.validFrame h.port).refuseAtLink h k .busy := by
  have free' : ((s.validFrame h.port).link h.port).outstanding = false := by simpa [State.link] using free
  have check : (s.validFrame h.port).linkCheck h k true = some .busy := by
    simp [State.linkCheck, free', whole, permitted, format, hk]
  unfold State.request
  rw [if_pos hp]
  simp only [check]

theorem recharged_mode {h : ReqHead} {n : Nat} {s : State} (hm : s.vault.mode ≠ .maintenance) :
    s.recharged h n = s.refuse h .recharged .mode := if_pos hm

theorem recharged_of_unnamed {h : ReqHead} {n : Nat} {s : State} (hm : s.vault.mode = .maintenance) (bad : n < 1 ∨ 4 < n) :
    s.recharged h n = s.refuse h .recharged .invalid := by
  simp only [State.recharged, if_neg (not_not.2 hm), area_ofNumber_eq_none bad]

/-- The area whose agent has been renewed, with its fire record handed over (R54). -/
def State.renewed (a : Area) (s : State) : State :=
  (s.onFireArea a fun y => { y with agentSpent := false }).persist (.fireFlags a)

theorem recharged_of_area {h : ReqHead} {s : State} (a : Area) (hm : s.vault.mode = .maintenance) :
    s.recharged h a.number =
      if (s.fire.areas.get a).state ≠ .quiet then s.refuse h .recharged .state
      else if (s.fire.areas.get a).agentSpent then
        (s.renewed a).answer h .recharged ((s.renewed a).awaits [.fireFlags a]) .ok .none
      else s.answer h .recharged [] .ok .none := by
  simp only [State.recharged, if_neg (not_not.2 hm), area_ofNumber_number]
  rfl

theorem renewed_waits (a : Area) (s : State) : (s.renewed a).awaits [.fireFlags a] ≠ [] := by
  obtain ⟨ticket, h⟩ := persist_has_ticket (s.onFireArea a fun y => { y with agentSpent := false }) (r := .fireFlags a) rfl
  intro none
  rw [awaits_single] at none
  rw [State.renewed] at none
  rw [none] at h
  cases h

/-- A response that waits on a write leaves the link units. -/
theorem answer_links_of_waits {h : ReqHead} {k : RequestKind} {needs : List Nat} {c : ResultCode} {d : ResponseData}
    {s : State} (waits : needs ≠ []) : (s.answer h k needs c d).links = s.links := by
  unfold State.answer State.emit
  rw [if_neg (by simpa using waits)]

theorem renewed_spent (a : Area) (s : State) : ((s.renewed a).fire.areas.get a).agentSpent = false := by
  simp [State.renewed]

/-- Settles O23: each request by the state of the area that it names. -/
theorem areaRequestsActByFireState : Obligations.AreaRequestsActByFireState := by
  refine ⟨fun h n s => ⟨?_, ?_⟩, ?_⟩
  · intro ha u
    rw [exec_resetArea n ha]
    refine ⟨fun bad => congrArg _ (resetArea_of_unnamed bad), ?_⟩
    rintro a rfl x
    obtain ⟨quiet, returns, vents, refused⟩ := resetArea_of_area h a u
    simp only [u, received_fire_areas] at quiet returns vents refused
    refine ⟨fun hs => congrArg _ (quiet hs), fun hs => congrArg _ (returns hs), fun hs => ?_,
      fun hs => congrArg _ (refused hs)⟩
    rw [vents hs]
    simp only [State.ventArea, u, received_fire_areas, received_vault, show (s.fire.areas.get a).state = .discharged from hs]
  · intro ha u
    rw [exec_confirmArea n ha]
    refine ⟨fun bad => congrArg _ (confirmArea_of_unnamed bad), ?_⟩
    rintro a rfl
    rw [confirmArea_of_area, received_fire_areas]
    exact ⟨fun hs => by rw [if_pos hs], fun hs => by rw [if_neg hs]⟩
  · intro h n s hp free whole port c u
    have accepted : s.store.format = .none → exec c s = .next (u.recharged h n) := fun format =>
      exec_recharged n ⟨hp, free, whole, by rw [port]; rfl, .inl format⟩
    refine ⟨fun format => ?_, fun format hm => ?_, fun format hm bad => ?_, ?_⟩
    · refine congrArg Host.Outcome.next ((request_during_format _ hp free whole (by rw [port]; rfl) format (by simp)).trans ?_)
      rw [port]
      unfold State.refuseAtLink
      rw [port]
    · rw [accepted format, recharged_mode (by simpa [u] using hm)]
    · rw [accepted format, recharged_of_unnamed (by simpa [u] using hm) bad]
    · rintro a format hm rfl x v
      rw [accepted format, recharged_of_area a (by simpa [u] using hm)]
      simp only [u, received_fire_areas]
      refine ⟨fun hs => by rw [if_pos hs], fun hs clear => ?_, fun hs spent => ⟨?_, renewed_waits a _, fun p => ?_, fun p => ?_⟩⟩
      · rw [if_neg (not_not.2 hs), if_neg (by simp [x] at clear; simp [clear])]
      · rw [if_neg (not_not.2 hs), if_pos spent]
        rfl
      · unfold State.link
        rw [answer_links_of_waits (show v.awaits [.fireFlags a] ≠ [] from renewed_waits a u)]
        simp [v, u]
      · have clear : (v.fire.areas.get a).agentSpent = false := renewed_spent a u
        simp [State.areaReport, State.areaOutputs, clear]

/-! ## SET_FIRE's area form (R58) -/

theorem exec_setFireArea {h : ReqHead} {s : State} (n : Nat) (co : Option Coincidence) (delay vent : Nat)
    (ha : s.accepts h .setFire) :
    exec (.setFireArea h n co delay vent) s = .next ((s.received h).setFireArea h n co delay vent) :=
  congrArg Host.Outcome.next (request_accepted _ ha)

theorem allQuiet_iff (s : State) : s.allQuiet = true ↔ ∀ a, (s.fire.areas.get a).state = .quiet := by
  simp only [State.allQuiet, perArea_all_iff, beq_iff_eq]

theorem area_ofNumber_of_range {n : Nat} (low : 1 ≤ n) (high : n ≤ 4) : ∃ a, Area.ofNumber n = some a := by
  obtain rfl | rfl | rfl | rfl : n = 1 ∨ n = 2 ∨ n = 3 ∨ n = 4 := by omega
  all_goals exact ⟨_, rfl⟩

theorem fireOfFields_of_range {delay vent : Nat} (k : Coincidence)
    (h : 10 ≤ delay ∧ delay ≤ 60 ∧ 60 ≤ vent ∧ vent ≤ 3600) : fireOfFields (some k) delay vent = some ⟨k, delay, vent⟩ :=
  if_pos h

/-- Fields out of range name no area or make no settings (R58). -/
theorem setFireArea_fields {n delay vent : Nat} {co : Option Coincidence}
    (bad : ¬ (1 ≤ n ∧ n ≤ 4 ∧ co.isSome = true ∧ 10 ≤ delay ∧ delay ≤ 60 ∧ 60 ≤ vent ∧ vent ≤ 3600)) :
    Area.ofNumber n = none ∨ fireOfFields co delay vent = none := by
  by_cases hn : 1 ≤ n ∧ n ≤ 4
  · right
    cases co with
    | none => rfl
    | some k => exact if_neg fun h => bad ⟨hn.1, hn.2, rfl, h⟩
  · exact .inl (area_ofNumber_eq_none (by omega))

theorem setFireArea_mode {h : ReqHead} {n delay vent : Nat} {co : Option Coincidence} {s : State}
    (hm : s.vault.mode ≠ .maintenance) : s.setFireArea h n co delay vent = s.refuse h .setFire .mode := if_pos hm

theorem setFireArea_invalid {h : ReqHead} {n delay vent : Nat} {co : Option Coincidence} {s : State}
    (hm : s.vault.mode = .maintenance) (bad : Area.ofNumber n = none ∨ fireOfFields co delay vent = none) :
    s.setFireArea h n co delay vent = s.refuse h .setFire .invalid := by
  simp only [State.setFireArea, if_neg (not_not.2 hm)]
  split
  · rename_i ha hg
    rw [ha, hg] at bad
    simp at bad
  · rfl

theorem setFireArea_of_fields {h : ReqHead} {n delay vent : Nat} {co : Option Coincidence} {s : State} {a : Area}
    {g : FireSettings} (hm : s.vault.mode = .maintenance) (ha : Area.ofNumber n = some a)
    (hg : fireOfFields co delay vent = some g) :
    let v := (s.onFireArea a fun x => { x with settings := g }).persist .config
    s.setFireArea h n co delay vent = if s.allQuiet = false then s.refuse h .setFire .state
      else v.answer h .setFire (v.awaits [.config]) .ok (.fireArea (s.fire.areas.get a).settings) := by
  simp only [State.setFireArea, if_neg (not_not.2 hm), ha, hg]

/-! ## SET_FIRE's detector form (R59) -/

theorem exec_setFireDetector {h : ReqHead} {s : State} (n : Nat) (to_ : AssignField) (pol : Option Polarity)
    (ha : s.accepts h .setFire) :
    exec (.setFireDetector h n to_ pol) s = .next ((s.received h).setFireDetector h n to_ pol) :=
  congrArg Host.Outcome.next (request_accepted _ ha)

theorem detector_ofNumber_eq_none {n : Nat} (h : n < 1 ∨ 12 < n) : Detector.ofNumber n = none := dif_neg (by omega)

theorem detector_ofNumber_val (d : Detector) : Detector.ofNumber (d.val + 1) = some d :=
  dif_pos ⟨by omega, by omega⟩

theorem detector_ofNumber_of_range {n : Nat} (low : 1 ≤ n) (high : n ≤ 12) : ∃ d, Detector.ofNumber n = some d :=
  ⟨_, dif_pos ⟨low, high⟩⟩

theorem detectorOfFields_area (a : Area) (p : Polarity) : detectorOfFields (.area a.number) (some p) = some ⟨some a, p⟩ := by
  simp only [detectorOfFields, area_ofNumber_number]

/-- Fields in range make the settings that they spell (R59). -/
theorem detectorOfFields_of_range {to_ : AssignField} {pol : Option Polarity} (hp : pol.isSome = true)
    (hto : to_ = .unassigned ∨ ∃ m, to_ = .area m ∧ 1 ≤ m ∧ m ≤ 4) : ∃ g, detectorOfFields to_ pol = some g := by
  obtain ⟨p, rfl⟩ := Option.isSome_iff_exists.1 hp
  obtain rfl | ⟨m, rfl, low, high⟩ := hto
  · exact ⟨_, rfl⟩
  · obtain ⟨a, ha⟩ := area_ofNumber_of_range low high
    exact ⟨⟨some a, p⟩, by simp only [detectorOfFields, ha]⟩

/-- Fields out of range name no detector or make no settings (R59). -/
theorem setFireDetector_fields {n : Nat} {to_ : AssignField} {pol : Option Polarity}
    (bad : ¬ (1 ≤ n ∧ n ≤ 12 ∧ pol.isSome = true ∧ (to_ = .unassigned ∨ ∃ m, to_ = .area m ∧ 1 ≤ m ∧ m ≤ 4))) :
    Detector.ofNumber n = none ∨ detectorOfFields to_ pol = none := by
  by_cases hn : 1 ≤ n ∧ n ≤ 12
  · right
    cases pol with
    | none => cases to_ <;> rfl
    | some p =>
      cases to_ with
      | unassigned => exact absurd ⟨hn.1, hn.2, rfl, .inl rfl⟩ bad
      | area m =>
        have out : m < 1 ∨ 4 < m := by
          by_contra inside
          exact bad ⟨hn.1, hn.2, rfl, .inr ⟨m, rfl, by omega, by omega⟩⟩
        simp only [detectorOfFields, area_ofNumber_eq_none out]
  · exact .inl (detector_ofNumber_eq_none (by omega))

theorem setFireDetector_mode {h : ReqHead} {n : Nat} {to_ : AssignField} {pol : Option Polarity} {s : State}
    (hm : s.vault.mode ≠ .maintenance) : s.setFireDetector h n to_ pol = s.refuse h .setFire .mode := if_pos hm

theorem setFireDetector_invalid {h : ReqHead} {n : Nat} {to_ : AssignField} {pol : Option Polarity} {s : State}
    (hm : s.vault.mode = .maintenance) (bad : Detector.ofNumber n = none ∨ detectorOfFields to_ pol = none) :
    s.setFireDetector h n to_ pol = s.refuse h .setFire .invalid := by
  simp only [State.setFireDetector, if_neg (not_not.2 hm)]
  split
  · rename_i hd hg
    rw [hd, hg] at bad
    simp at bad
  · rfl

/-- A detector with new settings, its configuration record handed over (R59). -/
def State.withDetector (s : State) (d : Detector) (g : DetectorSettings) : State :=
  (s.onDetector d (DetectorRecord.withSettings g)).updateTrouble.persist .config

/-- SET_FIRE's detector form past its fields: STATE, or the settings, their write, OK behind it, and the evaluation behind
that (R59; log 55). -/
theorem setFireDetector_of_fields {h : ReqHead} {n : Nat} {to_ : AssignField} {pol : Option Polarity} {s : State}
    {d : Detector} {g : DetectorSettings} (hm : s.vault.mode = .maintenance) (hd : Detector.ofNumber n = some d)
    (hg : detectorOfFields to_ pol = some g) :
    let old := s.fire.detectors[d]
    let v := s.withDetector d g
    s.setFireDetector h n to_ pol = if s.allQuiet = false then s.refuse h .setFire .state
      else (v.answer h .setFire (v.awaits [.config]) .ok (.fireDetector ⟨old.assignment, old.polarity⟩)).follow .config
        (.evaluate d old.latches) (State.evaluateAfresh d old.latches) := by
  simp only [State.setFireDetector, if_neg (not_not.2 hm), hd, hg]
  rfl

theorem latches_eq (x : DetectorRecord) : x.latches = decide (x.assignment.isSome = true ∨ x.state ≠ .alarm) := by
  unfold DetectorRecord.latches
  cases hx : x.assignment <;> cases hs : x.state <;> rfl

/-! ## The evaluation afresh (R59) -/

theorem afresh_eq (latched : Bool) (x : DetectorRecord) : x.afresh latched =
    if x.state = .isolated then .isolated
    else if x.state = .alarm ∧ latched = true ∧ x.assignment.isSome = true then .alarm
    else if (x.polarity == .activeHigh && x.alarmLine == .high) || (x.polarity == .activeLow && x.alarmLine == .low) then .alarm
    else if x.faultLine = .high then .fault else .normal := by
  rw [← condition_names]
  rfl

theorem changeDetector_state (d : Detector) (x : DetectorState) (s : State) :
    (s.changeDetector d x).fire.detectors[d].state = x := by
  rw [changeDetector_get, if_pos rfl]

theorem evaluateAfresh_of_alarm {d : Detector} {latched : Bool} {s : State}
    (h : s.fire.detectors[d].afresh latched = .alarm) :
    s.evaluateAfresh d latched = (s.changeDetector d .alarm).alarmEntry d := by
  unfold State.evaluateAfresh State.alarmAfresh
  rw [h, if_pos (changeDetector_state _ _ _)]

theorem evaluateAfresh_of_other {d : Detector} {latched : Bool} {s : State}
    (h : s.fire.detectors[d].afresh latched ≠ .alarm) :
    s.evaluateAfresh d latched = s.changeDetector d (s.fire.detectors[d].afresh latched) := by
  unfold State.evaluateAfresh State.alarmAfresh
  rw [if_neg (by rw [changeDetector_state]; exact h)]

/-! ## ISOLATE (R40, R53) -/

theorem exec_isolate {h : ReqHead} {s : State} (n : Nat) (on : Option Bool) (ha : s.accepts h .isolate) :
    exec (.isolate h n on) s = .next ((s.received h).isolate h n on) := congrArg Host.Outcome.next (request_accepted _ ha)

theorem isolate_invalid {h : ReqHead} {n : Nat} {sw : Option Bool} {s : State} (bad : n < 1 ∨ 12 < n ∨ sw = none) :
    s.isolate h n sw = s.refuse h .isolate .invalid := by
  unfold State.isolate
  split
  · rename_i d on hd
    rw [← or_assoc] at bad
    obtain out | none := bad
    · rw [detector_ofNumber_eq_none out] at hd
      cases hd
    · cases none
  · rfl

/-- What ISOLATE does to the detector that it names, its mark cleared (R40; log 30). -/
def State.switchIsolation (s : State) (d : Detector) (on : Bool) : State :=
  let v := s.onDetector d fun x => { x with retake := false }
  let named := s.fire.detectors[d].condition.names
  if on = true ∧ s.fire.detectors[d].state ≠ .isolated then v.changeDetector d .isolated
  else if on = false ∧ s.fire.detectors[d].state = .isolated then
    if named = .alarm then (v.changeDetector d .alarm).alarmEntry d else v.changeDetector d named
  else v

theorem isolate_of_named (h : ReqHead) (d : Detector) (on : Bool) (s : State) :
    s.isolate h (d.val + 1) (some on) = (s.switchIsolation d on).answer h .isolate [] .ok .none := by
  have line : (s.onDetector d fun x => { x with retake := false }).fire.detectors[d].condition =
      s.fire.detectors[d].condition := by
    rw [onDetector_get, if_pos rfl]
    rfl
  simp only [State.isolate, detector_ofNumber_val, State.switchIsolation, line]
  by_cases isolated : s.fire.detectors[d].state = .isolated <;> cases on <;> simp only [isolated, decide_true, decide_false,
    not_true, not_false_eq_true, and_true, and_false, if_true, if_false, ne_eq, Bool.false_eq_true, reduceCtorEq]
  split <;> rename_i named
  · rw [named]
  · rfl

/-- Settles O24: both forms of SET_FIRE check by check, the evaluation afresh, and ISOLATE by the switch and the state. -/
theorem fireSettingsAndIsolation : Obligations.FireSettingsAndIsolation := by
  refine ⟨?_, ?_, fun _ _ _ => rfl, ?_, ?_⟩
  · intro h n delay vent co s ha u c quiet inRange
    have mode : u.vault.mode = s.vault.mode := by rw [received_vault]
    have calm : u.allQuiet = true ↔ quiet := by rw [allQuiet_iff, received_fire_areas]
    rw [show exec c s = _ from exec_setFireArea n co delay vent ha, ← mode]
    refine ⟨fun hm => congrArg _ (setFireArea_mode hm),
      fun hm bad => congrArg _ (setFireArea_invalid hm (setFireArea_fields bad)), fun hm fits loud => congrArg _ ?_, ?_⟩
    · obtain ⟨low, high, named, range⟩ := fits
      obtain ⟨a, hn⟩ := area_ofNumber_of_range low high
      obtain ⟨k, rfl⟩ := Option.isSome_iff_exists.1 named
      rw [setFireArea_of_fields hm hn (fireOfFields_of_range k range), if_pos (Bool.eq_false_iff.2 fun q => loud (calm.1 q))]
    · rintro a k hm ⟨_, _, _, range⟩ still rfl rfl v
      rw [setFireArea_of_fields hm (area_ofNumber_number a) (fireOfFields_of_range k range), if_neg (by simp [calm.2 still])]
      simp only [u, received_fire_areas, v]
  · intro h n to_ pol s ha u c quiet inRange
    have mode : u.vault.mode = s.vault.mode := by rw [received_vault]
    have calm : u.allQuiet = true ↔ quiet := by rw [allQuiet_iff, received_fire_areas]
    rw [show exec c s = _ from exec_setFireDetector n to_ pol ha, ← mode]
    refine ⟨fun hm => congrArg _ (setFireDetector_mode hm),
      fun hm bad => congrArg _ (setFireDetector_invalid hm (setFireDetector_fields bad)), fun hm fits loud => congrArg _ ?_, ?_⟩
    · obtain ⟨low, high, named, range⟩ := fits
      obtain ⟨d, hd⟩ := detector_ofNumber_of_range low high
      obtain ⟨g, hg⟩ := detectorOfFields_of_range named range
      rw [setFireDetector_of_fields hm hd hg, if_pos (Bool.eq_false_iff.2 fun q => loud (calm.1 q))]
    · rintro d p to' hm still rfl rfl range y v w latched
      have fields : detectorOfFields to_ (some p) = some ⟨to', p⟩ := by
        obtain ⟨rfl, rfl⟩ | ⟨a, rfl, rfl⟩ := range
        · rfl
        · exact detectorOfFields_area a p
      obtain ⟨ticket, ht⟩ : ∃ ticket, (v.store.pendingOf .config).getLast? = some ticket := persist_has_ticket _ rfl
      have pending : (w.store.pendingOf .config).getLast? = some ticket := by rw [answer_pendingOf, ht]
      have same : u.fire.detectors[d] = y := by rw [received_fire_detectors]
      refine ⟨ticket, by rw [awaits_single, ht], ?_⟩
      rw [setFireDetector_of_fields hm (detector_ofNumber_val d) fields, if_neg (by simp [calm.2 still]), same, latches_eq y]
      exact congrArg _ (follow_waits pending _ _)
  · intro d latched s y active named new
    have afresh : y.afresh latched = new := afresh_eq latched y
    refine ⟨fun alarm => evaluateAfresh_of_alarm (afresh.trans alarm), fun other => ?_⟩
    rw [← afresh] at other ⊢
    exact evaluateAfresh_of_other other
  · intro h n sw s ha u
    rw [exec_isolate n sw ha]
    refine ⟨fun bad => congrArg _ (isolate_invalid bad), ?_⟩
    rintro d on rfl rfl y v named ok
    have same : u.fire.detectors[d] = y := by rw [received_fire_detectors]
    have names : y.condition.names = named := by
      simp only [named]
      cases y.condition <;> rfl
    have switch : u.switchIsolation d on =
        if on = true ∧ y.state ≠ .isolated then v.changeDetector d .isolated
        else if on = false ∧ y.state = .isolated then
          if named = .alarm then (v.changeDetector d .alarm).alarmEntry d else v.changeDetector d named
        else v := by
      simp only [State.switchIsolation, same, names, v]
    rw [isolate_of_named, switch]
    refine ⟨fun hon hs => ?_, fun hoff hs alarm => ?_, fun hoff hs other => ?_, fun h => ?_⟩
    · rw [if_pos ⟨hon, hs⟩]
    · rw [if_neg (fun k => k.2 hs), if_pos ⟨hoff, hs⟩, if_pos alarm]
    · rw [if_neg (fun k => k.2 hs), if_pos ⟨hoff, hs⟩, if_neg other]
    · obtain ⟨rfl, hs⟩ | ⟨rfl, hs⟩ := h
      · rw [if_neg (fun k => k.2 hs), if_neg (by simp)]
      · rw [if_neg (by simp), if_neg (fun k => hs k.2)]

end Sys2Proof.Machine
end

