-- ==== Sys2Proof/Proofs/Supply.lean ====
section
/-! SUPPORT. The supply, the reset line and RESTART (R37, R172, R180). -/

namespace Sys2Proof.Machine

/-! ## What a part without its units drives and writes -/

/-- Every output is low (R180). -/
def State.drivesLow (t : State) : Prop :=
  t.climate.fan = false ∧ t.hatch.inner.released = false ∧ t.hatch.outer.released = false ∧
    t.fire.alert = false ∧ t.fire.evacuate = false ∧ t.fire.trouble = false ∧
    ∀ a, (t.fire.areas.get a).pulse = none ∧ (t.climate.controls.get a).damperOpen = false ∧
      (t.climate.controls.get a).dehumidifier = false ∧ (t.climate.controls.get a).heater ≠ some true

/-- Nothing is written and nothing waits for a write. -/
def Store.isIdle (st : Store) : Prop :=
  st.inflight = none ∧ st.queue = [] ∧ st.waiting = [] ∧ st.pulses = [] ∧ st.followups = []

theorem outputsLow_drivesLow (s : State) : s.outputsLow.drivesLow := by
  refine ⟨rfl, rfl, rfl, rfl, rfl, rfl, fun a => ?_⟩
  simp only [State.outputsLow, perArea_get_map, true_and]
  cases (s.climate.controls.get a).heater <;> simp

theorem quiet_isIdle (st : Store) : st.quiet.isIdle := ⟨rfl, rfl, rfl, rfl, rfl⟩

/-! ## A loss of supply (R179, R180) -/

theorem loseSupply_of_off {s : State} (h : s.power = .off) : s.loseSupply = s := if_pos h

theorem loseSupply_of_on {s : State} (h : s.power ≠ .off) :
    s.loseSupply = { s.outputsLow with power := .off, store := s.store.cutShort.quiet } := if_neg h

/-- A loss of supply keeps what waits in the queue of commands and the pins. -/
theorem loseSupply_keeps (s : State) : s.loseSupply.pending = s.pending ∧ s.loseSupply.inputs = s.inputs := by
  unfold State.loseSupply
  split <;> exact ⟨rfl, rfl⟩

theorem cutShort_of_inflight {st : Store} {j : Job} (h : st.inflight = some j) :
    st.cutShort = st.setCell j.record (st.cell j.record).tear := by
  simp only [Store.cutShort, h]

theorem cutShort_of_idle {st : Store} (h : st.inflight = none) (hf : ∀ k, st.format ≠ .writing k) : st.cutShort = st := by
  unfold Store.cutShort
  rw [h]
  cases hw : st.format with
  | none => rfl
  | marking => rfl
  | writing k => exact absurd hw (hf k)

theorem cutShort_of_format {st : Store} {k : Nat} (h : st.inflight = none) (hf : st.format = .writing k)
    (hk : k < formatLimit) : st.cutShort = st.setCell (.ofAddr k) (st.cell (.ofAddr k)).tear := by
  simp only [Store.cutShort, h, hf]
  exact if_pos hk

theorem cutShort_base (st : Store) : st.cutShort.base = st.base := by
  unfold Store.cutShort
  split
  · rfl
  · split <;> rfl
  all_goals rfl

/-- A cell set is read back, and every other record's is as it was. -/
theorem setCell_reads {st : Store} (wf : st.cellsHold) (r : StoreRecord) (c : Cell) :
    (st.setCell r c).cell r = c ∧ ∀ q, q ≠ r → (st.setCell r c).cell q = st.cell q :=
  ⟨by rw [cell_setCell wf, if_pos rfl], fun q hq => by rw [cell_setCell wf, if_neg hq]⟩

/-! ## The reset line's going LOW (R180; log 12) -/

/-- Writes made at once, one after another. -/
def Store.writeJobs (st : Store) (js : List Job) : Store := js.foldl (fun st j => st.writeNow j.record j.content) st

/-- What a write puts into the cells depends on the cells alone. -/
theorem writeNow_cells_congr {st su : Store} (cells : st.cells = su.cells) (base : st.base = su.base) (r : StoreRecord)
    (x : Content) : (st.writeNow r x).cells = (su.writeNow r x).cells := by
  unfold Store.writeNow Store.setCell Store.cell
  rw [cells, base]
  split <;> rfl

theorem endWrite_keeps (s : State) (j : Job) : (s.endWrite j).store = s.store.afterWrite j ∧
    (s.endWrite j).inputs = s.inputs := by
  rw [endWrite_eq]
  exact ⟨rfl, rfl⟩

/-- The drain ends every write in order, and leaves the format, the flags and the pins. -/
theorem drain_of_jobs : ∀ (js : List Job) {s : State} {st : Store}, s.store.inflight.toList ++ s.store.queue = js →
    (s.store.inflight.isSome || s.store.queue.isEmpty) = true → s.store.cells = st.cells → s.store.base = st.base →
    let t := s.drain js.length
    t.store.cells = (st.writeJobs js).cells ∧ t.store.base = st.base ∧ t.store.inflight = none ∧
      t.store.flags = s.store.flags ∧ t.store.format = s.store.format ∧ t.inputs = s.inputs
  | [], s, st, jobs, _, cells, base => by
    obtain ⟨idle, -⟩ := List.append_eq_nil_iff.1 jobs
    exact ⟨cells, base, Option.toList_eq_nil_iff.1 idle, rfl, rfl, rfl⟩
  | j :: js, s, st, jobs, begun, cells, base => by
    obtain ⟨inflight, queue⟩ : s.store.inflight = some j ∧ s.store.queue = js := by
      cases hi : s.store.inflight with
      | none =>
        rw [hi] at jobs begun
        rw [List.isEmpty_iff.1 begun] at jobs
        cases jobs
      | some i =>
        rw [hi] at jobs
        cases jobs
        exact ⟨rfl, rfl⟩
    obtain ⟨store, inputs⟩ := endWrite_keeps s j
    have rest : (s.endWrite j).store.inflight.toList ++ (s.endWrite j).store.queue = js := by
      simp only [store, Store.afterWrite, queue]
      cases js <;> rfl
    have begun' : ((s.endWrite j).store.inflight.isSome || (s.endWrite j).store.queue.isEmpty) = true := by
      simp only [store, Store.afterWrite, queue]
      cases js <;> rfl
    have cells' : (s.endWrite j).store.cells = (st.writeNow j.record j.content).cells := by
      rw [store]
      exact writeNow_cells_congr cells base _ _
    have base' : (s.endWrite j).store.base = (st.writeNow j.record j.content).base := by
      rw [store, writeNow_base]
      exact base
    have drained := drain_of_jobs js rest begun' cells' base'
    have step : s.drain (j :: js).length = (s.endWrite j).drain js.length := by
      simp only [List.length_cons, State.drain, inflight]
    rw [step]
    obtain ⟨dcells, dbase, didle, dflags, dformat, dinputs⟩ := drained
    exact ⟨dcells, dbase.trans (writeNow_base _ _ _), didle, dflags.trans (by rw [store]; rfl),
      dformat.trans (by rw [store]; rfl), dinputs.trans inputs⟩

/-- What stopping leaves (R180). -/
theorem resetLow_stops (s : State) : s.resetLow.power = .stopped ∧ s.resetLow.drivesLow ∧ s.resetLow.store.isIdle := by
  refine ⟨rfl, ?_, quiet_isIdle _⟩
  exact outputsLow_drivesLow _

/-- The line's going LOW lets every write end, and makes that of the cause the last (log 12). -/
theorem resetLow_ends {s : State} (hf : ∀ k, s.store.format ≠ .writing k) (wf : s.tablesCanonical = true) :
    s.resetLow.inputs = s.inputs ∧
    s.resetLow.store.cells = ((s.store.writeJobs (s.store.inflight.toList ++ s.store.queue)).writeNow .status
      (.status .resetLine s.store.flags s.store.format.inFlight)).cells := by
  simp only [State.tablesCanonical, Bool.and_eq_true] at wf
  obtain ⟨cells, base, -, flags, format, inputs⟩ := drain_of_jobs (s := s) (st := s.store) _ rfl wf.2 rfl rfl
  have count : s.store.pendingWrites = (s.store.inflight.toList ++ s.store.queue).length := List.length_append.symm
  have jobsBase : ∀ js (st : Store), (st.writeJobs js).base = st.base := fun js st =>
    foldl_keeps _ (·.base) (fun st j => writeNow_base st j.record j.content) js st
  simp only [State.resetLow, count]
  rw [endFormatWrite_of_not_writing (by rw [format]; exact hf), ite_self]
  refine ⟨inputs, ?_⟩
  simp only [State.liveContent, flags, format]
  refine writeNow_cells_congr ?_ ?_ _ _
  · exact cells
  · exact base.trans (jobsBase _ _).symm

/-! ## The commands and the scan -/

theorem exec_resetLineLow {s : State} (hp : s.power = .running) : exec .resetLineLow s =
    .next (s.onInputs fun i => { i with reset := Pin.settled .low }).resetLow := congrArg Host.Outcome.next (event_running _ hp)

theorem exec_restart {h : ReqHead} {s : State} (ha : s.accepts h .restart) :
    exec (.restart h) s = .next ((s.received h).answer h .restart [] .ok .none) :=
  congrArg Host.Outcome.next (request_accepted _ ha)

theorem exec_restartTaken {s : State} (bad : List StoreCopy) (hp : s.power = .running) :
    exec (.restartTaken bad) s = .next (s.takeRestart bad) := congrArg Host.Outcome.next (event_running _ hp)

theorem exec_resetLineHigh_of_stopped {s : State} (bad : List StoreCopy) (hp : s.power = .stopped) :
    exec (.resetLineHigh bad) s = .next ((s.onInputs fun i => { i with reset := Pin.settled .high }).riseReset bad) :=
  congrArg Host.Outcome.next (if_pos hp)

/-- A scan that samples the reset line LOW a second time ends in the part's stop (R37, R180). -/
theorem scan_of_reset_low {s : State} (hp : s.power = .running) (low : s.inputs.reset.taken .high = .low) :
    ∃ t : State, s.scan = t.resetLow := by
  unfold State.scan State.scanReset
  rw [hp]
  simp only [low]
  exact ⟨_, rfl⟩

/-- A scan of a stopped part takes the reset line alone (R180). -/
theorem scan_of_stopped {s : State} (hp : s.power = .stopped) : s.scan =
    let t := s.onInputs fun i => { i with reset := i.reset.scan }
    if s.inputs.reset.taken .low = .high then t.riseReset [] else t := by
  unfold State.scan
  rw [hp]
  cases h : s.inputs.reset.taken .low <;> simp only [h] <;> rfl

theorem onInputs_of_same {f : Inputs → Inputs} {s : State} (h : f s.inputs = s.inputs) : s.onInputs f = s := by
  unfold State.onInputs
  rw [h]

theorem taken_low_of_unsettled {p : Pin} (h : p ≠ ⟨.high, .high⟩) : p.taken .low = .low := by
  obtain ⟨now, sample⟩ := p
  cases now with
  | low => exact ite_self _
  | high =>
    cases sample with
    | low => rfl
    | high => exact absurd rfl h

/-- Settles O53: the supply by the two cases of its loss, the reset line by the drain, and each restart by its equation. -/
theorem supplyAndResetLineRestartThePart : Obligations.SupplyAndResetLineRestartThePart := by
  unfold Obligations.SupplyAndResetLineRestartThePart
  intro low idle
  refine ⟨fun s hp => congrArg _ (loseSupply_of_off hp), fun s hp wf => ?_, fun bad s => ?_, fun s hp hf wf => ?_,
    fun bad s => ⟨fun hp => exec_resetLineHigh_of_stopped bad hp, fun hp => congrArg _ (if_neg hp)⟩,
    fun h s ha => exec_restart ha, fun bad s hp => ⟨fun due => ?_, fun due => ?_⟩, fun s hp pin => ?_,
    fun s hp => ⟨fun pin => ?_, fun pin => ?_⟩⟩
  · refine ⟨s.loseSupply, rfl, loseSupply_power s, ?_⟩
    rw [loseSupply_of_on hp]
    refine ⟨outputsLow_drivesLow s, quiet_isIdle _, cutShort_base _, fun j hj => ?_, fun hi hf => ?_, fun k hi hf hk => ?_⟩
    · simp only [quiet_cell, cutShort_of_inflight hj]
      exact setCell_reads wf _ _
    · simp only [cutShort_of_idle hi hf]
      rfl
    · simp only [quiet_cell, cutShort_of_format hi hf hk]
      exact setCell_reads wf _ _
  · obtain ⟨pending, inputs⟩ := loseSupply_keeps s
    refine ⟨s.loseSupply, rfl, ?_⟩
    rw [← pending, ← inputs]
    rfl
  · obtain ⟨stopped, lows, idles⟩ := resetLow_stops (s.onInputs fun i => { i with reset := Pin.settled .low })
    obtain ⟨inputs, cells⟩ := resetLow_ends (s := s.onInputs fun i => { i with reset := Pin.settled .low }) hf wf
    exact ⟨_, exec_resetLineLow hp, stopped, lows, idles, inputs, cells⟩
  · rw [exec_restartTaken bad hp]
    exact congrArg _ (if_neg due)
  · refine ⟨s.writeEnd, exec_storeWriteEnd hp, ?_⟩
    rw [exec_restartTaken bad hp]
    exact congrArg _ (if_pos due)
  · obtain ⟨t, scan⟩ := scan_of_reset_low hp (by rw [pin]; rfl)
    rw [scan]
    exact resetLow_stops t
  · have same : (s.onInputs fun i => { i with reset := i.reset.scan }) = s :=
      onInputs_of_same (by simp only [Pin.scan, pin]; rw [← pin])
    rw [scan_of_stopped hp, same, if_pos (by rw [pin]; rfl)]
    rfl
  · rw [scan_of_stopped hp, if_neg (by rw [taken_low_of_unsettled pin]; simp)]
    rfl

end Sys2Proof.Machine
end

