-- ==== Sys2Proof/Proofs/AlarmEntries.lean ====
section
/-! SUPPORT. Several entries into ALARM in one event, in number order: what they leave in the areas depends on which
detectors enter and on how many are in ALARM at the end, not on the order (R45, R46, R53, R61; log 16). -/

namespace Sys2Proof.Machine

/-! ## The detectors in ALARM of an area (R46) -/

theorem vector_toList_eq {α : Type} {n : Nat} (v : Vector α n) : v.toList = (List.finRange n).map fun i => v[i] :=
  List.ext_getElem (by simp) (by simp)

theorem alarmCount_eq (f : FireUnit) (a : Area) : f.alarmCount a =
    (List.finRange 12).countP fun d => f.detectors[d].assignment == some a && f.detectors[d].state == .alarm := by
  rw [FireUnit.alarmCount, ← List.countP_eq_length_filter, vector_toList_eq, List.countP_map]
  rfl

theorem alarmCount_le {f g : FireUnit} {a : Area}
    (h : ∀ d : Detector, f.detectors[d].assignment = some a → f.detectors[d].state = .alarm →
      g.detectors[d].assignment = some a ∧ g.detectors[d].state = .alarm) : f.alarmCount a ≤ g.alarmCount a := by
  rw [alarmCount_eq, alarmCount_eq]
  refine List.countP_mono_left fun d _ hd => ?_
  simp only [Bool.and_eq_true, beq_iff_eq] at hd ⊢
  exact h d hd.1 hd.2

/-! ## Entries one after another -/

/-- An area that has acted on an entry acts on a later one as on the later alone. -/
theorem entered_entered {x : FireArea} {m n : Nat} {c : FireState} (late : c.late = true) (rises : m ≤ n) :
    ({ x with state := x.entered m c } : FireArea).entered n c = x.entered n c := by
  by_cases hx : x.state.late = true
  · have kept : ({ x with state := x.entered m c } : FireArea) = x := by rw [entered_of_late hx]
    rw [kept]
  have early : x.state.late = false := by simpa using hx
  by_cases two : x.settings.coincidence = .single ∨ 2 ≤ m
  · rw [entered_of_two early two, entered_of_two early (two.imp_right fun h => h.trans rises)]
    exact entered_of_late late n c
  · obtain ⟨double, one⟩ := not_or.1 two
    have double : x.settings.coincidence = .double := by cases h : x.settings.coincidence <;> simp_all
    rw [entered_of_one early double (by omega)]
    have waits : FireState.late .preAlarm = false := rfl
    simp only [FireArea.entered, early, waits]
    rfl

/-- A step over the detectors in which some enter ALARM: it changes the detector's own record, and an entry acts on the
area behind that change. -/
structure EntryStep (f : State → Detector → State) (g : DetectorRecord → DetectorRecord) (enters : DetectorRecord → Bool) :
    Prop where
  detectors : ∀ t d, (f t d).fire.detectors = t.fire.detectors.set d (g t.fire.detectors[d])
  areas : ∀ t d b, (f t d).fire.areas.get b =
    if enters t.fire.detectors[d] = true ∧ t.fire.detectors[d].assignment = some b then
      { t.fire.areas.get b with
        state := (t.fire.areas.get b).entered ((f t d).fire.alarmCount b) t.countdownState }
    else t.fire.areas.get b
  countdown : ∀ t d, (f t d).countdownState = t.countdownState
  assignment : ∀ x, (g x).assignment = x.assignment
  alarm : ∀ x, enters x = true → (g x).state = .alarm
  other : ∀ x, enters x = false → ((g x).state = .alarm ↔ x.state = .alarm)

section
variable {f : State → Detector → State} {g : DetectorRecord → DetectorRecord} {enters : DetectorRecord → Bool}

theorem EntryStep.alarm_of_alarm (h : EntryStep f g enters) {x : DetectorRecord} (hx : x.state = .alarm) :
    (g x).state = .alarm := by
  cases he : enters x with
  | true => exact h.alarm x he
  | false => exact (h.other x he).2 hx

theorem EntryStep.foldl_get (h : EntryStep f g enters) {ds : List Detector} (once : ds.Nodup) (s : State) (e : Detector) :
    (ds.foldl f s).fire.detectors[e] = if e ∈ ds then g s.fire.detectors[e] else s.fire.detectors[e] :=
  foldl_detectors_get (P := fun _ => True) (g := fun _ => g) (fun _ _ _ => trivial) (fun t d _ => h.detectors t d) e ds s
    once trivial

theorem EntryStep.foldl_assignment (h : EntryStep f g enters) {ds : List Detector} (once : ds.Nodup) (s : State)
    (e : Detector) : (ds.foldl f s).fire.detectors[e].assignment = s.fire.detectors[e].assignment := by
  rw [h.foldl_get once]
  split
  · exact h.assignment _
  · rfl

/-- The count of detectors in ALARM does not fall. -/
theorem EntryStep.count_le (h : EntryStep f g enters) {ds : List Detector} (once : ds.Nodup) (s : State) (a : Area) :
    s.fire.alarmCount a ≤ (ds.foldl f s).fire.alarmCount a := by
  refine alarmCount_le fun d ha hs => ⟨(h.foldl_assignment once s d).trans ha, ?_⟩
  rw [h.foldl_get once]
  split
  · exact h.alarm_of_alarm hs
  · exact hs

/-- Without an entry the count is as it was. -/
theorem EntryStep.count_eq (h : EntryStep f g enters) {ds : List Detector} (once : ds.Nodup) (s : State) (a : Area)
    (still : ∀ d ∈ ds, ¬ (enters s.fire.detectors[d] = true ∧ s.fire.detectors[d].assignment = some a)) :
    (ds.foldl f s).fire.alarmCount a = s.fire.alarmCount a := by
  refine Nat.le_antisymm (alarmCount_le fun d ha hs => ?_) (h.count_le once s a)
  rw [h.foldl_assignment once] at ha
  refine ⟨ha, ?_⟩
  rw [h.foldl_get once] at hs
  split at hs
  · rename_i mem
    exact (h.other _ (Bool.eq_false_iff.2 fun he => still d mem ⟨he, ha⟩)).1 hs
  · exact hs

theorem countdownState_late (s : State) : s.countdownState.late = true := by
  unfold State.countdownState
  split <;> rfl

/-- What the entries leave in an area: what one entry with the last count leaves, if there was one (R46). -/
theorem EntryStep.foldl_areas (h : EntryStep f g enters) (b : Area) : ∀ (ds : List Detector) (s : State), ds.Nodup →
    ((∃ d ∈ ds, enters s.fire.detectors[d] = true ∧ s.fire.detectors[d].assignment = some b) →
      (ds.foldl f s).fire.areas.get b = { s.fire.areas.get b with
        state := (s.fire.areas.get b).entered ((ds.foldl f s).fire.alarmCount b) s.countdownState }) ∧
    ((∀ d ∈ ds, ¬ (enters s.fire.detectors[d] = true ∧ s.fire.detectors[d].assignment = some b)) →
      (ds.foldl f s).fire.areas.get b = s.fire.areas.get b)
  | [], s, _ => ⟨fun ⟨_, mem, _⟩ => (List.not_mem_nil mem).elim, fun _ => rfl⟩
  | d :: ds, s, once => by
    obtain ⟨fresh, once⟩ := List.nodup_cons.1 once
    obtain ⟨some_later, none_later⟩ := h.foldl_areas b ds (f s d) once
    have later : ∀ e ∈ ds, (f s d).fire.detectors[e] = s.fire.detectors[e] := fun e he => by
      rw [h.detectors]
      exact (vector_getElem_set _ d e _).trans (if_neg fun same : e = d => fresh (same ▸ he))
    have same : ∀ e ∈ ds, (enters (f s d).fire.detectors[e] = true ∧ (f s d).fire.detectors[e].assignment = some b) ↔
        (enters s.fire.detectors[e] = true ∧ s.fire.detectors[e].assignment = some b) := fun e he => by rw [later e he]
    rw [List.foldl_cons]
    by_cases now : enters s.fire.detectors[d] = true ∧ s.fire.detectors[d].assignment = some b
    · have here := h.areas s d b
      rw [if_pos now] at here
      refine ⟨fun _ => ?_, fun still => absurd now (still d List.mem_cons_self)⟩
      by_cases more : ∃ e ∈ ds, enters (f s d).fire.detectors[e] = true ∧ (f s d).fire.detectors[e].assignment = some b
      · rw [some_later more, here, h.countdown, entered_entered (countdownState_late s) (h.count_le once (f s d) b)]
      · have still : ∀ e ∈ ds, ¬ (enters (f s d).fire.detectors[e] = true ∧ (f s d).fire.detectors[e].assignment = some b) :=
          fun e he k => more ⟨e, he, k⟩
        rw [none_later still, here, h.count_eq once (f s d) b still]
    · have here := h.areas s d b
      rw [if_neg now] at here
      rw [here, h.countdown] at some_later
      rw [here] at none_later
      constructor
      · rintro ⟨e, mem, he⟩
        obtain rfl | mem := List.mem_cons.1 mem
        · exact absurd he now
        · exact some_later ⟨e, mem, (same e mem).2 he⟩
      · exact fun still => none_later fun e he k => still e (List.mem_cons_of_mem _ he) ((same e he).1 k)

end

end Sys2Proof.Machine
end

