-- ==== Sys2Proof/Proofs/QuietRetake.lean ====
section
/-! SUPPORT. The return to QUIET and the scan that re-takes the marked inputs (R53). -/

namespace Sys2Proof.Machine

/-! ## The return to QUIET -/

/-- A detector of an area that returns to QUIET drops its latched ALARM (R53, step 3). -/
def DetectorRecord.unlatched (a : Area) (x : DetectorRecord) : DetectorRecord :=
  if x.assignment = some a ∧ x.state = .alarm then { x with state := x.dropped } else x

/-- A detector of the area whose lines still give alarm is marked (R53, step 4). -/
def DetectorRecord.marked (a : Area) (x : DetectorRecord) : DetectorRecord :=
  if x.assignment = some a ∧ x.condition = .alarm then { x with retake := true } else x

theorem dropped_eq (x : DetectorRecord) : x.dropped = if x.condition = .fault then .fault else .normal := by
  unfold DetectorRecord.dropped
  cases x.condition <;> rfl

theorem unlatched_of_own {a : Area} {x : DetectorRecord} (own : x.assignment = some a) : x.unlatched a = { x with
    state := if x.state = .alarm then (if x.condition = .fault then .fault else .normal) else x.state } := by
  by_cases latched : x.state = .alarm
  · rw [if_pos latched, ← dropped_eq]
    exact if_pos ⟨own, latched⟩
  · rw [if_neg latched]
    exact if_neg fun k => latched k.2

theorem marked_of_own {a : Area} {x : DetectorRecord} (own : x.assignment = some a) :
    x.marked a = { x with retake := x.retake || decide (x.condition = .alarm) } := by
  by_cases alarm : x.condition = .alarm
  · rw [decide_eq_true alarm, Bool.or_true]
    exact if_pos ⟨own, alarm⟩
  · rw [decide_eq_false alarm, Bool.or_false]
    exact if_neg fun k => alarm k.2

/-- What R53 leaves of a detector, by its assignment. -/
theorem marked_unlatched (a : Area) (x : DetectorRecord) :
    (x.assignment ≠ some a → (x.unlatched a).marked a = x) ∧
    (x.assignment = some a → (x.unlatched a).marked a = { x with
      state := if x.state = .alarm then (if x.condition = .fault then .fault else .normal) else x.state
      retake := x.retake || decide (x.condition = .alarm) }) := by
  refine ⟨fun other => ?_, fun own => ?_⟩
  · have kept : x.unlatched a = x := if_neg fun k => other k.1
    rw [kept]
    exact if_neg fun k => other k.1
  · rw [unlatched_of_own own]
    exact marked_of_own own

theorem dropLatch_detectors (a : Area) (s : State) (d : Detector) : (s.dropLatch a d).fire.detectors =
    s.fire.detectors.set d (s.fire.detectors[d].unlatched a) := by
  simp only [State.dropLatch, DetectorRecord.unlatched]
  split
  · exact changeDetector_detectors d _ s
  · exact (Vector.set_getElem_self d.isLt).symm

theorem onDetector_of_same {d : Detector} {f : DetectorRecord → DetectorRecord} {s : State}
    (h : f s.fire.detectors[d] = s.fire.detectors[d]) : s.onDetector d f = s := by
  unfold State.onDetector
  rw [h]
  exact congrArg (fun v => { s with fire := { s.fire with detectors := v } }) (Vector.set_getElem_self d.isLt)

theorem markRetake_eq (a : Area) (s : State) (d : Detector) : s.markRetake a d = s.onDetector d (·.marked a) := by
  by_cases marks : s.fire.detectors[d].assignment = some a ∧ s.fire.detectors[d].condition = .alarm
  · refine (if_pos marks).trans ?_
    simp only [State.onDetector, DetectorRecord.marked, if_pos marks]
  · refine (if_neg marks).trans (onDetector_of_same ?_).symm
    exact if_neg marks

/-- The marks touch the detectors alone. -/
theorem markRetakes_frame (a : Area) (ds : List Detector) (s : State) :
    ∃ v, ds.foldl (State.markRetake a) s = { s with fire := { s.fire with detectors := v } } := by
  induction ds generalizing s with
  | nil => exact ⟨_, rfl⟩
  | cons d ds ih =>
    obtain ⟨v, hv⟩ := ih (s.markRetake a d)
    refine ⟨v, ?_⟩
    rw [List.foldl_cons, hv, markRetake_eq]
    rfl

/-- Two folds over the detectors agree where a step of either reads the detector it is at, before any step has come to
it, and changes no other. -/
theorem foldl_detectors_congr {f g : State → Detector → State} (v : Vector DetectorRecord 12)
    (leaves : ∀ t d e, e ≠ d → (f t d).fire.detectors[e] = t.fire.detectors[e])
    (same : ∀ t d, t.fire.detectors[d] = v[d] → f t d = g t d) : ∀ (ds : List Detector) (t : State), ds.Nodup →
      (∀ d ∈ ds, t.fire.detectors[d] = v[d]) → ds.foldl f t = ds.foldl g t
  | [], _, _, _ => rfl
  | d :: ds, t, once, at_ => by
    obtain ⟨fresh, once⟩ := List.nodup_cons.1 once
    rw [List.foldl_cons, List.foldl_cons, ← same t d (at_ d List.mem_cons_self)]
    refine foldl_detectors_congr v leaves same ds _ once fun e he => ?_
    rw [leaves t d e fun eq => fresh (eq ▸ he)]
    exact at_ e (List.mem_cons_of_mem _ he)

/-- The latches dropped leave the areas, the abort-hold, the clock and the accumulators. -/
theorem dropLatches_keep (a : Area) (ds : List Detector) (s : State) :
    (ds.foldl (State.dropLatch a) s).fire.areas = s.fire.areas ∧ (ds.foldl (State.dropLatch a) s).fire.abort = s.fire.abort ∧
    (ds.foldl (State.dropLatch a) s).vault = s.vault ∧ (ds.foldl (State.dropLatch a) s).accumulators = s.accumulators := by
  have step : ∀ (t : State) d, ((t.dropLatch a d).fire.areas, (t.dropLatch a d).fire.abort, (t.dropLatch a d).vault,
      (t.dropLatch a d).accumulators) = (t.fire.areas, t.fire.abort, t.vault, t.accumulators) := fun t d => by
    simp only [State.dropLatch]
    split <;> simp
  have kept := foldl_keeps (State.dropLatch a) (fun t => (t.fire.areas, t.fire.abort, t.vault, t.accumulators)) step ds s
  simpa only [Prod.mk.injEq] using kept

section
variable (a : Area) (s : State)

/-- The area and its detectors behind the first three steps of R53. -/
def State.unlatchedFor : State :=
  Detector.all.foldl (State.dropLatch a) (s.onFireArea a fun x => { x with state := .quiet, callLatch := false })

/-- The state behind the four steps of R53, which R55's order then announces. -/
def State.quieted : State :=
  (Detector.all.foldl (State.markRetake a) (s.unlatchedFor a)).onFireArea a fun x =>
    { x with callRetake := x.callRetake || x.callActive }

theorem returnToQuiet_eq :
    s.returnToQuiet a = (s.quieted a).announceFire a (s.fire.areas.get a).state s.fire.blocked := rfl

theorem unlatchedFor_keeps : (s.unlatchedFor a).fire.areas =
      s.fire.areas.set a { s.fire.areas.get a with state := .quiet, callLatch := false } ∧
    (s.unlatchedFor a).fire.abort = s.fire.abort ∧ (s.unlatchedFor a).vault = s.vault ∧
    (s.unlatchedFor a).accumulators = s.accumulators := by
  unfold State.unlatchedFor
  obtain ⟨areas, abort, vault, accumulators⟩ := dropLatches_keep a Detector.all
    (s.onFireArea a fun x => { x with state := .quiet, callLatch := false })
  exact ⟨areas, abort, vault, accumulators⟩

theorem quieted_eq : s.quieted a = { s.unlatchedFor a with fire := { (s.unlatchedFor a).fire with
    detectors := (s.quieted a).fire.detectors, areas := (s.quieted a).fire.areas } } := by
  obtain ⟨v, hv⟩ := markRetakes_frame a Detector.all (s.unlatchedFor a)
  unfold State.quieted
  rw [hv]
  generalize s.unlatchedFor a = u
  rfl

theorem quieted_areas : (s.quieted a).fire.areas = s.fire.areas.set a { s.fire.areas.get a with
    state := .quiet, callLatch := false, callRetake := (s.fire.areas.get a).callRetake || (s.fire.areas.get a).callActive } := by
  obtain ⟨v, hv⟩ := markRetakes_frame a Detector.all (s.unlatchedFor a)
  unfold State.quieted
  rw [hv]
  simp only [State.onFireArea, (unlatchedFor_keeps a s).1, perArea_get_set, if_pos, perArea_set_set]

theorem quieted_detectors (d : Detector) :
    (s.quieted a).fire.detectors[d] = (s.fire.detectors[d].unlatched a).marked a := by
  have marks : ∀ (t : State) d, (t.markRetake a d).fire.detectors =
      t.fire.detectors.set d (t.fire.detectors[d].marked a) := fun t d => by rw [markRetake_eq, onDetector_fire]
  simp only [State.quieted, onFireArea_fire, foldl_detectors_all marks]
  simp only [State.unlatchedFor, onFireArea_fire, foldl_detectors_all (dropLatch_detectors a)]

/-- The latches dropped, as a fold that reads the detectors as they stood at first. -/
theorem unlatchedFor_eq : s.unlatchedFor a = Detector.all.foldl (fun (w : State) (d : Detector) =>
      if s.fire.detectors[d].assignment = some a ∧ s.fire.detectors[d].state = .alarm then
        w.changeDetector d (if s.fire.detectors[d].condition = .fault then .fault else .normal) else w)
    (s.onFireArea a fun x => { x with state := .quiet, callLatch := false }) := by
  refine foldl_detectors_congr s.fire.detectors (fun t d e other => ?_) (fun t d at_ => ?_) _ _ detectors_nodup fun _ _ => rfl
  · rw [dropLatch_detectors]
    exact (vector_getElem_set _ d e _).trans (if_neg other)
  · simp only [State.dropLatch, at_, dropped_eq]

theorem returnToQuiet_fire : (s.returnToQuiet a).fire.detectors = (s.quieted a).fire.detectors ∧
    (s.returnToQuiet a).fire.areas = (s.quieted a).fire.areas ∧
    (s.returnToQuiet a).fire.abort = (s.quieted a).fire.abort := by
  rw [returnToQuiet_eq, announceFire_fire_detectors, announceFire_fire_areas, announceFire_fire_abort]
  exact ⟨rfl, rfl, rfl⟩

theorem returnToQuiet_beside : (s.returnToQuiet a).vault = (s.quieted a).vault ∧
    (s.returnToQuiet a).accumulators = (s.quieted a).accumulators := by
  rw [returnToQuiet_eq, announceFire_vault, announceFire_accumulators]
  exact ⟨rfl, rfl⟩

theorem quieted_keeps : (s.quieted a).fire.abort = s.fire.abort ∧ (s.quieted a).vault = s.vault ∧
    (s.quieted a).accumulators = s.accumulators := by
  obtain ⟨-, keeps⟩ := unlatchedFor_keeps a s
  rw [quieted_eq]
  generalize s.unlatchedFor a = u at keeps ⊢
  exact keeps

end

/-! ## The re-taking scan -/

theorem exec_retakeAtScan {s : State} (hp : s.power = .running) : exec .retakeAtScan s = .next s.retakeInputs :=
  congrArg Host.Outcome.next (event_running _ hp)

/-- A marked detector enters ALARM when its lines still give alarm and it is neither ISOLATED nor in ALARM (log 34). -/
def DetectorRecord.retaken (x : DetectorRecord) : Bool :=
  x.retake && decide (x.condition = .alarm ∧ x.state ≠ .isolated ∧ x.state ≠ .alarm)

theorem evaluated_of_alarm {x : DetectorRecord} (h : x.condition = .alarm) :
    x.evaluated = if x.state = .isolated then .isolated else .alarm := by
  unfold DetectorRecord.evaluated
  cases hs : x.state <;> simp [h, LineCondition.names]

/-- A detector at the re-taking scan, case by case. -/
theorem retakeDetector_eq (s : State) (d : Detector) :
    let y := s.fire.detectors[d]
    let u := s.onDetector d fun y => { y with retake := false }
    s.retakeDetector d = if y.retake = false then s
    else if y.condition = .alarm ∧ y.state ≠ .isolated ∧ y.state ≠ .alarm then (u.changeDetector d .alarm).alarmEntry d
    else u := by
  intro y u
  have record : u.fire.detectors[d] = { y with retake := false } := by rw [onDetector_get, if_pos rfl]
  have line : u.fire.detectors[d].condition = y.condition := by rw [record]; rfl
  have state : u.fire.detectors[d].state = y.state := by rw [record]
  have steps : s.retakeDetector d =
      if y.retake then (if u.fire.detectors[d].condition = .alarm then u.evaluateDetector d else u) else s := rfl
  rw [steps, line]
  cases y.retake with
  | false => simp only [if_true, Bool.false_eq_true, if_false]
  | true =>
    simp only [if_true, Bool.true_eq_false, if_false]
    by_cases alarm : y.condition = .alarm
    · have evaluated := evaluated_of_alarm (line.trans alarm)
      rw [state] at evaluated
      rw [if_pos alarm]
      by_cases isolated : y.state = .isolated
      · rw [if_neg fun k => k.2.1 isolated]
        exact evaluateDetector_of_same (by rw [evaluated, if_pos isolated, state, isolated])
      rw [if_neg isolated] at evaluated
      by_cases already : y.state = .alarm
      · rw [if_neg fun k => k.2.2 already]
        exact evaluateDetector_of_same (by rw [evaluated, state, already])
      · rw [if_pos ⟨alarm, isolated, already⟩]
        exact evaluateDetector_of_entry evaluated (by rw [state]; exact already)
    · rw [if_neg alarm, if_neg fun k => alarm k.1]

/-- A call point at the re-taking scan, case by case. -/
theorem retakeCall_eq (s : State) (a : Area) :
    let x := s.fire.areas.get a
    let u := s.onFireArea a fun x => { x with callRetake := false }
    let w := u.onFireArea a fun x => { x with callLatch := true }
    s.retakeCall a = if x.callRetake = false then s
    else if x.callActive = false ∨ x.callLatch = true then u
    else if x.state.late = true then w else w.enterCountdown a := by
  intro x u w
  have record : u.fire.areas.get a = { x with callRetake := false } := by rw [onFireArea_get, if_pos rfl]
  have active : (u.fire.areas.get a).callActive = x.callActive := by rw [record]
  have latch : (u.fire.areas.get a).callLatch = x.callLatch := by rw [record]
  have steps : s.retakeCall a =
      if x.callRetake then (if (u.fire.areas.get a).callActive then u.callEvent a else u) else s := rfl
  rw [steps, active]
  cases x.callRetake with
  | false => simp only [if_true, Bool.false_eq_true, if_false]
  | true =>
    simp only [if_true, Bool.true_eq_false, if_false]
    cases x.callActive with
    | false => simp only [Bool.false_eq_true, if_false, true_or, if_true]
    | true =>
      simp only [if_true, Bool.true_eq_false, false_or]
      by_cases latched : x.callLatch = true
      · rw [if_pos latched]
        exact callEvent_of_latched (latch.trans latched)
      · rw [if_neg latched]
        refine (callEvent_of_clear (latch.trans (Bool.eq_false_iff.2 latched))).trans ?_
        rw [record]

/-- A detector's record behind the re-taking scan (R53; log 34). -/
def DetectorRecord.afterRetake (x : DetectorRecord) : DetectorRecord :=
  { x with
    retake := false
    state := if x.retake = true ∧ x.condition = .alarm ∧ x.state ≠ .isolated then .alarm else x.state }

theorem retaken_iff (x : DetectorRecord) : x.retaken = true ↔
    x.retake = true ∧ x.condition = .alarm ∧ x.state ≠ .isolated ∧ x.state ≠ .alarm := by
  simp only [DetectorRecord.retaken, Bool.and_eq_true, decide_eq_true_eq]

theorem afterRetake_of_retaken {x : DetectorRecord} (h : x.retaken = true) :
    x.afterRetake = { x with retake := false, state := .alarm } := by
  obtain ⟨marked, line, free, -⟩ := (retaken_iff x).1 h
  simp only [DetectorRecord.afterRetake, if_pos (show x.retake = true ∧ x.condition = .alarm ∧ x.state ≠ .isolated from
    ⟨marked, line, free⟩)]

theorem afterRetake_of_not_retaken {x : DetectorRecord} (h : x.retaken = false) :
    x.afterRetake = { x with retake := false } := by
  unfold DetectorRecord.afterRetake
  split
  · rename_i k
    have already : x.state = .alarm := by
      by_contra other
      exact Bool.false_ne_true (h.symm.trans ((retaken_iff x).2 ⟨k.1, k.2.1, k.2.2, other⟩))
    rw [already]
  · rfl

theorem retakeDetector_of_retaken {s : State} {d : Detector} (h : s.fire.detectors[d].retaken = true) : s.retakeDetector d =
    ((s.onDetector d fun y => { y with retake := false }).changeDetector d .alarm).alarmEntry d := by
  obtain ⟨marked, enters⟩ := (retaken_iff _).1 h
  rw [retakeDetector_eq, if_neg (by rw [marked]; simp), if_pos enters]

theorem retakeDetector_of_not_retaken {s : State} {d : Detector} (h : s.fire.detectors[d].retaken = false) :
    s.retakeDetector d = s.onDetector d fun y => { y with retake := false } := by
  rw [retakeDetector_eq]
  split
  · rename_i clear
    exact (onDetector_of_same (by rw [← clear])).symm
  · rename_i marked
    exact if_neg fun enters =>
      Bool.false_ne_true (h.symm.trans ((retaken_iff _).2 ⟨Bool.not_eq_false _ ▸ marked, enters⟩))

theorem alarmCount_congr {f g : FireUnit} (h : f.detectors = g.detectors) (a : Area) : f.alarmCount a = g.alarmCount a := by
  unfold FireUnit.alarmCount
  rw [h]

theorem countdownState_congr {s t : State} (abort : s.fire.abort = t.fire.abort) (vault : s.vault = t.vault) :
    s.countdownState = t.countdownState := by
  unfold State.countdownState
  rw [abort, vault]

theorem retakeDetector_detectors (s : State) (d : Detector) :
    (s.retakeDetector d).fire.detectors = s.fire.detectors.set d s.fire.detectors[d].afterRetake := by
  cases h : s.fire.detectors[d].retaken with
  | true =>
    rw [retakeDetector_of_retaken h, alarmEntry_fire_detectors, changeDetector_detectors, afterRetake_of_retaken h,
      onDetector_get, if_pos rfl, onDetector_fire]
    exact Vector.set_set _ d.isLt
  | false => rw [retakeDetector_of_not_retaken h, afterRetake_of_not_retaken h, onDetector_fire]

theorem retakeDetector_abort (s : State) (d : Detector) : (s.retakeDetector d).fire.abort = s.fire.abort := by
  cases h : s.fire.detectors[d].retaken with
  | true => rw [retakeDetector_of_retaken h]; simp
  | false => rw [retakeDetector_of_not_retaken h]; rfl

/-- The re-taking scan takes its detectors as entries one after another (R45, R46, R53). -/
theorem retakeDetector_step : EntryStep State.retakeDetector DetectorRecord.afterRetake DetectorRecord.retaken where
  detectors := retakeDetector_detectors
  areas t d b := by
    cases h : t.fire.detectors[d].retaken with
    | true =>
      have counts : (t.retakeDetector d).fire.alarmCount b = ((t.onDetector d fun y => { y with retake := false }).changeDetector
          d .alarm).fire.alarmCount b := by
        rw [retakeDetector_of_retaken h]
        exact alarmCount_congr (alarmEntry_fire_detectors _ _) b
      have target : ((t.onDetector d fun y => { y with retake := false }).changeDetector d .alarm).countdownState =
          t.countdownState := countdownState_congr (by simp) (by simp)
      rw [counts, retakeDetector_of_retaken h, alarmEntry_get, changeDetector_get, if_pos rfl, onDetector_get, if_pos rfl, target]
      simp only [changeDetector_fire_areas, onDetector_fire, true_and]
    | false =>
      rw [retakeDetector_of_not_retaken h, if_neg (by simp)]
      rfl
  countdown t d := countdownState_congr (retakeDetector_abort t d) (retakeDetector_vault t d)
  assignment _ := rfl
  alarm x h := by rw [afterRetake_of_retaken h]
  other x h := by rw [afterRetake_of_not_retaken h]

/-! ## The call points behind the detectors -/

/-- An area behind the re-taking of its call point, with the state in which it enters the countdown (R43, R47, R53). -/
def FireArea.afterRetake (countdown : FireState) (x : FireArea) : FireArea :=
  { x with
    callRetake := false
    callLatch := x.callLatch || (x.callRetake && x.callActive)
    state := if (x.callRetake && x.callActive && !x.callLatch && !x.state.late) = true then countdown else x.state }

theorem retakeCall_areas (s : State) (a : Area) :
    (s.retakeCall a).fire.areas = s.fire.areas.set a ((s.fire.areas.get a).afterRetake s.countdownState) := by
  rw [retakeCall_eq]
  unfold FireArea.afterRetake
  cases marked : (s.fire.areas.get a).callRetake with
  | false =>
    have same : (s.fire.areas.get a) = { s.fire.areas.get a with callRetake := false } := by rw [← marked]
    simp only [if_true, Bool.false_and, Bool.or_false, Bool.false_eq_true, if_false]
    rw [← same, perArea_set_get]
  | true =>
    cases active : (s.fire.areas.get a).callActive <;> cases latch : (s.fire.areas.get a).callLatch <;>
      cases late : (s.fire.areas.get a).state.late <;> simp [enterCountdown_eq, State.countdownState, active, latch]

theorem retakeCall_keeps (s : State) (a : Area) : (s.retakeCall a).fire.detectors = s.fire.detectors ∧
    (s.retakeCall a).fire.abort = s.fire.abort := by
  rw [retakeCall_eq]
  (repeat' split) <;> simp

section
variable (s : State)

/-- The state behind the detectors of a re-taking scan. -/
def State.retakenDetectors : State := Detector.all.foldl State.retakeDetector s

theorem retakeInputs_eq : s.retakeInputs = Area.all.foldl State.retakeCall s.retakenDetectors := rfl

theorem retakenDetectors_keeps : s.retakenDetectors.countdownState = s.countdownState ∧
    s.retakenDetectors.fire.abort = s.fire.abort := by
  unfold State.retakenDetectors
  generalize Detector.all = ds
  exact ⟨foldl_keeps State.retakeDetector State.countdownState retakeDetector_step.countdown ds s,
    foldl_keeps State.retakeDetector (fun t => t.fire.abort) retakeDetector_abort ds s⟩

/-- A detector of an area that enters ALARM at the re-taking scan. -/
def State.entersAt (a : Area) (d : Detector) : Prop :=
  s.fire.detectors[d].retaken = true ∧ s.fire.detectors[d].assignment = some a

theorem retakenDetectors_areas (a : Area) :
    ((∃ d, s.entersAt a d) → s.retakenDetectors.fire.areas.get a = { s.fire.areas.get a with
      state := (s.fire.areas.get a).entered (s.retakenDetectors.fire.alarmCount a) s.countdownState }) ∧
    ((∀ d, ¬ s.entersAt a d) → s.retakenDetectors.fire.areas.get a = s.fire.areas.get a) := by
  unfold State.retakenDetectors
  obtain ⟨some, none⟩ := retakeDetector_step.foldl_areas a Detector.all s detectors_nodup
  exact ⟨fun ⟨d, h⟩ => some ⟨d, mem_detectors d, h⟩, fun h => none fun d _ => h d⟩

theorem retakeInputs_keeps : s.retakeInputs.fire.detectors = s.retakenDetectors.fire.detectors ∧
    s.retakeInputs.fire.abort = s.fire.abort := by
  have calls : ∀ (as : List Area) (t : State), ((as.foldl State.retakeCall t).fire.detectors, (as.foldl State.retakeCall t).fire.abort) =
      (t.fire.detectors, t.fire.abort) := fun as t => foldl_keeps State.retakeCall (fun t => (t.fire.detectors, t.fire.abort))
    (fun t a => Prod.ext (retakeCall_keeps t a).1 (retakeCall_keeps t a).2) as t
  obtain ⟨detectors, abort⟩ := Prod.mk.inj (calls Area.all s.retakenDetectors)
  rw [retakeInputs_eq]
  exact ⟨detectors, abort.trans (retakenDetectors_keeps s).2⟩

theorem retakeInputs_detectors (d : Detector) :
    s.retakeInputs.fire.detectors[d] = s.fire.detectors[d].afterRetake := by
  rw [(retakeInputs_keeps s).1]
  unfold State.retakenDetectors
  rw [foldl_detectors_all retakeDetector_detectors]

theorem retakeInputs_areas (a : Area) : s.retakeInputs.fire.areas.get a =
    (s.retakenDetectors.fire.areas.get a).afterRetake s.countdownState := by
  have target : ∀ (t : State) b, t.countdownState = s.countdownState → (t.retakeCall b).countdownState = s.countdownState :=
    fun t b h => (countdownState_congr (retakeCall_keeps t b).2 (retakeCall_vault t b)).trans h
  rw [retakeInputs_eq]
  generalize hu : s.retakenDetectors = u
  have start : u.countdownState = s.countdownState := hu ▸ (retakenDetectors_keeps s).1
  exact (foldl_areas_get (P := fun t => t.countdownState = s.countdownState)
    (g := fun _ => FireArea.afterRetake s.countdownState) target (fun t b h => by rw [retakeCall_areas, h]) a Area.all
    u areas_nodup start).trans (if_pos (mem_areas a))

end

/-- What an early area is in behind an entry, if it is late then: the countdown. -/
theorem entered_late {x : FireArea} {n : Nat} {c : FireState} (early : x.state.late = false)
    (late : (x.entered n c).late = true) : x.entered n c = c := by
  unfold FireArea.entered at late ⊢
  rw [early] at late ⊢
  split at late
  · contradiction
  rename_i h
  rw [if_neg h]
  split at late
  · rename_i two
    exact if_pos two
  · cases late

/-- An area behind the detectors of a re-taking scan, by whether one of its detectors enters ALARM. -/
theorem retakenDetectors_area (s : State) (a : Area) :
    ∃ st, s.retakenDetectors.fire.areas.get a = { s.fire.areas.get a with state := st } ∧
      ((∃ d, s.entersAt a d) → st = (s.fire.areas.get a).entered (s.retakeInputs.fire.alarmCount a) s.countdownState) ∧
      (¬ (∃ d, s.entersAt a d) → st = (s.fire.areas.get a).state) := by
  obtain ⟨some, none⟩ := retakenDetectors_areas s a
  rw [alarmCount_congr (retakeInputs_keeps s).1]
  by_cases enters : ∃ d, s.entersAt a d
  · exact ⟨_, some enters, fun _ => rfl, fun k => absurd enters k⟩
  · exact ⟨_, none (not_exists.1 enters), fun k => absurd k enters, fun _ => rfl⟩

/-- An area behind the re-taking scan: its detectors' entries, and then its call point (R46, R47, R53). -/
theorem retakeInputs_area (s : State) (a : Area) :
    let x := s.fire.areas.get a
    let y := s.retakeInputs.fire.areas.get a
    let target := if s.fire.abort then FireState.held else .countdown s.vault.uptime
    let enters := ∃ d : Detector, s.fire.detectors[d].assignment = some a ∧ s.fire.detectors[d].retake = true ∧
      s.fire.detectors[d].condition = .alarm ∧ s.fire.detectors[d].state ≠ .isolated ∧ s.fire.detectors[d].state ≠ .alarm
    let count := s.retakeInputs.fire.detectors.toList.countP fun z => z.assignment == some a && z.state == .alarm
    y = { x with callRetake := false, callLatch := x.callLatch || (x.callRetake && x.callActive), state := y.state } ∧
    (x.state.late = true → y.state = x.state) ∧
    (x.callRetake = false →
      (∀ d : Detector, s.fire.detectors[d].assignment = some a → s.fire.detectors[d].retake = false) → y.state = x.state) ∧
    (x.callRetake = true → x.callActive = true → x.callLatch = false → x.state.late = false → y.state = target) ∧
    (x.state.late = false → ¬ (x.callRetake = true ∧ x.callActive = true ∧ x.callLatch = false) →
      (¬ enters → y.state = x.state) ∧
      (enters → (x.settings.coincidence = .single ∨ 2 ≤ count) → y.state = target) ∧
      (enters → x.settings.coincidence = .double → count < 2 → y.state = .preAlarm)) := by
  intro x y target enters count
  have counts : s.retakeInputs.fire.alarmCount a = count := List.countP_eq_length_filter.symm
  have entering : (∃ d, s.entersAt a d) ↔ enters := by
    simp only [State.entersAt, retaken_iff, enters, and_comm, and_left_comm, and_assoc]
  obtain ⟨st, left, entered, still⟩ := retakenDetectors_area s a
  rw [entering] at entered still
  rw [counts] at entered
  have after : y = { x with
      callRetake := false
      callLatch := x.callLatch || (x.callRetake && x.callActive)
      state := if (x.callRetake && x.callActive && !x.callLatch && !st.late) = true then target else st } :=
    (retakeInputs_areas s a).trans (by rw [left]; rfl)
  have state : y.state = if (x.callRetake && x.callActive && !x.callLatch && !st.late) = true then target else st := by
    rw [after]
  have unmoved : x.state.late = true → st = x.state := fun late => by
    by_cases h : enters
    · exact (entered h).trans (entered_of_late late _ _)
    · exact still h
  refine ⟨by rw [state]; exact after, fun late => ?_, fun clear none => ?_, fun marked active latch early => ?_, fun early quiet => ?_⟩
  · rw [state, unmoved late, late]
    simp
  · have none_enters : ¬ enters := fun ⟨d, own, marked, _⟩ => Bool.false_ne_true ((none d own).symm.trans marked)
    rw [state, clear]
    exact (if_neg (by simp)).trans (still none_enters)
  · rw [state, marked, active, latch]
    cases hl : st.late with
    | false => rfl
    | true =>
      by_cases h : enters
      · rw [entered h] at hl ⊢
        exact entered_late early hl
      · rw [still h, early] at hl
        cases hl
  · have silent : (x.callRetake && x.callActive && !x.callLatch) = false := by
      rw [Bool.eq_false_iff]
      simpa [and_assoc] using quiet
    rw [silent, Bool.false_and] at state
    rw [state, if_neg Bool.false_ne_true]
    exact ⟨still, fun h two => (entered h).trans (entered_of_two early two _),
      fun h double one => (entered h).trans (entered_of_one early double one _)⟩

/-- Settles O22: the return to QUIET by the folds over its detectors, and the re-taking scan by its entries and calls. -/
theorem returnToQuietAndRetake : Obligations.ReturnToQuietAndRetake := by
  refine ⟨fun a s => ?_, fun s hp => ?_, fun s hp => ?_⟩
  · intro t x
    obtain ⟨abort, vault, accumulators⟩ := quieted_keeps a s
    obtain ⟨detectors, areas, held⟩ := returnToQuiet_fire a s
    obtain ⟨clock, doses⟩ := returnToQuiet_beside a s
    refine ⟨areas.trans (quieted_areas a s), fun d => ?_, held.trans abort, clock.trans vault, doses.trans accumulators, ?_⟩
    · intro y
      rw [detectors, quieted_detectors]
      exact marked_unlatched a y
    · intro v w
      have dropped : s.unlatchedFor a = w := unlatchedFor_eq a s
      rw [detectors, areas, ← dropped, ← quieted_eq]
      rfl
  · intro v
    rw [exec_retakeAtScan hp]
    have detectors : v = s.retakenDetectors :=
      congrArg (fun f => List.foldl f s Detector.all) (funext₂ fun t d => (retakeDetector_eq t d).symm)
    rw [retakeInputs_eq, ← detectors]
    exact congrArg (fun f => Host.Outcome.next (List.foldl f v Area.all)) (funext₂ fun t a => retakeCall_eq t a)
  · refine ⟨_, exec_retakeAtScan hp, fun d => retakeInputs_detectors s d, fun a => ?_, (retakeInputs_keeps s).2,
      retakeInputs_vault s, retakeInputs_accumulators s⟩
    exact retakeInputs_area s a

end Sys2Proof.Machine
end

