-- ==== Sys2Proof/Proofs/EmptiedTables.lean ====
section
/-! SUPPORT. Tables that a format has emptied stay so while the detectors enter ALARM: with no consignment, no pick request
and no hatch entry, a change of an area's fire state touches none of them (R61, R143, R184). -/

namespace Sys2Proof.Machine

/-- The custody table, the consignments, the staging unit and the entry list as a format leaves them (R184). -/
structure State.emptied (s : State) : Prop where
  custody : s.custody = []
  consign : s.consign = { places := tabulate fun _ => none, counter := 0 }
  staging : s.staging =
    { queue := [], holdSent := false, slots := tabulate fun _ => .free, settings := StagingSettings.default }
  entries : s.hatch.entries = []

theorem emptied_congr {s t : State} (h : s.emptied) (custody : t.custody = s.custody) (consign : t.consign = s.consign)
    (staging : t.staging = s.staging) (entries : t.hatch.entries = s.hatch.entries) : t.emptied :=
  ⟨custody.trans h.custody, consign.trans h.consign, staging.trans h.staging, entries.trans h.entries⟩

section
variable {s : State}

theorem consignment?_of_emptied (h : s.emptied) (n : Nat) : s.consignment? n = none := by
  have none_at : ∀ i : Fin 16, s.consign.places[i] = none := fun i => by
    rw [h.consign]; exact tabulate_get _ i
  unfold State.consignment?
  simp [none_at]

/-- An exchange with a consignment that no longer stands ends and leaves no trace. -/
theorem endExchange_of_emptied (h : s.emptied) (needs : List Nat) (x : Exchange) (revoked : Bool) :
    s.endExchange needs x revoked = (needs, { s with hatch := { s.hatch with exchange := none } }) := by
  simp only [State.endExchange, consignment?_of_emptied h]

theorem outerSecured_emptied (h : s.emptied) (needs : List Nat) (ending : Bool) : (s.outerSecured needs ending).2.emptied := by
  have cleared : (s.onArbiter fun a => { a with revoked := false }).emptied := emptied_congr h rfl rfl rfl rfl
  unfold State.outerSecured
  simp only []
  split
  · exact cleared
  split
  · rw [endExchange_of_emptied cleared]
    exact emptied_congr cleared rfl rfl rfl rfl
  · exact cleared

theorem endPossession_emptied (h : s.emptied) (needs : List Nat) (side : Side) : (s.endPossession needs side).2.emptied := by
  cases side with
  | inner => exact emptied_congr h rfl rfl rfl rfl
  | outer =>
    have given : ∀ f g, ((s.onDoor .outer f).onArbiter g).emptied := fun f g => emptied_congr h rfl rfl rfl rfl
    exact outerSecured_emptied (given _ _) _ _

theorem notifyRevoked_emptied (h : s.emptied) (a : Arbiter) (side : Side) : (s.notifyRevoked a side).emptied :=
  emptied_congr h (by simp) (by simp) (by simp) (by simp)

theorem revoke_emptied (h : s.emptied) : s.revoke.2.emptied := by
  have given : ∀ f, (s.onArbiter f).emptied := fun f => emptied_congr h rfl rfl rfl rfl
  have notified : ∀ f, (((s.onArbiter f).notifyRevoked s.hatch.arbiter .inner).notifyRevoked s.hatch.arbiter .outer).emptied :=
    fun f => notifyRevoked_emptied (notifyRevoked_emptied (given f) _ _) _ _
  have revoked : ∀ f g, ((((s.onArbiter f).notifyRevoked s.hatch.arbiter .inner).notifyRevoked s.hatch.arbiter
      .outer).onArbiter g).emptied := fun f g => emptied_congr (notified f) rfl rfl rfl rfl
  unfold State.revoke
  simp only []
  split
  · split
    · simpa only [] using revoked _ _
    · exact endPossession_emptied (revoked _ _) _ _
  · exact notified _

theorem arbitrate_emptied (h : s.emptied) (needs : List Nat) : (s.arbitrate needs).emptied :=
  emptied_congr h (by simp) (by simp) (by simp) (by simp)

theorem hatchFireChange_emptied (h : s.emptied) (wasBlocked : Bool) : (s.hatchFireChange wasBlocked).emptied := by
  rw [hatchFireChange_eq]
  split
  · exact arbitrate_emptied (revoke_emptied h) _
  · exact arbitrate_emptied h _

/-- With no request in the staging queue nothing is dispatched. -/
theorem dispatch_of_emptied (h : s.emptied) (needs : List Nat) : s.dispatch needs = s := by
  unfold State.dispatch
  rw [h.staging]
  rfl

theorem changeFire_emptied (h : s.emptied) (a : Area) (new : FireState) : (s.changeFire a new).emptied := by
  have changed : (s.onFireArea a fun x => { x with state := new }).emptied := emptied_congr h rfl rfl rfl rfl
  have announced : ∀ n old, (((((s.onFireArea a fun x => { x with state := new }).postNotice n).updateSounders).climateFireChange
      a old)).emptied := fun n old => emptied_congr changed (by simp) (by simp) (by simp) (by simp)
  unfold State.changeFire State.announceFire
  rw [dispatch_of_emptied (announced _ _)]
  exact hatchFireChange_emptied (announced _ _) _

theorem alarmEntry_emptied (h : s.emptied) (d : Detector) : (s.alarmEntry d).emptied := by
  cases assigned : s.fire.detectors[d].assignment with
  | none => rw [alarmEntry_of_unassigned assigned]; exact h
  | some a =>
    rw [alarmEntry_of_assigned assigned]
    split
    · exact h
    · exact changeFire_emptied h _ _

theorem alarmAfresh_emptied (h : s.emptied) (d : Detector) : (s.alarmAfresh d).emptied := by
  unfold State.alarmAfresh
  split
  · exact alarmEntry_emptied h d
  · exact h

theorem changeDetector_emptied (h : s.emptied) (d : Detector) (x : DetectorState) : (s.changeDetector d x).emptied :=
  emptied_congr h (by simp) (by simp) (by simp) (by simp)

end

end Sys2Proof.Machine
end

