-- ==== Sys2Proof/Proofs/FormatEffect.lean ====
section
/-! SUPPORT. What a format leaves in the blocks: the defaults, each detector evaluated afresh under all of them, and the
entries into ALARM behind that (R46, R61, R184). -/

namespace Sys2Proof.Machine

/-- An area under its default settings, its agent renewed (R61). -/
def FireArea.blank (x : FireArea) : FireArea := { x with agentSpent := false, settings := FireSettings.default }

/-- The blocks emptied, the detectors still under their own settings (R184). -/
def State.blanked (s : State) : State :=
  { s with
    custody := []
    accumulators := ⟨0, 0, 0, 0⟩
    consign := { places := tabulate fun _ => none, counter := 0 }
    staging := { queue := [], holdSent := false, slots := tabulate fun _ => .free, settings := StagingSettings.default }
    hatch := { s.hatch with entries := [] }
    vault := { s.vault with descriptors := ConfigRecord.default.descriptors }
    climate := { s.climate with settings := ClimateSettings.defaults }
    fire := { s.fire with areas := s.fire.areas.map FireArea.blank }
    store := { s.store with flags := DamageFlags.clear } }

theorem blanked_emptied (s : State) : s.blanked.emptied := ⟨rfl, rfl, rfl, rfl⟩

theorem blanked_area (s : State) (a : Area) : s.blanked.fire.areas.get a = (s.fire.areas.get a).blank := by
  cases a <;> rfl

theorem blanked_detectors (s : State) : s.blanked.fire.detectors = s.fire.detectors := rfl

theorem updateTrouble_detectors (s : State) : s.updateTrouble.fire.detectors = s.fire.detectors := rfl

theorem emptyBlocks_eq (s : State) :
    s.emptyBlocks = Detector.all.foldl (fun t d => t.alarmAfresh d) s.blanked.defaultDetectors.updateTrouble := rfl

/-! ## The detectors under their defaults (R61) -/

/-- A detector under its default settings, evaluated afresh. -/
def DetectorRecord.defaulted (d : Detector) (x : DetectorRecord) : DetectorRecord :=
  let y := x.withSettings (DetectorSettings.default d)
  { y with state := y.afresh x.latches }

theorem defaulted_eq (d : Detector) (x : DetectorRecord) : x.defaulted d =
    { x with
      assignment := some (Detector.defaultArea d), polarity := .activeHigh, retake := false
      state := if x.state = .isolated then .isolated
        else if x.state = .alarm ∧ x.assignment.isSome = true then .alarm
        else if x.alarmLine = .high then .alarm else if x.faultLine = .high then .fault else .normal } := by
  have latched : (x.state = .alarm ∧ x.latches = true ∧ (some (Detector.defaultArea d)).isSome = true) ↔
      (x.state = .alarm ∧ x.assignment.isSome = true) := by
    rw [latches_eq]
    simp only [decide_eq_true_iff, Option.isSome_some, and_true]
    exact ⟨fun ⟨alarm, h⟩ => ⟨alarm, h.resolve_right (not_not.2 alarm)⟩, fun ⟨alarm, h⟩ => ⟨alarm, .inl h⟩⟩
  have active : (((Polarity.activeHigh == .activeHigh) && x.alarmLine == .high) ||
      ((Polarity.activeHigh == .activeLow) && x.alarmLine == .low)) = true ↔ x.alarmLine = .high := by
    cases x.alarmLine <;> decide
  simp only [DetectorRecord.defaulted, afresh_eq, DetectorRecord.withSettings, DetectorSettings.default, latched, active]

/-- What `defaultDetectors` begins from: each detector under its default settings, not yet evaluated. -/
def State.defaultSettings (s : State) : State :=
  { s with fire := { s.fire with
    detectors := tabulate fun d => s.fire.detectors[d].withSettings (DetectorSettings.default d) } }

theorem defaultDetectors_eq (s : State) : s.defaultDetectors = Detector.all.foldl
    (fun t d => t.changeDetector d (t.fire.detectors[d].afresh s.fire.detectors[d].latches)) s.defaultSettings := rfl

theorem defaultDetectors_get (s : State) (d : Detector) :
    s.defaultDetectors.fire.detectors[d] = s.fire.detectors[d].defaulted d := by
  rw [defaultDetectors_eq, foldl_detectors_get (P := fun _ => True)
    (g := fun d y => { y with state := y.afresh s.fire.detectors[d].latches }) (fun _ _ _ => trivial)
    (fun t d _ => changeDetector_detectors d _ t) d _ _ detectors_nodup trivial, if_pos (mem_detectors d)]
  have settings : s.defaultSettings.fire.detectors[d] = s.fire.detectors[d].withSettings (DetectorSettings.default d) :=
    tabulate_get _ d
  rw [settings]
  rfl

theorem defaultDetectors_keeps {γ : Type} (g : State → γ) (step : ∀ t d x, g (State.changeDetector d x t) = g t)
    (settings : ∀ t : State, g t.defaultSettings = g t) (s : State) : g s.defaultDetectors = g s := by
  rw [defaultDetectors_eq]
  exact (foldl_keeps _ g (fun t d => step t d _) _ _).trans (settings s)

theorem defaultDetectors_emptied {s : State} (h : s.emptied) : s.defaultDetectors.emptied := by
  rw [defaultDetectors_eq]
  exact foldl_invariant _ State.emptied (fun _ _ h => changeDetector_emptied h _ _) _ _ (emptied_congr h rfl rfl rfl rfl)

/-! ## The entries behind them (R46) -/

theorem alarmAfresh_detectors (d : Detector) (s : State) : (s.alarmAfresh d).fire.detectors = s.fire.detectors := by
  unfold State.alarmAfresh
  split <;> simp

theorem alarmAfresh_get (d : Detector) (b : Area) (s : State) : (s.alarmAfresh d).fire.areas.get b =
    if (s.fire.detectors[d].state == .alarm) = true ∧ s.fire.detectors[d].assignment = some b then
      { s.fire.areas.get b with state := (s.fire.areas.get b).entered (s.fire.alarmCount b) s.countdownState }
    else s.fire.areas.get b := by
  unfold State.alarmAfresh
  by_cases alarm : s.fire.detectors[d].state = .alarm
  · rw [if_pos alarm, alarmEntry_get]
    simp only [alarm, beq_self_eq_true, true_and]
  · rw [if_neg alarm, if_neg fun h => alarm (eq_of_beq h.1)]

theorem alarmAfresh_countdownState (d : Detector) (s : State) : (s.alarmAfresh d).countdownState = s.countdownState := by
  unfold State.alarmAfresh
  split
  · simp only [State.countdownState, alarmEntry_fire_abort, alarmEntry_vault]
  · rfl

/-- The detectors in ALARM behind a format enter it one after another, without a change of their records. -/
theorem alarmAfresh_step : EntryStep (fun t d => t.alarmAfresh d) id (fun x => x.state == .alarm) where
  detectors t d := (alarmAfresh_detectors d t).trans (Vector.set_getElem_self d.isLt).symm
  areas t d b := by
    have count : (t.alarmAfresh d).fire.alarmCount b = t.fire.alarmCount b := by
      rw [alarmCount_eq, alarmCount_eq, alarmAfresh_detectors]
    rw [alarmAfresh_get, count]
  countdown t d := alarmAfresh_countdownState d t
  assignment _ := rfl
  alarm _ h := eq_of_beq h
  other _ _ := Iff.rfl

/-- The state before the entries: every default stands, every detector is evaluated, TROUBLE is worked out. -/
def State.underDefaults (s : State) : State := s.blanked.defaultDetectors.updateTrouble

section
variable (s : State)

theorem emptyBlocks_keeps {γ : Type} (g : State → γ) (step : ∀ t d, g (State.alarmAfresh d t) = g t) :
    g s.emptyBlocks = g s.underDefaults := by
  rw [emptyBlocks_eq]
  exact foldl_keeps _ g step _ _

theorem underDefaults_detector (d : Detector) : s.underDefaults.fire.detectors[d] = s.fire.detectors[d].defaulted d := by
  unfold State.underDefaults
  rw [updateTrouble_detectors, defaultDetectors_get, blanked_detectors]

theorem underDefaults_keeps {γ : Type} (g : State → γ) (change : ∀ t d x, g (State.changeDetector d x t) = g t)
    (settings : ∀ t : State, g t.defaultSettings = g t) (trouble : ∀ t : State, g t.updateTrouble = g t) :
    g s.underDefaults = g s.blanked := by
  unfold State.underDefaults
  rw [trouble, defaultDetectors_keeps g change settings]

theorem underDefaults_area (a : Area) : s.underDefaults.fire.areas.get a = (s.fire.areas.get a).blank := by
  rw [← blanked_area, underDefaults_keeps s (fun t => t.fire.areas) (fun _ _ _ => changeDetector_fire_areas _ _ _)
    (fun _ => rfl) (fun _ => rfl)]

theorem underDefaults_countdownState : s.underDefaults.countdownState = s.countdownState := by
  have counting : ∀ (t : State) d x, (t.changeDetector d x).countdownState = t.countdownState := fun t d x => by
    simp only [State.countdownState, changeDetector_fire_abort, changeDetector_vault]
  rw [underDefaults_keeps s State.countdownState counting (fun _ => rfl) (fun _ => rfl)]
  rfl

theorem emptyBlocks_detector (d : Detector) : s.emptyBlocks.fire.detectors[d] = s.fire.detectors[d].defaulted d := by
  rw [← underDefaults_detector]
  exact emptyBlocks_keeps s (fun t => t.fire.detectors[d]) fun t d => by rw [alarmAfresh_detectors]

/-- The detectors of an area in ALARM behind a format (R46). -/
def State.defaultAlarms (t : State) (a : Area) : Nat :=
  (List.finRange 12).countP fun d => Detector.defaultArea d == a && t.fire.detectors[d].state == .alarm

theorem emptyBlocks_alarmCount (a : Area) : s.emptyBlocks.fire.alarmCount a = s.emptyBlocks.defaultAlarms a := by
  rw [alarmCount_eq, State.defaultAlarms]
  refine List.countP_congr fun d _ => ?_
  have assigned : s.emptyBlocks.fire.detectors[d].assignment = some (Detector.defaultArea d) := by
    rw [emptyBlocks_detector]; rfl
  rw [assigned]
  rfl

/-- An area has an entry behind a format exactly if one of its detectors is then in ALARM. -/
theorem entry_iff_defaultAlarms (a : Area) :
    (∃ d ∈ Detector.all, (s.underDefaults.fire.detectors[d].state == .alarm) = true ∧
      s.underDefaults.fire.detectors[d].assignment = some a) ↔ s.emptyBlocks.defaultAlarms a ≠ 0 := by
  rw [Nat.ne_zero_iff_zero_lt, State.defaultAlarms, List.countP_pos_iff]
  refine exists_congr fun d => and_congr_right fun _ => ?_
  rw [emptyBlocks_detector, underDefaults_detector, Bool.and_eq_true, beq_iff_eq, and_comm]
  exact and_congr_left fun _ => Option.some_inj.trans beq_iff_eq.symm

theorem emptyBlocks_area (a : Area) :
    let x := s.fire.areas.get a
    let n := s.emptyBlocks.defaultAlarms a
    s.emptyBlocks.fire.areas.get a = { x with
      agentSpent := false, settings := FireSettings.default
      state := if x.state.late = true ∨ n = 0 then x.state else if n = 1 then .preAlarm else s.countdownState } := by
  intro x n
  obtain ⟨entry, still⟩ := alarmAfresh_step.foldl_areas a Detector.all s.underDefaults detectors_nodup
  have folded : ∀ t, t = s.emptyBlocks → t = Detector.all.foldl (fun t d => t.alarmAfresh d) s.underDefaults := fun t h =>
    h.trans (emptyBlocks_eq s)
  rw [← folded _ rfl, underDefaults_area] at entry still
  by_cases none : n = 0
  · rw [still fun d mem h => (entry_iff_defaultAlarms s a).1 ⟨d, mem, h⟩ none, if_pos (.inr none)]
    rfl
  · rw [entry ((entry_iff_defaultAlarms s a).2 none), underDefaults_countdownState, emptyBlocks_alarmCount]
    change ({ x.blank with state := x.blank.entered n s.countdownState } : FireArea) = _
    have state : x.blank.entered n s.countdownState =
        if x.state.late = true ∨ n = 0 then x.state else if n = 1 then .preAlarm else s.countdownState := by
      by_cases late : x.state.late = true
      · rw [if_pos (.inl late)]
        exact entered_of_late (x := x.blank) late _ _
      · have early : x.blank.state.late = false := Bool.eq_false_iff.2 late
        rw [if_neg (by simp [late, none])]
        split
        · exact entered_of_one early rfl (by omega) _
        · exact entered_of_two early (.inr (by omega)) _
    rw [state]
    rfl

theorem emptyBlocks_emptied : s.emptyBlocks.emptied := by
  rw [emptyBlocks_eq]
  have before : s.underDefaults.emptied := by
    unfold State.underDefaults
    have settled := defaultDetectors_emptied (blanked_emptied s)
    exact emptied_congr settled (updateTrouble_custody _) (updateTrouble_consign _) (updateTrouble_staging _)
      (congrArg HatchUnit.entries (updateTrouble_hatch _))
  exact foldl_invariant _ State.emptied (fun _ _ h => alarmAfresh_emptied h _) _ _ before

/-- What a format's effect on the blocks leaves as the blanked blocks have it. -/
theorem emptyBlocks_of_blanked {γ : Type} (g : State → γ) (entry : ∀ t d, g (State.alarmEntry d t) = g t)
    (change : ∀ t d x, g (State.changeDetector d x t) = g t) (settings : ∀ t : State, g t.defaultSettings = g t)
    (trouble : ∀ t : State, g t.updateTrouble = g t) : g s.emptyBlocks = g s.blanked := by
  have afresh : ∀ t d, g (State.alarmAfresh d t) = g t := fun t d => by
    unfold State.alarmAfresh
    split
    · exact entry t d
    · rfl
  exact (emptyBlocks_keeps s g afresh).trans (underDefaults_keeps s g change settings trouble)

theorem emptyBlocks_accumulators : s.emptyBlocks.accumulators = ⟨0, 0, 0, 0⟩ := by
  have kept := emptyBlocks_of_blanked s State.accumulators (by simp) (by simp) (fun _ => rfl) (fun _ => rfl)
  exact kept

theorem emptyBlocks_vault : s.emptyBlocks.vault = { s.vault with descriptors := ConfigRecord.default.descriptors } := by
  have kept := emptyBlocks_of_blanked s State.vault (by simp) (by simp) (fun _ => rfl) (fun _ => rfl)
  exact kept

theorem emptyBlocks_power : s.emptyBlocks.power = s.power := by
  have kept := emptyBlocks_of_blanked s State.power (by simp) (by simp) (fun _ => rfl) (fun _ => rfl)
  exact kept

theorem emptyBlocks_climate : s.emptyBlocks.climate.settings = ClimateSettings.defaults ∧
    s.emptyBlocks.climate.channels = s.climate.channels := by
  have kept := emptyBlocks_of_blanked s (fun t => (t.climate.settings, t.climate.channels)) (by simp) (by simp)
    (fun _ => rfl) (fun _ => rfl)
  obtain ⟨settings, channels⟩ := Prod.mk.inj kept
  exact ⟨settings, channels⟩

theorem emptyBlocks_store : s.emptyBlocks.store.flags = DamageFlags.clear ∧
    s.emptyBlocks.store.format = s.store.format ∧ s.emptyBlocks.store.cells = s.store.cells := by
  have kept := emptyBlocks_of_blanked s (fun t => (t.store.flags, t.store.format, t.store.cells)) (by simp) (by simp)
    (fun _ => rfl) (fun _ => rfl)
  obtain ⟨flags, rest⟩ := Prod.mk.inj kept
  obtain ⟨format, cells⟩ := Prod.mk.inj rest
  exact ⟨flags, format, cells⟩

end

end Sys2Proof.Machine
end

