-- ==== Sys2Proof/Proofs/Format.lean ====
section
/-! SUPPORT. FORMAT's checks, what the rest of a format's writes leave in each cell, and FORMAT_DONE (R184). -/

namespace Sys2Proof.Machine

/-! ## FORMAT -/

theorem exec_format {h : ReqHead} {s : State} (ha : s.accepts h .format) :
    exec (.format h) s = .next ((s.received h).formatRequest h) := congrArg Host.Outcome.next (request_accepted _ ha)

theorem formatAllowed_iff (s : State) : s.formatAllowed = true ↔
    ∀ a, (s.fire.areas.get a).agentSpent = false ∧ (s.fire.areas.get a).state.late = false := by
  simp only [State.formatAllowed, perArea_all_iff, Bool.and_eq_true, Bool.not_eq_true']

/-- The format mark, handed to the store (R184). -/
def State.marked (s : State) : State := ({ s with store := { s.store with format := .marking } }).persist .status

theorem formatRequest_of_maintenance {h : ReqHead} {s : State} (hm : s.vault.mode = .maintenance) : s.formatRequest h =
    if s.vault.rezone.isSome then s.refuse h .format .busy
    else if s.formatAllowed = false then s.refuse h .format .state
    else (s.marked.answer h .format (s.marked.awaits [.status]) .accepted .none).follow .status .format State.startFormat :=
  if_neg (not_not.2 hm)

/-- ACCEPTED waits on the mark's write, and the format's effect follows it (log 55). -/
theorem formatRequest_of_allowed {h : ReqHead} {s : State} (hm : s.vault.mode = .maintenance) (still : s.vault.rezone = none)
    (calm : s.formatAllowed = true) :
    let v := s.marked
    let w := v.answer h .format (v.awaits [.status]) .accepted .none
    ∃ ticket, (v.awaits [.status]).getLast? = some ticket ∧ s.formatRequest h =
      { w with store := { w.store with followups := w.store.followups ++ [(ticket, .format)] } } := by
  intro v w
  obtain ⟨ticket, ht⟩ : ∃ ticket, (v.store.pendingOf .status).getLast? = some ticket := persist_has_ticket _ rfl
  refine ⟨ticket, by rw [awaits_single, ht], ?_⟩
  rw [formatRequest_of_maintenance hm, still, if_neg (by simp), if_neg (by simp [calm])]
  exact follow_waits (by rw [answer_pendingOf, ht]) _ _

theorem marked_lastWrite (s : State) : s.marked.store.lastWrite .status = some (.status s.store.recorded s.store.flags true) :=
  (persist_lastWrite _ _ _ (folds_of_not_accumulator _ rfl)).trans (if_pos rfl)

theorem marked_inFlight (s : State) : s.marked.store.format.inFlight = true :=
  congrArg FormatPhase.inFlight (persist_store_format .status _)

/-! ## The rest of a format's writes -/

/-- From 61 on the custody records and the key entries take turns. -/
theorem ofAddr_of_high {n : Nat} (h : 61 ≤ n) : StoreRecord.ofAddr n =
    if (n - 61) % 2 = 0 then .custody ((n - 61) / 2) else .key ((n - 61) / 2) := by
  unfold StoreRecord.ofAddr
  iterate 9 rw [if_neg (by omega)]

/-- Every record outside the tables of few records is the one of its number. -/
theorem ofAddr_addr {r : StoreRecord} (h : r ∉ fewRecords) : StoreRecord.ofAddr r.addr = r := by
  rw [mem_fewRecords] at h
  cases r with
  | status => rfl
  | snapshot => rfl
  | custody p =>
    have half : (61 + 2 * p - 61) / 2 = p := by omega
    simp only [StoreRecord.addr]
    rw [ofAddr_of_high (by omega), if_pos (by omega), half]
  | key p =>
    have half : (62 + 2 * p - 61) / 2 = p := by omega
    simp only [StoreRecord.addr]
    rw [ofAddr_of_high (by omega), if_neg (by omega), half]
  | _ => exact absurd ⟨nofun, nofun, rfl⟩ h

theorem addr_lt_formatLimit {r : StoreRecord} (table : r.isCustodyTable = true) (wf : r.wf = true) : r.addr < formatLimit := by
  cases r <;> simp only [StoreRecord.isCustodyTable, Bool.false_eq_true, StoreRecord.wf, decide_eq_true_iff] at table wf
  all_goals simp only [StoreRecord.addr, formatLimit]; omega

theorem finishedCell_eq (st : Store) (k : Nat) (live : StoreRecord → Content) (r : StoreRecord) : st.finishedCell k live r =
    if r.formatted = true ∧ k ≤ r.addr then (st.cell r).write (live r) else st.cell r := by
  simp only [Store.finishedCell, Bool.and_eq_true, decide_eq_true_iff]

/-- A record that is none of those named has its default cell, and is one of the custody table's still to write, or one that
no format writes. -/
theorem unnamed_record {st : Store} {k : Nat} {r : StoreRecord} (h : r ∉ st.namedRecords k) :
    st.cell r = defaultCell st.base r ∧ k ≤ r.addr ∧ (r.formatted = true → r.isCustodyTable = true) := by
  simp only [Store.namedRecords, List.mem_append, not_or, List.mem_map, List.mem_range] at h
  obtain ⟨⟨unlisted, many⟩, later⟩ := h
  refine ⟨cellIn_of_not_mem fun x hx e => unlisted ⟨x, hx, e⟩, ?_, fun formatted => ?_⟩
  · by_contra below
    exact later ⟨r.addr, Nat.lt_of_not_le below, ofAddr_addr many⟩
  · rw [mem_fewRecords] at many
    by_contra other
    refine many ⟨?_, ?_, Bool.eq_false_iff.2 other⟩ <;> rintro rfl <;> cases formatted

/-- The default cell of a record that no format writes does not depend on the store's base. -/
theorem defaultCell_of_unformatted {r : StoreRecord} (h : r.formatted = false) (b c : Nat × Nat) :
    defaultCell b r = defaultCell c r := by
  simp only [defaultCell, h]
  rfl

/-- What is left of a format writes each formatted record from `k` on once, while the custody table is empty (R184). -/
theorem finishFormat_cell_from {st : Store} {k : Nat} {live : StoreRecord → Content} {r : StoreRecord} (wf : r.wf = true)
    (empty : r.isCustodyTable = true → live r = formattedContent r) :
    (st.finishFormat k live).cell r =
      if r.formatted = true ∧ k ≤ r.addr then (st.cell r).write (live r) else st.cell r := by
  rw [← finishedCell_eq]
  refine (cellIn_putCells _ (st.finishedCell k live) (st.namedRecords k) r).trans ?_
  split
  · rfl
  rename_i unnamed
  obtain ⟨default, low, table⟩ := unnamed_record unnamed
  rw [finishedCell_eq, default]
  cases formatted : r.formatted with
  | false => rw [if_neg nofun]; exact defaultCell_of_unformatted formatted _ _
  | true =>
    have high := addr_lt_formatLimit (table formatted) wf
    have base : (st.finishFormat k live).base = nextBase st.base := if_pos (by omega)
    rw [if_pos ⟨rfl, low⟩, empty (table formatted), defaultCell_write _ formatted, ← base]

/-! ## FORMAT_DONE -/

theorem exec_formatDone {s : State} (hp : s.power = .running) : exec .formatDone s = .next s.formatEnd :=
  congrArg Host.Outcome.next (event_running _ hp)

/-- A write handed to an idle store begins at once (R179). -/
theorem persist_of_idle {s : State} {r : StoreRecord} (folds : s.store.folds r = false) (none : s.store.inflight = none)
    (queue : s.store.queue = []) : ∃ j, (s.persist r).store.inflight = some j ∧ j.record = r ∧ j.content = s.liveContent r := by
  refine ⟨⟨s.store.nextTicket, r, s.liveContent r⟩, ?_, rfl, rfl⟩
  simp [State.persist, folds, Store.handOver, none, queue, Store.append, Store.begin]

/-- The tables of a format in effect: no custody record stands, and an idle store has no write waiting. -/
theorem tables_during_format {s : State} {k : Nat} (tables : s.tablesCanonical = true) (format : s.store.format = .writing k)
    (idle : s.store.inflight = none) : s.custody = [] ∧ s.store.queue = [] := by
  obtain ⟨-, -, custody, queue⟩ : cellsWf s.store.base s.store.cells = true ∧ custodyWf s.custody = true ∧
      s.custody = [] ∧ s.store.queue = [] := by
    simpa [State.tablesCanonical, format, idle, and_assoc] using tables
  exact ⟨custody, queue⟩

theorem liveContent_of_empty {s : State} (h : s.custody = []) {r : StoreRecord} (table : r.isCustodyTable = true) :
    s.liveContent r = formattedContent r := by
  cases r with
  | custody p => simp only [State.liveContent, h]; rfl
  | key p => simp only [State.liveContent, h]; rfl
  | _ => cases table

/-- The state with what is left of the format's writes made and the mark cleared. -/
def State.formatFinished (k : Nat) (s : State) : State :=
  { s with store := { s.store.finishFormat k s.liveContent with format := .none } }

theorem formatEnd_of_due {s : State} {k : Nat} (format : s.store.format = .writing k) (idle : s.store.inflight = none) :
    s.formatEnd = ((s.formatFinished k).persist .status).postNotice .formatDone := by
  simp only [State.formatEnd, format, idle]
  rfl

theorem formatEnd_of_not_due {s : State} (h : (∀ k, s.store.format ≠ .writing k) ∨ s.store.inflight.isSome = true) :
    s.formatEnd = s := by
  unfold State.formatEnd
  split
  · rename_i k format idle
    obtain other | busy := h
    · exact absurd format (other k)
    · rw [idle] at busy
      cases busy
  · rfl

/-- Settles O52: FORMAT check by check, the mark and its followup, the emptied blocks part by part, and FORMAT_DONE by the
cells that its writes leave. -/
theorem formatEmptiesTheBlocks : Obligations.FormatEmptiesTheBlocks := by
  refine ⟨?_, fun _ => rfl, ?_, ?_, ?_⟩
  · intro h s ha u c calm
    have mode : u.vault.mode = s.vault.mode := by rw [received_vault]
    have rezone : u.vault.rezone = s.vault.rezone := by rw [received_vault]
    have allowed : u.formatAllowed = true ↔ calm := by rw [formatAllowed_iff, received_fire_areas]
    rw [show exec c s = _ from exec_format ha, ← mode, ← rezone]
    refine ⟨fun hm => congrArg _ (if_pos hm), fun hm busy => congrArg _ ?_, fun hm still loud => congrArg _ ?_, ?_⟩
    · rw [formatRequest_of_maintenance hm, if_pos busy]
    · rw [formatRequest_of_maintenance hm, still, if_neg (by simp),
        if_pos (Bool.eq_false_iff.2 fun q => loud (allowed.1 q))]
    · intro hm still quiet v w
      obtain ⟨ticket, last, request⟩ := formatRequest_of_allowed (h := h) hm still (allowed.2 quiet)
      refine ⟨marked_inFlight u, ?_, ticket, last, congrArg _ request⟩
      rw [show v.store.lastWrite .status = _ from marked_lastWrite u, received_store]
  · intro s
    obtain ⟨custody, consign, staging, entries⟩ := emptyBlocks_emptied s
    have accumulators := emptyBlocks_accumulators s
    have store := emptyBlocks_store s
    have climate := emptyBlocks_climate s
    have vault := emptyBlocks_vault s
    have power := emptyBlocks_power s
    have detectors := fun d : Detector => (emptyBlocks_detector s d).trans (defaulted_eq d _)
    have areas := emptyBlocks_area s
    generalize s.emptyBlocks = t' at *
    intro t
    refine ⟨custody, accumulators, by rw [consign], fun i => by rw [consign]; exact tabulate_get _ i, by rw [staging],
      by rw [staging], by rw [staging], fun n => by rw [staging]; exact tabulate_get _ n, entries, store.1,
      fun i => by rw [vault]; exact tabulate_get _ i, climate.1, fun a => by rw [areas a]; exact ⟨rfl, rfl⟩, detectors,
      areas, by rw [vault], climate.2, store.2.1, store.2.2, power⟩
  · intro k s hp format idle tables
    obtain ⟨custody, queue⟩ := tables_during_format tables format idle
    have due := (exec_formatDone hp).trans (congrArg _ (formatEnd_of_due format idle))
    obtain ⟨j, inflight, record, content⟩ :=
      persist_of_idle (s := s.formatFinished k) (r := .status) (folds_of_not_accumulator _ rfl) idle queue
    refine ⟨_, due, fun r wf => ?_, ?_, ⟨j, ?_, record, content⟩, ?_, ?_⟩
    · have cell := finishFormat_cell_from (st := s.store) (k := k) (live := s.liveContent) wf (liveContent_of_empty custody)
      rw [← cell, postNotice_store]
      unfold Store.cell
      rw [persist_store_cells, persist_store_base]
      rfl
    · rw [postNotice_store, persist_store_format]
      rfl
    · rw [postNotice_store, inflight]
    · exact postNotice_links_congr (by rw [persist_links]; rfl) (by rw [persist_vault]; rfl) _
    · rw [postNotice_frame, persist_frame]
      rfl
  · exact fun s hp h => (exec_formatDone hp).trans (congrArg _ (formatEnd_of_not_due h))

end Sys2Proof.Machine
end

