-- ==== Sys2Proof/Proofs/DebouncedLevels.lean ====
section
/-! SUPPORT. The debounced levels that the blocks hold (R37): the line of a door's contact, and with it the level of every
input, changes with that input alone. -/

namespace Sys2Proof.Machine

/-! ## The doors' contacts (R136) -/

/-- Which doors stand open. -/
def State.doorsOpen (s : State) (w : Side) : Bool := (s.hatch.door w).isOpen

theorem doorsOpen_congr {s t : State} (h : t.hatch = s.hatch) : t.doorsOpen = s.doorsOpen :=
  funext fun w => congrArg (fun k => (HatchUnit.door k w).isOpen) h

section
variable (s : State)

theorem onArbiter_doorsOpen (f : Arbiter → Arbiter) : (s.onArbiter f).doorsOpen = s.doorsOpen := by
  funext w
  cases w <;> rfl

theorem onDoor_doorsOpen (w z : Side) (f : Door → Door) :
    (s.onDoor w f).doorsOpen z = if z = w then (f (s.hatch.door w)).isOpen else s.doorsOpen z := by
  cases w <;> cases z <;> rfl

/-- A change of a door's latch or timer does not move its contact. -/
theorem onDoor_doorsOpen_of_keeps (w : Side) {f : Door → Door} (h : ∀ d, (f d).isOpen = d.isOpen) :
    (s.onDoor w f).doorsOpen = s.doorsOpen := by
  funext z
  rw [onDoor_doorsOpen, h]
  split
  · rename_i same
    rw [same]
    rfl
  · rfl

theorem arbitration_doorsOpen : s.arbitration.1.doorsOpen = s.doorsOpen := by
  unfold State.arbitration
  split
  · rfl
  split
  · rfl
  split
  · exact (onArbiter_doorsOpen _ _).trans (onDoor_doorsOpen_of_keeps _ _ fun _ => rfl)
  · exact onArbiter_doorsOpen _ _

theorem arbitrate_doorsOpen (needs : List Nat) : (s.arbitrate needs).doorsOpen = s.doorsOpen :=
  (doorsOpen_congr (arbitrate_hatch needs s)).trans (arbitration_doorsOpen s)

theorem endExchange_doorsOpen (needs : List Nat) (x : Exchange) (revoked : Bool) :
    (s.endExchange needs x revoked).2.doorsOpen = s.doorsOpen := by
  funext w
  cases w <;> simp [State.doorsOpen, HatchUnit.door]

theorem outerSecured_doorsOpen (needs : List Nat) (ending : Bool) :
    (s.outerSecured needs ending).2.doorsOpen = s.doorsOpen := by
  funext w
  cases w <;> simp [State.doorsOpen, HatchUnit.door]

theorem endPossession_doorsOpen (needs : List Nat) (side : Side) :
    (s.endPossession needs side).2.doorsOpen = s.doorsOpen := by
  have engaged : ∀ g, ((s.onDoor side fun d => { d with released := false }).onArbiter g).doorsOpen = s.doorsOpen := fun g =>
    (onArbiter_doorsOpen _ _).trans (onDoor_doorsOpen_of_keeps _ _ fun _ => rfl)
  cases side with
  | inner => exact engaged _
  | outer => exact (outerSecured_doorsOpen _ _ _).trans (engaged _)

theorem revoke_doorsOpen : s.revoke.2.doorsOpen = s.doorsOpen := by
  have notified : ∀ f, (((s.onArbiter f).notifyRevoked s.hatch.arbiter .inner).notifyRevoked s.hatch.arbiter
      .outer).doorsOpen = s.doorsOpen := fun f => by
    rw [doorsOpen_congr (notifyRevoked_hatch _ _ _), doorsOpen_congr (notifyRevoked_hatch _ _ _), onArbiter_doorsOpen]
  unfold State.revoke
  simp only []
  split
  · split
    · exact (onArbiter_doorsOpen _ _).trans (notified _)
    · rw [endPossession_doorsOpen, onArbiter_doorsOpen]
      exact notified _
  · exact notified _

theorem hatchFireChange_doorsOpen (wasBlocked : Bool) : (s.hatchFireChange wasBlocked).doorsOpen = s.doorsOpen := by
  rw [hatchFireChange_eq]
  split
  · rw [arbitrate_doorsOpen, revoke_doorsOpen]
  · rw [arbitrate_doorsOpen]

/-- A change of an area's fire state moves no contact. -/
theorem changeFire_doorsOpen (a : Area) (new : FireState) : (s.changeFire a new).doorsOpen = s.doorsOpen := by
  unfold State.changeFire State.announceFire
  rw [hatchFireChange_doorsOpen]
  exact doorsOpen_congr (by simp)

/-! ## The level of every input -/

end

/-- An input that the scan takes: a detector's two lines, a call point, the abort-hold switch or a door's contact. -/
inductive ScanInput where
  | lines (d : Detector)
  | call (a : Area)
  | abort
  | contact (w : Side)

/-- The debounced levels of an input as its block holds them. -/
def State.levels (s : State) : ScanInput → List Level
  | .lines d => [s.fire.detectors[d].alarmLine, s.fire.detectors[d].faultLine]
  | .call a => [levelOf (s.fire.areas.get a).callActive]
  | .abort => [levelOf s.fire.abort]
  | .contact w => [levelOf (s.doorsOpen w)]

theorem levels_congr {s t : State}
    (lines : ∀ d : Detector, t.fire.detectors[d].alarmLine = s.fire.detectors[d].alarmLine ∧
      t.fire.detectors[d].faultLine = s.fire.detectors[d].faultLine)
    (call : ∀ a, (t.fire.areas.get a).callActive = (s.fire.areas.get a).callActive)
    (abort : t.fire.abort = s.fire.abort) (contact : t.doorsOpen = s.doorsOpen) : t.levels = s.levels := by
  funext i
  cases i with
  | lines d => rw [State.levels, State.levels, (lines d).1, (lines d).2]
  | call a => rw [State.levels, State.levels, call]
  | abort => rw [State.levels, State.levels, abort]
  | contact w => rw [State.levels, State.levels, contact]

section
variable (s : State)

theorem onInputs_levels (f : Inputs → Inputs) : (s.onInputs f).levels = s.levels := by
  funext i
  cases i <;> rfl

theorem onDetector_levels (d : Detector) {f : DetectorRecord → DetectorRecord}
    (keeps : ∀ x, (f x).alarmLine = x.alarmLine ∧ (f x).faultLine = x.faultLine) : (s.onDetector d f).levels = s.levels := by
  refine levels_congr (fun e => ?_) (fun _ => rfl) rfl rfl
  rw [onDetector_get]
  split
  · rename_i same
    rw [same]
    exact keeps _
  · exact ⟨rfl, rfl⟩

theorem onFireArea_levels (a : Area) {f : FireArea → FireArea} (keeps : ∀ x, (f x).callActive = x.callActive) :
    (s.onFireArea a f).levels = s.levels := by
  refine levels_congr (fun _ => ⟨rfl, rfl⟩) (fun b => ?_) rfl rfl
  rw [onFireArea_get]
  split
  · rename_i same
    rw [same]
    exact keeps _
  · rfl

theorem changeDetector_levels (d : Detector) (x : DetectorState) : (s.changeDetector d x).levels = s.levels := by
  refine levels_congr (fun e => ?_) (fun a => by rw [changeDetector_fire_areas]) (changeDetector_fire_abort _ _ _)
    (doorsOpen_congr (changeDetector_hatch _ _ _))
  rw [changeDetector_get]
  split
  · rename_i same
    rw [same]
    exact ⟨rfl, rfl⟩
  · exact ⟨rfl, rfl⟩

theorem changeFire_levels (a : Area) (new : FireState) : (s.changeFire a new).levels = s.levels := by
  refine levels_congr (fun d => by rw [changeFire_fire_detectors]; exact ⟨rfl, rfl⟩) (fun b => ?_) (changeFire_fire_abort _ _ _)
    (changeFire_doorsOpen _ _ _)
  rw [changeFire_fire_areas, perArea_get_set]
  split
  · rename_i same
    rw [same]
  · rfl

theorem enterCountdown_levels (a : Area) : (s.enterCountdown a).levels = s.levels := changeFire_levels _ _ _

theorem alarmEntry_levels (d : Detector) : (s.alarmEntry d).levels = s.levels := by
  cases assigned : s.fire.detectors[d].assignment with
  | none => rw [alarmEntry_of_unassigned assigned]
  | some a =>
    rw [alarmEntry_of_assigned assigned]
    split
    · rfl
    · exact changeFire_levels _ _ _

theorem evaluateDetector_levels (d : Detector) : (s.evaluateDetector d).levels = s.levels := by
  unfold State.evaluateDetector
  simp only []
  split
  · rw [alarmEntry_levels, changeDetector_levels]
  · rw [changeDetector_levels]

theorem callEvent_levels (a : Area) : (s.callEvent a).levels = s.levels := by
  cases latch : (s.fire.areas.get a).callLatch with
  | true => rw [callEvent_of_latched latch]
  | false =>
    rw [callEvent_of_clear latch]
    have latched := onFireArea_levels s a (f := fun x => { x with callLatch := true }) fun _ => rfl
    simp only []
    split
    · exact latched
    · rw [enterCountdown_levels, latched]

theorem holdArea_levels (a : Area) : (s.holdArea a).levels = s.levels := by
  unfold State.holdArea
  split
  · exact changeFire_levels _ _ _
  all_goals rfl

theorem resumeArea_levels (a : Area) : (s.resumeArea a).levels = s.levels := by
  unfold State.resumeArea
  split
  · exact changeFire_levels _ _ _
  · rfl

/-- The re-taking scan moves no level (R53). -/
theorem retakeInputs_levels : s.retakeInputs.levels = s.levels := by
  have detector : ∀ (t : State) d, (t.retakeDetector d).levels = t.levels := fun t d => by
    have cleared := onDetector_levels t d (f := fun y => { y with retake := false }) fun _ => ⟨rfl, rfl⟩
    cases h : t.fire.detectors[d].retaken with
    | true => rw [retakeDetector_of_retaken h, alarmEntry_levels, changeDetector_levels, cleared]
    | false => rw [retakeDetector_of_not_retaken h, cleared]
  have call : ∀ (t : State) a, (t.retakeCall a).levels = t.levels := fun t a => by
    have cleared := onFireArea_levels t a (f := fun x => { x with callRetake := false }) fun _ => rfl
    unfold State.retakeCall
    simp only []
    split
    · split
      · rw [callEvent_levels, cleared]
      · exact cleared
    · rfl
  exact (foldl_keeps _ State.levels call _ _).trans (foldl_keeps _ State.levels detector _ _)

end

end Sys2Proof.Machine
end

