-- ==== Sys2Proof/Proofs/InputScan.lean ====
section
/-! SUPPORT. The input scan as one fold over its inputs (R37): a step takes its own input's debounced levels, moves no other
input's, and has no effect where they are the levels held. -/

namespace Sys2Proof.Machine

/-- The inputs in the order of the scan (log 16). -/
def ScanInput.all : List ScanInput :=
  Detector.all.map .lines ++ (Area.all.map .call ++ (.abort :: [Side.inner, Side.outer].map .contact))

theorem mem_scanInputs (i : ScanInput) : i ∈ ScanInput.all := by
  cases i with
  | lines d => exact List.mem_append_left _ (List.mem_map_of_mem (mem_detectors d))
  | call a => exact List.mem_append_right _ (List.mem_append_left _ (List.mem_map_of_mem (mem_areas a)))
  | abort => simp [ScanInput.all]
  | contact w => cases w <;> simp [ScanInput.all]

theorem scanInputs_nodup : ScanInput.all.Nodup := by
  have lines : (Detector.all.map ScanInput.lines).Nodup := detectors_nodup.map fun _ _ => ScanInput.lines.inj
  have calls : (Area.all.map ScanInput.call).Nodup := areas_nodup.map fun _ _ => ScanInput.call.inj
  have rest : (ScanInput.abort :: [Side.inner, Side.outer].map ScanInput.contact).Nodup := by simp
  refine List.nodup_append.2 ⟨lines, List.nodup_append.2 ⟨calls, rest, ?_⟩, ?_⟩
  · intro i hi j hj
    obtain ⟨a, -, rfl⟩ := List.mem_map.1 hi
    rintro rfl
    simp at hj
  · intro i hi j hj
    obtain ⟨d, -, rfl⟩ := List.mem_map.1 hi
    rintro rfl
    simp at hj

/-- The debounced levels of an input after a scan of the pins given (R37). -/
def State.takenAt (x : Inputs) (s : State) : ScanInput → List Level
  | .lines d => [x.alarm[d].taken s.fire.detectors[d].alarmLine, x.fault[d].taken s.fire.detectors[d].faultLine]
  | .call a => [(x.call.get a).taken (levelOf (s.fire.areas.get a).callActive)]
  | .abort => [x.abort.taken (levelOf s.fire.abort)]
  | .contact w => [(x.contact w).taken (levelOf (s.doorsOpen w))]

/-- The block that owns an input takes it at a scan. -/
def State.scanAt (x : Inputs) (s : State) : ScanInput → State
  | .lines d => s.scanDetector x d
  | .call a => s.scanCall x a
  | .abort => s.scanAbort x
  | .contact w => s.scanContact x w

/-- The state of a scan before the marked inputs and the reset line. -/
def State.scanAll (x : Inputs) (s : State) : State := ScanInput.all.foldl (State.scanAt x) s

theorem scanAll_eq (x : Inputs) (s : State) : s.scanAll x =
    [Side.inner, Side.outer].foldl (State.scanContact x)
      ((Area.all.foldl (State.scanCall x) (Detector.all.foldl (State.scanDetector x) s)).scanAbort x) := by
  unfold State.scanAll ScanInput.all
  generalize Detector.all = ds
  rw [List.foldl_append, List.foldl_append, List.foldl_map, List.foldl_map, List.foldl_cons, List.foldl_map]
  rfl

theorem scan_of_running {s : State} (hp : s.power = .running) :
    s.scan = ((s.onInputs Inputs.scan).scanAll s.inputs).retakeInputs.scanReset s.inputs := by
  unfold State.scan
  simp only [hp, scanAll_eq]

/-! ## One input -/

theorem takenAt_congr {s t : State} {i : ScanInput} (x : Inputs) (h : s.levels i = t.levels i) :
    s.takenAt x i = t.takenAt x i := by
  cases i with
  | lines d =>
    obtain ⟨alarm, rest⟩ := List.cons.inj h
    obtain ⟨fault, -⟩ := List.cons.inj rest
    rw [State.takenAt, State.takenAt, alarm, fault]
  | call a => rw [State.takenAt, State.takenAt, (List.cons.inj h).1]
  | abort => rw [State.takenAt, State.takenAt, (List.cons.inj h).1]
  | contact w => rw [State.takenAt, State.takenAt, (List.cons.inj h).1]

theorem eq_true_of_levelOf {b : Bool} (h : Level.high = levelOf b) : b = true := by
  cases b
  · cases h
  · rfl

theorem eq_false_of_levelOf {b : Bool} (h : Level.low = levelOf b) : b = false := by
  cases b
  · rfl
  · cases h

theorem detectorLines_of_same {d : Detector} {al fl : Level} {s : State}
    (h : s.fire.detectors[d].alarmLine = al ∧ s.fire.detectors[d].faultLine = fl) : s.detectorLines d al fl = s := if_pos h

theorem detectorLines_of_change {d : Detector} {al fl : Level} {s : State}
    (h : ¬ (s.fire.detectors[d].alarmLine = al ∧ s.fire.detectors[d].faultLine = fl)) : s.detectorLines d al fl =
      (s.onDetector d fun x => { x with alarmLine := al, faultLine := fl }).evaluateDetector d := if_neg h

theorem abortOn_of_active {s : State} (h : s.fire.abort = true) : s.abortOn = s := if_pos h

theorem abortOff_of_released {s : State} (h : s.fire.abort = false) : s.abortOff = s := if_neg (by simp [h])

theorem openDoor_of_open {w : Side} {s : State} (h : s.doorsOpen w = true) : s.openDoor w = s := if_pos h

theorem closeDoor_of_closed {w : Side} {s : State} (h : s.doorsOpen w = false) : s.closeDoor w = s := if_pos h

section
variable {x : Inputs} {s : State}

theorem scanCall_of_high {a : Area} (h : (x.call.get a).taken (levelOf (s.fire.areas.get a).callActive) = .high) :
    s.scanCall x a = s.callPointOn a := by simp only [State.scanCall, h]

theorem scanCall_of_low {a : Area} (h : (x.call.get a).taken (levelOf (s.fire.areas.get a).callActive) = .low) :
    s.scanCall x a = s.callPointOff a := by simp only [State.scanCall, h]

theorem scanAbort_of_high (h : x.abort.taken (levelOf s.fire.abort) = .high) : s.scanAbort x = s.abortOn := by
  simp only [State.scanAbort, h]

theorem scanAbort_of_low (h : x.abort.taken (levelOf s.fire.abort) = .low) : s.scanAbort x = s.abortOff := by
  simp only [State.scanAbort, h]

theorem scanContact_of_high {w : Side} (h : (x.contact w).taken (levelOf (s.doorsOpen w)) = .high) :
    s.scanContact x w = s.openDoor w := by
  unfold State.doorsOpen at h
  simp only [State.scanContact, h]

theorem scanContact_of_low {w : Side} (h : (x.contact w).taken (levelOf (s.doorsOpen w)) = .low) :
    s.scanContact x w = s.closeDoor w := by
  unfold State.doorsOpen at h
  simp only [State.scanContact, h]

/-- A level already held has no effect (log 3). -/
theorem scanAt_of_same {i : ScanInput} (h : s.takenAt x i = s.levels i) : s.scanAt x i = s := by
  cases i with
  | lines d =>
    obtain ⟨alarm, rest⟩ := List.cons.inj h
    exact detectorLines_of_same ⟨alarm.symm, (List.cons.inj rest).1.symm⟩
  | call a =>
    have level := (List.cons.inj h).1
    cases taken : (x.call.get a).taken (levelOf (s.fire.areas.get a).callActive) with
    | high => exact (scanCall_of_high taken).trans (callPointOn_of_active (eq_true_of_levelOf (taken.symm.trans level)))
    | low => exact (scanCall_of_low taken).trans (callPointOff_of_inactive (eq_false_of_levelOf (taken.symm.trans level)))
  | abort =>
    have level := (List.cons.inj h).1
    cases taken : x.abort.taken (levelOf s.fire.abort) with
    | high => exact (scanAbort_of_high taken).trans (abortOn_of_active (eq_true_of_levelOf (taken.symm.trans level)))
    | low => exact (scanAbort_of_low taken).trans (abortOff_of_released (eq_false_of_levelOf (taken.symm.trans level)))
  | contact w =>
    have level := (List.cons.inj h).1
    cases taken : (x.contact w).taken (levelOf (s.doorsOpen w)) with
    | high => exact (scanContact_of_high taken).trans (openDoor_of_open (eq_true_of_levelOf (taken.symm.trans level)))
    | low => exact (scanContact_of_low taken).trans (closeDoor_of_closed (eq_false_of_levelOf (taken.symm.trans level)))

end

/-! ## What a step moves -/

/-- From `s` to `t` an input comes to the levels given, and every other keeps its own. -/
structure MovesTo (s t : State) (i : ScanInput) (new : List Level) : Prop where
  same : t.levels i = new
  other : ∀ j, j ≠ i → t.levels j = s.levels j

section
variable {s t u : State} {i : ScanInput} {new : List Level}

theorem MovesTo.of_levels (h : MovesTo s t i new) (levels : u.levels = t.levels) : MovesTo s u i new :=
  ⟨by rw [levels, h.same], fun j hj => by rw [levels, h.other j hj]⟩

theorem movesTo_self (h : s.levels i = new) : MovesTo s s i new := ⟨h, fun _ _ => rfl⟩

theorem detectorLines_movesTo (d : Detector) (al fl : Level) (s : State) :
    MovesTo s (s.detectorLines d al fl) (.lines d) [al, fl] := by
  by_cases held : s.fire.detectors[d].alarmLine = al ∧ s.fire.detectors[d].faultLine = fl
  · rw [detectorLines_of_same held]
    exact movesTo_self (by rw [State.levels, held.1, held.2])
  · rw [detectorLines_of_change held]
    refine MovesTo.of_levels ⟨?_, fun j hj => ?_⟩ (evaluateDetector_levels _ _)
    · rw [State.levels, onDetector_get, if_pos rfl]
    · cases j with
      | lines e => rw [State.levels, onDetector_get, if_neg fun same => hj (congrArg _ same)]; rfl
      | _ => rfl

theorem callLevel_movesTo (a : Area) (active : Bool) (s : State) :
    MovesTo s (s.onFireArea a fun x => { x with callActive := active }) (.call a) [levelOf active] := by
  refine ⟨by rw [State.levels, onFireArea_get, if_pos rfl], fun j hj => ?_⟩
  cases j with
  | call b => rw [State.levels, onFireArea_get, if_neg fun same => hj (congrArg _ same)]; rfl
  | _ => rfl

theorem callPointOn_movesTo (a : Area) (s : State) : MovesTo s (s.callPointOn a) (.call a) [.high] := by
  cases active : (s.fire.areas.get a).callActive with
  | true =>
    rw [callPointOn_of_active active]
    exact movesTo_self (by rw [State.levels, active]; rfl)
  | false =>
    rw [callPointOn_of_inactive active]
    exact (callLevel_movesTo a true s).of_levels (callEvent_levels _ _)

theorem abortLevel_movesTo (active : Bool) (s : State) :
    MovesTo s { s with fire := { s.fire with abort := active } } .abort [levelOf active] := by
  refine ⟨rfl, fun j hj => ?_⟩
  cases j with
  | abort => exact absurd rfl hj
  | _ => rfl

theorem abortOn_movesTo (s : State) : MovesTo s s.abortOn .abort [.high] := by
  cases active : s.fire.abort with
  | true =>
    rw [abortOn_of_active active]
    exact movesTo_self (by rw [State.levels, active]; rfl)
  | false =>
    have fold : s.abortOn = Area.all.foldl State.holdArea { s with fire := { s.fire with abort := true } } :=
      if_neg (by simp [active])
    rw [fold]
    exact (abortLevel_movesTo true s).of_levels (foldl_keeps _ State.levels holdArea_levels _ _)

theorem abortOff_movesTo (s : State) : MovesTo s s.abortOff .abort [.low] := by
  cases active : s.fire.abort with
  | false =>
    rw [abortOff_of_released active]
    exact movesTo_self (by rw [State.levels, active]; rfl)
  | true =>
    have fold : s.abortOff = Area.all.foldl State.resumeArea { s with fire := { s.fire with abort := false } } :=
      if_pos active
    rw [fold]
    exact (abortLevel_movesTo false s).of_levels (foldl_keeps _ State.levels resumeArea_levels _ _)

/-- What the hatch unit does by itself moves no level but its contacts'. -/
theorem levels_of_hatch (fire : t.fire = s.fire) (doors : t.doorsOpen = s.doorsOpen) : t.levels = s.levels :=
  levels_congr (fun _ => by rw [fire]; exact ⟨rfl, rfl⟩) (fun _ => by rw [fire]) (by rw [fire]) doors

theorem contactLevel_movesTo (w : Side) {f : Door → Door} (s : State) {isOpen : Bool} (h : ∀ d, (f d).isOpen = isOpen) :
    MovesTo s (s.onDoor w f) (.contact w) [levelOf isOpen] := by
  refine ⟨by rw [State.levels, onDoor_doorsOpen, if_pos rfl, h], fun j hj => ?_⟩
  cases j with
  | contact z => rw [State.levels, onDoor_doorsOpen, if_neg fun same => hj (congrArg _ same)]; rfl
  | _ => rfl

theorem normalOpening_levels (w : Side) (s : State) : (s.normalOpening w).levels = s.levels := by
  have cancelled : (s.onArbiter fun a => { a with lapseAt := none }).levels = s.levels :=
    levels_of_hatch rfl (onArbiter_doorsOpen _ _)
  unfold State.normalOpening
  simp only []
  split
  · refine (levels_of_hatch rfl ?_).trans cancelled
    funext z
    cases z <;> rfl
  all_goals exact cancelled

theorem openDoor_movesTo (w : Side) (s : State) : MovesTo s (s.openDoor w) (.contact w) [.high] := by
  cases stands : s.doorsOpen w with
  | true =>
    rw [openDoor_of_open stands]
    exact movesTo_self (by rw [State.levels, stands]; rfl)
  | false =>
    have moved := fun at_ => contactLevel_movesTo w (f := fun d => { d with isOpen := true, openedAt := at_, heldSent := false })
      s (isOpen := true) fun _ => rfl
    refine MovesTo.of_levels (moved (some s.vault.uptime)) ?_
    unfold State.doorsOpen at stands
    unfold State.openDoor
    simp only [stands, Bool.false_eq_true, if_false]
    split
    · exact normalOpening_levels _ _
    · refine (levels_of_hatch (notify_fire _ _ _) (doorsOpen_congr (notify_hatch _ _ _))).trans ?_
      exact levels_of_hatch rfl (onDoor_doorsOpen_of_keeps _ _ fun _ => rfl)

theorem closingLatch_levels (w : Side) (s : State) : (s.closingLatch w).2.levels = s.levels := by
  have engaged : (s.onDoor w fun d => { d with released := false }).levels = s.levels :=
    levels_of_hatch rfl (onDoor_doorsOpen_of_keeps _ _ fun _ => rfl)
  unfold State.closingLatch
  split
  · split
    · exact levels_of_hatch (endPossession_fire _ _ _) (endPossession_doorsOpen _ _ _)
    · rfl
  · cases w with
    | inner => exact engaged
    | outer => exact (levels_of_hatch (outerSecured_fire _ _ _) (outerSecured_doorsOpen _ _ _)).trans engaged

theorem closeDoor_movesTo (w : Side) (s : State) : MovesTo s (s.closeDoor w) (.contact w) [.low] := by
  cases stands : s.doorsOpen w with
  | false =>
    rw [closeDoor_of_closed stands]
    exact movesTo_self (by rw [State.levels, stands]; rfl)
  | true =>
    have moved := contactLevel_movesTo w (f := fun d => { d with isOpen := false, openedAt := none })
      s (isOpen := false) fun _ => rfl
    have unforced : ∀ t : State, (t.onDoor w fun d => { d with forced := false }).levels = t.levels := fun t =>
      levels_of_hatch rfl (onDoor_doorsOpen_of_keeps _ _ fun _ => rfl)
    refine MovesTo.of_levels moved ?_
    unfold State.doorsOpen at stands
    unfold State.closeDoor
    simp only [stands, Bool.true_eq_false, if_false]
    split
    · refine (levels_of_hatch (arbitrate_fire _ _) (arbitrate_doorsOpen _ _)).trans ?_
      exact (unforced _).trans (closingLatch_levels _ _)
    · exact closingLatch_levels _ _

/-- A step of the scan takes its own input's levels and moves no other's. -/
theorem scanAt_movesTo (x : Inputs) (s : State) (i : ScanInput) : MovesTo s (s.scanAt x i) i (s.takenAt x i) := by
  cases i with
  | lines d => exact detectorLines_movesTo d _ _ s
  | call a =>
    cases taken : (x.call.get a).taken (levelOf (s.fire.areas.get a).callActive) with
    | high =>
      rw [State.takenAt, taken, State.scanAt, scanCall_of_high taken]
      exact callPointOn_movesTo a s
    | low =>
      rw [State.takenAt, taken, State.scanAt, scanCall_of_low taken]
      exact callLevel_movesTo a false s
  | abort =>
    cases taken : x.abort.taken (levelOf s.fire.abort) with
    | high =>
      rw [State.takenAt, taken, State.scanAt, scanAbort_of_high taken]
      exact abortOn_movesTo s
    | low =>
      rw [State.takenAt, taken, State.scanAt, scanAbort_of_low taken]
      exact abortOff_movesTo s
  | contact w =>
    cases taken : (x.contact w).taken (levelOf (s.doorsOpen w)) with
    | high =>
      rw [State.takenAt, taken, State.scanAt, scanContact_of_high taken]
      exact openDoor_movesTo w s
    | low =>
      rw [State.takenAt, taken, State.scanAt, scanContact_of_low taken]
      exact closeDoor_movesTo w s

end

theorem scanAt_power (x : Inputs) (s : State) (i : ScanInput) : (s.scanAt x i).power = s.power := by
  cases i with
  | lines d => exact scanDetector_power x s d
  | call a => exact scanCall_power x s a
  | abort => exact scanAbort_power x s
  | contact w => exact scanContact_power x s w

/-! ## All inputs -/

section
variable (x : Inputs)

/-- Each input comes to the levels that the scan takes, whatever the others do before it. -/
theorem foldl_scanAt_levels : ∀ (is : List ScanInput) (s : State), is.Nodup →
    (∀ j ∈ is, (is.foldl (State.scanAt x) s).levels j = s.takenAt x j) ∧
    (∀ j, j ∉ is → (is.foldl (State.scanAt x) s).levels j = s.levels j)
  | [], _, _ => ⟨nofun, fun _ _ => rfl⟩
  | i :: is, s, once => by
    obtain ⟨fresh, once⟩ := List.nodup_cons.1 once
    obtain ⟨taken, kept⟩ := foldl_scanAt_levels is (s.scanAt x i) once
    obtain ⟨same, other⟩ := scanAt_movesTo x s i
    refine ⟨fun j hj => ?_, fun j hj => ?_⟩
    · obtain rfl | later := List.mem_cons.1 hj
      · exact (kept _ fresh).trans same
      · exact (taken j later).trans (takenAt_congr x (other j fun eq => fresh (eq ▸ later)))
    · obtain ⟨ne, notin⟩ := not_or.1 (fun h => hj (List.mem_cons.2 h))
      exact (kept j notin).trans (other j ne)

/-- Inputs that do not change have no effect. -/
theorem foldl_scanAt_of_same : ∀ (is : List ScanInput) (s : State), (∀ j ∈ is, s.takenAt x j = s.levels j) →
    is.foldl (State.scanAt x) s = s
  | [], _, _ => rfl
  | i :: is, s, same => by
    rw [List.foldl_cons, scanAt_of_same (same i List.mem_cons_self)]
    exact foldl_scanAt_of_same is s fun j hj => same j (List.mem_cons_of_mem _ hj)

/-- With one input alone that changes, the scan is that input's step. -/
theorem foldl_scanAt_of_single {i : ScanInput} : ∀ (is : List ScanInput) (s : State), is.Nodup → i ∈ is →
    (∀ j, j ≠ i → s.takenAt x j = s.levels j) → is.foldl (State.scanAt x) s = s.scanAt x i
  | [], _, _, mem, _ => (List.not_mem_nil mem).elim
  | k :: is, s, once, mem, same => by
    obtain ⟨fresh, once⟩ := List.nodup_cons.1 once
    rw [List.foldl_cons]
    by_cases here : k = i
    · subst here
      refine foldl_scanAt_of_same x is _ fun j hj => ?_
      have ne : j ≠ k := fun eq => fresh (eq ▸ hj)
      have kept := (scanAt_movesTo x s k).other j ne
      rw [takenAt_congr x kept, same j ne, kept]
    · rw [scanAt_of_same (same k here)]
      exact foldl_scanAt_of_single is s once ((List.mem_cons.1 mem).resolve_left (Ne.symm here)) same

variable (s : State)

theorem scanAll_levels (i : ScanInput) : (s.scanAll x).levels i = s.takenAt x i :=
  (foldl_scanAt_levels x _ s scanInputs_nodup).1 i (mem_scanInputs i)

theorem scanAll_of_same (same : ∀ j, s.takenAt x j = s.levels j) : s.scanAll x = s :=
  foldl_scanAt_of_same x _ s fun j _ => same j

theorem scanAll_of_single {i : ScanInput} (same : ∀ j, j ≠ i → s.takenAt x j = s.levels j) :
    s.scanAll x = s.scanAt x i := foldl_scanAt_of_single x _ s scanInputs_nodup (mem_scanInputs i) same

end

end Sys2Proof.Machine
end

