-- ==== Sys2Proof/Proofs/DetectorLines.lean ====
section
/-! SUPPORT. A change of a detector's lines, and the input scan as the commands of the inputs that change (R37 to R46). -/

namespace Sys2Proof.Machine

/-! ## DETECTOR_LINE_CHANGE (R39, R41) -/

/-- The pins of a detector's lines rest at the levels given. -/
def State.settleLines (d : Detector) (al fl : Level) (s : State) : State :=
  s.onInputs fun i => { i with alarm := i.alarm.set d ⟨al, al⟩, fault := i.fault.set d ⟨fl, fl⟩ }

section
variable {d : Detector} {al fl : Level} {s : State}

theorem exec_detectorLineChange_of_same (hp : s.power = .running)
    (h : s.fire.detectors[d].alarmLine = al ∧ s.fire.detectors[d].faultLine = fl) :
    exec (.detectorLineChange d al fl) s = .next s := congrArg Host.Outcome.next ((event_running _ hp).trans (if_pos h))

theorem exec_detectorLineChange_of_change (hp : s.power = .running)
    (h : ¬ (s.fire.detectors[d].alarmLine = al ∧ s.fire.detectors[d].faultLine = fl)) :
    exec (.detectorLineChange d al fl) s = .next ((s.settleLines d al fl).detectorLines d al fl) :=
  congrArg Host.Outcome.next ((event_running _ hp).trans (if_neg h))

end

/-- An evaluation by the detector's state and what its lines name (R39, R40, R41). -/
theorem evaluateDetector_cases (d : Detector) (s : State) :
    let x := s.fire.detectors[d]
    (x.state = .isolated ∨ x.state = .alarm ∧ x.assignment.isSome = true → s.evaluateDetector d = s) ∧
    (x.state ≠ .isolated → ¬ (x.state = .alarm ∧ x.assignment.isSome = true) →
      (x.condition.names ≠ .alarm ∨ x.state = .alarm → s.evaluateDetector d = s.changeDetector d x.condition.names) ∧
      (x.condition.names = .alarm → x.state ≠ .alarm →
        s.evaluateDetector d = (s.changeDetector d .alarm).alarmEntry d)) := by
  intro x
  refine ⟨fun kept => evaluateDetector_of_same (evaluated_of_kept kept), fun free unlatched => ?_⟩
  have evaluated : x.evaluated = x.condition.names := evaluated_of_free free unlatched
  rw [← evaluated]
  exact ⟨evaluateDetector_of_no_entry, evaluateDetector_of_entry⟩

/-- A scan samples every pin before it takes any (R37). -/
def State.scanned (s : State) : State := s.onInputs Inputs.scan

theorem scanned_levels (s : State) : s.scanned.levels = s.levels := onInputs_levels _ _

theorem scanned_running {s : State} (hp : s.power = .running) : s.scanned.power = .running := hp

/-! ## A scan in which no input changes -/

theorem retakeInputs_of_unmarked {s : State} (detectors : ∀ d : Detector, s.fire.detectors[d].retake = false)
    (calls : ∀ a, (s.fire.areas.get a).callRetake = false) : s.retakeInputs = s := by
  have detector : ∀ d, s.retakeDetector d = s := fun d => (retakeDetector_eq s d).trans (if_pos (detectors d))
  have call : ∀ a, s.retakeCall a = s := fun a => (retakeCall_eq s a).trans (if_pos (calls a))
  unfold State.retakeInputs
  rw [List.foldl_fixed' detector, List.foldl_fixed' call]

theorem scan_of_high {s : State} (hp : s.power = .running) (high : s.inputs.reset.taken .high = .high) :
    s.scan = (s.scanned.scanAll s.inputs).retakeInputs := by
  rw [scan_of_running hp]
  simp only [State.scanned, State.scanReset, high]

theorem scan_of_low {s : State} (hp : s.power = .running) (low : s.inputs.reset.taken .high = .low) :
    s.scan = (s.scanned.scanAll s.inputs).retakeInputs.resetLow := by
  rw [scan_of_running hp]
  simp only [State.scanned, State.scanReset, low]

theorem scan_levels {s : State} (hp : s.power = .running) (high : s.inputs.reset.taken .high = .high) (i : ScanInput) :
    s.scan.levels i = s.takenAt s.inputs i := by
  rw [scan_of_high hp high, retakeInputs_levels, scanAll_levels]
  exact takenAt_congr _ (congrFun (scanned_levels s) i)

theorem eq_beq_of_levelOf {b : Bool} {l : Level} (h : levelOf b = l) : b = (l == .high) := by
  rw [← h]
  cases b <;> rfl

/-! ## The levels held, input by input -/

/-- What O19 says of each input that does not change. -/
structure State.Unchanged (x : Inputs) (s : State) (skip : ScanInput → Prop) : Prop where
  lines : ∀ d, ¬ skip (.lines d) → x.alarm[d].taken s.fire.detectors[d].alarmLine = s.fire.detectors[d].alarmLine ∧
    x.fault[d].taken s.fire.detectors[d].faultLine = s.fire.detectors[d].faultLine
  call : ∀ a, ¬ skip (.call a) →
    (x.call.get a).taken (levelOf (s.fire.areas.get a).callActive) = levelOf (s.fire.areas.get a).callActive
  abort : ¬ skip .abort → x.abort.taken (levelOf s.fire.abort) = levelOf s.fire.abort
  contact : ∀ w, ¬ skip (.contact w) → (x.contact w).taken (levelOf (s.doorsOpen w)) = levelOf (s.doorsOpen w)

theorem State.Unchanged.takenAt {x : Inputs} {s : State} {skip : ScanInput → Prop} (h : s.Unchanged x skip) (j : ScanInput)
    (hj : ¬ skip j) : s.scanned.takenAt x j = s.scanned.levels j := by
  rw [scanned_levels, takenAt_congr x (congrFun (scanned_levels s) j)]
  cases j with
  | lines d => rw [State.takenAt, State.levels, (h.lines d hj).1, (h.lines d hj).2]
  | call a => rw [State.takenAt, State.levels, h.call a hj]
  | abort => rw [State.takenAt, State.levels, h.abort hj]
  | contact w => rw [State.takenAt, State.levels, h.contact w hj]

/-- A scan in which one input alone changes is that input's step and the re-taking (R37, R53). -/
theorem scan_of_single {s : State} {i : ScanInput} (hp : s.power = .running) (high : s.inputs.reset.taken .high = .high)
    (h : s.Unchanged s.inputs (· = i)) :
    exec .retakeAtScan (s.scanned.scanAt s.inputs i) = .next s.scan := by
  rw [exec_retakeAtScan ((scanAt_power _ _ _).trans (scanned_running hp)), scan_of_high hp high,
    scanAll_of_single s.inputs s.scanned fun j hj => h.takenAt j hj]

theorem acts_of_single {s : State} {i : ScanInput} {c : Instr} (hp : s.power = .running)
    (high : s.inputs.reset.taken .high = .high) (h : s.Unchanged s.inputs (· = i))
    (step : exec c s.scanned = .next (s.scanned.scanAt s.inputs i)) :
    ∃ u, exec c s.scanned = .next u ∧ exec .retakeAtScan u = .next s.scan :=
  ⟨_, step, scan_of_single hp high h⟩

/-! ## The commands whose step the scan takes -/

section
variable {s : State}

/-- Pins that a scan has sampled rest where the command would leave them. -/
theorem settleLines_of_scanned (d : Detector) :
    s.scanned.settleLines d s.inputs.alarm[d].now s.inputs.fault[d].now = s.scanned := by
  have kept : ∀ v : Vector Pin 12, (v.map Pin.scan).set d ⟨v[d].now, v[d].now⟩ = v.map Pin.scan := fun v => by
    have sampled : (v.map Pin.scan)[d.val] = ⟨v[d].now, v[d].now⟩ := Vector.getElem_map _ d.isLt
    rw [← sampled]
    exact Vector.set_getElem_self d.isLt
  refine onInputs_of_same ?_
  simp only [State.scanned, State.onInputs, Inputs.scan, kept]

theorem settleCall_of_scanned (a : Area) :
    s.scanned.settleCall a (s.inputs.call.get a).now = s.scanned := by
  refine onInputs_of_same ?_
  have sampled : (s.inputs.call.map Pin.scan).get a = Pin.settled (s.inputs.call.get a).now := perArea_get_map _ _ _
  simp only [State.scanned, State.onInputs, Inputs.scan, ← sampled, perArea_set_get]

theorem settleAbort_of_scanned : s.scanned.settleAbort s.inputs.abort.now = s.scanned :=
  onInputs_of_same rfl

theorem settleContact_of_scanned (w : Side) :
    s.scanned.settleContact w (s.inputs.contact w).now = s.scanned := by
  refine onInputs_of_same ?_
  cases w <;> rfl

theorem exec_lines_of_agree {d : Detector} (hp : s.power = .running) (alarm : s.inputs.alarm[d].sample = s.inputs.alarm[d].now)
    (fault : s.inputs.fault[d].sample = s.inputs.fault[d].now) :
    exec (.detectorLineChange d s.inputs.alarm[d].now s.inputs.fault[d].now) s.scanned =
      .next (s.scanned.scanAt s.inputs (.lines d)) := by
  have step : s.scanned.scanAt s.inputs (.lines d) =
      s.scanned.detectorLines d s.inputs.alarm[d].now s.inputs.fault[d].now := by
    rw [State.scanAt, State.scanDetector, taken_of_same alarm, taken_of_same fault]
  rw [step]
  by_cases held : s.scanned.fire.detectors[d].alarmLine = s.inputs.alarm[d].now ∧
      s.scanned.fire.detectors[d].faultLine = s.inputs.fault[d].now
  · rw [exec_detectorLineChange_of_same (scanned_running hp) held, detectorLines_of_same held]
  · rw [exec_detectorLineChange_of_change (scanned_running hp) held, settleLines_of_scanned]

theorem exec_call_of_agree {a : Area} (hp : s.power = .running)
    (agree : (s.inputs.call.get a).sample = (s.inputs.call.get a).now) :
    exec (if (s.inputs.call.get a).now = .high then .callPointOperated a else .callPointInactive a)
        s.scanned = .next (s.scanned.scanAt s.inputs (.call a)) := by
  have settled := settleCall_of_scanned (s := s) a
  have taken := taken_of_same agree (levelOf (s.scanned.fire.areas.get a).callActive)
  cases level : (s.inputs.call.get a).now with
  | high =>
    rw [level] at settled taken
    rw [if_pos rfl, exec_callPointOperated (scanned_running hp), settled, State.scanAt, scanCall_of_high taken]
    split
    · rename_i active
      rw [callPointOn_of_active active]
    · rfl
  | low =>
    rw [level] at settled taken
    rw [if_neg nofun, exec_callPointInactive (scanned_running hp), settled, State.scanAt, scanCall_of_low taken]
    split
    · rfl
    · rename_i inactive
      rw [callPointOff_of_inactive (Bool.eq_false_iff.2 inactive)]

theorem exec_abort_of_agree (hp : s.power = .running) (agree : s.inputs.abort.sample = s.inputs.abort.now) :
    exec (if s.inputs.abort.now = .high then .abortHoldActive else .abortHoldReleased) s.scanned =
      .next (s.scanned.scanAt s.inputs .abort) := by
  have settled := settleAbort_of_scanned (s := s)
  have taken := taken_of_same agree (levelOf s.scanned.fire.abort)
  cases level : s.inputs.abort.now with
  | high =>
    rw [level] at settled taken
    rw [if_pos rfl, exec_abortHoldActive (scanned_running hp), settled, State.scanAt, scanAbort_of_high taken]
    split
    · rename_i active
      rw [abortOn_of_active active]
    · rfl
  | low =>
    rw [level] at settled taken
    rw [if_neg nofun, exec_abortHoldReleased (scanned_running hp), settled, State.scanAt, scanAbort_of_low taken]
    split
    · rfl
    · rename_i released
      rw [abortOff_of_released (Bool.eq_false_iff.2 released)]

theorem exec_doorOpened {w : Side} (hp : s.power = .running) :
    exec (.doorOpened w) s = .next (if s.doorsOpen w then s else (s.settleContact w .high).openDoor w) :=
  congrArg Host.Outcome.next (event_running _ hp)

theorem exec_doorClosed {w : Side} (hp : s.power = .running) :
    exec (.doorClosed w) s = .next (if s.doorsOpen w then (s.settleContact w .low).closeDoor w else s) :=
  congrArg Host.Outcome.next (event_running _ hp)

theorem exec_contact_of_agree {w : Side} (hp : s.power = .running)
    (agree : (s.inputs.contact w).sample = (s.inputs.contact w).now) :
    exec (if (s.inputs.contact w).now = .high then .doorOpened w else .doorClosed w) s.scanned =
      .next (s.scanned.scanAt s.inputs (.contact w)) := by
  have settled := settleContact_of_scanned (s := s) w
  have taken := taken_of_same agree (levelOf (s.scanned.doorsOpen w))
  cases level : (s.inputs.contact w).now with
  | high =>
    rw [level] at settled taken
    rw [if_pos rfl, exec_doorOpened (scanned_running hp), settled, State.scanAt, scanContact_of_high taken]
    split
    · rename_i stands
      rw [openDoor_of_open stands]
    · rfl
  | low =>
    rw [level] at settled taken
    rw [if_neg nofun, exec_doorClosed (scanned_running hp), settled, State.scanAt, scanContact_of_low taken]
    split
    · rfl
    · rename_i closed
      rw [closeDoor_of_closed (Bool.eq_false_iff.2 closed)]

/-- With the reset line LOW twice and no other change, the scan is the re-taking and RESET_LINE (R180). -/
theorem scan_of_reset_line (hp : s.power = .running) (h : s.Unchanged s.inputs fun _ => False)
    (low : s.inputs.reset = ⟨.low, .low⟩) :
    ∃ u, exec .retakeAtScan s.scanned = .next u ∧ exec .resetLineLow u = .next s.scan := by
  have sampled : s.scanned.retakeInputs.inputs.reset = Pin.settled .low := by
    rw [retakeInputs_inputs]
    exact congrArg Pin.scan low
  have settled : (s.scanned.retakeInputs.onInputs fun i => { i with reset := Pin.settled .low }) =
      s.scanned.retakeInputs := onInputs_of_same (by rw [← sampled])
  refine ⟨_, exec_retakeAtScan (scanned_running hp), ?_⟩
  rw [exec_resetLineLow ((retakeInputs_power _).trans (scanned_running hp)), settled, scan_of_low hp (by rw [low]; rfl),
    scanAll_of_same s.inputs s.scanned fun j => h.takenAt j not_false]

end

/-- Settles O19: the change of lines by the evaluation, the entry by the area's state, and the scan as a fold whose steps
move one input each. -/
theorem detectorLinesMoveDetectorAndArea : Obligations.DetectorLinesMoveDetectorAndArea := by
  refine ⟨?_, fun _ _ _ => ⟨changeDetector_of_same, changeDetector_of_ne⟩, fun _ _ => alarmEntry_of_unassigned, ?_,
    fun _ l => ⟨fun h => taken_of_same h l, fun h => taken_of_change h l⟩, ?_, ?_,
    fun _ _ _ _ hp h => exec_detectorLineChange_of_change hp h, ?_⟩
  · intro d al fl s hp x c v active named
    refine ⟨fun alarm fault => exec_detectorLineChange_of_same hp ⟨alarm, fault⟩, fun change => ?_⟩
    have steps : exec c s = .next (v.evaluateDetector d) := by
      have moved : ¬ ((s.settleLines d al fl).fire.detectors[d].alarmLine = al ∧
          (s.settleLines d al fl).fire.detectors[d].faultLine = fl) := change
      exact (exec_detectorLineChange_of_change hp change).trans (congrArg _ (detectorLines_of_change moved))
    have record : v.fire.detectors[d] = { x with alarmLine := al, faultLine := fl } := by rw [onDetector_get, if_pos rfl]; rfl
    have names : v.fire.detectors[d].condition.names = named := by rw [condition_names, record]
    obtain ⟨kept, free⟩ := evaluateDetector_cases d v
    rw [names] at free
    rw [record] at kept free
    rw [steps]
    refine ⟨fun isolated => by rw [kept (.inl isolated)], fun alarm latched => by rw [kept (.inr ⟨alarm, latched⟩)],
      fun loose unlatched => ⟨fun h => ?_, fun h other => ?_⟩⟩
    · rw [(free loose unlatched).1 h]
    · rw [(free loose unlatched).2 h other]
  · intro d a s assigned count x
    have counts : s.fire.alarmCount a = count := rfl
    have entry := alarmEntry_of_assigned assigned
    have late := countdownState_late s
    rw [counts] at entry
    refine ⟨fun quiet two => ?_, fun quiet double one => ?_, fun pre two => ?_, fun pre double one => ?_, fun gone => ?_⟩
    · have early : x.state.late = false := late_of_early (.inl quiet)
      rw [entry, entered_of_two early two, if_neg fun e => by rw [← e, early] at late; cases late]
      rfl
    · have early : x.state.late = false := late_of_early (.inl quiet)
      rw [entry, entered_of_one early double one, if_neg (by rw [show (s.fire.areas.get a).state = _ from quiet]; simp)]
    · have early : x.state.late = false := late_of_early (.inr pre)
      rw [entry, entered_of_two early two, if_neg fun e => by rw [← e, early] at late; cases late]
      rfl
    · rw [entry, entered_of_one (late_of_early (.inr pre)) double one]
      exact if_pos pre
    · rw [entry, entered_of_late gone]
      exact if_pos rfl
  · intro s hp high t x sampled
    have levels := scan_levels hp high
    refine ⟨scan_inputs hp high, fun d => ?_, fun a => ?_, ?_, fun w => ?_⟩
    · obtain ⟨alarm, rest⟩ := List.cons.inj (levels (.lines d))
      exact ⟨alarm, (List.cons.inj rest).1⟩
    · exact eq_beq_of_levelOf (List.cons.inj (levels (.call a))).1
    · exact eq_beq_of_levelOf (List.cons.inj (levels .abort)).1
    · exact eq_beq_of_levelOf (List.cons.inj (levels (.contact w))).1
  · intro s hp high lines call abort contact
    have same : s.Unchanged s.inputs fun _ => False :=
      ⟨fun d _ => ⟨(lines d).1, (lines d).2.1⟩, fun a _ => (call a).1, fun _ => abort, fun w _ => contact w⟩
    rw [scan_of_high hp high, scanAll_of_same s.inputs s.scanned fun j => same.takenAt j not_false]
    exact retakeInputs_of_unmarked (fun d => (lines d).2.2) fun a => (call a).2
  · intro s hp x v alarm fault lines call abort contact agree acts
    refine ⟨fun high => ⟨fun d others calls still doors => ?_, fun a rest others still doors same => ?_,
      fun rest calls doors same => ?_, fun w rest calls still others same => ?_⟩, fun rest calls still doors low => ?_⟩
    · have single : s.Unchanged x (· = .lines d) := ⟨fun e he => others e fun eq => he (congrArg _ eq), fun a _ => calls a,
        fun _ => still, fun w _ => doors w⟩
      exact ⟨scan_of_single hp high single, fun sameAlarm sameFault =>
        acts_of_single hp high single (exec_lines_of_agree hp sameAlarm sameFault)⟩
    · have single : s.Unchanged x (· = .call a) := ⟨fun e _ => rest e, fun b hb => others b fun eq => hb (congrArg _ eq),
        fun _ => still, fun w _ => doors w⟩
      exact acts_of_single hp high single (exec_call_of_agree hp same)
    · have single : s.Unchanged x (· = .abort) := ⟨fun e _ => rest e, fun a _ => calls a, fun h => absurd rfl h,
        fun w _ => doors w⟩
      exact acts_of_single hp high single (exec_abort_of_agree hp same)
    · have single : s.Unchanged x (· = .contact w) := ⟨fun e _ => rest e, fun a _ => calls a, fun _ => still,
        fun z hz => others z fun eq => hz (congrArg _ eq)⟩
      exact acts_of_single hp high single (exec_contact_of_agree hp same)
    · exact scan_of_reset_line hp
        ⟨fun d _ => rest d, fun a _ => calls a, fun _ => still, fun w _ => doors w⟩ low

end Sys2Proof.Machine
end

