-- ==== Sys2Proof/Proofs/Bounds.lean ====
section
/-! SUPPORT. The three invariants on tables, capacities and lists, what they are read from, and that the operations the
blocks share keep each of them (R14, R20, R73, R74, R82, R103, R111, R122, R149, R159, R175, R179, R184). -/

namespace Sys2Proof.Machine

/-! ## The three invariants -/

/-- Which of the three invariants: the tables in canonical form, the queues and counts within their capacities, or the
lists and the counts of records within theirs. -/
inductive Bound where
  | tables | capacity | lists

/-- What the three invariants are read from. -/
structure BoundParts where
  base : Nat × Nat
  cells : List (StoreRecord × Cell)
  format : FormatPhase
  inflight : Option Job
  writes : List Job
  custody : List (Nat × CustodyRecord)
  links : Links
  requests : List QueueEntry
  dropped : Nat
  channels : PerChannel ChannelRecord
  uptime : Nat
  entries : List HatchEntry
  places : Vector (Option Consignment) 16
  accumulators : PerArea Nat
  slots : Vector Slot 32

/-- The parts of the state that the three invariants are read from. -/
def State.boundParts (s : State) : BoundParts :=
  ⟨s.store.base, s.store.cells, s.store.format, s.store.inflight, s.store.queue, s.custody, s.links, s.staging.queue,
    s.climate.dropped, s.climate.channels, s.vault.uptime, s.hatch.entries, s.consign.places, s.accumulators,
    s.staging.slots⟩

/-- The canonical forms: the cells, the custody table, which a format in effect has emptied, and the writes, of which none
waits while none is in flight (R82, R179, R184). -/
structure Canonical (base : Nat × Nat) (cells : List (StoreRecord × Cell)) (format : FormatPhase) (inflight : Option Job)
    (writes : List Job) (custody : List (Nat × CustodyRecord)) : Prop where
  rising : cellsWf base cells = true
  table : custodyWf custody = true
  emptied : format.inEffect = true → custody = []
  idle : inflight = none → writes = []

/-- The queues and counts within their capacities (R14, R17, R20, R103, R175). -/
structure Capacities (links : Links) (requests : List QueueEntry) (dropped : Nat) (channels : PerChannel ChannelRecord)
    (uptime : Nat) : Prop where
  links : ∀ p, (links.get p).withinCapacity = true
  requests : requests.length ≤ Config.queueCapacity
  dropped : dropped ≤ 65535
  channels : ∀ c, (channels.get c).missCount ≤ 255
  uptime : uptime ≤ Config.max32

/-- The lists and the counts of records within their capacities (R73, R74, R111, R122, R149, R159). -/
structure Lists (entries : List HatchEntry) (places : Vector (Option Consignment) 16) (accumulators : PerArea Nat)
    (custody : List (Nat × CustodyRecord)) (slots : Vector Slot 32) : Prop where
  entries : entries.length ≤ Config.hatchCapacity
  places : ∀ (i : Fin 16) c, places[i] = some c → c.within = true
  accumulators : ∀ a, accumulators.get a ≤ Config.max32
  custody : ∀ y ∈ custody, y.2.within = true
  slots : ∀ n : Fin 32, slots[n].within = true

/-- The parts meet an invariant. -/
def BoundParts.meets (x : BoundParts) : Bound → Prop
  | .tables => Canonical x.base x.cells x.format x.inflight x.writes x.custody
  | .capacity => Capacities x.links x.requests x.dropped x.channels x.uptime
  | .lists => Lists x.entries x.places x.accumulators x.custody x.slots

/-- The state meets an invariant. -/
def State.meets (b : Bound) (s : State) : Prop := s.boundParts.meets b

/-! ### The invariants as the statements write them -/

theorem tablesCanonical_iff (s : State) : s.tablesCanonical = true ↔ s.meets .tables := by
  have emptied : (!s.store.format.inEffect || s.custody.isEmpty) = true ↔
      (s.store.format.inEffect = true → s.custody = []) := by
    cases s.store.format.inEffect <;> simp
  have idle : (s.store.inflight.isSome || s.store.queue.isEmpty) = true ↔
      (s.store.inflight = none → s.store.queue = []) := by
    cases s.store.inflight <;> simp
  unfold State.tablesCanonical
  rw [Bool.and_eq_true, Bool.and_eq_true, Bool.and_eq_true, emptied, idle]
  exact ⟨fun ⟨⟨⟨h1, h2⟩, h3⟩, h4⟩ => ⟨h1, h2, h3, h4⟩, fun ⟨h1, h2, h3, h4⟩ => ⟨⟨⟨h1, h2⟩, h3⟩, h4⟩⟩

/-- No value of an area or of a channel passes a limit exactly when each is within it. -/
theorem perArea_none_above {α : Type} (p : PerArea α) (f : α → Nat) (n : Nat) :
    (!p.any fun x => decide (n < f x)) = true ↔ ∀ a, f (p.get a) ≤ n := by
  rw [Bool.not_eq_true', Bool.eq_false_iff, Ne, perArea_any_iff]
  simp

theorem perChannel_none_above {α : Type} (p : PerChannel α) (f : α → Nat) (n : Nat) :
    (!p.any fun x => decide (n < f x)) = true ↔ ∀ c, f (p.get c) ≤ n := by
  rw [Bool.not_eq_true', Bool.eq_false_iff, Ne, perChannel_any_iff]
  simp

theorem withinCapacity_iff (s : State) : s.withinCapacity = true ↔ s.meets .capacity := by
  unfold State.withinCapacity
  simp only [Bool.and_eq_true, decide_eq_true_eq, perChannel_none_above s.climate.channels (·.missCount)]
  constructor
  · rintro ⟨⟨⟨⟨⟨⟨facility, archive⟩, handover⟩, queue⟩, dropped⟩, channels⟩, uptime⟩
    exact ⟨fun p => by cases p <;> assumption, queue, dropped, channels, uptime⟩
  · rintro ⟨links, queue, dropped, channels, uptime⟩
    exact ⟨⟨⟨⟨⟨⟨links .facility, links .archive⟩, links .handover⟩, queue⟩, dropped⟩, channels⟩, uptime⟩

theorem vector_forall_iff {α : Type} {n : Nat} (v : Vector α n) (f : α → Bool) :
    v.all f = true ↔ ∀ i : Fin n, f v[i] = true := by
  rw [Vector.all_eq_true]
  exact ⟨fun h i => h i i.isLt, fun h i hi => h ⟨i, hi⟩⟩

theorem listsWithin_iff (s : State) : s.listsWithin = true ↔ s.meets .lists := by
  have places : (s.consign.places.all fun c => c.all Consignment.within) = true ↔
      ∀ (i : Fin 16) c, s.consign.places[i] = some c → c.within = true := by
    rw [vector_forall_iff]
    refine forall_congr' fun i => ?_
    cases s.consign.places[i] <;> simp
  unfold State.listsWithin
  simp only [Bool.and_eq_true, decide_eq_true_eq, perArea_none_above s.accumulators (fun n => n), places, List.all_eq_true,
    vector_forall_iff s.staging.slots]
  exact ⟨fun ⟨⟨⟨⟨h1, h2⟩, h3⟩, h4⟩, h5⟩ => ⟨h1, h2, h3, h4, h5⟩, fun ⟨h1, h2, h3, h4, h5⟩ => ⟨⟨⟨⟨h1, h2⟩, h3⟩, h4⟩, h5⟩⟩

/-! ### What a state that meets an invariant gives -/

section
variable {b : Bound} {s t : State}

/-- The invariants are read from the bound parts. -/
theorem meets_congr (h : t.boundParts = s.boundParts) : t.meets b ↔ s.meets b := by
  unfold State.meets
  rw [h]

theorem consignment?_place {n : Nat} {i : Fin 16} {c : Consignment} (h : s.consignment? n = some (i, c)) :
    s.consign.places[i] = some c := by
  obtain ⟨j, -, found⟩ := List.exists_of_findSome?_eq_some h
  split at found
  · rename_i d place
    split at found
    · cases found
      exact place
    · cases found
  · cases found

/-- A consignment of the table is within its lists (R122). -/
theorem consignment_within (h : s.meets b) {i : Fin 16} {c : Consignment} (place : s.consign.places[i] = some c)
    (hb : b = .lists) : c.within = true := by
  subst hb
  exact h.places i c place

/-- A record of the table is within its counts (R74). -/
theorem record_within (h : s.meets b) {p : Nat} {r : CustodyRecord} (found : (p, r) ∈ s.custody) (hb : b = .lists) :
    r.within = true := by
  subst hb
  exact h.custody _ found

theorem accumulators_within (h : s.meets b) (hb : b = .lists) (a : Area) : s.accumulators.get a ≤ Config.max32 := by
  subst hb
  exact h.accumulators a

/-! ## Frames of the invariants, part by part -/

/-- Only the capacities see the link units. -/
theorem meets_withLinks {l : Links} (h : s.meets b)
    (hl : (∀ p, (s.links.get p).withinCapacity = true) → ∀ p, (l.get p).withinCapacity = true) :
    State.meets b { s with links := l } := by
  cases b with
  | tables => exact h
  | capacity => exact { h with links := hl h.links }
  | lists => exact h

/-- Only the canonical forms see the queue of writes. -/
theorem meets_withWrites {j : Option Job} {q : List Job} {n : Nat} (h : s.meets b)
    (hq : (s.store.inflight = none → s.store.queue = []) → j = none → q = []) :
    State.meets b { s with store := { s.store with inflight := j, queue := q, nextTicket := n } } := by
  cases b with
  | tables => exact { h with idle := hq h.idle }
  | capacity => exact h
  | lists => exact h

/-- Only the capacities see the check-out queue, and only the lists the slots. -/
theorem meets_withStaging {x : StagingUnit} (h : s.meets b)
    (hq : b = .capacity → x.queue.length ≤ Config.queueCapacity)
    (hs : b = .lists → ∀ n : Fin 32, x.slots[n].within = true) : State.meets b { s with staging := x } := by
  cases b with
  | tables => exact h
  | capacity => exact { h with requests := hq rfl }
  | lists => exact { h with slots := hs rfl }

/-- Only the lists see the consignments. -/
theorem meets_withConsign {x : ConsignTable} (h : s.meets b)
    (hx : b = .lists → ∀ (i : Fin 16) c, x.places[i] = some c → c.within = true) :
    State.meets b { s with consign := x } := by
  cases b with
  | tables => exact h
  | capacity => exact h
  | lists => exact { h with places := hx rfl }

/-- Only the lists see the hatch list. -/
theorem meets_withHatch {x : HatchUnit} (h : s.meets b) (hx : b = .lists → x.entries.length ≤ Config.hatchCapacity) :
    State.meets b { s with hatch := x } := by
  cases b with
  | tables => exact h
  | capacity => exact h
  | lists => exact { h with entries := hx rfl }

/-- The canonical forms and the lists see the custody table. -/
theorem meets_withCustody {x : List (Nat × CustodyRecord)} (h : s.meets b) (wf : b = .tables → custodyWf x = true)
    (emptied : b = .tables → s.store.format.inEffect = true → x = [])
    (within : b = .lists → ∀ y ∈ x, y.2.within = true) : State.meets b { s with custody := x } := by
  cases b with
  | tables => exact { h with table := wf rfl, emptied := emptied rfl }
  | capacity => exact h
  | lists => exact { h with custody := within rfl }

/-! ## Link units (R172, R174, R175) -/

theorem link_within_iff (l : Link) : l.withinCapacity = true ↔
    l.notices.length ≤ Config.noticeCapacity ∧ (l.responses.filter (·.own)).length ≤ Config.ownResponses := by
  simp [Link.withinCapacity]

theorem start_within {l : Link} (h : l.withinCapacity = true) : l.start.withinCapacity = true := by
  rw [link_within_iff] at h ⊢
  obtain ⟨notices, own⟩ := h
  unfold Link.start
  split
  · exact ⟨notices, own⟩
  split
  · rename_i r rs hr
    rw [hr] at own
    exact ⟨notices, ((List.sublist_cons_self r rs).filter _).length_le.trans own⟩
  · rename_i n ns hr hn
    rw [hn] at notices
    exact ⟨(Nat.le_succ _).trans notices, own⟩
  · exact ⟨notices, own⟩

/-- Making room for a FIRE notice takes one notice out (R175). -/
theorem makeFireRoom_length (ns : List Notice) : (makeFireRoom ns).length = ns.length - 1 := by
  unfold makeFireRoom
  split
  · rename_i other
    obtain ⟨n, hn, hf⟩ := List.any_eq_true.1 other
    exact List.length_eraseP_of_mem hn hf
  · exact List.length_tail

theorem joinNotice_within {l : Link} (n : Notice) (h : l.withinCapacity = true) :
    (l.joinNotice n).withinCapacity = true := by
  rw [link_within_iff] at h ⊢
  obtain ⟨notices, own⟩ := h
  unfold Link.joinNotice
  split
  · rename_i room
    exact ⟨by rw [List.length_append]; exact room, own⟩
  split
  · refine ⟨?_, own⟩
    rw [List.length_append, makeFireRoom_length, List.length_singleton]
    have room : 0 < Config.noticeCapacity := by decide
    omega
  · exact ⟨notices, own⟩

theorem joinResponse_within {l : Link} (r : Response) (h : l.withinCapacity = true) :
    (l.joinResponse r).withinCapacity = true := by
  rw [link_within_iff] at h ⊢
  obtain ⟨notices, own⟩ := h
  unfold Link.joinResponse
  split
  · rename_i mine
    split
    · rename_i room
      refine ⟨notices, ?_⟩
      rw [List.filter_append, List.length_append, List.filter_singleton, mine]
      exact room
    · exact ⟨notices, own⟩
  · rename_i mine
    refine ⟨notices, ?_⟩
    rw [List.filter_append, List.filter_singleton, Bool.eq_false_iff.2 mine]
    simpa using own

theorem takeNotice_within {l : Link} (n : Notice) (h : l.withinCapacity = true) : (l.takeNotice n).withinCapacity = true :=
  start_within (joinNotice_within n (start_within h))

theorem takeResponse_within {l : Link} (r : Response) (h : l.withinCapacity = true) :
    (l.takeResponse r).withinCapacity = true := start_within (joinResponse_within r (start_within h))

theorem takeAtRestart_within {l : Link} (n : Notice) (h : l.withinCapacity = true) :
    (l.takeAtRestart n).withinCapacity = true := by
  unfold Link.takeAtRestart
  split
  · exact joinNotice_within n h
  · exact joinNotice_within n (start_within h)

theorem endFrame_within {l : Link} (h : l.withinCapacity = true) : l.endFrame.withinCapacity = true :=
  start_within (start_within h)

theorem onLink_meets {p : Port} {f : Link → Link} (h : s.meets b)
    (hf : ∀ l : Link, l.withinCapacity = true → (f l).withinCapacity = true) : (s.onLink p f).meets b :=
  meets_withLinks h fun within q => by
    rw [links_get_set]
    split
    · exact hf _ (within p)
    · exact within q

theorem startTransmitters_meets (h : s.meets b) : s.startTransmitters.meets b := by
  unfold State.startTransmitters
  split
  · exact meets_withLinks h fun within p => by
      have started := start_within (within p)
      cases p <;> exact started
  · exact h

theorem sendNotice_meets {take : Link → Notice → Link} {n : NoticeBody} (h : s.meets b)
    (ht : ∀ (l : Link) (x : Notice), l.withinCapacity = true → (take l x).withinCapacity = true) :
    (s.sendNotice take n).meets b := by
  refine foldl_invariant (fun s p => State.noticeOn take n p s) (State.meets b) (fun t p ht' => ?_) _ _ h
  unfold State.noticeOn
  split
  · exact onLink_meets ht' fun l => ht l _
  · exact ht'

theorem postNotice_meets {n : NoticeBody} (h : s.meets b) : (s.postNotice n).meets b :=
  sendNotice_meets h fun _ x => takeNotice_within x

theorem noticeAtRestart_meets {n : NoticeBody} (h : s.meets b) : (s.noticeAtRestart n).meets b :=
  sendNotice_meets h fun _ x => takeAtRestart_within x

theorem postResponse_meets {p : Port} {r : Response} (h : s.meets b) : (s.postResponse p r).meets b :=
  onLink_meets h fun _ => takeResponse_within r

theorem deliver_meets {x : Out} (h : s.meets b) : (s.deliver x).meets b := by
  cases x with
  | response p r => exact postResponse_meets h
  | notice n => exact postNotice_meets h

theorem emit_meets {needs : List Nat} {xs : List Out} (h : s.meets b) : (s.emit needs xs).meets b := by
  unfold State.emit
  split
  · exact foldl_invariant _ (State.meets b) (fun _ _ => deliver_meets) _ _ h
  · exact h

theorem notify_meets {needs : List Nat} {n : NoticeBody} (h : s.meets b) : (s.notify needs n).meets b := emit_meets h

theorem answer_meets {r : ReqHead} {k : RequestKind} {needs : List Nat} {c : ResultCode} {d : ResponseData}
    (h : s.meets b) : (s.answer r k needs c d).meets b := emit_meets h

theorem refuse_meets {r : ReqHead} {k : RequestKind} {c : ResultCode} (h : s.meets b) : (s.refuse r k c).meets b :=
  emit_meets h

theorem validFrame_meets {p : Port} (h : s.meets b) : (s.validFrame p).meets b := by
  have taken : (s.onLink p fun l => { l with receiver := .hunting }).meets b := onLink_meets h fun _ hl => hl
  cases p with
  | archive => exact taken
  | handover => exact taken
  | facility =>
    have counted : ∀ lost, State.meets b { s with links := { (s.links.set .facility
        { s.links.facility with receiver := .hunting }) with lastValid := s.vault.uptime, lost := lost } } := fun _ =>
      meets_withLinks h fun within p => by
        have same := within p
        cases p <;> exact same
    simp only [State.validFrame]
    split
    · exact postNotice_meets (counted false)
    · exact counted _

/-! ## The store (R179) -/

/-- Of writes that wait one is begun, so none waits while none is in flight. -/
theorem begin_idle (st : Store) : st.begin.inflight = none → st.begin.queue = [] := by
  unfold Store.begin
  cases hj : st.inflight <;> cases hq : st.queue <;> simp [hj, hq]

theorem handOver_idle {st : Store} {r : StoreRecord} {x : Content} (h : st.inflight = none → st.queue = []) :
    (st.handOver r x).inflight = none → (st.handOver r x).queue = [] := by
  unfold Store.handOver
  split
  · intro none
    show foldWrite r x st.queue = []
    rw [h none]
    rfl
  · exact begin_idle _

theorem persist_meets {r : StoreRecord} (h : s.meets b) : (s.persist r).meets b := by
  unfold State.persist
  split
  · exact h
  · rw [handOver_frame]
    exact meets_withWrites h handOver_idle

theorem persistLast_meets {r : StoreRecord} (h : s.meets b) : (s.persistLast r).meets b := by
  unfold State.persistLast
  rw [append_frame]
  exact meets_withWrites h fun _ => begin_idle _

theorem follow_meets {r : StoreRecord} {f : Followup} {now : State → State} (h : s.meets b)
    (hn : s.meets b → (now s).meets b) : (s.follow r f now).meets b := by
  unfold State.follow
  split
  · exact h
  · exact hn h

end

end Sys2Proof.Machine
end

