-- ==== Sys2Proof/Proofs/BoundTables.lean ====
section
/-! SUPPORT. The tables' writes, the queue and the slots, the consignment test, the arbiter and a change of fire state keep
each of the three invariants. -/

namespace Sys2Proof.Machine

section
variable {b : Bound} {s t : State}

/-! ## Records and consignments within their counts (R74, R122) -/

theorem record_within_iff (r : CustodyRecord) : r.within = true ↔
    (∀ d, r.storedDose = some d → d ≤ Config.max32) ∧ ∀ m, r.mark = some m → m ≤ Config.max32 := by
  unfold CustodyRecord.within
  cases r.storedDose <;> cases r.mark <;> simp

theorem effectiveDose_le {acc : PerArea Nat} {r : CustodyRecord} (dose : ∀ d, r.storedDose = some d → d ≤ Config.max32)
    {d : Nat} (h : effectiveDose acc r = some d) : d ≤ Config.max32 := by
  unfold effectiveDose at h
  split at h
  · cases h
  · rename_i stored hd
    split at h
    · cases h
      exact Nat.min_le_right _ _
    · cases h
      exact dose _ hd

/-- A settle takes the effective dose and an accumulator, both counts of 32 bits (R74, R75). -/
theorem settled_within {r : CustodyRecord} {after : Option Area} (hr : r.within = true)
    (ha : ∀ a, s.accumulators.get a ≤ Config.max32) : (s.settled after r).within = true := by
  refine (record_within_iff _).2 ⟨fun d hd => effectiveDose_le ((record_within_iff r).1 hr).1 hd, fun m hm => ?_⟩
  obtain ⟨a, -, rfl⟩ := Option.map_eq_some_iff.1 hm
  exact ha a

/-- The states in which the mismatch count may stand at the lockout's (R159). -/
def ConsignState.keepsLockout (st : ConsignState) : Bool :=
  st == .lockedOut || st == .cancelled || st == .closed || st == .returning

theorem consign_within_iff (c : Consignment) : c.within = true ↔
    c.outbound.length ≤ Config.outboundCapacity ∧ c.expected ≤ 8 ∧ c.received.length ≤ c.expected ∧
      c.mismatches ≤ Config.lockoutCount ∧ (c.mismatches < Config.lockoutCount ∨ c.state.keepsLockout = true) := by
  simp [Consignment.within, ConsignState.keepsLockout, and_assoc, or_assoc]

theorem mismatches_lt {c : Consignment} (h : c.within = true) (hs : c.state.keepsLockout = false) :
    c.mismatches < Config.lockoutCount := by
  obtain ⟨-, -, -, -, low | kept⟩ := (consign_within_iff c).1 h
  · exact low
  · rw [hs] at kept
    cases kept

/-- A change of state keeps a consignment within its counts, unless it leaves the lockout's states with the count at the
lockout's. -/
theorem within_withState {c : Consignment} {st : ConsignState} (h : c.within = true)
    (hs : c.state.keepsLockout = false ∨ st.keepsLockout = true) : Consignment.within { c with state := st } = true := by
  obtain ⟨outbound, expected, received, count, -⟩ := (consign_within_iff c).1 h
  have low : c.state.keepsLockout = false → c.mismatches < Config.lockoutCount := mismatches_lt h
  exact (consign_within_iff _).2 ⟨outbound, expected, received, count, hs.imp_left low⟩

/-! ## The tables' writes -/

theorem mem_of_placeRecord {p : Nat} {r : CustodyRecord} {x : Nat × CustodyRecord} :
    ∀ {t : List (Nat × CustodyRecord)}, x ∈ placeRecord p r t → x ∈ t ∨ x = (p, r)
  | [], h => .inr (List.mem_singleton.1 h)
  | y :: ys, h => by
    unfold placeRecord at h
    split at h
    · rcases List.mem_cons.1 h with rfl | later
      · exact .inl List.mem_cons_self
      · exact (mem_of_placeRecord later).imp_left (List.mem_cons_of_mem _)
    · split at h
      · exact (List.mem_cons.1 h).elim .inr fun later => .inl (List.mem_cons_of_mem _ later)
      · exact (List.mem_cons.1 h).elim .inr .inl

theorem placed_within {p : Nat} {r : CustodyRecord} (h : s.meets b) (hb : b = .lists) (within : r.within = true) :
    ∀ y ∈ placeRecord p r s.custody, y.2.within = true := by
  intro y hy
  rcases mem_of_placeRecord hy with there | rfl
  · exact record_within h there hb
  · exact within

/-- A record of the table is replaced (R89). -/
theorem putRecord_meets {p : Nat} {r r' : CustodyRecord} (h : s.meets b) (there : (p, r) ∈ s.custody)
    (within : b = .lists → r'.within = true) : (s.putRecord p r').meets b := by
  refine persist_meets (meets_withCustody h (fun hb => ?_) (fun hb effect => ?_) fun hb => placed_within h hb (within hb))
  · subst hb
    exact placeRecord_wf h.table (((custodyWf_iff _).1 h.table).2 _ there) r'
  · subst hb
    have empty : s.custody = [] := h.emptied effect
    rw [empty] at there
    cases there

/-- A record of the table is replaced by one with its dose and its mark. -/
theorem restateRecord_meets {p : Nat} {r r' : CustodyRecord} (h : s.meets b) (there : (p, r) ∈ s.custody)
    (same : r'.storedDose = r.storedDose ∧ r'.mark = r.mark) : (s.putRecord p r').meets b :=
  putRecord_meets h there fun hb => by
    unfold CustodyRecord.within
    rw [same.1, same.2]
    exact record_within h there hb

/-- A record is created at a free place, while no format is in effect (R82, R184). -/
theorem createRecord_meets {p : Nat} {r : CustodyRecord} (h : s.meets b) (place : p < Config.custodyPlaces)
    (format : s.store.format.inEffect = false) (within : b = .lists → r.within = true) : (s.createRecord p r).meets b := by
  refine persistLast_meets (persistLast_meets
    (meets_withCustody h (fun hb => ?_) (fun _ effect => ?_) fun hb => placed_within h hb (within hb)))
  · subst hb
    exact placeRecord_wf h.table place r
  · rw [format] at effect
    cases effect

/-- A record is removed (R93). -/
theorem removeRecord_meets {p : Nat} (h : s.meets b) : (s.removeRecord p).meets b := by
  refine persistLast_meets (persistLast_meets (meets_withCustody h (fun hb => ?_) (fun hb effect => ?_) fun hb y hy => ?_))
  · subst hb
    exact filter_custodyWf h.table _
  · subst hb
    have empty : s.custody = [] := h.emptied effect
    rw [empty]
    rfl
  · exact record_within h (List.mem_filter.1 hy).1 hb

theorem slots_within (h : s.meets b) (hb : b = .lists) (n : Fin 32) : s.staging.slots[n].within = true := by
  subst hb
  exact h.slots n

theorem requests_within (h : s.meets b) (hb : b = .capacity) : s.staging.queue.length ≤ Config.queueCapacity := by
  subst hb
  exact h.requests

theorem entries_within (h : s.meets b) (hb : b = .lists) : s.hatch.entries.length ≤ Config.hatchCapacity := by
  subst hb
  exact h.entries

theorem putSlot_meets {n : Fin 32} {x : Slot} (h : s.meets b) (within : b = .lists → x.within = true) :
    (s.putSlot n x).meets b := by
  refine persist_meets (meets_withStaging h (requests_within h) fun hb m => ?_)
  show (s.staging.slots.set n x)[m].within = true
  rw [vector_getElem_set]
  split
  · exact within hb
  · exact slots_within h hb m

theorem mapSlots_meets {f : Slot → Slot} (h : s.meets b) (hf : ∀ x : Slot, x.within = true → (f x).within = true) :
    (s.mapSlots f).meets b :=
  meets_withStaging h (requests_within h) fun hb n => by
    show (tabulate fun n => f s.staging.slots[n])[n].within = true
    rw [tabulate_get]
    exact hf _ (slots_within h hb n)

theorem putConsign_meets {i : Fin 16} {c : Consignment} (h : s.meets b) (within : b = .lists → c.within = true) :
    (s.putConsign i c).meets b := by
  refine persist_meets (meets_withConsign h fun hb j d place => ?_)
  replace place : (s.consign.places.set i (some c))[j] = some d := place
  rw [vector_getElem_set] at place
  split at place
  · cases place
    exact within hb
  · exact consignment_within h place hb

theorem putEntries_meets {es : List HatchEntry} (h : s.meets b) (within : b = .lists → es.length ≤ Config.hatchCapacity) :
    (s.putEntries es).meets b := persist_meets (meets_withHatch h within)

/-! ## The queue and the slots (R103, R106, R108 to R112) -/

theorem unqueue_meets {l : Label} (h : s.meets b) : (s.unqueue l).meets b :=
  meets_withStaging h (fun hb => (List.length_eraseP_le).trans (requests_within h hb)) (slots_within h)

theorem resumeTest_meets {needs : List Nat} (h : s.meets b) : (s.resumeTest needs).meets b := by
  unfold State.resumeTest
  split
  · exact notify_meets h
  · exact h

theorem holdTest_meets {needs : List Nat} (h : s.meets b) : (s.holdTest needs).meets b := by
  unfold State.holdTest
  split
  · exact notify_meets h
  · exact h

theorem dropEntry_meets {needs : List Nat} {p : Nat} {r : CustodyRecord} {why : DropReason} (h : s.meets b)
    (there : (p, r) ∈ s.custody) : (s.dropEntry needs p r why).meets b :=
  resumeTest_meets (notify_meets (restateRecord_meets (unqueue_meets h) there ⟨rfl, rfl⟩))

theorem pickEntry_meets {needs : List Nat} {p : Nat} {r : CustodyRecord} {a : Area} {n : Fin 32} (h : s.meets b)
    (there : (p, r) ∈ s.custody) : (s.pickEntry needs p r a n).meets b := by
  refine resumeTest_meets (notify_meets (restateRecord_meets (r := r) (unqueue_meets (putSlot_meets h fun _ => rfl)) ?_
    ⟨rfl, rfl⟩))
  rw [unqueue_custody, putSlot_custody]
  exact there

theorem dispatchRound_meets {needs : List Nat} (h : s.meets b) (round : s.dispatchRound needs = some t) : t.meets b := by
  unfold State.dispatchRound at round
  split at round
  · cases round
  split at round
  · rename_i p r a n found _ _
    have there := record_mem found
    split at round
    · cases round
      exact dropEntry_meets h there
    split at round
    · cases round
      exact dropEntry_meets h there
    · cases round
      exact pickEntry_meets h there
  · cases round

theorem dispatchRounds_meets {needs : List Nat} : ∀ (k : Nat) {s : State}, s.meets b → (s.dispatchRounds needs k).meets b
  | 0, _, h => h
  | k + 1, _, h => by
    unfold State.dispatchRounds
    split
    · split
      · rename_i round
        exact dispatchRounds_meets k (dispatchRound_meets h round)
      · exact h
    · exact h

theorem dispatch_meets {needs : List Nat} (h : s.meets b) : (s.dispatch needs).meets b := dispatchRounds_meets _ h

theorem lapsePick_meets {needs : List Nat} {n : Fin 32} (h : s.meets b) : (s.lapsePick needs n).2.meets b := by
  have freed : (s.putSlot n .free).meets b := putSlot_meets h fun _ => rfl
  simp only [State.lapsePick]
  split
  · exact h
  · exact h
  split
  · split
    · rename_i found
      exact dispatch_meets (notify_meets (restateRecord_meets freed (record_mem found) ⟨rfl, rfl⟩))
    · exact dispatch_meets (notify_meets freed)
  · exact h

theorem lapseOverdue_meets (h : s.meets b) : s.lapseOverdue.meets b :=
  foldl_invariant (fun (x : List Nat × State) n => x.2.lapsePick x.1 n) (fun x => x.2.meets b)
    (fun _ _ => lapsePick_meets) slotNumbers ([], s) h

/-! ## The consignment test (R129) -/

theorem testConsign_meets {needs : List Nat} {i : Fin 16} (h : s.meets b) : (s.testConsign needs i).2.meets b := by
  simp only [State.testConsign]
  split
  · exact h
  rename_i c place
  split
  · rename_i counted
    split
    · exact h
    · refine notify_meets (putConsign_meets h fun hb => within_withState (consignment_within h place hb) (.inl ?_))
      rcases counted with e | e | e <;> rw [e] <;> rfl
  split
  · split
    · exact h
    · have within := consignment_within h place
      exact putConsign_meets h within
  · exact h

theorem testNumber_meets {needs : List Nat} {n : Nat} (h : s.meets b) : (s.testNumber needs n).2.meets b := by
  unfold State.testNumber
  split
  · exact testConsign_meets h
  · exact h

theorem testPlaces_meets {needs : List Nat} {is : List (Fin 16)} (h : s.meets b) : (s.testPlaces needs is).2.meets b :=
  foldl_invariant (fun (x : List Nat × State) i => x.2.testConsign x.1 i) (fun x => x.2.meets b)
    (fun _ _ => testConsign_meets) is (needs, s) h

/-! ## The arbiter and the end of an exchange (R142 to R147, R162, R166) -/

theorem arbitration_meets (h : s.meets b) : s.arbitration.1.meets b :=
  (meets_congr (by simp [State.boundParts])).2 h

theorem arbitrate_meets {needs : List Nat} (h : s.meets b) : (s.arbitrate needs).meets b := by
  rw [arbitrate_eq]
  split
  · exact arbitration_meets h
  · exact notify_meets (arbitration_meets h)

theorem onDoor_meets {w : Side} {f : Door → Door} (h : s.meets b) : (s.onDoor w f).meets b :=
  (meets_congr (by simp [State.boundParts])).2 h

theorem holdRecord_meets {l : Label} (h : s.meets b) : (s.holdRecord l).meets b := by
  unfold State.holdRecord
  split
  · rename_i found
    exact restateRecord_meets h (record_mem found) ⟨rfl, rfl⟩
  · exact h

theorem holdEntries_meets (h : s.meets b) : s.holdEntries.meets b :=
  foldl_invariant State.holdRecord (State.meets b) (fun _ _ => holdRecord_meets) _ _
    (putEntries_meets h fun hb => by rw [List.length_map]; exact entries_within h hb)

theorem afterExchange_within {c : Consignment} (r : ExchangeResult) (h : c.within = true) :
    (s.afterExchange c r).within = true := by
  unfold State.afterExchange
  split
  · exact within_withState (st := .returning) h (.inr rfl)
  · exact within_withState (st := .closed) h (.inr rfl)

theorem endExchange_meets {needs : List Nat} {x : Exchange} {revoked : Bool} (h : s.meets b) :
    (s.endExchange needs x revoked).2.meets b := by
  simp only [State.endExchange]
  split
  · exact h
  rename_i i c found
  have within := consignment_within h (consignment?_place found)
  split
  · exact emit_meets (putConsign_meets (holdEntries_meets h) fun hb => afterExchange_within _ (within hb))
  · exact emit_meets (putConsign_meets h fun hb => afterExchange_within _ (within hb))

theorem outerSecured_meets {needs : List Nat} {ending : Bool} (h : s.meets b) :
    (s.outerSecured needs ending).2.meets b := by
  simp only [State.outerSecured]
  split
  · exact h
  split
  · exact endExchange_meets h
  · exact h

theorem endPossession_meets {needs : List Nat} {side : Side} (h : s.meets b) :
    (s.endPossession needs side).2.meets b := by
  have engaged : ((s.onDoor side fun d => { d with released := false }).onArbiter fun a =>
    { a with possession := false, purpose := none, releasePending := false, lapseAt := none }).meets b := onDoor_meets h
  cases side with
  | inner => exact engaged
  | outer => exact outerSecured_meets engaged

theorem notifyRevoked_meets {a : Arbiter} {side : Side} (h : s.meets b) : (s.notifyRevoked a side).meets b := by
  unfold State.notifyRevoked
  split
  · exact notify_meets h
  · exact h

theorem revoke_meets (h : s.meets b) : s.revoke.2.meets b := by
  have told : (((s.onArbiter fun a => { a with pendingInner := none, pendingOuter := false }).notifyRevoked
    s.hatch.arbiter .inner).notifyRevoked s.hatch.arbiter .outer).meets b := notifyRevoked_meets (notifyRevoked_meets h)
  simp only [State.revoke]
  split
  · split
    · exact told
    · exact endPossession_meets told
  · exact told

theorem hatchFireChange_meets {wasBlocked : Bool} (h : s.meets b) : (s.hatchFireChange wasBlocked).meets b := by
  rw [hatchFireChange_eq]
  split
  · exact arbitrate_meets (revoke_meets h)
  · exact arbitrate_meets h

/-! ## A change of fire state (R55) -/

theorem climateFireChange_meets {a : Area} {old : FireState} (h : s.meets b) : (s.climateFireChange a old).meets b :=
  (meets_congr (by simp [State.boundParts])).2 h

theorem announceFire_meets {a : Area} {old : FireState} {wasBlocked : Bool} (h : s.meets b) :
    (s.announceFire a old wasBlocked).meets b := by
  have posted : (s.postNotice (.fireState a (s.fire.areas.get a).state.name)).meets b := postNotice_meets h
  exact hatchFireChange_meets (dispatch_meets (climateFireChange_meets posted))

theorem changeFire_meets {a : Area} {new : FireState} (h : s.meets b) : (s.changeFire a new).meets b :=
  announceFire_meets h

theorem enterCountdown_meets {a : Area} (h : s.meets b) : (s.enterCountdown a).meets b := changeFire_meets h

theorem changeDetector_meets {d : Detector} {x : DetectorState} (h : s.meets b) : (s.changeDetector d x).meets b := by
  unfold State.changeDetector
  split
  · exact h
  · have posted : ((s.onDetector d fun y => { y with state := x }).postNotice (.detector d x)).meets b := postNotice_meets h
    exact posted

end

end Sys2Proof.Machine
end

