-- ==== Sys2Proof/Proofs/BoundFire.lean ====
section
/-! SUPPORT. The fire unit's operations keep each of the three invariants. -/

namespace Sys2Proof.Machine

section
variable {b : Bound} {s t : State}

/-! ## The fire unit -/

theorem onFireArea_meets {a : Area} {f : FireArea → FireArea} (h : s.meets b) : (s.onFireArea a f).meets b := h

theorem onDetector_meets {d : Detector} {f : DetectorRecord → DetectorRecord} (h : s.meets b) :
    (s.onDetector d f).meets b := h

/-- Each way out of an alarm entry leaves the state or changes the area's fire state (R46). -/
theorem alarmEntry_meets {d : Detector} (h : s.meets b) : (s.alarmEntry d).meets b := by
  unfold State.alarmEntry
  split
  · exact h
  simp only []
  split
  · exact enterCountdown_meets h
  · split
    · exact enterCountdown_meets h
    · exact changeFire_meets h
  · exact enterCountdown_meets h
  · split
    · exact enterCountdown_meets h
    · exact h
  all_goals exact h

theorem evaluateDetector_meets {d : Detector} (h : s.meets b) : (s.evaluateDetector d).meets b := by
  simp only [State.evaluateDetector]
  split
  · exact alarmEntry_meets (changeDetector_meets h)
  · exact changeDetector_meets h

theorem detectorLines_meets {d : Detector} {al fl : Level} (h : s.meets b) : (s.detectorLines d al fl).meets b := by
  have taken : (s.onDetector d fun x => { x with alarmLine := al, faultLine := fl }).meets b := h
  simp only [State.detectorLines]
  split
  · exact h
  · exact evaluateDetector_meets taken

theorem detectorChange_meets {d : Detector} {al fl : Level} (h : s.meets b) : (s.detectorChange d al fl).meets b := by
  simp only [State.detectorChange]
  split
  · exact h
  · exact detectorLines_meets h

theorem callEvent_meets {a : Area} (h : s.meets b) : (s.callEvent a).meets b := by
  have latched : (s.onFireArea a fun x => { x with callLatch := true }).meets b := h
  simp only [State.callEvent]
  split
  · exact h
  split
  · exact latched
  · exact enterCountdown_meets latched

theorem callPointOn_meets {a : Area} (h : s.meets b) : (s.callPointOn a).meets b := by
  have active : (s.onFireArea a fun x => { x with callActive := true }).meets b := h
  unfold State.callPointOn
  split
  · exact h
  · exact callEvent_meets active

theorem callPointOff_meets {a : Area} (h : s.meets b) : (s.callPointOff a).meets b := h

theorem callPointOperated_meets {a : Area} (h : s.meets b) :
    (if (s.fire.areas.get a).callActive then s else (s.settleCall a .high).callPointOn a).meets b := by
  have settled : (s.settleCall a .high).meets b := h
  split
  · exact h
  · exact callPointOn_meets settled

theorem callPointInactive_meets {a : Area} (h : s.meets b) :
    (if (s.fire.areas.get a).callActive then (s.settleCall a .low).callPointOff a else s).meets b := by
  have settled : (s.settleCall a .low).meets b := h
  split
  · exact callPointOff_meets settled
  · exact h

theorem holdArea_meets {a : Area} (h : s.meets b) : (s.holdArea a).meets b := by
  unfold State.holdArea
  split
  · exact changeFire_meets h
  all_goals exact h

theorem resumeArea_meets {a : Area} (h : s.meets b) : (s.resumeArea a).meets b := by
  unfold State.resumeArea
  split
  · exact changeFire_meets h
  · exact h

theorem abortOn_meets (h : s.meets b) : s.abortOn.meets b := by
  have active : State.meets b { s with fire := { s.fire with abort := true } } := h
  unfold State.abortOn
  split
  · exact h
  · exact foldl_invariant _ (State.meets b) (fun _ _ => holdArea_meets) _ _ active

theorem abortOff_meets (h : s.meets b) : s.abortOff.meets b := by
  have released : State.meets b { s with fire := { s.fire with abort := false } } := h
  unfold State.abortOff
  split
  · exact foldl_invariant _ (State.meets b) (fun _ _ => resumeArea_meets) _ _ released
  · exact h

theorem abortHoldActive_meets (h : s.meets b) :
    (if s.fire.abort then s else (s.settleAbort .high).abortOn).meets b := by
  have settled : (s.settleAbort .high).meets b := h
  split
  · exact h
  · exact abortOn_meets settled

theorem abortHoldReleased_meets (h : s.meets b) :
    (if s.fire.abort then (s.settleAbort .low).abortOff else s).meets b := by
  have settled : (s.settleAbort .low).meets b := h
  split
  · exact abortOff_meets settled
  · exact h

theorem retakeDetector_meets {d : Detector} (h : s.meets b) : (s.retakeDetector d).meets b := by
  have cleared : (s.onDetector d fun x => { x with retake := false }).meets b := h
  simp only [State.retakeDetector]
  split
  · split
    · exact evaluateDetector_meets cleared
    · exact cleared
  · exact h

theorem retakeCall_meets {a : Area} (h : s.meets b) : (s.retakeCall a).meets b := by
  have cleared : (s.onFireArea a fun x => { x with callRetake := false }).meets b := h
  simp only [State.retakeCall]
  split
  · split
    · exact callEvent_meets cleared
    · exact cleared
  · exact h

theorem retakeInputs_meets (h : s.meets b) : s.retakeInputs.meets b :=
  foldl_invariant _ (State.meets b) (fun _ _ => retakeCall_meets) _ _
    (foldl_invariant _ (State.meets b) (fun _ _ => retakeDetector_meets) _ _ h)

theorem dropLatch_meets {a : Area} {d : Detector} (h : s.meets b) : (s.dropLatch a d).meets b := by
  simp only [State.dropLatch]
  split
  · exact changeDetector_meets h
  · exact h

theorem markRetake_meets {a : Area} {d : Detector} (h : s.meets b) : (s.markRetake a d).meets b := by
  simp only [State.markRetake]
  split
  · exact h
  · exact h

/-- The four steps of R53, then the order of R55. -/
theorem returnToQuiet_meets {a : Area} (h : s.meets b) : (s.returnToQuiet a).meets b := by
  have quiet : (s.onFireArea a fun x => { x with state := .quiet, callLatch := false }).meets b := h
  exact announceFire_meets (onFireArea_meets (foldl_invariant (State.markRetake a) (State.meets b)
    (fun _ _ => markRetake_meets) Detector.all _
    (foldl_invariant (State.dropLatch a) (State.meets b) (fun _ _ => dropLatch_meets) Detector.all _ quiet)))

theorem startPulse_meets {a : Area} (h : s.meets b) : (s.startPulse a).meets b := h

theorem awaitPulse_meets {a : Area} (h : s.meets b) : (s.awaitPulse a).meets b := by
  unfold State.awaitPulse
  split
  · exact h
  · exact startPulse_meets h

theorem dischargeArea_meets {a : Area} (h : s.meets b) : (s.dischargeArea a).meets b := by
  have entered : (s.onFireArea a fun x => { x with state := .discharged, agentSpent := true }).meets b := h
  simp only [State.dischargeArea]
  split
  · split
    · split
      · exact notify_meets (announceFire_meets (persist_meets entered))
      · exact announceFire_meets (awaitPulse_meets (persist_meets entered))
    · exact h
  all_goals exact h

theorem endPulse_meets {a : Area} (h : s.meets b) : (s.endPulse a).meets b := by
  unfold State.endPulse
  (repeat' split) <;> exact h

theorem ventEnd_meets {a : Area} (h : s.meets b) : (s.ventEnd a).meets b := by
  simp only [State.ventEnd]
  split
  · split
    · exact returnToQuiet_meets h
    · exact h
  all_goals exact h

theorem ventArea_meets {a : Area} (h : s.meets b) : (s.ventArea a).meets b := by
  have venting : (s.onFireArea a fun x => { x with state := .venting s.vault.uptime }).meets b := h
  exact announceFire_meets (persist_meets venting)

theorem alarmAfresh_meets {d : Detector} (h : s.meets b) : (s.alarmAfresh d).meets b := by
  unfold State.alarmAfresh
  split
  · exact alarmEntry_meets h
  · exact h

theorem evaluateAfresh_meets {d : Detector} {latched : Bool} (h : s.meets b) : (s.evaluateAfresh d latched).meets b :=
  alarmAfresh_meets (changeDetector_meets h)

/-! ### The fire unit's requests -/

theorem setFireArea_meets {r : ReqHead} {n : Nat} {c : Option Coincidence} {delay vent : Nat} (h : s.meets b) :
    (s.setFireArea r n c delay vent).meets b := by
  simp only [State.setFireArea]
  split
  · exact refuse_meets h
  split
  · rename_i a g _ _
    have set : (s.onFireArea a fun x => { x with settings := g }).meets b := h
    split
    · exact refuse_meets h
    · exact answer_meets (persist_meets set)
  · exact refuse_meets h

theorem setFireDetector_meets {r : ReqHead} {n : Nat} {x : AssignField} {p : Option Polarity} (h : s.meets b) :
    (s.setFireDetector r n x p).meets b := by
  simp only [State.setFireDetector]
  split
  · exact refuse_meets h
  split
  · rename_i d g _ _
    have set : (s.onDetector d (DetectorRecord.withSettings g)).updateTrouble.meets b := h
    split
    · exact refuse_meets h
    · exact follow_meets (answer_meets (persist_meets set)) evaluateAfresh_meets
  · exact refuse_meets h

theorem recharged_meets {r : ReqHead} {n : Nat} (h : s.meets b) : (s.recharged r n).meets b := by
  simp only [State.recharged]
  split
  · exact refuse_meets h
  split
  · exact refuse_meets h
  rename_i a _
  have full : (s.onFireArea a fun x => { x with agentSpent := false }).meets b := h
  split
  · exact refuse_meets h
  split
  · exact answer_meets (persist_meets full)
  · exact answer_meets h

theorem isolate_meets {r : ReqHead} {n : Nat} {on : Option Bool} (h : s.meets b) : (s.isolate r n on).meets b := by
  simp only [State.isolate]
  split
  · have cleared := fun d => onDetector_meets (d := d) (f := fun x => { x with retake := false }) h
    refine answer_meets ?_
    split
    · exact changeDetector_meets (cleared _)
    · split
      · exact alarmEntry_meets (changeDetector_meets (cleared _))
      · exact changeDetector_meets (cleared _)
    · exact (cleared _)
    · exact (cleared _)
  · exact refuse_meets h

theorem confirmArea_meets {r : ReqHead} {n : Nat} (h : s.meets b) : (s.confirmArea r n).meets b := by
  unfold State.confirmArea
  split
  · exact refuse_meets h
  split
  · exact answer_meets (enterCountdown_meets h)
  · exact refuse_meets h

theorem resetArea_meets {r : ReqHead} {n : Nat} (h : s.meets b) : (s.resetArea r n).meets b := by
  simp only [State.resetArea]
  split
  · exact refuse_meets h
  split
  · exact answer_meets h
  · exact answer_meets (returnToQuiet_meets h)
  · exact refuse_meets h
  · exact answer_meets (returnToQuiet_meets h)
  · exact answer_meets (ventArea_meets h)
  · exact refuse_meets h

end

end Sys2Proof.Machine
end

