-- ==== Sys2Proof/Proofs/BoundRequests.lean ====
section
/-! SUPPORT. The requests keep each of the three invariants. -/

namespace Sys2Proof.Machine

section
variable {b : Bound} {s t : State}

/-! ## The vault's and the climate unit's requests -/

theorem answerStatus_meets {r : ReqHead} (h : s.meets b) : (s.answerStatus r).meets b :=
  onLink_meets (answer_meets h) fun _ hl => hl

theorem subscribe_meets {r : ReqHead} {m : Byte} (h : s.meets b) : (s.subscribe r m).meets b := by
  unfold State.subscribe
  split
  · exact answer_meets (onLink_meets h fun _ hl => hl)
  · exact refuse_meets h

theorem areaQuery_meets {r : ReqHead} {n : Nat} (h : s.meets b) : (s.areaQuery r n).meets b := by
  unfold State.areaQuery
  split
  · exact refuse_meets h
  · exact answer_meets h

theorem onArbiter_meets {f : Arbiter → Arbiter} (h : s.meets b) : (s.onArbiter f).meets b := h

theorem removeInner_meets (h : s.meets b) : s.removeInner.meets b := by
  unfold State.removeInner
  split
  · exact notify_meets (onArbiter_meets h)
  · exact h

theorem actOnMode_meets {m : VaultMode} (h : s.meets b) : (s.actOnMode m).meets b := by
  cases m with
  | staffed => exact dispatch_meets h
  | unstaffed => exact removeInner_meets h
  | maintenance => exact removeInner_meets h

theorem changeMode_meets {r : ReqHead} {m : VaultMode} (h : s.meets b) : (s.changeMode r m).meets b := by
  have changed : State.meets b { s with vault := { s.vault with mode := m } } := h
  exact arbitrate_meets (actOnMode_meets (notify_meets (answer_meets changed)))

theorem setMode_meets {r : ReqHead} {m : Option VaultMode} (h : s.meets b) : (s.setMode r m).meets b := by
  unfold State.setMode
  split
  · exact refuse_meets h
  split
  · exact answer_meets h
  split
  · exact refuse_meets h
  split
  · exact refuse_meets h
  · exact changeMode_meets h

theorem setTime_meets {r : ReqHead} {c : Clock} (h : s.meets b) : (s.setTime r c).meets b := by
  have set : State.meets b { s with vault := { s.vault with clock := c, clockSuspect := false } } := h
  exact answer_meets (persist_meets set)

theorem startSweep_meets {k : Nat} (h : s.meets b) : (s.startSweep k).meets b := h

theorem setDescriptor_meets {r : ReqHead} {i : Nat} {e : Option Bool} {v : Location} {n a : Nat} (h : s.meets b) :
    (s.setDescriptor r i e v n a).meets b := by
  have set : ∀ ds, State.meets b { s with vault := { s.vault with descriptors := ds } } := fun _ => h
  unfold State.setDescriptor
  split
  · exact refuse_meets h
  split
  · exact refuse_meets h
  split
  · exact refuse_meets h
  split
  · exact follow_meets (answer_meets (persist_meets (set _))) startSweep_meets
  · exact refuse_meets h

theorem setClimate_meets {r : ReqHead} {n : Nat} {f : ClimateSettings} (h : s.meets b) : (s.setClimate r n f).meets b := by
  have set : ∀ gs, State.meets b { s with climate := { s.climate with settings := gs } } := fun _ => h
  unfold State.setClimate
  split
  · exact refuse_meets h
  split
  · exact refuse_meets h
  · exact answer_meets (persist_meets (set _))

theorem onControl_meets {a : Area} {f : AreaControl → AreaControl} (h : s.meets b) : (s.onControl a f).meets b := h

theorem clearClimateFlags_meets {r : ReqHead} {n : Nat} (h : s.meets b) : (s.clearClimateFlags r n).meets b := by
  unfold State.clearClimateFlags
  split
  · exact refuse_meets h
  · exact answer_meets (onControl_meets h)

/-! ## The custody unit's requests -/

theorem inEffect_of_inFlight {f : FormatPhase} (h : f.inFlight = false) : f.inEffect = false := by
  cases f with
  | none => rfl
  | marking => cases h
  | writing k => cases h

theorem freePlace_below {p : Nat} (h : s.freePlace = some p) : p < Config.custodyPlaces := by
  simp only [State.freePlace] at h
  split at h
  · rename_i free
    cases h
    exact free.2
  · cases h

/-- A record of ENROL has the dose 0 and an accumulator as its mark. -/
theorem enrolledAt_within {label : Label} {l : Location} (ha : ∀ a, s.accumulators.get a ≤ Config.max32) :
    (s.enrolledAt label l).within = true :=
  (record_within_iff _).2 ⟨fun d hd => by cases hd; exact Nat.zero_le _, fun m hm => by cases hm; exact ha _⟩

theorem shelvedAt_within {l : Location} {r : CustodyRecord} (hr : r.within = true)
    (ha : ∀ a, s.accumulators.get a ≤ Config.max32) : (s.shelvedAt l r).within = true :=
  settled_within (after := some (s.resolve l)) hr ha

theorem enrol_meets {r : ReqHead} {l : Label} {x : Location} (h : s.meets b) (format : s.store.format.inFlight = false) :
    (s.enrol r l x).meets b := by
  unfold State.enrol
  split
  · exact refuse_meets h
  split
  · exact refuse_meets h
  split
  · exact refuse_meets h
  · rename_i place
    exact answer_meets (createRecord_meets h (freePlace_below place) (inEffect_of_inFlight format) fun hb =>
      enrolledAt_within (accumulators_within h hb))

theorem retire_meets {r : ReqHead} {l : Label} (h : s.meets b) : (s.retire r l).meets b := by
  unfold State.retire
  split
  · exact refuse_meets h
  split
  · exact refuse_meets h
  split
  · exact answer_meets (removeRecord_meets h)
  · exact refuse_meets h

theorem relocate_meets {r : ReqHead} {l : Label} {x : Location} (h : s.meets b) : (s.relocate r l x).meets b := by
  unfold State.relocate
  split
  · exact refuse_meets h
  split
  · exact refuse_meets h
  rename_i found
  have there := record_mem found
  split
  · exact answer_meets (putRecord_meets h there fun hb =>
      shelvedAt_within (record_within h there hb) (accumulators_within h hb))
  split
  · exact answer_meets (putRecord_meets h there fun hb =>
      enrolledAt_within (label := l) (l := x) (accumulators_within h hb))
  · exact refuse_meets h

theorem custodyQuery_meets {r : ReqHead} {l : Label} (h : s.meets b) : (s.custodyQuery r l).meets b := by
  unfold State.custodyQuery
  split
  · exact refuse_meets h
  split
  · exact refuse_meets h
  rename_i found
  split
  · exact answer_meets (restateRecord_meets h (record_mem found) ⟨rfl, rfl⟩)
  · exact answer_meets h

theorem doseReset_meets {r : ReqHead} {l : Label} (h : s.meets b) : (s.doseReset r l).meets b := by
  unfold State.doseReset
  split
  · exact refuse_meets h
  split
  · exact refuse_meets h
  rename_i p x found
  split
  · exact refuse_meets h
  · refine answer_meets (putRecord_meets h (record_mem found) fun hb => (record_within_iff _).2
      ⟨fun d hd => ?_, fun m hm => ?_⟩)
    · cases hd
      exact Nat.zero_le _
    · obtain ⟨a, -, rfl⟩ := Option.map_eq_some_iff.1 hm
      exact accumulators_within h hb a

/-! ## The staging unit's requests -/

theorem enqueue_meets {q : ReqHead} {p : Nat} {r : CustodyRecord} (h : s.meets b) (there : (p, r) ∈ s.custody)
    (room : s.staging.queue.length < Config.queueCapacity) : (s.enqueue q p r).meets b := by
  have joined : State.meets b { s with staging := { s.staging with
      queue := s.staging.queue ++ [⟨r.label, s.vault.clock⟩] } } :=
    meets_withStaging h (fun _ => by rw [List.length_append]; exact room) (slots_within h)
  exact dispatch_meets (holdTest_meets (answer_meets (restateRecord_meets joined there ⟨rfl, rfl⟩)))

theorem checkout_meets {q : ReqHead} {l : Label} (h : s.meets b) : (s.checkout q l).meets b := by
  unfold State.checkout
  split
  · exact refuse_meets h
  split
  · exact refuse_meets h
  split
  · exact refuse_meets h
  rename_i found
  have there := record_mem found
  split
  · exact refuse_meets h
  split
  · exact refuse_meets h
  split
  · exact refuse_meets h
  split
  · exact answer_meets (restateRecord_meets h there ⟨rfl, rfl⟩)
  split
  · exact refuse_meets h
  · rename_i room
    exact enqueue_meets h there (Nat.lt_of_not_le room)

theorem freeSlotOf_meets {r : CustodyRecord} (h : s.meets b) : (s.freeSlotOf r).meets b := by
  unfold State.freeSlotOf
  split
  · exact putSlot_meets h fun _ => rfl
  · exact h

@[simp] theorem freeSlotOf_custody (r : CustodyRecord) (s : State) : (s.freeSlotOf r).custody = s.custody := by
  unfold State.freeSlotOf
  split
  · exact putSlot_custody _ _ _
  · rfl

theorem cancel_meets {q : ReqHead} {l : Label} (h : s.meets b) : (s.cancel q l).meets b := by
  unfold State.cancel
  split
  · exact refuse_meets h
  split
  · exact refuse_meets h
  rename_i p r found
  have there := record_mem found
  split
  · exact resumeTest_meets (answer_meets (restateRecord_meets (r := r) (unqueue_meets h) there ⟨rfl, rfl⟩))
  split
  · refine dispatch_meets (answer_meets (restateRecord_meets (r := r) (freeSlotOf_meets h) ?_ ⟨rfl, rfl⟩))
    rw [freeSlotOf_custody]
    exact there
  · exact refuse_meets h

theorem placeInSlot_meets {q : ReqHead} {p : Nat} {r : CustodyRecord} {n : Fin 32} (h : s.meets b)
    (there : (p, r) ∈ s.custody) : (s.placeInSlot q p r n).meets b := by
  refine answer_meets (putRecord_meets (r := r) (putSlot_meets h fun _ => rfl) ?_ fun hb =>
    settled_within (after := some .staging) (record_within h there hb) (accumulators_within h hb))
  rw [putSlot_custody]
  exact there

theorem placed_meets {q : ReqHead} {l : Label} {n : Nat} (h : s.meets b) : (s.placed q l n).meets b := by
  unfold State.placed
  split
  · exact refuse_meets h
  split
  · exact refuse_meets h
  split
  · exact refuse_meets h
  split
  · exact refuse_meets h
  rename_i found
  split
  · exact refuse_meets h
  split
  · exact refuse_meets h
  · exact placeInSlot_meets h (record_mem found)

/-- An outbound list within its capacity keeps a consignment within its counts. -/
theorem within_withOutbound {c : Consignment} {ls : List Label} (h : c.within = true)
    (len : ls.length ≤ Config.outboundCapacity) : Consignment.within { c with outbound := ls } = true := by
  obtain ⟨-, rest⟩ := (consign_within_iff c).1 h
  exact (consign_within_iff _).2 ⟨len, rest⟩

/-- A label that leaves the outbound list keeps a consignment within its counts. -/
theorem within_erase {c : Consignment} (l : Label) (h : c.within = true) :
    Consignment.within { c with outbound := c.outbound.erase l } = true :=
  within_withOutbound h (List.length_erase_le.trans ((consign_within_iff c).1 h).1)

theorem leaveOpenConsignment_meets {r : CustodyRecord} (h : s.meets b) : (s.leaveOpenConsignment r).meets b := by
  unfold State.leaveOpenConsignment
  split
  · exact h
  split
  · exact h
  rename_i found
  split
  · exact putConsign_meets h fun hb => within_erase _ (consignment_within h (consignment?_place found) hb)
  · exact h

@[simp] theorem leaveOpenConsignment_custody (r : CustodyRecord) (s : State) :
    (s.leaveOpenConsignment r).custody = s.custody := by
  unfold State.leaveOpenConsignment
  (repeat' split) <;> simp

theorem shelve_meets {q : ReqHead} {p : Nat} {r : CustodyRecord} {l : Location} (h : s.meets b)
    (there : (p, r) ∈ s.custody) : (s.shelve q p r l).meets b := by
  refine dispatch_meets (answer_meets (putRecord_meets (r := r) (freeSlotOf_meets (leaveOpenConsignment_meets h)) ?_
    fun hb => shelvedAt_within (record_within h there hb) (accumulators_within h hb)))
  rw [freeSlotOf_custody, leaveOpenConsignment_custody]
  exact there

theorem shelved_meets {q : ReqHead} {l : Label} {x : Location} (h : s.meets b) : (s.shelved q l x).meets b := by
  unfold State.shelved
  split
  · exact refuse_meets h
  split
  · exact refuse_meets h
  split
  · exact refuse_meets h
  rename_i found
  split
  · exact refuse_meets h
  split
  · exact refuse_meets h
  · exact shelve_meets h (record_mem found)

theorem slotQuery_meets {q : ReqHead} {n : Nat} (h : s.meets b) : (s.slotQuery q n).meets b := by
  unfold State.slotQuery
  split
  · exact refuse_meets h
  · exact answer_meets h

theorem setStaging_meets {q : ReqHead} {f : StagingFields} (h : s.meets b) : (s.setStaging q f).meets b := by
  have set : ∀ g, State.meets b { s with staging := { s.staging with settings := g } } := fun _ => h
  unfold State.setStaging
  split
  · exact refuse_meets h
  split
  · exact refuse_meets h
  · refine follow_meets ?_ lapseOverdue_meets
    split
    · exact answer_meets (persist_meets (set _))
    · exact dispatch_meets (answer_meets (persist_meets (set _)))

/-! ## The consignment requests -/

theorem answerConsign_meets {q : ReqHead} {k : RequestKind} {rs : List StoreRecord} {d : ResponseData} {c : Consignment}
    (h : s.meets b) : (s.answerConsign q k rs d c).meets b := arbitrate_meets (notify_meets (answer_meets h))

theorem opened_within {number courier expected : Nat} {now : Clock} (h : expected ≤ 8) :
    (Consignment.opened number courier expected now).within = true :=
  (consign_within_iff _).2 ⟨Nat.zero_le _, h, Nat.zero_le _, Nat.zero_le _, .inl (Nat.zero_lt_succ 2)⟩

theorem withCounter_meets {n : Nat} (h : s.meets b) :
    State.meets b { s with consign := { s.consign with counter := n } } := h

theorem consignOpen_meets {q : ReqHead} {courier expected : Nat} (h : s.meets b) :
    (s.consignOpen q courier expected).meets b := by
  unfold State.consignOpen
  split
  · exact refuse_meets h
  split
  · exact refuse_meets h
  rename_i fits
  split
  · exact refuse_meets h
  · exact answerConsign_meets (persist_meets (withCounter_meets (putConsign_meets h fun _ =>
      opened_within (Nat.le_of_not_lt fun more => fits (.inr more)))))

theorem bindRecord_meets {p : Nat} {r : CustodyRecord} {n : Option Nat} (h : s.meets b) (there : (p, r) ∈ s.custody) :
    (s.bindRecord p r n).meets b := restateRecord_meets h there ⟨rfl, rfl⟩

theorem consignAdd_meets {q : ReqHead} {n : Nat} {l : Label} (h : s.meets b) : (s.consignAdd q n l).meets b := by
  unfold State.consignAdd
  split
  · exact refuse_meets h
  split
  · exact refuse_meets h
  split
  · exact refuse_meets h
  rename_i i c found
  split
  · exact refuse_meets h
  split
  · exact refuse_meets h
  rename_i p r known
  split
  · exact refuse_meets h
  split
  · exact refuse_meets h
  split
  · exact refuse_meets h
  rename_i room
  refine answer_meets (bindRecord_meets (putConsign_meets h fun hb => ?_) ?_)
  · refine within_withOutbound (consignment_within h (consignment?_place found) hb) ?_
    rw [List.length_append]
    exact Nat.lt_of_not_le room
  · rw [putConsign_custody]
    exact record_mem known

theorem consignRemove_meets {q : ReqHead} {n : Nat} {l : Label} (h : s.meets b) : (s.consignRemove q n l).meets b := by
  simp only [State.consignRemove]
  split
  · exact refuse_meets h
  split
  · exact refuse_meets h
  split
  · exact refuse_meets h
  rename_i found
  split
  · exact refuse_meets h
  split
  · exact refuse_meets h
  have left := fun hb => within_erase l (consignment_within h (consignment?_place found) hb)
  split
  · exact answer_meets (putConsign_meets h left)
  · rename_i known
    refine answer_meets ?_
    split
    · exact bindRecord_meets (putConsign_meets h left) (record_mem known)
    · exact putConsign_meets h left

theorem consignSeal_meets {q : ReqHead} {n : Nat} (h : s.meets b) : (s.consignSeal q n).meets b := by
  unfold State.consignSeal
  split
  · exact refuse_meets h
  split
  · exact refuse_meets h
  split
  · exact refuse_meets h
  rename_i i c found
  split
  · exact refuse_meets h
  rename_i opened
  split
  · exact refuse_meets h
  split
  · exact refuse_meets h
  · have low : c.state.keepsLockout = false := by
      rw [Decidable.not_not.1 opened]
      rfl
    refine answerConsign_meets (putConsign_meets h fun hb => ?_)
    exact within_withState (consignment_within h (consignment?_place found) hb) (.inl low)

/-- With the mismatch count at 0 a consignment may take any state. -/
theorem within_cleared {c : Consignment} {st : ConsignState} (h : c.within = true) :
    Consignment.within { c with state := st, mismatches := 0 } = true := by
  obtain ⟨outbound, expected, received, -⟩ := (consign_within_iff c).1 h
  exact (consign_within_iff _).2 ⟨outbound, expected, received, Nat.zero_le _, .inl (Nat.zero_lt_succ 2)⟩

theorem consignUnlock_meets {q : ReqHead} {n : Nat} (h : s.meets b) : (s.consignUnlock q n).meets b := by
  unfold State.consignUnlock
  split
  · exact refuse_meets h
  split
  · exact refuse_meets h
  split
  · exact refuse_meets h
  rename_i found
  split
  · refine answerConsign_meets (putConsign_meets h fun hb => ?_)
    exact within_cleared (consignment_within h (consignment?_place found) hb)
  · exact refuse_meets h

theorem unbind_meets {n : Nat} {l : Label} (h : s.meets b) : (s.unbind n l).meets b := by
  unfold State.unbind
  split
  · rename_i known
    split
    · exact bindRecord_meets h (record_mem known)
    · exact h
  · exact h

theorem consignCancel_meets {q : ReqHead} {n : Nat} (h : s.meets b) : (s.consignCancel q n).meets b := by
  unfold State.consignCancel
  split
  · exact refuse_meets h
  split
  · exact refuse_meets h
  split
  · exact refuse_meets h
  rename_i found
  split
  · exact refuse_meets h
  split
  · exact refuse_meets h
  · refine answerConsign_meets (putConsign_meets
      (foldl_invariant _ (State.meets b) (fun _ _ => unbind_meets) _ _ h) fun hb => ?_)
    exact within_withState (st := .cancelled) (consignment_within h (consignment?_place found) hb) (.inr rfl)

theorem consignQuery_meets {q : ReqHead} {n : Nat} (h : s.meets b) : (s.consignQuery q n).meets b := by
  unfold State.consignQuery
  split
  · exact refuse_meets h
  split
  · exact refuse_meets h
  · exact answer_meets h

/-! ## The hatch unit's requests -/

theorem answerHatch_meets {q : ReqHead} {side : Side} (h : s.meets b) : (s.answerHatch q side).meets b := by
  have given := arbitration_meets h
  unfold State.answerHatch
  split
  · rename_i none
    rw [none] at given
    exact answer_meets given
  · rename_i some
    rw [some] at given
    exact notify_meets (answer_meets given)

theorem innerRequest_meets {q : ReqHead} {x : PurposeField} (h : s.meets b) : (s.innerRequest q x).meets b := by
  unfold State.innerRequest
  split
  · exact refuse_meets h
  split
  · exact refuse_meets h
  split
  · exact refuse_meets h
  split
  · exact refuse_meets h
  split
  · exact refuse_meets h
  · exact answerHatch_meets (onArbiter_meets h)

theorem outerRequest_meets {q : ReqHead} (h : s.meets b) : (s.outerRequest q).meets b := by
  unfold State.outerRequest
  split
  · exact refuse_meets h
  split
  · exact refuse_meets h
  split
  · exact refuse_meets h
  split
  · exact refuse_meets h
  · exact answerHatch_meets (onArbiter_meets h)

theorem hatchRequest_meets {q : ReqHead} {x : PurposeField} (h : s.meets b) : (s.hatchRequest q x).meets b := by
  unfold State.hatchRequest
  split
  · exact innerRequest_meets h
  · exact outerRequest_meets h
  · exact h

theorem releaseSide_meets {q : ReqHead} {side : Side} (h : s.meets b) : (s.releaseSide q side).meets b := by
  simp only [State.releaseSide]
  split
  · split
    · exact onArbiter_meets (answer_meets h)
    · exact arbitrate_meets (endPossession_meets (answer_meets h))
  · exact onArbiter_meets (answer_meets h)

theorem hatchRelease_meets {q : ReqHead} (h : s.meets b) : (s.hatchRelease q).meets b := by
  unfold State.hatchRelease
  split
  · exact releaseSide_meets h
  · exact releaseSide_meets h
  · exact h

theorem loadEntry_meets {q : ReqHead} {p : Nat} {r : CustodyRecord} {n : Nat} (h : s.meets b)
    (there : (p, r) ∈ s.custody) (room : s.hatch.entries.length < Config.hatchCapacity) :
    (s.loadEntry q p r n).meets b := by
  have listed : ((s.freeSlotOf r).putEntries
      (s.hatch.entries ++ [⟨r.label, .outbound, n, s.slotEstimate r, false⟩])).meets b :=
    putEntries_meets (freeSlotOf_meets h) fun _ => by rw [List.length_append]; exact room
  simp only [State.loadEntry]
  refine arbitrate_meets (dispatch_meets (testNumber_meets (answer_meets (putRecord_meets (r := r) listed ?_ fun hb =>
    settled_within (after := some .hatch) (record_within h there hb) (accumulators_within h hb)))))
  rw [putEntries_custody, freeSlotOf_custody]
  exact there

theorem loaded_meets {q : ReqHead} {l : Label} (h : s.meets b) : (s.loaded q l).meets b := by
  unfold State.loaded
  split
  · exact refuse_meets h
  split
  · exact refuse_meets h
  split
  · exact refuse_meets h
  rename_i found
  split
  · exact refuse_meets h
  split
  · exact refuse_meets h
  split
  · exact refuse_meets h
  split
  · exact refuse_meets h
  split
  · exact refuse_meets h
  · rename_i room
    exact loadEntry_meets h (record_mem found) (Nat.lt_of_not_le room)

theorem closeReturned_meets {needs : List Nat} {n : Nat} (h : s.meets b) : (s.closeReturned needs n).2.meets b := by
  unfold State.closeReturned
  split
  · exact h
  rename_i found
  split
  · refine notify_meets (putConsign_meets h fun hb => ?_)
    exact within_withState (st := .closed) (consignment_within h (consignment?_place found) hb) (.inr rfl)
  · exact h

theorem unloadEntry_meets {q : ReqHead} {p : Nat} {r : CustodyRecord} {e : HatchEntry} {n : Fin 32} (h : s.meets b)
    (there : (p, r) ∈ s.custody) : (s.unloadEntry q p r e n).meets b := by
  have left : (s.putEntries (s.hatch.entries.filter fun x => x.label != e.label)).meets b :=
    putEntries_meets h fun hb => (List.length_filter_le _ _).trans (entries_within h hb)
  have slotted := fun x (occupied : x.within = true) => putSlot_meets (n := n) (x := x) left fun _ => occupied
  have moved := fun x occupied r' same => putRecord_meets (r' := r') (slotted x occupied)
    (by rw [putSlot_custody, putEntries_custody]; exact there) same
  have settled := fun hb => settled_within (after := some .staging) (record_within h there hb) (accumulators_within h hb)
  unfold State.unloadEntry
  cases e.direction with
  | outbound => exact arbitrate_meets (closeReturned_meets (testNumber_meets (answer_meets (moved _ rfl _ settled))))
  | inbound => exact arbitrate_meets (closeReturned_meets (answer_meets (moved _ rfl _ settled)))

theorem unloaded_meets {q : ReqHead} {l : Label} (h : s.meets b) : (s.unloaded q l).meets b := by
  unfold State.unloaded
  split
  · exact refuse_meets h
  split
  · exact refuse_meets h
  split
  · exact refuse_meets h
  rename_i found
  split
  · exact refuse_meets h
  split
  · exact refuse_meets h
  split
  · exact refuse_meets h
  · exact unloadEntry_meets h (record_mem found)

/-! ## The exchange's requests -/

theorem withExchange_meets {x : Option Exchange} (h : s.meets b) :
    State.meets b { s with hatch := { s.hatch with exchange := x } } := h

/-- A third mismatch locks the consignment out (R159). -/
theorem mismatched_within {c : Consignment} (h : c.within = true) (hs : c.state.keepsLockout = false) :
    c.mismatched.within = true := by
  have low := mismatches_lt h hs
  obtain ⟨outbound, expected, received, -⟩ := (consign_within_iff c).1 h
  unfold Consignment.mismatched
  split
  · exact (consign_within_iff _).2 ⟨outbound, expected, received, low, .inr rfl⟩
  · rename_i below
    exact (consign_within_iff _).2 ⟨outbound, expected, received, low, .inl (Nat.lt_of_not_le below)⟩

theorem mismatch_meets {q : ReqHead} {i : Fin 16} {c : Consignment} {code : ResultCode} (h : s.meets b)
    (place : s.consign.places[i] = some c) (hs : c.state.keepsLockout = false) : (s.mismatch q i c code).meets b := by
  have counted : (s.putConsign i c.mismatched).meets b :=
    putConsign_meets h fun hb => mismatched_within (consignment_within h place hb) hs
  simp only [State.mismatch]
  split
  · exact arbitrate_meets (notify_meets (answer_meets counted))
  · exact answer_meets counted

theorem openExchange_meets {q : ReqHead} {i : Fin 16} {c : Consignment} (h : s.meets b)
    (place : s.consign.places[i] = some c) : (s.openExchange q i c).meets b := by
  refine arbitrate_meets (notify_meets (answer_meets (withExchange_meets (putConsign_meets h fun hb => ?_))))
  exact within_cleared (consignment_within h place hb)

/-- A consignment that admits a courier is READY or LOADED (R158). -/
theorem admits_counts {c : Consignment} (h : c.admits = true) : c.state.keepsLockout = false := by
  unfold Consignment.admits at h
  cases hs : c.state <;> simp [hs] at h <;> rfl

theorem arrive_meets {q : ReqHead} {n c : Nat} {w : Word16} (h : s.meets b) : (s.arrive q n c w).meets b := by
  unfold State.arrive
  split
  · exact refuse_meets h
  split
  · exact refuse_meets h
  split
  · exact refuse_meets h
  rename_i found
  have place := consignment?_place found
  split
  · exact refuse_meets h
  split
  · exact refuse_meets h
  rename_i admitted
  have counts := admits_counts (eq_true_of_ne_false admitted)
  split
  · exact refuse_meets h
  split
  · exact refuse_meets h
  split
  · exact refuse_meets h
  split
  · exact mismatch_meets h place counts
  split
  · exact mismatch_meets h place counts
  · exact openExchange_meets h place

theorem takeEntry_meets {q : ReqHead} {p : Nat} {r : CustodyRecord} {x : Exchange} {i : Fin 16} {c : Consignment}
    (h : s.meets b) (there : (p, r) ∈ s.custody) (place : s.consign.places[i] = some c) :
    (s.takeEntry q p r x i c).meets b := by
  have left : (s.putEntries (s.hatch.entries.filter fun e => e.label != r.label)).meets b :=
    putEntries_meets h fun hb => (List.length_filter_le _ _).trans (entries_within h hb)
  have within := consignment_within h place
  refine answer_meets (withExchange_meets (putConsign_meets (putRecord_meets (r := r) left ?_ fun hb =>
    settled_within (after := none) (record_within h there hb) (accumulators_within h hb)) within))
  rw [putEntries_custody]
  exact there

theorem taken_meets {q : ReqHead} {l : Label} (h : s.meets b) : (s.taken q l).meets b := by
  unfold State.taken
  split
  · exact refuse_meets h
  split
  · exact refuse_meets h
  split
  · exact refuse_meets h
  rename_i known
  split
  · exact refuse_meets h
  split
  · split
    · exact refuse_meets h
    · rename_i found
      exact takeEntry_meets h (record_mem known) (consignment?_place found)
  · exact refuse_meets h

/-- One label more is received, as long as fewer than expected are. -/
theorem within_withReceived {c : Consignment} (l : Label) (h : c.within = true) (room : c.received.length < c.expected) :
    Consignment.within { c with received := c.received ++ [l] } = true := by
  obtain ⟨outbound, expected, -, count⟩ := (consign_within_iff c).1 h
  exact (consign_within_iff _).2 ⟨outbound, expected, by rw [List.length_append]; exact room, count⟩

/-- The record that a deposit gives a label: its stored dose is that of the old record, or 0, and its mark an
accumulator. -/
theorem depositedRecord_within {l : Label} {n : Nat} {old : Option CustodyRecord}
    (hr : ∀ r, old = some r → r.within = true) (ha : ∀ a, s.accumulators.get a ≤ Config.max32) :
    (s.depositedRecord l n old).within = true := by
  have mark : ∀ m, some s.accumulators.hatch = some m → m ≤ Config.max32 := fun m hm => by
    cases hm
    exact ha .hatch
  cases old with
  | none => exact (record_within_iff _).2 ⟨fun d hd => by cases hd; exact Nat.zero_le _, mark⟩
  | some r => exact (record_within_iff _).2 ⟨((record_within_iff r).1 (hr r rfl)).1, mark⟩

theorem depositEntry_meets {q : ReqHead} {l : Label} {p : Nat} {old : Option CustodyRecord} {x : Exchange} {i : Fin 16}
    {c : Consignment} (h : s.meets b) (format : s.store.format.inFlight = false) (place : s.consign.places[i] = some c)
    (room : c.received.length < c.expected) (free : s.hatch.entries.length < Config.hatchCapacity)
    (there : ∀ r, old = some r → (p, r) ∈ s.custody) (new : old = none → p < Config.custodyPlaces) :
    (s.depositEntry q l p old x i c).meets b := by
  have listed : ∀ e : HatchEntry, (s.putEntries (s.hatch.entries ++ [e])).meets b := fun e =>
    putEntries_meets h fun _ => by rw [List.length_append]; exact free
  have received := fun hb => within_withReceived l (consignment_within h place hb) room
  have within := fun hb => depositedRecord_within (s := s) (l := l) (n := x.number)
    (fun r hr => record_within h (there r hr) hb) (accumulators_within h hb)
  refine arbitrate_meets (answer_meets (withExchange_meets (putConsign_meets ?_ received)))
  cases old with
  | none =>
    refine createRecord_meets (listed _) (new rfl) ?_ within
    rw [putEntries_store_format]
    exact inEffect_of_inFlight format
  | some r =>
    refine putRecord_meets (r := r) (listed _) ?_ within
    rw [putEntries_custody]
    exact there r rfl

theorem deposited_meets {q : ReqHead} {l : Label} (h : s.meets b) (format : s.store.format.inFlight = false) :
    (s.deposited q l).meets b := by
  unfold State.deposited
  split
  · exact refuse_meets h
  split
  · exact refuse_meets h
  split
  · exact refuse_meets h
  split
  · exact refuse_meets h
  rename_i found
  have place := consignment?_place found
  split
  · exact refuse_meets h
  rename_i room
  split
  · exact refuse_meets h
  rename_i free
  have deposit := fun q p old x => depositEntry_meets (q := q) (l := l) (p := p) (old := old) (x := x) h format place
    (Nat.lt_of_not_le room) (Nat.lt_of_not_le free)
  split
  · rename_i known
    split
    · exact deposit _ _ _ _ (fun r hr => by cases hr; exact record_mem known) (fun hr => by cases hr)
    · exact refuse_meets h
  · split
    · rename_i place
      exact deposit _ _ _ _ (fun r hr => by cases hr) fun _ => freePlace_below place
    · exact refuse_meets h

theorem exchangeQuery_meets {q : ReqHead} (h : s.meets b) : (s.exchangeQuery q).meets b := by
  unfold State.exchangeQuery
  split
  · exact refuse_meets h
  · exact answer_meets h

end

end Sys2Proof.Machine
end

