-- ==== Sys2Proof/Proofs/BoundEvents.lean ====
section
/-! SUPPORT. The events, a format and the end of a write keep each of the three invariants. -/

namespace Sys2Proof.Machine

section
variable {b : Bound} {s t : State}

/-! ## The vault's and the link unit's events -/

theorem withVault_meets {x : VaultUnit} (h : s.meets b) (hu : b = .capacity → x.uptime ≤ Config.max32) :
    State.meets b { s with vault := x } := by
  cases b with
  | tables => exact h
  | capacity => exact { h with uptime := hu rfl }
  | lists => exact h

theorem uptime_within (h : s.meets b) (hb : b = .capacity) : s.vault.uptime ≤ Config.max32 := by
  subst hb
  exact h.uptime

theorem rezoneRecord_meets {p : Nat} {r : CustodyRecord} (h : s.meets b) (there : (p, r) ∈ s.custody) :
    (s.rezoneRecord p r).meets b := by
  unfold State.rezoneRecord
  split
  · exact h
  rename_i l _
  split
  · exact h
  · exact putRecord_meets h there fun hb =>
      settled_within (after := some (s.resolve l)) (record_within h there hb) (accumulators_within h hb)

theorem rezoneStep_meets (h : s.meets b) : s.rezoneStep.meets b := by
  unfold State.rezoneStep
  split
  · exact h
  split
  · exact h
  · rename_i next
    have visited := rezoneRecord_meets h (List.mem_of_find?_eq_some next)
    exact withVault_meets visited (uptime_within visited)

theorem rezoneEnd_meets (h : s.meets b) : s.rezoneEnd.meets b := by
  unfold State.rezoneEnd
  split
  · exact h
  split
  · exact h
  · exact notify_meets (withVault_meets h (uptime_within h))

/-- The uptime stops at its top (R14). -/
theorem tick_meets (h : s.meets b) : s.tick.meets b := withVault_meets h fun _ => Nat.min_le_left _ _

theorem snapshotPoint_meets (h : s.meets b) : s.snapshotPoint.meets b := by
  unfold State.snapshotPoint
  split
  · exact persist_meets (withVault_meets h (uptime_within h))
  · exact h

theorem discardFrame_meets {p : Port} {bs : List LineByte} (h : s.meets b) : (s.discardFrame p bs).meets b := by
  simp only [State.discardFrame]
  split
  · exact onLink_meets h fun _ hl => hl
  · exact h

theorem hunt_meets {p : Port} (h : s.meets b) : (s.onLink p fun l => { l with receiver := .hunting }).meets b :=
  onLink_meets h fun _ hl => hl

theorem beginRestart_meets (h : s.meets b) : s.beginRestart.meets b := by
  have recorded : State.meets b { s with store := { s.store with recorded := .restart } } := h
  have written := persist_meets (r := .status) recorded
  simp only [State.beginRestart]
  split
  · exact written
  · exact written

theorem frameEnd_meets {p : Port} (h : s.meets b) : (s.frameEnd p).meets b := by
  refine onLink_meets ?_ fun _ => endFrame_within
  split
  · exact beginRestart_meets h
  · exact h

theorem updateSounders_meets (h : s.meets b) : s.updateSounders.meets b := h

theorem updateTrouble_meets (h : s.meets b) : s.updateTrouble.meets b := h

theorem loseLink_meets (h : s.meets b) : s.loseLink.meets b := by
  unfold State.loseLink
  split
  · exact postNotice_meets (updateTrouble_meets (meets_withLinks h fun within p => by
      have same := within p
      cases p <;> exact same))
  · exact h

/-! ## The sensors (R17, R20, R73, R111) -/

theorem setSweep_meets {w : Sweep} (h : s.meets b) : (s.setSweep w).meets b := h

/-- Only the capacities see the count of dropped sweeps (R17). -/
theorem dropSweep_meets (h : s.meets b) :
    State.meets b { s with climate := { s.climate with dropped := min 65535 (s.climate.dropped + 1) } } := by
  cases b with
  | tables => exact h
  | capacity => exact { h with dropped := Nat.min_le_left _ _ }
  | lists => exact h

theorem sweepFallsDue_meets (h : s.meets b) : s.sweepFallsDue.meets b := by
  have due : State.meets b { s with climate := { s.climate with lastSweepDueAt := some s.vault.uptime } } := h
  simp only [State.sweepFallsDue]
  split
  · split
    · exact setSweep_meets due
    all_goals exact dropSweep_meets due
  · exact h

theorem drive_meets {xs : List BusSignal} (h : s.meets b) : (s.drive xs).meets b := h

theorem beginRead_meets (h : s.meets b) : s.beginRead.meets b := by
  unfold State.beginRead
  split <;> exact h

theorem limitRead_meets (h : s.meets b) : s.limitRead.meets b := by
  unfold State.limitRead
  split <;> exact h

theorem endBusWait_meets (h : s.meets b) : s.endBusWait.meets b := by
  unfold State.endBusWait
  (repeat' split) <;> exact h

/-- The miss count stops at its top (R20). -/
theorem after_missCount (c : ChannelRecord) (v : Option Held) : (c.after v).missCount ≤ 255 := by
  have counted : min 255 (c.missCount + 1) ≤ 255 := Nat.min_le_left _ _
  unfold ChannelRecord.after
  split
  · exact Nat.zero_le _
  split
  · exact Nat.one_le_ofNat
  · exact counted
  · split <;> exact counted
  · split <;> exact counted

theorem recordSample_meets {c : Channel} {v : Option Held} (h : s.meets b) : (s.recordSample c v).meets b := by
  have counted : State.meets b { s with climate := { s.climate with
      channels := s.climate.channels.set c ((s.climate.channels.get c).after v) } } := by
    cases b with
    | tables => exact h
    | capacity =>
      refine { h with channels := fun d => ?_ }
      show ((s.climate.channels.set c ((s.climate.channels.get c).after v)).get d).missCount ≤ 255
      rw [perChannel_get_set]
      split
      · exact after_missCount _ v
      · exact h.channels d
    | lists => exact h
  simp only [State.recordSample]
  split
  · exact postNotice_meets (updateTrouble_meets counted)
  · exact updateTrouble_meets counted

theorem controlSample_meets {a : Area} (h : s.meets b) : (s.controlSample a).meets b := by
  unfold State.controlSample
  split
  · exact h
  · exact onControl_meets h

theorem alarmSample_meets {a : Area} (h : s.meets b) : (s.alarmSample a).meets b := by
  unfold State.alarmSample
  split
  · exact h
  split
  · exact postNotice_meets (onControl_meets h)
  · exact h

/-- An accumulator stops at the top of its count (R73). -/
theorem accumulateSample_meets {a : Area} (h : s.meets b) : (s.accumulateSample a).meets b := by
  refine persist_meets ?_
  cases b with
  | tables => exact h
  | capacity => exact h
  | lists =>
    refine { h with accumulators := fun d => ?_ }
    show ((s.accumulators.set a _).get d) ≤ Config.max32
    rw [perArea_get_set]
    split
    · split
      · exact Nat.min_le_right _ _
      · exact h.accumulators a
    · exact h.accumulators d

theorem areaSample_meets {a : Area} (h : s.meets b) : (s.areaSample a).meets b :=
  accumulateSample_meets (alarmSample_meets (controlSample_meets h))

/-- The dwell stops at its top (R111). -/
theorem step_within (c : ClimateUnit) {x : Slot} (h : x.within = true) : (x.step c).within = true := by
  unfold Slot.step
  split
  · rfl
  · rfl
  · split
    · exact decide_eq_true (Nat.min_le_left _ _)
    · exact h

theorem takeBase_within (c : ClimateUnit) (ch : Channel) {x : Slot} (h : x.within = true) :
    (x.takeBase c ch).within = true := by
  cases x with
  | free => rfl
  | reserved l o t => rfl
  | occupied l d o dwell e => exact h

theorem flipSlot_meets {x : List Nat × State} {n : Fin 32} (h : x.2.meets b) : (State.flipSlot x n).2.meets b := by
  unfold State.flipSlot
  split
  · exact h
  rename_i flip
  obtain ⟨_, _, _, _, _, _, found, _⟩ := flipOf_eq_some_iff.1 flip
  have there := record_mem found
  simp only []
  split
  · exact restateRecord_meets h there ⟨rfl, rfl⟩
  · exact notify_meets (restateRecord_meets h there ⟨rfl, rfl⟩)

theorem stageSample_meets (h : s.meets b) : s.stageSample.meets b := by
  have stepped : (s.mapSlots (Slot.step s.climate)).meets b := mapSlots_meets h fun _ => step_within _
  have flipped := foldl_invariant State.flipSlot (fun x => x.2.meets b) (fun _ _ => flipSlot_meets) slotNumbers
    ([], s.mapSlots (Slot.step s.climate)) stepped
  simp only [State.stageSample]
  split
  · exact testPlaces_meets flipped
  · exact arbitrate_meets (testPlaces_meets flipped)

theorem hatchSample_meets {f : HatchEntry → HatchEntry} (h : s.meets b) : (s.hatchSample f).meets b := by
  have estimated : State.meets b { s with hatch := { s.hatch with entries := s.hatch.entries.map f } } :=
    meets_withHatch h fun hb => by rw [List.length_map]; exact entries_within h hb
  simp only [State.hatchSample]
  split
  · exact arbitrate_meets estimated
  · exact estimated

theorem handSample_meets {c : Channel} (h : s.meets b) : (s.handSample c).meets b := by
  unfold State.handSample
  split
  · exact mapSlots_meets (areaSample_meets h) fun _ => takeBase_within _ _
  · exact mapSlots_meets (areaSample_meets h) fun _ => takeBase_within _ _
  · exact stageSample_meets (areaSample_meets h)
  · exact hatchSample_meets (areaSample_meets h)
  · exact hatchSample_meets (mapSlots_meets h fun _ => takeBase_within _ _)

theorem nextRead_meets {c : Channel} (h : s.meets b) : (s.nextRead c).meets b := by
  unfold State.nextRead
  split
  · exact setSweep_meets h
  · exact setSweep_meets h

theorem sample_meets {c : Channel} {v : Option Held} (h : s.meets b) : (s.sample c v).meets b :=
  nextRead_meets (handSample_meets (recordSample_meets h))

theorem sampleOf_meets {v : SensorReading} (h : s.meets b) : (s.sampleOf v).meets b := by
  unfold State.sampleOf
  split
  · exact sample_meets (drive_meets h)
  · exact sample_meets h
  · exact h
  · exact h

/-! ## The doors (R137 to R139, R145) -/

theorem normalOpening_meets {d : Side} (h : s.meets b) : (s.normalOpening d).meets b := by
  have lapse := onArbiter_meets (f := fun a => { a with lapseAt := none }) h
  simp only [State.normalOpening]
  split
  · exact withExchange_meets lapse
  · exact lapse
  · exact lapse

theorem openDoor_meets {d : Side} (h : s.meets b) : (s.openDoor d).meets b := by
  simp only [State.openDoor]
  split
  · exact h
  split
  · exact normalOpening_meets (onDoor_meets h)
  · exact notify_meets (onDoor_meets (onDoor_meets h))

theorem closingLatch_meets {d : Side} (h : s.meets b) : (s.closingLatch d).2.meets b := by
  simp only [State.closingLatch]
  split
  · split
    · exact endPossession_meets h
    · exact h
  · cases d with
    | inner => exact onDoor_meets h
    | outer => exact outerSecured_meets (onDoor_meets h)

theorem closeDoor_meets {d : Side} (h : s.meets b) : (s.closeDoor d).meets b := by
  have closed := closingLatch_meets (d := d)
    (onDoor_meets (w := d) (f := fun d => { d with isOpen := false, openedAt := none }) h)
  simp only [State.closeDoor]
  split
  · exact h
  split
  · exact arbitrate_meets (onDoor_meets closed)
  · exact closed

theorem settleContact_meets {d : Side} {l : Level} (h : s.meets b) : (s.settleContact d l).meets b := h

theorem doorOpened_meets {d : Side} (h : s.meets b) :
    (if (s.hatch.door d).isOpen then s else (s.settleContact d .high).openDoor d).meets b := by
  split
  · exact h
  · exact openDoor_meets (settleContact_meets h)

theorem doorClosed_meets {d : Side} (h : s.meets b) :
    (if (s.hatch.door d).isOpen then (s.settleContact d .low).closeDoor d else s).meets b := by
  split
  · exact closeDoor_meets (settleContact_meets h)
  · exact h

theorem heldDoor_meets {d : Side} (h : s.meets b) : (s.heldDoor d).meets b := by
  simp only [State.heldDoor]
  split
  · exact h
  split
  · exact onDoor_meets (notify_meets h)
  · exact h

theorem lapseLatch_meets (h : s.meets b) : s.lapseLatch.meets b := by
  simp only [State.lapseLatch]
  split
  · split
    · exact arbitrate_meets (notify_meets (endPossession_meets h))
    · exact h
  · exact h

theorem pickLapse_meets {n : Fin 32} (h : s.meets b) : (s.pickLapse n).meets b := by
  unfold State.pickLapse
  split
  · exact h
  · exact lapsePick_meets h

/-! ## The exchange timeout (R167) -/

/-- The end of a possession leaves the consignments, while the outer leg is WAITING (R162). -/
theorem endPossession_consign {needs : List Nat} {side : Side} {x : Exchange} (opened : s.hatch.exchange = some x)
    (waiting : x.leg = .waiting) : (s.endPossession needs side).2.consign = s.consign := by
  cases side with
  | inner => rfl
  | outer =>
    have kept : ((s.onDoor .outer fun d => { d with released := false }).onArbiter fun a =>
      { a with possession := false, purpose := none, releasePending := false, lapseAt := none }).hatch.exchange = some x :=
      opened
    simp only [State.endPossession, State.outerSecured]
    split
    · rfl
    · rename_i y same
      have : x = y := Option.some.inj (opened.symm.trans same)
      subst this
      rw [waiting]
      rfl

/-- A dropped exchange takes its consignment out of EXCHANGING, where its mismatch count is below the lockout's. -/
theorem dropExchange_meets {x : Exchange} (h : s.meets b) (opened : s.hatch.exchange = some x) (waiting : x.leg = .waiting)
    (exchanging : b = .lists → ∀ i c, s.consignment? x.number = some (i, c) → c.state = .exchanging) :
    (s.dropExchange x).meets b := by
  have ended : (if s.hatch.arbiter.holds .outer then (s.endPossession [] .outer).2 else s).meets b := by
    split
    · exact endPossession_meets h
    · exact h
  have consign : (if s.hatch.arbiter.holds .outer then (s.endPossession [] .outer).2 else s).consign = s.consign := by
    split
    · exact endPossession_consign opened waiting
    · rfl
  simp only [State.dropExchange]
  generalize (if s.hatch.arbiter.holds .outer then (s.endPossession [] .outer).2 else s) = t at ended consign ⊢
  split
  · exact arbitrate_meets (withExchange_meets (onArbiter_meets ended))
  · rename_i i c found
    have same : s.consignment? x.number = some (i, c) := by
      unfold State.consignment? at found ⊢
      rw [← consign]
      exact found
    refine arbitrate_meets (emit_meets (putConsign_meets (withExchange_meets (onArbiter_meets ended)) fun hb => ?_))
    refine within_withState (consignment_within h (consignment?_place same) hb) (.inl ?_)
    rw [exchanging hb i c same]
    rfl

theorem timeOutExchange_meets (h : s.meets b) (exchanging : b = .lists → ∀ x i c, s.hatch.exchange = some x →
    s.consignment? x.number = some (i, c) → c.state = .exchanging) : s.timeOutExchange.meets b := by
  unfold State.timeOutExchange
  split
  · exact h
  rename_i x opened
  split
  · rename_i due
    exact dropExchange_meets h opened due.1 fun hb i c => exchanging hb x i c opened
  · exact h

/-! ## The store: a format and the end of a write (R179, R184) -/

/-- Only the canonical forms see the store. -/
theorem meets_withStore {st : Store} (h : s.meets b) (cells : b = .tables → st.cellsHold)
    (emptied : b = .tables → st.format.inEffect = true → s.custody = [])
    (idle : b = .tables → st.inflight = none → st.queue = []) : State.meets b { s with store := st } := by
  cases b with
  | tables => exact { h with rising := cells rfl, emptied := emptied rfl, idle := idle rfl }
  | capacity => exact h
  | lists => exact h

theorem cells_hold (h : s.meets b) (hb : b = .tables) : s.store.cellsHold := by
  subst hb
  exact h.rising

theorem format_empties (h : s.meets b) (hb : b = .tables) : s.store.format.inEffect = true → s.custody = [] := by
  subst hb
  exact h.emptied

theorem store_idle (h : s.meets b) (hb : b = .tables) : s.store.inflight = none → s.store.queue = [] := by
  subst hb
  exact h.idle

/-- A format's effect empties what the invariants count (R184). -/
theorem startFormat_meets (h : s.meets b) : s.startFormat.meets b := by
  refine foldl_invariant _ (State.meets b) (fun _ _ => alarmAfresh_meets) _ _ (updateTrouble_meets ?_)
  refine foldl_invariant _ (State.meets b) (fun _ _ => changeDetector_meets) _ _ ?_
  cases b with
  | tables => exact ⟨h.rising, rfl, fun _ => rfl, h.idle⟩
  | capacity => exact { h with requests := Nat.zero_le _ }
  | lists =>
    refine ⟨Nat.zero_le _, fun i c place => ?_, fun a => ?_, fun y hy => absurd hy List.not_mem_nil, fun n => ?_⟩
    · replace place : (tabulate fun _ : Fin 16 => (none : Option Consignment))[i] = some c := place
      rw [tabulate_get] at place
      cases place
    · cases a <;> exact Nat.zero_le _
    · show (tabulate fun _ : Fin 32 => Slot.free)[n].within = true
      rw [tabulate_get]
      rfl

theorem formatRequest_meets {q : ReqHead} (h : s.meets b) : (s.formatRequest q).meets b := by
  have marked : State.meets b { s with store := { s.store with format := .marking } } :=
    meets_withStore h (cells_hold h) (fun _ effect => by cases effect) (store_idle h)
  simp only [State.formatRequest]
  split
  · exact refuse_meets h
  split
  · exact refuse_meets h
  split
  · exact refuse_meets h
  · exact follow_meets (answer_meets (persist_meets marked)) startFormat_meets

theorem followUp_meets {f : Followup} (h : s.meets b) : (s.followUp f).meets b := by
  cases f with
  | sweep k => exact startSweep_meets h
  | evaluate d latched => exact evaluateAfresh_meets h
  | lapses => exact lapseOverdue_meets h
  | format => exact startFormat_meets h

theorem startPulses_meets {ticket : Nat} (h : s.meets b) : (s.startPulses ticket).meets b :=
  foldl_invariant _ (State.meets b) (fun _ _ => startPulse_meets) _ _ h

theorem releaseOutputs_meets {ticket : Nat} (h : s.meets b) : (s.releaseOutputs ticket).meets b :=
  foldl_invariant _ (State.meets b) (fun _ _ => deliver_meets) _ _ h

theorem endWrite_meets {j : Job} (h : s.meets b) : (s.endWrite j).meets b := by
  refine releaseOutputs_meets (startPulses_meets (meets_withStore h (fun hb => ?_) (fun hb => ?_) fun _ => begin_idle _))
  · rw [begin_frame]
    exact writeNow_wf (cells_hold h hb) _ _
  · rw [begin_frame, writeNow_frame]
    exact format_empties h hb

theorem endFollowups_meets {ticket : Nat} (h : s.meets b) : (s.endFollowups ticket).meets b :=
  foldl_invariant _ (State.meets b) (fun _ _ => followUp_meets) _ _ h

theorem endFormatWrite_meets (h : s.meets b) : s.endFormatWrite.meets b := by
  unfold State.endFormatWrite
  split
  · exact h
  · exact h
  rename_i k writing
  split
  · refine meets_withStore h (fun hb => formatWrite_wf (cells_hold h hb) _ _) (fun hb _ => ?_) (store_idle h)
    exact format_empties h hb (by rw [writing]; rfl)
  · exact h

theorem writeEnd_meets (h : s.meets b) : s.writeEnd.meets b := by
  unfold State.writeEnd
  split
  · exact endFollowups_meets (endWrite_meets h)
  · exact endFormatWrite_meets h

theorem formatEnd_meets (h : s.meets b) : s.formatEnd.meets b := by
  unfold State.formatEnd
  split
  · exact postNotice_meets (persist_meets (meets_withStore h (fun _ => finishFormat_wf _ _ _)
      (fun _ effect => by cases effect) (store_idle h)))
  · exact h

/-! ## The supply and the reset line (R180) -/

theorem outputsLow_meets (h : s.meets b) : s.outputsLow.meets b := h

/-- A store at rest: no write is in flight or waits, and no format is in effect. -/
theorem quiet_meets {st : Store} (h : s.meets b) (cells : b = .tables → st.cellsHold) :
    State.meets b { s with store := st.quiet } :=
  meets_withStore h cells (fun _ effect => by cases effect) fun _ _ => rfl

theorem drain_meets : ∀ (k : Nat) {s : State}, s.meets b → (s.drain k).meets b
  | 0, _, h => h
  | k + 1, _, h => by
    unfold State.drain
    split
    · exact drain_meets k (endWrite_meets h)
    · exact h

theorem withPower_meets {p : Power} (h : s.meets b) : State.meets b { s with power := p } := h

theorem resetLow_meets (h : s.meets b) : s.resetLow.meets b := by
  have drained := drain_meets s.store.pendingWrites h
  have ended : (if s.store.inflight.isNone then (s.drain s.store.pendingWrites).endFormatWrite
      else s.drain s.store.pendingWrites).meets b := by
    split
    · exact endFormatWrite_meets drained
    · exact drained
  simp only [State.resetLow]
  generalize (if s.store.inflight.isNone then (s.drain s.store.pendingWrites).endFormatWrite
      else s.drain s.store.pendingWrites) = t at ended ⊢
  refine withPower_meets (quiet_meets (outputsLow_meets ended) fun hb => ?_)
  exact writeNow_wf (st := { t.store with recorded := .resetLine }) (cells_hold ended hb) _ _

theorem resetLineLow_meets (h : s.meets b) :
    ((s.onInputs fun i => { i with reset := Pin.settled .low }).resetLow).meets b := by
  have settled : (s.onInputs fun i => { i with reset := Pin.settled .low }).meets b := h
  exact resetLow_meets settled

theorem loseSupply_meets (h : s.meets b) : s.loseSupply.meets b := by
  unfold State.loseSupply
  split
  · exact h
  · exact withPower_meets (quiet_meets (outputsLow_meets h) fun hb => cutShort_wf (cells_hold h hb))

/-! ## The restart (R181 to R183) -/

/-- Every link unit begins with nothing queued, and every channel with no miss counted. -/
theorem restored_capacities (st : Store) (pending : List Instr) (x : Inputs) :
    (st.restored pending x).meets .capacity :=
  ⟨fun p => by cases p <;> rfl, Nat.zero_le _, Nat.zero_le _,
    fun c => by cases c with | area a => cases a <;> exact Nat.zero_le _ | outside => exact Nat.zero_le _, Nat.zero_le _⟩

/-- The blocks of a restart are in canonical form, of a store that is (R82, R179, R181). -/
theorem restored_canonical {st : Store} (pending : List Instr) (x : Inputs) (h : st.cellsHold) :
    (st.restored pending x).meets .tables :=
  ⟨h, custodyTable_wf h, nofun, fun _ => rfl⟩

/-- The recovery leaves the records at their places, and the capacities as they were. -/
theorem recovered_meets (hb : b ≠ .lists) (h : s.meets b) (format : s.store.format.inEffect = false) :
    s.recovered.meets b := by
  cases b with
  | tables =>
    have places := recovered_custody_places s
    rw [recovered_eq] at places ⊢
    have table := (custodyWf_places places).trans h.table
    exact { h with table := table, emptied := fun effect => absurd effect (by rw [Bool.not_eq_true]; exact format) }
  | capacity =>
    rw [recovered_eq]
    exact h
  | lists => exact absurd rfl hb

theorem writeNow_meets {r : StoreRecord} {x : Content} (h : s.meets b) :
    State.meets b { s with store := s.store.writeNow r x } := by
  refine meets_withStore h (fun hb => writeNow_wf (cells_hold h hb) _ _) ?_ ?_ <;> rw [writeNow_frame]
  · exact format_empties h
  · exact store_idle h

theorem syncRecord_meets {r : StoreRecord} (h : s.meets b) : (s.syncRecord r).meets b := by
  unfold State.syncRecord
  split
  · exact h
  · exact writeNow_meets h

theorem sync_meets (h : s.meets b) : s.sync.meets b := by
  have synced := foldl_invariant State.syncRecord (State.meets b) (fun _ _ => syncRecord_meets)
    (s.store.custodyRecords ++ fewRecords) s h
  exact writeNow_meets synced

theorem announceConsign_meets {before : Vector (Option Consignment) 16} {i : Fin 16} (h : s.meets b) :
    (s.announceConsign before i).meets b := by
  unfold State.announceConsign
  split
  · split
    · exact h
    · exact noticeAtRestart_meets h
  · exact h

/-- A restart on a store in canonical form meets every invariant but that of the lists, which it takes from the copies. -/
theorem restart_meets {cause : Cause} {st : Store} {pending : List Instr} {x : Inputs} (hb : b ≠ .lists)
    (cells : b = .tables → st.cellsHold) : (State.restart cause st pending x).meets b := by
  have restored : (st.checked.restored pending x).meets b := by
    cases b with
    | tables => exact restored_canonical pending x (checked_wf (cells rfl))
    | capacity => exact restored_capacities _ pending x
    | lists => exact absurd rfl hb
  have recovered := recovered_meets hb restored rfl
  have blocks : (st.restartBlocks cause pending x).meets b := by
    unfold Store.restartBlocks
    generalize (st.checked.restored pending x).recovered = t at recovered ⊢
    exact meets_withStore recovered (cells_hold recovered) (format_empties recovered) (store_idle recovered)
  have synced : (st.restartSynced cause pending x).meets b := by
    unfold Store.restartSynced
    exact updateTrouble_meets (updateSounders_meets (sync_meets blocks))
  have noticed : (st.restartNoticed cause pending x).meets b := by
    simp only [Store.restartNoticed]
    split
    · exact noticeAtRestart_meets (noticeAtRestart_meets synced)
    · exact noticeAtRestart_meets synced
  rw [restart_eq]
  generalize placeNumbers = is
  exact foldl_invariant _ (State.meets b) (fun _ _ => announceConsign_meets) is _ noticed

theorem riseReset_meets {bad : List StoreCopy} (hb : b ≠ .lists) (h : s.meets b) : (s.riseReset bad).meets b := by
  unfold State.riseReset
  exact restart_meets hb fun hb => spoil_wf (cells_hold h hb) bad

theorem takeRestart_meets {bad : List StoreCopy} (hb : b ≠ .lists) (h : s.meets b) : (s.takeRestart bad).meets b := by
  unfold State.takeRestart
  split
  · exact restart_meets hb fun hb => spoil_wf (st := s.writeEnd.store.quiet) (cells_hold (writeEnd_meets h) hb) bad
  · exact h

/-! ## The input scan (R37) -/

theorem scanCall_meets {x : Inputs} {a : Area} (h : s.meets b) : (s.scanCall x a).meets b := by
  unfold State.scanCall
  split
  · exact callPointOn_meets h
  · exact callPointOff_meets h

theorem scanAbort_meets {x : Inputs} (h : s.meets b) : (s.scanAbort x).meets b := by
  unfold State.scanAbort
  split
  · exact abortOn_meets h
  · exact abortOff_meets h

theorem scanContact_meets {x : Inputs} {d : Side} (h : s.meets b) : (s.scanContact x d).meets b := by
  unfold State.scanContact
  split
  · exact openDoor_meets h
  · exact closeDoor_meets h

theorem scanReset_meets {x : Inputs} (h : s.meets b) : (s.scanReset x).meets b := by
  unfold State.scanReset
  split
  · exact h
  · exact resetLow_meets h

theorem onInputs_meets {f : Inputs → Inputs} (h : s.meets b) : (s.onInputs f).meets b := h

/-- A scan keeps each invariant; only that of a stopped part may restart it. -/
theorem scan_meets (h : s.meets b) (hb : b = .lists → s.power = .running) : s.scan.meets b := by
  unfold State.scan
  split
  · exact h
  · rename_i stopped
    have restarts : b ≠ .lists := fun lists => by
      rw [stopped] at hb
      cases hb lists
    simp only []
    split
    · exact riseReset_meets restarts (onInputs_meets h)
    · exact onInputs_meets h
  · refine scanReset_meets (retakeInputs_meets ?_)
    refine foldl_invariant _ (State.meets b) (fun _ _ => scanContact_meets) _ _ (scanAbort_meets ?_)
    refine foldl_invariant _ (State.meets b) (fun _ _ => scanCall_meets) _ _ ?_
    exact foldl_invariant _ (State.meets b) (fun _ _ => detectorLines_meets) _ _ (onInputs_meets h)

end

end Sys2Proof.Machine
end

