-- ==== Sys2Proof/Proofs/BoundSteps.lean ====
section
/-! SUPPORT. Every command and every step keeps the canonical tables and the capacities, and every command but a restart
the lists (R14, R17, R20, R73, R74, R82, R103, R111, R122, R149, R159, R175, R179, R184). -/

namespace Sys2Proof.Machine

section
variable {b : Bound} {s t : State}

/-! ## The commands -/

theorem event_meets {act : State → State} (h : s.meets b) (keeps : s.meets b → (act s).meets b) :
    (s.event act).meets b := by
  unfold State.event
  split
  · exact keeps h
  · exact h

/-- A request whose owning block is reached comes while no format is in flight, unless it is STATUS (R172). -/
theorem format_of_linkCheck {q : ReqHead} {k : RequestKind} {named : Bool} (h : s.linkCheck q k named = none)
    (hk : k ≠ .status) : s.store.format.inFlight = false := by
  by_contra format
  have busy : (s.store.format.inFlight && k != .status) = true := by
    rw [eq_true_of_ne_false format]
    exact bne_iff_ne.2 hk
  unfold State.linkCheck at h
  rw [if_pos busy] at h
  (repeat' split at h) <;> cases h

theorem request_meets_of_idle {q : ReqHead} {k : RequestKind} {named : Bool} {owner : State → State} (h : s.meets b)
    (hk : k ≠ .status) (keeps : ∀ u : State, u.meets b → u.store.format.inFlight = false → (owner u).meets b) :
    (s.request q k named owner).meets b := by
  have taken : (s.validFrame q.port).meets b := validFrame_meets h
  unfold State.request
  split
  · simp only []
    split
    · exact postResponse_meets taken
    · rename_i reached
      exact keeps _ (onLink_meets taken fun _ hl => hl) (format_of_linkCheck (s := s.validFrame q.port) reached hk)
  · exact h

theorem request_meets {q : ReqHead} {k : RequestKind} {named : Bool} {owner : State → State} (h : s.meets b)
    (keeps : ∀ u : State, u.meets b → (owner u).meets b) : (s.request q k named owner).meets b := by
  have taken : (s.validFrame q.port).meets b := validFrame_meets h
  unfold State.request
  split
  · simp only []
    split
    · exact postResponse_meets taken
    · exact keeps _ (onLink_meets taken fun _ hl => hl)
  · exact h

/-- A command that keeps the lists as well: not a restart, and an exchange's timeout while its consignment is EXCHANGING. -/
def keepsLists (s : State) (c : Instr) : Prop :=
  (∀ bad, c ≠ .powerOn bad ∧ c ≠ .resetLineHigh bad ∧ c ≠ .restartTaken bad) ∧
  (c = .exchangeTimeout → ∀ x i y, s.hatch.exchange = some x → s.consignment? x.number = some (i, y) →
    y.state = .exchanging)

theorem exec_meets {c : Instr} (h : s.meets b) (he : exec c s = .next t) (hc : b = .lists → keepsLists s c) :
    t.meets b := by
  cases c
  case powerOn bad =>
    cases he
    exact restart_meets (fun lists => ((hc lists).1 bad).1 rfl) fun hb => spoil_wf (cells_hold (loseSupply_meets h) hb) bad
  case resetLineLow => cases he; exact event_meets h resetLineLow_meets
  case resetLineHigh bad =>
    cases he
    split
    · exact riseReset_meets (fun lists => ((hc lists).1 bad).2.1 rfl) (onInputs_meets h)
    · exact h
  case restartTaken bad => cases he; exact event_meets h (takeRestart_meets fun lists => ((hc lists).1 bad).2.2 rfl)
  case status q => cases he; exact request_meets h fun _ => answerStatus_meets
  case subscribe q m => cases he; exact request_meets h fun _ => subscribe_meets
  case areaQuery q n => cases he; exact request_meets h fun _ => areaQuery_meets
  case setMode q m => cases he; exact request_meets h fun _ => setMode_meets
  case setTime q x => cases he; exact request_meets h fun _ => setTime_meets
  case setDescriptor q i e v n a => cases he; exact request_meets h fun _ => setDescriptor_meets
  case setClimate q n f => cases he; exact request_meets h fun _ => setClimate_meets
  case clearClimateFlags q n => cases he; exact request_meets h fun _ => clearClimateFlags_meets
  case setFireArea q n x d v => cases he; exact request_meets h fun _ => setFireArea_meets
  case setFireDetector q n a p => cases he; exact request_meets h fun _ => setFireDetector_meets
  case recharged q n => cases he; exact request_meets h fun _ => recharged_meets
  case isolate q n x => cases he; exact request_meets h fun _ => isolate_meets
  case confirmArea q n => cases he; exact request_meets h fun _ => confirmArea_meets
  case resetArea q n => cases he; exact request_meets h fun _ => resetArea_meets
  case format q => cases he; exact request_meets h fun _ => formatRequest_meets
  case restart q => cases he; exact request_meets h fun _ => answer_meets
  case enrol q l x => cases he; exact request_meets_of_idle h (by decide) fun _ => enrol_meets
  case retire q l => cases he; exact request_meets h fun _ => retire_meets
  case relocate q l x => cases he; exact request_meets h fun _ => relocate_meets
  case custodyQuery q l => cases he; exact request_meets h fun _ => custodyQuery_meets
  case doseReset q l => cases he; exact request_meets h fun _ => doseReset_meets
  case checkout q l => cases he; exact request_meets h fun _ => checkout_meets
  case cancel q l => cases he; exact request_meets h fun _ => cancel_meets
  case placed q l n => cases he; exact request_meets h fun _ => placed_meets
  case shelved q l x => cases he; exact request_meets h fun _ => shelved_meets
  case slotQuery q n => cases he; exact request_meets h fun _ => slotQuery_meets
  case setStaging q f => cases he; exact request_meets h fun _ => setStaging_meets
  case consignOpen q x y => cases he; exact request_meets h fun _ => consignOpen_meets
  case consignAdd q n l => cases he; exact request_meets h fun _ => consignAdd_meets
  case consignRemove q n l => cases he; exact request_meets h fun _ => consignRemove_meets
  case consignSeal q n => cases he; exact request_meets h fun _ => consignSeal_meets
  case consignCancel q n => cases he; exact request_meets h fun _ => consignCancel_meets
  case consignUnlock q n => cases he; exact request_meets h fun _ => consignUnlock_meets
  case consignQuery q n => cases he; exact request_meets h fun _ => consignQuery_meets
  case hatchRequest q p => cases he; exact request_meets h fun _ => hatchRequest_meets
  case hatchRelease q => cases he; exact request_meets h fun _ => hatchRelease_meets
  case loaded q l => cases he; exact request_meets h fun _ => loaded_meets
  case unloaded q l => cases he; exact request_meets h fun _ => unloaded_meets
  case arrive q n x w => cases he; exact request_meets h fun _ => arrive_meets
  case taken q l => cases he; exact request_meets h fun _ => taken_meets
  case deposited q l => cases he; exact request_meets_of_idle h (by decide) fun _ => deposited_meets
  case exchangeQuery q => cases he; exact request_meets h fun _ => exchangeQuery_meets
  case unknownRequestKind q k => cases he; exact request_meets h fun _ => id
  case rezoneSweepStep => cases he; exact event_meets h rezoneStep_meets
  case rezoneDone => cases he; exact event_meets h rezoneEnd_meets
  case formatDone => cases he; exact event_meets h formatEnd_meets
  case nonRequestFrame p k => cases he; exact event_meets h validFrame_meets
  case frameDiscarded p bs => cases he; exact event_meets h discardFrame_meets
  case interByteGapTimeout p => cases he; exact event_meets h hunt_meets
  case frameTransmitEnd p => cases he; exact event_meets h frameEnd_meets
  case facilityLinkLost => cases he; exact event_meets h loseLink_meets
  case storeWriteEnd => cases he; exact event_meets h writeEnd_meets
  case clockSnapshot => cases he; exact event_meets h snapshotPoint_meets
  case sweepDue => cases he; exact event_meets h sweepFallsDue_meets
  case sensorReadStart => cases he; exact event_meets h beginRead_meets
  case readTimeLimit => cases he; exact event_meets h limitRead_meets
  case busWaitTimeout => cases he; exact event_meets h endBusWait_meets
  case sampleEvent v => cases he; exact event_meets h sampleOf_meets
  case detectorLineChange d al fl => cases he; exact event_meets h detectorChange_meets
  case callPointOperated a => cases he; exact event_meets h callPointOperated_meets
  case callPointInactive a => cases he; exact event_meets h callPointInactive_meets
  case abortHoldActive => cases he; exact event_meets h abortHoldActive_meets
  case abortHoldReleased => cases he; exact event_meets h abortHoldReleased_meets
  case retakeAtScan => cases he; exact event_meets h retakeInputs_meets
  case dischargeDelayExpiry a => cases he; exact event_meets h dischargeArea_meets
  case releasePulseEnd a => cases he; exact event_meets h endPulse_meets
  case ventTimeExpiry a => cases he; exact event_meets h ventEnd_meets
  case doorOpened d => cases he; exact event_meets h doorOpened_meets
  case doorClosed d => cases he; exact event_meets h doorClosed_meets
  case doorHeld d => cases he; exact event_meets h heldDoor_meets
  case latchLapse => cases he; exact event_meets h lapseLatch_meets
  case pickLapsed n => cases he; exact event_meets h pickLapse_meets
  case exchangeTimeout => cases he; exact event_meets h fun h => timeOutExchange_meets h fun lists => (hc lists).2 rfl
  case timeBaseSecond => cases he; exact event_meets h tick_meets
  case lossOfSupply => cases he; exact loseSupply_meets h

/-! ## The steps -/

/-- A step takes a command off the queue, or lets the idle transmitters start and makes a scan (R37, R175). -/
theorem step_meets (hb : b ≠ .lists) (h : s.meets b) (he : step s = .next t) : t.meets b := by
  have never {p : Prop} : b = .lists → p := fun lists => absurd lists hb
  unfold step at he
  split at he
  · cases he
    exact scan_meets (startTransmitters_meets h) never
  · rename_i rest _
    have taken : State.meets b { s with pending := rest } := h
    exact exec_meets taken he never

end

/-- Settles O59: every operation of the blocks keeps each invariant; a restart, those that it does not read from copies. -/
theorem stepsKeepTablesAndCapacities : Obligations.StepsKeepTablesAndCapacities := by
  refine ⟨fun s t h he => ?_, fun s t h he => ?_, fun c s t h he restarts timeout => ?_, fun s running h => ?_⟩
  · exact (tablesCanonical_iff t).2 (step_meets nofun ((tablesCanonical_iff s).1 h) he)
  · exact (withinCapacity_iff t).2 (step_meets nofun ((withinCapacity_iff s).1 h) he)
  · exact (listsWithin_iff t).2 (exec_meets ((listsWithin_iff s).1 h) he fun _ => ⟨restarts, timeout⟩)
  · exact (listsWithin_iff _).2 (scan_meets ((listsWithin_iff s).1 h) fun _ => running)

end Sys2Proof.Machine
end

