-- ==== Sys2Proof/Proofs/Moisture.lean ====
section
/-! SUPPORT. Chapter 4: the dew point, the condensation margin and the readiness tests (R63, R64, R70, R71), the
acclimatisation step (R66), the effective dose and the settle (R74, R75, R78). -/

namespace Sys2Proof.Machine

/-! ## The dew point and the readiness tests (R63, R64, R70, R71) -/

theorem dewPoint_of_humid {x : Held} (low : 200 ≤ x.humidity) (high : x.humidity ≤ 1000) :
    x.dewPoint = x.temperature - ((1000 - x.humidity) / 5 : Nat) := by
  unfold Held.dewPoint
  rw [max_eq_right low, min_eq_right high]

theorem dewPoint_of_dry {x : Held} (dry : x.humidity < 200) : x.dewPoint = x.temperature - 160 := by
  unfold Held.dewPoint
  rw [max_eq_left dry.le]
  rfl

/-- The dew point lies at most 160 below the temperature, and not above it. -/
theorem dewPoint_range (x : Held) : x.temperature - 160 ≤ x.dewPoint ∧ x.dewPoint ≤ x.temperature := by
  unfold Held.dewPoint
  omega

theorem passesMargin_iff (td e : Option Int) (margin : Nat) :
    passesMargin td margin e = true ↔ ∃ t x, td = some t ∧ e = some x ∧ (margin : Int) ≤ x - t := by
  cases td <;> cases e <;> simp [passesMargin]

theorem readyOutTest_iff (c : ClimateUnit) (g : StagingSettings) (dwell : Nat) (estimate : Option Int) :
    readyOutTest c g dwell estimate = true ↔
      (∃ e x, estimate = some e ∧ (c.channels.get .outside).held = some x ∧ (g.marginOut : Int) ≤ e - x.dewPoint) ∧
        g.minDwellOut ≤ dwell := by
  unfold readyOutTest
  rw [Bool.and_eq_true, passesMargin_iff, decide_eq_true_eq]
  refine and_congr_left' ⟨?_, ?_⟩
  · rintro ⟨td, e, dew, est, margin⟩
    obtain ⟨x, held, rfl⟩ := Option.map_eq_some_iff.1 dew
    exact ⟨e, x, est, held, margin⟩
  · rintro ⟨e, x, est, held, margin⟩
    exact ⟨x.dewPoint, e, Option.map_eq_some_iff.2 ⟨x, held, rfl⟩, est, margin⟩

theorem readyInTest_iff (c : ClimateUnit) (g : StagingSettings) (dwell : Nat) (estimate : Option Int) :
    readyInTest c g dwell estimate = true ↔
      g.minDwellIn ≤ dwell ∧
      (∃ e x, estimate = some e ∧ (c.channels.get (.area g.inboundRef)).held = some x ∧
        -10 ≤ e - x.temperature ∧ e - x.temperature ≤ 10) ∧
      ∃ x, (c.channels.get (.area .staging)).held = some x ∧ x.humidity ≤ g.rhCeiling := by
  have near : ∀ d : Int, d.natAbs ≤ 10 ↔ -10 ≤ d ∧ d ≤ 10 := fun d => by omega
  unfold readyInTest
  rw [Bool.and_eq_true, Bool.and_eq_true, decide_eq_true_eq, and_assoc]
  refine and_congr_right' (and_congr ?_ ?_)
  · split
    · rename_i e x held
      rw [decide_eq_true_eq, near]
      refine ⟨fun bounds => ⟨e, x, rfl, held, bounds⟩, ?_⟩
      rintro ⟨_, _, est, same, bounds⟩
      cases est
      cases held.symm.trans same
      exact bounds
    · rename_i absent
      refine ⟨nofun, ?_⟩
      rintro ⟨e, x, rfl, held, -⟩
      exact (absent e x rfl held).elim
  · split
    · rename_i x held
      rw [decide_eq_true_eq]
      refine ⟨fun dry => ⟨x, held, dry⟩, ?_⟩
      rintro ⟨_, same, dry⟩
      cases held.symm.trans same
      exact dry
    · rename_i absent
      refine ⟨nofun, ?_⟩
      rintro ⟨x, held, -⟩
      cases absent.symm.trans held

/-- Settles O25, from the clamp of the dew point and what each test reads. -/
theorem marginAndReadinessTests : Obligations.MarginAndReadinessTests := by
  refine ⟨⟨fun x high => ⟨fun low => dewPoint_of_humid low high, dewPoint_of_dry, fun cold warm => ?_⟩, fun c => rfl,
    fun p ch s => rfl, fun td e margin => ?_, fun td margin => ?_, fun e margin => ?_⟩, fun c g dwell estimate =>
      ⟨readyOutTest_iff c g dwell estimate, readyInTest_iff c g dwell estimate⟩⟩
  · have range := dewPoint_range x
    omega
  · exact decide_eq_true_iff
  · cases td <;> rfl
  · cases e <;> rfl

/-! ## The acclimatisation step (R66) -/

@[simp] theorem stepChange_zero (coupling : Nat) : stepChange 0 coupling = 0 := by
  simp [stepChange]

/-- A step upward is at least 1 and does not pass the air temperature. -/
theorem stepChange_of_pos {d : Int} {coupling : Nat} (hd : 0 < d) (low : 1 ≤ coupling) (high : coupling ≤ 255) :
    1 ≤ stepChange d coupling ∧ stepChange d coupling ≤ d := by
  have lower : 0 ≤ d * (coupling : Int) := Int.mul_nonneg hd.le (Int.natCast_nonneg _)
  have upper : d * (coupling : Int) ≤ d * 255 := Int.mul_le_mul_of_nonneg_left (by omega) hd.le
  unfold stepChange
  rw [Int.tdiv_eq_ediv_of_nonneg lower]
  simp only []
  split <;> omega

/-- A step is as far downward as upward. -/
theorem stepChange_neg (d : Int) (coupling : Nat) : stepChange (-d) coupling = -stepChange d coupling := by
  simp only [stepChange, Int.neg_mul, Int.neg_tdiv, Int.neg_eq_zero]
  (repeat' split) <;> omega

theorem stepChange_of_neg {d : Int} {coupling : Nat} (hd : d < 0) (low : 1 ≤ coupling) (high : coupling ≤ 255) :
    d ≤ stepChange d coupling ∧ stepChange d coupling ≤ -1 := by
  have mirrored := stepChange_of_pos (d := -d) (by omega) low high
  rw [stepChange_neg] at mirrored
  omega

/-- A step leaves an estimate at the air temperature, and brings any other nearer to it without passing it. -/
theorem acclimatise_between (e air : Int) {coupling : Nat} (low : 1 ≤ coupling) (high : coupling ≤ 255) :
    (e = air ∧ acclimatise e air coupling = air) ∨ (e < acclimatise e air coupling ∧ acclimatise e air coupling ≤ air) ∨
      (air ≤ acclimatise e air coupling ∧ acclimatise e air coupling < e) := by
  unfold acclimatise
  rcases Int.lt_trichotomy (air - e) 0 with below | same | above
  · have step := stepChange_of_neg below low high
    omega
  · rw [same, stepChange_zero]
    omega
  · have step := stepChange_of_pos above low high
    omega

/-- With the air held steady, an estimate is at its temperature after as many steps as the gap. -/
theorem acclimatise_iterate (air : Int) {coupling : Nat} (low : 1 ≤ coupling) (high : coupling ≤ 255) :
    ∀ (n : Nat) (e : Int), (air - e).natAbs ≤ n → (fun x => acclimatise x air coupling)^[n] e = air
  | 0, e, gap => by
    show e = air
    omega
  | n + 1, e, gap => by
    rw [Function.iterate_succ_apply]
    refine acclimatise_iterate air low high n _ ?_
    have between := acclimatise_between e air low high
    omega

/-- Settles O26, by the sign of the gap and, for the repeated step, induction on the number of steps. -/
theorem acclimatisationStepsTowardTheAir : Obligations.AcclimatisationStepsTowardTheAir := by
  intro e air coupling low high
  have between := acclimatise_between e air low high
  refine ⟨fun none => ?_, fun moves => ?_, fun small up => ?_, fun small down => ?_, by omega, fun apart => by omega,
    fun gap => ?_, fun n => acclimatise_iterate air low high n e⟩
  · omega
  · simp only [acclimatise, stepChange, if_neg moves]
  · simp only [acclimatise, stepChange, if_pos small, if_pos up]
  · simp only [acclimatise, stepChange, if_pos small, if_neg down.le.not_gt, if_pos down]
    rfl
  · rw [Int.natAbs_mul]
    exact Nat.mul_le_mul gap high

/-! ## The effective dose and the settle (R74, R75, R78) -/

section
variable {acc : PerArea Nat} {r : CustodyRecord} {d : Nat}

theorem effectiveDose_of_none (h : r.storedDose = none) : effectiveDose acc r = none := by
  simp [effectiveDose, h]

theorem effectiveDose_of_unmarked (h : r.storedDose = some d) (unmarked : r.mark = none) :
    effectiveDose acc r = some d := by
  simp [effectiveDose, h, unmarked]

theorem effectiveDose_of_marked {m : Nat} {a : Area} (h : r.storedDose = some d) (marked : r.mark = some m)
    (area : r.area = some a) : effectiveDose acc r = some (min (d + (acc.get a - m)) Config.max32) := by
  simp [effectiveDose, h, marked, area, satAdd]

/-- A record with a stored dose has an effective one. -/
theorem effectiveDose_isSome (h : r.storedDose = some d) : ∃ x, effectiveDose acc r = some x := by
  unfold effectiveDose
  rw [h]
  simp only []
  split
  · exact ⟨_, rfl⟩
  · exact ⟨_, rfl⟩

theorem overDose_iff (s : State) (r : CustodyRecord) :
    s.overDose r = true ↔ ∃ x, s.doseOf r = some x ∧ s.staging.settings.doseLimit ≤ x := by
  unfold State.overDose
  cases s.doseOf r <;> simp

/-- An evaluation touches INSPECT alone (R78). -/
theorem evaluated_eq (s : State) (r : CustodyRecord) :
    s.evaluated r = { r with inspect := r.inspect || s.overDose r } := by
  unfold State.evaluated
  cases s.overDose r <;> simp

/-- A settled record in the area it has moved to: its mark stands at that area's accumulator, so it has gained nothing. -/
theorem doseOf_settled {s : State} {after : Option Area} (dose : r.storedDose = some d) (hd : d ≤ Config.max32) :
    s.doseOf { s.settled after r with area := after } = s.doseOf r := by
  obtain ⟨x, effective⟩ := effectiveDose_isSome (acc := s.accumulators) dose
  have le : x ≤ Config.max32 := effectiveDose_le (fun y hy => by cases dose.symm.trans hy; exact hd) effective
  have same : s.doseOf r = some x := effective
  cases after with
  | none => exact (effectiveDose_of_unmarked (d := x) same rfl).trans same.symm
  | some a =>
    refine (effectiveDose_of_marked (d := x) same rfl rfl).trans ?_
    rw [same, Nat.sub_self, Nat.add_zero, min_eq_left le]

end

/-- Settles O27, by the cases of the effective dose, and from the mark that a settle leaves. -/
theorem settleKeepsTheEffectiveDose : Obligations.SettleKeepsTheEffectiveDose := by
  refine ⟨fun acc r => ⟨effectiveDose_of_none, fun d dose => ⟨effectiveDose_of_unmarked dose, fun m a marked area =>
    ⟨fun below => ?_, fun _ => effectiveDose_of_marked dose marked area⟩⟩⟩, fun s r => ⟨rfl, overDose_iff s r⟩,
    fun s r d after dose hd => ⟨?_, ?_, doseOf_settled dose hd⟩⟩
  · rw [effectiveDose_of_marked dose marked area, Nat.sub_eq_zero_of_le below.le]
    rfl
  · simp only [State.settled, evaluated_eq]
  · have inspect : (s.settled after r).inspect = (r.inspect || s.overDose r) := by simp only [State.settled, evaluated_eq]
    rw [inspect, Bool.or_eq_true, overDose_iff]

end Sys2Proof.Machine
end

