-- ==== Sys2Proof/Proofs/Queries.lean ====
section
/-! SUPPORT. What a received request finds in the tables, and the queries of records and slots (R78, R96, R97, R117). -/

namespace Sys2Proof.Machine

/-! ## What a received request finds (R172) -/

@[simp] theorem received_record? (s : State) (h : ReqHead) (l : Label) : (s.received h).record? l = s.record? l :=
  congrArg (findLabel l) (received_custody s h)

@[simp] theorem received_consignment? (s : State) (h : ReqHead) (n : Nat) :
    (s.received h).consignment? n = s.consignment? n := by
  unfold State.consignment?
  rw [received_consign]

@[simp] theorem received_doseOf (s : State) (h : ReqHead) (r : CustodyRecord) : (s.received h).doseOf r = s.doseOf r := by
  unfold State.doseOf
  rw [received_accumulators]

@[simp] theorem received_overDose (s : State) (h : ReqHead) (r : CustodyRecord) :
    (s.received h).overDose r = s.overDose r := by
  unfold State.overDose
  rw [received_doseOf, received_staging]

theorem slotOfNumber_of_lt {n : Nat} (h : n < 32) : slotOfNumber n = some ⟨n, h⟩ := dif_pos h

@[simp] theorem slotOfNumber_val (n : Fin 32) : slotOfNumber n.val = some n := slotOfNumber_of_lt n.isLt

theorem slotOfNumber_of_ge {n : Nat} (h : 32 ≤ n) : slotOfNumber n = none := dif_neg (Nat.not_lt.2 h)

/-! ## CUSTODY_QUERY (R78, R96, R97) -/

section
variable {h : ReqHead} {l : Label} {s : State} {p : Nat} {r : CustodyRecord}

theorem exec_custodyQuery (l : Label) (ha : s.accepts h .custodyQuery) :
    exec (.custodyQuery h l) s = .next ((s.received h).custodyQuery h l) :=
  congrArg Host.Outcome.next (request_accepted _ ha)

theorem custodyQuery_invalid (bad : goodLabel l = false) : s.custodyQuery h l = s.refuse h .custodyQuery .invalid :=
  if_pos bad

theorem custodyQuery_notFound (good : goodLabel l = true) (absent : s.record? l = none) :
    s.custodyQuery h l = s.refuse h .custodyQuery .notFound := by
  simp only [State.custodyQuery, good, absent, Bool.true_eq_false, if_false]

theorem custodyQuery_of_over (good : goodLabel l = true) (found : s.record? l = some (p, r)) (above : s.overDose r = true) :
    let r' := { r with inspect := true }
    s.custodyQuery h l = (s.putRecord p r').answer h .custodyQuery ((s.putRecord p r').awaits [.custody p]) .ok
      (.custody (s.custodyReport r')) := by
  simp only [State.custodyQuery, good, found, above, Bool.true_eq_false, if_false, if_true]

theorem custodyQuery_of_within (good : goodLabel l = true) (found : s.record? l = some (p, r))
    (within : s.overDose r = false) :
    s.custodyQuery h l = s.answer h .custodyQuery [] .ok (.custody (s.custodyReport r)) := by
  simp only [State.custodyQuery, good, found, within, Bool.false_eq_true, Bool.true_eq_false, if_false]

theorem custodyReport_of_known (known : r.state ≠ .unknown) :
    s.custodyReport r = ⟨r, s.doseOf r, some s.staging.settings.doseLimit⟩ := by
  unfold State.custodyReport
  rw [if_neg known]

@[simp] theorem received_custodyReport (r : CustodyRecord) : (s.received h).custodyReport r = s.custodyReport r := by
  simp only [State.custodyReport, received_doseOf, received_staging]

/-- An UNKNOWN record has no dose and no limit to report (R97). -/
theorem custodyReport_of_unknown (unknown : r.state = .unknown) (dose : r.storedDose = none) :
    s.custodyReport r = ⟨r, none, none⟩ := by
  unfold State.custodyReport State.doseOf
  rw [if_pos unknown, effectiveDose_of_none dose]

/-- A record without a dose is not over its limit. -/
theorem overDose_of_none (dose : r.storedDose = none) : s.overDose r = false := by
  unfold State.overDose State.doseOf
  rw [effectiveDose_of_none dose]

/-! ## SLOT_QUERY (R117) -/

theorem exec_slotQuery (n : Nat) (ha : s.accepts h .slotQuery) :
    exec (.slotQuery h n) s = .next ((s.received h).slotQuery h n) := congrArg Host.Outcome.next (request_accepted _ ha)

theorem slotQuery_invalid {n : Nat} (bad : 32 ≤ n) : s.slotQuery h n = s.refuse h .slotQuery .invalid := by
  unfold State.slotQuery
  rw [slotOfNumber_of_ge bad]

theorem slotQuery_of_slot (n : Fin 32) : s.slotQuery h n.val = s.answer h .slotQuery [] .ok (.slot (s.slotReport n)) := by
  unfold State.slotQuery
  rw [slotOfNumber_val]

theorem slotReport_of_free {n : Fin 32} (free : s.staging.slots[n] = .free) :
    s.slotReport n = ⟨n, .free, none, none⟩ := by
  simp only [State.slotReport, free]
  rfl

theorem slotReport_of_reserved {n : Fin 32} {o : Area} {t : Nat} (reserved : s.staging.slots[n] = .reserved l o t) :
    s.slotReport n = ⟨n, .reserved l o t, some (t + s.staging.settings.pickTimeout * 60 - s.vault.uptime),
      (s.record? l).map fun x => x.2.state⟩ := by
  simp only [State.slotReport, reserved]
  rfl

theorem slotReport_of_occupied {n : Fin 32} {d : Direction} {o : Channel} {w : Nat} {e : Option Int}
    (occupied : s.staging.slots[n] = .occupied l d o w e) :
    s.slotReport n = ⟨n, .occupied l d o w e, none, (s.record? l).map fun x => x.2.state⟩ := by
  simp only [State.slotReport, occupied]
  rfl

theorem slotReport_slot (n : Fin 32) : (s.slotReport n).slot = s.staging.slots[n] := rfl

@[simp] theorem received_slotReport (n : Fin 32) : (s.received h).slotReport n = s.slotReport n := by
  simp only [State.slotReport, received_staging, received_vault, received_record?]

end

/-- Settles O30: each query by its checks, and its report by the record's state and the slot's. -/
theorem custodyAndSlotQueriesReport : Obligations.CustodyAndSlotQueriesReport := by
  constructor
  · intro h l s ha u c
    have query : exec c s = .next (u.custodyQuery h l) := exec_custodyQuery l ha
    have limit : ∀ r, u.overDose r = s.overDose r := received_overDose s h
    have report : ∀ r, u.custodyReport r = s.custodyReport r := received_custodyReport
    rw [query, ← received_record? s h]
    refine ⟨fun bad => congrArg _ (custodyQuery_invalid bad), fun good absent =>
      congrArg _ (custodyQuery_notFound good absent), fun p r good found =>
        ⟨?_, fun low known => ?_, fun unknown none => ?_⟩⟩
    · intro high known r' v
      rw [custodyQuery_of_over good found ((limit r).trans high), report, custodyReport_of_known (r := r') known]
      rfl
    · rw [custodyQuery_of_within good found ((limit r).trans low), report, custodyReport_of_known known]
    · rw [custodyQuery_of_within good found (overDose_of_none none), report, custodyReport_of_unknown unknown none]
  · intro h slot s ha u c
    have query : exec c s = .next (u.slotQuery h slot) := exec_slotQuery slot ha
    rw [query]
    refine ⟨fun bad => congrArg _ (slotQuery_invalid bad), ?_⟩
    rintro n rfl
    refine ⟨s.slotReport n, ?_, rfl, slotReport_slot n, fun free => ?_, fun l o t reserved => ?_,
      fun l d o w e occupied => ?_⟩
    · rw [slotQuery_of_slot, received_slotReport]
    · rw [slotReport_of_free free]
      exact ⟨rfl, rfl⟩
    · rw [slotReport_of_reserved reserved]
      exact ⟨rfl, rfl⟩
    · rw [slotReport_of_occupied occupied]
      exact ⟨rfl, rfl⟩

end Sys2Proof.Machine
end

