-- ==== Sys2Proof/Proofs/Reservations.lean ====
section
/-! SUPPORT. The ends of requests and reservations: CANCEL, the pick lapse, and the lapses behind SET_STAGING's OK (R79,
R80, R106, R107, R112). -/

namespace Sys2Proof.Machine

section
variable {h : ReqHead} {l : Label} {s : State} {p : Nat} {r : CustodyRecord} {needs : List Nat}

/-! ## The RESUME test and a dispatch attempt in MAINTENANCE (R106, R108) -/

theorem resumeTest_of_held (len : s.staging.queue.length ≤ 8) (held : s.staging.holdSent = true) :
    s.resumeTest needs = ({ s with staging := { s.staging with holdSent := false } }).notify needs .resume :=
  if_pos ⟨len, held⟩

theorem resumeTest_of_not (stays : ¬ (s.staging.queue.length ≤ 8 ∧ s.staging.holdSent = true)) :
    s.resumeTest needs = s := if_neg stays

theorem dispatch_of_maintenance (mode : s.vault.mode = .maintenance) : s.dispatch needs = s := by
  have closed : ¬ s.mayDispatch = true := by simp [State.mayDispatch, mode]
  unfold State.dispatch
  cases s.staging.queue.length with
  | zero => rfl
  | succ k => exact if_neg closed

/-! ## CANCEL (R107) -/

theorem exec_cancel (l : Label) (ha : s.accepts h .cancel) : exec (.cancel h l) s = .next ((s.received h).cancel h l) :=
  congrArg Host.Outcome.next (request_accepted _ ha)

theorem cancel_invalid (bad : goodLabel l = false) : s.cancel h l = s.refuse h .cancel .invalid := if_pos bad

theorem cancel_notFound (good : goodLabel l = true) (absent : s.record? l = none) :
    s.cancel h l = s.refuse h .cancel .notFound := by
  simp only [State.cancel, good, absent, Bool.true_eq_false, if_false]

theorem cancel_state (good : goodLabel l = true) (found : s.record? l = some (p, r)) (hr : r.state ≠ .requested)
    (hp : r.state ≠ .picking) : s.cancel h l = s.refuse h .cancel .state := by
  simp only [State.cancel, good, found, hr, hp, Bool.true_eq_false, if_false]

theorem cancel_of_requested (good : goodLabel l = true) (found : s.record? l = some (p, r)) (hr : r.state = .requested) :
    let v := (s.unqueue l).putRecord p (s.backToVault r)
    s.cancel h l = (v.answer h .cancel (v.awaits [.custody p]) .ok (.cancelled .requested)).resumeTest
      (v.awaits [.custody p]) := by
  simp only [State.cancel, good, found, hr, Bool.true_eq_false, if_false, if_true]

theorem cancel_of_picking {n : Fin 32} (good : goodLabel l = true) (found : s.record? l = some (p, r))
    (hr : r.state = .picking) (slot : r.slot = some n) :
    let v := (s.putSlot n .free).putRecord p (s.backToVault r)
    s.cancel h l = (v.answer h .cancel (v.awaits [.custody p]) .ok (.cancelled .picking)).dispatch
      (v.awaits [.custody p]) := by
  simp only [State.cancel, State.freeSlotOf, good, found, hr, slot, Bool.true_eq_false, reduceCtorEq, if_false, if_true]

/-! ## The pick lapse (R112) -/

@[simp] theorem putSlot_record? (n : Fin 32) (x : Slot) (s : State) : (s.putSlot n x).record? l = s.record? l :=
  congrArg (findLabel l) (putSlot_custody n x s)

@[simp] theorem putSlot_backToVault (n : Fin 32) (x : Slot) (s : State) :
    (s.putSlot n x).backToVault r = s.backToVault r := by
  unfold State.backToVault
  rw [putSlot_vault]

/-- The lapse of a reservation that has reached the pick timeout. -/
theorem lapsePick_of_due {n : Fin 32} {o : Area} {since : Nat} (reserved : s.staging.slots[n] = .reserved l o since)
    (due : since + s.staging.settings.pickTimeout * 60 ≤ s.vault.uptime) (found : s.record? l = some (p, r)) :
    let v := (s.putSlot n .free).putRecord p (s.backToVault r)
    s.lapsePick needs n = (needs ++ v.awaits [.custody p],
      (v.notify (needs ++ v.awaits [.custody p]) (.pickLapsed l)).dispatch (needs ++ v.awaits [.custody p])) := by
  have overdue : s.pickOverdue since = true := decide_eq_true due
  simp only [State.lapsePick, reserved, overdue, if_true, putSlot_record?, found, putSlot_backToVault]

/-- Any other slot is left. -/
theorem lapsePick_of_not_due {n : Fin 32} (waits : ∀ l o since, s.staging.slots[n] = .reserved l o since →
    s.vault.uptime < since + s.staging.settings.pickTimeout * 60) : s.lapsePick needs n = (needs, s) := by
  unfold State.lapsePick
  split
  · rfl
  · rfl
  · rename_i l o since reserved
    exact if_neg (by simpa [State.pickOverdue] using waits l o since reserved)

theorem exec_pickLapsed (n : Fin 32) (hp : s.power = .running) : exec (.pickLapsed n) s = .next (s.pickLapse n) :=
  congrArg Host.Outcome.next (event_running _ hp)

theorem pickLapse_of_lapses {n : Fin 32} (due : ∃ x ∈ s.store.followups, x.2 = .lapses) : s.pickLapse n = s :=
  if_pos (List.any_eq_true.2 (by simpa using due))

theorem pickLapse_of_none {n : Fin 32} (none : ∀ x ∈ s.store.followups, x.2 ≠ .lapses) :
    s.pickLapse n = (s.lapsePick [] n).2 :=
  if_neg fun some => by
    obtain ⟨x, mem, lapses⟩ := List.any_eq_true.1 some
    exact none x mem (beq_iff_eq.1 lapses)

/-- A slot whose reservation is not due is left, whether or not lapses are to come. -/
theorem pickLapse_of_not_due {n : Fin 32} (waits : ∀ l o since, s.staging.slots[n] = .reserved l o since →
    s.vault.uptime < since + s.staging.settings.pickTimeout * 60) : s.pickLapse n = s := by
  unfold State.pickLapse
  rw [lapsePick_of_not_due waits]
  exact ite_self s

/-! ## SET_STAGING (R79, R80) -/

theorem exec_setStaging (f : StagingFields) (ha : s.accepts h .setStaging) :
    exec (.setStaging h f) s = .next ((s.received h).setStaging h f) := congrArg Host.Outcome.next (request_accepted _ ha)

/-- The ranges of SET_STAGING's fields (R79). -/
abbrev stagingInRange (f : StagingFields) : Prop :=
  f.marginOut ≤ 100 ∧ f.minDwellOut ≤ 240 ∧ f.minDwellIn ≤ 1440 ∧ 300 ≤ f.rhCeiling ∧ f.rhCeiling ≤ 800 ∧
    (f.inboundRef = 1 ∨ f.inboundRef = 2) ∧ f.inboundReserve ≤ 16 ∧ 5 ≤ f.pickTimeout ∧ f.pickTimeout ≤ 120 ∧
    1 ≤ f.doseLimit ∧ f.doseLimit ≤ 4294967295 ∧ 300 ≤ f.exchangeTimeout ∧ f.exchangeTimeout ≤ 3600

/-- The settings that fields in range make. -/
def stagingMade (f : StagingFields) : StagingSettings :=
  ⟨f.marginOut, f.minDwellOut, f.minDwellIn, f.rhCeiling, if f.inboundRef = 1 then .vaultA else .vaultB, f.inboundReserve,
    f.pickTimeout, f.doseLimit, f.exchangeTimeout⟩

theorem stagingOfFields_of_range {f : StagingFields} (ok : stagingInRange f) :
    stagingOfFields f = some (stagingMade f) := by
  obtain ⟨margin, out, into, low, high, ref, rest⟩ := ok
  have named : Area.ofVaultNumber f.inboundRef = some (if f.inboundRef = 1 then .vaultA else .vaultB) := by
    rcases ref with one | two
    · rw [one]; rfl
    · rw [two]; rfl
  unfold stagingOfFields
  rw [named]
  exact if_pos ⟨margin, out, into, low, high, rest⟩

theorem stagingOfFields_of_not_range {f : StagingFields} (bad : ¬ stagingInRange f) : stagingOfFields f = none := by
  unfold stagingOfFields
  split
  · rfl
  · rename_i a named
    have ref := (ofVaultNumber_eq_some_iff _ _).1 named
    refine if_neg fun ok => bad ?_
    obtain ⟨margin, out, into, low, high, rest⟩ := ok
    exact ⟨margin, out, into, low, high, ref.imp (·.1) (·.1), rest⟩

theorem setStaging_mode {f : StagingFields} (mode : s.vault.mode ≠ .maintenance) :
    s.setStaging h f = s.refuse h .setStaging .mode := if_pos mode

theorem setStaging_invalid {f : StagingFields} (mode : s.vault.mode = .maintenance) (bad : stagingOfFields f = none) :
    s.setStaging h f = s.refuse h .setStaging .invalid := by
  simp only [State.setStaging, mode, bad, ne_eq, not_true_eq_false, if_false]

/-- The staging settings replaced and handed to the store (R79). -/
def State.withStaging (s : State) (g : StagingSettings) : State :=
  ({ s with staging := { s.staging with settings := g } }).persist .config

/-- In MAINTENANCE the attempt at a changed dose limit takes nothing, and the lapses wait on the write (R80, R108). -/
theorem setStaging_of_settings {f : StagingFields} {g : StagingSettings} (mode : s.vault.mode = .maintenance)
    (ok : stagingOfFields f = some g) :
    let v := s.withStaging g
    s.setStaging h f = (v.answer h .setStaging (v.awaits [.config]) .ok (.staging s.staging.settings)).follow .config
      .lapses State.lapseOverdue := by
  intro v
  have closed : ∀ needs d, ((v.answer h .setStaging needs .ok d).dispatch needs) = v.answer h .setStaging needs .ok d :=
    fun needs d => dispatch_of_maintenance (by simp [v, State.withStaging, mode])
  simp only [State.setStaging, mode, ok, ne_eq, not_true_eq_false, if_false]
  split
  · rfl
  · exact congrArg _ (closed _ _)

end

/-- Settles O33: CANCEL by the record's state, a lapse by the slot's, and SET_STAGING by the ticket of its write. -/
theorem reservationsEndByCancelOrLapse : Obligations.ReservationsEndByCancelOrLapse := by
  unfold Obligations.ReservationsEndByCancelOrLapse
  intro back
  refine ⟨?_, ?_, ?_, ?_, fun s => rfl, ?_⟩
  · intro h l s ha u c
    have cancels : exec c s = .next (u.cancel h l) := exec_cancel l ha
    have returned : ∀ r, u.backToVault r = back s r := fun r => by unfold State.backToVault; rw [received_vault]
    rw [cancels, ← received_record? s h]
    refine ⟨fun bad => congrArg _ (cancel_invalid bad), fun good absent => congrArg _ (cancel_notFound good absent),
      fun p r good found => ⟨fun hr hp => congrArg _ (cancel_state good found hr hp), ?_, ?_⟩⟩
    · intro hr v needs w
      have queue : w.staging.queue = v.staging.queue := by simp only [w, answer_staging]
      have held : w.staging.holdSent = s.staging.holdSent := by
        simp only [w, v, u, answer_staging, putRecord_staging, State.unqueue, received_staging]
      rw [cancel_of_requested good found hr, returned]
      refine ⟨fun len sent => congrArg _ (resumeTest_of_held (by rw [queue]; exact len) (held.trans sent)),
        fun stays => congrArg _ (resumeTest_of_not (by rw [queue, held]; exact stays))⟩
    · intro n hr slot v needs
      rw [cancel_of_picking good found hr slot, returned]
  · intro n l o since s hp reserved
    rw [exec_pickLapsed n hp]
    refine ⟨fun waits => congrArg _ ?_, fun p r due none found => ?_⟩
    · rcases waits with early | lapses
      · refine pickLapse_of_not_due fun l' o' since' same => ?_
        cases reserved.symm.trans same
        exact early
      · exact pickLapse_of_lapses lapses
    · rw [pickLapse_of_none none, lapsePick_of_due reserved due found]
      rfl
  · intro n s hp unreserved
    rw [exec_pickLapsed n hp]
    exact congrArg _ (pickLapse_of_not_due fun l o since same => absurd same (unreserved l o since))
  · intro h f s ha u c inRange
    have sets : exec c s = .next (u.setStaging h f) := exec_setStaging f ha
    have vault : u.vault = s.vault := received_vault s h
    rw [sets, ← vault]
    refine ⟨fun mode => congrArg _ (setStaging_mode mode), fun mode bad =>
      congrArg _ (setStaging_invalid mode (stagingOfFields_of_not_range bad)), ?_⟩
    intro mode ok g v needs w
    obtain ⟨ticket, last⟩ : ∃ ticket, (v.store.pendingOf .config).getLast? = some ticket := persist_has_ticket _ rfl
    have pending : (w.store.pendingOf .config).getLast? = some ticket := by rw [answer_pendingOf, last]
    have waits : needs = v.store.pendingOf .config := awaits_single v .config
    refine ⟨dispatch_of_maintenance (by simp [w, v, mode]), by simp [w, v, u], by simp [w, v, u], ticket,
      by rw [waits, last], ?_⟩
    rw [setStaging_of_settings mode (stagingOfFields_of_range ok)]
    have settings : u.staging.settings = s.staging.settings := by rw [received_staging]
    rw [settings]
    exact congrArg _ (follow_waits pending _ _)
  · intro needs n s
    exact ⟨fun l o since p r reserved due found => lapsePick_of_due reserved due found, lapsePick_of_not_due⟩

end Sys2Proof.Machine
end

