-- ==== Sys2Proof/Proofs/PlacedShelved.lean ====
section
/-! SUPPORT. PLACED and SHELVED: the checks, the slot, the record and its dose (R75, R113 to R115). -/

namespace Sys2Proof.Machine

section
variable {h : ReqHead} {l : Label} {s : State} {p : Nat} {r : CustodyRecord}

/-! ## PLACED (R113) -/

theorem exec_placed (l : Label) (slot : Nat) (ha : s.accepts h .placed) :
    exec (.placed h l slot) s = .next ((s.received h).placed h l slot) := congrArg Host.Outcome.next (request_accepted _ ha)

theorem placed_mode {slot : Nat} (mode : s.vault.mode = .maintenance) : s.placed h l slot = s.refuse h .placed .mode :=
  if_pos mode

theorem placed_invalid {slot : Nat} (mode : s.vault.mode ≠ .maintenance) (bad : goodLabel l = false ∨ 32 ≤ slot) :
    s.placed h l slot = s.refuse h .placed .invalid := by
  simp only [State.placed, mode, if_false]
  split
  · rfl
  · rename_i good
    simp only [slotOfNumber_of_ge (bad.resolve_left good)]

theorem placed_notFound (n : Fin 32) (mode : s.vault.mode ≠ .maintenance) (good : goodLabel l = true)
    (absent : s.record? l = none) : s.placed h l n.val = s.refuse h .placed .notFound := by
  simp only [State.placed, mode, good, slotOfNumber_val, absent, Bool.true_eq_false, if_false]

/-- Past its first checks PLACED goes by the label's record. -/
theorem placed_of_record (n : Fin 32) (mode : s.vault.mode ≠ .maintenance) (good : goodLabel l = true)
    (found : s.record? l = some (p, r)) :
    s.placed h l n.val = if r.state ≠ .picking then s.refuse h .placed .state
      else if r.slot ≠ some n then s.refuse h .placed .wrongSlot
      else s.placeInSlot h p r n := by
  simp only [State.placed, mode, good, slotOfNumber_val, found, Bool.true_eq_false, if_false]

/-- The record that PLACED settles out of its area into Staging (R75, R113). -/
def State.placedRecord (s : State) (r : CustodyRecord) : CustodyRecord :=
  { r with
    state := .stagedOut, location := none, area := some .staging, storedDose := effectiveDose s.accumulators r
    mark := some s.accumulators.staging, inspect := r.inspect || s.overDose r, lastMove := some s.vault.clock }

@[simp] theorem received_placedRecord : (s.received h).placedRecord r = s.placedRecord r := by
  unfold State.placedRecord
  rw [received_accumulators, received_overDose, received_vault]

/-- The slot becomes OCCUPIED OUT, with the held temperature of the record's area as its estimate. -/
theorem placeInSlot_of_area {n : Fin 32} {a : Area} (area : r.area = some a) :
    let v := (s.putSlot n (.occupied r.label .outbound (.area a) 0
      ((s.climate.channels.get (.area a)).held.map fun x => x.temperature))).putRecord p (s.placedRecord r)
    s.placeInSlot h p r n = v.answer h .placed (v.awaits [.custody p]) .ok (.placed n (s.doseOf (s.placedRecord r))) := by
  simp only [State.placeInSlot, State.settled, evaluated_eq, area]
  rfl

/-! ## SHELVED (R114, R115) -/

theorem exec_shelved (l : Label) (x : Location) (ha : s.accepts h .shelved) :
    exec (.shelved h l x) s = .next ((s.received h).shelved h l x) := congrArg Host.Outcome.next (request_accepted _ ha)

theorem shelved_mode {x : Location} (mode : s.vault.mode = .maintenance) :
    s.shelved h l x = s.refuse h .shelved .mode := if_pos mode

theorem shelved_invalid {x : Location} (mode : s.vault.mode ≠ .maintenance) (bad : goodLabel l = false) :
    s.shelved h l x = s.refuse h .shelved .invalid := by
  simp only [State.shelved, mode, bad, if_false, if_true]

theorem shelved_notFound {x : Location} (mode : s.vault.mode ≠ .maintenance) (good : goodLabel l = true)
    (absent : s.record? l = none) : s.shelved h l x = s.refuse h .shelved .notFound := by
  simp only [State.shelved, mode, good, absent, Bool.true_eq_false, if_false]

theorem shelved_of_record {x : Location} (mode : s.vault.mode ≠ .maintenance) (good : goodLabel l = true)
    (found : s.record? l = some (p, r)) :
    s.shelved h l x = if r.state = .stagedOut ∨ r.state = .readyOut ∨ r.state = .readyIn then
        if s.heldForCourier r then s.refuse h .shelved .bound else s.shelve h p r x
      else s.refuse h .shelved .state := by
  have split : (r.state ≠ .stagedOut ∧ r.state ≠ .readyOut ∧ r.state ≠ .readyIn) ↔
      ¬ (r.state = .stagedOut ∨ r.state = .readyOut ∨ r.state = .readyIn) := by tauto
  simp only [State.shelved, mode, good, found, split, ite_not, Bool.true_eq_false, if_false]

/-- A consignment that keeps a record from being shelved: SEALED, READY or LOCKED_OUT (R114). -/
theorem heldForCourier_iff : s.heldForCourier r = true ↔ ∃ k i x, r.consignment = some k ∧
    s.consignment? k = some (i, x) ∧ (x.state = .sealed ∨ x.state = .ready ∨ x.state = .lockedOut) := by
  unfold State.heldForCourier
  cases bound : r.consignment with
  | none => simp
  | some k =>
    cases found : s.consignment? k with
    | none => simp [found]
    | some y =>
      obtain ⟨i, x⟩ := y
      simp [found, or_assoc]

/-- The record on its new shelf place (R75, R115). -/
def State.shelvedRecord (s : State) (x : Location) (r : CustodyRecord) : CustodyRecord :=
  { r with
    state := .inVault, location := some x, area := some (resolveLocation s.vault.descriptors x), slot := none
    consignment := none, storedDose := effectiveDose s.accumulators r
    mark := some (s.accumulators.get (resolveLocation s.vault.descriptors x)), inspect := r.inspect || s.overDose r
    new := false, lastMove := some s.vault.clock }

@[simp] theorem received_shelvedRecord (x : Location) : (s.received h).shelvedRecord x r = s.shelvedRecord x r := by
  unfold State.shelvedRecord
  rw [received_accumulators, received_overDose, received_vault]

/-- Of a record in a slot, once it has left an OPEN consignment. -/
theorem shelve_of_slot {x : Location} {n : Fin 32} (slot : r.slot = some n) :
    let v := ((s.leaveOpenConsignment r).putSlot n .free).putRecord p (s.shelvedRecord x r)
    s.shelve h p r x = (v.answer h .shelved (v.awaits [.custody p]) .ok (.shelved (resolveLocation s.vault.descriptors x)
      (s.doseOf (s.shelvedRecord x r)))).dispatch (v.awaits [.custody p]) := by
  simp only [State.shelve, State.freeSlotOf, State.shelvedAt, State.settled, evaluated_eq, slot]
  rfl

theorem leaveOpenConsignment_of_open {k : Nat} {i : Fin 16} {x : Consignment} (bound : r.consignment = some k)
    (found : s.consignment? k = some (i, x)) (opened : x.state = .opened) :
    s.leaveOpenConsignment r = s.putConsign i { x with outbound := x.outbound.erase r.label } := by
  simp only [State.leaveOpenConsignment, bound, found, opened, if_true]

theorem leaveOpenConsignment_of_other
    (other : ∀ k i x, r.consignment = some k → s.consignment? k = some (i, x) → x.state ≠ .opened) :
    s.leaveOpenConsignment r = s := by
  unfold State.leaveOpenConsignment
  split
  · rfl
  rename_i k bound
  split
  · rfl
  · rename_i i x found
    exact if_neg (other k i x bound found)

end

/-- Settles O35: each request by its checks in order, then by the record that it finds. -/
theorem placedAndShelvedMoveTheTape : Obligations.PlacedAndShelvedMoveTheTape := by
  constructor
  · intro h l slot s ha u c refused
    have places : exec c s = .next (u.placed h l slot) := exec_placed l slot ha
    have modes : u.vault.mode = s.vault.mode := congrArg _ (received_vault s h)
    rw [places, ← modes, ← received_record? s h]
    refine ⟨fun mode => congrArg _ (placed_mode mode), fun mode bad => congrArg _ (placed_invalid mode bad),
      fun mode good fits absent => congrArg _ (placed_notFound ⟨slot, fits⟩ mode good absent), ?_⟩
    rintro n p r mode good rfl found
    have label : r.label = l := record_label found
    rw [placed_of_record n mode good found]
    refine ⟨fun other => congrArg _ (if_pos other), fun picking other => ?_, ?_⟩
    · rw [if_neg (not_not.2 picking), if_pos other]
    · intro a picking same area v
      rw [if_neg (not_not.2 picking), if_neg (not_not.2 same), placeInSlot_of_area area, label, received_placedRecord,
        received_doseOf, received_climate]
      rfl
  · intro h l loc s ha u c a refused onShelf bound
    have shelves : exec c s = .next (u.shelved h l loc) := exec_shelved l loc ha
    have modes : u.vault.mode = s.vault.mode := congrArg _ (received_vault s h)
    have consigned : ∀ k, u.consignment? k = s.consignment? k := received_consignment? s h
    have held : ∀ r, u.heldForCourier r = true ↔ bound r := fun r => by
      rw [heldForCourier_iff]
      simp only [consigned]
      rfl
    rw [shelves, ← modes, ← received_record? s h]
    refine ⟨fun mode => congrArg _ (shelved_mode mode), fun mode bad => congrArg _ (shelved_invalid mode bad),
      fun mode good absent => congrArg _ (shelved_notFound mode good absent), fun p r mode good found => ?_⟩
    have label : r.label = l := record_label found
    rw [shelved_of_record mode good found]
    refine ⟨fun other => congrArg _ (if_neg other), fun shelf held' => ?_, ?_⟩
    · rw [if_pos shelf, if_pos ((held r).2 held')]
    · intro n shelf free slot r' ends
      rw [if_pos shelf, if_neg (fun held' => free ((held r).1 held')), shelve_of_slot slot, received_shelvedRecord,
        received_doseOf, received_vault]
      refine ⟨fun k i x bound found opened => ?_, fun other => ?_⟩
      · rw [leaveOpenConsignment_of_open bound ((consigned k).trans found) opened, label]
        rfl
      · rw [leaveOpenConsignment_of_other fun k i x bound found => other k i x bound ((consigned k).symm.trans found)]
        rfl

end Sys2Proof.Machine
end

