-- ==== Sys2Proof/Proofs/TakenDeposited.lean ====
section
/-! SUPPORT. TAKEN and DEPOSITED: the checks, the hatch list, the record and the consignment (R77, R92, R101,
R163 to R165). -/

namespace Sys2Proof.Machine

section
variable {h : ReqHead} {l : Label} {s : State} {p : Nat} {r : CustodyRecord} {x : Exchange} {i : Fin 16} {c : Consignment}

/-! ## The exchange in whose possession the courier reports (R163, R164) -/

theorem reporting_eq_some_iff : s.reporting = some x ↔
    s.hatch.exchange = some x ∧ s.hatch.arbiter.holds .outer = true ∧ x.leg = .opened := by
  unfold State.reporting
  cases s.hatch.exchange with
  | none => simp
  | some y =>
    simp only [Bool.and_eq_true, beq_iff_eq, Option.some.injEq]
    constructor
    · intro found
      split at found
      · rename_i may
        cases found
        exact ⟨rfl, may⟩
      · cases found
    · rintro ⟨rfl, may⟩
      rw [if_pos may]

theorem reporting_eq_none
    (no : ∀ x, ¬ (s.hatch.exchange = some x ∧ s.hatch.arbiter.holds .outer = true ∧ x.leg = .opened)) :
    s.reporting = none :=
  Option.eq_none_iff_forall_ne_some.2 fun x found => no x (reporting_eq_some_iff.1 found)

/-! ## TAKEN (R101, R163) -/

theorem exec_taken (l : Label) (ha : s.accepts h .taken) : exec (.taken h l) s = .next ((s.received h).taken h l) :=
  congrArg Host.Outcome.next (request_accepted _ ha)

theorem taken_mode (mode : s.vault.mode = .maintenance) : s.taken h l = s.refuse h .taken .mode := if_pos mode

theorem taken_invalid (mode : s.vault.mode ≠ .maintenance) (bad : goodLabel l = false) :
    s.taken h l = s.refuse h .taken .invalid := by
  simp only [State.taken, mode, bad, if_false, if_true]

theorem taken_notFound (mode : s.vault.mode ≠ .maintenance) (good : goodLabel l = true) (absent : s.record? l = none) :
    s.taken h l = s.refuse h .taken .notFound := by
  simp only [State.taken, mode, good, absent, Bool.true_eq_false, if_false]

/-- The hatch list holds the label OUT for the exchange's consignment. -/
def State.holdsOut (s : State) (l : Label) (n : Nat) : Bool :=
  s.hatch.entries.any fun e => e.label == l && e.direction == .outbound && e.number == n

theorem holdsOut_iff {n : Nat} : s.holdsOut l n = true ↔
    ∃ e ∈ s.hatch.entries, e.label = l ∧ e.direction = .outbound ∧ e.number = n := by
  simp only [State.holdsOut, List.any_eq_true, Bool.and_eq_true, beq_iff_eq, and_assoc]

theorem taken_state (mode : s.vault.mode ≠ .maintenance) (good : goodLabel l = true) (found : s.record? l = some (p, r))
    (no : ∀ x, s.reporting = some x → s.holdsOut l x.number = false) : s.taken h l = s.refuse h .taken .state := by
  simp only [State.taken, mode, good, found, Bool.true_eq_false, if_false]
  split
  · rfl
  · rename_i x reports
    have unlisted := no x reports
    unfold State.holdsOut at unlisted
    rw [unlisted]
    rfl

theorem taken_of_entry (mode : s.vault.mode ≠ .maintenance) (good : goodLabel l = true) (found : s.record? l = some (p, r))
    (reports : s.reporting = some x) (listed : s.holdsOut l x.number = true)
    (consigned : s.consignment? x.number = some (i, c)) : s.taken h l = s.takeEntry h p r x i c := by
  unfold State.holdsOut at listed
  simp only [State.taken, mode, good, found, reports, listed, consigned, Bool.true_eq_false, if_false, if_true]

/-- The record with its courier, settled out of the hatch and unbound (R75, R101). -/
def State.takenRecord (s : State) (x : Exchange) (r : CustodyRecord) : CustodyRecord :=
  { r with
    state := .withCourier, area := none, consignment := none, courier := some x.courier
    storedDose := effectiveDose s.accumulators r, mark := none, inspect := r.inspect || s.overDose r
    lastMove := some s.vault.clock }

@[simp] theorem received_takenRecord : (s.received h).takenRecord x r = s.takenRecord x r := by
  unfold State.takenRecord
  rw [received_accumulators, received_overDose, received_vault]

theorem takeEntry_eq :
    let v := (s.putEntries (s.hatch.entries.filter fun e => e.label != r.label)).putRecord p (s.takenRecord x r)
    let w := v.putConsign i { c with takenCount := c.takenCount + 1 }
    let z := { w with hatch := { w.hatch with exchange := some { x with takenList := x.takenList ++ [r.label] } } }
    s.takeEntry h p r x i c = z.answer h .taken (z.awaits [.hatchList, .custody p, .consignment i]) .ok
      (.takenCount (c.takenCount + 1)) := by
  simp only [State.takeEntry, State.settled, evaluated_eq]
  rfl

/-! ## DEPOSITED (R77, R92, R164, R165) -/

theorem exec_deposited (l : Label) (ha : s.accepts h .deposited) :
    exec (.deposited h l) s = .next ((s.received h).deposited h l) := congrArg Host.Outcome.next (request_accepted _ ha)

theorem deposited_mode (mode : s.vault.mode = .maintenance) : s.deposited h l = s.refuse h .deposited .mode := if_pos mode

theorem deposited_invalid (mode : s.vault.mode ≠ .maintenance) (bad : goodLabel l = false) :
    s.deposited h l = s.refuse h .deposited .invalid := by
  simp only [State.deposited, mode, bad, if_false, if_true]

theorem deposited_state (mode : s.vault.mode ≠ .maintenance) (good : goodLabel l = true) (no : s.reporting = none) :
    s.deposited h l = s.refuse h .deposited .state := by
  simp only [State.deposited, mode, good, no, Bool.true_eq_false, if_false]

section
variable (mode : s.vault.mode ≠ .maintenance) (good : goodLabel l = true) (reports : s.reporting = some x)
  (consigned : s.consignment? x.number = some (i, c))
include mode good reports consigned

theorem deposited_excess (excess : c.expected ≤ c.received.length) :
    s.deposited h l = s.refuse h .deposited .excess := by
  simp only [State.deposited, mode, good, reports, consigned, excess, Bool.true_eq_false, if_false, if_true]

variable (room : c.received.length < c.expected)
include room

theorem deposited_full (full : 12 ≤ s.hatch.entries.length) : s.deposited h l = s.refuse h .deposited .full := by
  have full' : Config.hatchCapacity ≤ s.hatch.entries.length := full
  simp only [State.deposited, mode, good, reports, consigned, room.not_ge, full', Bool.true_eq_false, if_false, if_true]

variable (free : s.hatch.entries.length < 12)
include free

theorem deposited_duplicate (found : s.record? l = some (p, r)) (other : r.state ≠ .withCourier) :
    s.deposited h l = s.refuse h .deposited .duplicate := by
  have free' : ¬ Config.hatchCapacity ≤ s.hatch.entries.length := Nat.not_le.2 free
  simp only [State.deposited, mode, good, reports, consigned, room.not_ge, free', found, other, Bool.true_eq_false,
    if_false]

theorem deposited_of_courier (found : s.record? l = some (p, r)) (courier : r.state = .withCourier) :
    s.deposited h l = s.depositEntry h l p (some r) x i c := by
  have free' : ¬ Config.hatchCapacity ≤ s.hatch.entries.length := Nat.not_le.2 free
  simp only [State.deposited, mode, good, reports, consigned, room.not_ge, free', found, courier, Bool.true_eq_false,
    if_false, if_true]

theorem deposited_no_place (absent : s.record? l = none) (none : s.freePlace = none) :
    s.deposited h l = s.refuse h .deposited .full := by
  have free' : ¬ Config.hatchCapacity ≤ s.hatch.entries.length := Nat.not_le.2 free
  simp only [State.deposited, mode, good, reports, consigned, room.not_ge, free', absent, none, Bool.true_eq_false,
    if_false]

theorem deposited_of_new (absent : s.record? l = none) (place : s.freePlace = some p) :
    s.deposited h l = s.depositEntry h l p none x i c := by
  have free' : ¬ Config.hatchCapacity ≤ s.hatch.entries.length := Nat.not_le.2 free
  simp only [State.deposited, mode, good, reports, consigned, room.not_ge, free', absent, place, Bool.true_eq_false,
    if_false]

end

/-- What a deposit does once its record stands in the table: the consignment, the exchange, the response and the
arbitration (R165). -/
def State.endDeposit (h : ReqHead) (l : Label) (p : Nat) (created : Bool) (x : Exchange) (i : Fin 16) (c : Consignment)
    (s : State) : State :=
  let w := s.putConsign i { c with received := c.received ++ [l] }
  let z := { w with hatch := { w.hatch with exchange := some { x with depositedList := x.depositedList ++ [l] } } }
  let needs := z.awaits [.hatchList, .custody p, .key p, .consignment i]
  (z.answer h .deposited needs .ok (.deposited z.hatch.entries.length (c.received ++ [l]).length created)).arbitrate needs

/-- The entry that a deposit makes (R165). -/
def State.depositedEntry (s : State) (l : Label) (x : Exchange) : HatchEntry :=
  ⟨l, .inbound, x.number, (s.climate.channels.get .outside).held.map (fun z => z.temperature), false⟩

theorem depositEntry_of_record :
    s.depositEntry h l p (some r) x i c = ((s.putEntries (s.hatch.entries ++ [s.depositedEntry l x])).putRecord p
      (s.depositedRecord l x.number (some r))).endDeposit h l p false x i c := rfl

theorem depositEntry_of_new :
    s.depositEntry h l p none x i c = ((s.putEntries (s.hatch.entries ++ [s.depositedEntry l x])).createRecord p
      (s.depositedRecord l x.number none)).endDeposit h l p true x i c := rfl

/-- The response's counts: the hatch list's length and the number of labels received. -/
theorem endDeposit_eq {created : Bool} {n : Nat} (count : s.hatch.entries.length = n) :
    let w := s.putConsign i { c with received := c.received ++ [l] }
    let z := { w with hatch := { w.hatch with exchange := some { x with depositedList := x.depositedList ++ [l] } } }
    let needs := z.awaits [.hatchList, .custody p, .key p, .consignment i]
    s.endDeposit h l p created x i c = (z.answer h .deposited needs .ok
      (.deposited n (c.received.length + 1) created)).arbitrate needs := by
  intro w z needs
  have entries : z.hatch.entries.length = n := (congrArg (·.entries.length) (putConsign_hatch _ _ s)).trans count
  have labels : (c.received ++ [l]).length = c.received.length + 1 := List.length_append
  rw [← entries, ← labels]
  rfl

@[simp] theorem received_depositedEntry : (s.received h).depositedEntry l x = s.depositedEntry l x := by
  unfold State.depositedEntry
  rw [received_climate]

@[simp] theorem received_depositedRecord {n : Nat} {old : Option CustodyRecord} :
    (s.received h).depositedRecord l n old = s.depositedRecord l n old := by
  unfold State.depositedRecord
  rw [received_accumulators, received_vault]

end

/-- Settles O47: each request by its checks in order, then by the entry and the record that it moves. -/
theorem takenAndDepositedMoveEntries : Obligations.TakenAndDepositedMoveEntries := by
  constructor
  · intro h l s ha u c refused
    have takes : exec c s = .next (u.taken h l) := exec_taken l ha
    have modes : u.vault.mode = s.vault.mode := congrArg _ (received_vault s h)
    have hatch : u.hatch = s.hatch := received_hatch s h
    rw [takes, ← modes, ← received_record? s h, ← hatch]
    refine ⟨fun mode => congrArg _ (taken_mode mode), fun mode bad => congrArg _ (taken_invalid mode bad),
      fun mode good absent => congrArg _ (taken_notFound mode good absent), fun p r mode good found => ?_⟩
    have label : r.label = l := record_label found
    intro may
    refine ⟨fun no => congrArg _ (taken_state mode good found fun x reports => ?_), ?_⟩
    · obtain ⟨opened, holds, leg⟩ := reporting_eq_some_iff.1 reports
      refine Bool.eq_false_iff.2 fun listed => no x ⟨opened, holds, leg, holdsOut_iff.1 listed⟩
    · rintro x i y ⟨opened, holds, leg, listed⟩ consigned v w z
      rw [taken_of_entry mode good found (reporting_eq_some_iff.2 ⟨opened, holds, leg⟩) (holdsOut_iff.2 listed)
        ((received_consignment? s h _).trans consigned), takeEntry_eq, received_takenRecord, label]
      rfl
  · intro h l s ha u c refused may
    have deposits : exec c s = .next (u.deposited h l) := exec_deposited l ha
    have modes : u.vault.mode = s.vault.mode := congrArg _ (received_vault s h)
    have hatch : u.hatch = s.hatch := received_hatch s h
    have reports : ∀ x, may x → u.reporting = some x := fun x mays => reporting_eq_some_iff.2 (by rw [hatch]; exact mays)
    rw [deposits, ← modes, ← received_record? s h]
    refine ⟨fun mode => congrArg _ (deposited_mode mode), fun mode bad => congrArg _ (deposited_invalid mode bad),
      fun mode good no => congrArg _ (deposited_state mode good (reporting_eq_none (by rw [hatch]; exact no))), ?_⟩
    intro x i y mode good mays consigned
    have consigned' : u.consignment? x.number = some (i, y) := (received_consignment? s h _).trans consigned
    have listed : u.hatch.entries.length = s.hatch.entries.length := by rw [hatch]
    refine ⟨fun excess => congrArg _ (deposited_excess mode good (reports x mays) consigned' excess), fun room full =>
      congrArg _ (deposited_full mode good (reports x mays) consigned' room (by rw [listed]; exact full)), ?_⟩
    intro room free entry ends v
    replace free : u.hatch.entries.length < 12 := by rw [listed]; exact free
    have joined : ∀ t : State, t.hatch = (u.putEntries (s.hatch.entries ++ [s.depositedEntry l x])).hatch →
        t.hatch.entries.length = s.hatch.entries.length + 1 := fun t same => by
      rw [same, putEntries_hatch]
      exact List.length_append
    have place : u.freePlace = s.freePlace := by
      unfold State.freePlace
      rw [received_custody]
    have known := reports x mays
    refine ⟨fun p r found other => congrArg _ (deposited_duplicate mode good known consigned' room free found other),
      fun p r found courier => ?_, fun absent full => congrArg _
        (deposited_no_place mode good known consigned' room free absent (place.trans full)), fun p absent first => ?_⟩
    · rw [deposited_of_courier mode good known consigned' room free found courier, depositEntry_of_record,
        received_depositedEntry, received_depositedRecord, hatch, endDeposit_eq (joined _ (putRecord_hatch _ _ _))]
      rfl
    · rw [deposited_of_new mode good known consigned' room free absent (place.trans first), depositEntry_of_new,
        received_depositedEntry, received_depositedRecord, hatch, endDeposit_eq (joined _ (createRecord_hatch _ _ _))]
      rfl

end Sys2Proof.Machine
end

