-- ==== Sys2Proof/Proofs/Tracks.lean ====
section
/-! SUPPORT. The store and the block of one record (R89, R179, R184): when the store follows it, what that is read from,
and that the operations the blocks share keep it. -/

namespace Sys2Proof.Machine

/-! ## The store follows the block of a record -/

/-- What says that the store follows the block of a record, with the content that the block holds: the custody table is in
canonical form, the write counts are of 16 bits, and, unless the record is one of those left out, its last write that has
not ended has the content, or with none its cell gives it back, or a format has it still to write. -/
structure Tracking (out : List StoreRecord) (r : StoreRecord) (table : List (Nat × CustodyRecord)) (live : Content)
    (cell : Cell) (last : Option Content) (format : FormatPhase) : Prop where
  table : custodyWf table = true
  counts : cell.first.count < 65536 ∧ cell.second.count < 65536
  held : r ∉ out → r.wf = true → r ≠ .snapshot →
    (∃ k, format = .writing k ∧ (r = .status ∨ r.formatted = true ∧ k ≤ r.addr)) ∨ last = some live ∨
      last = none ∧ cell.read = some live

/-- The store follows the block of a record, unless the record is one of those left out: those that their blocks have
changed and have yet to hand over. -/
def State.tracksBut (out : List StoreRecord) (r : StoreRecord) (s : State) : Prop :=
  Tracking out r s.custody (s.liveContent r) (s.store.cell r) (s.store.lastWrite r) s.store.format

/-- The store follows the block of a record. -/
abbrev State.tracks (r : StoreRecord) (s : State) : Prop := s.tracksBut [] r

section
variable {out : List StoreRecord} {q r : StoreRecord} {s t : State}

theorem storeFollows_of_tracks (h : ∀ r, s.tracks r) : s.storeFollows :=
  ⟨fun r => (h r).counts, fun _ r wf hr => (h r).held (List.not_mem_nil) wf hr⟩

theorem tracks_of_storeFollows (table : s.meets .tables) (h : s.storeFollows) (running : s.power = .running) :
    s.tracks r :=
  ⟨table.table, h.1 r, fun _ => h.2 running r⟩

/-! ## What it is read from -/

/-- A change of the blocks that leaves the table in canonical form, and every record but those named as it was. -/
theorem tracksBut_of_live (h : s.tracksBut out r) {more : List StoreRecord} (table : custodyWf t.custody = true)
    (live : r ∉ more → r ≠ .snapshot → t.liveContent r = s.liveContent r) (store : t.store = s.store := by rfl) :
    t.tracksBut (more ++ out) r := by
  refine ⟨table, by rw [store]; exact h.counts, fun away wf hr => ?_⟩
  obtain ⟨new, old⟩ := not_or.1 fun either => away (List.mem_append.2 either)
  rw [store, live new hr]
  exact h.held old wf hr

/-- The fields that the records' contents and the store's queue of writes are read from. -/
structure RecordParts where
  descriptors : Vector Descriptor 8
  climate : PerArea ClimateSettings
  staging : StagingSettings
  areas : PerArea FireArea
  detectors : Vector DetectorRecord 12
  custody : List (Nat × CustodyRecord)
  consign : ConsignTable
  slots : Vector Slot 32
  entries : List HatchEntry
  accumulators : PerArea Nat
  cells : List (StoreRecord × Cell)
  base : Nat × Nat
  inflight : Option Job
  queue : List Job
  recorded : Cause
  flags : DamageFlags
  format : FormatPhase

/-- The parts of the state that the records' contents and the store's queue of writes are read from. -/
def State.recordParts (s : State) : RecordParts :=
  ⟨s.vault.descriptors, s.climate.settings, s.staging.settings, s.fire.areas, s.fire.detectors, s.custody, s.consign,
    s.staging.slots, s.hatch.entries, s.accumulators, s.store.cells, s.store.base, s.store.inflight, s.store.queue,
    s.store.recorded, s.store.flags, s.store.format⟩

/-- An operation that leaves those parts keeps the store on its blocks. -/
theorem tracks_congr (h : s.tracksBut out r) (same : t.recordParts = s.recordParts) : t.tracksBut out r := by
  unfold State.recordParts at same
  injection same with descriptors climate staging areas detectors custody consign slots entries accumulators cells base
    inflight queue recorded flags format
  have live : r ≠ .snapshot → t.liveContent r = s.liveContent r := by
    intro hr
    cases r with
    | snapshot => exact absurd rfl hr
    | _ => simp only [State.liveContent, State.configRecord, *]
  have cell : t.store.cell r = s.store.cell r := by unfold Store.cell; rw [cells, base]
  have last : t.store.lastWrite r = s.store.lastWrite r := by unfold Store.lastWrite; rw [inflight, queue]
  refine ⟨by rw [custody]; exact h.table, by rw [cell]; exact h.counts, fun away wf hr => ?_⟩
  rw [cell, last, format, live hr]
  exact h.held away wf hr

/-! ## Link units and outputs (R89, R172, R174, R175) -/

theorem onLink_tracks {p : Port} {f : Link → Link} (h : s.tracks r) : (s.onLink p f).tracks r := h

theorem postNotice_tracks {n : NoticeBody} (h : s.tracks r) : (s.postNotice n).tracks r :=
  tracks_congr h (by simp [State.recordParts])

theorem emit_tracks {needs : List Nat} {xs : List Out} (h : s.tracks r) : (s.emit needs xs).tracks r :=
  tracks_congr h (by rw [emit_frame]; rfl)

theorem notify_tracks {needs : List Nat} {n : NoticeBody} (h : s.tracks r) : (s.notify needs n).tracks r := emit_tracks h

theorem answer_tracks {x : ReqHead} {k : RequestKind} {needs : List Nat} {c : ResultCode} {d : ResponseData}
    (h : s.tracks r) : (s.answer x k needs c d).tracks r := emit_tracks h

theorem refuse_tracks {x : ReqHead} {k : RequestKind} {c : ResultCode} (h : s.tracks r) : (s.refuse x k c).tracks r :=
  emit_tracks h

theorem validFrame_tracks {p : Port} (h : s.tracks r) : (s.validFrame p).tracks r :=
  tracks_congr h (by simp [State.recordParts])

theorem startTransmitters_tracks (h : s.tracks r) : s.startTransmitters.tracks r :=
  tracks_congr h (by simp [State.recordParts])

/-! ## Records handed over (R89, R179) -/

theorem liveContent_withStore (s : State) {st : Store} (recorded : st.recorded = s.store.recorded)
    (flags : st.flags = s.store.flags) (format : st.format.inFlight = s.store.format.inFlight) (r : StoreRecord) :
    ({ s with store := st }).liveContent r = s.liveContent r := by
  cases r with
  | status => simp only [State.liveContent, recorded, flags, format]
  | _ => rfl

@[simp] theorem persist_liveContent (q : StoreRecord) (s : State) : (s.persist q).liveContent r = s.liveContent r := by
  rw [persist_frame]
  exact liveContent_withStore s rfl rfl rfl r

@[simp] theorem persistLast_liveContent (q : StoreRecord) (s : State) :
    (s.persistLast q).liveContent r = s.liveContent r := by
  rw [persistLast_frame]
  exact liveContent_withStore s rfl rfl rfl r

@[simp] theorem persist_cell (q : StoreRecord) (s : State) : (s.persist q).store.cell r = s.store.cell r := by
  rw [persist_frame]
  rfl

@[simp] theorem persistLast_cell (q : StoreRecord) (s : State) : (s.persistLast q).store.cell r = s.store.cell r := by
  rw [persistLast_frame]
  rfl

/-- A record that a format folds is one that it has still to write (R184; log 18). -/
theorem leftToFormat_of_folds {st : Store} (h : st.folds r = true) : st.leftToFormat r := by
  unfold Store.folds at h
  split at h
  · rename_i k writing
    obtain ⟨accumulator, ahead⟩ := Bool.and_eq_true_iff.1 h
    refine ⟨k, writing, .inr ⟨?_, of_decide_eq_true ahead⟩⟩
    cases r with
    | accumulator a => rfl
    | _ => cases accumulator
  · cases h
  · cases h

/-- A record handed over is followed again (R89, R179). -/
theorem persist_tracksBut (h : s.tracksBut (q :: out) r) : (s.persist q).tracksBut out r := by
  refine ⟨by rw [persist_custody]; exact h.table, by rw [persist_cell]; exact h.counts, fun away wf hr => ?_⟩
  rw [persist_store_format, persist_liveContent, persist_cell]
  cases folds : s.store.folds q with
  | true =>
    by_cases same : r = q
    · subst same
      exact .inl (leftToFormat_of_folds folds)
    · have kept : s.persist q = s := if_pos folds
      rw [kept]
      exact h.held (fun hm => (List.mem_cons.1 hm).elim same away) wf hr
  | false =>
    rw [persist_lastWrite q r s folds]
    by_cases same : r = q
    · subst same
      rw [if_pos rfl]
      exact .inr (.inl rfl)
    · rw [if_neg same]
      exact h.held (fun hm => (List.mem_cons.1 hm).elim same away) wf hr

theorem persist_tracks (h : s.tracks r) : (s.persist q).tracks r :=
  persist_tracksBut (tracksBut_of_live (more := [q]) h h.table fun _ _ => rfl)

/-- A creation's or a removal's write is followed as well (R179). -/
theorem persistLast_tracksBut (hq : q.isFireFlags = false) (h : s.tracksBut (q :: out) r) :
    (s.persistLast q).tracksBut out r := by
  refine ⟨by rw [persistLast_custody]; exact h.table, by rw [persistLast_cell]; exact h.counts, fun away wf hr => ?_⟩
  rw [persistLast_store_format, persistLast_liveContent, persistLast_cell, persistLast_lastWrite q r s hq]
  by_cases same : r = q
  · subst same
    rw [if_pos rfl]
    exact .inr (.inl rfl)
  · rw [if_neg same]
    exact h.held (fun hm => (List.mem_cons.1 hm).elim same away) wf hr

theorem follow_tracks {f : Followup} {now : State → State} (h : s.tracks r) (hn : s.tracks r → (now s).tracks r) :
    (s.follow q f now).tracks r := by
  unfold State.follow
  split
  · exact h
  · exact hn h

/-! ## The tables' writes (R89, R111, R122, R149) -/

/-- The record at a place of a table in canonical form. -/
theorem recordAt_of_mem {p : Nat} {x : CustodyRecord} {table : List (Nat × CustodyRecord)} (wf : custodyWf table = true)
    (there : (p, x) ∈ table) : recordAt p table = some x :=
  (recordAt_iff ((custodyWf_iff _).1 wf).1 p x).2 there

/-- A record placed in the table changes its own content, and that of its key entry where the label is another. -/
theorem liveContent_placeRecord {p : Nat} {x : CustodyRecord} (hp : r ≠ .custody p) (hk : r ≠ .key p) :
    ({ s with custody := placeRecord p x s.custody }).liveContent r = s.liveContent r := by
  cases r with
  | custody m =>
    simp only [State.liveContent, recordAt_placeRecord]
    rw [if_neg fun e => hp (congrArg _ e)]
  | key m =>
    simp only [State.liveContent, recordAt_placeRecord]
    rw [if_neg fun e => hk (congrArg _ e)]
  | _ => rfl

/-- A record of the table is replaced by one with its label (R89). -/
theorem putRecord_tracks {p : Nat} {x x' : CustodyRecord} (h : s.tracks r) (there : (p, x) ∈ s.custody)
    (label : x'.label = x.label) : (s.putRecord p x').tracks r := by
  have place := ((custodyWf_iff _).1 h.table).2 _ there
  refine persist_tracksBut (tracksBut_of_live (more := [.custody p]) h (placeRecord_wf h.table place x') fun away _ => ?_)
  by_cases key : r = .key p
  · subst key
    simp only [State.liveContent, recordAt_placeRecord, if_pos, recordAt_of_mem h.table there, Option.map_some, label]
  · exact liveContent_placeRecord (fun e => away (List.mem_singleton.2 e)) key

/-- A record is created at a free place, with its key entry (R82, R179). -/
theorem createRecord_tracks {p : Nat} {x : CustodyRecord} (h : s.tracks r) (place : p < Config.custodyPlaces) :
    (s.createRecord p x).tracks r := by
  refine persistLast_tracksBut rfl (persistLast_tracksBut rfl
    (tracksBut_of_live (more := [.custody p, .key p]) h (placeRecord_wf h.table place x) fun away _ => ?_))
  exact liveContent_placeRecord (fun e => away (by simp [e])) fun e => away (by simp [e])

/-- What a place reads once the records of a place have left the table. -/
theorem recordAt_remove (p m : Nat) (table : List (Nat × CustodyRecord)) :
    recordAt m (table.filter fun x => x.1 != p) = if m = p then none else recordAt m table := by
  induction table with
  | nil => simp [recordAt]
  | cons y ys ih =>
    by_cases leaves : y.1 = p
    · rw [List.filter_cons_of_neg (by simpa using leaves), ih]
      by_cases same : m = p
      · rw [if_pos same, if_pos same]
      · rw [if_neg same, if_neg same, recordAt, if_neg fun e => same (e.symm.trans leaves)]
    · rw [List.filter_cons_of_pos (by simpa using leaves), recordAt, recordAt, ih]
      by_cases here : y.1 = m
      · rw [if_pos here, if_pos here, if_neg fun e => leaves (here.trans e)]
      · rw [if_neg here, if_neg here]

/-- A record is removed, with its key entry (R93). -/
theorem removeRecord_tracks {p : Nat} (h : s.tracks r) : (s.removeRecord p).tracks r := by
  refine persistLast_tracksBut rfl (persistLast_tracksBut rfl
    (tracksBut_of_live (more := [.key p, .custody p]) h (filter_custodyWf h.table _) fun away _ => ?_))
  cases r with
  | custody m =>
    simp only [State.liveContent, recordAt_remove]
    rw [if_neg fun e => away (by simp [e])]
  | key m =>
    simp only [State.liveContent, recordAt_remove]
    rw [if_neg fun e => away (by simp [e])]
  | _ => rfl

theorem putSlot_tracks {n : Fin 32} {x : Slot} (h : s.tracks r) : (s.putSlot n x).tracks r := by
  refine persist_tracksBut (tracksBut_of_live (more := [.slot n]) h h.table fun away _ => ?_)
  cases r with
  | slot m =>
    simp only [State.liveContent]
    rw [vector_getElem_set, if_neg fun e => away (by simp [e])]
  | _ => rfl

/-- A change of the slots in their volatile fields alone needs no write (R111). -/
theorem mapSlots_tracks {f : Slot → Slot} (h : s.tracks r) (hf : ∀ x : Slot, (f x).stored = x.stored) :
    (s.mapSlots f).tracks r := by
  refine tracksBut_of_live (more := []) h h.table fun _ _ => ?_
  cases r with
  | slot m =>
    simp only [State.liveContent, mapSlots_staging]
    rw [tabulate_get, hf]
  | _ => rfl

theorem putConsign_tracks {i : Fin 16} {c : Consignment} (h : s.tracks r) : (s.putConsign i c).tracks r := by
  refine persist_tracksBut (tracksBut_of_live (more := [.consignment i]) h h.table fun away _ => ?_)
  cases r with
  | consignment j =>
    simp only [State.liveContent]
    rw [vector_getElem_set, if_neg fun e => away (by simp [e])]
  | _ => rfl

theorem putEntries_tracks {es : List HatchEntry} (h : s.tracks r) : (s.putEntries es).tracks r := by
  refine persist_tracksBut (tracksBut_of_live (more := [.hatchList]) h h.table fun away _ => ?_)
  cases r with
  | hatchList => exact absurd (List.mem_singleton.2 rfl) away
  | _ => rfl

/-- A change of the configuration is handed over (R3, R33, R58, R59, R79). -/
theorem config_tracks (h : s.tracks r) (table : t.custody = s.custody) (store : t.store = s.store)
    (live : r ≠ .config → r ≠ .snapshot → t.liveContent r = s.liveContent r) : (t.persist .config).tracks r :=
  persist_tracksBut (tracksBut_of_live (more := [.config]) h (by rw [table]; exact h.table)
    (fun away => live fun e => away (List.mem_singleton.2 e)) store)

end

end Sys2Proof.Machine
end

