-- ==== Sys2Proof/Proofs/TrackBlocks.lean ====
section
/-! SUPPORT. The queue and the slots, the consignment test, the arbiter and the fire unit keep the store on the block of
each record (R89, R179). -/

namespace Sys2Proof.Machine

section
variable {r : StoreRecord} {s t : State}

/-! ## The queue and the slots (R103, R106, R108 to R112) -/

@[simp] theorem backToVault_label (s : State) (x : CustodyRecord) : (s.backToVault x).label = x.label := rfl

@[simp] theorem settled_label (s : State) (after : Option Area) (x : CustodyRecord) :
    (s.settled after x).label = x.label := by
  unfold State.settled State.evaluated
  split <;> rfl

theorem unqueue_tracks {l : Label} (h : s.tracks r) : (s.unqueue l).tracks r := tracks_congr h rfl

theorem resumeTest_tracks {needs : List Nat} (h : s.tracks r) : (s.resumeTest needs).tracks r := by
  have told : State.tracks r { s with staging := { s.staging with holdSent := false } } := tracks_congr h rfl
  unfold State.resumeTest
  split
  · exact notify_tracks told
  · exact h

theorem holdTest_tracks {needs : List Nat} (h : s.tracks r) : (s.holdTest needs).tracks r := by
  have told : State.tracks r { s with staging := { s.staging with holdSent := true } } := tracks_congr h rfl
  unfold State.holdTest
  split
  · exact notify_tracks told
  · exact h

theorem dropEntry_tracks {needs : List Nat} {p : Nat} {x : CustodyRecord} {why : DropReason} (h : s.tracks r)
    (there : (p, x) ∈ s.custody) : (s.dropEntry needs p x why).tracks r :=
  resumeTest_tracks (notify_tracks (putRecord_tracks (unqueue_tracks h) there rfl))

theorem pickEntry_tracks {needs : List Nat} {p : Nat} {x : CustodyRecord} {a : Area} {n : Fin 32} (h : s.tracks r)
    (there : (p, x) ∈ s.custody) : (s.pickEntry needs p x a n).tracks r := by
  refine resumeTest_tracks (notify_tracks (putRecord_tracks (x := x) (unqueue_tracks (putSlot_tracks h)) ?_ rfl))
  rw [unqueue_custody, putSlot_custody]
  exact there

theorem dispatchRound_tracks {needs : List Nat} (h : s.tracks r) (round : s.dispatchRound needs = some t) : t.tracks r := by
  unfold State.dispatchRound at round
  split at round
  · cases round
  split at round
  · rename_i found _ _
    have there := record_mem found
    split at round
    · cases round
      exact dropEntry_tracks h there
    split at round
    · cases round
      exact dropEntry_tracks h there
    · cases round
      exact pickEntry_tracks h there
  · cases round

theorem dispatchRounds_tracks {needs : List Nat} :
    ∀ (k : Nat) {s : State}, s.tracks r → (s.dispatchRounds needs k).tracks r
  | 0, _, h => h
  | k + 1, _, h => by
    unfold State.dispatchRounds
    split
    · split
      · rename_i round
        exact dispatchRounds_tracks k (dispatchRound_tracks h round)
      · exact h
    · exact h

theorem dispatch_tracks {needs : List Nat} (h : s.tracks r) : (s.dispatch needs).tracks r := dispatchRounds_tracks _ h

theorem lapsePick_tracks {needs : List Nat} {n : Fin 32} (h : s.tracks r) : (s.lapsePick needs n).2.tracks r := by
  have freed : (s.putSlot n .free).tracks r := putSlot_tracks h
  simp only [State.lapsePick]
  split
  · exact h
  · exact h
  split
  · split
    · rename_i found
      exact dispatch_tracks (notify_tracks (putRecord_tracks freed (record_mem found) rfl))
    · exact dispatch_tracks (notify_tracks freed)
  · exact h

theorem lapseOverdue_tracks (h : s.tracks r) : s.lapseOverdue.tracks r :=
  foldl_invariant (fun (x : List Nat × State) n => x.2.lapsePick x.1 n) (fun x => x.2.tracks r)
    (fun _ _ => lapsePick_tracks) slotNumbers ([], s) h

/-! ## The consignment test (R129) -/

theorem testConsign_tracks {needs : List Nat} {i : Fin 16} (h : s.tracks r) : (s.testConsign needs i).2.tracks r := by
  simp only [State.testConsign]
  split
  · exact h
  split
  · split
    · exact h
    · exact notify_tracks (putConsign_tracks h)
  split
  · split
    · exact h
    · exact putConsign_tracks h
  · exact h

theorem testNumber_tracks {needs : List Nat} {n : Nat} (h : s.tracks r) : (s.testNumber needs n).2.tracks r := by
  unfold State.testNumber
  split
  · exact testConsign_tracks h
  · exact h

theorem testPlaces_tracks {needs : List Nat} {is : List (Fin 16)} (h : s.tracks r) :
    (s.testPlaces needs is).2.tracks r :=
  foldl_invariant (fun (x : List Nat × State) i => x.2.testConsign x.1 i) (fun x => x.2.tracks r)
    (fun _ _ => testConsign_tracks) is (needs, s) h

/-! ## The arbiter and the end of an exchange (R142 to R147, R162, R166) -/

theorem onArbiter_tracks {f : Arbiter → Arbiter} (h : s.tracks r) : (s.onArbiter f).tracks r := tracks_congr h rfl

theorem withExchange_tracks {x : Option Exchange} (h : s.tracks r) :
    State.tracks r { s with hatch := { s.hatch with exchange := x } } := tracks_congr h rfl

theorem onDoor_tracks {w : Side} {f : Door → Door} (h : s.tracks r) : (s.onDoor w f).tracks r :=
  tracks_congr h (by simp [State.recordParts])

theorem arbitration_tracks (h : s.tracks r) : s.arbitration.1.tracks r :=
  tracks_congr h (by simp [State.recordParts])

theorem arbitrate_tracks {needs : List Nat} (h : s.tracks r) : (s.arbitrate needs).tracks r :=
  tracks_congr h (by simp [State.recordParts])

theorem holdRecord_tracks {l : Label} (h : s.tracks r) : (s.holdRecord l).tracks r := by
  unfold State.holdRecord
  split
  · rename_i found
    exact putRecord_tracks h (record_mem found) rfl
  · exact h

theorem holdEntries_tracks (h : s.tracks r) : s.holdEntries.tracks r :=
  foldl_invariant State.holdRecord (State.tracks r) (fun _ _ => holdRecord_tracks) _ _ (putEntries_tracks h)

theorem endExchange_tracks {needs : List Nat} {x : Exchange} {revoked : Bool} (h : s.tracks r) :
    (s.endExchange needs x revoked).2.tracks r := by
  simp only [State.endExchange]
  split
  · exact withExchange_tracks h
  split
  · exact emit_tracks (withExchange_tracks (putConsign_tracks (holdEntries_tracks h)))
  · exact emit_tracks (withExchange_tracks (putConsign_tracks h))

theorem outerSecured_tracks {needs : List Nat} {ending : Bool} (h : s.tracks r) :
    (s.outerSecured needs ending).2.tracks r := by
  have cleared : (s.onArbiter fun a => { a with revoked := false }).tracks r := onArbiter_tracks h
  simp only [State.outerSecured]
  split
  · exact cleared
  split
  · exact endExchange_tracks cleared
  · exact cleared

theorem endPossession_tracks {needs : List Nat} {side : Side} (h : s.tracks r) :
    (s.endPossession needs side).2.tracks r := by
  have engaged : ((s.onDoor side fun d => { d with released := false }).onArbiter fun a =>
    { a with possession := false, purpose := none, releasePending := false, lapseAt := none }).tracks r :=
    onArbiter_tracks (onDoor_tracks h)
  cases side with
  | inner => exact engaged
  | outer => exact outerSecured_tracks engaged

theorem notifyRevoked_tracks {a : Arbiter} {side : Side} (h : s.tracks r) : (s.notifyRevoked a side).tracks r := by
  unfold State.notifyRevoked
  split
  · exact notify_tracks h
  · exact h

theorem revoke_tracks (h : s.tracks r) : s.revoke.2.tracks r := by
  have told : (((s.onArbiter fun a => { a with pendingInner := none, pendingOuter := false }).notifyRevoked
    s.hatch.arbiter .inner).notifyRevoked s.hatch.arbiter .outer).tracks r :=
    notifyRevoked_tracks (notifyRevoked_tracks (onArbiter_tracks h))
  simp only [State.revoke]
  split
  · split
    · exact onArbiter_tracks told
    · exact endPossession_tracks (onArbiter_tracks told)
  · exact told

theorem hatchFireChange_tracks {wasBlocked : Bool} (h : s.tracks r) : (s.hatchFireChange wasBlocked).tracks r := by
  rw [hatchFireChange_eq]
  split
  · exact arbitrate_tracks (revoke_tracks h)
  · exact arbitrate_tracks h

/-! ## The fire unit's records (R39, R45) -/

/-- The fire flag record and the settings of an area as the store holds them (R58, R60). -/
abbrev FireArea.sameRecord (x y : FireArea) : Prop :=
  x.settings = y.settings ∧ (x.state = .discharged ↔ y.state = .discharged) ∧ x.agentSpent = y.agentSpent

/-- The fire unit's records change, in no area's fire flags or settings and in no detector's settings (R179). -/
theorem withFire_tracks {x : FireUnit} (h : s.tracks r) (areas : ∀ a, (x.areas.get a).sameRecord (s.fire.areas.get a))
    (detectors : ∀ d : Detector, x.detectors[d].assignment = s.fire.detectors[d].assignment ∧
      x.detectors[d].polarity = s.fire.detectors[d].polarity) : State.tracks r { s with fire := x } := by
  refine tracksBut_of_live (more := []) h h.table fun _ _ => ?_
  cases r with
  | config =>
    have settings : x.areas.map (·.settings) = s.fire.areas.map (·.settings) :=
      perArea_ext fun a => by rw [perArea_get_map, perArea_get_map]; exact (areas a).1
    simp only [State.liveContent, State.configRecord, settings, detectors]
  | fireFlags a =>
    obtain ⟨-, discharged, spent⟩ := areas a
    have same : ((x.areas.get a).state == FireState.discharged) = ((s.fire.areas.get a).state == .discharged) :=
      Bool.eq_iff_iff.2 (by simpa using discharged)
    simp only [State.liveContent, same, spent]
  | _ => rfl

theorem onFireArea_tracks {a : Area} {f : FireArea → FireArea} (h : s.tracks r)
    (same : (f (s.fire.areas.get a)).sameRecord (s.fire.areas.get a)) : (s.onFireArea a f).tracks r := by
  refine withFire_tracks h (fun b => ?_) fun _ => ⟨rfl, rfl⟩
  show ((s.fire.areas.set a (f (s.fire.areas.get a))).get b).sameRecord _
  rw [perArea_get_set]
  split
  · rename_i here
    rw [here]
    exact same
  · exact ⟨rfl, .rfl, rfl⟩

/-- A change of an area's fire flags is followed once their record is handed over (R60, R179). -/
theorem fireFlags_tracks {a : Area} {f : FireArea → FireArea} (h : s.tracks r)
    (settings : (f (s.fire.areas.get a)).settings = (s.fire.areas.get a).settings) :
    ((s.onFireArea a f).persist (.fireFlags a)).tracks r := by
  refine persist_tracksBut (tracksBut_of_live (more := [.fireFlags a]) h h.table fun away _ => ?_)
  cases r with
  | config =>
    have same : (s.fire.areas.set a (f (s.fire.areas.get a))).map (·.settings) = s.fire.areas.map (·.settings) := by
      refine perArea_ext fun b => ?_
      rw [perArea_get_map, perArea_get_map, perArea_get_set]
      split
      · rename_i here
        rw [here]
        exact settings
      · rfl
    simp only [State.liveContent, State.configRecord, onFireArea_fire, onFireArea_vault, onFireArea_climate,
      onFireArea_staging, same]
  | fireFlags b =>
    simp only [State.liveContent, onFireArea_fire]
    rw [perArea_get_set, if_neg fun e => away (by simp [e])]
  | _ => rfl

theorem onDetector_tracks {d : Detector} {f : DetectorRecord → DetectorRecord} (h : s.tracks r)
    (assignment : (f s.fire.detectors[d]).assignment = s.fire.detectors[d].assignment)
    (polarity : (f s.fire.detectors[d]).polarity = s.fire.detectors[d].polarity) : (s.onDetector d f).tracks r := by
  refine withFire_tracks h (fun _ => ⟨rfl, .rfl, rfl⟩) fun e => ?_
  show (s.fire.detectors.set d (f s.fire.detectors[d]))[e].assignment = _ ∧ _
  rw [vector_getElem_set]
  split
  · rename_i here
    subst here
    exact ⟨assignment, polarity⟩
  · exact ⟨rfl, rfl⟩

theorem updateTrouble_tracks (h : s.tracks r) : s.updateTrouble.tracks r := tracks_congr h rfl

theorem updateSounders_tracks (h : s.tracks r) : s.updateSounders.tracks r := tracks_congr h rfl

/-! ## A change of fire state (R55) -/

theorem announceFire_tracks {a : Area} {old : FireState} {wasBlocked : Bool} (h : s.tracks r) :
    (s.announceFire a old wasBlocked).tracks r := by
  have posted : (s.postNotice (.fireState a (s.fire.areas.get a).state.name)).tracks r := postNotice_tracks h
  have acted := tracks_congr (t := (s.postNotice (.fireState a (s.fire.areas.get a).state.name)).updateSounders.climateFireChange
    a old) posted (by simp [State.recordParts])
  exact hatchFireChange_tracks (dispatch_tracks acted)

/-- A change of fire state that does not enter or leave DISCHARGED changes no record (R60). -/
theorem changeFire_tracks {a : Area} {new : FireState} (h : s.tracks r)
    (same : new = .discharged ↔ (s.fire.areas.get a).state = .discharged) : (s.changeFire a new).tracks r :=
  announceFire_tracks (onFireArea_tracks h ⟨rfl, same, rfl⟩)

theorem enterCountdown_tracks {a : Area} (h : s.tracks r) (before : (s.fire.areas.get a).state ≠ .discharged) :
    (s.enterCountdown a).tracks r := by
  refine changeFire_tracks h ⟨fun e => ?_, fun e => absurd e before⟩
  split at e <;> cases e

theorem changeDetector_tracks {d : Detector} {x : DetectorState} (h : s.tracks r) : (s.changeDetector d x).tracks r := by
  unfold State.changeDetector
  split
  · exact h
  · exact updateTrouble_tracks (postNotice_tracks (onDetector_tracks h rfl rfl))

/-! ## Detectors, call points and abort-hold (R38 to R48, R53) -/

/-- Each way out of an alarm entry leaves the state or changes the area's fire state, from QUIET or PRE_ALARM (R46). -/
theorem alarmEntry_tracks {d : Detector} (h : s.tracks r) : (s.alarmEntry d).tracks r := by
  unfold State.alarmEntry
  split
  · exact h
  rename_i a _
  have enters : ∀ {x : FireState}, (s.fire.areas.get a).state = x → x ≠ .discharged → (s.enterCountdown a).tracks r :=
    fun state other => enterCountdown_tracks h (by rw [state]; exact other)
  simp only []
  split
  · rename_i quiet _
    exact enters quiet nofun
  · rename_i quiet _
    split
    · exact enters quiet nofun
    · exact changeFire_tracks h (by rw [quiet]; exact ⟨nofun, nofun⟩)
  · rename_i preAlarm _
    exact enters preAlarm nofun
  · rename_i preAlarm _
    split
    · exact enters preAlarm nofun
    · exact h
  all_goals exact h

theorem evaluateDetector_tracks {d : Detector} (h : s.tracks r) : (s.evaluateDetector d).tracks r := by
  simp only [State.evaluateDetector]
  split
  · exact alarmEntry_tracks (changeDetector_tracks h)
  · exact changeDetector_tracks h

theorem detectorLines_tracks {d : Detector} {al fl : Level} (h : s.tracks r) : (s.detectorLines d al fl).tracks r := by
  simp only [State.detectorLines]
  split
  · exact h
  · exact evaluateDetector_tracks (onDetector_tracks h rfl rfl)

theorem onInputs_tracks {f : Inputs → Inputs} (h : s.tracks r) : (s.onInputs f).tracks r := tracks_congr h rfl

theorem detectorChange_tracks {d : Detector} {al fl : Level} (h : s.tracks r) : (s.detectorChange d al fl).tracks r := by
  simp only [State.detectorChange]
  split
  · exact h
  · exact detectorLines_tracks (onInputs_tracks h)

theorem late_of_discharged {x : FireState} (h : x = .discharged) : x.late = true := by rw [h]; rfl

theorem callEvent_tracks {a : Area} (h : s.tracks r) : (s.callEvent a).tracks r := by
  have latched : (s.onFireArea a fun x => { x with callLatch := true }).tracks r :=
    onFireArea_tracks h ⟨rfl, .rfl, rfl⟩
  simp only [State.callEvent]
  split
  · exact h
  split
  · exact latched
  · rename_i early
    refine enterCountdown_tracks latched fun discharged => early ?_
    rw [onFireArea_fire, perArea_get_set, if_pos rfl] at discharged
    exact late_of_discharged discharged

theorem callPointOn_tracks {a : Area} (h : s.tracks r) : (s.callPointOn a).tracks r := by
  unfold State.callPointOn
  split
  · exact h
  · exact callEvent_tracks (onFireArea_tracks h ⟨rfl, .rfl, rfl⟩)

theorem callPointOff_tracks {a : Area} (h : s.tracks r) : (s.callPointOff a).tracks r :=
  onFireArea_tracks h ⟨rfl, .rfl, rfl⟩

theorem settleCall_tracks {a : Area} {l : Level} (h : s.tracks r) : (s.settleCall a l).tracks r := onInputs_tracks h

theorem callPointOperated_tracks {a : Area} (h : s.tracks r) :
    (if (s.fire.areas.get a).callActive then s else (s.settleCall a .high).callPointOn a).tracks r := by
  split
  · exact h
  · exact callPointOn_tracks (settleCall_tracks h)

theorem callPointInactive_tracks {a : Area} (h : s.tracks r) :
    (if (s.fire.areas.get a).callActive then (s.settleCall a .low).callPointOff a else s).tracks r := by
  split
  · exact callPointOff_tracks (settleCall_tracks h)
  · exact h

theorem holdArea_tracks {a : Area} (h : s.tracks r) : (s.holdArea a).tracks r := by
  unfold State.holdArea
  split
  · rename_i counting
    exact changeFire_tracks h (by rw [counting]; exact ⟨nofun, nofun⟩)
  all_goals exact h

theorem resumeArea_tracks {a : Area} (h : s.tracks r) : (s.resumeArea a).tracks r := by
  unfold State.resumeArea
  split
  · rename_i held
    exact changeFire_tracks h (by rw [held]; exact ⟨nofun, nofun⟩)
  · exact h

theorem withAbort_tracks {on : Bool} (h : s.tracks r) : State.tracks r { s with fire := { s.fire with abort := on } } :=
  tracks_congr h rfl

theorem abortOn_tracks (h : s.tracks r) : s.abortOn.tracks r := by
  unfold State.abortOn
  split
  · exact h
  · exact foldl_invariant _ (State.tracks r) (fun _ _ => holdArea_tracks) _ _ (withAbort_tracks h)

theorem abortOff_tracks (h : s.tracks r) : s.abortOff.tracks r := by
  unfold State.abortOff
  split
  · exact foldl_invariant _ (State.tracks r) (fun _ _ => resumeArea_tracks) _ _ (withAbort_tracks h)
  · exact h

theorem settleAbort_tracks {l : Level} (h : s.tracks r) : (s.settleAbort l).tracks r := onInputs_tracks h

theorem abortHoldActive_tracks (h : s.tracks r) :
    (if s.fire.abort then s else (s.settleAbort .high).abortOn).tracks r := by
  split
  · exact h
  · exact abortOn_tracks (settleAbort_tracks h)

theorem abortHoldReleased_tracks (h : s.tracks r) :
    (if s.fire.abort then (s.settleAbort .low).abortOff else s).tracks r := by
  split
  · exact abortOff_tracks (settleAbort_tracks h)
  · exact h

theorem retakeDetector_tracks {d : Detector} (h : s.tracks r) : (s.retakeDetector d).tracks r := by
  have cleared : (s.onDetector d fun x => { x with retake := false }).tracks r := onDetector_tracks h rfl rfl
  simp only [State.retakeDetector]
  split
  · split
    · exact evaluateDetector_tracks cleared
    · exact cleared
  · exact h

theorem retakeCall_tracks {a : Area} (h : s.tracks r) : (s.retakeCall a).tracks r := by
  have cleared : (s.onFireArea a fun x => { x with callRetake := false }).tracks r :=
    onFireArea_tracks h ⟨rfl, .rfl, rfl⟩
  simp only [State.retakeCall]
  split
  · split
    · exact callEvent_tracks cleared
    · exact cleared
  · exact h

theorem retakeInputs_tracks (h : s.tracks r) : s.retakeInputs.tracks r :=
  foldl_invariant _ (State.tracks r) (fun _ _ => retakeCall_tracks) _ _
    (foldl_invariant _ (State.tracks r) (fun _ _ => retakeDetector_tracks) _ _ h)

theorem dropLatch_tracks {a : Area} {d : Detector} (h : s.tracks r) : (s.dropLatch a d).tracks r := by
  simp only [State.dropLatch]
  split
  · exact changeDetector_tracks h
  · exact h

theorem markRetake_tracks {a : Area} {d : Detector} (h : s.tracks r) : (s.markRetake a d).tracks r := by
  simp only [State.markRetake]
  split
  · exact onDetector_tracks h rfl rfl
  · exact h

/-- The four steps of R53, then the order of R55, in an area that is not DISCHARGED. -/
theorem returnToQuiet_tracks {a : Area} (h : s.tracks r) (before : (s.fire.areas.get a).state ≠ .discharged) :
    (s.returnToQuiet a).tracks r := by
  have quiet : (s.onFireArea a fun x => { x with state := .quiet, callLatch := false }).tracks r :=
    onFireArea_tracks h ⟨rfl, ⟨nofun, fun e => absurd e before⟩, rfl⟩
  exact announceFire_tracks (onFireArea_tracks (foldl_invariant (State.markRetake a) (State.tracks r)
    (fun _ _ => markRetake_tracks) Detector.all _
    (foldl_invariant (State.dropLatch a) (State.tracks r) (fun _ _ => dropLatch_tracks) Detector.all _ quiet))
    ⟨rfl, .rfl, rfl⟩)

/-! ## The discharge and the vent time (R49 to R52) -/

theorem startPulse_tracks {a : Area} (h : s.tracks r) : (s.startPulse a).tracks r :=
  onFireArea_tracks (f := fun x => { x with pulse := some s.vault.uptime }) h ⟨rfl, .rfl, rfl⟩

theorem awaitPulse_tracks {a : Area} (h : s.tracks r) : (s.awaitPulse a).tracks r := by
  unfold State.awaitPulse
  split
  · exact tracks_congr h rfl
  · exact startPulse_tracks h

theorem dischargeArea_tracks {a : Area} (h : s.tracks r) : (s.dischargeArea a).tracks r := by
  have entered : ((s.onFireArea a fun x => { x with state := .discharged, agentSpent := true }).persist
    (.fireFlags a)).tracks r := fireFlags_tracks h rfl
  simp only [State.dischargeArea]
  split
  · split
    · split
      · exact notify_tracks (announceFire_tracks entered)
      · exact announceFire_tracks (awaitPulse_tracks entered)
    · exact h
  all_goals exact h

theorem endPulse_tracks {a : Area} (h : s.tracks r) : (s.endPulse a).tracks r := by
  unfold State.endPulse
  split
  · split
    · exact onFireArea_tracks h ⟨rfl, .rfl, rfl⟩
    · exact h
  · exact h

theorem ventEnd_tracks {a : Area} (h : s.tracks r) : (s.ventEnd a).tracks r := by
  simp only [State.ventEnd]
  split
  · rename_i venting
    split
    · exact returnToQuiet_tracks h (by rw [venting]; nofun)
    · exact h
  all_goals exact h

theorem ventArea_tracks {a : Area} (h : s.tracks r) : (s.ventArea a).tracks r :=
  announceFire_tracks (fireFlags_tracks h rfl)

theorem alarmAfresh_tracks {d : Detector} (h : s.tracks r) : (s.alarmAfresh d).tracks r := by
  unfold State.alarmAfresh
  split
  · exact alarmEntry_tracks h
  · exact h

theorem evaluateAfresh_tracks {d : Detector} {latched : Bool} (h : s.tracks r) :
    (s.evaluateAfresh d latched).tracks r := alarmAfresh_tracks (changeDetector_tracks h)

end

end Sys2Proof.Machine
end

