-- ==== Sys2Proof/Proofs/TrackRequests.lean ====
section
/-! SUPPORT. The requests keep the store on the block of each record (R89, R179). -/

namespace Sys2Proof.Machine

section
variable {r : StoreRecord} {s t : State} {q : ReqHead}

/-! ## The fire unit's requests -/

theorem setFireArea_tracks {n : Nat} {c : Option Coincidence} {delay vent : Nat} (h : s.tracks r) :
    (s.setFireArea q n c delay vent).tracks r := by
  simp only [State.setFireArea]
  split
  · exact refuse_tracks h
  split
  · rename_i a g _ _
    split
    · exact refuse_tracks h
    · refine answer_tracks (config_tracks h rfl rfl fun away _ => ?_)
      cases r with
      | config => exact absurd rfl away
      | fireFlags b =>
        simp only [State.liveContent, onFireArea_fire]
        rw [perArea_get_set]
        split
        · rename_i here
          rw [here]
        · rfl
      | _ => rfl
  · exact refuse_tracks h

theorem setFireDetector_tracks {n : Nat} {x : AssignField} {p : Option Polarity} (h : s.tracks r) :
    (s.setFireDetector q n x p).tracks r := by
  simp only [State.setFireDetector]
  split
  · exact refuse_tracks h
  split
  · split
    · exact refuse_tracks h
    · refine follow_tracks (answer_tracks (config_tracks h rfl rfl fun away _ => ?_)) evaluateAfresh_tracks
      cases r with
      | config => exact absurd rfl away
      | _ => rfl
  · exact refuse_tracks h

theorem recharged_tracks {n : Nat} (h : s.tracks r) : (s.recharged q n).tracks r := by
  simp only [State.recharged]
  split
  · exact refuse_tracks h
  split
  · exact refuse_tracks h
  split
  · exact refuse_tracks h
  split
  · exact answer_tracks (fireFlags_tracks h rfl)
  · exact answer_tracks h

theorem isolate_tracks {n : Nat} {on : Option Bool} (h : s.tracks r) : (s.isolate q n on).tracks r := by
  simp only [State.isolate]
  split
  · rename_i d _ _
    have cleared : (s.onDetector d fun x => { x with retake := false }).tracks r := onDetector_tracks h rfl rfl
    refine answer_tracks ?_
    split
    · exact changeDetector_tracks cleared
    · split
      · exact alarmEntry_tracks (changeDetector_tracks cleared)
      · exact changeDetector_tracks cleared
    · exact cleared
    · exact cleared
  · exact refuse_tracks h

theorem confirmArea_tracks {n : Nat} (h : s.tracks r) : (s.confirmArea q n).tracks r := by
  unfold State.confirmArea
  split
  · exact refuse_tracks h
  split
  · rename_i preAlarm
    exact answer_tracks (enterCountdown_tracks h (by rw [preAlarm]; nofun))
  · exact refuse_tracks h

theorem resetArea_tracks {n : Nat} (h : s.tracks r) : (s.resetArea q n).tracks r := by
  simp only [State.resetArea]
  split
  · exact refuse_tracks h
  split
  · exact answer_tracks h
  · rename_i preAlarm
    exact answer_tracks (returnToQuiet_tracks h (by rw [preAlarm]; nofun))
  · exact refuse_tracks h
  · rename_i held
    exact answer_tracks (returnToQuiet_tracks h (by rw [held]; nofun))
  · exact answer_tracks (ventArea_tracks h)
  · exact refuse_tracks h

/-! ## The vault's and the climate unit's requests -/

theorem answerStatus_tracks (h : s.tracks r) : (s.answerStatus q).tracks r := onLink_tracks (answer_tracks h)

theorem subscribe_tracks {m : Byte} (h : s.tracks r) : (s.subscribe q m).tracks r := by
  unfold State.subscribe
  split
  · exact answer_tracks (onLink_tracks h)
  · exact refuse_tracks h

theorem areaQuery_tracks {n : Nat} (h : s.tracks r) : (s.areaQuery q n).tracks r := by
  unfold State.areaQuery
  split
  · exact refuse_tracks h
  · exact answer_tracks h

theorem removeInner_tracks (h : s.tracks r) : s.removeInner.tracks r := by
  unfold State.removeInner
  split
  · exact notify_tracks (onArbiter_tracks h)
  · exact h

theorem actOnMode_tracks {m : VaultMode} (h : s.tracks r) : (s.actOnMode m).tracks r := by
  cases m with
  | staffed => exact dispatch_tracks h
  | unstaffed => exact removeInner_tracks h
  | maintenance => exact removeInner_tracks h

theorem changeMode_tracks {m : VaultMode} (h : s.tracks r) : (s.changeMode q m).tracks r := by
  have changed : State.tracks r { s with vault := { s.vault with mode := m } } := tracks_congr h rfl
  exact arbitrate_tracks (actOnMode_tracks (notify_tracks (answer_tracks changed)))

theorem setMode_tracks {m : Option VaultMode} (h : s.tracks r) : (s.setMode q m).tracks r := by
  unfold State.setMode
  split
  · exact refuse_tracks h
  split
  · exact answer_tracks h
  split
  · exact refuse_tracks h
  split
  · exact refuse_tracks h
  · exact changeMode_tracks h

theorem setTime_tracks {c : Clock} (h : s.tracks r) : (s.setTime q c).tracks r := by
  have set : State.tracks r { s with vault := { s.vault with clock := c, clockSuspect := false } } := tracks_congr h rfl
  exact answer_tracks (persist_tracks set)

theorem startSweep_tracks {k : Nat} (h : s.tracks r) : (s.startSweep k).tracks r := tracks_congr h rfl

theorem setDescriptor_tracks {i : Nat} {e : Option Bool} {v : Location} {n a : Nat} (h : s.tracks r) :
    (s.setDescriptor q i e v n a).tracks r := by
  unfold State.setDescriptor
  split
  · exact refuse_tracks h
  split
  · exact refuse_tracks h
  split
  · exact refuse_tracks h
  split
  · refine follow_tracks (answer_tracks (config_tracks h rfl rfl fun away other => ?_)) startSweep_tracks
    cases r with
    | config => exact absurd rfl away
    | snapshot => exact absurd rfl other
    | _ => rfl
  · exact refuse_tracks h

theorem setClimate_tracks {n : Nat} {f : ClimateSettings} (h : s.tracks r) : (s.setClimate q n f).tracks r := by
  unfold State.setClimate
  split
  · exact refuse_tracks h
  split
  · exact refuse_tracks h
  · refine answer_tracks (config_tracks h rfl rfl fun away _ => ?_)
    cases r with
    | config => exact absurd rfl away
    | _ => rfl

theorem onControl_tracks {a : Area} {f : AreaControl → AreaControl} (h : s.tracks r) : (s.onControl a f).tracks r :=
  tracks_congr h rfl

theorem clearClimateFlags_tracks {n : Nat} (h : s.tracks r) : (s.clearClimateFlags q n).tracks r := by
  unfold State.clearClimateFlags
  split
  · exact refuse_tracks h
  · exact answer_tracks (onControl_tracks h)

/-! ## The custody unit's requests -/

theorem enrol_tracks {l : Label} {x : Location} (h : s.tracks r) : (s.enrol q l x).tracks r := by
  unfold State.enrol
  split
  · exact refuse_tracks h
  split
  · exact refuse_tracks h
  split
  · exact refuse_tracks h
  · rename_i place
    exact answer_tracks (createRecord_tracks h (freePlace_below place))

theorem retire_tracks {l : Label} (h : s.tracks r) : (s.retire q l).tracks r := by
  unfold State.retire
  split
  · exact refuse_tracks h
  split
  · exact refuse_tracks h
  split
  · exact answer_tracks (removeRecord_tracks h)
  · exact refuse_tracks h

theorem relocate_tracks {l : Label} {x : Location} (h : s.tracks r) : (s.relocate q l x).tracks r := by
  unfold State.relocate
  split
  · exact refuse_tracks h
  split
  · exact refuse_tracks h
  rename_i found
  have there := record_mem found
  split
  · exact answer_tracks (putRecord_tracks h there (settled_label s (some (s.resolve x)) _))
  split
  · exact answer_tracks (putRecord_tracks h there (record_label found).symm)
  · exact refuse_tracks h

theorem custodyQuery_tracks {l : Label} (h : s.tracks r) : (s.custodyQuery q l).tracks r := by
  unfold State.custodyQuery
  split
  · exact refuse_tracks h
  split
  · exact refuse_tracks h
  rename_i found
  split
  · exact answer_tracks (putRecord_tracks h (record_mem found) rfl)
  · exact answer_tracks h

theorem doseReset_tracks {l : Label} (h : s.tracks r) : (s.doseReset q l).tracks r := by
  unfold State.doseReset
  split
  · exact refuse_tracks h
  split
  · exact refuse_tracks h
  rename_i found
  split
  · exact refuse_tracks h
  · exact answer_tracks (putRecord_tracks h (record_mem found) rfl)

/-! ## The staging unit's requests -/

theorem enqueue_tracks {p : Nat} {x : CustodyRecord} (h : s.tracks r) (there : (p, x) ∈ s.custody) :
    (s.enqueue q p x).tracks r := by
  have joined : State.tracks r { s with staging := { s.staging with
      queue := s.staging.queue ++ [⟨x.label, s.vault.clock⟩] } } := tracks_congr h rfl
  exact dispatch_tracks (holdTest_tracks (answer_tracks (putRecord_tracks joined there rfl)))

theorem checkout_tracks {l : Label} (h : s.tracks r) : (s.checkout q l).tracks r := by
  unfold State.checkout
  split
  · exact refuse_tracks h
  split
  · exact refuse_tracks h
  split
  · exact refuse_tracks h
  rename_i found
  have there := record_mem found
  split
  · exact refuse_tracks h
  split
  · exact refuse_tracks h
  split
  · exact refuse_tracks h
  split
  · exact answer_tracks (putRecord_tracks h there rfl)
  split
  · exact refuse_tracks h
  · exact enqueue_tracks h there

theorem freeSlotOf_tracks {x : CustodyRecord} (h : s.tracks r) : (s.freeSlotOf x).tracks r := by
  unfold State.freeSlotOf
  split
  · exact putSlot_tracks h
  · exact h

theorem cancel_tracks {l : Label} (h : s.tracks r) : (s.cancel q l).tracks r := by
  unfold State.cancel
  split
  · exact refuse_tracks h
  split
  · exact refuse_tracks h
  rename_i p x found
  have there := record_mem found
  split
  · exact resumeTest_tracks (answer_tracks (putRecord_tracks (unqueue_tracks h) there rfl))
  split
  · refine dispatch_tracks (answer_tracks (putRecord_tracks (x := x) (freeSlotOf_tracks h) ?_ rfl))
    rw [freeSlotOf_custody]
    exact there
  · exact refuse_tracks h

theorem placeInSlot_tracks {p : Nat} {x : CustodyRecord} {n : Fin 32} (h : s.tracks r) (there : (p, x) ∈ s.custody) :
    (s.placeInSlot q p x n).tracks r := by
  refine answer_tracks (putRecord_tracks (x := x) (putSlot_tracks h) ?_ (settled_label s (some .staging) x))
  rw [putSlot_custody]
  exact there

theorem placed_tracks {l : Label} {n : Nat} (h : s.tracks r) : (s.placed q l n).tracks r := by
  unfold State.placed
  split
  · exact refuse_tracks h
  split
  · exact refuse_tracks h
  split
  · exact refuse_tracks h
  split
  · exact refuse_tracks h
  rename_i found
  split
  · exact refuse_tracks h
  split
  · exact refuse_tracks h
  · exact placeInSlot_tracks h (record_mem found)

theorem leaveOpenConsignment_tracks {x : CustodyRecord} (h : s.tracks r) : (s.leaveOpenConsignment x).tracks r := by
  unfold State.leaveOpenConsignment
  split
  · exact h
  split
  · exact h
  split
  · exact putConsign_tracks h
  · exact h

theorem shelve_tracks {p : Nat} {x : CustodyRecord} {l : Location} (h : s.tracks r) (there : (p, x) ∈ s.custody) :
    (s.shelve q p x l).tracks r := by
  refine dispatch_tracks (answer_tracks (putRecord_tracks (x := x) (freeSlotOf_tracks (leaveOpenConsignment_tracks h)) ?_
    (settled_label s (some (s.resolve l)) x)))
  rw [freeSlotOf_custody, leaveOpenConsignment_custody]
  exact there

theorem shelved_tracks {l : Label} {x : Location} (h : s.tracks r) : (s.shelved q l x).tracks r := by
  unfold State.shelved
  split
  · exact refuse_tracks h
  split
  · exact refuse_tracks h
  split
  · exact refuse_tracks h
  rename_i found
  split
  · exact refuse_tracks h
  split
  · exact refuse_tracks h
  · exact shelve_tracks h (record_mem found)

theorem slotQuery_tracks {n : Nat} (h : s.tracks r) : (s.slotQuery q n).tracks r := by
  unfold State.slotQuery
  split
  · exact refuse_tracks h
  · exact answer_tracks h

theorem setStaging_tracks {f : StagingFields} (h : s.tracks r) : (s.setStaging q f).tracks r := by
  have set : ∀ g, (({ s with staging := { s.staging with settings := g } } : State).persist .config).tracks r := fun g =>
    config_tracks h rfl rfl fun away _ => by
      cases r with
      | config => exact absurd rfl away
      | _ => rfl
  unfold State.setStaging
  split
  · exact refuse_tracks h
  split
  · exact refuse_tracks h
  · refine follow_tracks ?_ lapseOverdue_tracks
    split
    · exact answer_tracks (set _)
    · exact dispatch_tracks (answer_tracks (set _))

/-! ## The consignment requests -/

theorem answerConsign_tracks {k : RequestKind} {rs : List StoreRecord} {d : ResponseData} {c : Consignment}
    (h : s.tracks r) : (s.answerConsign q k rs d c).tracks r := arbitrate_tracks (notify_tracks (answer_tracks h))

theorem counter_tracks {n : Nat} (h : s.tracks r) :
    (({ s with consign := { s.consign with counter := n } } : State).persist .counter).tracks r := by
  refine persist_tracksBut (tracksBut_of_live (more := [.counter]) h h.table fun away _ => ?_)
  cases r with
  | counter => exact absurd (List.mem_singleton.2 rfl) away
  | _ => rfl

theorem consignOpen_tracks {courier expected : Nat} (h : s.tracks r) : (s.consignOpen q courier expected).tracks r := by
  unfold State.consignOpen
  split
  · exact refuse_tracks h
  split
  · exact refuse_tracks h
  split
  · exact refuse_tracks h
  · exact answerConsign_tracks (counter_tracks (putConsign_tracks h))

theorem bindRecord_tracks {p : Nat} {x : CustodyRecord} {n : Option Nat} (h : s.tracks r) (there : (p, x) ∈ s.custody) :
    (s.bindRecord p x n).tracks r := putRecord_tracks h there rfl

theorem consignAdd_tracks {n : Nat} {l : Label} (h : s.tracks r) : (s.consignAdd q n l).tracks r := by
  unfold State.consignAdd
  split
  · exact refuse_tracks h
  split
  · exact refuse_tracks h
  split
  · exact refuse_tracks h
  split
  · exact refuse_tracks h
  split
  · exact refuse_tracks h
  rename_i known
  split
  · exact refuse_tracks h
  split
  · exact refuse_tracks h
  split
  · exact refuse_tracks h
  refine answer_tracks (bindRecord_tracks (putConsign_tracks h) ?_)
  rw [putConsign_custody]
  exact record_mem known

theorem consignRemove_tracks {n : Nat} {l : Label} (h : s.tracks r) : (s.consignRemove q n l).tracks r := by
  simp only [State.consignRemove]
  split
  · exact refuse_tracks h
  split
  · exact refuse_tracks h
  split
  · exact refuse_tracks h
  split
  · exact refuse_tracks h
  split
  · exact refuse_tracks h
  split
  · exact answer_tracks (putConsign_tracks h)
  · rename_i known
    refine answer_tracks ?_
    split
    · exact bindRecord_tracks (putConsign_tracks h) (record_mem known)
    · exact putConsign_tracks h

theorem consignSeal_tracks {n : Nat} (h : s.tracks r) : (s.consignSeal q n).tracks r := by
  unfold State.consignSeal
  split
  · exact refuse_tracks h
  split
  · exact refuse_tracks h
  split
  · exact refuse_tracks h
  split
  · exact refuse_tracks h
  split
  · exact refuse_tracks h
  split
  · exact refuse_tracks h
  · exact answerConsign_tracks (putConsign_tracks h)

theorem consignUnlock_tracks {n : Nat} (h : s.tracks r) : (s.consignUnlock q n).tracks r := by
  unfold State.consignUnlock
  split
  · exact refuse_tracks h
  split
  · exact refuse_tracks h
  split
  · exact refuse_tracks h
  split
  · exact answerConsign_tracks (putConsign_tracks h)
  · exact refuse_tracks h

theorem unbind_tracks {n : Nat} {l : Label} (h : s.tracks r) : (s.unbind n l).tracks r := by
  unfold State.unbind
  split
  · rename_i known
    split
    · exact bindRecord_tracks h (record_mem known)
    · exact h
  · exact h

theorem consignCancel_tracks {n : Nat} (h : s.tracks r) : (s.consignCancel q n).tracks r := by
  unfold State.consignCancel
  split
  · exact refuse_tracks h
  split
  · exact refuse_tracks h
  split
  · exact refuse_tracks h
  split
  · exact refuse_tracks h
  split
  · exact refuse_tracks h
  · exact answerConsign_tracks (putConsign_tracks
      (foldl_invariant _ (State.tracks r) (fun _ _ => unbind_tracks) _ _ h))

theorem consignQuery_tracks {n : Nat} (h : s.tracks r) : (s.consignQuery q n).tracks r := by
  unfold State.consignQuery
  split
  · exact refuse_tracks h
  split
  · exact refuse_tracks h
  · exact answer_tracks h

/-! ## The hatch unit's requests -/

theorem answerHatch_tracks {side : Side} (h : s.tracks r) : (s.answerHatch q side).tracks r := by
  have given := arbitration_tracks h
  unfold State.answerHatch
  split
  · rename_i none
    rw [none] at given
    exact answer_tracks given
  · rename_i some
    rw [some] at given
    exact notify_tracks (answer_tracks given)

theorem innerRequest_tracks {x : PurposeField} (h : s.tracks r) : (s.innerRequest q x).tracks r := by
  unfold State.innerRequest
  split
  · exact refuse_tracks h
  split
  · exact refuse_tracks h
  split
  · exact refuse_tracks h
  split
  · exact refuse_tracks h
  split
  · exact refuse_tracks h
  · exact answerHatch_tracks (onArbiter_tracks h)

theorem outerRequest_tracks (h : s.tracks r) : (s.outerRequest q).tracks r := by
  unfold State.outerRequest
  split
  · exact refuse_tracks h
  split
  · exact refuse_tracks h
  split
  · exact refuse_tracks h
  split
  · exact refuse_tracks h
  · exact answerHatch_tracks (onArbiter_tracks h)

theorem hatchRequest_tracks {x : PurposeField} (h : s.tracks r) : (s.hatchRequest q x).tracks r := by
  unfold State.hatchRequest
  split
  · exact innerRequest_tracks h
  · exact outerRequest_tracks h
  · exact h

theorem releaseSide_tracks {side : Side} (h : s.tracks r) : (s.releaseSide q side).tracks r := by
  simp only [State.releaseSide]
  split
  · split
    · exact onArbiter_tracks (answer_tracks h)
    · exact arbitrate_tracks (endPossession_tracks (answer_tracks h))
  · exact onArbiter_tracks (answer_tracks h)

theorem hatchRelease_tracks (h : s.tracks r) : (s.hatchRelease q).tracks r := by
  unfold State.hatchRelease
  split
  · exact releaseSide_tracks h
  · exact releaseSide_tracks h
  · exact h

theorem loadEntry_tracks {p : Nat} {x : CustodyRecord} {n : Nat} (h : s.tracks r) (there : (p, x) ∈ s.custody) :
    (s.loadEntry q p x n).tracks r := by
  have listed : ((s.freeSlotOf x).putEntries
      (s.hatch.entries ++ [⟨x.label, .outbound, n, s.slotEstimate x, false⟩])).tracks r :=
    putEntries_tracks (freeSlotOf_tracks h)
  simp only [State.loadEntry]
  refine arbitrate_tracks (dispatch_tracks (testNumber_tracks (answer_tracks (putRecord_tracks (x := x) listed ?_
    (settled_label s (some .hatch) x)))))
  rw [putEntries_custody, freeSlotOf_custody]
  exact there

theorem loaded_tracks {l : Label} (h : s.tracks r) : (s.loaded q l).tracks r := by
  unfold State.loaded
  split
  · exact refuse_tracks h
  split
  · exact refuse_tracks h
  split
  · exact refuse_tracks h
  rename_i found
  split
  · exact refuse_tracks h
  split
  · exact refuse_tracks h
  split
  · exact refuse_tracks h
  split
  · exact refuse_tracks h
  split
  · exact refuse_tracks h
  · exact loadEntry_tracks h (record_mem found)

theorem closeReturned_tracks {needs : List Nat} {n : Nat} (h : s.tracks r) :
    (s.closeReturned needs n).2.tracks r := by
  unfold State.closeReturned
  split
  · exact h
  split
  · exact notify_tracks (putConsign_tracks h)
  · exact h

theorem unloadEntry_tracks {p : Nat} {x : CustodyRecord} {e : HatchEntry} {n : Fin 32} (h : s.tracks r)
    (there : (p, x) ∈ s.custody) : (s.unloadEntry q p x e n).tracks r := by
  have left : (s.putEntries (s.hatch.entries.filter fun x => x.label != e.label)).tracks r := putEntries_tracks h
  have slotted := fun y => putSlot_tracks (n := n) (x := y) left
  have moved := fun y x' same => putRecord_tracks (x := x) (x' := x') (slotted y)
    (by rw [putSlot_custody, putEntries_custody]; exact there) same
  have label := settled_label s (some .staging) x
  unfold State.unloadEntry
  cases e.direction with
  | outbound => exact arbitrate_tracks (closeReturned_tracks (testNumber_tracks (answer_tracks (moved _ _ label))))
  | inbound => exact arbitrate_tracks (closeReturned_tracks (answer_tracks (moved _ _ label)))

theorem unloaded_tracks {l : Label} (h : s.tracks r) : (s.unloaded q l).tracks r := by
  unfold State.unloaded
  split
  · exact refuse_tracks h
  split
  · exact refuse_tracks h
  split
  · exact refuse_tracks h
  rename_i found
  split
  · exact refuse_tracks h
  split
  · exact refuse_tracks h
  split
  · exact refuse_tracks h
  · exact unloadEntry_tracks h (record_mem found)

/-! ## The exchange's requests -/

theorem mismatch_tracks {i : Fin 16} {c : Consignment} {code : ResultCode} (h : s.tracks r) :
    (s.mismatch q i c code).tracks r := by
  simp only [State.mismatch]
  split
  · exact arbitrate_tracks (notify_tracks (answer_tracks (putConsign_tracks h)))
  · exact answer_tracks (putConsign_tracks h)

theorem openExchange_tracks {i : Fin 16} {c : Consignment} (h : s.tracks r) : (s.openExchange q i c).tracks r :=
  arbitrate_tracks (notify_tracks (answer_tracks (withExchange_tracks (putConsign_tracks h))))

theorem arrive_tracks {n c : Nat} {w : Word16} (h : s.tracks r) : (s.arrive q n c w).tracks r := by
  unfold State.arrive
  split
  · exact refuse_tracks h
  split
  · exact refuse_tracks h
  split
  · exact refuse_tracks h
  split
  · exact refuse_tracks h
  split
  · exact refuse_tracks h
  split
  · exact refuse_tracks h
  split
  · exact refuse_tracks h
  split
  · exact refuse_tracks h
  split
  · exact mismatch_tracks h
  split
  · exact mismatch_tracks h
  · exact openExchange_tracks h

theorem takeEntry_tracks {p : Nat} {x : CustodyRecord} {e : Exchange} {i : Fin 16} {c : Consignment} (h : s.tracks r)
    (there : (p, x) ∈ s.custody) : (s.takeEntry q p x e i c).tracks r := by
  have left : (s.putEntries (s.hatch.entries.filter fun e => e.label != x.label)).tracks r := putEntries_tracks h
  refine answer_tracks (withExchange_tracks (putConsign_tracks (putRecord_tracks (x := x) left ?_ (settled_label s none x))))
  rw [putEntries_custody]
  exact there

theorem taken_tracks {l : Label} (h : s.tracks r) : (s.taken q l).tracks r := by
  unfold State.taken
  split
  · exact refuse_tracks h
  split
  · exact refuse_tracks h
  split
  · exact refuse_tracks h
  rename_i known
  split
  · exact refuse_tracks h
  split
  · split
    · exact refuse_tracks h
    · exact takeEntry_tracks h (record_mem known)
  · exact refuse_tracks h

theorem depositEntry_tracks {l : Label} {p : Nat} {old : Option CustodyRecord} {x : Exchange} {i : Fin 16}
    {c : Consignment} (h : s.tracks r) (there : ∀ y, old = some y → (p, y) ∈ s.custody)
    (new : old = none → p < Config.custodyPlaces) : (s.depositEntry q l p old x i c).tracks r := by
  have listed : ∀ e : HatchEntry, (s.putEntries (s.hatch.entries ++ [e])).tracks r := fun e => putEntries_tracks h
  refine arbitrate_tracks (answer_tracks (withExchange_tracks (putConsign_tracks ?_)))
  cases old with
  | none => exact createRecord_tracks (listed _) (new rfl)
  | some y =>
    refine putRecord_tracks (x := y) (listed _) ?_ rfl
    rw [putEntries_custody]
    exact there y rfl

theorem deposited_tracks {l : Label} (h : s.tracks r) : (s.deposited q l).tracks r := by
  unfold State.deposited
  split
  · exact refuse_tracks h
  split
  · exact refuse_tracks h
  split
  · exact refuse_tracks h
  split
  · exact refuse_tracks h
  split
  · exact refuse_tracks h
  split
  · exact refuse_tracks h
  have deposit := fun q p old x i c => depositEntry_tracks (q := q) (l := l) (p := p) (old := old) (x := x) (i := i)
    (c := c) h
  split
  · rename_i known
    split
    · exact deposit _ _ _ _ _ _ (fun y hy => by cases hy; exact record_mem known) (fun hy => by cases hy)
    · exact refuse_tracks h
  · split
    · rename_i place
      exact deposit _ _ _ _ _ _ (fun y hy => by cases hy) fun _ => freePlace_below place
    · exact refuse_tracks h

theorem exchangeQuery_tracks (h : s.tracks r) : (s.exchangeQuery q).tracks r := by
  unfold State.exchangeQuery
  split
  · exact refuse_tracks h
  · exact answer_tracks h

end

end Sys2Proof.Machine
end

