-- ==== Sys2Proof/Proofs/TrackEvents.lean ====
section
/-! SUPPORT. The events, but for those of the store, keep the store on the block of each record (R89, R179). -/

namespace Sys2Proof.Machine

section
variable {r : StoreRecord} {s t : State}

/-! ## The vault's and the link unit's events -/

theorem rezoneRecord_tracks {p : Nat} {x : CustodyRecord} (h : s.tracks r) (there : (p, x) ∈ s.custody) :
    (s.rezoneRecord p x).tracks r := by
  unfold State.rezoneRecord
  split
  · exact h
  rename_i l _
  split
  · exact h
  · exact putRecord_tracks h there (settled_label s (some (s.resolve l)) x)

theorem rezoneStep_tracks (h : s.tracks r) : s.rezoneStep.tracks r := by
  unfold State.rezoneStep
  split
  · exact h
  split
  · exact h
  · rename_i next
    exact tracks_congr (rezoneRecord_tracks h (List.mem_of_find?_eq_some next)) rfl

theorem rezoneEnd_tracks (h : s.tracks r) : s.rezoneEnd.tracks r := by
  have ended : State.tracks r { s with vault := { s.vault with rezone := none } } := tracks_congr h rfl
  unfold State.rezoneEnd
  split
  · exact h
  split
  · exact h
  · exact notify_tracks ended

theorem tick_tracks (h : s.tracks r) : s.tick.tracks r := tracks_congr h rfl

theorem snapshotPoint_tracks (h : s.tracks r) : s.snapshotPoint.tracks r := by
  have noted : State.tracks r { s with vault := { s.vault with lastSnapshotAt := some s.vault.uptime } } :=
    tracks_congr h rfl
  unfold State.snapshotPoint
  split
  · exact persist_tracks noted
  · exact h

theorem discardFrame_tracks {p : Port} {bs : List LineByte} (h : s.tracks r) : (s.discardFrame p bs).tracks r := by
  simp only [State.discardFrame]
  split
  · exact onLink_tracks h
  · exact h

/-- A change of what only the status record tells: its record is left out until it is handed over. -/
theorem recorded_tracksBut {c : Cause} (h : s.tracks r) :
    State.tracksBut [.status] r { s with store := { s.store with recorded := c } } := by
  refine ⟨h.table, h.counts, fun away wf hr => ?_⟩
  have live : State.liveContent { s with store := { s.store with recorded := c } } r = s.liveContent r := by
    cases r with
    | status => exact absurd (List.mem_singleton.2 rfl) away
    | _ => rfl
  rw [live]
  exact h.held List.not_mem_nil wf hr

theorem restartPhase_tracks {x : RestartPhase} (h : s.tracks r) :
    State.tracks r { s with store := { s.store with restart := x } } := tracks_congr h rfl

theorem beginRestart_tracks (h : s.tracks r) : s.beginRestart.tracks r := by
  have written := persist_tracksBut (recorded_tracksBut (c := .restart) h)
  simp only [State.beginRestart]
  split
  · exact restartPhase_tracks written
  · exact restartPhase_tracks written

theorem frameEnd_tracks {p : Port} (h : s.tracks r) : (s.frameEnd p).tracks r := by
  refine onLink_tracks ?_
  split
  · exact beginRestart_tracks h
  · exact h

theorem loseLink_tracks (h : s.tracks r) : s.loseLink.tracks r := by
  unfold State.loseLink
  split
  · exact postNotice_tracks (tracks_congr h rfl)
  · exact h

/-! ## The sensors (R17, R20, R73, R111) -/

theorem setSweep_tracks {w : Sweep} (h : s.tracks r) : (s.setSweep w).tracks r := tracks_congr h rfl

theorem sweepFallsDue_tracks (h : s.tracks r) : s.sweepFallsDue.tracks r := by
  simp only [State.sweepFallsDue]
  split
  · split
    all_goals exact tracks_congr h rfl
  · exact h

theorem drive_tracks {xs : List BusSignal} (h : s.tracks r) : (s.drive xs).tracks r := tracks_congr h rfl

theorem beginRead_tracks (h : s.tracks r) : s.beginRead.tracks r := by
  unfold State.beginRead
  split
  · exact setSweep_tracks (drive_tracks (tracks_congr h rfl))
  all_goals exact h

theorem limitRead_tracks (h : s.tracks r) : s.limitRead.tracks r := by
  unfold State.limitRead
  split
  · exact setSweep_tracks (drive_tracks (onInputs_tracks h))
  all_goals exact h

theorem endBusWait_tracks (h : s.tracks r) : s.endBusWait.tracks r := by
  unfold State.endBusWait
  split
  · split
    · exact setSweep_tracks h
    · exact h
  all_goals exact h

theorem recordSample_tracks {c : Channel} {v : Option Held} (h : s.tracks r) : (s.recordSample c v).tracks r := by
  simp only [State.recordSample]
  split
  · exact postNotice_tracks (tracks_congr h rfl)
  · exact tracks_congr h rfl

theorem controlSample_tracks {a : Area} (h : s.tracks r) : (s.controlSample a).tracks r := by
  unfold State.controlSample
  split
  · exact h
  · exact onControl_tracks h

theorem alarmSample_tracks {a : Area} (h : s.tracks r) : (s.alarmSample a).tracks r := by
  unfold State.alarmSample
  split
  · exact h
  split
  · exact postNotice_tracks (onControl_tracks h)
  · exact h

theorem accumulateSample_tracks {a : Area} (h : s.tracks r) : (s.accumulateSample a).tracks r := by
  refine persist_tracksBut (tracksBut_of_live (more := [.accumulator a]) h h.table fun away _ => ?_)
  cases r with
  | accumulator b =>
    simp only [State.liveContent]
    rw [perArea_get_set, if_neg fun e => away (by simp [e])]
  | _ => rfl

theorem areaSample_tracks {a : Area} (h : s.tracks r) : (s.areaSample a).tracks r :=
  accumulateSample_tracks (alarmSample_tracks (controlSample_tracks h))

/-- The dwell and the estimate of a slot are not stored (R111). -/
theorem step_stored (c : ClimateUnit) (x : Slot) : (x.step c).stored = x.stored := by
  unfold Slot.step
  split
  · rfl
  · rfl
  · split <;> rfl

theorem takeBase_stored (c : ClimateUnit) (ch : Channel) (x : Slot) : (x.takeBase c ch).stored = x.stored := by
  cases x <;> rfl

theorem entryStep_stored (c : ClimateUnit) (e : HatchEntry) : (e.step c).stored = e.stored := by
  unfold HatchEntry.step
  split <;> rfl

theorem entryTakeBase_stored (c : ClimateUnit) (e : HatchEntry) : (e.takeBase c).stored = e.stored := by
  unfold HatchEntry.takeBase
  split <;> rfl

theorem flipSlot_tracks {x : List Nat × State} {n : Fin 32} (h : x.2.tracks r) : (State.flipSlot x n).2.tracks r := by
  unfold State.flipSlot
  split
  · exact h
  rename_i flip
  obtain ⟨_, _, _, _, _, _, found, _⟩ := flipOf_eq_some_iff.1 flip
  have there := record_mem found
  simp only []
  split
  · exact putRecord_tracks h there rfl
  · exact notify_tracks (putRecord_tracks h there rfl)

theorem stageSample_tracks (h : s.tracks r) : s.stageSample.tracks r := by
  have stepped : (s.mapSlots (Slot.step s.climate)).tracks r := mapSlots_tracks h (step_stored _)
  have flipped := foldl_invariant State.flipSlot (fun x => x.2.tracks r) (fun _ _ => flipSlot_tracks) slotNumbers
    ([], s.mapSlots (Slot.step s.climate)) stepped
  simp only [State.stageSample]
  split
  · exact testPlaces_tracks flipped
  · exact arbitrate_tracks (testPlaces_tracks flipped)

theorem hatchSample_tracks {f : HatchEntry → HatchEntry} (h : s.tracks r) (hf : ∀ e, (f e).stored = e.stored) :
    (s.hatchSample f).tracks r := by
  have estimated : State.tracks r { s with hatch := { s.hatch with entries := s.hatch.entries.map f } } := by
    refine tracksBut_of_live (more := []) h h.table fun _ _ => ?_
    cases r with
    | hatchList => simp [State.liveContent, hf]
    | _ => rfl
  simp only [State.hatchSample]
  split
  · exact arbitrate_tracks estimated
  · exact estimated

theorem handSample_tracks {c : Channel} (h : s.tracks r) : (s.handSample c).tracks r := by
  unfold State.handSample
  split
  · exact mapSlots_tracks (areaSample_tracks h) (takeBase_stored _ _)
  · exact mapSlots_tracks (areaSample_tracks h) (takeBase_stored _ _)
  · exact stageSample_tracks (areaSample_tracks h)
  · exact hatchSample_tracks (areaSample_tracks h) (entryStep_stored _)
  · exact hatchSample_tracks (mapSlots_tracks h (takeBase_stored _ _)) (entryTakeBase_stored _)

theorem nextRead_tracks {c : Channel} (h : s.tracks r) : (s.nextRead c).tracks r := by
  unfold State.nextRead
  split
  · exact setSweep_tracks h
  · exact setSweep_tracks h

theorem sample_tracks {c : Channel} {v : Option Held} (h : s.tracks r) : (s.sample c v).tracks r :=
  nextRead_tracks (handSample_tracks (recordSample_tracks h))

theorem sampleOf_tracks {v : SensorReading} (h : s.tracks r) : (s.sampleOf v).tracks r := by
  unfold State.sampleOf
  split
  · exact sample_tracks (drive_tracks h)
  · exact sample_tracks h
  · exact h
  · exact h

/-! ## The doors (R137 to R139, R145) -/

theorem normalOpening_tracks {d : Side} (h : s.tracks r) : (s.normalOpening d).tracks r := by
  have lapse := onArbiter_tracks (f := fun a => { a with lapseAt := none }) h
  simp only [State.normalOpening]
  split
  · exact withExchange_tracks lapse
  · exact lapse
  · exact lapse

theorem openDoor_tracks {d : Side} (h : s.tracks r) : (s.openDoor d).tracks r := by
  simp only [State.openDoor]
  split
  · exact h
  split
  · exact normalOpening_tracks (onDoor_tracks h)
  · exact notify_tracks (onDoor_tracks (onDoor_tracks h))

theorem closingLatch_tracks {d : Side} (h : s.tracks r) : (s.closingLatch d).2.tracks r := by
  simp only [State.closingLatch]
  split
  · split
    · exact endPossession_tracks h
    · exact h
  · cases d with
    | inner => exact onDoor_tracks h
    | outer => exact outerSecured_tracks (onDoor_tracks h)

theorem closeDoor_tracks {d : Side} (h : s.tracks r) : (s.closeDoor d).tracks r := by
  have closed := closingLatch_tracks (d := d)
    (onDoor_tracks (w := d) (f := fun d => { d with isOpen := false, openedAt := none }) h)
  simp only [State.closeDoor]
  split
  · exact h
  split
  · exact arbitrate_tracks (onDoor_tracks closed)
  · exact closed

theorem settleContact_tracks {d : Side} {l : Level} (h : s.tracks r) : (s.settleContact d l).tracks r :=
  onInputs_tracks h

theorem doorOpened_tracks {d : Side} (h : s.tracks r) :
    (if (s.hatch.door d).isOpen then s else (s.settleContact d .high).openDoor d).tracks r := by
  split
  · exact h
  · exact openDoor_tracks (settleContact_tracks h)

theorem doorClosed_tracks {d : Side} (h : s.tracks r) :
    (if (s.hatch.door d).isOpen then (s.settleContact d .low).closeDoor d else s).tracks r := by
  split
  · exact closeDoor_tracks (settleContact_tracks h)
  · exact h

theorem heldDoor_tracks {d : Side} (h : s.tracks r) : (s.heldDoor d).tracks r := by
  simp only [State.heldDoor]
  split
  · exact h
  split
  · exact onDoor_tracks (notify_tracks h)
  · exact h

theorem lapseLatch_tracks (h : s.tracks r) : s.lapseLatch.tracks r := by
  simp only [State.lapseLatch]
  split
  · split
    · exact arbitrate_tracks (notify_tracks (endPossession_tracks h))
    · exact h
  · exact h

theorem pickLapse_tracks {n : Fin 32} (h : s.tracks r) : (s.pickLapse n).tracks r := by
  unfold State.pickLapse
  split
  · exact h
  · exact lapsePick_tracks h

theorem dropExchange_tracks {x : Exchange} (h : s.tracks r) : (s.dropExchange x).tracks r := by
  have ended : (if s.hatch.arbiter.holds .outer then (s.endPossession [] .outer).2 else s).tracks r := by
    split
    · exact endPossession_tracks h
    · exact h
  simp only [State.dropExchange]
  generalize (if s.hatch.arbiter.holds .outer then (s.endPossession [] .outer).2 else s) = t at ended ⊢
  have dropped := withExchange_tracks (x := none) (onArbiter_tracks (f := fun a => { a with pendingOuter := false }) ended)
  split
  · exact arbitrate_tracks dropped
  · exact arbitrate_tracks (emit_tracks (putConsign_tracks dropped))

theorem timeOutExchange_tracks (h : s.tracks r) : s.timeOutExchange.tracks r := by
  unfold State.timeOutExchange
  split
  · exact h
  split
  · exact dropExchange_tracks h
  · exact h

end

end Sys2Proof.Machine
end

