-- ==== Sys2Proof/Proofs/TrackStore.lean ====
section
/-! SUPPORT. A format, the end of a write, the reset line and a restart keep the store on the block of each record (R89,
R179 to R184). -/

namespace Sys2Proof.Machine

section
variable {r : StoreRecord} {s t : State}

/-! ## A format's mark and its effect (R184) -/

/-- Only the status record is read from the store. -/
theorem liveContent_ofBlocks (s : State) (st : Store) (hr : r ≠ .status) :
    ({ s with store := st }).liveContent r = s.liveContent r := by
  cases r with
  | status => exact absurd rfl hr
  | _ => rfl

theorem format_of_idle {x : FormatPhase} (h : x.inFlight = false) : x = .none := by
  cases x with
  | none => rfl
  | marking => cases h
  | writing k => cases h

/-- The mark changes what only the status record tells. -/
theorem marking_tracksBut (h : s.tracks r) (idle : s.store.format.inFlight = false) :
    State.tracksBut [.status] r { s with store := { s.store with format := .marking } } := by
  refine ⟨h.table, h.counts, fun away wf hr => .inr ?_⟩
  rw [liveContent_ofBlocks s _ fun e => away (List.mem_singleton.2 e)]
  obtain ⟨k, writing, -⟩ | held := h.held List.not_mem_nil wf hr
  · rw [format_of_idle idle] at writing
    cases writing
  · exact held

/-- At a format's effect every record but the clock snapshot is left to it. -/
theorem tracks_of_formatFirst (table : custodyWf s.custody = true)
    (counts : (s.store.cell r).first.count < 65536 ∧ (s.store.cell r).second.count < 65536)
    (format : s.store.format = .writing formatFirst) : s.tracks r := by
  refine ⟨table, counts, fun _ _ hr => .inl ⟨formatFirst, format, ?_⟩⟩
  cases r with
  | status => exact .inl rfl
  | snapshot => exact absurd rfl hr
  | _ => exact .inr ⟨rfl, formatFirst_le rfl⟩

theorem startFormat_tracks (h : s.tracks r) : s.startFormat.tracks r := by
  refine foldl_invariant _ (State.tracks r) (fun _ _ => alarmAfresh_tracks) _ _ (updateTrouble_tracks ?_)
  refine foldl_invariant _ (State.tracks r) (fun _ _ => changeDetector_tracks) _ _ ?_
  exact tracks_of_formatFirst rfl h.counts rfl

theorem formatRequest_tracks {q : ReqHead} (h : s.tracks r) (idle : s.store.format.inFlight = false) :
    (s.formatRequest q).tracks r := by
  simp only [State.formatRequest]
  split
  · exact refuse_tracks h
  split
  · exact refuse_tracks h
  split
  · exact refuse_tracks h
  · exact follow_tracks (answer_tracks (persist_tracksBut (marking_tracksBut h idle))) startFormat_tracks

theorem followUp_tracks {f : Followup} (h : s.tracks r) : (s.followUp f).tracks r := by
  cases f with
  | sweep k => exact startSweep_tracks h
  | evaluate d latched => exact evaluateAfresh_tracks h
  | lapses => exact lapseOverdue_tracks h
  | format => exact startFormat_tracks h

theorem endFollowups_tracks {ticket : Nat} (h : s.tracks r) : (s.endFollowups ticket).tracks r := by
  have taken : State.tracks r { s with store := { s.store with
      followups := s.store.followups.filter fun x => x.1 != ticket } } := tracks_congr h rfl
  exact foldl_invariant _ (State.tracks r) (fun _ _ => followUp_tracks) _ _ taken

/-! ## The end of a write (R179) -/

/-- The writes that wait once the one in flight has ended: the first is begun. -/
theorem afterWrite_writes (st : Store) (j : Job) :
    (st.afterWrite j).inflight.toList ++ (st.afterWrite j).queue = st.queue := by
  show st.queue.head?.toList ++ st.queue.tail = st.queue
  cases st.queue <;> rfl

/-- The last write of a record is another's than the one in flight, or the one in flight itself. -/
theorem lastWrite_of_inflight {st : Store} {j : Job} (inflight : st.inflight = some j) (r : StoreRecord) :
    st.lastWrite r = ((st.afterWrite j).lastWrite r).or (if j.record = r then some j.content else none) := by
  unfold Store.lastWrite
  rw [afterWrite_writes, inflight]
  show (((j :: st.queue).filter fun j => j.record == r).getLast?).map _ = _
  by_cases own : j.record = r
  · rw [List.filter_cons_of_pos (by simpa using own), List.getLast?_cons, if_pos own]
    cases (st.queue.filter fun j => j.record == r).getLast? <;> rfl
  · rw [List.filter_cons_of_neg (by simpa using own), if_neg own, Option.or_none]

theorem erased_counts {c : Cell} (h : c.first.count < 65536 ∧ c.second.count < 65536) :
    c.erase.first.count < 65536 ∧ c.erase.second.count < 65536 := h

/-- A written cell has write counts of 16 bits, and reads what was written. -/
theorem written_cell {c : Cell} (h : c.first.count < 65536 ∧ c.second.count < 65536) (x : Content) :
    let written := if x = .custody none then c.erase else c.write x
    (written.first.count < 65536 ∧ written.second.count < 65536) ∧ written.read = some x := by
  intro written
  by_cases empty : x = .custody none
  · rw [show written = c.erase from if_pos empty, empty]
    exact ⟨erased_counts h, read_erase c⟩
  · rw [show written = c.write x from if_neg empty]
    exact ⟨write_counts h x, read_write h x⟩

theorem afterWrite_tracks {j : Job} (h : s.tracks r) (cells : s.store.cellsHold) (inflight : s.store.inflight = some j) :
    State.tracks r { s with store := s.store.afterWrite j } := by
  have cell := afterWrite_cell cells j r
  have before := lastWrite_of_inflight inflight r
  refine ⟨h.table, ?_, fun away wf hr => ?_⟩
  · show ((s.store.afterWrite j).cell r).first.count < 65536 ∧ ((s.store.afterWrite j).cell r).second.count < 65536
    rw [cell]
    split
    · rename_i own
      subst own
      exact (written_cell h.counts j.content).1
    · exact h.counts
  · rw [show State.liveContent { s with store := s.store.afterWrite j } r = s.liveContent r from
      liveContent_withStore s rfl rfl rfl r]
    refine (h.held away wf hr).imp_right fun held => ?_
    show (s.store.afterWrite j).lastWrite r = _ ∨ (s.store.afterWrite j).lastWrite r = none ∧ _
    rw [before] at held
    cases later : (s.store.afterWrite j).lastWrite r with
    | some x =>
      rw [later] at held
      exact .inl (held.resolve_right fun none => nomatch none.1)
    | none =>
      refine .inr ⟨rfl, ?_⟩
      rw [later, Option.none_or] at held
      show ((s.store.afterWrite j).cell r).read = _
      rw [cell]
      by_cases own : j.record = r
      · subst own
        rw [if_pos rfl] at held ⊢
        obtain content | ⟨none, -⟩ := held
        · rw [(written_cell h.counts j.content).2, content]
        · cases none
      · rw [if_neg own] at held
        rw [if_neg fun e => own e.symm]
        exact (held.resolve_left nofun).2

theorem endWrite_tracks {j : Job} (h : s.tracks r) (cells : s.store.cellsHold) (inflight : s.store.inflight = some j) :
    (s.endWrite j).tracks r := by
  have written := afterWrite_tracks h cells inflight
  have pulsed := withFire_tracks
    (x := { s.fire with areas := (pulsedAreas s.vault.uptime (s.store.pulsesDue j.ticket) s.fire.areas) }) written
    (fun a => by rw [pulsedAreas_get]; exact ⟨rfl, .rfl, rfl⟩) fun _ => ⟨rfl, rfl⟩
  rw [endWrite_eq]
  exact tracks_congr pulsed rfl

/-! ## The end of a format's write, and of a format (R184) -/

/-- Every record that stands is the one of its number. -/
theorem ofAddr_of_addr (r : StoreRecord) : StoreRecord.ofAddr r.addr = r := by
  by_cases few : r ∈ fewRecords
  · have numbered : ∀ q ∈ fewRecords, StoreRecord.ofAddr q.addr = q := by decide +kernel
    exact numbered r few
  · exact ofAddr_addr few

/-- With no write in flight none waits. -/
theorem lastWrite_of_idle (tables : s.meets .tables) (idle : s.store.inflight = none) (r : StoreRecord) :
    s.store.lastWrite r = none := by
  have queue : s.store.queue = [] := tables.idle idle
  unfold Store.lastWrite
  rw [idle, queue]
  rfl

/-- The state once a format has written the record of a number. -/
def State.formatWritten (k : Nat) (s : State) : State :=
  { s with store := { s.store.formatWrite (.ofAddr k) (s.liveContent (.ofAddr k)) with format := .writing (k + 1) } }

theorem formatWritten_tracks {k : Nat} (h : s.tracks r) (tables : s.meets .tables) (idle : s.store.inflight = none)
    (writing : s.store.format = .writing k) : (s.formatWritten k).tracks r := by
  have cell : (s.formatWritten k).store.cell r = if r = .ofAddr k then (s.store.cell (.ofAddr k)).write
      (s.liveContent (.ofAddr k)) else s.store.cell r := cell_setCell tables.rising _ _ _
  have last : (s.formatWritten k).store.lastWrite r = none := lastWrite_of_idle tables idle r
  have live : (s.formatWritten k).liveContent r = s.liveContent r :=
    liveContent_withStore s (st := (s.formatWritten k).store) rfl rfl (by rw [writing]; rfl) r
  have before := lastWrite_of_idle tables idle r
  unfold State.tracks State.tracksBut
  rw [live, cell, last]
  by_cases here : r = .ofAddr k
  · subst here
    rw [if_pos rfl]
    exact ⟨h.table, write_counts h.counts _, fun _ _ _ => .inr (.inr ⟨rfl, read_write h.counts _⟩)⟩
  · rw [if_neg here]
    refine ⟨h.table, h.counts, fun away wf hr => ?_⟩
    obtain ⟨m, same, left⟩ | held := h.held away wf hr
    · rw [writing] at same
      cases same
      refine .inl ⟨_, rfl, left.imp_right fun ⟨formatted, ahead⟩ => ⟨formatted, ?_⟩⟩
      refine Nat.lt_of_le_of_ne ahead fun e => here ?_
      rw [e, ofAddr_of_addr]
    · rw [before] at held
      exact .inr (.inr ⟨rfl, (held.resolve_left nofun).2⟩)

theorem endFormatWrite_tracks (h : s.tracks r) (tables : s.meets .tables) (idle : s.store.inflight = none) :
    s.endFormatWrite.tracks r := by
  by_cases due : ∃ k, s.store.format = .writing k
  · obtain ⟨k, writing⟩ := due
    obtain below | beyond := Nat.lt_or_ge k formatLimit
    · rw [endFormatWrite_of_lt writing below]
      exact formatWritten_tracks h tables idle writing
    · rw [endFormatWrite_of_ge writing beyond]
      exact h
  · rw [endFormatWrite_of_not_writing fun k writing => due ⟨k, writing⟩]
    exact h

theorem writeEnd_tracks (h : s.tracks r) (tables : s.meets .tables) : s.writeEnd.tracks r := by
  unfold State.writeEnd
  split
  · rename_i inflight
    exact endFollowups_tracks (endWrite_tracks h tables.rising inflight)
  · rename_i idle
    exact endFormatWrite_tracks h tables idle

/-- What is left of a format keeps the write counts of 16 bits. -/
theorem finishFormat_counts {st : Store} {k : Nat} {live : StoreRecord → Content}
    (counts : (st.cell r).first.count < 65536 ∧ (st.cell r).second.count < 65536) :
    ((st.finishFormat k live).cell r).first.count < 65536 ∧ ((st.finishFormat k live).cell r).second.count < 65536 := by
  have cell : (st.finishFormat k live).cell r = if r ∈ st.namedRecords k then st.finishedCell k live r
      else defaultCell (if k < formatLimit then nextBase st.base else st.base) r := cellIn_putCells _ _ _ _
  rw [cell]
  split
  · rw [finishedCell_eq]
    split
    · exact write_counts counts _
    · exact counts
  rename_i unnamed
  obtain ⟨default, -, -⟩ := unnamed_record unnamed
  rw [default] at counts
  cases formatted : r.formatted with
  | false =>
    rw [defaultCell_of_unformatted formatted _ st.base]
    exact counts
  | true =>
    rw [defaultCell_of_formatted _ formatted] at counts ⊢
    split
    · exact write_counts (c := defaultCell st.base .config) counts (formattedContent .config)
    · exact counts

theorem formatFinished_tracksBut {k : Nat} (h : s.tracks r) (tables : s.meets .tables)
    (format : s.store.format = .writing k) (idle : s.store.inflight = none) :
    (s.formatFinished k).tracksBut [.status] r := by
  have empty : s.custody = [] := tables.emptied (congrArg FormatPhase.inEffect format)
  have last := lastWrite_of_idle tables idle r
  refine ⟨h.table, finishFormat_counts h.counts, fun away wf hr => .inr (.inr ⟨last, ?_⟩)⟩
  have unmarked : r ≠ .status := fun e => away (List.mem_singleton.2 e)
  unfold State.formatFinished
  rw [liveContent_ofBlocks s _ unmarked]
  refine (congrArg Cell.read (finishFormat_cell_from wf (liveContent_of_empty empty))).trans ?_
  split
  · exact read_write h.counts _
  rename_i done
  obtain ⟨m, same, left⟩ | held := h.held List.not_mem_nil wf hr
  · rw [format] at same
    cases same
    exact absurd (left.resolve_left unmarked) done
  · rw [last] at held
    exact (held.resolve_left nofun).2

theorem formatEnd_tracks (h : s.tracks r) (tables : s.meets .tables) : s.formatEnd.tracks r := by
  unfold State.formatEnd
  split
  · rename_i format idle
    exact postNotice_tracks (persist_tracksBut (formatFinished_tracksBut h tables format idle))
  · exact h

/-! ## The supply and the reset line (R180) -/

theorem drain_tracks : ∀ (k : Nat) {s : State}, s.tracks r → s.meets .tables → (s.drain k).tracks r
  | 0, _, h, _ => h
  | k + 1, _, h, tables => by
    unfold State.drain
    split
    · rename_i inflight
      exact drain_tracks k (endWrite_tracks h tables.rising inflight) (endWrite_meets tables)
    · exact h

/-- A cell that is set keeps the write counts of 16 bits. -/
theorem setCell_counts {st : Store} (cells : st.cellsHold) (counts : st.countsWithin) {q : StoreRecord} {c : Cell}
    (hc : c.first.count < 65536 ∧ c.second.count < 65536) : (st.setCell q c).countsWithin := by
  intro r
  rw [cell_setCell cells]
  split
  · exact hc
  · exact counts r

theorem writeNow_counts {st : Store} (cells : st.cellsHold) (counts : st.countsWithin) {q : StoreRecord} {x : Content} :
    (st.writeNow q x).countsWithin := by
  intro r
  rw [cell_writeNow cells]
  split
  · exact (written_cell (counts q) x).1
  · exact counts r

theorem spoiledCell_counts {c : Cell} {second : Bool} (h : c.first.count < 65536 ∧ c.second.count < 65536) :
    (c.spoil second).first.count < 65536 ∧ (c.spoil second).second.count < 65536 := by
  unfold Cell.spoil
  split <;> exact h

theorem spoil_counts {st : Store} (cells : st.cellsHold) (counts : st.countsWithin) (bad : List StoreCopy) :
    (st.spoil bad).countsWithin := by
  have kept := foldl_invariant (fun (st : Store) (c : StoreCopy) => st.setCell c.record ((st.cell c.record).spoil c.second))
    (fun st => st.cellsHold ∧ st.countsWithin)
    (fun _ _ ⟨cells, counts⟩ => ⟨setCell_wf cells _ _, setCell_counts cells counts (spoiledCell_counts (counts _))⟩)
    bad st ⟨cells, counts⟩
  exact kept.2

/-- A write cut short keeps the write counts of 16 bits, in a format too. -/
theorem cutShort_countsWithin {st : Store} (cells : st.cellsHold) (counts : st.countsWithin) :
    st.cutShort.countsWithin := by
  unfold Store.cutShort
  split
  · exact setCell_counts cells counts (tear_counts (counts _))
  · split
    · exact setCell_counts cells counts (tear_counts (counts _))
    · exact counts
  · exact counts
  · exact counts

theorem loseSupply_counts (counts : s.store.countsWithin) (tables : s.meets .tables) :
    s.loseSupply.store.countsWithin := by
  unfold State.loseSupply
  split
  · exact counts
  · exact cutShort_countsWithin tables.rising counts

/-- The writes that the reset line waits out, and the one of a format (R180). -/
def State.resetWrites (s : State) : State :=
  if s.store.inflight.isNone then (s.drain s.store.pendingWrites).endFormatWrite else s.drain s.store.pendingWrites

theorem resetWrites_meets (tables : s.meets .tables) : s.resetWrites.meets .tables := by
  unfold State.resetWrites
  split
  · exact endFormatWrite_meets (drain_meets _ tables)
  · exact drain_meets _ tables

theorem drain_of_idle (k : Nat) (idle : s.store.inflight = none) : s.drain k = s := by
  cases k with
  | zero => rfl
  | succ k =>
    unfold State.drain
    split
    · rename_i busy
      rw [idle] at busy
      cases busy
    · rfl

theorem resetWrites_tracks (h : s.tracks r) (tables : s.meets .tables) : s.resetWrites.tracks r := by
  unfold State.resetWrites
  split
  · rename_i idle
    rw [Option.isNone_iff_eq_none] at idle
    rw [drain_of_idle _ idle]
    exact endFormatWrite_tracks h tables idle
  · exact drain_tracks _ h tables

/-- At the reset line the part stops, and its cells keep their write counts. -/
theorem resetLow_counts (h : ∀ r, s.tracks r) (tables : s.meets .tables) : s.resetLow.store.countsWithin := by
  have counts : ({ s.resetWrites.store with recorded := .resetLine } : Store).countsWithin := fun r =>
    (resetWrites_tracks (h r) tables).counts
  have cells : ({ s.resetWrites.store with recorded := .resetLine } : Store).cellsHold := (resetWrites_meets tables).rising
  exact writeNow_counts cells counts

/-! ## The restart (R181 to R183) -/

section
variable (cause : Cause) {st : Store} (pending : List Instr) (x : Inputs)

theorem syncedCell_counts (counts : s.store.countsWithin) (r : StoreRecord) :
    (s.syncedCell r).first.count < 65536 ∧ (s.syncedCell r).second.count < 65536 := by
  unfold State.syncedCell
  split
  · exact counts r
  · exact (written_cell (counts r) (s.liveContent r)).1

theorem restart_counts (cells : st.cellsHold) (counts : st.countsWithin) :
    (State.restart cause st pending x).store.countsWithin := by
  intro r
  rw [restart_cell cause pending x cells counts]
  split
  · exact write_counts (counts _) _
  split
  · exact counts _
  · exact syncedCell_counts (restartBlocks_counts cause st pending x counts) r

/-- A restart leaves no write in flight, and none that waits. -/
theorem restart_lastWrite : (State.restart cause st pending x).store.lastWrite r = none := by
  rw [restart_store]
  rfl

/-- A restart leaves every cell as the blocks hold it. -/
theorem restart_storeFollows (cells : st.cellsHold) (counts : st.countsWithin) :
    (State.restart cause st pending x).storeFollows :=
  ⟨restart_counts cause pending x cells counts, fun _ _ _ hr =>
    .inr (.inr ⟨restart_lastWrite cause pending x, restart_read cause pending x cells counts hr⟩)⟩

end

end

end Sys2Proof.Machine
end

