-- ==== Sys2Proof/Proofs/TrackSteps.lean ====
section
/-! SUPPORT. Every command and every step keeps the store on the blocks (R89, R179, R184). -/

namespace Sys2Proof.Machine

section
variable {s t : State}

/-! ## Events and requests -/

/-- A part that takes an event runs, so its store follows its blocks before it. -/
theorem event_storeFollows {act : State → State} (tables : s.meets .tables) (h : s.storeFollows)
    (keeps : ∀ r, s.tracks r → (act s).tracks r) : (s.event act).storeFollows := by
  unfold State.event
  split
  · rename_i running
    exact storeFollows_of_tracks fun r => keeps r (tracks_of_storeFollows tables h running)
  · exact h

theorem refuseAtLink_tracks {r : StoreRecord} {q : ReqHead} {k : RequestKind} {c : ResultCode} (h : s.tracks r) :
    (s.refuseAtLink q k c).tracks r := onLink_tracks h

theorem request_storeFollows_of_idle {q : ReqHead} {k : RequestKind} {named : Bool} {owner : State → State}
    (tables : s.meets .tables) (h : s.storeFollows) (hk : k ≠ .status)
    (keeps : ∀ (r : StoreRecord) (u : State), u.tracks r → u.store.format.inFlight = false → (owner u).tracks r) :
    (s.request q k named owner).storeFollows := by
  unfold State.request
  split
  · rename_i running
    have taken : ∀ r, (s.validFrame q.port).tracks r := fun r =>
      validFrame_tracks (tracks_of_storeFollows tables h running)
    refine storeFollows_of_tracks fun r => ?_
    simp only []
    split
    · exact refuseAtLink_tracks (taken r)
    · rename_i reached
      exact keeps r _ (onLink_tracks (taken r)) (format_of_linkCheck (s := s.validFrame q.port) reached hk)
  · exact h

theorem request_storeFollows {q : ReqHead} {k : RequestKind} {named : Bool} {owner : State → State}
    (tables : s.meets .tables) (h : s.storeFollows)
    (keeps : ∀ (r : StoreRecord) (u : State), u.tracks r → (owner u).tracks r) :
    (s.request q k named owner).storeFollows := by
  unfold State.request
  split
  · rename_i running
    have taken : ∀ r, (s.validFrame q.port).tracks r := fun r =>
      validFrame_tracks (tracks_of_storeFollows tables h running)
    refine storeFollows_of_tracks fun r => ?_
    simp only []
    split
    · exact refuseAtLink_tracks (taken r)
    · exact keeps r _ (onLink_tracks (taken r))
  · exact h

/-! ## The supply, the reset line and the restart -/

theorem loseSupply_storeFollows (tables : s.meets .tables) (h : s.storeFollows) : s.loseSupply.storeFollows := by
  refine ⟨loseSupply_counts h.1 tables, fun running => ?_⟩
  have off : s.loseSupply.power = .off := by
    unfold State.loseSupply
    split
    · assumption
    · rfl
  rw [off] at running
  cases running

theorem resetLow_storeFollows (tables : s.meets .tables) (h : ∀ r, s.tracks r) : s.resetLow.storeFollows :=
  ⟨resetLow_counts h tables, fun running => by cases running⟩

theorem resetLineLow_storeFollows (tables : s.meets .tables) (h : ∀ r, s.tracks r) :
    ((s.onInputs fun i => { i with reset := Pin.settled .low }).resetLow).storeFollows :=
  resetLow_storeFollows (onInputs_meets tables) fun r => onInputs_tracks (h r)

/-- A restart behind copies found bad. -/
theorem spoiled_restart_storeFollows {st : Store} (cells : st.cellsHold) (counts : st.countsWithin)
    (bad : List StoreCopy) (cause : Cause) (pending : List Instr) (x : Inputs) :
    (State.restart cause (st.spoil bad) pending x).storeFollows :=
  restart_storeFollows cause pending x (spoil_wf cells bad) (spoil_counts cells counts bad)

theorem riseReset_storeFollows {bad : List StoreCopy} (tables : s.meets .tables) (counts : s.store.countsWithin) :
    (s.riseReset bad).storeFollows := by
  unfold State.riseReset
  exact spoiled_restart_storeFollows tables.rising counts bad _ _ _

theorem takeRestart_storeFollows {bad : List StoreCopy} (tables : s.meets .tables) (h : ∀ r, s.tracks r) :
    (s.takeRestart bad).storeFollows := by
  unfold State.takeRestart
  split
  · exact spoiled_restart_storeFollows (st := s.writeEnd.store.quiet) (writeEnd_meets tables).rising
      (fun r => (writeEnd_tracks (h r) tables).counts) bad _ _ _
  · exact storeFollows_of_tracks h

/-! ## The input scan (R37) -/

theorem scanCall_tracks {r : StoreRecord} {x : Inputs} {a : Area} (h : s.tracks r) : (s.scanCall x a).tracks r := by
  unfold State.scanCall
  split
  · exact callPointOn_tracks h
  · exact callPointOff_tracks h

theorem scanAbort_tracks {r : StoreRecord} {x : Inputs} (h : s.tracks r) : (s.scanAbort x).tracks r := by
  unfold State.scanAbort
  split
  · exact abortOn_tracks h
  · exact abortOff_tracks h

theorem scanContact_tracks {r : StoreRecord} {x : Inputs} {d : Side} (h : s.tracks r) :
    (s.scanContact x d).tracks r := by
  unfold State.scanContact
  split
  · exact openDoor_tracks h
  · exact closeDoor_tracks h

theorem scanAt_tracks {r : StoreRecord} {x : Inputs} {i : ScanInput} (h : s.tracks r) : (s.scanAt x i).tracks r := by
  cases i with
  | lines d => exact detectorLines_tracks h
  | call a => exact scanCall_tracks h
  | abort => exact scanAbort_tracks h
  | contact w => exact scanContact_tracks h

theorem scanAt_meets {b : Bound} {x : Inputs} {i : ScanInput} (h : s.meets b) : (s.scanAt x i).meets b := by
  cases i with
  | lines d => exact detectorLines_meets h
  | call a => exact scanCall_meets h
  | abort => exact scanAbort_meets h
  | contact w => exact scanContact_meets h

theorem scanReset_storeFollows {x : Inputs} (tables : s.meets .tables) (h : ∀ r, s.tracks r) :
    (s.scanReset x).storeFollows := by
  unfold State.scanReset
  split
  · exact storeFollows_of_tracks h
  · exact resetLow_storeFollows tables h

theorem scan_storeFollows (tables : s.meets .tables) (h : s.storeFollows) : s.scan.storeFollows := by
  cases power : s.power with
  | off =>
    unfold State.scan
    rw [power]
    exact h
  | stopped =>
    have moved : ∀ f, (s.onInputs f).storeFollows := fun f => ⟨h.1, fun running => by
      have stopped : (s.onInputs f).power = .stopped := power
      rw [stopped] at running
      cases running⟩
    unfold State.scan
    rw [power]
    simp only []
    split
    · exact riseReset_storeFollows (onInputs_meets tables) h.1
    · exact moved _
  | running =>
    rw [scan_of_running power]
    refine scanReset_storeFollows (retakeInputs_meets ?_) fun r => retakeInputs_tracks ?_
    · exact foldl_invariant _ (State.meets .tables) (fun _ _ => scanAt_meets) _ _ (onInputs_meets tables)
    · exact foldl_invariant _ (State.tracks r) (fun _ _ => scanAt_tracks) _ _
        (onInputs_tracks (tracks_of_storeFollows tables h power))

theorem startTransmitters_storeFollows (tables : s.meets .tables) (h : s.storeFollows) :
    s.startTransmitters.storeFollows := by
  cases power : s.power with
  | running => exact storeFollows_of_tracks fun r => startTransmitters_tracks (tracks_of_storeFollows tables h power)
  | _ =>
    refine ⟨by simpa using h.1, fun running => ?_⟩
    simp [power] at running

/-! ## The commands -/

theorem exec_storeFollows {c : Instr} (tables : s.meets .tables) (h : s.storeFollows) (he : exec c s = .next t) :
    t.storeFollows := by
  have tracks : s.power = .running → ∀ r, s.tracks r := fun running r => tracks_of_storeFollows tables h running
  cases c
  case powerOn bad =>
    cases he
    exact spoiled_restart_storeFollows (loseSupply_meets tables).rising (loseSupply_counts h.1 tables) bad _ _ _
  case resetLineLow =>
    cases he
    unfold State.event
    split
    · rename_i running
      exact resetLineLow_storeFollows tables (tracks running)
    · exact h
  case resetLineHigh bad =>
    cases he
    split
    · exact riseReset_storeFollows (onInputs_meets tables) h.1
    · exact h
  case restartTaken bad =>
    cases he
    unfold State.event
    split
    · rename_i running
      exact takeRestart_storeFollows tables (tracks running)
    · exact h
  case status q => cases he; exact request_storeFollows tables h fun _ _ => answerStatus_tracks
  case subscribe q m => cases he; exact request_storeFollows tables h fun _ _ => subscribe_tracks
  case areaQuery q n => cases he; exact request_storeFollows tables h fun _ _ => areaQuery_tracks
  case setMode q m => cases he; exact request_storeFollows tables h fun _ _ => setMode_tracks
  case setTime q x => cases he; exact request_storeFollows tables h fun _ _ => setTime_tracks
  case setDescriptor q i e v n a => cases he; exact request_storeFollows tables h fun _ _ => setDescriptor_tracks
  case setClimate q n f => cases he; exact request_storeFollows tables h fun _ _ => setClimate_tracks
  case clearClimateFlags q n => cases he; exact request_storeFollows tables h fun _ _ => clearClimateFlags_tracks
  case setFireArea q n x d v => cases he; exact request_storeFollows tables h fun _ _ => setFireArea_tracks
  case setFireDetector q n a p => cases he; exact request_storeFollows tables h fun _ _ => setFireDetector_tracks
  case recharged q n => cases he; exact request_storeFollows tables h fun _ _ => recharged_tracks
  case isolate q n x => cases he; exact request_storeFollows tables h fun _ _ => isolate_tracks
  case confirmArea q n => cases he; exact request_storeFollows tables h fun _ _ => confirmArea_tracks
  case resetArea q n => cases he; exact request_storeFollows tables h fun _ _ => resetArea_tracks
  case format q => cases he; exact request_storeFollows_of_idle tables h (by decide) fun _ _ => formatRequest_tracks
  case restart q => cases he; exact request_storeFollows tables h fun _ _ => answer_tracks
  case enrol q l x => cases he; exact request_storeFollows tables h fun _ _ => enrol_tracks
  case retire q l => cases he; exact request_storeFollows tables h fun _ _ => retire_tracks
  case relocate q l x => cases he; exact request_storeFollows tables h fun _ _ => relocate_tracks
  case custodyQuery q l => cases he; exact request_storeFollows tables h fun _ _ => custodyQuery_tracks
  case doseReset q l => cases he; exact request_storeFollows tables h fun _ _ => doseReset_tracks
  case checkout q l => cases he; exact request_storeFollows tables h fun _ _ => checkout_tracks
  case cancel q l => cases he; exact request_storeFollows tables h fun _ _ => cancel_tracks
  case placed q l n => cases he; exact request_storeFollows tables h fun _ _ => placed_tracks
  case shelved q l x => cases he; exact request_storeFollows tables h fun _ _ => shelved_tracks
  case slotQuery q n => cases he; exact request_storeFollows tables h fun _ _ => slotQuery_tracks
  case setStaging q f => cases he; exact request_storeFollows tables h fun _ _ => setStaging_tracks
  case consignOpen q x y => cases he; exact request_storeFollows tables h fun _ _ => consignOpen_tracks
  case consignAdd q n l => cases he; exact request_storeFollows tables h fun _ _ => consignAdd_tracks
  case consignRemove q n l => cases he; exact request_storeFollows tables h fun _ _ => consignRemove_tracks
  case consignSeal q n => cases he; exact request_storeFollows tables h fun _ _ => consignSeal_tracks
  case consignCancel q n => cases he; exact request_storeFollows tables h fun _ _ => consignCancel_tracks
  case consignUnlock q n => cases he; exact request_storeFollows tables h fun _ _ => consignUnlock_tracks
  case consignQuery q n => cases he; exact request_storeFollows tables h fun _ _ => consignQuery_tracks
  case hatchRequest q p => cases he; exact request_storeFollows tables h fun _ _ => hatchRequest_tracks
  case hatchRelease q => cases he; exact request_storeFollows tables h fun _ _ => hatchRelease_tracks
  case loaded q l => cases he; exact request_storeFollows tables h fun _ _ => loaded_tracks
  case unloaded q l => cases he; exact request_storeFollows tables h fun _ _ => unloaded_tracks
  case arrive q n x w => cases he; exact request_storeFollows tables h fun _ _ => arrive_tracks
  case taken q l => cases he; exact request_storeFollows tables h fun _ _ => taken_tracks
  case deposited q l => cases he; exact request_storeFollows tables h fun _ _ => deposited_tracks
  case exchangeQuery q => cases he; exact request_storeFollows tables h fun _ _ => exchangeQuery_tracks
  case unknownRequestKind q k => cases he; exact request_storeFollows tables h fun _ _ => id
  case rezoneSweepStep => cases he; exact event_storeFollows tables h fun _ => rezoneStep_tracks
  case rezoneDone => cases he; exact event_storeFollows tables h fun _ => rezoneEnd_tracks
  case formatDone => cases he; exact event_storeFollows tables h fun _ h => formatEnd_tracks h tables
  case nonRequestFrame p k => cases he; exact event_storeFollows tables h fun _ => validFrame_tracks
  case frameDiscarded p bs => cases he; exact event_storeFollows tables h fun _ => discardFrame_tracks
  case interByteGapTimeout p => cases he; exact event_storeFollows tables h fun _ => onLink_tracks
  case frameTransmitEnd p => cases he; exact event_storeFollows tables h fun _ => frameEnd_tracks
  case facilityLinkLost => cases he; exact event_storeFollows tables h fun _ => loseLink_tracks
  case storeWriteEnd => cases he; exact event_storeFollows tables h fun _ h => writeEnd_tracks h tables
  case clockSnapshot => cases he; exact event_storeFollows tables h fun _ => snapshotPoint_tracks
  case sweepDue => cases he; exact event_storeFollows tables h fun _ => sweepFallsDue_tracks
  case sensorReadStart => cases he; exact event_storeFollows tables h fun _ => beginRead_tracks
  case readTimeLimit => cases he; exact event_storeFollows tables h fun _ => limitRead_tracks
  case busWaitTimeout => cases he; exact event_storeFollows tables h fun _ => endBusWait_tracks
  case sampleEvent v => cases he; exact event_storeFollows tables h fun _ => sampleOf_tracks
  case detectorLineChange d al fl => cases he; exact event_storeFollows tables h fun _ => detectorChange_tracks
  case callPointOperated a => cases he; exact event_storeFollows tables h fun _ => callPointOperated_tracks
  case callPointInactive a => cases he; exact event_storeFollows tables h fun _ => callPointInactive_tracks
  case abortHoldActive => cases he; exact event_storeFollows tables h fun _ => abortHoldActive_tracks
  case abortHoldReleased => cases he; exact event_storeFollows tables h fun _ => abortHoldReleased_tracks
  case retakeAtScan => cases he; exact event_storeFollows tables h fun _ => retakeInputs_tracks
  case dischargeDelayExpiry a => cases he; exact event_storeFollows tables h fun _ => dischargeArea_tracks
  case releasePulseEnd a => cases he; exact event_storeFollows tables h fun _ => endPulse_tracks
  case ventTimeExpiry a => cases he; exact event_storeFollows tables h fun _ => ventEnd_tracks
  case doorOpened d => cases he; exact event_storeFollows tables h fun _ => doorOpened_tracks
  case doorClosed d => cases he; exact event_storeFollows tables h fun _ => doorClosed_tracks
  case doorHeld d => cases he; exact event_storeFollows tables h fun _ => heldDoor_tracks
  case latchLapse => cases he; exact event_storeFollows tables h fun _ => lapseLatch_tracks
  case pickLapsed n => cases he; exact event_storeFollows tables h fun _ => pickLapse_tracks
  case exchangeTimeout => cases he; exact event_storeFollows tables h fun _ => timeOutExchange_tracks
  case timeBaseSecond => cases he; exact event_storeFollows tables h fun _ => tick_tracks
  case lossOfSupply => cases he; exact loseSupply_storeFollows tables h

/-! ## The steps -/

theorem step_storeFollows (tables : s.meets .tables) (h : s.storeFollows) (he : step s = .next t) : t.storeFollows := by
  unfold step at he
  split at he
  · cases he
    exact scan_storeFollows (startTransmitters_meets tables) (startTransmitters_storeFollows tables h)
  · rename_i rest _
    have taken : State.storeFollows { s with pending := rest } :=
      ⟨h.1, fun running r wf hr => by
        have live : State.liveContent { s with pending := rest } r = s.liveContent r := by cases r <;> rfl
        rw [live]
        exact h.2 running r wf hr⟩
    have canonical : State.meets .tables { s with pending := rest } := tables
    exact exec_storeFollows canonical taken he

end

/-- Settles O60: of one record, every operation of the blocks keeps the store on what its block holds (`State.tracks`); the
writes' ends and a format's by their cells, a restart by what it writes back. -/
theorem stepsKeepTheStoreOnTheBlocks : Obligations.StepsKeepTheStoreOnTheBlocks :=
  fun s _ tables h he => step_storeFollows ((tablesCanonical_iff s).1 tables) h he

end Sys2Proof.Machine
end

