-- ==== Sys2Proof/Proofs/StoreQueue.lean ====
section
/-! SUPPORT. The two copies of a record, and the queue of writes behind a hand-over (R89, R179). -/

namespace Sys2Proof.Machine

/-! ## The two copies (R179) -/

/-- The two bytes of a number, the high one first. -/
theorem twoBytes_eq (n : Nat) : twoBytes n = [BitVec.ofNat 8 (n / 256), BitVec.ofNat 8 n] := by
  have high : highByte (BitVec.ofNat 16 n) = BitVec.ofNat 8 (n / 256) := by
    apply BitVec.eq_of_toNat_eq
    simp [highByte]
    omega
  have low : lowByte (BitVec.ofNat 16 n) = BitVec.ofNat 8 n := by
    apply BitVec.eq_of_toNat_eq
    simp [lowByte]
  rw [twoBytes, high, low]

/-- The check of a copy is over the content's bytes and then the count's. -/
theorem recordCheck_eq (x : Content) (n : Nat) :
    recordCheck x n = crc16 (x.bytes ++ [BitVec.ofNat 8 (n / 256), BitVec.ofNat 8 n]) := by
  unfold recordCheck
  rw [twoBytes_eq]

theorem sealed_eq (x : Content) (n : Nat) :
    Copy.sealed x n = ⟨x, n, crc16 (x.bytes ++ [BitVec.ofNat 8 (n / 256), BitVec.ofNat 8 n])⟩ := by
  unfold Copy.sealed
  rw [recordCheck_eq]

theorem write_of_firstOlder {c : Cell} (older : c.firstOlder = true) (x : Content) :
    c.write x = { c with first := Copy.sealed x ((c.second.count + 1) % 65536) } := if_pos older

theorem write_of_secondOlder {c : Cell} (older : c.firstOlder = false) (x : Content) :
    c.write x = { c with second := Copy.sealed x ((c.first.count + 1) % 65536) } := by
  unfold Cell.write
  rw [older]
  rfl

theorem tear_of_firstOlder {c : Cell} (older : c.firstOlder = true) : c.tear = { c with first := c.first.spoiled } :=
  if_pos older

theorem tear_of_secondOlder {c : Cell} (older : c.firstOlder = false) :
    c.tear = { c with second := c.second.spoiled } := by
  unfold Cell.tear
  rw [older]
  rfl

theorem good_iff (c : Copy) :
    c.good = true ↔ c.check = crc16 (c.content.bytes ++ [BitVec.ofNat 8 (c.count / 256), BitVec.ofNat 8 c.count]) := by
  rw [← recordCheck_eq]
  exact beq_iff_eq

/-- A write cut short leaves what was read before: the newer of two good copies, which it does not touch. -/
theorem read_tear {c : Cell} (first : c.first.good = true) (second : c.second.good = true) : c.tear.read = c.read := by
  cases older : c.firstOlder with
  | true =>
    rw [tear_of_firstOlder older]
    simp only [Cell.read, spoiled_good, first, second, older, if_true]
  | false =>
    rw [tear_of_secondOlder older]
    simp only [Cell.read, spoiled_good, first, second, older, Bool.false_eq_true, if_false]

/-- A record is damaged when both copies fail their checks. -/
theorem read_eq_none_iff (c : Cell) : c.read = none ↔ c.first.good = false ∧ c.second.good = false := by
  unfold Cell.read
  cases c.first.good <;> cases c.second.good <;> simp

/-- A count is the newer when it stands less than half the round ahead of the other. -/
theorem newerCount_iff {a b : Nat} (ha : a < 65536) (hb : b < 65536) :
    newerCount a b = true ↔ ∃ k, 0 < k ∧ k < 32768 ∧ a = (b + k) % 65536 := by
  simp only [newerCount, Bool.and_eq_true, decide_eq_true_eq]
  constructor
  · intro ahead
    refine ⟨(a + 65536 - b) % 65536, ahead.1, ahead.2, ?_⟩
    omega
  · rintro ⟨k, low, high, rfl⟩
    omega

/-! ## A hand-over (R89, R179, R184) -/

theorem persist_of_not_folds {s : State} {r : StoreRecord} (h : s.store.folds r = false) :
    s.persist r = { s with store := s.store.handOver r (s.liveContent r) } := by
  unfold State.persist
  rw [h]
  rfl

theorem persist_of_folds {s : State} {r : StoreRecord} (h : s.store.folds r = true) : s.persist r = s := if_pos h

/-- No record is left to a format that writes none. -/
theorem folds_of_not_writing {st : Store} (h : ∀ k, st.format ≠ .writing k) (r : StoreRecord) : st.folds r = false := by
  unfold Store.folds
  split
  · rename_i k writing
    exact absurd writing (h k)
  · rfl
  · rfl

theorem isAccumulator_of_ne {r : StoreRecord} (h : ∀ a, r ≠ .accumulator a) : r.isAccumulator = false := by
  cases r with
  | accumulator a => exact absurd rfl (h a)
  | _ => rfl

theorem isFireFlags_iff (r : StoreRecord) : r.isFireFlags = true ↔ ∃ a, r = .fireFlags a := by
  cases r <;> simp [StoreRecord.isFireFlags]

theorem any_record_iff (js : List Job) (r : StoreRecord) :
    js.any (fun j => j.record == r) = true ↔ ∃ j ∈ js, j.record = r := by
  simp only [List.any_eq_true, beq_iff_eq]

theorem inFlight_record_iff (st : Store) (r : StoreRecord) :
    (st.inflight.any fun j => j.record == r) = true ↔ ∃ j, st.inflight = some j ∧ j.record = r := by
  cases st.inflight <;> simp

/-- A hand-over goes into a write that waits, or is a write of its own. -/
theorem handOver_folds {st : Store} {r : StoreRecord} (x : Content)
    (next : (∃ j, st.inflight = some j ∧ j.record = r) ∨ r.isFireFlags = true) (waits : ∃ j ∈ st.queue, j.record = r) :
    st.handOver r x = { st with queue := foldWrite r x st.queue } := by
  rw [← inFlight_record_iff] at next
  rw [← any_record_iff] at waits
  exact if_pos (Bool.and_eq_true_iff.2 ⟨(Bool.or_eq_true _ _).mpr next, waits⟩)

theorem handOver_appends {st : Store} {r : StoreRecord} (x : Content)
    (own : ¬ (((∃ j, st.inflight = some j ∧ j.record = r) ∨ r.isFireFlags = true) ∧ ∃ j ∈ st.queue, j.record = r)) :
    st.handOver r x = st.append r x := by
  rw [← inFlight_record_iff, ← any_record_iff, ← Bool.or_eq_true, ← Bool.and_eq_true] at own
  exact if_neg own

theorem append_of_fireFlags {r : StoreRecord} (h : r.isFireFlags = true) (st : Store) (x : Content) :
    st.append r x =
      ({ st with queue := ⟨st.nextTicket, r, x⟩ :: st.queue, nextTicket := st.nextTicket + 1 } : Store).begin := by
  unfold Store.append
  rw [h]
  rfl

theorem append_of_not_fireFlags {r : StoreRecord} (h : r.isFireFlags = false) (st : Store) (x : Content) :
    st.append r x =
      ({ st with queue := st.queue ++ [⟨st.nextTicket, r, x⟩], nextTicket := st.nextTicket + 1 } : Store).begin := by
  unfold Store.append
  rw [h]
  rfl

/-- The fold takes the last waiting write of the record. -/
theorem foldWrite_of_last {r : StoreRecord} {j : Job} {after : List Job} (x : Content) (own : j.record = r)
    (last : ∀ k ∈ after, k.record ≠ r) :
    ∀ before : List Job, foldWrite r x (before ++ j :: after) = before ++ { j with content := x } :: after
  | [] => by
    have none : after.all (fun k => k.record != r) = true := List.all_eq_true.2 fun k hk => bne_iff_ne.2 (last k hk)
    exact if_pos ⟨own, none⟩
  | k :: before => by
    have later : ¬ (k.record = r ∧ (before ++ j :: after).all (fun k => k.record != r) = true) := by
      rintro ⟨-, none⟩
      exact bne_iff_ne.1 (List.all_eq_true.1 none j (List.mem_append_right _ List.mem_cons_self)) own
    have fold : foldWrite r x (k :: before ++ j :: after) = k :: foldWrite r x (before ++ j :: after) := if_neg later
    rw [fold, foldWrite_of_last x own last before]
    rfl

theorem begin_of_busy {st : Store} (h : st.inflight.isSome = true ∨ st.queue = []) : st.begin = st := by
  unfold Store.begin
  split
  · rename_i idle waits
    rw [idle, waits] at h
    simp at h
  · rfl

/-- Settles O50: the copies by which of them is the older; a hand-over by whether a write of the record takes it in. -/
theorem storeWritesAreQueuedAndReadBack : Obligations.StoreWritesAreQueuedAndReadBack := by
  refine ⟨⟨fun c x first second => read_write ⟨first, second⟩ x, fun c x => ⟨fun older => ?_, fun older => ?_⟩,
    fun c => good_iff c, fun c => ⟨fun older => ?_, fun older => ?_⟩, fun c => read_tear, read_eq_none_iff,
    fun a b => newerCount_iff⟩, fun r s h => ?_, fun a k s format => ⟨fun ahead => ?_, fun behind => ?_⟩,
    fun r x st => ?_, fun st => ⟨begin_of_busy, fun j js idle waits => ?_⟩⟩
  · rw [write_of_firstOlder older]
    exact ⟨rfl, sealed_eq _ _⟩
  · rw [write_of_secondOlder older]
    exact ⟨rfl, sealed_eq _ _⟩
  · rw [tear_of_firstOlder older]
    exact ⟨spoiled_good _, rfl⟩
  · rw [tear_of_secondOlder older]
    exact ⟨spoiled_good _, rfl⟩
  · refine persist_of_not_folds ?_
    obtain still | other := h
    · exact folds_of_not_writing still r
    · exact folds_of_not_accumulator _ (isAccumulator_of_ne other)
  · exact persist_of_folds ((folds_accumulator_iff _ a).2 ⟨k, format, ahead⟩)
  · refine persist_of_not_folds (Bool.eq_false_iff.2 fun folds => ?_)
    obtain ⟨m, same, ahead⟩ := (folds_accumulator_iff _ a).1 folds
    rw [format] at same
    cases same
    omega
  · intro waits inFlight fire job placed
    refine ⟨fun ordinary apart => ?_, fun fireFlags none => ?_, fun before after j next queue own last => ?_⟩
    · rw [handOver_appends x fun ⟨next, waiting⟩ => next.elim (fun flight => apart ⟨waiting, flight⟩) fun flags =>
        ordinary ((isFireFlags_iff r).1 flags)]
      exact append_of_not_fireFlags (Bool.eq_false_iff.2 fun flags => ordinary ((isFireFlags_iff r).1 flags)) st x
    · rw [handOver_appends x fun both => none both.2]
      exact append_of_fireFlags ((isFireFlags_iff r).2 fireFlags) st x
    · have there : ∃ j ∈ st.queue, j.record = r := ⟨j, by rw [queue]; simp, own⟩
      rw [handOver_folds x (next.symm.imp_right (isFireFlags_iff r).2) there, queue, foldWrite_of_last x own last]
  · rw [begin_of_idle idle, waits]
    rfl

end Sys2Proof.Machine
end

