-- ==== Sys2Proof/Proofs/SharedOperations.lean ====
section
/-! SUPPORT. What the operations that the blocks share do, and what they leave (R89, R172, R174, R179); and DOSE_RESET
(R98). -/

namespace Sys2Proof.Machine

section
variable {s t : State}

/-! ## What the link units keep (R174, R175) -/

theorem start_holds (l : Link) : l.holds l.start := by
  have receiver := congrArg Link.receiver (start_frame l)
  have mask := congrArg Link.mask (start_frame l)
  exact ⟨receiver, mask⟩

theorem joinNotice_holds (l : Link) (n : Notice) : l.holds (l.joinNotice n) := by
  unfold Link.joinNotice
  split
  · exact ⟨rfl, rfl⟩
  · split <;> exact ⟨rfl, rfl⟩

theorem joinResponse_holds (l : Link) (r : Response) : l.holds (l.joinResponse r) := by
  unfold Link.joinResponse
  split
  · split <;> exact ⟨rfl, rfl⟩
  · exact ⟨rfl, rfl⟩

theorem holds_trans {a b c : Link} (first : a.holds b) (second : b.holds c) : a.holds c :=
  ⟨second.1.trans first.1, second.2.trans first.2⟩

theorem takeNotice_holds (l : Link) (n : Notice) : l.holds (l.takeNotice n) :=
  holds_trans (holds_trans (start_holds l) (joinNotice_holds _ n)) (start_holds _)

theorem takeResponse_holds (l : Link) (r : Response) : l.holds (l.takeResponse r) :=
  holds_trans (holds_trans (start_holds l) (joinResponse_holds _ r)) (start_holds _)

theorem links_holds_refl (a : Links) : a.holds a := ⟨⟨rfl, rfl⟩, ⟨rfl, rfl⟩, ⟨rfl, rfl⟩, rfl, rfl⟩

theorem links_holds_trans {a b c : Links} (first : a.holds b) (second : b.holds c) : a.holds c := by
  obtain ⟨facility, archive, handover, lost, valid⟩ := first
  obtain ⟨facility', archive', handover', lost', valid'⟩ := second
  exact ⟨holds_trans facility facility', holds_trans archive archive', holds_trans handover handover', lost'.trans lost,
    valid'.trans valid⟩

theorem onLink_holds {f : Link → Link} (hf : ∀ l : Link, l.holds (f l)) (p : Port) (s : State) :
    s.links.holds (s.onLink p f).links := by
  cases p with
  | facility => exact ⟨hf _, ⟨rfl, rfl⟩, ⟨rfl, rfl⟩, rfl, rfl⟩
  | archive => exact ⟨⟨rfl, rfl⟩, hf _, ⟨rfl, rfl⟩, rfl, rfl⟩
  | handover => exact ⟨⟨rfl, rfl⟩, ⟨rfl, rfl⟩, hf _, rfl, rfl⟩

theorem postNotice_holds (n : NoticeBody) (s : State) : s.links.holds (s.postNotice n).links := by
  refine foldl_invariant (fun s p => State.noticeOn Link.takeNotice n p s) (fun t => s.links.holds t.links)
    (fun t p kept => ?_) n.ports s (links_holds_refl _)
  unfold State.noticeOn
  split
  · exact links_holds_trans kept (onLink_holds (fun l => takeNotice_holds l _) p t)
  · exact kept

theorem deliver_holds (x : Out) (s : State) : s.links.holds (s.deliver x).links := by
  cases x with
  | response p r => exact onLink_holds (fun l => takeResponse_holds l r) p s
  | notice n => exact postNotice_holds n s

theorem emit_holds (needs : List Nat) (xs : List Out) (s : State) : s.links.holds (s.emit needs xs).links := by
  unfold State.emit
  split
  · exact foldl_invariant State.deliver (fun t => s.links.holds t.links)
      (fun t x kept => links_holds_trans kept (deliver_holds x t)) xs s (links_holds_refl _)
  · exact links_holds_refl _

/-! ## What a shared operation leaves (R89, R179) -/

theorem talksOnly_of_frame {links : Links} {inflight : Option Job} {queue : List Job} {nextTicket : Nat}
    {waiting : List Waiting} (held : s.links.holds links)
    (frame : t = { s with links := links, store := { s.store with
      inflight := inflight, queue := queue, nextTicket := nextTicket, waiting := waiting } }) : s.talksOnly t := by
  subst frame
  exact ⟨rfl, held, rfl⟩

theorem emit_talksOnly (needs : List Nat) (xs : List Out) (s : State) : s.talksOnly (s.emit needs xs) :=
  talksOnly_of_frame (emit_holds needs xs s) (emit_frame needs xs s)

theorem persist_talksOnly (r : StoreRecord) (s : State) : s.talksOnly (s.persist r) :=
  talksOnly_of_frame (links_holds_refl _) (persist_frame r s)

/-! ## An output, at once or behind writes (R89; log 17) -/

theorem emit_of_needs {needs : List Nat} (h : needs ≠ []) (outs : List Out) (s : State) :
    s.emit needs outs = { s with store := { s.store with waiting := s.store.waiting ++ [⟨needs, outs⟩] } } :=
  if_neg (by simpa using h)

theorem mem_awaits (rs : List StoreRecord) (ticket : Nat) (s : State) : ticket ∈ s.awaits rs ↔
    ∃ j ∈ s.store.inflight.toList ++ s.store.queue, j.record ∈ rs ∧ j.ticket = ticket := by
  simp only [State.awaits, Store.pendingOf, List.mem_flatMap, List.mem_map, List.mem_filter, beq_iff_eq]
  constructor
  · rintro ⟨r, hr, j, ⟨there, rfl⟩, rfl⟩
    exact ⟨j, there, hr, rfl⟩
  · rintro ⟨j, there, hr, rfl⟩
    exact ⟨j.record, hr, j, ⟨there, rfl⟩, rfl⟩

theorem putRecord_eq (p : Nat) (r : CustodyRecord) (s : State) :
    s.putRecord p r = ({ s with custody := (s.putRecord p r).custody }).persist (.custody p) := by
  rw [putRecord_custody]
  rfl

end

/-! ## Each record as its block holds it (R179) -/

theorem liveContent_slot (s : State) (n : Fin 32) : s.liveContent (.slot n) = .slot (match s.staging.slots[n] with
    | .free => .free
    | .reserved l o _ => .reserved l o
    | .occupied l d o _ _ => .occupied l d o) := by
  simp only [State.liveContent]
  cases s.staging.slots[n] <;> rfl

theorem liveContent_fireFlags (s : State) (a : Area) : s.liveContent (.fireFlags a) =
    .fireFlags (decide ((s.fire.areas.get a).state = .discharged)) (s.fire.areas.get a).agentSpent := rfl

/-- Settles O3: what each shared operation leaves by its frame, an output by whether it waits, and a record set in its
block by the content that it hands over. -/
theorem sharedOperationsLeaveTheRest : Obligations.SharedOperationsLeaveTheRest := by
  refine ⟨fun h k needs code d s => emit_talksOnly _ _ s, fun needs n s => emit_talksOnly _ _ s,
    fun r s => ⟨persist_talksOnly r s, by simp⟩, fun p r s => ?_, fun p q r s => ?_, fun n x s => persist_talksOnly _ _,
    fun i x s => persist_talksOnly _ _, fun es s => persist_talksOnly _ _, ⟨fun h k code d needs n s => ?_,
    fun needs p r n outs s => ⟨rfl, rfl, rfl, fun waits => emit_of_needs waits outs s⟩, mem_awaits⟩,
    fun _ _ _ => rfl, fun _ _ _ => rfl, fun _ _ => rfl, putRecord_eq, fun s => ?_⟩
  · rw [putRecord_eq]
    simpa using persist_talksOnly (.custody p) { s with custody := (s.putRecord p r).custody }
  · rw [putRecord_custody]
    exact recordAt_placeRecord _ _ _ _
  · intro response
    exact ⟨rfl, rfl, rfl, fun waits => ⟨emit_of_needs waits _ s, emit_of_needs waits _ s⟩⟩
  · exact ⟨fun p => ⟨rfl, rfl⟩, liveContent_slot s, rfl, fun i => rfl, rfl,
      fun a => ⟨rfl, liveContent_fireFlags s a⟩, rfl, rfl, rfl⟩

/-! ## DOSE_RESET (R98) -/

section
variable {h : ReqHead} {l : Label} {s : State} {p : Nat} {r : CustodyRecord}

theorem exec_doseReset (l : Label) (ha : s.accepts h .doseReset) :
    exec (.doseReset h l) s = .next ((s.received h).doseReset h l) := congrArg Host.Outcome.next (request_accepted _ ha)

theorem doseReset_invalid (bad : goodLabel l = false) : s.doseReset h l = s.refuse h .doseReset .invalid := if_pos bad

theorem doseReset_notFound (good : goodLabel l = true) (absent : s.record? l = none) :
    s.doseReset h l = s.refuse h .doseReset .notFound := by
  simp only [State.doseReset, good, absent, Bool.true_eq_false, if_false]

theorem doseReset_state (good : goodLabel l = true) (found : s.record? l = some (p, r))
    (away : r.state = .withCourier ∨ r.state = .unknown) : s.doseReset h l = s.refuse h .doseReset .state := by
  simp only [State.doseReset, good, found, Bool.true_eq_false, if_false]
  exact if_pos away

theorem doseReset_of_here (good : goodLabel l = true) (found : s.record? l = some (p, r)) (known : r.state ≠ .unknown)
    (here : r.state ≠ .withCourier) :
    let t := s.putRecord p { r with storedDose := some 0, mark := r.area.map s.accumulators.get, inspect := false }
    s.doseReset h l = t.answer h .doseReset (t.awaits [.custody p]) .ok (.doseBefore (s.doseOf r)) := by
  simp only [State.doseReset, good, found, Bool.true_eq_false, if_false]
  exact if_neg (not_or.2 ⟨here, known⟩)

/-- What depends on a record that was set waits on a write. -/
theorem putRecord_awaits_ne_nil (p : Nat) (r : CustodyRecord) (s : State) :
    (s.putRecord p r).awaits [.custody p] ≠ [] := by
  obtain ⟨ticket, last⟩ := persist_has_ticket ({ s with custody := placeRecord p r s.custody }) (r := .custody p) rfl
  rw [awaits_single]
  intro none
  rw [State.putRecord] at none
  rw [none] at last
  cases last

end

/-- Settles O31: DOSE_RESET by its checks, and the record's write that its OK waits on. -/
theorem doseResetStartsTheDoseAfresh : Obligations.DoseResetStartsTheDoseAfresh := by
  intro h l s ha u c
  have reset : exec c s = .next (u.doseReset h l) := exec_doseReset l ha
  have accumulators : u.accumulators = s.accumulators := received_accumulators s h
  have dose : ∀ r, u.doseOf r = s.doseOf r := received_doseOf s h
  rw [reset, ← received_record? s h]
  refine ⟨fun bad => congrArg _ (doseReset_invalid bad), fun good absent => congrArg _ (doseReset_notFound good absent),
    fun p r good found => ⟨fun away => congrArg _ (doseReset_state good found away), fun a here known area => ?_⟩⟩
  intro v
  refine ⟨?_, putRecord_awaits_ne_nil p _ u⟩
  have mark : r.area.map s.accumulators.get = some (s.accumulators.get a) := by
    rw [area]
    rfl
  rw [doseReset_of_here good found known here, dose, accumulators, mark]

end Sys2Proof.Machine
end

