-- ==== Sys2Proof/Proofs/Dispatch.lean ====
section
/-! SUPPORT. A dispatch attempt (R108 to R110): its conditions, the entry and the slot that a round takes, and the round
that it starts with. -/

namespace Sys2Proof.Machine

section
variable {needs : List Nat} {s t : State} {e : QueueEntry} {p : Nat} {r : CustodyRecord} {a : Area} {n : Fin 32}

/-! ## The conditions of a round (R108) -/

theorem freeSlots_eq (s : State) : s.freeSlots = (s.staging.slots.toList.filter (· == .free)).length :=
  congrArg (fun f => (s.staging.slots.toList.filter f).length) isFree_eq

theorem anyLate_eq_false_iff (f : FireUnit) : f.anyLate = false ↔ ∀ a, (f.areas.get a).state.late = false := by
  rw [← Bool.not_eq_true, FireUnit.anyLate, perArea_any_iff]
  simp

theorem mayDispatch_iff : s.mayDispatch = true ↔ s.vault.mode = .staffed ∧
    (∀ a, (s.fire.areas.get a).state.late = false) ∧
    s.staging.settings.inboundReserve < (s.staging.slots.toList.filter (· == .free)).length := by
  rw [← anyLate_eq_false_iff, ← freeSlots_eq]
  simp [State.mayDispatch, and_assoc]

/-! ## The entry that a round takes (R109, R110) -/

theorem quietArea_eq_some_iff {l : Label} : s.quietArea l = some a ↔
    ∃ p r, s.record? l = some (p, r) ∧ r.area = some a ∧ (s.fire.areas.get a).state = .quiet := by
  unfold State.quietArea
  cases found : s.record? l with
  | none => simp
  | some x =>
    obtain ⟨p, r⟩ := x
    simp only [Option.bind_eq_some_iff, Option.ite_none_right_eq_some, Option.some.injEq, Prod.mk.injEq]
    constructor
    · rintro ⟨b, area, quiet, rfl⟩
      exact ⟨p, r, ⟨rfl, rfl⟩, area, quiet⟩
    · rintro ⟨_, _, ⟨rfl, rfl⟩, area, quiet⟩
      exact ⟨a, area, quiet, rfl⟩

/-- The lowest FREE slot is FREE, and no slot below it is. -/
theorem lowestSlot_eq_some (free : s.staging.slots[n] = .free) (lowest : ∀ m < n, s.staging.slots[m] ≠ .free) :
    s.lowestSlot = some n := by
  unfold State.lowestSlot slotNumbers
  rw [isFree_eq, ← Fin.find?_eq_find?_finRange, Fin.find?_eq_some_iff]
  exact ⟨beq_iff_eq.2 free, fun m below => beq_eq_false_iff_ne.2 (lowest m below)⟩

/-- A queue without an entry of a QUIET area gives a round nothing to take. -/
theorem dispatchRound_of_none_quiet (still : ∀ e ∈ s.staging.queue, s.quietArea e.label = none) :
    s.dispatchRound needs = none := by
  have nothing : s.staging.queue.find? (fun e => (s.quietArea e.label).isSome) = none :=
    List.find?_eq_none.2 fun e he => by simp [still e he]
  unfold State.dispatchRound
  rw [nothing]

/-- A round takes the first entry of a QUIET area, and drops or picks it by its record. -/
theorem dispatchRound_of_first {before after : List QueueEntry} (queue : s.staging.queue = before ++ e :: after)
    (passed : ∀ x ∈ before, s.quietArea x.label = none) (found : s.record? e.label = some (p, r))
    (quiet : s.quietArea e.label = some a) (slot : s.lowestSlot = some n) :
    s.dispatchRound needs = if r.inspect then some (s.dropEntry needs p r .inspect)
      else if s.overDose r then some (s.dropEntry needs p r .dose)
      else some (s.pickEntry needs p r a n) := by
  have first : s.staging.queue.find? (fun e => (s.quietArea e.label).isSome) = some e :=
    List.find?_eq_some_iff_append.2 ⟨by simp [quiet], before, after, queue, fun x hx => by simp [passed x hx]⟩
  simp only [State.dispatchRound, first, found, quiet, slot]

/-! ## Each round takes one entry out (R103, R108) -/

theorem unqueue_length (mem : e ∈ s.staging.queue) :
    (s.unqueue e.label).staging.queue.length + 1 = s.staging.queue.length :=
  List.length_eraseP_add_one mem (beq_self_eq_true e.label)

theorem dropEntry_queue (why : DropReason) :
    (s.dropEntry needs p r why).staging.queue = (s.unqueue r.label).staging.queue := by
  simp [State.dropEntry]

theorem pickEntry_queue : (s.pickEntry needs p r a n).staging.queue = (s.unqueue r.label).staging.queue := by
  simp [State.pickEntry]

/-! ## An attempt as its first round and the attempt after it (R108) -/

theorem dispatch_of_closed (closed : ¬ s.mayDispatch = true) : s.dispatch needs = s := by
  unfold State.dispatch
  cases s.staging.queue.length with
  | zero => rfl
  | succ k => exact if_neg closed

theorem dispatch_of_no_round (none : s.dispatchRound needs = none) : s.dispatch needs = s := by
  unfold State.dispatch
  cases s.staging.queue.length with
  | zero => rfl
  | succ k =>
    simp only [State.dispatchRounds, none]
    exact ite_self s

theorem dispatch_of_round (may : s.mayDispatch = true) (round : s.dispatchRound needs = some t)
    (shorter : t.staging.queue.length + 1 = s.staging.queue.length) : s.dispatch needs = t.dispatch needs := by
  unfold State.dispatch
  rw [← shorter]
  simp only [State.dispatchRounds, may, round, if_true]

end

/-- Settles O34: an attempt that may not run or finds no entry changes nothing; any other is its first round, which
drops or picks the first entry of a QUIET area, and the attempt on the queue that is one entry shorter. -/
theorem dispatchTakesEntriesInOrder : Obligations.DispatchTakesEntriesInOrder := by
  refine ⟨fun needs s forbidden => dispatch_of_closed fun may => ?_, fun l a s => quietArea_eq_some_iff,
    fun needs s none => dispatch_of_no_round (dispatchRound_of_none_quiet none), ?_,
    fun needs s => ⟨resumeTest_of_held, resumeTest_of_not⟩, fun l s => rfl⟩
  · obtain ⟨staffed, early, room⟩ := mayDispatch_iff.1 may
    rcases forbidden with mode | ⟨a, late⟩ | full
    · exact mode staffed
    · rw [early a] at late
      cases late
    · omega
  · intro needs before after e p r a n s staffed early room queue passed found area quiet free lowest dropped
    have may : s.mayDispatch = true := mayDispatch_iff.2 ⟨staffed, early, room⟩
    have label : r.label = e.label := record_label found
    have taken : (s.unqueue r.label).staging.queue.length + 1 = s.staging.queue.length := by
      rw [label]
      exact unqueue_length (by rw [queue]; simp)
    have round := dispatchRound_of_first (needs := needs) queue passed found
      (quietArea_eq_some_iff.2 ⟨p, r, found, area, quiet⟩) (lowestSlot_eq_some free lowest)
    have drops : ∀ why, s.dispatchRound needs = some (s.dropEntry needs p r why) → s.dispatch needs = dropped why := by
      intro why drop
      rw [dispatch_of_round may drop (by rw [dropEntry_queue, taken]), State.dropEntry, label]
      rfl
    refine ⟨fun inspect => drops _ ?_, fun clear above => drops _ ?_, fun clear within => ?_⟩
    · rw [round, if_pos inspect]
    · rw [round, clear, if_neg Bool.false_ne_true, if_pos above]
    · rw [clear, if_neg Bool.false_ne_true, within, if_neg Bool.false_ne_true] at round
      rw [dispatch_of_round may round (by rw [pickEntry_queue, taken]), State.pickEntry, label]

end Sys2Proof.Machine
end

