-- ==== Sys2Proof/Proofs/CheckOut.lean ====
section
/-! SUPPORT. CHECKOUT: its checks, the HOLD test, and the entry at the queue's tail (R103 to R106). -/

namespace Sys2Proof.Machine

section
variable {h : ReqHead} {l : Label} {s : State} {p : Nat} {r : CustodyRecord} {needs : List Nat}

/-! ## The HOLD test (R106) -/

theorem holdTest_of_reached (len : s.staging.queue.length = 20) (unsent : s.staging.holdSent = false) :
    s.holdTest needs = ({ s with staging := { s.staging with holdSent := true } }).notify needs .hold :=
  if_pos ⟨len, unsent⟩

theorem holdTest_of_not (stays : ¬ (s.staging.queue.length = 20 ∧ s.staging.holdSent = false)) :
    s.holdTest needs = s := if_neg stays

/-! ## The checks (R104) -/

theorem exec_checkout (l : Label) (ha : s.accepts h .checkout) :
    exec (.checkout h l) s = .next ((s.received h).checkout h l) := congrArg Host.Outcome.next (request_accepted _ ha)

theorem checkout_mode (mode : s.vault.mode = .maintenance) : s.checkout h l = s.refuse h .checkout .mode := if_pos mode

theorem checkout_invalid (mode : s.vault.mode ≠ .maintenance) (bad : goodLabel l = false) :
    s.checkout h l = s.refuse h .checkout .invalid := by
  simp only [State.checkout, mode, bad, if_false, if_true]

theorem checkout_notFound (mode : s.vault.mode ≠ .maintenance) (good : goodLabel l = true)
    (absent : s.record? l = none) : s.checkout h l = s.refuse h .checkout .notFound := by
  simp only [State.checkout, mode, good, absent, Bool.true_eq_false, if_false]

theorem checkout_duplicate (mode : s.vault.mode ≠ .maintenance) (good : goodLabel l = true)
    (found : s.record? l = some (p, r)) (requested : r.state = .requested) :
    s.checkout h l = s.refuse h .checkout .duplicate := by
  simp only [State.checkout, mode, good, found, requested, Bool.true_eq_false, if_false, if_true]

theorem checkout_state (mode : s.vault.mode ≠ .maintenance) (good : goodLabel l = true)
    (found : s.record? l = some (p, r)) (fresh : r.state ≠ .requested) (away : r.state ≠ .inVault) :
    s.checkout h l = s.refuse h .checkout .state := by
  simp only [State.checkout, mode, good, found, fresh, Bool.true_eq_false, if_false]
  exact if_pos away

/-- A record in its shelf place passes or fails by INSPECT, its dose and the queue's length. -/
theorem checkout_of_inVault (mode : s.vault.mode ≠ .maintenance) (good : goodLabel l = true)
    (found : s.record? l = some (p, r)) (shelved : r.state = .inVault) :
    let v := s.putRecord p { r with inspect := true }
    s.checkout h l = if r.inspect then s.refuse h .checkout .state
      else if s.overDose r then v.answer h .checkout (v.awaits [.custody p]) .dose .none
      else if 24 ≤ s.staging.queue.length then s.refuse h .checkout .full
      else s.enqueue h p r := by
  simp only [State.checkout, mode, good, found, shelved, Bool.true_eq_false, reduceCtorEq, ne_eq, not_true_eq_false,
    if_false]

/-! ## The entry at the queue's tail (R103, R105) -/

/-- The entry at the tail and the record REQUESTED, handed to the store. -/
def State.joined (s : State) (l : Label) (p : Nat) (r : CustodyRecord) : State :=
  ({ s with staging := { s.staging with
      queue := s.staging.queue ++ [(⟨l, s.vault.clock⟩ : QueueEntry)] } }).putRecord p
    { r with state := .requested, lastMove := some s.vault.clock }

theorem joined_staging : (s.joined l p r).staging =
    { s.staging with queue := s.staging.queue ++ [(⟨l, s.vault.clock⟩ : QueueEntry)] } := putRecord_staging p _ _

theorem joined_length : (s.joined l p r).staging.queue.length = s.staging.queue.length + 1 := by
  rw [joined_staging, List.length_append, List.length_singleton]

theorem joined_holdSent : (s.joined l p r).staging.holdSent = s.staging.holdSent := by rw [joined_staging]

/-- Past its checks CHECKOUT answers with the queue's new length, tests for HOLD and attempts a dispatch. -/
theorem enqueue_eq (label : r.label = l) :
    let v := s.joined l p r
    let needs := v.awaits [.custody p]
    s.enqueue h p r = ((v.answer h .checkout needs .ok (.checkout (s.staging.queue.length + 1) s.vault.clock)).holdTest
      needs).dispatch needs := by
  intro v needs
  rw [← joined_length (l := l) (p := p) (r := r)]
  subst label
  rfl

end

/-- Settles O32: the checks in their order; of a record that passes them, the HOLD test on the lengthened queue. -/
theorem checkoutJoinsTheQueue : Obligations.CheckoutJoinsTheQueue := by
  intro h l s ha u c refused
  have checks : exec c s = .next (u.checkout h l) := exec_checkout l ha
  have vault : u.vault = s.vault := received_vault s h
  have staging : u.staging = s.staging := received_staging s h
  have dose : ∀ r, u.overDose r = s.overDose r := received_overDose s h
  rw [checks, ← vault, ← staging, ← received_record? s h]
  refine ⟨fun mode => congrArg _ (checkout_mode mode), fun mode bad => congrArg _ (checkout_invalid mode bad),
    fun mode good absent => congrArg _ (checkout_notFound mode good absent), fun p r mode good found => ?_⟩
  rw [← dose]
  refine ⟨fun requested => congrArg _ (checkout_duplicate mode good found requested),
    fun fresh away => congrArg _ (checkout_state mode good found fresh away), fun shelved inspect => ?_,
    fun shelved clear above => ?_, fun shelved clear within full => ?_, fun shelved clear within room => ?_⟩
  · rw [checkout_of_inVault mode good found shelved, if_pos inspect]
  · intro v
    rw [checkout_of_inVault mode good found shelved, clear, if_neg Bool.false_ne_true, if_pos above]
  · rw [checkout_of_inVault mode good found shelved, clear, within, if_neg Bool.false_ne_true,
      if_neg Bool.false_ne_true, if_pos full]
  · intro len v needs w
    have queue : w.staging.queue.length = len := by rw [answer_staging]; exact joined_length
    have held : w.staging.holdSent = u.staging.holdSent := by rw [answer_staging]; exact joined_holdSent
    rw [checkout_of_inVault mode good found shelved, clear, within, if_neg Bool.false_ne_true,
      if_neg Bool.false_ne_true, if_neg (Nat.not_le.2 room), enqueue_eq (record_label found)]
    refine ⟨fun reached unsent => ?_, fun stays => ?_⟩
    · rw [← holdTest_of_reached (queue.trans reached) (held.trans unsent)]
      rfl
    · rw [← queue, ← held] at stays
      rw [← holdTest_of_not (needs := needs) stays]
      rfl

end Sys2Proof.Machine
end

