-- ==== Sys2Proof/Proofs/ConsignmentTest.lean ====
section
/-! SUPPORT. Chapter 7, the table: the record of a number, the records that its labels are bound by, the token, and the
consignment test (R122, R127, R129, R130). -/

namespace Sys2Proof.Machine

section
variable {s : State} {n : Nat} {l : Label} {p : Nat} {r : CustodyRecord} {i : Fin 16} {x : Consignment}

/-! ## The record of a number (R122; log 58) -/

/-- The record of one place, when it carries the number. -/
def State.numberedAt (s : State) (n : Nat) (i : Fin 16) : Option (Fin 16 × Consignment) :=
  match s.consign.places[i] with
  | some c => if c.number = n then some (i, c) else none
  | none => none

theorem numberedAt_eq_some_iff {j : Fin 16} :
    s.numberedAt n j = some (i, x) ↔ j = i ∧ s.consign.places[i] = some x ∧ x.number = n := by
  unfold State.numberedAt
  cases place : s.consign.places[j] with
  | none =>
    refine iff_of_false (fun h => nomatch h) ?_
    rintro ⟨rfl, found, -⟩
    cases place.symm.trans found
  | some c =>
    simp only [Option.ite_none_right_eq_some, Option.some.injEq, Prod.mk.injEq]
    constructor
    · rintro ⟨number, rfl, rfl⟩
      exact ⟨rfl, place, number⟩
    · rintro ⟨rfl, found, number⟩
      cases place.symm.trans found
      exact ⟨number, rfl, rfl⟩

theorem numberedAt_eq_none_iff : s.numberedAt n i = none ↔ ∀ x, s.consign.places[i] = some x → x.number ≠ n := by
  rw [Option.eq_none_iff_forall_ne_some]
  constructor
  · intro no x found number
    exact no (i, x) (numberedAt_eq_some_iff.2 ⟨rfl, found, number⟩)
  · rintro no ⟨j, x⟩ here
    obtain ⟨rfl, found, number⟩ := numberedAt_eq_some_iff.1 here
    exact no x found number

theorem consignment?_eq : s.consignment? n = Fin.findSome? (s.numberedAt n) :=
  (Fin.findSome?_eq_findSome?_finRange _).symm

theorem consignment?_eq_some_iff : s.consignment? n = some (i, x) ↔ s.consign.places[i] = some x ∧ x.number = n ∧
    ∀ (j : Fin 16) y, j < i → s.consign.places[j] = some y → y.number ≠ n := by
  rw [consignment?_eq, Fin.findSome?_eq_some_iff]
  constructor
  · rintro ⟨j, here, before⟩
    obtain ⟨rfl, found, number⟩ := numberedAt_eq_some_iff.1 here
    exact ⟨found, number, fun k y below => numberedAt_eq_none_iff.1 (before k below) y⟩
  · rintro ⟨found, number, before⟩
    exact ⟨i, numberedAt_eq_some_iff.2 ⟨rfl, found, number⟩,
      fun j below => numberedAt_eq_none_iff.2 fun y => before j y below⟩

theorem consignment?_number (found : s.consignment? n = some (i, x)) : x.number = n :=
  (consignment?_eq_some_iff.1 found).2.1

theorem consignment?_eq_none_iff :
    s.consignment? n = none ↔ ∀ (i : Fin 16) x, s.consign.places[i] = some x → x.number ≠ n := by
  rw [consignment?_eq, Fin.findSome?_eq_none_iff]
  exact forall_congr' fun i => numberedAt_eq_none_iff

/-! ## The records of the listed labels (R129, R131, R134) -/

theorem boundState_eq_some_iff {st : CustodyState} : s.boundState n l = some st ↔
    ∃ p r, (s.record? l = some (p, r) ∧ r.consignment = some n) ∧ r.state = st := by
  unfold State.boundState
  split
  · rename_i p r found
    rw [found]
    constructor
    · intro bound
      split at bound
      · rename_i number
        cases bound
        exact ⟨p, r, ⟨rfl, number⟩, rfl⟩
      · cases bound
    · rintro ⟨_, _, ⟨⟨⟩, number⟩, rfl⟩
      exact if_pos number
  · rename_i absent
    rw [absent]
    exact iff_of_false (fun h => nomatch h) fun ⟨_, _, ⟨h, _⟩, _⟩ => nomatch h

theorem itemKind_eq_loaded_iff : s.itemKind n l = .loaded ↔ s.boundState n l = some .inHatchOut := by
  unfold State.itemKind
  split <;> simp_all

theorem itemKind_eq_notReady_iff : s.itemKind n l = .notReady ↔
    s.boundState n l ≠ some .inHatchOut ∧ s.boundState n l ≠ some .readyOut := by
  unfold State.itemKind
  split <;> simp_all

/-! ## The token (R127) -/

/-- A shift by the register's top bit. -/
theorem crcShift_eq (w : Word16) : crcShift w = if w.getLsbD 15 then (w <<< 1) ^^^ 0x1021#16 else w <<< 1 := by
  unfold crcShift
  rw [BitVec.msb_eq_getLsbD_last]

/-- A byte is taken in by eight shifts. -/
theorem crcByte_eq (w : Word16) (b : Byte) :
    crcByte w b = (List.range 8).foldl (fun w _ => crcShift w) (w ^^^ (b.setWidth 16 <<< 8)) := rfl

theorem crc16_concat (bs : List Byte) (b : Byte) : crc16 (bs ++ [b]) = crcByte (crc16 bs) b :=
  List.foldl_concat _ _ _ _

theorem tokenInput_eq (c : Consignment) : c.tokenInput =
    [BitVec.ofNat 8 (c.number / 256), BitVec.ofNat 8 c.number, BitVec.ofNat 8 (c.courier / 256), BitVec.ofNat 8 c.courier,
      BitVec.ofNat 8 c.expected, BitVec.ofNat 8 c.outbound.length] ++ c.outbound.flatten := by
  unfold Consignment.tokenInput
  rw [twoBytes_eq, twoBytes_eq]
  rfl

theorem tokenInput_length {c : Consignment} (good : ∀ l ∈ c.outbound, l.length = 8) :
    c.tokenInput.length = 6 + 8 * c.outbound.length := by
  have labels : c.outbound.flatten.length = 8 * c.outbound.length := by
    rw [List.length_flatten, List.map_congr_left good, List.map_const', List.sum_replicate, smul_eq_mul, mul_comm]
  rw [tokenInput_eq, List.length_append, labels]
  rfl

/-! ## The consignment test (R129, R130) -/

theorem consignTest_of_notReady
    (waits : ∃ l ∈ x.outbound, s.boundState x.number l ≠ some .inHatchOut ∧ s.boundState x.number l ≠ some .readyOut) :
    s.consignTest x = .sealed := by
  obtain ⟨l, listed, kind⟩ := waits
  refine if_pos (List.any_eq_true.2 ⟨_, List.mem_map_of_mem listed, ?_⟩)
  rw [itemKind_eq_notReady_iff.2 kind]
  rfl

/-- With no label NOT_READY the test turns on whether the list has labels that are all LOADED. -/
theorem consignTest_of_settled
    (settled : ∀ l ∈ x.outbound, s.boundState x.number l = some .inHatchOut ∨ s.boundState x.number l = some .readyOut) :
    s.consignTest x = if x.outbound ≠ [] ∧ ∀ l ∈ x.outbound, s.boundState x.number l = some .inHatchOut then .loaded
      else .ready := by
  have allKnown : ¬ ((x.outbound.map (s.itemKind x.number)).any (· == .notReady)) = true := by
    rw [List.any_map, List.any_eq_true]
    rintro ⟨l, listed, kind⟩
    obtain ⟨out, ready⟩ := itemKind_eq_notReady_iff.1 (beq_iff_eq.1 kind)
    exact (settled l listed).elim out ready
  unfold State.consignTest
  rw [if_neg allKnown]
  refine if_congr (and_congr List.isEmpty_eq_false_iff ?_) rfl rfl
  rw [List.all_map, List.all_eq_true]
  exact forall₂_congr fun l _ => beq_iff_eq.trans itemKind_eq_loaded_iff

section
variable {needs : List Nat} (place : s.consign.places[i] = some x)
include place

theorem testConsign_of_same (tested : x.state = .sealed ∨ x.state = .ready ∨ x.state = .loaded)
    (same : s.consignTest x = x.state) : s.testConsign needs i = (needs, s) := by
  simp only [State.testConsign, place, tested, same, if_true]

theorem testConsign_of_change (tested : x.state = .sealed ∨ x.state = .ready ∨ x.state = .loaded)
    (change : s.consignTest x ≠ x.state) :
    let v := s.putConsign i { x with state := s.consignTest x }
    let needs' := needs ++ v.awaits [.consignment i]
    s.testConsign needs i = (needs', v.notify needs' (.consignState x.number (s.consignTest x) x.result)) := by
  simp only [State.testConsign, place, tested, change, if_true, if_false]

/-- A record in LOCKED_OUT takes the result into its state before lockout alone. -/
theorem testConsign_of_lockedOut (locked : x.state = .lockedOut) :
    s.testConsign needs i = if x.beforeLockout = some (s.consignTest x) then (needs, s)
      else (needs, s.putConsign i { x with beforeLockout := some (s.consignTest x) }) := by
  simp only [State.testConsign, place, locked, reduceCtorEq, or_self, if_true, if_false]

theorem testConsign_of_other (other : ¬ (x.state = .sealed ∨ x.state = .ready ∨ x.state = .loaded))
    (unlocked : x.state ≠ .lockedOut) : s.testConsign needs i = (needs, s) := by
  simp only [State.testConsign, place, other, unlocked, if_false]

end
end

/-- Settles O38: the check value, the input's bytes, and one byte at the end taken in by eight shifts. -/
theorem tokenIsTheCrcOfTheContent : Obligations.TokenIsTheCrcOfTheContent := by
  refine ⟨by decide +kernel, fun c => ⟨rfl, tokenInput_eq c, tokenInput_length⟩, fun bs b => ⟨rfl, ?_⟩⟩
  rw [crc16_concat, crcByte_eq]
  simp only [crcShift_eq]

/-- Settles O39: the test by the kinds of the labels, and its effect by the record's state. -/
theorem consignmentTestGivesTheState : Obligations.ConsignmentTestGivesTheState := by
  constructor
  · intro x s has
    have bound : ∀ l st, has l st ↔ s.boundState x.number l = some st := fun l st => by
      rw [boundState_eq_some_iff]
      simp only [has, and_assoc]
    simp only [bound]
    refine ⟨fun waits => consignTest_of_notReady waits, fun labels loaded => ?_, fun settled ready => ?_⟩
    · rw [consignTest_of_settled fun l listed => .inl (loaded l listed), if_pos ⟨labels, loaded⟩]
    · rw [consignTest_of_settled settled]
      refine if_neg fun ⟨labels, loaded⟩ => ?_
      obtain ⟨l, listed, kind⟩ := ready.resolve_left labels
      cases (loaded l listed).symm.trans kind
  · intro needs i x s place tested st
    refine ⟨fun counted same => testConsign_of_same place counted same, fun counted change =>
      testConsign_of_change place counted change, fun locked change => ?_, fun locked same => ?_,
      fun other unlocked => testConsign_of_other place other unlocked⟩
    · rw [testConsign_of_lockedOut place locked, if_neg change]
    · rw [testConsign_of_lockedOut place locked, if_pos same]

end Sys2Proof.Machine
end

