-- ==== Sys2Proof/Proofs/ConsignOpening.lean ====
section
/-! SUPPORT. CONSIGN_OPEN: the number issued, the place taken, and the record made (R122 to R124). -/

namespace Sys2Proof.Machine

/-! ## The numbers from a candidate on (R123) -/

/-- The number `k` places behind a number in range, on the circle of 1 to 65535. -/
theorem nextNumber_iterate {n : Nat} (low : 1 ≤ n) (high : n ≤ 65535) (k : Nat) :
    nextNumber^[k] n = (n - 1 + k) % 65535 + 1 := by
  induction k with
  | zero => rw [Function.iterate_zero_apply, Nat.add_zero, Nat.mod_eq_of_lt (by omega)]; omega
  | succ k ih =>
    rw [Function.iterate_succ_apply', ih]
    unfold nextNumber
    split <;> omega

theorem nextNumber_low (n : Nat) : 1 ≤ nextNumber n := by
  unfold nextNumber
  split <;> omega

theorem nextNumber_high (n : Nat) : nextNumber n ≤ 65535 := by
  unfold nextNumber
  split <;> omega

/-- Fewer than 65536 numbers in a row are all different. -/
theorem nextNumber_nodup {n k : Nat} (low : 1 ≤ n) (high : n ≤ 65535) (few : k ≤ 65535) :
    ((List.range k).map fun j => nextNumber^[j] n).Nodup := by
  refine List.Nodup.map_on (fun i hi j hj same => ?_) List.nodup_range
  rw [List.mem_range] at hi hj
  simp only [nextNumber_iterate low high] at same
  omega

/-! ## The numbers in use (R123) -/

section
variable {s : State} {n : Nat}

theorem numberInUse_iff : s.numberInUse n = true ↔
    (∃ (i : Fin 16) (x : Consignment), s.consign.places[i] = some x ∧ x.number = n) ∨
      ∃ x ∈ s.custody, x.2.consignment = some n := by
  simp only [State.numberInUse, Bool.or_eq_true, List.any_eq_true, beq_iff_eq, Option.map_eq_some_iff]
  refine or_congr_left ?_
  rw [vector_toList_eq]
  simp only [List.mem_map, List.mem_finRange, true_and]
  constructor
  · rintro ⟨_, ⟨i, rfl⟩, x, found, number⟩
    exact ⟨i, x, found, number⟩
  · rintro ⟨i, x, found, number⟩
    exact ⟨_, ⟨i, rfl⟩, x, found, number⟩

/-- The numbers that the places and the custody records carry. -/
def State.numbersInUse (s : State) : List Nat :=
  (s.consign.places.toList.filterMap fun c => c.map (·.number)) ++ s.custody.filterMap fun x => x.2.consignment

theorem mem_numbersInUse : n ∈ s.numbersInUse ↔ s.numberInUse n = true := by
  simp only [State.numbersInUse, State.numberInUse, List.mem_append, List.mem_filterMap, Bool.or_eq_true,
    List.any_eq_true, beq_iff_eq]

theorem numbersInUse_length : s.numbersInUse.length ≤ 16 + s.custody.length := by
  unfold State.numbersInUse
  rw [List.length_append]
  have places := List.length_filterMap_le (fun c : Option Consignment => c.map (·.number)) s.consign.places.toList
  rw [Vector.length_toList] at places
  exact Nat.add_le_add places (List.length_filterMap_le _ _)

/-- Of more numbers in a row than there can be in use, one is not in use. -/
theorem exists_unused {k : Nat} (low : 1 ≤ n) (high : n ≤ 65535) (few : k ≤ 65535) (many : 16 + s.custody.length < k) :
    ∃ j < k, s.numberInUse (nextNumber^[j] n) = false := by
  by_contra all
  have used : ((List.range k).map fun j => nextNumber^[j] n) ⊆ s.numbersInUse := by
    intro m mem
    obtain ⟨j, below, rfl⟩ := List.mem_map.1 mem
    refine mem_numbersInUse.2 (Bool.eq_true_of_not_eq_false fun unused => all ⟨j, List.mem_range.1 below, unused⟩)
  have count := ((nextNumber_nodup low high few).subperm used).length_le
  rw [List.length_map, List.length_range] at count
  exact absurd (count.trans numbersInUse_length) (Nat.not_le.2 many)

/-! ## The number issued (R123) -/

/-- The search passes over the numbers in use and stops at the first that is not. -/
theorem searchNumber_eq {k : Nat} (unused : ∃ j < k, s.numberInUse (nextNumber^[j] n) = false) :
    ∃ j, s.searchNumber k n = nextNumber^[j] n ∧ s.numberInUse (nextNumber^[j] n) = false ∧
      ∀ i < j, s.numberInUse (nextNumber^[i] n) = true := by
  induction k generalizing n with
  | zero => exact absurd unused (by simp)
  | succ k ih =>
    cases used : s.numberInUse n with
    | false => exact ⟨0, by simp [State.searchNumber, used], used, fun i below => absurd below (Nat.not_lt_zero i)⟩
    | true =>
      obtain ⟨j, below, free⟩ := unused
      cases j with
      | zero => exact absurd (used.symm.trans free) (by decide)
      | succ j =>
        obtain ⟨m, issued, unused, before⟩ := ih ⟨j, Nat.lt_of_succ_lt_succ below, free⟩
        refine ⟨m + 1, by simpa [State.searchNumber, used] using issued, unused, fun i below => ?_⟩
        cases i with
        | zero => exact used
        | succ i => exact before i (Nat.lt_of_succ_lt_succ below)

theorem issueNumber_eq (records : s.custody.length ≤ 2048) :
    ∃ k, s.issueNumber = nextNumber^[k + 1] s.consign.counter ∧ s.numberInUse s.issueNumber = false ∧
      ∀ j < k, s.numberInUse (nextNumber^[j + 1] s.consign.counter) = true := by
  have unused := exists_unused (s := s) (k := 17 + s.custody.length) (nextNumber_low s.consign.counter)
    (nextNumber_high _) (by omega) (by omega)
  obtain ⟨k, issued, free, before⟩ := searchNumber_eq unused
  refine ⟨k, issued, ?_, before⟩
  unfold State.issueNumber
  rw [issued]
  exact free

end

/-! ## The place that an opening takes (R124) -/

/-- Of two places, the first has the older closed time, or an equal one and the lower number. -/
def opensBefore (a b : Fin 16 × Consignment) : Prop :=
  (a.2.closed.getD 0).toNat < (b.2.closed.getD 0).toNat ∨
    (a.2.closed.getD 0).toNat = (b.2.closed.getD 0).toNat ∧ a.1 ≤ b.1

/-- Over places in rising order the fold ends with the one that opens before all others. -/
theorem foldl_olderClosed {a b : Fin 16 × Consignment} {cs : List (Fin 16 × Consignment)}
    (rising : (a :: cs).Pairwise fun c d => c.1 < d.1) (mem : b ∈ a :: cs) (first : ∀ c ∈ a :: cs, opensBefore b c) :
    cs.foldl olderClosed a = b := by
  induction cs generalizing a with
  | nil => exact (List.mem_singleton.1 mem).symm
  | cons c cs ih =>
    obtain ⟨above, rising'⟩ := List.pairwise_cons.1 rising
    obtain ⟨above', rest⟩ := List.pairwise_cons.1 rising'
    have beforeA : opensBefore b a := first a List.mem_cons_self
    have beforeC : opensBefore b c := first c (List.mem_cons_of_mem _ List.mem_cons_self)
    have lower : a.1 < c.1 := above c List.mem_cons_self
    rw [List.foldl_cons]
    unfold olderClosed
    split
    · rename_i newer
      have other : b ≠ a := by
        rintro rfl
        rcases beforeC with older | ⟨same, -⟩ <;> omega
      refine ih rising' ((List.mem_cons.1 mem).resolve_left other) fun d hd => first d (List.mem_cons_of_mem _ hd)
    · rename_i older
      have other : b ≠ c := by
        rintro rfl
        rcases beforeA with newer | ⟨-, le⟩
        · exact older newer
        · exact absurd lower (not_lt.2 le)
      have stays : ∀ d ∈ a :: cs, d ∈ a :: c :: cs := fun d hd =>
        List.mem_cons.2 ((List.mem_cons.1 hd).imp_right (List.mem_cons_of_mem _))
      have keeps : b ∈ a :: cs := by
        rcases List.mem_cons.1 mem with here | later
        · exact here ▸ List.mem_cons_self
        · exact List.mem_cons_of_mem _ ((List.mem_cons.1 later).resolve_left other)
      exact ih (List.pairwise_cons.2 ⟨fun d hd => above d (List.mem_cons_of_mem _ hd), rest⟩) keeps
        fun d hd => first d (stays d hd)

section
variable {s : State} {i : Fin 16} {x : Consignment}

/-- The places whose records may be reused, in number order. -/
def State.reusablePlaces (s : State) : List (Fin 16 × Consignment) :=
  placeNumbers.filterMap fun i => (s.consign.places[i]).bind fun c => if c.reusable then some (i, c) else none

theorem reusable_iff (c : Consignment) : c.reusable = true ↔ c.state = .closed ∨ c.state = .cancelled := by
  simp only [Consignment.reusable, Bool.or_eq_true, beq_iff_eq]

theorem mem_reusablePlaces : (i, x) ∈ s.reusablePlaces ↔ s.consign.places[i] = some x ∧ x.reusable = true := by
  simp only [State.reusablePlaces, placeNumbers, List.mem_filterMap, List.mem_finRange, true_and,
    Option.bind_eq_some_iff, Option.ite_none_right_eq_some, Option.some.injEq, Prod.mk.injEq]
  constructor
  · rintro ⟨j, c, found, reusable, rfl, rfl⟩
    exact ⟨found, reusable⟩
  · rintro ⟨found, reusable⟩
    exact ⟨i, x, found, reusable, rfl, rfl⟩

theorem reusablePlaces_rising (s : State) : s.reusablePlaces.Pairwise fun c d => c.1 < d.1 := by
  refine List.Pairwise.filterMap _ (fun i j below c hc d hd => ?_) (List.pairwise_lt_finRange 16)
  simp only [Option.bind_eq_some_iff, Option.ite_none_right_eq_some, Option.some.injEq] at hc hd
  obtain ⟨_, -, -, rfl⟩ := hc
  obtain ⟨_, -, -, rfl⟩ := hd
  exact below

theorem openPlace_of_free (free : s.consign.places[i] = none) (lowest : ∀ j < i, s.consign.places[j] ≠ none) :
    s.openPlace = some i := by
  have found : placeNumbers.find? (fun i => (s.consign.places[i]).isNone) = some i := by
    unfold placeNumbers
    rw [← Fin.find?_eq_find?_finRange, Fin.find?_eq_some_iff]
    exact ⟨Option.isNone_iff_eq_none.2 free, fun j below => Option.isNone_eq_false_iff.2
      (Option.isSome_iff_ne_none.2 (lowest j below))⟩
  unfold State.openPlace
  rw [found]

/-- With no place free an opening takes a reusable one, if there is any. -/
theorem openPlace_of_taken (taken : ∀ j : Fin 16, s.consign.places[j] ≠ none) :
    s.openPlace = match s.reusablePlaces with
      | [] => none
      | c :: cs => some (cs.foldl olderClosed c).1 := by
  have allTaken : placeNumbers.find? (fun i => (s.consign.places[i]).isNone) = none :=
    List.find?_eq_none.2 fun j _ => by simpa using taken j
  unfold State.openPlace
  rw [allTaken]
  rfl

theorem openPlace_of_reusable (taken : ∀ j : Fin 16, s.consign.places[j] ≠ none) (found : s.consign.places[i] = some x)
    (reusable : x.reusable = true)
    (first : ∀ (j : Fin 16) y, s.consign.places[j] = some y → y.reusable = true → opensBefore (i, x) (j, y)) :
    s.openPlace = some i := by
  have mem : (i, x) ∈ s.reusablePlaces := mem_reusablePlaces.2 ⟨found, reusable⟩
  have rising := reusablePlaces_rising s
  have before : ∀ c ∈ s.reusablePlaces, opensBefore (i, x) c := fun c hc =>
    first c.1 c.2 (mem_reusablePlaces.1 hc).1 (mem_reusablePlaces.1 hc).2
  rw [openPlace_of_taken taken]
  cases places : s.reusablePlaces with
  | nil => rw [places] at mem; cases mem
  | cons c cs =>
    rw [places] at mem rising before
    simp only [foldl_olderClosed rising mem before]

theorem openPlace_eq_none (full : ∀ j : Fin 16, ∃ y, s.consign.places[j] = some y ∧ ¬ y.reusable = true) :
    s.openPlace = none := by
  have taken : ∀ j : Fin 16, s.consign.places[j] ≠ none := fun j free => by
    obtain ⟨y, found, -⟩ := full j
    cases free.symm.trans found
  have nothing : s.reusablePlaces = [] := List.eq_nil_iff_forall_not_mem.2 fun ⟨j, x⟩ mem => by
    obtain ⟨found, reusable⟩ := mem_reusablePlaces.1 mem
    obtain ⟨y, same, kept⟩ := full j
    cases found.symm.trans same
    exact kept reusable
  rw [openPlace_of_taken taken, nothing]

/-! ## CONSIGN_OPEN (R124) -/

variable {h : ReqHead} {courier expected : Nat}

theorem exec_consignOpen (courier expected : Nat) (ha : s.accepts h .consignOpen) :
    exec (.consignOpen h courier expected) s = .next ((s.received h).consignOpen h courier expected) :=
  congrArg Host.Outcome.next (request_accepted _ ha)

theorem idInRange_iff (n : Nat) : idInRange n = true ↔ 1 ≤ n ∧ n ≤ 65535 := by
  simp only [idInRange, Bool.and_eq_true, decide_eq_true_eq]

theorem consignOpen_mode (mode : s.vault.mode = .maintenance) :
    s.consignOpen h courier expected = s.refuse h .consignOpen .mode := if_pos mode

theorem consignOpen_invalid (mode : s.vault.mode ≠ .maintenance) (bad : ¬ (1 ≤ courier ∧ courier ≤ 65535 ∧ expected ≤ 8)) :
    s.consignOpen h courier expected = s.refuse h .consignOpen .invalid := by
  have refused : idInRange courier = false ∨ 8 < expected := by
    rw [← Bool.not_eq_true, idInRange_iff]
    omega
  exact (if_neg mode).trans (if_pos refused)

/-- In range an opening turns on the place it takes. -/
theorem consignOpen_of_range (mode : s.vault.mode ≠ .maintenance)
    (range : 1 ≤ courier ∧ courier ≤ 65535 ∧ expected ≤ 8) :
    s.consignOpen h courier expected = match s.openPlace with
      | none => s.refuse h .consignOpen .full
      | some i =>
        let c := Consignment.opened s.issueNumber courier expected s.vault.clock
        let v := s.putConsign i c
        (({ v with consign := { v.consign with counter := s.issueNumber } }).persist .counter).answerConsign h .consignOpen
          [.consignment i, .counter] (.consignNumber s.issueNumber) c := by
  have taken : ¬ (idInRange courier = false ∨ 8 < expected) := by
    rw [← Bool.not_eq_true, idInRange_iff]
    omega
  refine (if_neg mode).trans ((if_neg taken).trans ?_)
  rfl

@[simp] theorem received_openPlace : (s.received h).openPlace = s.openPlace := by
  unfold State.openPlace
  rw [received_consign]

end

/-- Settles O36: the checks and the place taken, by the lists of free and of reusable places; and the number issued, by
the search over numbers that are all different. -/
theorem consignOpenMakesARecord : Obligations.ConsignOpenMakesARecord := by
  constructor
  · intro h courier expected s ha u c inRange reusable closedAt n opens
    have asks : exec c s = .next (u.consignOpen h courier expected) := exec_consignOpen courier expected ha
    have vault : u.vault = s.vault := received_vault s h
    have opensAt : ∀ i, s.vault.mode ≠ .maintenance → inRange → s.openPlace = some i → opens i := by
      intro i mode range place
      have place' : u.openPlace = some i := received_openPlace.trans place
      refine asks.trans ?_
      rw [consignOpen_of_range (by rw [vault]; exact mode) range, place', vault]
      rfl
    have mayReuse : ∀ y, reusable y ↔ y.reusable = true := fun y => (reusable_iff y).symm
    refine ⟨fun mode => ?_, fun mode bad => ?_, fun mode range => ⟨fun i free lowest => ?_, ?_, fun full => ?_⟩⟩
    · rw [asks, consignOpen_mode (by rw [vault]; exact mode)]
    · rw [asks, consignOpen_invalid (by rw [vault]; exact mode) bad]
    · exact opensAt i mode range (openPlace_of_free free lowest)
    · intro i x taken found reuse first
      exact opensAt i mode range (openPlace_of_reusable taken found ((mayReuse x).1 reuse)
        fun j y there reuse' => first j y there ((mayReuse y).2 reuse'))
    · have place : u.openPlace = none := received_openPlace.trans
        (openPlace_eq_none fun j => (full j).imp fun y hy => hy.imp_right fun kept reuse => kept ((mayReuse y).2 reuse))
      rw [asks, consignOpen_of_range (by rw [vault]; exact mode) range, place]
  · intro after inUse s counter records
    have same : ∀ k, after^[k] s.consign.counter = nextNumber^[k] s.consign.counter ∧
        nextNumber^[k] s.consign.counter ≤ 65535 := fun k => by
      induction k with
      | zero => exact ⟨rfl, counter⟩
      | succ k ih =>
        rw [Function.iterate_succ_apply', Function.iterate_succ_apply', ih.1]
        refine ⟨if_congr ⟨Eq.ge, ih.2.antisymm⟩ rfl rfl, nextNumber_high _⟩
    obtain ⟨k, issued, free, before⟩ := issueNumber_eq records
    refine ⟨k, issued.trans (same _).1.symm, fun used => ?_, ?_, ?_, fun j below => ?_⟩
    · exact Bool.false_ne_true (free.symm.trans (numberInUse_iff.2 used))
    · rw [issued, Function.iterate_succ_apply']
      exact nextNumber_low _
    · exact issued ▸ (same _).2
    · rw [(same _).1]
      exact numberInUse_iff.1 (before j below)

end Sys2Proof.Machine
end

