-- ==== Sys2Proof/Proofs/ConsignBinding.lean ====
section
/-! SUPPORT. CONSIGN_ADD and CONSIGN_REMOVE: the checks, the outbound list and the record's binding (R125, R126). -/

namespace Sys2Proof.Machine

section
variable {h : ReqHead} {n : Nat} {l : Label} {s : State} {p : Nat} {r : CustodyRecord} {i : Fin 16} {x : Consignment}

@[simp] theorem putConsign_record? (i : Fin 16) (x : Consignment) (s : State) :
    (s.putConsign i x).record? l = s.record? l := congrArg (findLabel l) (putConsign_custody i x s)

/-- A request that names a consignment and a label takes both in range, or answers INVALID. -/
theorem namesInRange_iff :
    ¬ (idInRange n = false ∨ goodLabel l = false) ↔ 1 ≤ n ∧ n ≤ 65535 ∧ goodLabel l = true := by
  rw [not_or, Bool.not_eq_false, Bool.not_eq_false, idInRange_iff, and_assoc]

/-! ## CONSIGN_ADD (R125) -/

theorem exec_consignAdd (n : Nat) (l : Label) (ha : s.accepts h .consignAdd) :
    exec (.consignAdd h n l) s = .next ((s.received h).consignAdd h n l) :=
  congrArg Host.Outcome.next (request_accepted _ ha)

theorem consignAdd_mode (mode : s.vault.mode = .maintenance) : s.consignAdd h n l = s.refuse h .consignAdd .mode :=
  if_pos mode

theorem consignAdd_invalid (mode : s.vault.mode ≠ .maintenance) (bad : ¬ (1 ≤ n ∧ n ≤ 65535 ∧ goodLabel l = true)) :
    s.consignAdd h n l = s.refuse h .consignAdd .invalid :=
  (if_neg mode).trans (if_pos (not_not.1 fun range => bad (namesInRange_iff.1 range)))

section
variable (mode : s.vault.mode ≠ .maintenance) (range : 1 ≤ n ∧ n ≤ 65535 ∧ goodLabel l = true)
include mode range

theorem consignAdd_noConsignment (absent : s.consignment? n = none) :
    s.consignAdd h n l = s.refuse h .consignAdd .notFound := by
  simp only [State.consignAdd, mode, namesInRange_iff.2 range, absent, if_false]

variable (consigned : s.consignment? n = some (i, x))
include consigned

theorem consignAdd_closed (other : x.state ≠ .opened) : s.consignAdd h n l = s.refuse h .consignAdd .state := by
  simp only [State.consignAdd, mode, namesInRange_iff.2 range, consigned, if_false]
  exact if_pos other

variable (opened : x.state = .opened)
include opened

theorem consignAdd_noRecord (absent : s.record? l = none) :
    s.consignAdd h n l = s.refuse h .consignAdd .notFound := by
  simp only [State.consignAdd, mode, namesInRange_iff.2 range, consigned, opened, absent, ne_eq, not_true_eq_false,
    if_false]

/-- Of an OPEN consignment and a known label CONSIGN_ADD turns on the label's record, then on the list's length. -/
theorem consignAdd_of_record (found : s.record? l = some (p, r)) :
    let v := (s.putConsign i { x with outbound := x.outbound ++ [l] }).putRecord p { r with consignment := some n }
    s.consignAdd h n l =
      if ¬ (r.state = .stagedOut ∨ r.state = .readyOut) then s.refuse h .consignAdd .state
      else if r.consignment.isSome then s.refuse h .consignAdd .bound
      else if 8 ≤ x.outbound.length then s.refuse h .consignAdd .full
      else v.answer h .consignAdd (v.awaits [.consignment i, .custody p]) .ok
        (.outboundCount (x.outbound.length + 1)) := by
  simp only [State.consignAdd, mode, namesInRange_iff.2 range, consigned, opened, found, ne_eq, not_true_eq_false,
    if_false, not_or, List.length_append, List.length_singleton]
  rfl

end

/-! ## CONSIGN_REMOVE (R126) -/

theorem exec_consignRemove (n : Nat) (l : Label) (ha : s.accepts h .consignRemove) :
    exec (.consignRemove h n l) s = .next ((s.received h).consignRemove h n l) :=
  congrArg Host.Outcome.next (request_accepted _ ha)

theorem consignRemove_mode (mode : s.vault.mode = .maintenance) :
    s.consignRemove h n l = s.refuse h .consignRemove .mode := if_pos mode

theorem consignRemove_invalid (mode : s.vault.mode ≠ .maintenance) (bad : ¬ (1 ≤ n ∧ n ≤ 65535 ∧ goodLabel l = true)) :
    s.consignRemove h n l = s.refuse h .consignRemove .invalid :=
  (if_neg mode).trans (if_pos (not_not.1 fun range => bad (namesInRange_iff.1 range)))

section
variable (mode : s.vault.mode ≠ .maintenance) (range : 1 ≤ n ∧ n ≤ 65535 ∧ goodLabel l = true)
include mode range

theorem consignRemove_noConsignment (absent : s.consignment? n = none) :
    s.consignRemove h n l = s.refuse h .consignRemove .notFound := by
  simp only [State.consignRemove, mode, namesInRange_iff.2 range, absent, if_false]

variable (consigned : s.consignment? n = some (i, x))
include consigned

theorem consignRemove_closed (other : x.state ≠ .opened) :
    s.consignRemove h n l = s.refuse h .consignRemove .state := by
  simp only [State.consignRemove, mode, namesInRange_iff.2 range, consigned, if_false]
  exact if_pos other

variable (opened : x.state = .opened)
include opened

theorem consignRemove_unlisted (unlisted : l ∉ x.outbound) :
    s.consignRemove h n l = s.refuse h .consignRemove .notFound := by
  have without : x.outbound.contains l = false := by simpa using unlisted
  simp only [State.consignRemove, mode, namesInRange_iff.2 range, consigned, opened, without, ne_eq, not_true_eq_false,
    if_false, if_true]

variable (listed : l ∈ x.outbound)
include listed

theorem consignRemove_of_bound (found : s.record? l = some (p, r)) (bound : r.consignment = some n) :
    let v := (s.putConsign i { x with outbound := x.outbound.erase l }).putRecord p { r with consignment := none }
    s.consignRemove h n l = v.answer h .consignRemove (v.awaits [.consignment i, .custody p]) .ok
      (.outboundCount (x.outbound.length - 1)) := by
  have within : x.outbound.contains l = true := by simpa using listed
  simp only [State.consignRemove, mode, namesInRange_iff.2 range, consigned, opened, within, putConsign_record?, found,
    bound, ne_eq, not_true_eq_false, Bool.true_eq_false, if_false, if_true, List.length_erase_of_mem listed]
  rfl

/-- A label that no record binds to the number leaves the list alone. -/
theorem consignRemove_of_unbound
    (unbound : s.record? l = none ∨ ∃ p r, s.record? l = some (p, r) ∧ r.consignment ≠ some n) :
    let v := s.putConsign i { x with outbound := x.outbound.erase l }
    s.consignRemove h n l = v.answer h .consignRemove (v.awaits [.consignment i]) .ok
      (.outboundCount (x.outbound.length - 1)) := by
  have within : x.outbound.contains l = true := by simpa using listed
  simp only [State.consignRemove, mode, namesInRange_iff.2 range, consigned, opened, within, putConsign_record?, ne_eq,
    not_true_eq_false, Bool.true_eq_false, if_false, List.length_erase_of_mem listed]
  rcases unbound with absent | ⟨p, r, found, other⟩
  · simp only [absent]
  · simp only [found, other, if_false]

end
end

/-- Settles O37: each request by its checks in order, then by the list and the label's record. -/
theorem consignAddAndRemoveBindLabels : Obligations.ConsignAddAndRemoveBindLabels := by
  constructor
  · intro h n l s ha u c refused inRange
    have adds : exec c s = .next (u.consignAdd h n l) := exec_consignAdd n l ha
    have modes : u.vault.mode = s.vault.mode := congrArg _ (received_vault s h)
    rw [adds, ← modes, ← received_consignment? s h, ← received_record? s h]
    refine ⟨fun mode => congrArg _ (consignAdd_mode mode), fun mode bad => congrArg _ (consignAdd_invalid mode bad),
      fun mode range absent => congrArg _ (consignAdd_noConsignment mode range absent), fun i x mode range consigned =>
      ⟨fun other => congrArg _ (consignAdd_closed mode range consigned other), fun opened absent =>
        congrArg _ (consignAdd_noRecord mode range consigned opened absent), fun p r opened found => ?_⟩⟩
    rw [consignAdd_of_record mode range consigned opened found]
    refine ⟨fun other => congrArg _ (if_pos other), fun out bound => ?_, fun out free full => ?_, fun out free room => ?_⟩
    · rw [if_neg (not_not.2 out), if_pos bound]
    · rw [if_neg (not_not.2 out), if_neg (Option.not_isSome_iff_eq_none.2 free), if_pos full]
    · intro v
      rw [if_neg (not_not.2 out), if_neg (Option.not_isSome_iff_eq_none.2 free), if_neg (Nat.not_le.2 room)]
  · intro h n l s ha u c refused inRange
    have removes : exec c s = .next (u.consignRemove h n l) := exec_consignRemove n l ha
    have modes : u.vault.mode = s.vault.mode := congrArg _ (received_vault s h)
    rw [removes, ← modes, ← received_consignment? s h, ← received_record? s h]
    exact ⟨fun mode => congrArg _ (consignRemove_mode mode), fun mode bad => congrArg _ (consignRemove_invalid mode bad),
      fun mode range absent => congrArg _ (consignRemove_noConsignment mode range absent), fun i x mode range consigned =>
      ⟨fun other => congrArg _ (consignRemove_closed mode range consigned other), fun opened unlisted =>
        congrArg _ (consignRemove_unlisted mode range consigned opened unlisted), fun p r opened listed found bound =>
        congrArg _ (consignRemove_of_bound mode range consigned opened listed found bound), fun opened listed unbound =>
        congrArg _ (consignRemove_of_unbound mode range consigned opened listed unbound)⟩⟩

end Sys2Proof.Machine
end

