-- ==== Sys2Proof/Proofs/ConsignStates.lean ====
section
/-! SUPPORT. CONSIGN_SEAL, CONSIGN_UNLOCK, CONSIGN_CANCEL and CONSIGN_QUERY: the checks, the state that each leaves and
the labels that it unbinds (R128 to R131, R133, R134). -/

namespace Sys2Proof.Machine

section
variable {h : ReqHead} {n : Nat} {l : Label} {s : State} {p : Nat} {r : CustodyRecord} {i : Fin 16} {x : Consignment}

theorem idInRange_of_out (out : n = 0 ∨ 65535 < n) : idInRange n = false := by
  rw [← Bool.not_eq_true, idInRange_iff]
  omega

@[simp] theorem received_boundState : (s.received h).boundState n l = s.boundState n l := by
  unfold State.boundState
  rw [received_record?]

/-! ## The labels that carry a number (R131) -/

theorem unbind_of_bound (found : s.record? l = some (p, r)) (bound : r.consignment = some n) :
    s.unbind n l = s.putRecord p { r with consignment := none } := by
  simp only [State.unbind, found, bound, if_true]
  rfl

theorem unbind_of_other (found : s.record? l = some (p, r)) (other : r.consignment ≠ some n) : s.unbind n l = s := by
  simp only [State.unbind, found, other, if_false]

theorem unbind_of_none (absent : s.record? l = none) : s.unbind n l = s := by simp only [State.unbind, absent]

theorem mem_boundRecords {ls : List Label} {q : StoreRecord} : q ∈ s.boundRecords n ls ↔
    ∃ l ∈ ls, ∃ p r, (s.record? l = some (p, r) ∧ r.consignment = some n) ∧ q = .custody p := by
  unfold State.boundRecords
  rw [List.mem_filterMap]
  refine exists_congr fun l => and_congr_right fun _ => ?_
  split
  · rename_i p r found
    simp only [found, Option.ite_none_right_eq_some, Option.some.injEq]
    constructor
    · rintro ⟨bound, rfl⟩
      exact ⟨p, r, ⟨rfl, bound⟩, rfl⟩
    · rintro ⟨_, _, ⟨⟨⟩, bound⟩, rfl⟩
      exact ⟨bound, rfl⟩
  · rename_i absent
    rw [absent]
    exact iff_of_false (fun h => nomatch h) fun ⟨_, _, ⟨h, _⟩, _⟩ => nomatch h

/-! ## CONSIGN_SEAL (R128) -/

theorem exec_consignSeal (n : Nat) (ha : s.accepts h .consignSeal) :
    exec (.consignSeal h n) s = .next ((s.received h).consignSeal h n) := congrArg Host.Outcome.next (request_accepted _ ha)

theorem consignSeal_mode (mode : s.vault.mode = .maintenance) : s.consignSeal h n = s.refuse h .consignSeal .mode :=
  if_pos mode

theorem sealable_iff :
    s.sealable n l = true ↔ s.boundState n l = some .stagedOut ∨ s.boundState n l = some .readyOut := by
  unfold State.sealable
  cases s.boundState n l with
  | none => simp
  | some st => simp only [Bool.or_eq_true, beq_iff_eq, Option.some.injEq]

section
variable (mode : s.vault.mode ≠ .maintenance)
include mode

theorem consignSeal_invalid (bad : idInRange n = false) : s.consignSeal h n = s.refuse h .consignSeal .invalid :=
  (if_neg mode).trans (if_pos bad)

variable (range : idInRange n = true)
include range

theorem consignSeal_notFound (absent : s.consignment? n = none) :
    s.consignSeal h n = s.refuse h .consignSeal .notFound := by
  simp only [State.consignSeal, mode, range, absent, Bool.true_eq_false, if_false]

variable (consigned : s.consignment? n = some (i, x))
include consigned

theorem consignSeal_closed (other : x.state ≠ .opened) : s.consignSeal h n = s.refuse h .consignSeal .state := by
  simp only [State.consignSeal, mode, range, consigned, Bool.true_eq_false, if_false]
  exact if_pos other

variable (opened : x.state = .opened)
include opened

theorem consignSeal_of_empty (labels : x.outbound = []) (expected : x.expected = 0) :
    s.consignSeal h n = s.refuse h .consignSeal .invalid := by
  simp only [State.consignSeal, mode, range, consigned, opened, labels, expected, Bool.true_eq_false, ne_eq,
    not_true_eq_false, List.length_nil, Nat.add_zero, if_false, if_true]

/-- With something in it an OPEN consignment is sealed, or refused for a label that is not staged. -/
theorem consignSeal_of_content (content : ¬ (x.outbound = [] ∧ x.expected = 0)) :
    let st : ConsignState :=
      if x.outbound.all (fun l => s.boundState n l == some .readyOut) then .ready else .sealed
    let y := { x with state := st, token := some x.tokenOf }
    s.consignSeal h n = if x.outbound.all (s.sealable n) = false then s.refuse h .consignSeal .state
      else (s.putConsign i y).answerConsign h .consignSeal [.consignment i] (.sealed x.tokenOf st) y := by
  have nonzero : ¬ x.outbound.length + x.expected = 0 := fun sum =>
    content ⟨List.eq_nil_of_length_eq_zero (Nat.eq_zero_of_add_eq_zero_right sum), Nat.eq_zero_of_add_eq_zero_left sum⟩
  simp only [State.consignSeal, mode, range, consigned, opened, nonzero, Bool.true_eq_false, ne_eq, not_true_eq_false,
    if_false]

theorem consignSeal_unstaged
    (unstaged : ∃ l ∈ x.outbound, s.boundState n l ≠ some .stagedOut ∧ s.boundState n l ≠ some .readyOut) :
    s.consignSeal h n = s.refuse h .consignSeal .state := by
  obtain ⟨l, listed, staged, ready⟩ := unstaged
  rw [consignSeal_of_content mode range consigned opened fun empty => by rw [empty.1] at listed; cases listed]
  refine if_pos (List.all_eq_false.2 ⟨l, listed, fun sealable => ?_⟩)
  exact (sealable_iff.1 sealable).elim staged ready

theorem consignSeal_of_staged {st : ConsignState} (content : ¬ (x.outbound = [] ∧ x.expected = 0))
    (staged : ∀ l ∈ x.outbound, s.boundState n l = some .stagedOut ∨ s.boundState n l = some .readyOut)
    (state : st = .ready ∧ (∀ l ∈ x.outbound, s.boundState n l = some .readyOut) ∨
      st = .sealed ∧ ∃ l ∈ x.outbound, s.boundState n l = some .stagedOut) :
    let y := { x with state := st, token := some x.tokenOf }
    s.consignSeal h n =
      (s.putConsign i y).answerConsign h .consignSeal [.consignment i] (.sealed x.tokenOf st) y := by
  have sealable : ¬ x.outbound.all (s.sealable n) = false := by
    rw [Bool.not_eq_false, List.all_eq_true]
    exact fun l listed => sealable_iff.2 (staged l listed)
  have made : (if x.outbound.all (fun l => s.boundState n l == some .readyOut) then .ready else .sealed) = st := by
    rcases state with ⟨rfl, ready⟩ | ⟨rfl, l, listed, waits⟩
    · exact if_pos (List.all_eq_true.2 fun l listed => beq_iff_eq.2 (ready l listed))
    · refine if_neg fun ready => ?_
      cases waits.symm.trans (beq_iff_eq.1 (List.all_eq_true.1 ready l listed))
  rw [consignSeal_of_content mode range consigned opened content, if_neg sealable, made]

end

/-! ## CONSIGN_UNLOCK (R130) -/

theorem exec_consignUnlock (n : Nat) (ha : s.accepts h .consignUnlock) :
    exec (.consignUnlock h n) s = .next ((s.received h).consignUnlock h n) :=
  congrArg Host.Outcome.next (request_accepted _ ha)

theorem consignUnlock_mode (mode : s.vault.mode = .maintenance) :
    s.consignUnlock h n = s.refuse h .consignUnlock .mode := if_pos mode

section
variable (mode : s.vault.mode ≠ .maintenance)
include mode

theorem consignUnlock_invalid (bad : idInRange n = false) :
    s.consignUnlock h n = s.refuse h .consignUnlock .invalid := (if_neg mode).trans (if_pos bad)

variable (range : idInRange n = true)
include range

theorem consignUnlock_notFound (absent : s.consignment? n = none) :
    s.consignUnlock h n = s.refuse h .consignUnlock .notFound := by
  simp only [State.consignUnlock, mode, range, absent, Bool.true_eq_false, if_false]

variable (consigned : s.consignment? n = some (i, x))
include consigned

theorem consignUnlock_state (other : x.state ≠ .lockedOut) :
    s.consignUnlock h n = s.refuse h .consignUnlock .state := by
  simp only [State.consignUnlock, mode, range, consigned, Bool.true_eq_false, if_false]
  split
  · rename_i locked _
    exact absurd locked other
  · rfl

theorem consignUnlock_of_locked {st : ConsignState} (locked : x.state = .lockedOut)
    (before : x.beforeLockout = some st) :
    let y := { x with state := st, beforeLockout := none, mismatches := 0 }
    s.consignUnlock h n = (s.putConsign i y).answerConsign h .consignUnlock [.consignment i] (.unlocked st) y := by
  simp only [State.consignUnlock, mode, range, consigned, locked, before, Bool.true_eq_false, if_false]

end

/-! ## CONSIGN_CANCEL (R131) -/

theorem exec_consignCancel (n : Nat) (ha : s.accepts h .consignCancel) :
    exec (.consignCancel h n) s = .next ((s.received h).consignCancel h n) :=
  congrArg Host.Outcome.next (request_accepted _ ha)

theorem consignCancel_mode (mode : s.vault.mode = .maintenance) :
    s.consignCancel h n = s.refuse h .consignCancel .mode := if_pos mode

theorem cancellable_iff : x.cancellable = true ↔ x.state = .opened ∨ x.state = .sealed ∨ x.state = .ready ∨
    x.state = .lockedOut ∧ (x.beforeLockout = some .sealed ∨ x.beforeLockout = some .ready) := by
  unfold Consignment.cancellable
  cases x.state with
  | lockedOut => simp only [Bool.or_eq_true, beq_iff_eq, reduceCtorEq, false_or, true_and]
  | opened | sealed | ready | loaded | exchanging | returning | closed | cancelled => simp

section
variable (mode : s.vault.mode ≠ .maintenance)
include mode

theorem consignCancel_invalid (bad : idInRange n = false) :
    s.consignCancel h n = s.refuse h .consignCancel .invalid := (if_neg mode).trans (if_pos bad)

variable (range : idInRange n = true)
include range

theorem consignCancel_notFound (absent : s.consignment? n = none) :
    s.consignCancel h n = s.refuse h .consignCancel .notFound := by
  simp only [State.consignCancel, mode, range, absent, Bool.true_eq_false, if_false]

variable (consigned : s.consignment? n = some (i, x))
include consigned

theorem consignCancel_kept (kept : ¬ x.cancellable = true) :
    s.consignCancel h n = s.refuse h .consignCancel .state := by
  rw [Bool.not_eq_true] at kept
  simp only [State.consignCancel, mode, range, consigned, kept, Bool.true_eq_false, if_false, if_true]

variable (may : x.cancellable = true)
include may

theorem consignCancel_loaded (loaded : ∃ l ∈ x.outbound, s.boundState n l = some .inHatchOut) :
    s.consignCancel h n = s.refuse h .consignCancel .state := by
  have inHatch : (x.outbound.any fun l => s.itemKind n l == .loaded) = true := by
    obtain ⟨l, listed, out⟩ := loaded
    exact List.any_eq_true.2 ⟨l, listed, beq_iff_eq.2 (itemKind_eq_loaded_iff.2 out)⟩
  simp only [State.consignCancel, mode, range, consigned, may, inHatch, Bool.true_eq_false, if_false, if_true]

theorem consignCancel_of_staged (unloaded : ∀ l ∈ x.outbound, s.boundState n l ≠ some .inHatchOut) :
    let y := { x with state := .cancelled, result := some .cancelled, beforeLockout := none, closed := some s.vault.clock }
    s.consignCancel h n = ((x.outbound.foldl (State.unbind n) s).putConsign i y).answerConsign h .consignCancel
      (s.boundRecords n x.outbound ++ [.consignment i]) .none y := by
  have unloaded' : (x.outbound.any fun l => s.itemKind n l == .loaded) = false := by
    refine List.any_eq_false.2 fun l listed loaded => unloaded l listed ?_
    exact itemKind_eq_loaded_iff.1 (beq_iff_eq.1 loaded)
  simp only [State.consignCancel, mode, range, consigned, may, unloaded', Bool.true_eq_false, Bool.false_eq_true, if_false]

end

/-! ## CONSIGN_QUERY (R134) -/

theorem exec_consignQuery (n : Nat) (ha : s.accepts h .consignQuery) :
    exec (.consignQuery h n) s = .next ((s.received h).consignQuery h n) :=
  congrArg Host.Outcome.next (request_accepted _ ha)

theorem consignQuery_invalid (bad : idInRange n = false) :
    s.consignQuery h n = s.refuse h .consignQuery .invalid := if_pos bad

theorem consignQuery_notFound (range : idInRange n = true) (absent : s.consignment? n = none) :
    s.consignQuery h n = s.refuse h .consignQuery .notFound := by
  simp only [State.consignQuery, range, absent, Bool.true_eq_false, if_false]

theorem consignQuery_of_consignment (range : idInRange n = true) (consigned : s.consignment? n = some (i, x)) :
    s.consignQuery h n = s.answer h .consignQuery [] .ok
      (.consign ⟨x, x.outbound.map (s.boundState n), x.received.map (s.boundState n)⟩) := by
  simp only [State.consignQuery, State.consignReport, range, consigned, consignment?_number consigned,
    Bool.true_eq_false, if_false]

end

/-- Settles O40: each request by its range, its mode, the number's record and that record's state; and the words about
the labels and the places by the lemmas that say them. -/
theorem consignmentsAreSealedUnlockedCancelled : Obligations.ConsignmentsAreSealedUnlockedCancelled := by
  refine ⟨?_, ?_, ?_, ?_, fun n l p r s found => ⟨unbind_of_bound found, unbind_of_other found⟩,
    fun n s => ⟨fun l st => boundState_eq_some_iff, fun ls q => mem_boundRecords, fun l => unbind_of_none,
      fun i x => consignment?_eq_some_iff.1, consignment?_eq_none_iff⟩⟩
  · intro h n s out u
    have bad := idInRange_of_out out
    have modes : u.vault.mode = s.vault.mode := congrArg _ (received_vault s h)
    rw [← modes]
    exact ⟨fun ha mode => (exec_consignSeal n ha).trans (congrArg _ (consignSeal_invalid mode bad)),
      fun ha mode => (exec_consignUnlock n ha).trans (congrArg _ (consignUnlock_invalid mode bad)),
      fun ha mode => (exec_consignCancel n ha).trans (congrArg _ (consignCancel_invalid mode bad)),
      fun ha => (exec_consignQuery n ha).trans (congrArg _ (consignQuery_invalid bad))⟩
  · intro h n s mode u
    have mode' : u.vault.mode = .maintenance := (congrArg _ (received_vault s h)).trans mode
    exact ⟨fun ha => (exec_consignSeal n ha).trans (congrArg _ (consignSeal_mode mode')),
      fun ha => (exec_consignUnlock n ha).trans (congrArg _ (consignUnlock_mode mode')),
      fun ha => (exec_consignCancel n ha).trans (congrArg _ (consignCancel_mode mode'))⟩
  · intro h n s low high absent u
    have range := (idInRange_iff n).2 ⟨low, high⟩
    have absent' : u.consignment? n = none := (received_consignment? s h n).trans absent
    have modes : u.vault.mode = s.vault.mode := congrArg _ (received_vault s h)
    rw [← modes]
    exact ⟨fun ha mode => (exec_consignSeal n ha).trans (congrArg _ (consignSeal_notFound mode range absent')),
      fun ha mode => (exec_consignUnlock n ha).trans (congrArg _ (consignUnlock_notFound mode range absent')),
      fun ha mode => (exec_consignCancel n ha).trans (congrArg _ (consignCancel_notFound mode range absent')),
      fun ha => (exec_consignQuery n ha).trans (congrArg _ (consignQuery_notFound range absent'))⟩
  · intro h n i x s low high consigned u works bound done
    have range := (idInRange_iff n).2 ⟨low, high⟩
    have consigned' : u.consignment? n = some (i, x) := (received_consignment? s h n).trans consigned
    have vault : u.vault = s.vault := received_vault s h
    have states : bound = u.boundState n := funext fun l => received_boundState.symm
    have runs : works → u.vault.mode ≠ .maintenance := fun mode => by rw [vault]; exact mode
    rw [states]
    refine ⟨fun ha mode => ?_, fun ha mode => ?_, fun ha mode => ?_, fun ha => ?_⟩
    · intro c
      have seals : exec c s = .next (u.consignSeal h n) := exec_consignSeal n ha
      rw [seals]
      exact ⟨fun other => congrArg _ (consignSeal_closed (runs mode) range consigned' other),
        fun opened labels expected => congrArg _ (consignSeal_of_empty (runs mode) range consigned' opened labels expected),
        fun opened unstaged => congrArg _ (consignSeal_unstaged (runs mode) range consigned' opened unstaged),
        fun st opened content staged state =>
          congrArg _ (consignSeal_of_staged (runs mode) range consigned' opened content staged state)⟩
    · rw [exec_consignUnlock n ha]
      exact ⟨fun other => congrArg _ (consignUnlock_state (runs mode) range consigned' other),
        fun st locked before => congrArg _ (consignUnlock_of_locked (runs mode) range consigned' locked before)⟩
    · intro c may
      have cancels : exec c s = .next (u.consignCancel h n) := exec_consignCancel n ha
      rw [cancels, ← vault]
      exact ⟨fun kept => congrArg _ (consignCancel_kept (runs mode) range consigned' fun can => kept (cancellable_iff.1 can)),
        fun can loaded => congrArg _ (consignCancel_loaded (runs mode) range consigned' (cancellable_iff.2 can) loaded),
        fun can unloaded =>
          congrArg _ (consignCancel_of_staged (runs mode) range consigned' (cancellable_iff.2 can) unloaded)⟩
    · rw [exec_consignQuery n ha, consignQuery_of_consignment range consigned']

end Sys2Proof.Machine
end

