-- ==== Sys2Proof/Proofs/LoadedUnloaded.lean ====
section
/-! SUPPORT. LOADED and UNLOADED: the checks, the hatch list, the slot, the record and the consignment (R132, R150 to
R153). -/

namespace Sys2Proof.Machine

section
variable {h : ReqHead} {l : Label} {s : State} {p : Nat} {r : CustodyRecord} {i : Fin 16} {x : Consignment} {n : Nat}
  {k : Fin 32} {e : HatchEntry} {needs : List Nat}

theorem testNumber_of_consignment (consigned : s.consignment? n = some (i, x)) :
    s.testNumber needs n = s.testConsign needs i := by
  simp only [State.testNumber, consigned]

/-! ## LOADED (R150, R151) -/

theorem exec_loaded (l : Label) (ha : s.accepts h .loaded) :
    exec (.loaded h l) s = .next ((s.received h).loaded h l) := congrArg Host.Outcome.next (request_accepted _ ha)

theorem loading_eq_some_iff {a : Arbiter} :
    a.loading = some n ↔ a.holds .inner = true ∧ a.purpose = some (.load n) := by
  unfold Arbiter.loading
  split
  · rename_i holds
    rw [holds]
    split
    · rename_i m loads
      simp only [loads, Option.some.injEq, Purpose.load.injEq, true_and]
    · rename_i unloads
      simp only [unloads, Option.some.injEq, reduceCtorEq, and_false]
    · rename_i without
      simp only [without, reduceCtorEq, and_false]
  · rename_i without
    exact iff_of_false (fun h => nomatch h) fun loads => without loads.1

/-- The label's record and the consignment at a place allow a LOADED (R150). -/
def State.mayLoad (s : State) (r : CustodyRecord) (n : Nat) (i : Fin 16) (x : Consignment) : Prop :=
  s.hatch.arbiter.holds .inner = true ∧ s.hatch.arbiter.purpose = some (.load n) ∧ r.state = .readyOut ∧
    r.consignment = some n ∧ s.consignment? n = some (i, x) ∧ x.state = .ready

theorem loaded_mode (mode : s.vault.mode = .maintenance) : s.loaded h l = s.refuse h .loaded .mode := if_pos mode

section
variable (mode : s.vault.mode ≠ .maintenance)
include mode

theorem loaded_invalid (bad : goodLabel l = false) : s.loaded h l = s.refuse h .loaded .invalid :=
  (if_neg mode).trans (if_pos bad)

variable (good : goodLabel l = true)
include good

theorem loaded_notFound (absent : s.record? l = none) : s.loaded h l = s.refuse h .loaded .notFound := by
  simp only [State.loaded, mode, good, absent, Bool.true_eq_false, if_false]

variable (found : s.record? l = some (p, r))
include found

/-- Where nothing may be loaded, one of the checks behind the label's record refuses with STATE. -/
theorem loaded_state (no : ∀ n i x, ¬ s.mayLoad r n i x) : s.loaded h l = s.refuse h .loaded .state := by
  simp only [State.loaded, mode, good, found, Bool.true_eq_false, if_false]
  split
  · rfl
  rename_i n loads
  obtain ⟨holds, purpose⟩ := loading_eq_some_iff.1 loads
  split
  · rfl
  rename_i bound
  obtain ⟨ready, number⟩ := not_or.1 bound
  split
  · rfl
  rename_i i x consigned
  refine if_pos fun state => no n i x ⟨holds, purpose, not_not.1 ready, not_not.1 number, consigned, state⟩

/-- What may be loaded is, unless the hatch list is full. -/
theorem loaded_of_may (may : s.mayLoad r n i x) :
    s.loaded h l = if 12 ≤ s.hatch.entries.length then s.refuse h .loaded .full else s.loadEntry h p r n := by
  obtain ⟨holds, purpose, ready, number, consigned, state⟩ := may
  simp only [State.loaded, mode, good, found, loading_eq_some_iff.2 ⟨holds, purpose⟩, ready, number, consigned, state,
    Bool.true_eq_false, ne_eq, not_true_eq_false, or_self, if_false]

end

/-- The record that LOADED settles out of Staging into the hatch (R75, R151). -/
def State.loadedRecord (s : State) (r : CustodyRecord) : CustodyRecord :=
  { r with
    state := .inHatchOut, area := some .hatch, slot := none, storedDose := effectiveDose s.accumulators r
    mark := some s.accumulators.hatch, inspect := r.inspect || s.overDose r, lastMove := some s.vault.clock }

@[simp] theorem received_loadedRecord : (s.received h).loadedRecord r = s.loadedRecord r := by
  unfold State.loadedRecord
  rw [received_accumulators, received_overDose, received_vault]

/-- Of a record in a slot, whose estimate the entry takes along. -/
theorem loadEntry_of_slot (slot : r.slot = some k) (consigned : s.consignment? n = some (i, x)) :
    let v := (s.putSlot k .free).putEntries
      (s.hatch.entries ++ [⟨r.label, .outbound, n, (s.staging.slots[k]).estimate?, false⟩])
    let w := v.putRecord p (s.loadedRecord r)
    let needs := w.awaits [.custody p]
    let tested := (w.answer h .loaded needs .ok (.loaded (s.hatch.entries.length + 1))).testConsign needs i
    s.loadEntry h p r n = (tested.2.dispatch tested.1).arbitrate tested.1 := by
  intro v w needs tested
  have entries : w.hatch.entries.length = s.hatch.entries.length + 1 := by
    simp only [w, v, putRecord_hatch, putEntries_hatch, List.length_append, List.length_singleton]
  have consigned' : ∀ d, (w.answer h .loaded needs .ok d).consignment? n = some (i, x) := fun d => by
    rw [← consigned]
    unfold State.consignment?
    simp only [w, v, answer_consign, putRecord_consign, putEntries_consign, putSlot_consign]
  have same : tested = (w.answer h .loaded needs .ok (.loaded w.hatch.entries.length)).testNumber needs n := by
    rw [testNumber_of_consignment (consigned' _), entries]
  rw [same]
  simp only [State.loadEntry, State.slotEstimate, State.freeSlotOf, State.settled, evaluated_eq, slot,
    Option.bind_some]
  rfl

/-! ## UNLOADED (R152, R153) -/

theorem exec_unloaded (l : Label) (ha : s.accepts h .unloaded) :
    exec (.unloaded h l) s = .next ((s.received h).unloaded h l) := congrArg Host.Outcome.next (request_accepted _ ha)

theorem unloading_iff {a : Arbiter} : a.unloading = true ↔ a.holds .inner = true ∧ a.purpose = some .unload := by
  simp only [Arbiter.unloading, Bool.and_eq_true, beq_iff_eq]

theorem unloaded_mode (mode : s.vault.mode = .maintenance) : s.unloaded h l = s.refuse h .unloaded .mode :=
  if_pos mode

section
variable (mode : s.vault.mode ≠ .maintenance)
include mode

theorem unloaded_invalid (bad : goodLabel l = false) : s.unloaded h l = s.refuse h .unloaded .invalid :=
  (if_neg mode).trans (if_pos bad)

variable (good : goodLabel l = true)
include good

theorem unloaded_notFound (absent : s.record? l = none) : s.unloaded h l = s.refuse h .unloaded .notFound := by
  simp only [State.unloaded, mode, good, absent, Bool.true_eq_false, if_false]

variable (found : s.record? l = some (p, r))
include found

theorem unloaded_state (no : s.hatch.arbiter.unloading = false ∨ ∀ e ∈ s.hatch.entries, e.label ≠ l) :
    s.unloaded h l = s.refuse h .unloaded .state := by
  simp only [State.unloaded, mode, good, found, Bool.true_eq_false, if_false]
  split
  · rfl
  · rename_i unloads
    have unlisted : s.hatch.entries.find? (fun e => e.label == l) = none :=
      List.find?_eq_none.2 fun e he => by simpa using no.resolve_left unloads e he
    rw [unlisted]

section
variable (unloads : s.hatch.arbiter.unloading = true)
  (listed : s.hatch.entries.find? (fun e => e.label == l) = some e)
include unloads listed

theorem unloaded_noSlot (full : s.lowestSlot = none) : s.unloaded h l = s.refuse h .unloaded .noSlot := by
  simp only [State.unloaded, mode, good, found, unloads, listed, full, Bool.true_eq_false, if_false]

/-- A listed label that may be unloaded goes into the lowest FREE slot. -/
theorem unloaded_of_entry (lowest : s.lowestSlot = some k) : s.unloaded h l = s.unloadEntry h p r e k := by
  simp only [State.unloaded, mode, good, found, unloads, listed, lowest, Bool.true_eq_false, if_false]

end
end

/-- With no slot FREE there is no lowest one. -/
theorem lowestSlot_eq_none (taken : ∀ k : Fin 32, s.staging.slots[k] ≠ .free) : s.lowestSlot = none := by
  unfold State.lowestSlot
  rw [isFree_eq]
  exact List.find?_eq_none.2 fun k _ => by simpa using taken k

/-- The record that UNLOADED settles out of the hatch into a slot (R75, R153). -/
def State.unloadedRecord (s : State) (d : Direction) (k : Fin 32) (r : CustodyRecord) : CustodyRecord :=
  { r with
    state := d.staged, area := some .staging, slot := some k, fireHeld := false
    storedDose := effectiveDose s.accumulators r, mark := some s.accumulators.staging
    inspect := r.inspect || s.overDose r, lastMove := some s.vault.clock }

@[simp] theorem received_unloadedRecord {d : Direction} :
    (s.received h).unloadedRecord d k r = s.unloadedRecord d k r := by
  unfold State.unloadedRecord
  rw [received_accumulators, received_overDose, received_vault]

@[simp] theorem received_unloadOrigin {d : Direction} : (s.received h).unloadOrigin d = s.unloadOrigin d := by
  unfold State.unloadOrigin
  rw [received_staging]

/-- The consignment of an unloaded OUT entry is handed to the test (R153). -/
def State.testUnloaded (needs : List Nat) (d : Direction) (n : Nat) (s : State) : List Nat × State :=
  match d with
  | .outbound => s.testNumber needs n
  | .inbound => (needs, s)

theorem unloadEntry_eq :
    let v := (s.putEntries (s.hatch.entries.filter fun x => x.label != e.label)).putSlot k
      (.occupied e.label e.direction (s.unloadOrigin e.direction) 0 e.estimate)
    let w := v.putRecord p (s.unloadedRecord e.direction k r)
    let needs := w.awaits [.custody p]
    let tested := (w.answer h .unloaded needs .ok (.unloaded k)).testUnloaded needs e.direction e.number
    let closed := tested.2.closeReturned tested.1 e.number
    s.unloadEntry h p r e k = closed.2.arbitrate closed.1 := by
  simp only [State.unloadEntry, State.settled, evaluated_eq]
  rfl

/-! ## The return of a consignment (R132) -/

theorem closeReturned_of_returned (consigned : s.consignment? n = some (i, x)) (returning : x.state = .returning)
    (gone : ∀ e ∈ s.hatch.entries, e.number ≠ n) :
    let v := s.putConsign i { x with state := .closed, closed := some s.vault.clock }
    let needs' := needs ++ v.awaits [.consignment i]
    s.closeReturned needs n = (needs', v.notify needs' (.consignState n .closed x.result)) := by
  have empty : s.hatch.entries.any (fun e => e.number == n) = false :=
    List.any_eq_false.2 fun e he => by simpa using gone e he
  simp only [State.closeReturned, consigned, returning, empty, and_self, if_true]

theorem closeReturned_of_other (consigned : s.consignment? n = some (i, x))
    (stays : x.state ≠ .returning ∨ ∃ e ∈ s.hatch.entries, e.number = n) : s.closeReturned needs n = (needs, s) := by
  have kept : ¬ (x.state = .returning ∧ s.hatch.entries.any (fun e => e.number == n) = false) := by
    rintro ⟨returning, gone⟩
    rcases stays with other | ⟨e, he, number⟩
    · exact other returning
    · exact List.any_eq_false.1 gone e he (beq_iff_eq.2 number)
  simp only [State.closeReturned, consigned, kept, if_false]

end

/-- Settles O43: each request by its checks in order, then by the entry and the record that it moves; and the return of a
consignment by its state and its entries. -/
theorem loadedAndUnloadedMoveEntries : Obligations.LoadedAndUnloadedMoveEntries := by
  refine ⟨?_, ?_, fun needs n i x s consigned => ⟨testNumber_of_consignment consigned,
    closeReturned_of_returned consigned, closeReturned_of_other consigned⟩⟩
  · intro h l s ha u c refused a
    have loads : exec c s = .next (u.loaded h l) := exec_loaded l ha
    have modes : u.vault.mode = s.vault.mode := congrArg _ (received_vault s h)
    have hatch : u.hatch = s.hatch := received_hatch s h
    rw [loads, ← modes, ← received_record? s h]
    refine ⟨fun mode => congrArg _ (loaded_mode mode), fun mode bad => congrArg _ (loaded_invalid mode bad),
      fun mode good absent => congrArg _ (loaded_notFound mode good absent), fun p r mode good found => ?_⟩
    intro may
    have mays : ∀ n i x, may n i x ↔ u.mayLoad r n i x := fun n i x => by
      unfold State.mayLoad
      rw [hatch, received_consignment?]
    refine ⟨fun no => congrArg _ (loaded_state mode good found fun n i x allowed => no n i x ((mays n i x).2 allowed)),
      fun n i x allowed full => ?_, fun n i x k allowed room slot => ?_⟩
    · rw [loaded_of_may mode good found ((mays n i x).1 allowed), hatch, if_pos full]
    · have label : r.label = l := record_label found
      obtain ⟨-, -, -, -, consigned, -⟩ := (mays n i x).1 allowed
      rw [loaded_of_may mode good found ((mays n i x).1 allowed), hatch, if_neg (Nat.not_le.2 room)]
      intro v w needs
      have moved : u.loadEntry h p r n =
          let tested := (w.answer h .loaded needs .ok (.loaded (s.hatch.entries.length + 1))).testConsign needs i
          (tested.2.dispatch tested.1).arbitrate tested.1 := by
        rw [loadEntry_of_slot slot consigned, label, received_loadedRecord, hatch, received_staging]
        rfl
      split
      rename_i tested
      rw [moved, tested]
  · intro h l s ha u c refused a unloads
    have asks : exec c s = .next (u.unloaded h l) := exec_unloaded l ha
    have modes : u.vault.mode = s.vault.mode := congrArg _ (received_vault s h)
    have hatch : u.hatch = s.hatch := received_hatch s h
    have staging : u.staging = s.staging := received_staging s h
    have unloading : u.hatch.arbiter.unloading = true ↔ unloads := by rw [hatch]; exact unloading_iff
    rw [asks, ← modes, ← received_record? s h]
    refine ⟨fun mode => congrArg _ (unloaded_mode mode), fun mode bad => congrArg _ (unloaded_invalid mode bad),
      fun mode good absent => congrArg _ (unloaded_notFound mode good absent), fun p r mode good found =>
      ⟨fun no => congrArg _ (unloaded_state mode good found ?_), fun may listed taken => ?_,
        fun e k may listed free lowest => ?_⟩⟩
    · rw [hatch]
      exact no.imp_left fun other => Bool.eq_false_iff.2 fun may => other (unloading.1 (hatch ▸ may))
    · have isListed : (s.hatch.entries.find? fun e => e.label == l).isSome = true :=
        List.find?_isSome.2 (by simpa using listed)
      obtain ⟨e, here⟩ := Option.isSome_iff_exists.1 isListed
      rw [unloaded_noSlot mode good found (unloading.2 may) (by rw [hatch]; exact here)
        (lowestSlot_eq_none (by rw [staging]; exact taken))]
    · have label : e.label = l := by simpa using List.find?_some listed
      have lowest' : u.lowestSlot = some k :=
        lowestSlot_eq_some (by rw [staging]; exact free) (by rw [staging]; exact lowest)
      rw [unloaded_of_entry mode good found (unloading.2 may) (by rw [hatch]; exact listed) lowest']
      intro origin v w needs z
      have moved : u.unloadEntry h p r e k =
          let tested := z.testUnloaded needs e.direction e.number
          let closed := tested.2.closeReturned tested.1 e.number
          closed.2.arbitrate closed.1 := by
        rw [unloadEntry_eq, label, received_unloadedRecord, received_unloadOrigin, hatch]
        rfl
      split
      rename_i needs' y tested
      replace tested : z.testUnloaded needs e.direction e.number = (needs', y) := tested
      split
      rename_i closed
      simp only [moved, tested, closed]

end Sys2Proof.Machine
end

