-- ==== Sys2Proof/Proofs/Arbitration.lean ====
section
/-! SUPPORT. When the hatch is fire-blocked, the condensation gate, which pending requests are grantable, and what an
arbitration gives and sends (R142, R143, R147, R148, R155, R161). -/

namespace Sys2Proof.Machine

section
variable {s : State}

/-! ## Fire-blocked, the gate and grantability -/

theorem late_iff (x : FireState) : x.late = true ↔ x.name ∈ [.countdown, .held, .discharged, .venting] := by
  cases x <;> simp [FireState.late, FireState.name]

/-- The hatch is fire-blocked by an area in COUNTDOWN or later, and by Staging or Hatch in PRE_ALARM (R147). -/
theorem blocked_iff (f : FireUnit) : f.blocked = true ↔
    (∃ a, (f.areas.get a).state.name ∈ [.countdown, .held, .discharged, .venting]) ∨
      (f.areas.get .staging).state = .preAlarm ∨ (f.areas.get .hatch).state = .preAlarm := by
  have late : f.anyLate = true ↔ ∃ a, (f.areas.get a).state.name ∈ [.countdown, .held, .discharged, .venting] :=
    (perArea_any_iff _ _).trans (exists_congr fun _ => late_iff _)
  rw [FireUnit.blocked, Bool.or_eq_true, Bool.or_eq_true, late, beq_iff_eq, beq_iff_eq, or_assoc]
  rfl

theorem outerGrantable_iff : s.outerGrantable = true ↔ s.fire.blocked = false ∧ s.gate = true := by
  rw [State.outerGrantable, Bool.and_eq_true, Bool.not_eq_true']

/-- The gate is that of the open exchange, with an Outside dew point that every entry of it that goes out is above by
the margin (R161). -/
theorem gate_iff : s.gate = true ↔ ∃ x td, s.hatch.exchange = some x ∧ s.climate.outsideDewPoint = some td ∧
    ∀ e ∈ s.hatch.entries, e.direction = .outbound → e.number = x.number →
      ∃ t, e.estimate = some t ∧ (s.staging.settings.marginOut : Int) ≤ t - td := by
  unfold State.gate
  cases s.hatch.exchange with
  | none => simp
  | some x =>
    cases s.climate.outsideDewPoint with
    | none => simp
    | some td => simp [passesMargin_iff, imp_iff_not_or, or_assoc]

/-- The hatch list and the consignments allow a purpose (R142). -/
def State.allowsPurpose (s : State) : Purpose → Prop
  | .unload => s.hatch.entries ≠ []
  | .load n => (∃ i x, s.consignment? n = some (i, x) ∧ x.state = .ready) ∧ ∀ e ∈ s.hatch.entries, e.number = n

theorem allowsPurpose_iff (p : Purpose) : s.allowsPurpose p ↔ (p = .unload → s.hatch.entries ≠ []) ∧
    ∀ n, p = .load n → (∃ i x, s.consignment? n = some (i, x) ∧ x.state = .ready) ∧
      ∀ e ∈ s.hatch.entries, e.number = n := by
  cases p <;> simp [State.allowsPurpose]

theorem innerGrantable_iff (p : Purpose) : s.innerGrantable p = true ↔
    s.fire.blocked = false ∧ s.vault.mode = .staffed ∧ s.hatch.exchange = none ∧ s.allowsPurpose p := by
  unfold State.innerGrantable State.allowsPurpose
  cases p with
  | unload => simp [and_assoc]
  | load n =>
    cases found : s.consignment? n with
    | none => simp [found]
    | some y =>
      obtain ⟨i, x⟩ := y
      simp [found, and_assoc]

/-! ## The winner (R143) -/

/-- A side has a pending request that is grantable. -/
def State.asks (s : State) : Side → Prop
  | .inner => ∃ p, s.hatch.arbiter.pendingInner = some p ∧ s.innerGrantable p = true
  | .outer => s.hatch.arbiter.pendingOuter = true ∧ s.outerGrantable = true

/-- A side's request is granted before the other's: the other asks for nothing, or was granted last. -/
def State.wins (s : State) (w : Side) : Prop := s.asks w ∧ (s.asks w.other → s.hatch.arbiter.lastGranted = w.other)

theorem asks_inner_iff : s.asks .inner ↔ (match s.hatch.arbiter.pendingInner with
    | some p => s.innerGrantable p
    | none => false) = true := by
  unfold State.asks
  cases s.hatch.arbiter.pendingInner <;> simp

theorem asks_outer_iff : s.asks .outer ↔ (s.hatch.arbiter.pendingOuter && s.outerGrantable) = true := by
  rw [Bool.and_eq_true]
  rfl

/-- The sides do not ask, one of them asks, or both do and the one not granted last wins (R143). -/
theorem winner_cases (s : State) : (s.winner = none ∧ ∀ w, ¬ s.asks w) ∨
    (∃ w, s.winner = some w ∧ s.asks w ∧ ¬ s.asks w.other) ∨
    s.winner = some s.hatch.arbiter.lastGranted.other ∧ ∀ w, s.asks w := by
  have inner := asks_inner_iff (s := s)
  have outer := asks_outer_iff (s := s)
  unfold State.winner
  simp only []
  split
  · rename_i yes no
    exact .inr (.inl ⟨.inner, rfl, inner.2 yes, fun asks => Bool.eq_false_iff.1 no (outer.1 asks)⟩)
  · rename_i no yes
    exact .inr (.inl ⟨.outer, rfl, outer.2 yes, fun asks => Bool.eq_false_iff.1 no (inner.1 asks)⟩)
  · rename_i yes also
    exact .inr (.inr ⟨rfl, fun w => by cases w; exacts [inner.2 yes, outer.2 also]⟩)
  · rename_i no nor
    refine .inl ⟨rfl, fun w asks => ?_⟩
    cases w
    · exact Bool.eq_false_iff.1 no (inner.1 asks)
    · exact Bool.eq_false_iff.1 nor (outer.1 asks)

theorem side_other_other (w : Side) : w.other.other = w := by cases w <;> rfl

theorem side_other_ne (w : Side) : w.other ≠ w := by cases w <;> nofun

theorem side_eq_or_other (v w : Side) : v = w ∨ v = w.other := by cases v <;> cases w <;> simp [Side.other]

/-- Nobody wins where neither side asks. -/
theorem winner_eq_none_iff : s.winner = none ↔ ∀ w, ¬ s.asks w := by
  obtain ⟨none, no⟩ | ⟨w, some, asks, _⟩ | ⟨some, asks⟩ := winner_cases s
  · exact iff_of_true none no
  · exact iff_of_false (by rw [some]; nofun) fun no => no w asks
  · exact iff_of_false (by rw [some]; nofun) fun no => no .inner (asks .inner)

/-- The winner asks, and of two the side not granted last wins (R143). -/
theorem winner_eq_some_iff {w : Side} : s.winner = some w ↔ s.wins w := by
  obtain ⟨none, no⟩ | ⟨v, some, asks, alone⟩ | ⟨some, asks⟩ := winner_cases s
  · exact iff_of_false (by rw [none]; nofun) fun wins => no w wins.1
  · rw [some, Option.some.injEq]
    refine ⟨fun same => ?_, fun wins => ?_⟩
    · subst same
      exact ⟨asks, fun other => absurd other alone⟩
    · obtain same | other := side_eq_or_other w v
      · exact same.symm
      · exact absurd (other ▸ wins.1) alone
  · rw [some, Option.some.injEq]
    refine ⟨fun same => ?_, fun wins => ?_⟩
    · subst same
      exact ⟨asks _, fun _ => (side_other_other _).symm⟩
    · rw [wins.2 (asks _), side_other_other]

theorem asks_unblocked {w : Side} (h : s.asks w) : s.fire.blocked = false := by
  cases w with
  | inner =>
    obtain ⟨p, _, grantable⟩ := h
    exact ((innerGrantable_iff p).1 grantable).1
  | outer => exact (outerGrantable_iff.1 h.2).1

/-- No inner request is grantable while an exchange is open (R148). -/
theorem asks_inner_exchange (h : s.asks .inner) : s.hatch.exchange = none := by
  obtain ⟨p, _, grantable⟩ := h
  obtain ⟨_, _, noExchange, _⟩ := (innerGrantable_iff p).1 grantable
  exact noExchange

/-! ## The arbitration (R143) -/

/-- Both doors are closed with their latches engaged (R136). -/
def HatchUnit.bothSecure (h : HatchUnit) : Bool := h.inner.secure && h.outer.secure

theorem bothSecure_iff (h : HatchUnit) : h.bothSecure = true ↔ h.inner.isOpen = false ∧ h.inner.released = false ∧
    h.outer.isOpen = false ∧ h.outer.released = false := by
  rw [HatchUnit.bothSecure, Bool.and_eq_true, secure_iff, secure_iff, and_assoc]

theorem arbitration_of_possession (h : s.hatch.arbiter.possession = true) : s.arbitration = (s, none) := if_pos h

section
variable (free : s.hatch.arbiter.possession = false)
include free

theorem arbitration_of_no_winner (none : s.winner = none) : s.arbitration = (s, .none) := by
  simp only [State.arbitration, free, none, Bool.false_eq_true, if_false]

/-- The winner is given possession where both doors are secure, and only the grant moves where one is not (R143). -/
theorem arbitration_of_winner {w : Side} (some : s.winner = some w) : s.arbitration =
    if s.hatch.bothSecure then (s.give w, .some w) else (s.onArbiter fun a => { a with grant := .some w }, none) := by
  simp only [State.arbitration, free, some, Bool.false_eq_true, if_false]
  rfl

end

/-- What an arbitration can do: leave the state, move the grant to a winner while a door is not secure, or give the
winner possession (R143). -/
theorem arbitration_cases (s : State) : s.arbitration = (s, none) ∨
    s.hatch.arbiter.possession = false ∧ ∃ w, s.wins w ∧
      (s.hatch.bothSecure = false ∧ s.arbitration = (s.onArbiter fun a => { a with grant := some w }, none) ∨
        s.hatch.bothSecure = true ∧ s.arbitration = (s.give w, some w)) := by
  cases free : s.hatch.arbiter.possession with
  | true => exact .inl (arbitration_of_possession free)
  | false =>
    cases won : s.winner with
    | none => exact .inl (arbitration_of_no_winner free won)
    | some w =>
      refine .inr ⟨rfl, w, winner_eq_some_iff.1 won, ?_⟩
      rw [arbitration_of_winner free won]
      cases s.hatch.bothSecure with
      | true => exact .inr ⟨rfl, rfl⟩
      | false => exact .inl ⟨rfl, rfl⟩

/-- A rule that arbitrates sends HATCH_GRANTED to the side that was given possession (R143, R155). -/
theorem arbitrate_of_given {t : State} {w : Side} (needs : List Nat) (given : s.arbitration = (t, some w)) :
    s.arbitrate needs = t.notify needs (.hatchGranted w) := by
  simp only [State.arbitrate, given]

theorem arbitrate_of_none {t : State} (needs : List Nat) (none : s.arbitration = (t, none)) : s.arbitrate needs = t := by
  simp only [State.arbitrate, none]

/-- Settles O42: the winner is the side of `wins`, and it is given possession where both doors are secure. -/
theorem arbitrationGivesPossession : Obligations.ArbitrationGivesPossession := by
  refine ⟨fun s => blocked_iff s.fire, fun s => outerGrantable_iff, fun s => gate_iff, fun p s => ?_, fun s => ?_,
    fun needs s t => ⟨arbitrate_of_none needs, fun w => arbitrate_of_given needs⟩⟩
  · rw [innerGrantable_iff, allowsPurpose_iff]
  · intro a inner outer wins
    have winner : ∀ w, wins w → s.winner = some w := fun w won =>
      winner_eq_some_iff.2 (by cases w <;> exact won)
    refine ⟨arbitration_of_possession, fun free noInner noOuter => ?_, fun w free won =>
      ⟨fun insecure => ?_, fun innerClosed innerEngaged outerClosed outerEngaged => ?_⟩⟩
    · exact arbitration_of_no_winner free (winner_eq_none_iff.2 fun w => by cases w <;> assumption)
    · have notBoth : ¬ s.hatch.bothSecure = true := fun both => by
        obtain ⟨h1, h2, h3, h4⟩ := (bothSecure_iff _).1 both
        simp [h1, h2, h3, h4] at insecure
      rw [arbitration_of_winner free (winner w won), if_neg notBoth]
    · rw [arbitration_of_winner free (winner w won),
        if_pos ((bothSecure_iff _).2 ⟨innerClosed, innerEngaged, outerClosed, outerEngaged⟩)]
      cases w <;> rfl

end

end Sys2Proof.Machine
end

