-- ==== Sys2Proof/Proofs/Possession.lean ====
section
/-! SUPPORT. The end of a possession, and the revocation as the hatch becomes fire-blocked (R143, R144, R147, R162). -/

namespace Sys2Proof.Machine

section
variable {needs : List Nat} {s : State} {w : Side}

/-! ## The end of a possession (R144, R162) -/

/-- A side's latch engaged and the possession ended, with the grant left where it is (R144). -/
def State.park (s : State) (w : Side) : State :=
  (s.onDoor w fun d => { d with released := false }).onArbiter fun a =>
    { a with possession := false, purpose := none, releasePending := false, lapseAt := none }

/-- The revoked mark cleared, as the OUTER door has become secure (R162). -/
def State.unmark (s : State) : State := s.onArbiter fun a => { a with revoked := false }

theorem endPossession_inner : s.endPossession needs .inner = (needs, s.park .inner) := rfl

theorem endPossession_outer : s.endPossession needs .outer = (match s.hatch.exchange with
    | none => (needs, (s.park .outer).unmark)
    | some x => if x.leg = .opened then (s.park .outer).unmark.endExchange needs x s.hatch.arbiter.revoked
      else (needs, (s.park .outer).unmark)) := by
  have same : ((s.park .outer).onArbiter fun a => { a with revoked := false }).hatch.exchange = s.hatch.exchange := rfl
  show (s.park .outer).outerSecured needs true = _
  simp only [State.outerSecured, same, Bool.true_and, beq_iff_eq]
  rfl

/-! ## The revocation (R147) -/

/-- The pending requests removed, and each side that had one or holds possession told so (R147). -/
def State.withdrawn (s : State) : State :=
  ((s.onArbiter fun a => { a with pendingInner := none, pendingOuter := false }).notifyRevoked s.hatch.arbiter
    .inner).notifyRevoked s.hatch.arbiter .outer

/-- A possession marked revoked and to be released, with its lapse cancelled (R147). -/
def State.markRevoked (s : State) : State :=
  s.onArbiter fun a => { a with revoked := true, releasePending := true, lapseAt := none }

theorem withdrawn_hatch (s : State) : s.withdrawn.hatch =
    { s.hatch with arbiter := { s.hatch.arbiter with pendingInner := none, pendingOuter := false } } := by
  simp [State.withdrawn]

theorem withdrawn_fire (s : State) : s.withdrawn.fire = s.fire := by
  simp [State.withdrawn, State.notifyRevoked, apply_ite State.fire]

theorem revoke_of_free (free : s.hatch.arbiter.possession = false) : s.revoke = ([], s.withdrawn) := by
  simp only [State.revoke, free]
  rfl

/-- The door of the side in possession decides whether its possession ends at once (R147). -/
theorem revoke_of_held (held : s.hatch.arbiter.possession = true) (grant : s.hatch.arbiter.grant = some w) :
    s.revoke = if (s.hatch.door w).isOpen = true then ([], s.withdrawn.markRevoked)
      else s.withdrawn.markRevoked.endPossession [] w := by
  have door : s.withdrawn.markRevoked.hatch.door w = s.hatch.door w := by
    show (HatchUnit.door { s.withdrawn.hatch with arbiter := _ } w) = _
    rw [withdrawn_hatch]
    cases w <;> rfl
  rw [← door]
  simp only [State.revoke, held, grant]
  rfl

/-- A side is told of the revocation if it had a pending request or holds possession. -/
theorem notifyRevoked_of_had {a : Arbiter} (had : a.pends w = true ∨ a.holds w = true) :
    s.notifyRevoked a w = s.notify [] (.hatchRevoked w) := if_pos (by rw [Bool.or_eq_true]; exact had)

theorem notifyRevoked_of_not {a : Arbiter} (without : ¬ (a.pends w = true ∨ a.holds w = true)) :
    s.notifyRevoked a w = s := if_neg (by rw [Bool.or_eq_true]; exact without)

theorem hatchFireChange_of_not_becoming {wasBlocked : Bool} (not : wasBlocked = true ∨ s.fire.blocked = false) :
    s.hatchFireChange wasBlocked = s.arbitrate [] := by
  rw [hatchFireChange_eq, if_neg]
  obtain rfl | free := not
  · simp
  · simp [free]

theorem hatchFireChange_of_becoming (blocked : s.fire.blocked = true) :
    s.hatchFireChange false = s.revoke.2.arbitrate s.revoke.1 := by
  rw [hatchFireChange_eq, if_pos (by simp [blocked])]

/-- Settles O45: the end of a possession by its side, and the revocation by who is told of it and by the door. -/
theorem possessionsEndAndAreRevoked : Obligations.PossessionsEndAndAreRevoked := by
  refine ⟨fun needs s => ?_, fun wasBlocked s => ?_⟩
  · intro parked v
    refine ⟨rfl, fun noExchange => ?_, fun x opened => ⟨fun leg => ?_, fun leg => ?_⟩⟩
    · simp only [endPossession_outer, noExchange]
      rfl
    · simp only [endPossession_outer, opened, if_pos leg]
      rfl
    · simp only [endPossession_outer, opened, if_neg leg]
      rfl
  · intro a had
    refine ⟨hatchFireChange_of_not_becoming, fun was blocked => ?_⟩
    intro v w told
    have same : w = s.withdrawn := by
      obtain ⟨rfl, inner, outer⟩ | ⟨rfl, inner, outer⟩ | ⟨rfl, inner, outer⟩ | ⟨rfl, inner, outer⟩ := told
      · rw [State.withdrawn, notifyRevoked_of_not inner, notifyRevoked_of_not outer]
      · rw [State.withdrawn, notifyRevoked_of_had inner, notifyRevoked_of_not outer]
      · rw [State.withdrawn, notifyRevoked_of_not inner, notifyRevoked_of_had outer]
      · rw [State.withdrawn, notifyRevoked_of_had inner, notifyRevoked_of_had outer]
    subst was
    rw [same, hatchFireChange_of_becoming blocked]
    refine ⟨fun free => by rw [revoke_of_free free], fun side held grant => ?_⟩
    intro x
    rw [revoke_of_held held grant]
    refine ⟨fun stands => by rw [if_pos stands]; rfl, fun shut => ?_⟩
    rw [if_neg (by rw [shut]; nofun)]
    rfl

end

end Sys2Proof.Machine
end

