-- ==== Sys2Proof/Proofs/LatchSafety.lean ====
section
/-! SUPPORT. The latches are safe (R140, R143, R147, R148): what that is read from, and that arbitration, the end of a
possession, the revocation, the doors and the fire unit keep it. -/

namespace Sys2Proof.Machine

/-! ## The latches and the arbiter -/

/-- What the arbiter holds to while the hatch is fire-blocked: nothing is pending, a possession is to be released, and one
of the OUTER side is marked revoked (R147). -/
structure Arbiter.Barred (a : Arbiter) : Prop where
  idle : ∀ w, a.pends w = false
  ending : a.possession = true → a.releasePending = true
  marked : a.holds .outer = true → a.revoked = true

/-- The latches, whether an exchange is open, and whether the hatch counts as fire-blocked, against the arbiter: each latch
is RELEASED exactly for the side in possession (R140, R143), the INNER side holds none against an exchange (R148), and a
side in possession has nothing pending. -/
structure Latches (inner outer : Bool) (a : Arbiter) (exchange blocked : Bool) : Prop where
  inner : inner = a.holds .inner
  outer : outer = a.holds .outer
  granted : a.possession = true → a.grant.isSome = true
  apart : exchange = true → a.holds .inner = false
  consumed : ∀ w, a.holds w = true → a.pends w = false
  barred : blocked = true → a.Barred

/-- The latches are safe in a state whose hatch counts as fire-blocked or not. -/
def State.latchedAt (blocked : Bool) (s : State) : Prop :=
  Latches s.hatch.inner.released s.hatch.outer.released s.hatch.arbiter s.hatch.exchange.isSome blocked

/-- The latches are safe in a state. -/
def State.latched (s : State) : Prop := s.latchedAt s.fire.blocked

theorem barred_iff (a : Arbiter) : a.Barred ↔ a.pends .inner = false ∧ a.pends .outer = false ∧
    (a.possession = false ∨ a.releasePending = true) ∧ (a.holds .outer = false ∨ a.revoked = true) := by
  refine ⟨fun ⟨idle, ending, marked⟩ => ⟨idle _, idle _, ?_, ?_⟩, fun ⟨inner, outer, ending, marked⟩ => ⟨?_, ?_, ?_⟩⟩
  · exact Bool.eq_false_or_eq_true a.possession |>.symm.imp_right ending
  · exact Bool.eq_false_or_eq_true (a.holds .outer) |>.symm.imp_right marked
  · intro w
    cases w
    · exact inner
    · exact outer
  · exact fun held => ending.resolve_left (by simp [held])
  · exact fun held => marked.resolve_left (by simp [held])

theorem latchSafe_iff (s : State) : s.latchSafe = true ↔ (s.power = .running → s.latched) := by
  have both : s.latched ↔ s.hatch.inner.released = s.hatch.arbiter.holds .inner ∧
      s.hatch.outer.released = s.hatch.arbiter.holds .outer ∧
      (s.hatch.arbiter.possession = true → s.hatch.arbiter.grant.isSome = true) ∧
      (s.hatch.exchange.isSome = true → s.hatch.arbiter.holds .inner = false) ∧
      (s.hatch.arbiter.holds .inner = true → s.hatch.arbiter.pends .inner = false) ∧
      (s.hatch.arbiter.holds .outer = true → s.hatch.arbiter.pends .outer = false) ∧
      (s.fire.blocked = true → s.hatch.arbiter.Barred) := by
    refine ⟨fun ⟨h1, h2, h3, h4, h5, h6⟩ => ⟨h1, h2, h3, h4, h5 _, h5 _, h6⟩,
      fun ⟨h1, h2, h3, h4, h5, h6, h7⟩ => ⟨h1, h2, h3, h4, fun w => ?_, h7⟩⟩
    cases w
    · exact h5
    · exact h6
  by_cases hp : s.power = .running
  · simp [State.latchSafe, hp, both, barred_iff, and_assoc, imp_iff_not_or]
  · simp [State.latchSafe, hp]

section
variable {b : Bool} {s t : State} {w : Side}

theorem latchSafe_of_latched (h : s.latched) : s.latchSafe = true := (latchSafe_iff s).2 fun _ => h

theorem latchSafe_of_not_running (h : s.power ≠ .running) : s.latchSafe = true :=
  (latchSafe_iff s).2 fun hp => absurd hp h

/-- An operation that leaves the hatch unit leaves the latches safe as they were. -/
theorem latchedAt_congr (h : s.latchedAt b) (hatch : t.hatch = s.hatch) : t.latchedAt b := by
  unfold State.latchedAt
  rw [hatch]
  exact h

/-- Whether the hatch is fire-blocked is read from the areas' fire states (R147). -/
theorem blocked_congr {f g : FireUnit} (states : ∀ a, (g.areas.get a).state = (f.areas.get a).state) :
    g.blocked = f.blocked := by
  rw [Bool.eq_iff_iff, blocked_iff, blocked_iff]
  simp only [states]

/-- An operation that leaves the hatch unit and the areas' fire states keeps the latches safe. -/
theorem latched_congr (h : s.latched) (hatch : t.hatch = s.hatch) (areas : t.fire.areas = s.fire.areas) : t.latched := by
  unfold State.latched
  rw [blocked_congr fun a => congrArg (fun x => (x.get a).state) areas]
  exact latchedAt_congr h hatch

/-- So does one that leaves the hatch unit and the common outputs with their causes. -/
theorem latched_of_parts (h : s.latched) (hatch : t.hatch = s.hatch) (parts : t.outputParts = s.outputParts) : t.latched :=
  latched_congr h hatch (congrArg (fun x => x.1.areas) parts)

theorem latched_withEntries {es : List HatchEntry} (h : s.latched) :
    ({ s with hatch := { s.hatch with entries := es } } : State).latched := h

/-- With no possession and the latches engaged the latches are safe, whatever else stands. -/
theorem Latches.of_parked {inner outer exchange : Bool} {a : Arbiter} (engaged : inner = false ∧ outer = false)
    (parked : a.possession = false) (idle : b = true → ∀ w, a.pends w = false) : Latches inner outer a exchange b := by
  have without : ∀ w, a.holds w = false := fun w => by rw [Arbiter.holds, parked, Bool.false_and]
  obtain ⟨rfl, rfl⟩ := engaged
  refine ⟨(without _).symm, (without _).symm, fun held => ?_, fun _ => without _, fun w held => ?_, fun blocked =>
    ⟨idle blocked, fun held => ?_, fun held => ?_⟩⟩
  · rw [parked] at held
    cases held
  · rw [without] at held
    cases held
  · rw [parked] at held
    cases held
  · rw [without] at held
    cases held

/-- At most the side in possession has its latch RELEASED (R140). -/
theorem latched_not_both (h : s.latched) : ¬ (s.hatch.inner.released = true ∧ s.hatch.outer.released = true) := by
  rintro ⟨inner, outer⟩
  have heldInner : s.hatch.arbiter.holds .inner = true := h.inner.symm.trans inner
  have heldOuter : s.hatch.arbiter.holds .outer = true := h.outer.symm.trans outer
  simp only [Arbiter.holds, Bool.and_eq_true, beq_iff_eq] at heldInner heldOuter
  exact absurd (heldInner.2.symm.trans heldOuter.2) (by simp)

theorem latched_engaged (h : s.latchedAt b) (parked : s.hatch.arbiter.possession = false) :
    s.hatch.inner.released = false ∧ s.hatch.outer.released = false := by
  have without : ∀ w, s.hatch.arbiter.holds w = false := fun w => by rw [Arbiter.holds, parked, Bool.false_and]
  exact ⟨h.inner.trans (without _), h.outer.trans (without _)⟩

/-! ## Outputs, writes and tables -/

theorem answer_latched {q : ReqHead} {k : RequestKind} {needs : List Nat} {c : ResultCode} {d : ResponseData}
    (h : s.latched) : (s.answer q k needs c d).latched := latched_congr h (by simp) (by simp)
theorem refuse_latched {q : ReqHead} {k : RequestKind} {c : ResultCode} (h : s.latched) : (s.refuse q k c).latched :=
  answer_latched h
theorem emit_latched {needs : List Nat} {xs : List Out} (h : s.latched) : (s.emit needs xs).latched :=
  latched_congr h (by simp) (by simp)
theorem notify_latched {needs : List Nat} {n : NoticeBody} (h : s.latched) : (s.notify needs n).latched := emit_latched h
theorem postNotice_latched {n : NoticeBody} (h : s.latched) : (s.postNotice n).latched := latched_congr h (by simp) (by simp)
theorem persist_latched {r : StoreRecord} (h : s.latched) : (s.persist r).latched := latched_congr h (by simp) (by simp)
theorem putRecord_latched {p : Nat} {r : CustodyRecord} (h : s.latched) : (s.putRecord p r).latched :=
  latched_congr h (by simp) (by simp)
theorem putConsign_latched {i : Fin 16} {c : Consignment} (h : s.latched) : (s.putConsign i c).latched :=
  latched_congr h (by simp) (by simp)
theorem putSlot_latched {n : Fin 32} {x : Slot} (h : s.latched) : (s.putSlot n x).latched :=
  latched_congr h (by simp) (by simp)
theorem putEntries_latched {es : List HatchEntry} (h : s.latched) : (s.putEntries es).latched :=
  persist_latched (latched_withEntries h)
theorem createRecord_latched {p : Nat} {r : CustodyRecord} (h : s.latched) : (s.createRecord p r).latched :=
  latched_congr h (by simp) (by simp)
theorem dispatch_latched {needs : List Nat} (h : s.latched) : (s.dispatch needs).latched := latched_congr h (by simp) (by simp)
theorem testConsign_latched {needs : List Nat} {i : Fin 16} (h : s.latched) : (s.testConsign needs i).2.latched :=
  latched_congr h (by simp) (by simp)
theorem testNumber_latched {needs : List Nat} {n : Nat} (h : s.latched) : (s.testNumber needs n).2.latched :=
  latched_congr h (by simp) (by simp)

theorem follow_latched {r : StoreRecord} {f : Followup} {now : State → State} (h : s.latched)
    (keeps : s.latched → (now s).latched) : (s.follow r f now).latched := by
  unfold State.follow
  split
  · exact h
  · exact keeps h

/-! ## A change of the arbiter -/

theorem holds_congr {a c : Arbiter} (possession : c.possession = a.possession) (grant : c.grant = a.grant) (v : Side) :
    c.holds v = a.holds v := by rw [Arbiter.holds, Arbiter.holds, possession, grant]

theorem pends_congr {a c : Arbiter} (inner : c.pendingInner = a.pendingInner) (outer : c.pendingOuter = a.pendingOuter)
    (v : Side) : c.pends v = a.pends v := by
  cases v with
  | inner => exact congrArg Option.isSome inner
  | outer => exact outer

/-- A change of the arbiter that leaves the possession, makes no request pending, and keeps a possession to be released
and an OUTER one marked. -/
theorem onArbiter_latched {f : Arbiter → Arbiter} (h : s.latched)
    (possession : (f s.hatch.arbiter).possession = s.hatch.arbiter.possession := by rfl)
    (grant : (f s.hatch.arbiter).grant = s.hatch.arbiter.grant := by rfl)
    (pends : ∀ v, s.hatch.arbiter.pends v = false → (f s.hatch.arbiter).pends v = false)
    (ending : s.hatch.arbiter.releasePending = true → (f s.hatch.arbiter).releasePending = true)
    (marked : s.hatch.arbiter.holds .outer = true → s.hatch.arbiter.revoked = true → (f s.hatch.arbiter).revoked = true) :
    (s.onArbiter f).latched := by
  have holds := holds_congr possession grant
  refine ⟨h.inner.trans (holds _).symm, h.outer.trans (holds _).symm, fun held => ?_, fun opened => ?_, fun v held => ?_,
    fun blocked => ⟨fun v => pends v ((h.barred blocked).idle v), fun held => ?_, fun held => ?_⟩⟩
  · exact (congrArg Option.isSome grant).trans (h.granted (possession.symm.trans held))
  · exact (holds _).trans (h.apart opened)
  · exact pends v (h.consumed v ((holds v).symm.trans held))
  · exact ending ((h.barred blocked).ending (possession.symm.trans held))
  · have outer := (holds .outer).symm.trans held
    exact marked outer ((h.barred blocked).marked outer)

/-- A change of the arbiter with no possession before or after it. -/
theorem onArbiter_parked {f : Arbiter → Arbiter} (h : s.latched) (before : s.hatch.arbiter.possession = false)
    (after : (f s.hatch.arbiter).possession = false)
    (pends : ∀ v, (f s.hatch.arbiter).pends v = s.hatch.arbiter.pends v) : (s.onArbiter f).latched :=
  .of_parked (latched_engaged (s := s) h before) after fun blocked v => (pends v).trans ((h.barred blocked).idle v)

/-- A change of the lapse alone. -/
theorem withLapse_latched {t : Option Nat} (h : s.latched) : (s.onArbiter fun a => { a with lapseAt := t }).latched :=
  onArbiter_latched h (pends := fun v none => (pends_congr rfl rfl v).trans none) (ending := id) (marked := fun _ => id)

/-- The revoked mark is cleared where the OUTER side holds no possession (R162; log 41). -/
theorem unmark_latched (h : s.latched) (without : s.hatch.arbiter.holds .outer = false) : s.unmark.latched :=
  onArbiter_latched h (pends := fun v none => (pends_congr rfl rfl v).trans none) (ending := id)
    (marked := fun held => absurd (held.symm.trans without) (by simp))

/-- A possession is to be released (R146). -/
theorem releasePending_latched (h : s.latched) : (s.onArbiter fun a => { a with releasePending := true }).latched :=
  onArbiter_latched h (pends := fun v none => (pends_congr rfl rfl v).trans none) (ending := fun _ => rfl)
    (marked := fun _ => id)

theorem withdraw_pends (a : Arbiter) (w v : Side) : (a.withdraw w).pends v = if v = w then false else a.pends v := by
  cases w <;> cases v <;> rfl

/-- A side's pending request is withdrawn (R11, R146, R167). -/
theorem withdraw_latched (h : s.latched) (w : Side) : (s.onArbiter fun a => a.withdraw w).latched := by
  have pends : ∀ v, s.hatch.arbiter.pends v = false → (s.hatch.arbiter.withdraw w).pends v = false := fun v none => by
    rw [withdraw_pends, none, ite_self]
  cases w with
  | inner => exact onArbiter_latched h (pends := pends) (ending := id) (marked := fun _ => id)
  | outer => exact onArbiter_latched h (pends := pends) (ending := id) (marked := fun _ => id)

/-! ## The arbitration (R143) -/

/-- Possession given to a side that asks for it, with both latches engaged, is safe: nothing is fire-blocked, and no
exchange is open where the side is the INNER one (R142, R148). -/
theorem give_latched (h : s.latched) (parked : s.hatch.arbiter.possession = false) (asks : s.asks w) :
    (s.give w).latched := by
  obtain ⟨inner, outer⟩ := latched_engaged h parked
  have open_ : (s.give w).fire.blocked = false := by rw [give_fire]; exact asks_unblocked asks
  unfold State.latched State.latchedAt
  rw [open_]
  cases w with
  | inner =>
    refine ⟨rfl, outer, fun _ => rfl, fun opened => ?_, fun v held => ?_, nofun⟩
    · rw [give_hatch_exchange, asks_inner_exchange asks] at opened
      cases opened
    · cases v
      · rfl
      · cases held
  | outer =>
    refine ⟨inner, rfl, fun _ => rfl, fun _ => rfl, fun v held => ?_, nofun⟩
    cases v
    · cases held
    · rfl

theorem arbitration_latched (h : s.latched) : s.arbitration.1.latched := by
  obtain same | ⟨parked, w, wins, ⟨_, moved⟩ | ⟨_, given⟩⟩ := arbitration_cases s
  · rw [same]
    exact h
  · rw [moved]
    exact onArbiter_parked h parked parked fun v => pends_congr rfl rfl v
  · rw [given]
    exact give_latched h parked wins.1

theorem arbitrate_latched {needs : List Nat} (h : s.latched) : (s.arbitrate needs).latched :=
  latched_congr (arbitration_latched h) (arbitrate_hatch _ _) (by rw [arbitrate_fire, arbitration_fire])

/-! ## The end of a possession and the revocation (R144, R147) -/

/-- The arbiter with its possession ended; the OUTER side's end clears the revoked mark too (R144, R162). -/
def Arbiter.parked (a : Arbiter) (w : Side) : Arbiter :=
  { a with
    possession := false, purpose := none, releasePending := false, lapseAt := none
    revoked := match w with
      | .inner => a.revoked
      | .outer => false }

theorem parked_pends (a : Arbiter) (w v : Side) : (a.parked w).pends v = a.pends v := by cases v <;> rfl

theorem endPossession_arbiter (needs : List Nat) (w : Side) (s : State) :
    (s.endPossession needs w).2.hatch.arbiter = s.hatch.arbiter.parked w := by
  cases w <;> simp [State.endPossession, Arbiter.parked]

/-- The end of a possession engages the latch of its side and leaves the other (R144). -/
theorem endPossession_released (needs : List Nat) (w : Side) (s : State) :
    (s.endPossession needs w).2.hatch.inner.released = (if w = .inner then false else s.hatch.inner.released) ∧
      (s.endPossession needs w).2.hatch.outer.released = if w = .outer then false else s.hatch.outer.released := by
  cases w <;> simp [State.endPossession, HatchUnit.setDoor]

theorem holds_iff {a : Arbiter} : a.holds w = true ↔ a.possession = true ∧ a.grant = some w := by
  rw [Arbiter.holds, Bool.and_eq_true, beq_iff_eq]

/-- The side that does not hold possession has its latch engaged. -/
theorem holds_other {a : Arbiter} (held : a.holds w = true) : a.holds w.other = false := by
  obtain ⟨_, grant⟩ := holds_iff.1 held
  rw [Arbiter.holds, grant]
  cases w <;> simp [Side.other]

/-- The end of a possession is safe, and so it is where the hatch has just become fire-blocked with nothing pending. -/
theorem endPossession_latchedAt {needs : List Nat} (h : s.latchedAt b) (held : s.hatch.arbiter.holds w = true)
    (idle : s.fire.blocked = true → ∀ v, s.hatch.arbiter.pends v = false) : (s.endPossession needs w).2.latched := by
  obtain ⟨inner, outer⟩ := endPossession_released needs w s
  have other := holds_other held
  unfold State.latched State.latchedAt
  rw [endPossession_fire, endPossession_arbiter]
  refine .of_parked ?_ rfl fun blocked v => (parked_pends _ _ _).trans (idle blocked v)
  rw [inner, outer]
  cases w with
  | inner => exact ⟨rfl, h.outer.trans other⟩
  | outer => exact ⟨h.inner.trans other, rfl⟩

theorem endPossession_latched {needs : List Nat} (h : s.latched) (held : s.hatch.arbiter.holds w = true) :
    (s.endPossession needs w).2.latched := endPossession_latchedAt h held fun blocked => (h.barred blocked).idle

theorem latchedAt_grant (h : s.latchedAt b) (held : s.hatch.arbiter.possession = true) :
    ∃ w, s.hatch.arbiter.grant = some w := Option.isSome_iff_exists.1 (h.granted held)

theorem withdrawn_pends (s : State) (v : Side) : s.withdrawn.hatch.arbiter.pends v = false := by
  rw [withdrawn_hatch]
  cases v <;> rfl

/-- With the requests withdrawn and a possession marked revoked, the latches are safe whether the hatch is fire-blocked
or not (R147). -/
theorem markRevoked_latchedAt {c : Bool} (h : s.latchedAt b) : s.withdrawn.markRevoked.latchedAt c := by
  have hatch : s.withdrawn.markRevoked.hatch = { s.hatch with arbiter := { s.hatch.arbiter with
      pendingInner := none, pendingOuter := false, revoked := true, releasePending := true, lapseAt := none } } := by
    show ({ s.withdrawn.hatch with arbiter := _ } : HatchUnit) = _
    rw [withdrawn_hatch]
  have idle : ∀ v, s.withdrawn.markRevoked.hatch.arbiter.pends v = false := withdrawn_pends s
  unfold State.latchedAt
  rw [hatch] at idle ⊢
  exact ⟨h.inner, h.outer, h.granted, h.apart, fun v _ => idle v, fun _ => ⟨idle, fun _ => rfl, fun _ => rfl⟩⟩

/-- The revocation makes the latches safe where the hatch has just become fire-blocked (R147). -/
theorem revoke_latched (h : s.latchedAt b) : s.revoke.2.latched := by
  have idle := withdrawn_pends s
  cases held : s.hatch.arbiter.possession with
  | false =>
    rw [revoke_of_free held]
    unfold State.latched State.latchedAt
    rw [withdrawn_hatch] at idle ⊢
    exact .of_parked (latched_engaged h held) held fun _ => idle
  | true =>
    obtain ⟨w, grant⟩ := latchedAt_grant h held
    rw [revoke_of_held held grant]
    split
    · exact markRevoked_latchedAt h
    · have holds : s.withdrawn.markRevoked.hatch.arbiter.holds w = true := by
        show Arbiter.holds { s.withdrawn.hatch.arbiter with revoked := _, releasePending := _, lapseAt := _ } w = true
        rw [withdrawn_hatch]
        exact holds_iff.2 ⟨held, grant⟩
      exact endPossession_latchedAt (markRevoked_latchedAt (c := b) h) holds fun _ => withdrawn_pends s

/-- The hatch unit's part in a change of fire state makes the latches safe under the new states, where they were under
those before (R143, R147). -/
theorem hatchFireChange_latched (h : s.latchedAt b) : (s.hatchFireChange b).latched := by
  rw [hatchFireChange_eq]
  split
  · exact arbitrate_latched (revoke_latched h)
  · rename_i not
    refine arbitrate_latched ⟨h.inner, h.outer, h.granted, h.apart, h.consumed, fun blocked => h.barred ?_⟩
    simpa [blocked] using not

/-! ## The fire unit (R43 to R55) -/

theorem announceFire_latched {a : Area} {old : FireState} (h : s.latchedAt b) : (s.announceFire a old b).latched :=
  hatchFireChange_latched (latchedAt_congr h (by simp))

theorem changeFire_latched {a : Area} {new : FireState} (h : s.latched) : (s.changeFire a new).latched :=
  announceFire_latched h

theorem enterCountdown_latched {a : Area} (h : s.latched) : (s.enterCountdown a).latched := changeFire_latched h

/-- A change of an area's fire record that keeps its state. -/
theorem onFireArea_latched {a : Area} {f : FireArea → FireArea} (keeps : ∀ x, (f x).state = x.state) (h : s.latched) :
    (s.onFireArea a f).latched := by
  have blocked : (s.onFireArea a f).fire.blocked = s.fire.blocked := blocked_congr fun c => by
    rw [onFireArea_fire, perArea_get_set]
    split
    · rename_i same
      rw [keeps, same]
    · rfl
  unfold State.latched
  rw [blocked]
  exact h

theorem onDetector_latched {d : Detector} {f : DetectorRecord → DetectorRecord} (h : s.latched) :
    (s.onDetector d f).latched := h

theorem changeDetector_latched {d : Detector} {x : DetectorState} (h : s.latched) : (s.changeDetector d x).latched :=
  latched_congr h (by simp) (by simp)

/-- Each way out of an alarm entry leaves the state or changes the area's fire state (R46). -/
theorem alarmEntry_latched {d : Detector} (h : s.latched) : (s.alarmEntry d).latched := by
  unfold State.alarmEntry
  split
  · exact h
  simp only []
  split
  · exact enterCountdown_latched h
  · split
    · exact enterCountdown_latched h
    · exact changeFire_latched h
  · exact enterCountdown_latched h
  · split
    · exact enterCountdown_latched h
    · exact h
  all_goals exact h

theorem evaluateDetector_latched {d : Detector} (h : s.latched) : (s.evaluateDetector d).latched := by
  simp only [State.evaluateDetector]
  split
  · exact alarmEntry_latched (changeDetector_latched h)
  · exact changeDetector_latched h

theorem detectorLines_latched {d : Detector} {al fl : Level} (h : s.latched) : (s.detectorLines d al fl).latched := by
  simp only [State.detectorLines]
  split
  · exact h
  · exact evaluateDetector_latched (onDetector_latched h)

theorem callEvent_latched {a : Area} (h : s.latched) : (s.callEvent a).latched := by
  have latched := onFireArea_latched (a := a) (f := fun x => { x with callLatch := true }) (fun _ => rfl) h
  simp only [State.callEvent]
  split
  · exact h
  split
  · exact latched
  · exact enterCountdown_latched latched

theorem callPointOn_latched {a : Area} (h : s.latched) : (s.callPointOn a).latched := by
  unfold State.callPointOn
  split
  · exact h
  · exact callEvent_latched (onFireArea_latched (fun _ => rfl) h)

theorem callPointOff_latched {a : Area} (h : s.latched) : (s.callPointOff a).latched := onFireArea_latched (fun _ => rfl) h

theorem holdArea_latched {a : Area} (h : s.latched) : (s.holdArea a).latched := by
  unfold State.holdArea
  split
  · exact changeFire_latched h
  all_goals exact h

theorem resumeArea_latched {a : Area} (h : s.latched) : (s.resumeArea a).latched := by
  unfold State.resumeArea
  split
  · exact changeFire_latched h
  · exact h

theorem abortOn_latched (h : s.latched) : s.abortOn.latched := by
  unfold State.abortOn
  split
  · exact h
  · exact foldl_invariant _ State.latched (fun _ _ => holdArea_latched) _ _ h

theorem abortOff_latched (h : s.latched) : s.abortOff.latched := by
  unfold State.abortOff
  split
  · exact foldl_invariant _ State.latched (fun _ _ => resumeArea_latched) _ _ h
  · exact h

theorem retakeDetector_latched {d : Detector} (h : s.latched) : (s.retakeDetector d).latched := by
  simp only [State.retakeDetector]
  split
  · split
    · exact evaluateDetector_latched (onDetector_latched h)
    · exact onDetector_latched h
  · exact h

theorem retakeCall_latched {a : Area} (h : s.latched) : (s.retakeCall a).latched := by
  have cleared := onFireArea_latched (a := a) (f := fun x => { x with callRetake := false }) (fun _ => rfl) h
  simp only [State.retakeCall]
  split
  · split
    · exact callEvent_latched cleared
    · exact cleared
  · exact h

theorem retakeInputs_latched (h : s.latched) : s.retakeInputs.latched :=
  foldl_invariant _ State.latched (fun _ _ => retakeCall_latched) _ _
    (foldl_invariant _ State.latched (fun _ _ => retakeDetector_latched) _ _ h)

/-- The four steps of R53 leave the hatch unit, and the order of R55 behind them acts on the states before and after. -/
theorem returnToQuiet_latched {a : Area} (h : s.latched) : (s.returnToQuiet a).latched := by
  refine announceFire_latched (latchedAt_congr h ?_)
  rw [onFireArea_hatch]
  refine (foldl_keeps _ State.hatch (fun t d => ?_) _ _).trans (foldl_keeps _ State.hatch (fun t d => ?_) _ _)
  · simp only [State.markRetake]
    split <;> rfl
  · simp only [State.dropLatch]
    split
    · exact changeDetector_hatch _ _ _
    · rfl

theorem awaitPulse_hatch (a : Area) (s : State) : (s.awaitPulse a).hatch = s.hatch := by
  unfold State.awaitPulse
  split <;> rfl

theorem dischargeArea_latched {a : Area} (h : s.latched) : (s.dischargeArea a).latched := by
  simp only [State.dischargeArea]
  split
  · split
    · split
      · exact notify_latched (announceFire_latched (latchedAt_congr h (persist_hatch _ _)))
      · exact announceFire_latched (latchedAt_congr h ((awaitPulse_hatch _ _).trans (persist_hatch _ _)))
    · exact h
  all_goals exact h

theorem endPulse_latched {a : Area} (h : s.latched) : (s.endPulse a).latched := by
  unfold State.endPulse
  split
  · split
    · exact onFireArea_latched (fun _ => rfl) h
    · exact h
  · exact h

theorem ventEnd_latched {a : Area} (h : s.latched) : (s.ventEnd a).latched := by
  simp only [State.ventEnd]
  split
  · split
    · exact returnToQuiet_latched h
    · exact h
  all_goals exact h

theorem ventArea_latched {a : Area} (h : s.latched) : (s.ventArea a).latched :=
  announceFire_latched (latchedAt_congr h (persist_hatch _ _))

theorem alarmAfresh_latched {d : Detector} (h : s.latched) : (s.alarmAfresh d).latched := by
  unfold State.alarmAfresh
  split
  · exact alarmEntry_latched h
  · exact h

theorem evaluateAfresh_latched {d : Detector} {latched : Bool} (h : s.latched) : (s.evaluateAfresh d latched).latched :=
  alarmAfresh_latched (changeDetector_latched h)

/-! ## The doors (R137, R139, R145, R162) -/

/-- A change of a door that keeps its latch. -/
theorem onDoor_latched {f : Door → Door} (keeps : ∀ d, (f d).released = d.released) (h : s.latched) :
    (s.onDoor w f).latched := by
  cases w with
  | inner => exact ⟨(keeps _).trans h.inner, h.outer, h.granted, h.apart, h.consumed, h.barred⟩
  | outer => exact ⟨h.inner, (keeps _).trans h.outer, h.granted, h.apart, h.consumed, h.barred⟩

/-- An exchange is set where the INNER side holds no possession, or ends (R148). -/
theorem withExchange_latched {x : Option Exchange} (h : s.latched)
    (apart : x.isSome = true → s.hatch.arbiter.holds .inner = false) :
    ({ s with hatch := { s.hatch with exchange := x } } : State).latched :=
  ⟨h.inner, h.outer, h.granted, apart, h.consumed, h.barred⟩

/-- While an exchange is open the INNER side holds no possession (R148). -/
theorem latched_apart {x : Exchange} (h : s.latched) (opened : s.hatch.exchange = some x) :
    s.hatch.arbiter.holds .inner = false := h.apart (congrArg Option.isSome opened)

theorem normalOpening_latched (h : s.latched) : (s.normalOpening w).latched := by
  have cancelled := withLapse_latched (t := none) h
  unfold State.normalOpening
  simp only []
  split
  · rename_i opened
    exact withExchange_latched cancelled fun _ => latched_apart cancelled opened
  all_goals exact cancelled

theorem openDoor_latched (h : s.latched) : (s.openDoor w).latched := by
  have opened : ∀ t, (s.onDoor w fun d => { d with isOpen := true, openedAt := t, heldSent := false }).latched :=
    fun t => onDoor_latched (fun _ => rfl) h
  simp only [State.openDoor]
  split
  · exact h
  split
  · exact normalOpening_latched (opened _)
  · exact notify_latched (onDoor_latched (fun _ => rfl) (opened _))

/-- The latch of a side without possession is engaged already (R139). -/
theorem engage_latched (h : s.latched) (without : s.hatch.arbiter.holds w = false) :
    (s.onDoor w fun d => { d with released := false }).latched := by
  cases w with
  | inner => exact ⟨without.symm, h.outer, h.granted, h.apart, h.consumed, h.barred⟩
  | outer => exact ⟨h.inner, without.symm, h.granted, h.apart, h.consumed, h.barred⟩

theorem outerSecured_unended (needs : List Nat) (s : State) : s.outerSecured needs false = (needs, s.unmark) := by
  simp only [State.outerSecured, Bool.false_and, Bool.false_eq_true, if_false]
  split <;> rfl

theorem closingLatch_latched (h : s.latched) : (s.closingLatch w).2.latched := by
  unfold State.closingLatch
  split
  · rename_i held
    split
    · exact endPossession_latched h held
    · exact h
  · rename_i not
    have without := Bool.eq_false_iff.2 not
    have engaged := engage_latched h without
    cases w with
    | inner => exact engaged
    | outer =>
      simp only [outerSecured_unended]
      exact unmark_latched engaged without

theorem closeDoor_latched (h : s.latched) : (s.closeDoor w).latched := by
  have closed := closingLatch_latched (w := w) (s := s.onDoor w fun d => { d with isOpen := false, openedAt := none })
    (onDoor_latched (fun _ => rfl) h)
  simp only [State.closeDoor]
  split
  · exact h
  split
  · exact arbitrate_latched (onDoor_latched (fun _ => rfl) closed)
  · exact closed

theorem heldDoor_latched (h : s.latched) : (s.heldDoor w).latched := by
  simp only [State.heldDoor]
  split
  · exact h
  split
  · exact onDoor_latched (fun _ => rfl) (notify_latched h)
  · exact h

theorem lapseLatch_latched (h : s.latched) : s.lapseLatch.latched := by
  simp only [State.lapseLatch]
  split
  · rename_i held grant
    split
    · exact arbitrate_latched (notify_latched (endPossession_latched h (holds_iff.2 ⟨held, grant⟩)))
    · exact h
  · exact h

end

end Sys2Proof.Machine
end

