-- ==== Sys2Proof/Proofs/LatchSteps.lean ====
section
/-! SUPPORT. Every step keeps the latches safe (R140, R143, R147, R148): the requests, the events, a restart and the input
scan. -/

namespace Sys2Proof.Machine

/-! ## Requests and events that leave the hatch unit -/

section
variable (h : ReqHead) (l : Label) (n : Nat) (s : State)

theorem answerStatus_hatch : (s.answerStatus h).hatch = s.hatch := by simp [State.answerStatus]
theorem subscribe_hatch (m : Byte) : (s.subscribe h m).hatch = s.hatch := by unfold State.subscribe; split <;> simp
theorem areaQuery_hatch : (s.areaQuery h n).hatch = s.hatch := by unfold State.areaQuery; split <;> simp
theorem setTime_hatch (c : Clock) : (s.setTime h c).hatch = s.hatch := by simp [State.setTime]
theorem setClimate_hatch (f : ClimateSettings) : (s.setClimate h n f).hatch = s.hatch := by
  unfold State.setClimate; (repeat' split) <;> simp
theorem clearClimateFlags_hatch : (s.clearClimateFlags h n).hatch = s.hatch := by
  unfold State.clearClimateFlags; split <;> simp
theorem follow_hatch {r : StoreRecord} {f : Followup} {now : State → State} {s : State}
    (kept : (now s).hatch = s.hatch) : (s.follow r f now).hatch = s.hatch := by
  unfold State.follow
  split
  · rfl
  · exact kept
theorem setDescriptor_hatch (i : Nat) (e : Option Bool) (v : Location) (len a : Nat) :
    (s.setDescriptor h i e v len a).hatch = s.hatch := by
  unfold State.setDescriptor
  split
  · simp
  split
  · simp
  split
  · simp
  split
  · exact (follow_hatch rfl).trans ((answer_hatch _ _ _ _ _ _).trans (persist_hatch _ _))
  · simp
theorem enrol_hatch (x : Location) : (s.enrol h l x).hatch = s.hatch := by
  unfold State.enrol; (repeat' split) <;> simp
theorem retire_hatch : (s.retire h l).hatch = s.hatch := by unfold State.retire; (repeat' split) <;> simp
theorem relocate_hatch (x : Location) : (s.relocate h l x).hatch = s.hatch := by
  unfold State.relocate; (repeat' split) <;> simp
theorem custodyQuery_hatch : (s.custodyQuery h l).hatch = s.hatch := by
  unfold State.custodyQuery; (repeat' split) <;> simp
theorem doseReset_hatch : (s.doseReset h l).hatch = s.hatch := by unfold State.doseReset; (repeat' split) <;> simp
theorem enqueue_hatch (p : Nat) (r : CustodyRecord) : (s.enqueue h p r).hatch = s.hatch := by simp [State.enqueue]
theorem checkout_hatch : (s.checkout h l).hatch = s.hatch := by
  unfold State.checkout; (repeat' split) <;> simp [enqueue_hatch]
theorem freeSlotOf_hatch (r : CustodyRecord) : (s.freeSlotOf r).hatch = s.hatch := by
  unfold State.freeSlotOf; split <;> simp
theorem cancel_hatch : (s.cancel h l).hatch = s.hatch := by
  unfold State.cancel; (repeat' split) <;> simp [freeSlotOf_hatch]
theorem placed_hatch : (s.placed h l n).hatch = s.hatch := by
  unfold State.placed State.placeInSlot; (repeat' split) <;> simp
theorem leaveOpenConsignment_hatch (r : CustodyRecord) (s : State) : (s.leaveOpenConsignment r).hatch = s.hatch := by
  unfold State.leaveOpenConsignment; (repeat' split) <;> simp
theorem shelve_hatch (p : Nat) (r : CustodyRecord) (x : Location) : (s.shelve h p r x).hatch = s.hatch := by
  simp [State.shelve, leaveOpenConsignment_hatch, freeSlotOf_hatch]
theorem shelved_hatch (x : Location) : (s.shelved h l x).hatch = s.hatch := by
  unfold State.shelved; (repeat' split) <;> simp [shelve_hatch]
theorem slotQuery_hatch : (s.slotQuery h n).hatch = s.hatch := by unfold State.slotQuery; split <;> simp
theorem setStaging_hatch (f : StagingFields) : (s.setStaging h f).hatch = s.hatch := by
  unfold State.setStaging
  split
  · simp
  split
  · simp
  · refine (follow_hatch (lapseOverdue_hatch _)).trans ?_
    split <;> simp
theorem consignAdd_hatch : (s.consignAdd h n l).hatch = s.hatch := by
  unfold State.consignAdd; (repeat' split) <;> simp
theorem consignRemove_hatch : (s.consignRemove h n l).hatch = s.hatch := by
  simp only [State.consignRemove]; (repeat' split) <;> simp
theorem consignQuery_hatch : (s.consignQuery h n).hatch = s.hatch := by
  unfold State.consignQuery; (repeat' split) <;> simp
theorem exchangeQuery_hatch : (s.exchangeQuery h).hatch = s.hatch := by unfold State.exchangeQuery; split <;> simp

theorem rezoneStep_hatch : s.rezoneStep.hatch = s.hatch := by
  unfold State.rezoneStep State.rezoneRecord
  simp only []
  (repeat' split) <;> simp
theorem rezoneEnd_hatch : s.rezoneEnd.hatch = s.hatch := by unfold State.rezoneEnd; (repeat' split) <;> simp
theorem discardFrame_hatch (p : Port) (bs : List LineByte) : (s.discardFrame p bs).hatch = s.hatch := by
  simp only [State.discardFrame]; split <;> simp
theorem beginRestart_hatch : s.beginRestart.hatch = s.hatch := by simp only [State.beginRestart]; split <;> simp
theorem frameEnd_hatch (p : Port) : (s.frameEnd p).hatch = s.hatch := by
  simp only [State.frameEnd, onLink_hatch]; split <;> simp [beginRestart_hatch]
theorem snapshotPoint_hatch : s.snapshotPoint.hatch = s.hatch := by unfold State.snapshotPoint; split <;> simp
theorem formatEnd_hatch : s.formatEnd.hatch = s.hatch := by unfold State.formatEnd; split <;> simp
theorem endFormatWrite_hatch : s.endFormatWrite.hatch = s.hatch := by
  unfold State.endFormatWrite; (repeat' split) <;> rfl
theorem sweepFallsDue_hatch : s.sweepFallsDue.hatch = s.hatch := by
  simp only [State.sweepFallsDue]; (repeat' split) <;> rfl
theorem beginRead_hatch : s.beginRead.hatch = s.hatch := by unfold State.beginRead; split <;> rfl
theorem limitRead_hatch : s.limitRead.hatch = s.hatch := by unfold State.limitRead; split <;> rfl
theorem endBusWait_hatch : s.endBusWait.hatch = s.hatch := by unfold State.endBusWait; (repeat' split) <;> rfl
theorem pickLapse_hatch (k : Fin 32) : (s.pickLapse k).hatch = s.hatch := by unfold State.pickLapse; split <;> simp

end

section
variable {s t : State} {h : ReqHead} {w : Side} {l : Label} {n : Nat} {needs : List Nat}

/-! ## The requests of the vault and of the consignments, whose changes are arbitrated (R11, R143) -/

theorem removeInner_latched (hs : s.latched) : s.removeInner.latched := by
  unfold State.removeInner
  split
  · exact notify_latched (withdraw_latched hs .inner)
  · exact hs

theorem actOnMode_latched {m : VaultMode} (hs : s.latched) : (s.actOnMode m).latched := by
  cases m with
  | staffed => exact dispatch_latched hs
  | unstaffed => exact removeInner_latched hs
  | maintenance => exact removeInner_latched hs

theorem setMode_latched {m : Option VaultMode} (hs : s.latched) : (s.setMode h m).latched := by
  unfold State.setMode
  split
  · exact refuse_latched hs
  split
  · exact answer_latched hs
  split
  · exact refuse_latched hs
  split
  · exact refuse_latched hs
  · rename_i m _ _ _
    have changed : State.latched { s with vault := { s.vault with mode := m } } := hs
    exact arbitrate_latched (actOnMode_latched (notify_latched (answer_latched changed)))

theorem answerConsign_latched {k : RequestKind} {rs : List StoreRecord} {d : ResponseData} {c : Consignment}
    (hs : s.latched) : (s.answerConsign h k rs d c).latched := arbitrate_latched (notify_latched (answer_latched hs))

theorem consignOpen_latched {courier expected : Nat} (hs : s.latched) : (s.consignOpen h courier expected).latched := by
  unfold State.consignOpen
  split
  · exact refuse_latched hs
  split
  · exact refuse_latched hs
  split
  · exact refuse_latched hs
  · rename_i i _
    have put := fun c => putConsign_latched (i := i) (c := c) hs
    exact answerConsign_latched (persist_latched (put _))

theorem consignSeal_latched (hs : s.latched) : (s.consignSeal h n).latched := by
  unfold State.consignSeal
  split
  · exact refuse_latched hs
  split
  · exact refuse_latched hs
  split
  · exact refuse_latched hs
  split
  · exact refuse_latched hs
  split
  · exact refuse_latched hs
  split
  · exact refuse_latched hs
  · exact answerConsign_latched (putConsign_latched hs)

theorem consignUnlock_latched (hs : s.latched) : (s.consignUnlock h n).latched := by
  unfold State.consignUnlock
  split
  · exact refuse_latched hs
  split
  · exact refuse_latched hs
  split
  · exact refuse_latched hs
  split
  · exact answerConsign_latched (putConsign_latched hs)
  · exact refuse_latched hs

theorem unbind_latched (hs : s.latched) : (s.unbind n l).latched := by
  unfold State.unbind
  split
  · split
    · exact putRecord_latched hs
    · exact hs
  · exact hs

theorem consignCancel_latched (hs : s.latched) : (s.consignCancel h n).latched := by
  unfold State.consignCancel
  split
  · exact refuse_latched hs
  split
  · exact refuse_latched hs
  split
  · exact refuse_latched hs
  split
  · exact refuse_latched hs
  split
  · exact refuse_latched hs
  · exact answerConsign_latched (putConsign_latched (foldl_invariant _ State.latched (fun _ _ => unbind_latched) _ _ hs))

/-! ## HATCH_REQUEST and HATCH_RELEASE (R141, R146) -/

theorem answerHatch_latched (hs : s.latched) : (s.answerHatch h w).latched := by
  have given := arbitration_latched hs
  unfold State.answerHatch
  split <;> rename_i same <;> rw [same] at given
  · exact answer_latched given
  · exact notify_latched (answer_latched given)

/-- A request becomes pending only of a side without possession, and while the hatch is not fire-blocked (R141). -/
theorem pending_latched {f : Arbiter → Arbiter} (hs : s.latched) (open_ : s.fire.blocked = false)
    (possession : (f s.hatch.arbiter).possession = s.hatch.arbiter.possession := by rfl)
    (grant : (f s.hatch.arbiter).grant = s.hatch.arbiter.grant := by rfl)
    (consumed : ∀ v, s.hatch.arbiter.holds v = true → (f s.hatch.arbiter).pends v = false) : (s.onArbiter f).latched := by
  have holds := holds_congr possession grant
  refine ⟨hs.inner.trans (holds _).symm, hs.outer.trans (holds _).symm, fun held => ?_, fun opened => ?_, fun v held => ?_,
    fun blocked => ?_⟩
  · exact (congrArg Option.isSome grant).trans (hs.granted (possession.symm.trans held))
  · exact (holds _).trans (hs.apart opened)
  · exact consumed v ((holds v).symm.trans held)
  · exact absurd (open_.symm.trans blocked) (by simp)

theorem innerRequest_latched {x : PurposeField} (hs : s.latched) : (s.innerRequest h x).latched := by
  unfold State.innerRequest
  split
  · exact refuse_latched hs
  split
  · exact refuse_latched hs
  split
  · exact refuse_latched hs
  rename_i open_
  split
  · exact refuse_latched hs
  rename_i free
  split
  · exact refuse_latched hs
  · refine answerHatch_latched (pending_latched hs (Bool.eq_false_iff.2 open_) (consumed := fun v held => ?_))
    cases v
    · exact absurd (.inr held) free
    · exact hs.consumed .outer held

theorem outerRequest_latched (hs : s.latched) : (s.outerRequest h).latched := by
  unfold State.outerRequest
  split
  · exact refuse_latched hs
  split
  · exact refuse_latched hs
  rename_i open_
  split
  · exact refuse_latched hs
  rename_i free
  split
  · exact refuse_latched hs
  · refine answerHatch_latched (pending_latched hs (Bool.eq_false_iff.2 open_) (consumed := fun v held => ?_))
    cases v
    · exact hs.consumed .inner held
    · exact absurd (.inr held) free

theorem hatchRequest_latched {x : PurposeField} (hs : s.latched) : (s.hatchRequest h x).latched := by
  unfold State.hatchRequest
  split
  · exact innerRequest_latched hs
  · exact outerRequest_latched hs
  · exact hs

theorem releaseSide_latched (hs : s.latched) : (s.releaseSide h w).latched := by
  have answered := answer_latched (q := h) (k := .hatchRelease) (needs := []) (c := .ok) (d := .none) hs
  simp only [State.releaseSide]
  split
  · rename_i held
    split
    · exact releasePending_latched answered
    · exact arbitrate_latched (endPossession_latched answered held)
  · exact withdraw_latched answered w

theorem hatchRelease_latched (hs : s.latched) : (s.hatchRelease h).latched := by
  unfold State.hatchRelease
  split
  · exact releaseSide_latched hs
  · exact releaseSide_latched hs
  · exact hs

/-! ## LOADED and UNLOADED (R150 to R153) -/

theorem freeSlotOf_latched {r : CustodyRecord} (hs : s.latched) : (s.freeSlotOf r).latched :=
  latched_of_parts hs (freeSlotOf_hatch s r) (freeSlotOf_parts r s)

theorem loadEntry_latched {p : Nat} {r : CustodyRecord} (hs : s.latched) : (s.loadEntry h p r n).latched :=
  arbitrate_latched (dispatch_latched (testNumber_latched (answer_latched (putRecord_latched (putEntries_latched
    (freeSlotOf_latched hs))))))

theorem loaded_latched (hs : s.latched) : (s.loaded h l).latched := by
  unfold State.loaded
  split
  · exact refuse_latched hs
  split
  · exact refuse_latched hs
  split
  · exact refuse_latched hs
  split
  · exact refuse_latched hs
  split
  · exact refuse_latched hs
  split
  · exact refuse_latched hs
  split
  · exact refuse_latched hs
  split
  · exact refuse_latched hs
  · exact loadEntry_latched hs

theorem closeReturned_latched (hs : s.latched) : (s.closeReturned needs n).2.latched := by
  unfold State.closeReturned
  split
  · exact hs
  split
  · exact notify_latched (putConsign_latched hs)
  · exact hs

theorem unloadEntry_latched {p : Nat} {r : CustodyRecord} {e : HatchEntry} {k : Fin 32} (hs : s.latched) :
    (s.unloadEntry h p r e k).latched := by
  have moved := fun es x r' d => answer_latched (q := h) (k := .unloaded) (needs := State.awaits [.custody p]
    (((s.putEntries es).putSlot k x).putRecord p r')) (c := .ok) (d := d)
    (putRecord_latched (p := p) (r := r') (putSlot_latched (n := k) (x := x) (putEntries_latched (es := es) hs)))
  unfold State.unloadEntry
  cases e.direction with
  | outbound => exact arbitrate_latched (closeReturned_latched (testNumber_latched (moved _ _ _ _)))
  | inbound => exact arbitrate_latched (closeReturned_latched (moved _ _ _ _))

theorem unloaded_latched (hs : s.latched) : (s.unloaded h l).latched := by
  unfold State.unloaded
  split
  · exact refuse_latched hs
  split
  · exact refuse_latched hs
  split
  · exact refuse_latched hs
  split
  · exact refuse_latched hs
  split
  · exact refuse_latched hs
  split
  · exact refuse_latched hs
  · exact unloadEntry_latched hs

/-! ## The exchange (R158 to R167) -/

theorem mismatch_latched {i : Fin 16} {c : Consignment} {code : ResultCode} (hs : s.latched) :
    (s.mismatch h i c code).latched := by
  have answered := fun needs => answer_latched (q := h) (k := .arrive) (needs := needs) (c := code) (d := .none)
    (putConsign_latched (i := i) (c := c.mismatched) hs)
  simp only [State.mismatch]
  split
  · exact arbitrate_latched (notify_latched (answered _))
  · exact answered _

theorem openExchange_latched {i : Fin 16} {c : Consignment} (hs : s.latched)
    (without : s.hatch.arbiter.holds .inner = false) : (s.openExchange h i c).latched := by
  have opened := fun c' x => withExchange_latched (x := x) (putConsign_latched (i := i) (c := c') hs)
    fun _ => by rw [putConsign_hatch]; exact without
  exact arbitrate_latched (notify_latched (answer_latched (opened _ _)))

theorem arrive_latched {c : Nat} {x : Word16} (hs : s.latched) : (s.arrive h n c x).latched := by
  unfold State.arrive
  split
  · exact refuse_latched hs
  split
  · exact refuse_latched hs
  split
  · exact refuse_latched hs
  split
  · exact refuse_latched hs
  split
  · exact refuse_latched hs
  split
  · exact refuse_latched hs
  split
  · exact refuse_latched hs
  rename_i free
  split
  · exact refuse_latched hs
  split
  · exact mismatch_latched hs
  split
  · exact mismatch_latched hs
  · exact openExchange_latched hs (Bool.eq_false_iff.2 fun held => free (.inr held))

theorem takeEntry_latched {p : Nat} {r : CustodyRecord} {x : Exchange} {i : Fin 16} {c : Consignment} (hs : s.latched)
    (opened : s.hatch.exchange = some x) : (s.takeEntry h p r x i c).latched := by
  have moved := fun es r' c' => putConsign_latched (i := i) (c := c') (putRecord_latched (p := p) (r := r')
    (putEntries_latched (es := es) hs))
  refine answer_latched (withExchange_latched (moved _ _ _) fun _ => ?_)
  simpa using latched_apart hs opened

theorem taken_latched (hs : s.latched) : (s.taken h l).latched := by
  unfold State.taken
  split
  · exact refuse_latched hs
  split
  · exact refuse_latched hs
  split
  · exact refuse_latched hs
  split
  · exact refuse_latched hs
  rename_i reports
  split
  · split
    · exact refuse_latched hs
    · exact takeEntry_latched hs (reporting_eq_some_iff.1 reports).1
  · exact refuse_latched hs

theorem depositEntry_latched {p : Nat} {old : Option CustodyRecord} {x : Exchange} {i : Fin 16} {c : Consignment}
    (hs : s.latched) (opened : s.hatch.exchange = some x) : (s.depositEntry h l p old x i c).latched := by
  have without := latched_apart hs opened
  cases old with
  | some r =>
    have moved := fun es r' c' => putConsign_latched (i := i) (c := c') (putRecord_latched (p := p) (r := r')
      (putEntries_latched (es := es) hs))
    refine arbitrate_latched (answer_latched (withExchange_latched (moved _ _ _) fun _ => ?_))
    simpa using without
  | none =>
    have moved := fun es r' c' => putConsign_latched (i := i) (c := c') (createRecord_latched (p := p) (r := r')
      (putEntries_latched (es := es) hs))
    refine arbitrate_latched (answer_latched (withExchange_latched (moved _ _ _) fun _ => ?_))
    simpa using without

theorem deposited_latched (hs : s.latched) : (s.deposited h l).latched := by
  unfold State.deposited
  split
  · exact refuse_latched hs
  split
  · exact refuse_latched hs
  split
  · exact refuse_latched hs
  rename_i reports
  have opened := (reporting_eq_some_iff.1 reports).1
  split
  · exact refuse_latched hs
  split
  · exact refuse_latched hs
  split
  · exact refuse_latched hs
  split
  · split
    · exact depositEntry_latched hs opened
    · exact refuse_latched hs
  · split
    · exact depositEntry_latched hs opened
    · exact refuse_latched hs

theorem dropExchange_latched {x : Exchange} (hs : s.latched) : (s.dropExchange x).latched := by
  have ended : (if s.hatch.arbiter.holds .outer then (s.endPossession [] .outer).2 else s).latched := by
    split
    · rename_i held
      exact endPossession_latched hs held
    · exact hs
  have dropped := withExchange_latched (x := none) (withdraw_latched ended .outer) nofun
  simp only [State.dropExchange]
  split
  · exact arbitrate_latched dropped
  · exact arbitrate_latched (emit_latched (putConsign_latched dropped))

theorem timeOutExchange_latched (hs : s.latched) : s.timeOutExchange.latched := by
  unfold State.timeOutExchange
  split
  · exact hs
  split
  · exact dropExchange_latched hs
  · exact hs

/-! ## The fire unit's requests (R40, R51 to R59) -/

theorem setFireArea_latched {c : Option Coincidence} {delay vent : Nat} (hs : s.latched) :
    (s.setFireArea h n c delay vent).latched := by
  simp only [State.setFireArea]
  split
  · exact refuse_latched hs
  split
  · split
    · exact refuse_latched hs
    · exact answer_latched (persist_latched (onFireArea_latched (fun _ => rfl) hs))
  · exact refuse_latched hs

theorem setFireDetector_latched {x : AssignField} {p : Option Polarity} (hs : s.latched) :
    (s.setFireDetector h n x p).latched := by
  simp only [State.setFireDetector]
  split
  · exact refuse_latched hs
  split
  · split
    · exact refuse_latched hs
    · rename_i d g _ _ _
      have set : (s.onDetector d (DetectorRecord.withSettings g)).updateTrouble.latched := hs
      exact follow_latched (answer_latched (persist_latched set)) evaluateAfresh_latched
  · exact refuse_latched hs

theorem recharged_latched (hs : s.latched) : (s.recharged h n).latched := by
  simp only [State.recharged]
  split
  · exact refuse_latched hs
  split
  · exact refuse_latched hs
  split
  · exact refuse_latched hs
  split
  · exact answer_latched (persist_latched (onFireArea_latched (fun _ => rfl) hs))
  · exact answer_latched hs

theorem isolate_latched {on : Option Bool} (hs : s.latched) : (s.isolate h n on).latched := by
  simp only [State.isolate]
  split
  · rename_i d _ _
    have cleared := onDetector_latched (d := d) (f := fun x => { x with retake := false }) hs
    refine answer_latched ?_
    split
    · exact changeDetector_latched cleared
    · split
      · exact alarmEntry_latched (changeDetector_latched cleared)
      · exact changeDetector_latched cleared
    · exact cleared
    · exact cleared
  · exact refuse_latched hs

theorem confirmArea_latched (hs : s.latched) : (s.confirmArea h n).latched := by
  unfold State.confirmArea
  split
  · exact refuse_latched hs
  split
  · exact answer_latched (enterCountdown_latched hs)
  · exact refuse_latched hs

theorem resetArea_latched (hs : s.latched) : (s.resetArea h n).latched := by
  simp only [State.resetArea]
  split
  · exact refuse_latched hs
  split
  · exact answer_latched hs
  · exact answer_latched (returnToQuiet_latched hs)
  · exact refuse_latched hs
  · exact answer_latched (returnToQuiet_latched hs)
  · exact answer_latched (ventArea_latched hs)
  · exact refuse_latched hs

/-! ## The format and the end of a write (R179, R184) -/

theorem blanked_latched (hs : s.latched) : s.blanked.latched := by
  have blocked : s.blanked.fire.blocked = s.fire.blocked := blocked_congr fun a => by rw [blanked_area]; rfl
  unfold State.latched
  rw [blocked]
  exact hs

theorem updateTrouble_latched (hs : s.latched) : s.updateTrouble.latched := hs

theorem defaultDetectors_latched (hs : s.latched) : s.defaultDetectors.latched := by
  rw [defaultDetectors_eq]
  exact foldl_invariant _ State.latched (fun _ _ => changeDetector_latched) _ _ (latched_congr hs rfl rfl)

/-- A format's effect leaves the doors, the arbiter and the fire states; the entries into ALARM behind it act on them. -/
theorem emptyBlocks_latched (hs : s.latched) : s.emptyBlocks.latched := by
  rw [emptyBlocks_eq]
  exact foldl_invariant _ State.latched (fun _ _ => alarmAfresh_latched) _ _
    (updateTrouble_latched (defaultDetectors_latched (blanked_latched hs)))

theorem startFormat_latched (hs : s.latched) : s.startFormat.latched :=
  emptyBlocks_latched (latched_congr hs rfl rfl)

theorem formatRequest_latched (hs : s.latched) : (s.formatRequest h).latched := by
  simp only [State.formatRequest]
  split
  · exact refuse_latched hs
  split
  · exact refuse_latched hs
  split
  · exact refuse_latched hs
  · have marked : State.latched { s with store := { s.store with format := .marking } } := hs
    exact follow_latched (answer_latched (persist_latched marked)) startFormat_latched

theorem followUp_latched {f : Followup} (hs : s.latched) : (s.followUp f).latched := by
  cases f with
  | sweep k => exact hs
  | evaluate d latched => exact evaluateAfresh_latched hs
  | lapses => exact latched_congr hs (lapseOverdue_hatch s) (by rw [State.followUp, lapseOverdue_fire])
  | format => exact startFormat_latched hs

theorem startPulse_latched {a : Area} (hs : s.latched) : (s.startPulse a).latched :=
  onFireArea_latched (f := fun x => { x with pulse := some s.vault.uptime }) (fun _ => rfl) hs

theorem startPulses_latched {ticket : Nat} (hs : s.latched) : (s.startPulses ticket).latched :=
  foldl_invariant _ State.latched (fun _ _ => startPulse_latched) _ _ (latched_congr hs rfl rfl)

theorem releaseOutputs_latched {ticket : Nat} (hs : s.latched) : (s.releaseOutputs ticket).latched :=
  latched_of_parts hs (by rw [releaseOutputs_eq]) (releaseOutputs_parts ticket s)

theorem endWrite_latched {j : Job} (hs : s.latched) : (s.endWrite j).latched :=
  releaseOutputs_latched (startPulses_latched (latched_congr hs rfl rfl))

theorem endFollowups_latched {ticket : Nat} (hs : s.latched) : (s.endFollowups ticket).latched :=
  foldl_invariant _ State.latched (fun _ _ => followUp_latched) _ _ (latched_congr hs rfl rfl)

theorem writeEnd_latched (hs : s.latched) : s.writeEnd.latched := by
  unfold State.writeEnd
  split
  · exact endFollowups_latched (endWrite_latched hs)
  · exact latched_of_parts hs (endFormatWrite_hatch s) (endFormatWrite_parts s)

/-! ## The link unit and the sensors -/

theorem validFrame_latched {p : Port} (hs : s.latched) : (s.validFrame p).latched := latched_congr hs (by simp) (by simp)

theorem loseLink_latched (hs : s.latched) : s.loseLink.latched := by
  unfold State.loseLink
  split
  · exact postNotice_latched hs
  · exact hs

/-- A Staging sample event changes the hatch unit in its arbitration alone (R119, R143). -/
theorem stageSample_latched (hs : s.latched) : s.stageSample.latched := by
  have flips : ∀ t : State, (slotNumbers.foldl State.flipSlot ([], t)).2.hatch = t.hatch ∧
      (slotNumbers.foldl State.flipSlot ([], t)).2.fire = t.fire := fun t =>
    ⟨foldl_keeps _ (fun x => x.2.hatch) (flipSlot_keeps State.hatch putRecord_hatch notify_hatch) slotNumbers ([], t),
      foldl_keeps _ (fun x => x.2.fire) (flipSlot_keeps State.fire putRecord_fire notify_fire) slotNumbers ([], t)⟩
  have tested : ∀ is f, ((slotNumbers.foldl State.flipSlot ([], s.mapSlots f)).2.testPlaces
      (slotNumbers.foldl State.flipSlot ([], s.mapSlots f)).1 is).2.latched := fun is f =>
    latched_congr hs (by rw [testPlaces_hatch, (flips _).1, mapSlots_hatch])
      (by rw [testPlaces_fire, (flips _).2, mapSlots_fire])
  simp only [State.stageSample]
  split
  · exact tested _ _
  · exact arbitrate_latched (tested _ _)

theorem hatchSample_latched {f : HatchEntry → HatchEntry} (hs : s.latched) : (s.hatchSample f).latched := by
  rw [hatchSample_eq]
  split
  · exact arbitrate_latched (latched_withEntries hs)
  · exact latched_withEntries hs

theorem handUnits_latched {g : ClimateUnit} {c : Channel} (hs : s.latched) : (s.handUnits g c).latched := by
  unfold State.handUnits
  split
  · exact hs
  · exact hs
  · exact stageSample_latched hs
  · exact hatchSample_latched hs
  · exact hatchSample_latched (s := s.mapSlots _) hs

theorem sensed_fire_areas (c : Channel) (v : Option Held) (s : State) : (s.sensed c v).fire.areas = s.fire.areas := by
  cases c with
  | area a => rw [sensed_area]
  | outside => rw [sensed_outside]

theorem sample_latched {c : Channel} {v : Option Held} (hs : s.latched) : (s.sample c v).latched := by
  have sensed : (s.sensed c v).latched := latched_congr hs (by rw [sensed_frame]) (sensed_fire_areas c v s)
  rw [sample_eq, nextRead_eq]
  exact handUnits_latched sensed

theorem sampleOf_latched {reading : SensorReading} (hs : s.latched) : (s.sampleOf reading).latched := by
  unfold State.sampleOf
  split
  · exact sample_latched (s := s.drive _) hs
  · exact sample_latched hs
  · exact hs
  · exact hs

/-! ## A restart (R156) -/

/-- A restart leaves both latches engaged, no possession and nothing pending. -/
theorem restart_latched (cause : Cause) (st : Store) (pending : List Instr) (x : Inputs) :
    (State.restart cause st pending x).latched := by
  unfold State.latched State.latchedAt
  rw [restart_hatch, recovered_eq]
  exact .of_parked ⟨rfl, rfl⟩ rfl fun _ v => by cases v <;> rfl

theorem riseReset_latched (bad : List StoreCopy) (s : State) : (s.riseReset bad).latched := by
  unfold State.riseReset
  exact restart_latched _ _ _ _

theorem takeRestart_latched {bad : List StoreCopy} (hs : s.latched) : (s.takeRestart bad).latched := by
  unfold State.takeRestart
  split
  · exact restart_latched _ _ _ _
  · exact hs

/-! ## The input scan (R37) -/

theorem scanDetector_latched {x : Inputs} {d : Detector} (hs : s.latched) : (s.scanDetector x d).latched :=
  detectorLines_latched hs

theorem scanCall_latched {x : Inputs} {a : Area} (hs : s.latched) : (s.scanCall x a).latched := by
  unfold State.scanCall
  split
  · exact callPointOn_latched hs
  · exact callPointOff_latched hs

theorem scanAbort_latched {x : Inputs} (hs : s.latched) : (s.scanAbort x).latched := by
  unfold State.scanAbort
  split
  · exact abortOn_latched hs
  · exact abortOff_latched hs

theorem scanContact_latched {x : Inputs} (hs : s.latched) : (s.scanContact x w).latched := by
  unfold State.scanContact
  split
  · exact openDoor_latched hs
  · exact closeDoor_latched hs

theorem scan_latchSafe (safe : s.latchSafe = true) : s.scan.latchSafe = true := by
  have latched := (latchSafe_iff s).1 safe
  unfold State.scan
  split
  · exact safe
  · rename_i stopped
    simp only []
    split
    · exact latchSafe_of_latched (riseReset_latched _ _)
    · exact latchSafe_of_not_running (by simp [stopped])
  · rename_i running
    have sampled : (s.onInputs Inputs.scan).latched := latched_congr (latched running) rfl rfl
    have detectors := foldl_invariant (State.scanDetector s.inputs) State.latched (fun _ _ => scanDetector_latched)
      Detector.all _ sampled
    have calls := foldl_invariant (State.scanCall s.inputs) State.latched (fun _ _ => scanCall_latched) Area.all _ detectors
    have contacts := foldl_invariant (State.scanContact s.inputs) State.latched (fun _ _ => scanContact_latched)
      [Side.inner, Side.outer] _ (scanAbort_latched (x := s.inputs) calls)
    simp only [State.scanReset]
    split
    · exact latchSafe_of_latched (retakeInputs_latched contacts)
    · exact latchSafe_of_not_running (by rw [resetLow_power]; decide)

/-! ## Settled pins (log 6) -/

theorem detectorChange_latched {d : Detector} {al fl : Level} (hs : s.latched) : (s.detectorChange d al fl).latched := by
  simp only [State.detectorChange]
  split
  · exact hs
  · exact detectorLines_latched hs

/-- A command of a debounced change, which settles the pin of its input and acts where the input stood otherwise. -/
theorem debounced_latched {c : Bool} {f : Inputs → Inputs} {act : State → State} (hs : s.latched)
    (keeps : ∀ u : State, u.latched → (act u).latched) :
    (if c then s else act (s.onInputs f)).latched ∧ (if c then act (s.onInputs f) else s).latched := by
  have acted := keeps (s.onInputs f) hs
  cases c with
  | true => exact ⟨hs, acted⟩
  | false => exact ⟨acted, hs⟩

/-! ## The commands -/

theorem event_latchSafe {act : State → State} (safe : s.latchSafe = true) (keeps : s.latched → (act s).latched) :
    (s.event act).latchSafe = true := by
  unfold State.event
  split
  · rename_i running
    exact latchSafe_of_latched (keeps ((latchSafe_iff s).1 safe running))
  · exact safe

/-- An event that leaves the hatch unit and the common outputs with their causes. -/
theorem event_kept_latchSafe {act : State → State} (safe : s.latchSafe = true) (hatch : ∀ u, (act u).hatch = u.hatch)
    (parts : ∀ u, (act u).outputParts = u.outputParts) : (s.event act).latchSafe = true :=
  event_latchSafe safe fun hs => latched_of_parts hs (hatch s) (parts s)

theorem event_stops_latchSafe {act : State → State} (safe : s.latchSafe = true) (stops : ∀ u, (act u).power = .stopped) :
    (s.event act).latchSafe = true := by
  unfold State.event
  split
  · exact latchSafe_of_not_running (by rw [stops]; decide)
  · exact safe

theorem request_latchSafe {k : RequestKind} {named : Bool} {owner : State → State} (safe : s.latchSafe = true)
    (keeps : ∀ u : State, u.latched → (owner u).latched) : (s.request h k named owner).latchSafe = true := by
  unfold State.request
  split
  · rename_i running
    have taken := validFrame_latched (p := h.port) ((latchSafe_iff s).1 safe running)
    simp only []
    split
    · exact latchSafe_of_latched taken
    · exact latchSafe_of_latched (keeps _ taken)
  · exact safe

/-- A request whose owner leaves the hatch unit and the common outputs with their causes. -/
theorem request_kept_latchSafe {k : RequestKind} {named : Bool} {owner : State → State} (safe : s.latchSafe = true)
    (hatch : ∀ u, (owner u).hatch = u.hatch) (parts : ∀ u, (owner u).outputParts = u.outputParts) :
    (s.request h k named owner).latchSafe = true :=
  request_latchSafe safe fun u hu => latched_of_parts hu (hatch u) (parts u)

theorem exec_latchSafe {c : Instr} (safe : s.latchSafe = true) (he : exec c s = .next t) : t.latchSafe = true := by
  cases c
  case powerOn bad => cases he; exact latchSafe_of_latched (restart_latched _ _ _ _)
  case resetLineLow => cases he; exact event_stops_latchSafe safe fun _ => resetLow_power _
  case resetLineHigh bad =>
    cases he
    split
    · exact latchSafe_of_latched (riseReset_latched _ _)
    · exact safe
  case restartTaken bad => cases he; exact event_latchSafe safe takeRestart_latched
  case status h => cases he; exact request_kept_latchSafe safe (answerStatus_hatch h) (answerStatus_parts h)
  case subscribe h m => cases he; exact request_kept_latchSafe safe (subscribe_hatch h · m) (subscribe_parts h m)
  case areaQuery h n => cases he; exact request_kept_latchSafe safe (areaQuery_hatch h n) (areaQuery_parts h n)
  case setMode h m => cases he; exact request_latchSafe safe fun _ => setMode_latched
  case setTime h c => cases he; exact request_kept_latchSafe safe (setTime_hatch h · c) (setTime_parts h c)
  case setDescriptor h i e v n a =>
    cases he; exact request_kept_latchSafe safe (setDescriptor_hatch h · i e v n a) (setDescriptor_parts h i e v n a)
  case setClimate h n f => cases he; exact request_kept_latchSafe safe (setClimate_hatch h n · f) (setClimate_parts h n f)
  case clearClimateFlags h n =>
    cases he; exact request_kept_latchSafe safe (clearClimateFlags_hatch h n) (clearClimateFlags_parts h n)
  case setFireArea h n c d v => cases he; exact request_latchSafe safe fun _ => setFireArea_latched
  case setFireDetector h n a p => cases he; exact request_latchSafe safe fun _ => setFireDetector_latched
  case recharged h n => cases he; exact request_latchSafe safe fun _ => recharged_latched
  case isolate h n x => cases he; exact request_latchSafe safe fun _ => isolate_latched
  case confirmArea h n => cases he; exact request_latchSafe safe fun _ => confirmArea_latched
  case resetArea h n => cases he; exact request_latchSafe safe fun _ => resetArea_latched
  case format h => cases he; exact request_latchSafe safe fun _ => formatRequest_latched
  case restart h => cases he; exact request_latchSafe safe fun _ => answer_latched
  case enrol h l x => cases he; exact request_kept_latchSafe safe (enrol_hatch h l · x) (enrol_parts h l x)
  case retire h l => cases he; exact request_kept_latchSafe safe (retire_hatch h l) (retire_parts h l)
  case relocate h l x => cases he; exact request_kept_latchSafe safe (relocate_hatch h l · x) (relocate_parts h l x)
  case custodyQuery h l => cases he; exact request_kept_latchSafe safe (custodyQuery_hatch h l) (custodyQuery_parts h l)
  case doseReset h l => cases he; exact request_kept_latchSafe safe (doseReset_hatch h l) (doseReset_parts h l)
  case checkout h l => cases he; exact request_kept_latchSafe safe (checkout_hatch h l) (checkout_parts h l)
  case cancel h l => cases he; exact request_kept_latchSafe safe (cancel_hatch h l) (cancel_parts h l)
  case placed h l n => cases he; exact request_kept_latchSafe safe (placed_hatch h l n) (placed_parts h l n)
  case shelved h l x => cases he; exact request_kept_latchSafe safe (shelved_hatch h l · x) (shelved_parts h l x)
  case slotQuery h n => cases he; exact request_kept_latchSafe safe (slotQuery_hatch h n) (slotQuery_parts h n)
  case setStaging h f => cases he; exact request_kept_latchSafe safe (setStaging_hatch h · f) (setStaging_parts h f)
  case consignOpen h a b => cases he; exact request_latchSafe safe fun _ => consignOpen_latched
  case consignAdd h n l => cases he; exact request_kept_latchSafe safe (consignAdd_hatch h l n) (consignAdd_parts h n l)
  case consignRemove h n l =>
    cases he; exact request_kept_latchSafe safe (consignRemove_hatch h l n) (consignRemove_parts h n l)
  case consignSeal h n => cases he; exact request_latchSafe safe fun _ => consignSeal_latched
  case consignCancel h n => cases he; exact request_latchSafe safe fun _ => consignCancel_latched
  case consignUnlock h n => cases he; exact request_latchSafe safe fun _ => consignUnlock_latched
  case consignQuery h n => cases he; exact request_kept_latchSafe safe (consignQuery_hatch h n) (consignQuery_parts h n)
  case hatchRequest h p => cases he; exact request_latchSafe safe fun _ => hatchRequest_latched
  case hatchRelease h => cases he; exact request_latchSafe safe fun _ => hatchRelease_latched
  case loaded h l => cases he; exact request_latchSafe safe fun _ => loaded_latched
  case unloaded h l => cases he; exact request_latchSafe safe fun _ => unloaded_latched
  case arrive h n c w => cases he; exact request_latchSafe safe fun _ => arrive_latched
  case taken h l => cases he; exact request_latchSafe safe fun _ => taken_latched
  case deposited h l => cases he; exact request_latchSafe safe fun _ => deposited_latched
  case exchangeQuery h => cases he; exact request_kept_latchSafe safe (exchangeQuery_hatch h) (exchangeQuery_parts h)
  case unknownRequestKind h k => cases he; exact request_latchSafe safe fun _ hu => hu
  case rezoneSweepStep => cases he; exact event_kept_latchSafe safe rezoneStep_hatch rezoneStep_parts
  case rezoneDone => cases he; exact event_kept_latchSafe safe rezoneEnd_hatch rezoneEnd_parts
  case formatDone => cases he; exact event_kept_latchSafe safe formatEnd_hatch formatEnd_parts
  case nonRequestFrame p k => cases he; exact event_latchSafe safe validFrame_latched
  case frameDiscarded p bs => cases he; exact event_kept_latchSafe safe (discardFrame_hatch · p bs) (discardFrame_parts p bs)
  case interByteGapTimeout p => cases he; exact event_latchSafe safe fun hs => hs
  case frameTransmitEnd p => cases he; exact event_kept_latchSafe safe (frameEnd_hatch · p) (frameEnd_parts p)
  case facilityLinkLost => cases he; exact event_latchSafe safe loseLink_latched
  case storeWriteEnd => cases he; exact event_latchSafe safe writeEnd_latched
  case clockSnapshot => cases he; exact event_kept_latchSafe safe snapshotPoint_hatch snapshotPoint_parts
  case sweepDue => cases he; exact event_kept_latchSafe safe sweepFallsDue_hatch sweepFallsDue_parts
  case sensorReadStart => cases he; exact event_kept_latchSafe safe beginRead_hatch beginRead_parts
  case readTimeLimit => cases he; exact event_kept_latchSafe safe limitRead_hatch limitRead_parts
  case busWaitTimeout => cases he; exact event_kept_latchSafe safe endBusWait_hatch endBusWait_parts
  case sampleEvent r => cases he; exact event_latchSafe safe sampleOf_latched
  case detectorLineChange d al fl => cases he; exact event_latchSafe safe detectorChange_latched
  case callPointOperated a =>
    cases he; exact event_latchSafe safe fun hs => (debounced_latched hs fun _ => callPointOn_latched).1
  case callPointInactive a =>
    cases he; exact event_latchSafe safe fun hs => (debounced_latched hs fun _ => callPointOff_latched).2
  case abortHoldActive => cases he; exact event_latchSafe safe fun hs => (debounced_latched hs fun _ => abortOn_latched).1
  case abortHoldReleased => cases he; exact event_latchSafe safe fun hs => (debounced_latched hs fun _ => abortOff_latched).2
  case retakeAtScan => cases he; exact event_latchSafe safe retakeInputs_latched
  case dischargeDelayExpiry a => cases he; exact event_latchSafe safe dischargeArea_latched
  case releasePulseEnd a => cases he; exact event_latchSafe safe endPulse_latched
  case ventTimeExpiry a => cases he; exact event_latchSafe safe ventEnd_latched
  case doorOpened d => cases he; exact event_latchSafe safe fun hs => (debounced_latched hs fun _ => openDoor_latched).1
  case doorClosed d => cases he; exact event_latchSafe safe fun hs => (debounced_latched hs fun _ => closeDoor_latched).2
  case doorHeld d => cases he; exact event_latchSafe safe heldDoor_latched
  case latchLapse => cases he; exact event_latchSafe safe lapseLatch_latched
  case pickLapsed n => cases he; exact event_kept_latchSafe safe (pickLapse_hatch · n) (pickLapse_parts n)
  case exchangeTimeout => cases he; exact event_latchSafe safe timeOutExchange_latched
  case timeBaseSecond => cases he; exact event_latchSafe safe fun hs => hs
  case lossOfSupply => cases he; exact latchSafe_of_not_running (by rw [loseSupply_power]; decide)

/-- Taking a command off the queue, and the idle transmitters' next frames, leave the hatch unit. -/
theorem step_latchSafe (safe : s.latchSafe = true) (he : step s = .next t) : t.latchSafe = true := by
  unfold step at he
  split at he
  · cases he
    refine scan_latchSafe ((latchSafe_iff _).2 fun running => ?_)
    rw [startTransmitters_power] at running
    exact latched_congr ((latchSafe_iff s).1 safe running) (startTransmitters_hatch s) (by rw [startTransmitters_fire])
  · exact exec_latchSafe (by exact safe) he

end

/-- Settles O57: every command's act, and the input scan, keeps the latches safe; and latches that are safe are not both
RELEASED, since one side at most holds possession. -/
theorem stepsKeepTheLatchesSafe : Obligations.StepsKeepTheLatchesSafe :=
  fun _ t safe he =>
    have kept := step_latchSafe safe he
    ⟨kept, fun running => latched_not_both ((latchSafe_iff t).1 kept running)⟩

end Sys2Proof.Machine
end

