-- ==== Sys2Proof/Proofs/HatchRequests.lean ====
section
/-! SUPPORT. HATCH_REQUEST and HATCH_RELEASE: the checks of each side, what a pending request is answered, and what a
release calls for (R141, R146). -/

namespace Sys2Proof.Machine

section
variable {h : ReqHead} {s : State} {f : PurposeField} {p : Purpose} {n : Nat} {i : Fin 16} {x : Consignment} {w : Side}

/-- A pending request is answered GRANTED, with HATCH_GRANTED behind the response, as its arbitration gives (R141). -/
theorem next_answerHatch (w : Side) (s : State) :
    (Host.Outcome.next (s.answerHatch h w) : Host.Outcome State Fault Refusal) = match s.arbitration with
      | (t, none) => Host.Outcome.next (t.answer h .hatchRequest [] .ok (.hatch false))
      | (t, some v) => Host.Outcome.next ((t.answer h .hatchRequest [] .ok (.hatch (v == w))).notify [] (.hatchGranted v)) := by
  unfold State.answerHatch
  obtain ⟨t, _ | v⟩ := s.arbitration
  · rfl
  · rfl

/-! ## The purpose that an inner request names -/

/-- A purpose field names a purpose: UNLOAD, or LOAD of a number in 1..65535 (R141). -/
def namesPurpose (f : PurposeField) (p : Purpose) : Prop :=
  (p = .unload ∧ f = .unload) ∨ ∃ n, p = .load n ∧ f = .load n ∧ 1 ≤ n ∧ n ≤ 65535

theorem purposeOf_load (n : Nat) : purposeOf (.load n) = if idInRange n then some (.load n) else none := rfl

theorem purposeOf_eq_some_iff : purposeOf f = some p ↔ namesPurpose f p := by
  cases f with
  | absent => exact iff_of_false nofun (by rintro (⟨-, ⟨⟩⟩ | ⟨n, -, ⟨⟩, -⟩))
  | unnamed => exact iff_of_false nofun (by rintro (⟨-, ⟨⟩⟩ | ⟨n, -, ⟨⟩, -⟩))
  | unload => simp [namesPurpose, purposeOf, eq_comm]
  | load m =>
    rw [purposeOf_load, Option.ite_none_right_eq_some, idInRange_iff]
    simp only [namesPurpose, reduceCtorEq, and_false, false_or, PurposeField.load.injEq, Option.some.injEq]
    constructor
    · rintro ⟨⟨low, high⟩, rfl⟩
      exact ⟨m, rfl, rfl, low, high⟩
    · rintro ⟨n, rfl, rfl, low, high⟩
      exact ⟨⟨low, high⟩, rfl⟩

theorem purposeOf_eq_none_iff : purposeOf f = none ↔ ∀ p, ¬ namesPurpose f p := by
  simp only [← purposeOf_eq_some_iff, Option.eq_none_iff_forall_ne_some, ne_eq]

/-! ## The INNER side (R141) -/

theorem exec_hatchRequest_inner (ha : s.accepts h .hatchRequest) (port : h.port = .archive) (named : f ≠ .absent) :
    exec (.hatchRequest h f) s = .next ((s.received h).innerRequest h f) := by
  have fits : purposeFits h.port f = true := by
    rw [port]
    cases f with
    | absent => exact absurd rfl named
    | load n => rfl
    | unload => rfl
    | unnamed => rfl
  refine congrArg Host.Outcome.next ((request_accepted' _ fits ha).trans ?_)
  simp only [State.hatchRequest, port]

theorem received_blocked (s : State) (h : ReqHead) : (s.received h).fire.blocked = s.fire.blocked :=
  blocked_congr fun a => by rw [received_fire_areas]

theorem innerRequest_mode (mode : s.vault.mode ≠ .staffed) : s.innerRequest h f = s.refuse h .hatchRequest .mode :=
  if_pos mode

section
variable (mode : s.vault.mode = .staffed)
include mode

theorem innerRequest_invalid (unnamed : ∀ p, ¬ namesPurpose f p) : s.innerRequest h f = s.refuse h .hatchRequest .invalid := by
  simp only [State.innerRequest, mode, purposeOf_eq_none_iff.2 unnamed, ne_eq, not_true_eq_false, if_false]

variable (named : namesPurpose f p)
include named

theorem innerRequest_fire (blocked : s.fire.blocked = true) : s.innerRequest h f = s.refuse h .hatchRequest .fire := by
  simp only [State.innerRequest, mode, purposeOf_eq_some_iff.2 named, blocked, ne_eq, not_true_eq_false, if_false, if_true]

variable (unblocked : s.fire.blocked = false)
include unblocked

theorem innerRequest_busy
    (busy : s.hatch.arbiter.pendingInner.isSome = true ∨ s.hatch.arbiter.holds .inner = true) :
    s.innerRequest h f = s.refuse h .hatchRequest .busy := by
  have taken : s.hatch.arbiter.pends .inner = true ∨ s.hatch.arbiter.holds .inner = true := busy
  simp only [State.innerRequest, mode, purposeOf_eq_some_iff.2 named, unblocked, taken, ne_eq, not_true_eq_false,
    Bool.false_eq_true, if_false, if_true]

section
variable (idle : s.hatch.arbiter.pendingInner = none) (without : s.hatch.arbiter.holds .inner = false)
include idle without

theorem innerRequest_of_check {code : ResultCode} (check : s.loadCheck p = some code) :
    s.innerRequest h f = s.refuse h .hatchRequest code := by
  have free : s.hatch.arbiter.pends .inner = false := congrArg Option.isSome idle
  simp only [State.innerRequest, mode, purposeOf_eq_some_iff.2 named, unblocked, free, without, check, ne_eq,
    not_true_eq_false, Bool.false_eq_true, or_self, if_false]

theorem innerRequest_of_passed (passed : s.loadCheck p = none) :
    s.innerRequest h f = (s.onArbiter fun a => { a with pendingInner := some p }).answerHatch h .inner := by
  have free : s.hatch.arbiter.pends .inner = false := congrArg Option.isSome idle
  simp only [State.innerRequest, mode, purposeOf_eq_some_iff.2 named, unblocked, free, without, passed, ne_eq,
    not_true_eq_false, Bool.false_eq_true, or_self, if_false]

end
end

theorem loadCheck_of_absent (absent : s.consignment? n = none) : s.loadCheck (.load n) = some .notFound := by
  simp only [State.loadCheck, absent]

theorem loadCheck_of_consignment (consigned : s.consignment? n = some (i, x)) :
    s.loadCheck (.load n) = if x.state = .sealed ∨ x.state = .ready then none else some .state := by
  simp only [State.loadCheck, consigned]

/-! ## The OUTER side (R141) -/

theorem exec_hatchRequest_outer (ha : s.accepts h .hatchRequest) (port : h.port = .handover) :
    exec (.hatchRequest h .absent) s = .next ((s.received h).outerRequest h) := by
  have fits : purposeFits h.port .absent = true := by rw [port]; rfl
  refine congrArg Host.Outcome.next ((request_accepted' _ fits ha).trans ?_)
  simp only [State.hatchRequest, port]

theorem outerRequest_mode (mode : s.vault.mode = .maintenance) : s.outerRequest h = s.refuse h .hatchRequest .mode :=
  if_pos mode

section
variable (mode : s.vault.mode ≠ .maintenance)
include mode

theorem outerRequest_fire (blocked : s.fire.blocked = true) : s.outerRequest h = s.refuse h .hatchRequest .fire :=
  (if_neg mode).trans (if_pos blocked)

variable (unblocked : s.fire.blocked = false)
include unblocked

theorem outerRequest_busy (busy : s.hatch.arbiter.pendingOuter = true ∨ s.hatch.arbiter.holds .outer = true) :
    s.outerRequest h = s.refuse h .hatchRequest .busy := by
  have taken : s.hatch.arbiter.pends .outer = true ∨ s.hatch.arbiter.holds .outer = true := busy
  simp only [State.outerRequest, mode, unblocked, taken, Bool.false_eq_true, if_false, if_true]

/-- With the side idle, an exchange that is open decides. -/
theorem outerRequest_of_idle (idle : s.hatch.arbiter.pendingOuter = false)
    (without : s.hatch.arbiter.holds .outer = false) :
    s.outerRequest h = if s.hatch.exchange.isNone then s.refuse h .hatchRequest .state
      else (s.onArbiter fun a => { a with pendingOuter := true }).answerHatch h .outer := by
  have free : s.hatch.arbiter.pends .outer = false := idle
  simp only [State.outerRequest, mode, unblocked, free, without, Bool.false_eq_true, or_self, if_false]

end

/-! ## HATCH_RELEASE (R146) -/

theorem exec_hatchRelease (ha : s.accepts h .hatchRelease) (port : h.port = w.port) :
    exec (.hatchRelease h) s = .next ((s.received h).releaseSide h w) := by
  refine congrArg Host.Outcome.next ((request_accepted _ ha).trans ?_)
  cases w <;> simp only [State.hatchRelease, port, Side.port]

theorem releaseSide_of_open (held : s.hatch.arbiter.holds w = true) (stands : (s.hatch.door w).isOpen = true) :
    s.releaseSide h w =
      (s.answer h .hatchRelease [] .ok .none).onArbiter fun a => { a with releasePending := true } := by
  simp only [State.releaseSide, answer_hatch, held, stands, if_true]

theorem releaseSide_of_closed (held : s.hatch.arbiter.holds w = true) (shut : (s.hatch.door w).isOpen = false) :
    let ended := (s.answer h .hatchRelease [] .ok .none).endPossession [] w
    s.releaseSide h w = ended.2.arbitrate ended.1 := by
  simp only [State.releaseSide, answer_hatch, held, shut, Bool.false_eq_true, if_true, if_false]

theorem releaseSide_of_not_held (without : s.hatch.arbiter.holds w = false) :
    s.releaseSide h w = (s.answer h .hatchRelease [] .ok .none).onArbiter fun a => a.withdraw w := by
  simp only [State.releaseSide, answer_hatch, without, Bool.false_eq_true, if_false]

end

/-- Settles O41: each side's checks in order, then what the arbitration gives; and a release by the possession and the
door of its side. -/
theorem hatchRequestsAreArbitrated : Obligations.HatchRequestsAreArbitrated := by
  refine ⟨?_, ?_, ?_⟩
  · intro h f s ha port named u c refused a names
    have asks : exec c s = .next (u.innerRequest h f) := exec_hatchRequest_inner ha port named
    have modes : u.vault.mode = s.vault.mode := congrArg _ (received_vault s h)
    have hatch : u.hatch = s.hatch := received_hatch s h
    have blocks : u.fire.blocked = s.fire.blocked := received_blocked s h
    rw [asks, ← modes, ← blocks]
    refine ⟨fun mode => congrArg _ (innerRequest_mode mode), fun mode bad => congrArg _ (innerRequest_invalid mode bad),
      fun p mode names => ⟨fun blocked => congrArg _ (innerRequest_fire mode names blocked),
        fun unblocked busy => congrArg _ (innerRequest_busy mode names unblocked (by rw [hatch]; exact busy)),
        fun unblocked idle without => ?_⟩⟩
    have idle' : u.hatch.arbiter.pendingInner = none := by rw [hatch]; exact idle
    have without' : u.hatch.arbiter.holds .inner = false := by rw [hatch]; exact without
    intro v done
    have passes : u.loadCheck p = none → Host.Outcome.next (u.innerRequest h f) = done := fun passed =>
      (congrArg _ (innerRequest_of_passed mode names unblocked idle' without' passed)).trans (next_answerHatch .inner _)
    have fails : ∀ code, u.loadCheck p = some code → Host.Outcome.next (u.innerRequest h f) = refused code :=
      fun code check => congrArg _ (innerRequest_of_check mode names unblocked idle' without' check)
    refine ⟨fun unload => passes (by rw [unload]; rfl), fun n load absent => fails _ ?_, fun n i x load consigned => ?_⟩
    · rw [load, loadCheck_of_absent ((received_consignment? s h n).trans absent)]
    · have check := loadCheck_of_consignment ((received_consignment? s h n).trans consigned)
      rw [← load] at check
      exact ⟨fun notSealed notReady => fails _ (check.trans (if_neg (not_or.2 ⟨notSealed, notReady⟩))),
        fun fit => passes (check.trans (if_pos fit))⟩
  · intro h s ha port u c refused a
    have asks : exec c s = .next (u.outerRequest h) := exec_hatchRequest_outer ha port
    have modes : u.vault.mode = s.vault.mode := congrArg _ (received_vault s h)
    have hatch : u.hatch = s.hatch := received_hatch s h
    have blocks : u.fire.blocked = s.fire.blocked := received_blocked s h
    rw [asks, ← modes, ← blocks]
    refine ⟨fun mode => congrArg _ (outerRequest_mode mode),
      fun mode blocked => congrArg _ (outerRequest_fire mode blocked),
      fun mode unblocked busy => congrArg _ (outerRequest_busy mode unblocked (by rw [hatch]; exact busy)),
      fun mode unblocked idle without => ?_⟩
    rw [outerRequest_of_idle mode unblocked (by rw [hatch]; exact idle) (by rw [hatch]; exact without), hatch]
    refine ⟨fun closed => ?_, fun opened => ?_⟩
    · rw [closed]
      rfl
    · rw [if_neg (by rw [← Option.not_isSome, opened]; decide)]
      exact next_answerHatch .outer _
  · intro h w s ha port u v a
    rw [exec_hatchRelease ha port]
    have hatch : u.hatch = s.hatch := received_hatch s h
    refine ⟨fun held stands => ?_, fun held shut => ?_, fun without => ?_⟩
    · exact congrArg _ (releaseSide_of_open (by rw [hatch]; exact held) (by rw [hatch]; exact stands))
    · exact congrArg _ (releaseSide_of_closed (by rw [hatch]; exact held) (by rw [hatch]; exact shut))
    · rw [releaseSide_of_not_held (by rw [hatch]; exact without)]
      cases w <;> rfl

end Sys2Proof.Machine
end

