-- ==== Sys2Proof/Proofs/DoorEvents.lean ====
section
/-! SUPPORT. The openings and closings of the doors, the HELD alarm and the latch's lapse (R137 to R139, R145, R162). -/

namespace Sys2Proof.Machine

section
variable {s : State} {w : Side} {x : Exchange} {t : Nat}

/-! ## An opening (R137) -/

/-- A door that has opened, its timer running (R137). -/
def State.swingOpen (s : State) (w : Side) : State :=
  s.onDoor w fun d => { d with isOpen := true, openedAt := some s.vault.uptime, heldSent := false }

theorem openDoor_forced (shut : s.doorsOpen w = false) (engaged : (s.hatch.door w).released = false) :
    s.openDoor w =
      ((s.swingOpen w).onDoor w fun d => { d with forced := true }).notify [] (.hatchAlarm .forced w) := by
  have shut' : (s.hatch.door w).isOpen = false := shut
  simp only [State.openDoor, shut', engaged, Bool.false_eq_true, if_false]
  rfl

theorem openDoor_normal (shut : s.doorsOpen w = false) (released : (s.hatch.door w).released = true) :
    s.openDoor w = (s.swingOpen w).normalOpening w := by
  have shut' : (s.hatch.door w).isOpen = false := shut
  simp only [State.openDoor, shut', released, Bool.false_eq_true, if_false, if_true]
  rfl

/-- Without an exchange, and at the INNER door, a normal opening cancels the lapse and no more (R145). -/
theorem normalOpening_of_no_leg (noLeg : w = .inner ∨ s.hatch.exchange = none) :
    s.normalOpening w = s.onArbiter fun a => { a with lapseAt := none } := by
  cases w with
  | inner => rfl
  | outer => simp only [State.normalOpening, onArbiter_hatch, noLeg.resolve_left nofun]

theorem normalOpening_of_leg (opened : s.hatch.exchange = some x) :
    let t := s.onArbiter fun a => { a with lapseAt := none }
    s.normalOpening .outer = { t with hatch := { t.hatch with exchange := some { x with leg := .opened } } } := by
  simp only [State.normalOpening, onArbiter_hatch, opened]

theorem swingOpen_exchange (s : State) (w : Side) : (s.swingOpen w).hatch.exchange = s.hatch.exchange := by
  cases w <;> rfl

section
variable (shut : s.doorsOpen w = false) (released : (s.hatch.door w).released = true)
include shut released

theorem openDoor_of_no_leg (noLeg : w = .inner ∨ s.hatch.exchange = none) :
    s.openDoor w = (s.swingOpen w).onArbiter fun a => { a with lapseAt := none } :=
  (openDoor_normal shut released).trans (normalOpening_of_no_leg (noLeg.imp_right (swingOpen_exchange s w).trans))

theorem openDoor_of_leg (outer : w = .outer) (opened : s.hatch.exchange = some x) :
    let t := (s.swingOpen w).onArbiter fun a => { a with lapseAt := none }
    s.openDoor w = { t with hatch := { t.hatch with exchange := some { x with leg := .opened } } } := by
  subst outer
  exact (openDoor_normal shut released).trans (normalOpening_of_leg ((swingOpen_exchange s .outer).trans opened))

end

/-! ## A closing (R139) -/

/-- A door that has closed, its timer stopped (R139). -/
def State.swingShut (s : State) (w : Side) : State := s.onDoor w fun d => { d with isOpen := false, openedAt := none }

/-- A secure door is not forced (R139, step 5). -/
def State.calm (s : State) (w : Side) : State := s.onDoor w fun d => { d with forced := false }

theorem swingShut_arbiter (s : State) (w : Side) : (s.swingShut w).hatch.arbiter = s.hatch.arbiter := by cases w <;> rfl

theorem swingShut_door (s : State) (w : Side) :
    (s.swingShut w).hatch.door w = { s.hatch.door w with isOpen := false, openedAt := none } := by cases w <;> rfl

section
variable (stands : s.doorsOpen w = true)
include stands

/-- The closing of an open door, by whether the door is secure behind it. -/
theorem closeDoor_of_open :
    let u := ((s.swingShut w).closingLatch w).2
    s.closeDoor w = if (u.hatch.door w).secure = true then (u.calm w).arbitrate ((s.swingShut w).closingLatch w).1 else u :=
  if_neg (by rw [show (s.hatch.door w).isOpen = true from stands]; decide)

theorem closeDoor_of_secure {needs : List Nat} {u : State} (latch : (s.swingShut w).closingLatch w = (needs, u))
    (secure : (u.hatch.door w).secure = true) : s.closeDoor w = (u.calm w).arbitrate needs := by
  rw [closeDoor_of_open stands, latch]
  exact if_pos secure

theorem closeDoor_of_insecure {needs : List Nat} {u : State} (latch : (s.swingShut w).closingLatch w = (needs, u))
    (insecure : (u.hatch.door w).secure = false) : s.closeDoor w = u := by
  rw [closeDoor_of_open stands, latch]
  exact if_neg (by rw [insecure]; decide)

end

section
variable (held : s.hatch.arbiter.holds w = true)
include held

theorem closingLatch_ends (ending : s.hatch.arbiter.releasePending = true) :
    s.closingLatch w = s.endPossession [] w := by
  simp only [State.closingLatch, held, ending, if_true]

theorem closingLatch_stays (staying : s.hatch.arbiter.releasePending = false) : s.closingLatch w = ([], s) := by
  simp only [State.closingLatch, held, staying, Bool.false_eq_true, if_true, if_false]

end

/-- A door closed without possession has its latch engaged; the OUTER door's closing clears the revoked mark too
(R139; log 41). -/
theorem closingLatch_of_not_held (without : s.hatch.arbiter.holds w = false) :
    let engaged := s.onDoor w fun d => { d with released := false }
    s.closingLatch w = match w with
      | .inner => ([], engaged)
      | .outer => ([], engaged.unmark) := by
  cases w with
  | inner => simp only [State.closingLatch, without, Bool.false_eq_true, if_false]
  | outer => simp only [State.closingLatch, without, Bool.false_eq_true, if_false, outerSecured_unended]

/-- The door of a possession that has ended is secure once it is closed (R144). -/
theorem endPossession_secure (needs : List Nat) (shut : s.doorsOpen w = false) :
    ((s.endPossession needs w).2.hatch.door w).secure = true := by
  obtain ⟨inner, outer⟩ := endPossession_released needs w s
  have closed : (s.endPossession needs w).2.doorsOpen w = false := by rw [endPossession_doorsOpen, shut]
  refine (secure_iff _).2 ⟨closed, ?_⟩
  cases w with
  | inner => exact inner
  | outer => exact outer

theorem swingShut_doorsOpen (s : State) (w : Side) : (s.swingShut w).doorsOpen w = false :=
  congrArg Door.isOpen (swingShut_door s w)

/-- What the closing of an open door does, by the possession of its side. -/
theorem closeDoor_ends (stands : s.doorsOpen w = true) (held : s.hatch.arbiter.holds w = true)
    (ending : s.hatch.arbiter.releasePending = true) :
    let ended := (s.swingShut w).endPossession [] w
    s.closeDoor w = (ended.2.calm w).arbitrate ended.1 := by
  rw [← swingShut_arbiter s w] at held ending
  exact closeDoor_of_secure stands (closingLatch_ends held ending) (endPossession_secure [] (swingShut_doorsOpen s w))

theorem closeDoor_stays (stands : s.doorsOpen w = true) (held : s.hatch.arbiter.holds w = true)
    (staying : s.hatch.arbiter.releasePending = false) (released : (s.hatch.door w).released = true) :
    s.closeDoor w = s.swingShut w := by
  rw [← swingShut_arbiter s w] at held staying
  refine closeDoor_of_insecure stands (closingLatch_stays held staying) ?_
  rw [swingShut_door, Door.secure, released]
  rfl

theorem closeDoor_engages_inner (stands : s.doorsOpen .inner = true) (without : s.hatch.arbiter.holds .inner = false) :
    let engaged := (s.swingShut .inner).onDoor .inner fun d => { d with released := false }
    s.closeDoor .inner = (engaged.calm .inner).arbitrate [] :=
  closeDoor_of_secure stands (closingLatch_of_not_held (s := s.swingShut .inner) without) rfl

theorem closeDoor_engages_outer (stands : s.doorsOpen .outer = true) (without : s.hatch.arbiter.holds .outer = false) :
    let engaged := (s.swingShut .outer).onDoor .outer fun d => { d with released := false }
    s.closeDoor .outer = (engaged.unmark.calm .outer).arbitrate [] :=
  closeDoor_of_secure stands (closingLatch_of_not_held (s := s.swingShut .outer) without) rfl

/-! ## The HELD alarm and the lapse (R138, R145) -/

theorem exec_doorHeld (running : s.power = .running) : exec (.doorHeld w) s = .next (s.heldDoor w) :=
  congrArg Host.Outcome.next (event_running _ running)

theorem heldDoor_of_due (at' : (s.hatch.door w).openedAt = some t) (stands : (s.hatch.door w).isOpen = true)
    (unsent : (s.hatch.door w).heldSent = false) (due : t + 180 ≤ s.vault.uptime) :
    s.heldDoor w = (s.notify [] (.hatchAlarm .held w)).onDoor w fun d => { d with heldSent := true } := by
  simp only [State.heldDoor, at']
  exact if_pos ⟨due, stands, unsent⟩

theorem heldDoor_of_not_due (not : (s.hatch.door w).isOpen = false ∨ (s.hatch.door w).heldSent = true ∨
    ∀ t, (s.hatch.door w).openedAt = some t → s.vault.uptime < t + 180) : s.heldDoor w = s := by
  simp only [State.heldDoor]
  split
  · rfl
  · rename_i t at'
    refine if_neg fun ⟨due, stands, unsent⟩ => ?_
    rcases not with shut | sent | early
    · exact Bool.false_ne_true (shut.symm.trans stands)
    · exact Bool.false_ne_true (unsent.symm.trans sent)
    · exact absurd due (Nat.not_le.2 (early t at'))

theorem exec_latchLapse (running : s.power = .running) : exec .latchLapse s = .next s.lapseLatch :=
  congrArg Host.Outcome.next (event_running _ running)

/-- The lapse that is set, of the side in possession, is due or not (R145). -/
theorem lapseLatch_of_lapse (lapse : s.hatch.arbiter.lapseAt = some t) (held : s.hatch.arbiter.possession = true)
    (grant : s.hatch.arbiter.grant = some w) : s.lapseLatch = if t ≤ s.vault.uptime then
      ((s.endPossession [] w).2.notify (s.endPossession [] w).1 (.hatchLapsed w)).arbitrate (s.endPossession [] w).1
    else s := by
  simp only [State.lapseLatch, lapse, held, grant]

theorem lapseLatch_of_none (none : s.hatch.arbiter.lapseAt = none) : s.lapseLatch = s := by
  simp only [State.lapseLatch, none]

end

/-- Settles O44: the events by the door, its latch and the possession of its side. -/
theorem doorsAndLatchesFollowTheirEvents : Obligations.DoorsAndLatchesFollowTheirEvents := by
  refine ⟨?_, ?_, ?_, ?_, fun s running none => ?_, fun l s => ⟨rfl, rfl⟩⟩
  · intro w s running d v lapseOff
    have opens : d.isOpen = false → exec (.doorOpened w) s = .next ((s.settleContact w .high).openDoor w) := fun shut =>
      (exec_doorOpened running).trans (congrArg _ (if_neg (by rw [show s.doorsOpen w = false from shut]; decide)))
    exact ⟨fun stands => (exec_doorOpened running).trans (congrArg _ (if_pos stands)),
      fun shut engaged => (opens shut).trans (congrArg _ (openDoor_forced (s := s.settleContact w .high) shut engaged)),
      fun shut released noLeg =>
        (opens shut).trans (congrArg _ (openDoor_of_no_leg (s := s.settleContact w .high) shut released noLeg)),
      fun x shut released outer opened =>
        (opens shut).trans (congrArg _ (openDoor_of_leg (s := s.settleContact w .high) shut released outer opened))⟩
  · intro w s running d a v calm
    have closes : d.isOpen = true → exec (.doorClosed w) s = .next ((s.settleContact w .low).closeDoor w) := fun stands =>
      (exec_doorClosed running).trans (congrArg _ (if_pos stands))
    refine ⟨fun shut => ?_, fun stands held ending => ?_, fun stands held staying released => ?_, fun stands without => ?_⟩
    · exact (exec_doorClosed running).trans (congrArg _ (if_neg (by rw [show s.doorsOpen w = false from shut]; decide)))
    · exact (closes stands).trans (congrArg _ (closeDoor_ends (s := s.settleContact w .low) stands held ending))
    · exact (closes stands).trans (congrArg _ (closeDoor_stays (s := s.settleContact w .low) stands held staying released))
    · refine ⟨fun inner => ?_, fun outer => ?_⟩
      · subst inner
        exact (closes stands).trans (congrArg _ (closeDoor_engages_inner (s := s.settleContact .inner .low) stands without))
      · subst outer
        exact (closes stands).trans (congrArg _ (closeDoor_engages_outer (s := s.settleContact .outer .low) stands without))
  · intro w s running d
    rw [exec_doorHeld running]
    exact ⟨fun t at' stands unsent due => congrArg _ (heldDoor_of_due at' stands unsent due),
      fun not => congrArg _ (heldDoor_of_not_due not)⟩
  · intro w t s running lapse held grant
    rw [exec_latchLapse running, lapseLatch_of_lapse lapse held grant]
    exact ⟨fun due => congrArg _ (if_pos due), fun early => congrArg _ (if_neg (Nat.not_le.2 early))⟩
  · rw [exec_latchLapse running, lapseLatch_of_none none]

end Sys2Proof.Machine
end

