-- ==== Sys2Proof/Proofs/Notices.lean ====
section
/-! SUPPORT. A notice on the ports of its rule, by the masks, and on a queue of 16, by its class (R155, R174, R175,
R177). -/

namespace Sys2Proof.Machine

section
variable {l : Link} {n m : Notice} {before after rest : List Notice}

/-! ## The ports that a notice's rule names (R174) -/

theorem noticeOn_foldl_link (take : Link → Notice → Link) (n : NoticeBody) (q : Port) {ps : List Port} (nodup : ps.Nodup)
    (s : State) : (ps.foldl (fun t p => t.noticeOn take n p) s).link q =
      if q ∈ ps ∧ (n.fixed || (s.link q).subscribed n.cls) = true then take (s.link q) ⟨s.vault.clock, n⟩ else s.link q := by
  induction ps generalizing s with
  | nil => exact (if_neg fun named => List.not_mem_nil named.1).symm
  | cons p ps ih =>
    obtain ⟨apart, nodup⟩ := List.nodup_cons.1 nodup
    rw [List.foldl_cons, ih nodup, noticeOn_vault]
    by_cases here : q = p
    · subst here
      rw [if_neg fun named => apart named.1, noticeOn_link]
      simp only [List.mem_cons_self, true_and]
    · have kept : (s.noticeOn take n p).link q = s.link q := by
        rw [noticeOn_link, if_neg fun named => here named.1]
      simp only [kept, List.mem_cons, here, false_or]

theorem ports_eq (n : NoticeBody) : n.ports = match n with
    | .facilityLink _ => [.archive, .handover]
    | .hatchAlarm _ _ => [.facility, .archive]
    | .hatchGranted w | .hatchLapsed w | .hatchRevoked w => match w with
      | .inner => [.archive]
      | .outer => [.handover]
    | _ => [.facility, .archive, .handover] := by
  cases n with
  | hatchGranted w | hatchLapsed w | hatchRevoked w => cases w <;> rfl
  | _ => rfl

/-- A rule names each of its ports once. -/
theorem ports_nodup (n : NoticeBody) : n.ports.Nodup := by
  cases n with
  | hatchGranted w | hatchLapsed w | hatchRevoked w => exact List.nodup_singleton _
  | facilityLink _ => exact (by decide : [Port.archive, .handover].Nodup)
  | hatchAlarm _ _ => exact (by decide : [Port.facility, .archive].Nodup)
  | _ => exact (by decide : [Port.facility, .archive, .handover].Nodup)

/-- Each port that the rule names takes the notice where its class is in the mask, or whatever the mask is (R174). -/
theorem postNotice_link (n : NoticeBody) (p : Port) (s : State) : (s.postNotice n).link p =
    if p ∈ n.ports ∧ (n.fixed || (s.link p).subscribed n.cls) = true then (s.link p).takeNotice ⟨s.vault.clock, n⟩
    else s.link p := noticeOn_foldl_link _ n p (ports_nodup n) s

theorem fixed_iff (n : NoticeBody) : n.fixed = true ↔ (∃ c f, n = .restarted c f) ∨ ∃ k w, n = .hatchAlarm k w := by
  cases n with
  | restarted c f => exact iff_of_true rfl (.inl ⟨c, f, rfl⟩)
  | hatchAlarm k w => exact iff_of_true rfl (.inr ⟨k, w, rfl⟩)
  | _ => exact iff_of_false nofun (by rintro (⟨_, _, ⟨⟩⟩ | ⟨_, _, ⟨⟩⟩))

/-! ## A queue that takes a notice (R175) -/

theorem joinNotice_of_room (room : l.notices.length < 16) : l.joinNotice n = { l with notices := l.notices ++ [n] } :=
  if_pos room

section
variable (full : l.notices.length = 16)
include full

theorem joinNotice_of_full : l.joinNotice n =
    if n.body.cls = .fire then { l with notices := makeFireRoom l.notices ++ [n], overrun := true }
    else { l with overrun := true } := if_neg (by rw [full]; decide)

/-- A full queue discards a notice of another class than FIRE. -/
theorem joinNotice_discards (other : n.body.cls ≠ .fire) : l.joinNotice n = { l with overrun := true } :=
  (joinNotice_of_full full).trans (if_neg other)

theorem joinNotice_makes_room (fire : n.body.cls = .fire) :
    l.joinNotice n = { l with notices := makeFireRoom l.notices ++ [n], overrun := true } :=
  (joinNotice_of_full full).trans (if_pos fire)

end

/-- The oldest notice of another class than FIRE makes room. -/
theorem makeFireRoom_of_other (fires : ∀ x ∈ before, x.body.cls = .fire) (other : m.body.cls ≠ .fire) :
    makeFireRoom (before ++ m :: after) = before ++ after := by
  have leaves : (m.body.cls != .fire) = true := bne_iff_ne.2 other
  have stay : ∀ x ∈ before, ¬ (x.body.cls != .fire) = true := fun x hx => by rw [fires x hx]; decide
  have some : (before ++ m :: after).any (fun n => n.body.cls != .fire) = true :=
    List.any_eq_true.2 ⟨m, List.mem_append_right _ List.mem_cons_self, leaves⟩
  rw [makeFireRoom, if_pos some, List.eraseP_append_right _ stay, List.eraseP_cons_of_pos (p := fun n : Notice => n.body.cls != .fire) leaves]

/-- Of a queue of FIRE notices the oldest makes room. -/
theorem makeFireRoom_of_fires (fires : ∀ x ∈ m :: rest, x.body.cls = .fire) : makeFireRoom (m :: rest) = rest := by
  refine if_neg fun some => ?_
  obtain ⟨x, hx, leaves⟩ := List.any_eq_true.1 some
  exact bne_iff_ne.1 leaves (fires x hx)

end

/-- Settles O7: the ports of the notice's rule each take it by their masks, and a full queue by the class of the notice. -/
theorem noticesAreQueuedByClass : Obligations.NoticesAreQueuedByClass := by
  refine ⟨postNotice_frame, fun n p s => ?_, fun l n => joinNotice_of_room, fun l n => joinNotice_discards, ?_, ?_,
    fun n => by cases n <;> rfl, ⟨rfl, rfl, rfl, rfl, rfl, rfl⟩, fixed_iff, ports_eq⟩
  · exact (postNotice_link n p s).trans (if_congr (and_congr_right' (iff_of_eq (Bool.or_eq_true _ _))) rfl rfl)
  · intro l n m before after full fire queue fires other
    rw [joinNotice_makes_room full fire, queue, makeFireRoom_of_other fires other]
  · intro l n m rest full fire queue fires
    rw [queue] at fires
    rw [joinNotice_makes_room full fire, queue, makeFireRoom_of_fires fires]

end Sys2Proof.Machine
end
